-- ==== Sys2Proof/Word.lean ====
section
/-! DEFINITION. The byte the wires carry, and the largest 32-bit quantity. -/

namespace Sys2Proof

/-- One byte of a frame (00_scope, "A byte is 8 bits"). -/
abbrev Byte := BitVec 8

/-- The largest works clock minute and the largest maturity (R1, R10, R192): 4,294,967,295. -/
abbrev maxU32 : Nat := 4294967295

end Sys2Proof
end

