-- ==== Sys2Proof/Config.lean ====
section
/-! DEFINITION. What the manual leaves to the part: orders it does not fix, and the codes it does not state.
Every constant here is a FREE VALUE: it has no body, so no proof can lean on what it is (assumption log 1 to 3). -/

namespace Sys2Proof.Config

/-- Which of the timer events that are due is taken next, as a number that `Machine.takeDue` reads as a place in the list
of those due. R78, R162 and R192 leave the order open. `n` is a fresh number at each event (log 1). -/
opaque dueTurn : (n : Nat) → Nat

/-- Whether the Move Queue takes a release of the plant stop before the Crane Link Controller does.
R201 leaves the order open (log 2). -/
opaque queueFirst : (n : Nat) → Bool

/-- What a result carries where a sequence number is absent: R83, R171 say "an indication of none" and R218 gives
no code for it (log 3). -/
opaque absentSequence : Byte

/-- What READ INTAKE carries for a last temperature of none, two bytes (R83; log 3). -/
opaque absentTemperature : BitVec 16

/-- What READ INTAKE carries for a last minute of none, four bytes (R83; log 3). -/
opaque absentMinute : BitVec 32

/-- What READ CRANE carries for a stopped report timer (R171; log 3). -/
opaque stoppedTimer : Byte

/-- What a result carries as the kind of an order or a location that is absent (R136, R171; log 3). -/
opaque absentKind : Byte

end Sys2Proof.Config
end

