-- ==== Sys2Proof/Syntax.lean ====
section
/-! DEFINITION. The steps of the PW-3120: one constructor of `Instr` for each row of spec/opcode_table.json.
A row that names a command of the Command Port carries the header of its frame and the parameters as the frame
carries them (R213, R217, R218), each a number, so that a value outside its range is a term and is refused RANGE. -/

namespace Sys2Proof

/-- A slot number together with a generation; it names a piece record or a ticket record (00_scope, Terms). -/
structure Handle where
  slot : Nat
  gen  : Nat
  deriving DecidableEq, Repr

/-- What the host chooses in a command frame beside the command: the tag, and the flag AFTER (R217). -/
structure Header where
  tag   : Nat
  after : Bool
  deriving DecidableEq, Repr

/-- A mark word (R218): the class in the top 5 bits, the next bit (bit 42), and the mark number in the low 42. -/
structure MarkWord where
  cls    : Nat
  bit42  : Bool
  number : Nat
  deriving DecidableEq, Repr

/-- A segment of a curing plan (R46): a setpoint in 0.5 °C steps and a duration in minutes. -/
structure Segment where
  setpoint : Nat
  duration : Nat
  deriving DecidableEq, Repr

/-- The parameters of FIND, in the order of R21, each as its bytes carry it (R218). -/
structure FindParams where
  start        : Nat
  mask         : Nat
  cls          : Nat
  holdTest     : Nat
  maturityTest : Nat
  maturity     : Nat
  orderTest    : Nat
  maxResults   : Nat
  deriving DecidableEq, Repr

/-- The commands of the command code table (R213), with their parameters as the frame carries them. -/
inductive Command where
  | openWorks
  | readWorks
  | settings (period purge maxTemp t1 t2 t3 threshold home stage : Nat)
  | lockSettings (value : Nat)
  | readSettings
  | sense
  | restoreBed (state bed maturity segment minutes : Nat) (holds : List Nat) (entries : List MarkWord)
  | restorePiece (mark : MarkWord) (maturity holds kind object : Nat)
  | lookupMark (mark : MarkWord)
  | readPiece (piece : Handle)
  | defineClass (cls choice length weight threshold tier : Nat)
  | readClass (cls : Nat)
  | hold (piece : Handle) (value : Nat)
  | releaseHold (piece : Handle) (value : Nat)
  | scrapPiece (piece : Handle)
  | find (params : FindParams)
  | configureBed (bed bay positions setpoint : Nat)
  | prepareBed (bed : Nat)
  | abandonBed (bed : Nat)
  | cast (bed : Nat) (entries : List MarkWord)
  | startCure (bed : Nat)
  | releaseStrand (bed : Nat)
  | scrapBed (bed : Nat)
  | bedPriority (bed level : Nat)
  | readBed (bed : Nat)
  | heatMode (bed mode : Nat)
  | loadPlan (bed : Nat) (plan : List Segment)
  | swapPlan (bed : Nat)
  | stopCure (bed : Nat)
  | readPlan (bed : Nat)
  | readIntake (bed : Nat)
  | defineStack (stack choice bay tiers load : Nat)
  | closeStack (stack : Nat)
  | openStack (stack : Nat)
  | readStack (stack : Nat)
  | defineLane (lane choice bay : Nat)
  | drainLane (lane value : Nat)
  | readLane (lane : Nat)
  | defineTruckBay (truck choice bay : Nat)
  | move (piece : Handle) (kind object level after dig : Nat)
  | stripBed (bed level after : Nat)
  | cancelMove (ticket : Handle)
  | readMove (ticket : Handle)
  | parkCrane (crane bay level : Nat)
  | configureCrane (crane bay : Nat)
  | homeCrane (crane : Nat)
  | clearCrane (crane : Nat)
  | readCrane (crane : Nat)
  | openOrder (truck level dig : Nat) (pieces : List Handle)
  | addToOrder (truck : Nat) (pieces : List Handle)
  | orderLevel (truck level : Nat)
  | cancelOrder (truck : Nat)
  | shipOrder (truck : Nat)
  | readOrder (truck : Nat)
  deriving DecidableEq, Repr

/-- The steps of the part, one constructor for each row of spec/opcode_table.json. The first block are the lines,
timers, yard links and transfers; the rest are the commands, each given to the Command Port as a frame with its
header. A bed line is one of twelve and a crane link one of three, so those operands are bounded by their types. -/
inductive Instr where
  | powerOn (stopAsserted : Bool)
  | portReset
  | plantStopAsserted
  | plantStopReleased
  | worksClockAdvance
  | transitionEnd (bed : Fin 12)
  | segmentEnd (bed : Fin 12)
  | gapExpiry (bed : Fin 12)
  | lostExpiry (bed : Fin 12)
  | stageTimeout (crane : Fin 3)
  | homingTimeout (crane : Fin 3)
  | sample (bed : Fin 12) (sequence : Nat) (temperature : Int) (status : Nat)
  | bedLineMessageDropped (bed : Fin 12) (bytes : List Byte)
  | heatOrderWrite (bed : Fin 12)
  | craneOrderWrite (crane : Fin 3)
  | arrived (crane : Fin 3) (sequence : Nat)
  | lifted (crane : Fin 3) (sequence weight : Nat)
  | lowered (crane : Fin 3) (sequence : Nat)
  | stopped (crane : Fin 3) (sequence bay : Nat)
  | homed (crane : Fin 3) (sequence bay : Nat)
  | fault (crane : Fin 3) (sequence code bay : Nat)
  | craneMessageDropped (crane : Fin 3) (bytes : List Byte)
  | writeFrame (resetLow : Bool) (bytes : List Byte)
  | readResult (resetLow : Bool) (clocked : Nat)
  | readStatus (resetLow : Bool) (clocked : Nat)
  | unknownTypeByte (resetLow : Bool) (typeByte : Byte)
  | invalidCommand (hd : Header) (code : Nat)
  | scanExamine
  | openWorks (hd : Header)
  | readWorks (hd : Header)
  | settings (hd : Header) (period purge maxTemp t1 t2 t3 threshold home stage : Nat)
  | lockSettings (hd : Header) (value : Nat)
  | readSettings (hd : Header)
  | sense (hd : Header)
  | restoreBed (hd : Header) (state bed maturity segment minutes : Nat) (holds : List Nat) (entries : List MarkWord)
  | restorePiece (hd : Header) (mark : MarkWord) (maturity holds kind object : Nat)
  | lookupMark (hd : Header) (mark : MarkWord)
  | readPiece (hd : Header) (piece : Handle)
  | defineClass (hd : Header) (cls choice length weight threshold tier : Nat)
  | readClass (hd : Header) (cls : Nat)
  | hold (hd : Header) (piece : Handle) (value : Nat)
  | releaseHold (hd : Header) (piece : Handle) (value : Nat)
  | scrapPiece (hd : Header) (piece : Handle)
  | find (hd : Header) (params : FindParams)
  | configureBed (hd : Header) (bed bay positions setpoint : Nat)
  | prepareBed (hd : Header) (bed : Nat)
  | abandonBed (hd : Header) (bed : Nat)
  | cast (hd : Header) (bed : Nat) (entries : List MarkWord)
  | startCure (hd : Header) (bed : Nat)
  | releaseStrand (hd : Header) (bed : Nat)
  | scrapBed (hd : Header) (bed : Nat)
  | bedPriority (hd : Header) (bed level : Nat)
  | readBed (hd : Header) (bed : Nat)
  | heatMode (hd : Header) (bed mode : Nat)
  | loadPlan (hd : Header) (bed : Nat) (plan : List Segment)
  | swapPlan (hd : Header) (bed : Nat)
  | stopCure (hd : Header) (bed : Nat)
  | readPlan (hd : Header) (bed : Nat)
  | readIntake (hd : Header) (bed : Nat)
  | defineStack (hd : Header) (stack choice bay tiers load : Nat)
  | closeStack (hd : Header) (stack : Nat)
  | openStack (hd : Header) (stack : Nat)
  | readStack (hd : Header) (stack : Nat)
  | defineLane (hd : Header) (lane choice bay : Nat)
  | drainLane (hd : Header) (lane value : Nat)
  | readLane (hd : Header) (lane : Nat)
  | defineTruckBay (hd : Header) (truck choice bay : Nat)
  | move (hd : Header) (piece : Handle) (kind object level after dig : Nat)
  | stripBed (hd : Header) (bed level after : Nat)
  | cancelMove (hd : Header) (ticket : Handle)
  | readMove (hd : Header) (ticket : Handle)
  | parkCrane (hd : Header) (crane bay level : Nat)
  | configureCrane (hd : Header) (crane bay : Nat)
  | homeCrane (hd : Header) (crane : Nat)
  | clearCrane (hd : Header) (crane : Nat)
  | readCrane (hd : Header) (crane : Nat)
  | openOrder (hd : Header) (truck level dig : Nat) (pieces : List Handle)
  | addToOrder (hd : Header) (truck : Nat) (pieces : List Handle)
  | orderLevel (hd : Header) (truck level : Nat)
  | cancelOrder (hd : Header) (truck : Nat)
  | shipOrder (hd : Header) (truck : Nat)
  | readOrder (hd : Header) (truck : Nat)
  deriving DecidableEq, Repr

end Sys2Proof
end

