-- ==== Sys2Proof/WellFormed.lean ====
section
/-! DEFINITION. Which terms of `Instr` can be sent at all: every number fits the field that carries it (R218), and
every variable list fits the 64 bytes of a frame (R205, R213). A value that fits its field but lies outside its
command's range is well formed, and the command is refused RANGE. -/

namespace Sys2Proof

/-- A number that a field of `k` bytes carries. -/
def fits (k n : Nat) : Bool := decide (n < 256 ^ k)

/-- R218: a handle is 2 bytes, the generation in the top 6 bits and the slot in the low 10. -/
def Handle.wellFormed (h : Handle) : Bool := decide (h.slot < 1024) && decide (h.gen < 64)

/-- R217: the tag is one byte. -/
def Header.wellFormed (hd : Header) : Bool := fits 1 hd.tag

/-- R218: 5 bits of class and 42 bits of mark number. -/
def MarkWord.wellFormed (m : MarkWord) : Bool := decide (m.cls < 32) && decide (m.number < 2 ^ 42)

/-- R218: a setpoint is 1 byte and a segment duration 2. -/
def Segment.wellFormed (g : Segment) : Bool := fits 1 g.setpoint && fits 2 g.duration

/-- R218: the widths of FIND's parameters. -/
def FindParams.wellFormed (p : FindParams) : Bool :=
  fits 2 p.start && fits 1 p.mask && fits 1 p.cls && fits 1 p.holdTest && fits 1 p.maturityTest && fits 4 p.maturity
    && fits 1 p.orderTest && fits 1 p.maxResults

/-- R213, R217, R218: every parameter fits its bytes, and the frame with its 5 other bytes stays within 64. -/
def Command.wellFormed : Command → Bool
  | .openWorks | .readWorks | .readSettings | .sense => true
  | .settings p pu mx t1 t2 t3 th ho st =>
      fits 1 p && fits 1 pu && fits 1 mx && fits 1 t1 && fits 1 t2 && fits 1 t3 && fits 1 th && fits 1 ho && fits 1 st
  | .lockSettings v => fits 1 v
  | .restoreBed state bed mat seg mins holds entries =>
      decide (state < 16) && decide (bed < 16) && fits 4 mat && decide (seg < 8) && decide (mins < 2048)
        && decide (holds.length = 8) && holds.all (fun h => decide (h < 16))
        && decide (entries.length ≤ 8) && entries.all MarkWord.wellFormed
  | .restorePiece m mat holds kind object => m.wellFormed && fits 4 mat && fits 1 holds && fits 1 kind && fits 1 object
  | .lookupMark m => m.wellFormed
  | .readPiece h | .scrapPiece h | .cancelMove h | .readMove h => h.wellFormed
  | .defineClass c ch len wt thr tier => fits 1 c && fits 1 ch && fits 2 len && fits 2 wt && fits 4 thr && fits 1 tier
  | .hold h v | .releaseHold h v => h.wellFormed && fits 1 v
  | .find p => p.wellFormed
  | .configureBed a b c d => fits 1 a && fits 1 b && fits 1 c && fits 1 d
  | .cast bed entries => fits 1 bed && decide (entries.length ≤ 9) && entries.all MarkWord.wellFormed
  | .loadPlan bed plan => fits 1 bed && decide (plan.length ≤ 19) && plan.all Segment.wellFormed
  | .defineStack s ch bay tiers load => fits 1 s && fits 1 ch && fits 1 bay && fits 1 tiers && fits 2 load
  | .defineLane a b c | .defineTruckBay a b c | .stripBed a b c | .parkCrane a b c => fits 1 a && fits 1 b && fits 1 c
  | .move h k o l a d => h.wellFormed && fits 1 k && fits 1 o && fits 1 l && fits 1 a && fits 1 d
  | .openOrder t l d hs => fits 1 t && fits 1 l && fits 1 d && decide (hs.length ≤ 28) && hs.all Handle.wellFormed
  | .addToOrder t hs => fits 1 t && decide (hs.length ≤ 29) && hs.all Handle.wellFormed
  | .bedPriority a b | .heatMode a b | .drainLane a b | .configureCrane a b | .orderLevel a b => fits 1 a && fits 1 b
  | .readClass a | .prepareBed a | .abandonBed a | .startCure a | .releaseStrand a | .scrapBed a | .readBed a
  | .swapPlan a | .stopCure a | .readPlan a | .readIntake a | .closeStack a | .openStack a | .readStack a | .readLane a
  | .homeCrane a | .clearCrane a | .readCrane a | .cancelOrder a | .shipOrder a | .readOrder a => fits 1 a

/-- The command that a row stands for, with the header of its frame; none for the rows that are no command. -/
def Instr.command? : Instr → Option (Header × Command)
  | .powerOn _ | .portReset | .plantStopAsserted | .plantStopReleased | .worksClockAdvance | .transitionEnd _
  | .segmentEnd _ | .gapExpiry _ | .lostExpiry _ | .stageTimeout _ | .homingTimeout _ | .sample _ _ _ _
  | .bedLineMessageDropped _ _ | .heatOrderWrite _ | .craneOrderWrite _ | .arrived _ _ | .lifted _ _ _ | .lowered _ _
  | .stopped _ _ _ | .homed _ _ _ | .fault _ _ _ _ | .craneMessageDropped _ _ | .writeFrame _ _ | .readResult _ _
  | .readStatus _ _ | .unknownTypeByte _ _ | .invalidCommand _ _ | .scanExamine => none
  | .openWorks hd => some (hd, .openWorks)
  | .readWorks hd => some (hd, .readWorks)
  | .settings hd p pu mx t1 t2 t3 th ho st => some (hd, .settings p pu mx t1 t2 t3 th ho st)
  | .lockSettings hd v => some (hd, .lockSettings v)
  | .readSettings hd => some (hd, .readSettings)
  | .sense hd => some (hd, .sense)
  | .restoreBed hd st bed mat seg mins hs es => some (hd, .restoreBed st bed mat seg mins hs es)
  | .restorePiece hd m mat hs k o => some (hd, .restorePiece m mat hs k o)
  | .lookupMark hd m => some (hd, .lookupMark m)
  | .readPiece hd h => some (hd, .readPiece h)
  | .defineClass hd c ch len wt thr tier => some (hd, .defineClass c ch len wt thr tier)
  | .readClass hd c => some (hd, .readClass c)
  | .hold hd h v => some (hd, .hold h v)
  | .releaseHold hd h v => some (hd, .releaseHold h v)
  | .scrapPiece hd h => some (hd, .scrapPiece h)
  | .find hd p => some (hd, .find p)
  | .configureBed hd b bay pos sp => some (hd, .configureBed b bay pos sp)
  | .prepareBed hd b => some (hd, .prepareBed b)
  | .abandonBed hd b => some (hd, .abandonBed b)
  | .cast hd b es => some (hd, .cast b es)
  | .startCure hd b => some (hd, .startCure b)
  | .releaseStrand hd b => some (hd, .releaseStrand b)
  | .scrapBed hd b => some (hd, .scrapBed b)
  | .bedPriority hd b l => some (hd, .bedPriority b l)
  | .readBed hd b => some (hd, .readBed b)
  | .heatMode hd b m => some (hd, .heatMode b m)
  | .loadPlan hd b p => some (hd, .loadPlan b p)
  | .swapPlan hd b => some (hd, .swapPlan b)
  | .stopCure hd b => some (hd, .stopCure b)
  | .readPlan hd b => some (hd, .readPlan b)
  | .readIntake hd b => some (hd, .readIntake b)
  | .defineStack hd s ch bay tiers load => some (hd, .defineStack s ch bay tiers load)
  | .closeStack hd s => some (hd, .closeStack s)
  | .openStack hd s => some (hd, .openStack s)
  | .readStack hd s => some (hd, .readStack s)
  | .defineLane hd l ch bay => some (hd, .defineLane l ch bay)
  | .drainLane hd l v => some (hd, .drainLane l v)
  | .readLane hd l => some (hd, .readLane l)
  | .defineTruckBay hd t ch bay => some (hd, .defineTruckBay t ch bay)
  | .move hd h k o l a d => some (hd, .move h k o l a d)
  | .stripBed hd b l a => some (hd, .stripBed b l a)
  | .cancelMove hd h => some (hd, .cancelMove h)
  | .readMove hd h => some (hd, .readMove h)
  | .parkCrane hd c b l => some (hd, .parkCrane c b l)
  | .configureCrane hd c b => some (hd, .configureCrane c b)
  | .homeCrane hd c => some (hd, .homeCrane c)
  | .clearCrane hd c => some (hd, .clearCrane c)
  | .readCrane hd c => some (hd, .readCrane c)
  | .openOrder hd t l d hs => some (hd, .openOrder t l d hs)
  | .addToOrder hd t hs => some (hd, .addToOrder t hs)
  | .orderLevel hd t l => some (hd, .orderLevel t l)
  | .cancelOrder hd t => some (hd, .cancelOrder t)
  | .shipOrder hd t => some (hd, .shipOrder t)
  | .readOrder hd t => some (hd, .readOrder t)

/-- A step that can be sent. A link message's numbers fit its bytes (R219); a transfer clocks any number of bytes;
the type byte of UNKNOWN TYPE BYTE is none of the three that R203 names. -/
def Instr.wellFormed (i : Instr) : Bool :=
  match i.command? with
  | some (hd, c) => hd.wellFormed && c.wellFormed
  | none =>
    match i with
    | .sample _ q t st => fits 1 q && decide (-32768 ≤ t) && decide (t ≤ 32767) && fits 1 st
    | .arrived _ q | .lowered _ q => fits 1 q
    | .lifted _ q w => fits 1 q && fits 2 w
    | .stopped _ q b | .homed _ q b => fits 1 q && fits 1 b
    | .fault _ q c b => fits 1 q && fits 1 c && fits 1 b
    | .unknownTypeByte _ b => decide (b ≠ 1#8) && decide (b ≠ 2#8) && decide (b ≠ 3#8)
    | .invalidCommand hd c => hd.wellFormed && fits 1 c
    | _ => true

end Sys2Proof
end

