-- ==== Sys2Proof/Decode.lean ====
section
/-! DEFINITION. spec/opcode_table.json gives none of its rows any bits ("n_rows_unread": 82 of 82 in 98_reader.md), so no
word of the table spells a step. The frames that carry commands and messages on the wires are decoded in
Machine/Frames.lean. -/

namespace Sys2Proof

/-- The step that a word spells by the table's bits: none, since no row of the table gives bits. -/
def decodeTableWord (_nbits _w : Nat) : Option Instr := none

end Sys2Proof
end

