-- ==== Sys2Proof/Machine/State.lean ====
section
/-! DEFINITION. The records of the PW-3120, as the manual's blocks own them (00_scope, Block overview), and their
power-on values. Plain data throughout. -/

namespace Sys2Proof.Machine

/-! ## Works Control (10, 11) -/

/-- R191: the works phase. -/
inductive Phase where
  | closed
  | opened
  deriving DecidableEq, Repr

/-- R215: the works settings, without the lock. -/
structure Settings where
  period      : Nat   -- sample period P, minutes
  purge       : Nat   -- purge time, minutes
  maxTemp     : Nat   -- maximum cure temperature, 0.5 °C steps
  t1          : Nat
  t2          : Nat
  t3          : Nat
  threshold   : Nat   -- result threshold
  homeTimeout : Nat
  stageTimeout : Nat
  deriving DecidableEq, Repr

/-- R215: the defaults. -/
def Settings.default : Settings := ⟨5, 5, 140, 2, 4, 7, 1, 10, 15⟩

/-- R191, R215: the works record with the settings and the settings lock. -/
structure Works where
  phase    : Phase
  clock    : Nat
  stop     : Bool       -- plant stop state asserted
  settings : Settings
  lock     : Bool
  deriving DecidableEq, Repr

/-! ## Piece Table (01) -/

/-- R16: the set of holds. -/
structure Holds where
  qc     : Bool
  damage : Bool
  weight : Bool
  cure   : Bool
  deriving DecidableEq, Repr

/-- No hold. -/
def Holds.none : Holds := ⟨false, false, false, false⟩

/-- R1: where a piece is. -/
inductive Location where
  | bed (bed position : Nat)
  | hook (crane : Nat)
  | lane (lane : Nat)
  | stack (stack tier : Nat)
  | truck (truck tier : Nat)
  deriving DecidableEq, Repr

/-- R1: a piece record; its handle is the slot and the slot's generation. The mark is held as its mark number, which
names the 8 characters and is named by them (R218; log 19). -/
structure Piece where
  mark       : Nat
  cls        : Nat
  location   : Location
  maturity   : Nat
  castMinute : Nat
  holds      : Holds
  order      : Option Nat
  ticket     : Option Handle
  deriving DecidableEq, Repr

/-- R1: a record slot keeps its generation, and a record while it is live. -/
structure PieceSlot where
  gen   : Nat
  piece : Option Piece
  deriving DecidableEq, Repr

/-- R13: a class entry. -/
structure ClassEntry where
  defined   : Bool
  length    : Nat
  weight    : Nat
  threshold : Nat
  tier      : Nat
  liveCount : Nat
  deriving DecidableEq, Repr

/-- R25: an undefined class entry. -/
def ClassEntry.undefined : ClassEntry := ⟨false, 0, 0, 0, 0, 0⟩

/-! ## Bed Unit (02) -/

/-- R26: the bed states, in the order of R26. -/
inductive BedState where
  | vacant
  | set
  | cast
  | curing
  | released
  | stripping
  deriving DecidableEq, Repr

/-- R42: a bed's alarm flags. -/
structure BedFlags where
  planDone  : Bool
  gap       : Bool
  lost      : Bool
  overTemp  : Bool
  unitFault : Bool
  deriving DecidableEq, Repr

/-- No alarm flag latched. -/
def BedFlags.none : BedFlags := ⟨false, false, false, false, false⟩

/-- R26: a bed record. -/
structure BedRecord where
  configured   : Bool
  bay          : Nat
  positions    : Nat
  holdSetpoint : Nat
  state        : BedState
  table        : Vector (Option Handle) 8
  maturity     : Nat
  turnover     : Nat
  flags        : BedFlags
  deriving DecidableEq, Repr

/-- R45: a bed record after power-on. -/
def BedRecord.reset : BedRecord := ⟨false, 0, 1, 60, .vacant, Vector.replicate 8 none, 0, 0, .none⟩

/-! ## Cure Control (03) and the bed lines -/

/-- R46: a heat mode, in the order of R49. -/
inductive HeatMode where
  | off
  | steam
  | mat
  deriving DecidableEq, Repr

/-- R46: a transition. -/
inductive Transition where
  | none
  | purge
  | settle
  deriving DecidableEq, Repr

/-- R46: a plan state. -/
inductive PlanState where
  | none
  | loaded
  | running
  | complete
  deriving DecidableEq, Repr

/-- R55, R219: the mode word of a heat order, coded as in the HEAT frame. -/
inductive ModeWord where
  | off
  | purge
  | settle
  | steam
  | mat
  deriving DecidableEq, Repr

/-- R55: a heat order. -/
structure HeatOrder where
  mode     : ModeWord
  setpoint : Nat
  deriving DecidableEq, Repr

/-- The order OFF at 0.0 °C. -/
def HeatOrder.off : HeatOrder := ⟨.off, 0⟩

/-- R46: a heat record. A plan slot holds its segments; the empty list is the empty slot. `due` says that the record's timer
event of this minute is still to be taken (the model's own part, log 4). -/
structure HeatRecord where
  requested   : HeatMode
  running     : HeatMode
  transition  : Transition
  minutes     : Nat
  run         : List Segment
  next        : List Segment
  plan        : PlanState
  segIndex    : Nat
  segMinutes  : Nat
  swapPending : Bool
  lastOrder   : HeatOrder
  due         : Bool
  deriving DecidableEq, Repr

/-- R66: a heat record after power-on. -/
def HeatRecord.reset : HeatRecord := ⟨.off, .off, .none, 0, [], [], .none, 0, 0, false, .off, false⟩

/-- R56, R219: one bed line: the heat count, the content of the last HEAT frame written, the frame being written
(the line is free when there is none), and the order waiting for the line. -/
structure BedLine where
  heatCount   : Nat
  lastWritten : HeatOrder
  writing     : Option (List Byte)
  waiting     : Option HeatOrder
  deriving DecidableEq, Repr

/-- R219: a bed line after power-on. -/
def BedLine.reset : BedLine := ⟨0, .off, none, none⟩

/-! ## Sample Intake (04) -/

/-- R67: the sample state. -/
inductive SampleState where
  | ok
  | gap
  | lost
  deriving DecidableEq, Repr

/-- R67: an intake record. `due` says that its timer event of this minute is still to be taken (the model's own part, log 4). -/
structure IntakeRecord where
  state     : SampleState
  lastSeq   : Option Nat
  gapCount  : Nat
  lastTemp  : Option Int
  lastMinute : Option Nat
  unitFault : Bool
  due       : Bool
  deriving DecidableEq, Repr

/-- R85: an intake record after power-on. -/
def IntakeRecord.reset : IntakeRecord := ⟨.ok, none, 0, none, none, false, false⟩

/-! ## Stock Map (05) and dispatch orders (09) -/

/-- R86: the kind of a claim. -/
inductive ClaimKind where
  | place
  | lift
  deriving DecidableEq, Repr

/-- R86: a claim. -/
structure Claim where
  kind   : ClaimKind
  ticket : Handle
  deriving DecidableEq, Repr

/-- R86: the state of a stack. -/
inductive StackState where
  | undefined
  | opened
  | closed
  deriving DecidableEq, Repr

/-- R86: a stack record. -/
structure StackRecord where
  state   : StackState
  bay     : Nat
  tiers   : Nat
  limit   : Nat
  pieces  : List Handle
  claims  : List Claim
  digLock : Bool
  buried  : Nat
  deriving DecidableEq, Repr

/-- R112: a stack after power-on. -/
def StackRecord.reset : StackRecord := ⟨.undefined, 0, 0, 0, [], [], false, 0⟩

/-- R98: a lane record. -/
structure LaneRecord where
  defined      : Bool
  bay          : Nat
  pieces       : List Handle
  reservations : Nat
  drain        : Bool
  demand       : Nat
  deriving DecidableEq, Repr

/-- R112: a lane after power-on. -/
def LaneRecord.reset : LaneRecord := ⟨false, 0, [], 0, false, 0⟩

/-- R106: the state of a truck bay. -/
inductive TruckState where
  | free
  | opened
  | complete
  | unloading
  deriving DecidableEq, Repr

/-- R106, R174: a truck bay record with its order fields. -/
structure TruckRecord where
  defined      : Bool
  bay          : Nat
  state        : TruckState
  pieces       : List Handle
  orderList    : List Handle
  level        : Nat
  digEnable    : Bool
  nextIndex    : Nat
  currentPick  : Option Handle
  flagComplete : Bool
  flagChanged  : Bool
  deriving DecidableEq, Repr

/-- R112, R190: a truck bay after power-on. -/
def TruckRecord.reset : TruckRecord := ⟨false, 0, .free, [], [], 0, false, 0, none, false, false⟩

/-! ## Move Queue (06) -/

/-- R113: the kind of a ticket. -/
inductive TicketKind where
  | strip
  | stow
  | shift
  | pick
  | dig
  | yield
  | park
  deriving DecidableEq, Repr

/-- R113: the state of a ticket. -/
inductive TicketState where
  | pending
  | ready
  | granted
  | lifting
  | lifted
  | setting
  | done
  | failed
  | cancelled
  deriving DecidableEq, Repr

/-- R113: a destination; YIELD and PARK have a bay. -/
inductive Dest where
  | stack (stack : Nat)
  | lane (lane : Nat)
  | truck (truck : Nat)
  | bay (bay : Nat)
  deriving DecidableEq, Repr

/-- R113: the wait reasons, in the order of R113. -/
structure Waits where
  after    : Bool
  source   : Bool
  buried   : Bool
  dest     : Bool
  order    : Bool
  stop     : Bool
  redirect : Bool
  deriving DecidableEq, Repr

/-- No wait reason. -/
def Waits.none : Waits := ⟨false, false, false, false, false, false, false⟩

/-- R113: the outcome of a ticket. -/
inductive TicketOutcome where
  | none
  | done
  | weight
  | craneFault
  | cancelled
  | withdrawn
  deriving DecidableEq, Repr

/-- R113: a ticket record; its handle is the slot and the slot's generation. -/
structure Ticket where
  kind         : TicketKind
  piece        : Option Handle
  source       : Option Location
  dest         : Option Dest
  baseLevel    : Nat
  level        : Nat           -- effective level
  after        : Bool
  dig          : Bool
  truck        : Option Nat
  serves       : Option Handle
  crane        : Option Nat
  state        : TicketState
  weightFailed : Bool
  holdPending  : Bool
  waits        : Waits
  outcome      : TicketOutcome
  redirected   : Bool
  deriving DecidableEq, Repr

/-- R113: a ticket slot. -/
structure TicketSlot where
  gen    : Nat
  ticket : Option Ticket
  deriving DecidableEq, Repr

/-! ## Runway Arbiter (07) and Crane Link Controller (08) -/

/-- An interval of bays lo–hi, both ends included (00_scope). -/
structure Interval where
  lo : Nat
  hi : Nat
  deriving DecidableEq, Repr

/-- R138: what the arbiter holds for a crane. -/
structure ArbiterRecord where
  claim : Option Interval
  bound : Option Handle
  deriving DecidableEq, Repr

/-- R155: the state of a crane. -/
inductive CraneState where
  | unhomed
  | homing
  | idle
  | busy
  | stopped
  | faulted
  deriving DecidableEq, Repr

/-- R155: a fault code. -/
inductive FaultCode where
  | none
  | timeout
  | reported
  | homeConflict
  | homeTimeout
  deriving DecidableEq, Repr

/-- R155: the kind of a stage order. -/
inductive OrderKind where
  | travel
  | lift
  | lower
  | home
  deriving DecidableEq, Repr

/-- R155: a stage order: its kind, its sequence number, and its bay or weight (0 where it has none). -/
structure StageOrder where
  kind : OrderKind
  seq  : Nat
  arg  : Nat
  deriving DecidableEq, Repr

/-- R155, R162: a running report timer: the minutes that remain, and whether its timer event of this minute is still to be
taken (`due`, the model's own part, log 4). -/
structure Timer where
  minutes : Nat
  due     : Bool
  deriving DecidableEq, Repr

/-- R155: a crane record. -/
structure CraneRecord where
  state        : CraneState
  homeBay      : Nat
  hook         : Option Handle
  current      : Option Handle
  lastBay      : Nat
  faultCode    : FaultCode
  controller   : Nat
  nextSeq      : Nat
  stage        : Option StageOrder
  stopOrder    : Option Nat
  halted       : Bool
  timer        : Option Timer    -- none while stopped
  flagFault    : Bool
  flagProtocol : Bool
  deriving DecidableEq, Repr

/-- R173: a crane after power-on, with its home bay. -/
def CraneRecord.reset (home : Nat) : CraneRecord :=
  ⟨.unhomed, home, none, none, home, .none, 0, 0, none, none, false, none, false, false⟩

/-- R157: one crane link: the frame being written (the link is free when there is none) and the frames waiting
behind it, in order. -/
structure CraneLine where
  writing : Option (List Byte)
  queue   : List (List Byte)
  deriving DecidableEq, Repr

/-! ## The yard: the records that crane work reaches -/

/-- The piece slots, the Stock Map, the Move Queue, the Runway Arbiter, the crane records and the crane links. Every
operation of the move machinery (claims, readiness, searches, dig rounds, the arbiter) is a function of this part. -/
structure Yard where
  pieces    : Vector PieceSlot 1024
  stackRecs : Vector StackRecord 40
  lanes     : Vector LaneRecord 2
  trucks    : Vector TruckRecord 4
  tickets   : Vector TicketSlot 24
  moveQueue : List Nat            -- slots in use, in order of acceptance (R115)
  finished  : List Nat            -- slots of finished tickets, oldest first (R135)
  arbiter   : Vector ArbiterRecord 3
  cranes    : Vector CraneRecord 3
  links     : Vector CraneLine 3
  deriving DecidableEq, Repr

/-- R25, R112, R137, R154, R173, R190: the yard after power-on. -/
def Yard.reset : Yard where
  pieces := Vector.replicate 1024 ⟨0, none⟩
  stackRecs := Vector.replicate 40 .reset
  lanes := Vector.replicate 2 .reset
  trucks := Vector.replicate 4 .reset
  tickets := Vector.replicate 24 ⟨0, none⟩
  moveQueue := []
  finished := []
  arbiter := Vector.replicate 3 ⟨none, none⟩
  cranes := #v[CraneRecord.reset 0, CraneRecord.reset 32, CraneRecord.reset 63]
  links := Vector.replicate 3 ⟨none, []⟩

/-! ## Command Port (11) and scan unit (01) -/

/-- R205: the state of an entry. A completed entry keeps its result frame; `rank` counts the completed entries that
completed before it and have not posted (R209). -/
inductive EntryState where
  | waiting
  | scanning
  | completed (rank : Nat) (result : List Byte)
  deriving DecidableEq, Repr

/-- R205: an entry of the command queue. A frame that R207 answers INVALID at its start has no command. -/
structure Entry where
  tag   : Nat
  code  : Nat
  after : Bool
  cmd   : Option Command
  state : EntryState
  deriving DecidableEq, Repr

/-- R21 to R24: a FIND in progress: its parameters, the slot to be examined next, the handles noted in order. -/
structure Scan where
  params : FindParams
  slot   : Nat
  found  : List Handle
  deriving DecidableEq, Repr

/-- R203 to R210: the Command Port. `lastOut` are the bytes the part clocked out in the last transfer (log 8). -/
structure Port where
  commandQueue : List Entry
  resultQueue  : List (List Byte)
  overflow     : Bool
  frameError   : Bool
  scan         : Option Scan
  lastOut      : List Byte
  deriving DecidableEq, Repr

/-- R204, R205, R209, R25: the Command Port after power-on. -/
def Port.reset : Port := ⟨[], [], false, false, none, []⟩

/-! ## The state -/

/-- Every record of the part but the Command Port's: what commands, yard link messages and line events change. -/
structure Plant where
  works     : Works
  classes   : Vector ClassEntry 32
  markMap   : List (Nat × Nat)     -- mark and slot, in rising order of slot (R6)
  beds      : Vector BedRecord 12
  cure      : Vector HeatRecord 12
  bedLines  : Vector BedLine 12
  intake    : Vector IntakeRecord 12
  yard      : Yard
  deriving DecidableEq, Repr

/-- R192: the timer event of one record at an advance of the works clock: a bed's heat record (R48), a bed's intake record
(R78), or a crane's report timer (R162). -/
inductive TimerEvent where
  | heat (bed : Nat)
  | intake (bed : Nat)
  | crane (crane : Nat)
  deriving DecidableEq, Repr

/-- Everything the manual gives the part, its records and its port; the counter of the free values (`freeCount`, log 1), and
the steps that wait to be taken (`pending`, log 7). Which timer events of this minute are still to be taken stands in the
records that take them (`HeatRecord.due`, `IntakeRecord.due`, `Timer.due`; R192, log 4). -/
structure State where
  plant     : Plant
  port      : Port
  freeCount : Nat
  pending   : List Instr
  deriving DecidableEq, Repr

/-- The records at the end of power-on, with the level of the plant stop line (R191). -/
def Plant.powerOn (stopAsserted : Bool) : Plant where
  works := ⟨.closed, 0, stopAsserted, .default, false⟩
  classes := Vector.replicate 32 .undefined
  markMap := []
  beds := Vector.replicate 12 .reset
  cure := Vector.replicate 12 .reset
  bedLines := Vector.replicate 12 .reset
  intake := Vector.replicate 12 .reset
  yard := .reset

/-- The part right after power-on with the plant stop line released (log 9). -/
def State.reset : State := ⟨Plant.powerOn false, .reset, 0, []⟩

/-- The reasons a step could stop the part. The manual describes none: a bad command is refused with an outcome code
(R212), a bad frame latches a flag (R205), a bad message is dropped (R68, R158). So the type has no constructor, and
no step can raise a fault. -/
inductive Fault where
  deriving DecidableEq, Repr

/-- The reasons a step has no meaning here. -/
inductive Refusal where
  /-- Raised by no arm of `exec`: every row of the table has its meaning. Kept because the interface names it. Safe. -/
  | notModelled (mnemonic : String)
  deriving DecidableEq, Repr

end Sys2Proof.Machine
end

