-- ==== Sys2Proof/Machine/Ops.lean ====
section
/-! DEFINITION. The named operations over the records: reading and changing one record of a block, looking up pieces
and tickets by handle, and sending an order on a crane link. Every other file goes through these. -/

namespace Sys2Proof.Machine

/-! ## Bytes -/

/-- R217: the `k` bytes of a quantity, most significant first. -/
def beBytes : (k n : Nat) → List Byte
  | 0, _ => []
  | k + 1, n => beBytes k (n / 256) ++ [BitVec.ofNat 8 n]

/-- R217: the quantity that bytes carry, most significant first. -/
def ofBytes (bs : List Byte) : Nat := bs.foldl (fun n b => n * 256 + b.toNat) 0

/-- The sum of bytes modulo 256. -/
def byteSum (bs : List Byte) : Byte := bs.foldl (· + ·) 0

/-- R217, R219: the byte that makes the sum of the bytes and itself 0 modulo 256. -/
def checkByte (bs : List Byte) : Byte := 0 - byteSum bs

/-- One byte. -/
def byte1 (n : Nat) : List Byte := beBytes 1 n

/-- R218: a yes or no, set or clear, on or off value. -/
def boolByte (b : Bool) : List Byte := byte1 (if b then 1 else 0)

/-- R218: a set as one byte, its members in the order of its list, the first in bit 0. -/
def setNat : List Bool → Nat
  | [] => 0
  | b :: bs => (if b then 1 else 0) + 2 * setNat bs

/-! ## Records in a vector -/

/-- The record at a number, or `d` where there is none. -/
def getOr {α : Type} {n : Nat} (v : Vector α n) (i : Nat) (d : α) : α := (v[i]?).getD d

/-- One record of a vector changed; nothing where there is none. -/
def upd {α : Type} {n : Nat} (v : Vector α n) (i : Nat) (f : α → α) : Vector α n :=
  if h : i < n then v.set i (f v[i]) h else v

/-- Each number of a list taken in order through a function of the state that is passed along. -/
def forEach {σ α : Type} (xs : List α) (f : σ → α → σ) (s : σ) : σ := xs.foldl f s

/-! ## What the move machinery reads beside the yard -/

/-- The records that the move machinery reads and never changes: the plant stop state, the works settings, the bed
records and the class table. -/
structure Site where
  stop     : Bool
  settings : Settings
  beds     : Vector BedRecord 12
  classes  : Vector ClassEntry 32
  deriving DecidableEq, Repr

/-- The site of a plant. -/
def Plant.site (s : Plant) : Site := ⟨s.works.stop, s.works.settings, s.beds, s.classes⟩

/-! ## Records of the plant -/

def Plant.bed (s : Plant) (b : Nat) : BedRecord := getOr s.beds b .reset
def Plant.heat (s : Plant) (b : Nat) : HeatRecord := getOr s.cure b .reset
def Plant.intakeOf (s : Plant) (b : Nat) : IntakeRecord := getOr s.intake b .reset
def Plant.bedLine (s : Plant) (b : Nat) : BedLine := getOr s.bedLines b .reset
def Plant.cls (s : Plant) (c : Nat) : ClassEntry := getOr s.classes c .undefined

def Plant.updBed (s : Plant) (b : Nat) (f : BedRecord → BedRecord) : Plant := { s with beds := upd s.beds b f }
def Plant.updHeat (s : Plant) (b : Nat) (f : HeatRecord → HeatRecord) : Plant := { s with cure := upd s.cure b f }
def Plant.updIntake (s : Plant) (b : Nat) (f : IntakeRecord → IntakeRecord) : Plant :=
  { s with intake := upd s.intake b f }
def Plant.updBedLine (s : Plant) (b : Nat) (f : BedLine → BedLine) : Plant :=
  { s with bedLines := upd s.bedLines b f }
def Plant.updClass (s : Plant) (c : Nat) (f : ClassEntry → ClassEntry) : Plant :=
  { s with classes := upd s.classes c f }
def Plant.updYard (s : Plant) (f : Yard → Yard) : Plant := { s with yard := f s.yard }

/-- The works is in the CLOSED phase. -/
def Plant.isClosed (s : Plant) : Bool := decide (s.works.phase = .closed)

/-! ## Records of the yard -/

def Yard.stack (y : Yard) (i : Nat) : StackRecord := getOr y.stackRecs i .reset
def Yard.lane (y : Yard) (i : Nat) : LaneRecord := getOr y.lanes i .reset
def Yard.truck (y : Yard) (i : Nat) : TruckRecord := getOr y.trucks i .reset
def Yard.crane (y : Yard) (k : Nat) : CraneRecord := getOr y.cranes k (.reset 0)
def Yard.arb (y : Yard) (k : Nat) : ArbiterRecord := getOr y.arbiter k ⟨none, none⟩
def Yard.link (y : Yard) (k : Nat) : CraneLine := getOr y.links k ⟨none, []⟩
def Yard.pieceSlot (y : Yard) (i : Nat) : PieceSlot := getOr y.pieces i ⟨0, none⟩
def Yard.ticketSlot (y : Yard) (i : Nat) : TicketSlot := getOr y.tickets i ⟨0, none⟩

def Yard.updStack (y : Yard) (i : Nat) (f : StackRecord → StackRecord) : Yard :=
  { y with stackRecs := upd y.stackRecs i f }
def Yard.updLane (y : Yard) (i : Nat) (f : LaneRecord → LaneRecord) : Yard := { y with lanes := upd y.lanes i f }
def Yard.updTruck (y : Yard) (i : Nat) (f : TruckRecord → TruckRecord) : Yard := { y with trucks := upd y.trucks i f }
def Yard.updCrane (y : Yard) (k : Nat) (f : CraneRecord → CraneRecord) : Yard := { y with cranes := upd y.cranes k f }
def Yard.updArb (y : Yard) (k : Nat) (f : ArbiterRecord → ArbiterRecord) : Yard :=
  { y with arbiter := upd y.arbiter k f }
def Yard.updLink (y : Yard) (k : Nat) (f : CraneLine → CraneLine) : Yard := { y with links := upd y.links k f }

/-- The claim of a crane (R138). -/
def Yard.claim (y : Yard) (k : Nat) : Option Interval := (y.arb k).claim

/-- The claim of a crane written. -/
def Yard.setClaim (y : Yard) (k : Nat) (c : Option Interval) : Yard := y.updArb k (fun a => { a with claim := c })

/-! ## Pieces by handle -/

/-- The live record in a slot, or none. -/
def Yard.pieceAt (y : Yard) (slot : Nat) : Option Piece := (y.pieceSlot slot).piece

/-- R2: the record a handle names; none where the handle is stale. -/
def Yard.piece? (y : Yard) (h : Handle) : Option Piece :=
  if (y.pieceSlot h.slot).gen = h.gen then (y.pieceSlot h.slot).piece else none

/-- The live record of a slot changed; a free slot is unchanged. -/
def Yard.updPiece (y : Yard) (slot : Nat) (f : Piece → Piece) : Yard :=
  { y with pieces := upd y.pieces slot (fun ps => { ps with piece := ps.piece.map f }) }

/-- The class entry of a piece; the undefined entry where the slot is free. -/
def classOf (e : Site) (y : Yard) (h : Handle) : ClassEntry :=
  match y.pieceAt h.slot with
  | some p => getOr e.classes p.cls .undefined
  | none => .undefined

/-- The number of live piece records. -/
def Yard.liveCount (y : Yard) : Nat := y.pieces.toList.countP (fun ps => ps.piece.isSome)

/-! ## Tickets by handle -/

/-- The ticket record in a slot, or none. -/
def Yard.ticketAt (y : Yard) (slot : Nat) : Option Ticket := (y.ticketSlot slot).ticket

/-- R114: the ticket a handle names; none where the handle is stale (a slot of 24 or above names none). -/
def Yard.ticket? (y : Yard) (h : Handle) : Option Ticket :=
  if (y.ticketSlot h.slot).gen = h.gen then (y.ticketSlot h.slot).ticket else none

/-- The ticket record of a slot changed; a free slot is unchanged. -/
def Yard.updTicket (y : Yard) (slot : Nat) (f : Ticket → Ticket) : Yard :=
  { y with tickets := upd y.tickets slot (fun ts => { ts with ticket := ts.ticket.map f }) }

/-- The handle of the ticket in a slot. -/
def Yard.ticketHandle (y : Yard) (slot : Nat) : Handle := ⟨slot, (y.ticketSlot slot).gen⟩

/-- R113: the six active states. -/
def TicketState.isActive : TicketState → Bool
  | .pending | .ready | .granted | .lifting | .lifted | .setting => true
  | .done | .failed | .cancelled => false

/-- The ticket in a slot is active. -/
def Yard.activeAt (y : Yard) (slot : Nat) : Bool :=
  match y.ticketAt slot with
  | some t => t.state.isActive
  | none => false

/-- R114: the lowest-numbered free ticket slot. -/
def Yard.freeTicketSlot (y : Yard) : Option Nat := y.tickets.toList.findIdx? (fun ts => ts.ticket.isNone)

/-- The number of free ticket slots. -/
def Yard.freeTicketCount (y : Yard) : Nat := y.tickets.toList.countP (fun ts => ts.ticket.isNone)

/-- R114, R115: a ticket placed in a slot, at the back of the move queue. -/
def Yard.placeTicket (y : Yard) (slot : Nat) (t : Ticket) : Yard :=
  { y with tickets := upd y.tickets slot (fun ts => { ts with ticket := some t }), moveQueue := y.moveQueue ++ [slot] }

/-- R114: a slot freed: the record discarded, the generation raised (63 to 0), the slot out of the move queue and out
of the finished list. -/
def Yard.freeTicket (y : Yard) (slot : Nat) : Yard :=
  { y with
    tickets := upd y.tickets slot (fun ts => ⟨(ts.gen + 1) % 64, none⟩)
    moveQueue := y.moveQueue.filter (· ≠ slot)
    finished := y.finished.filter (· ≠ slot) }

/-! ## Orders on a crane link (R157, R219) -/

/-- R219: a yard link frame: sync, kind, sequence, payload, check over kind to payload. -/
def linkFrame (kind seq : Nat) (payload : List Byte) : List Byte :=
  let body := byte1 kind ++ byte1 seq ++ payload
  0x7E#8 :: (body ++ [checkByte body])

/-- R157: a frame formed for a crane link: written at once on a free link, else behind those that wait. -/
def CraneLine.put (l : CraneLine) (frame : List Byte) : CraneLine :=
  match l.writing with
  | none => { l with writing := some frame }
  | some _ => { l with queue := l.queue ++ [frame] }

/-- R157: an order written with the link's next sequence number, which then rises by one, 255 to 0. -/
def sendFrame (y : Yard) (k kind : Nat) (payload : List Byte) : Yard :=
  (y.updLink k (fun l => l.put (linkFrame kind (y.crane k).nextSeq payload))).updCrane k
    (fun c => { c with nextSeq := (c.nextSeq + 1) % 256 })

/-- R219: the kind code and the payload of a stage order. -/
def OrderKind.wire : OrderKind → Nat → Nat × List Byte
  | .travel, bay => (0x41, byte1 bay)
  | .lift, weight => (0x42, beBytes 2 weight)
  | .lower, _ => (0x43, [])
  | .home, _ => (0x46, [])

/-- R157, R162: a report timer as it is restarted. It counts from the next advance: a timer event of the old timing that is
still to be taken in this minute does not reach it (log 4). -/
def Timer.start (minutes : Nat) : Timer := ⟨minutes, false⟩

/-- R157: the report timer restarted, unless the crane is halted. -/
def CraneRecord.restart (c : CraneRecord) (minutes : Nat) : CraneRecord :=
  if c.halted then c else { c with timer := some (.start minutes) }

/-- R157: TRAVEL, LIFT, LOWER or HOME sent: it becomes the stage order and the report timer restarts. -/
def sendStage (e : Site) (y : Yard) (k : Nat) (kind : OrderKind) (arg : Nat) : Yard :=
  let seq := (y.crane k).nextSeq
  let wire := kind.wire arg
  (sendFrame y k wire.1 wire.2).updCrane k (fun c =>
    { c with stage := some ⟨kind, seq, arg⟩ }.restart
      (if kind = OrderKind.home then e.settings.homeTimeout else e.settings.stageTimeout))

/-- R157: STOP sent: it becomes the stop order and the report timer restarts. -/
def sendStop (e : Site) (y : Yard) (k : Nat) : Yard :=
  let seq := (y.crane k).nextSeq
  (sendFrame y k 0x44 []).updCrane k (fun c => { c with stopOrder := some seq }.restart e.settings.stageTimeout)

/-- R157: RESUME sent; it awaits no report (log 12). -/
def sendResume (y : Yard) (k : Nat) : Yard := sendFrame y k 0x45 []

/-! ## Bays -/

/-- R108: the bay of a source. -/
def sourceBay (e : Site) (y : Yard) : Location → Nat
  | .bed b _ => (getOr e.beds b .reset).bay
  | .lane l => (y.lane l).bay
  | .stack s _ => (y.stack s).bay
  | .truck t _ => (y.truck t).bay
  | .hook k => (y.crane k).lastBay

/-- R139: the bay of a destination. -/
def destBay (y : Yard) : Dest → Nat
  | .stack s => (y.stack s).bay
  | .lane l => (y.lane l).bay
  | .truck t => (y.truck t).bay
  | .bay b => b

/-- The distance of two bays (R108). -/
def distance (a b : Nat) : Nat := (a - b) + (b - a)

/-- The interval of one bay. -/
def Interval.single (b : Nat) : Interval := ⟨b, b⟩

/-- The smallest interval that contains an interval and a bay. -/
def Interval.join (i : Interval) (b : Nat) : Interval := ⟨min i.lo b, max i.hi b⟩

/-- The bay lies in the interval. -/
def Interval.holds (i : Interval) (b : Nat) : Bool := decide (i.lo ≤ b) && decide (b ≤ i.hi)

/-- The distance of a bay from the nearest bay of an interval (R143). -/
def Interval.distance (i : Interval) (b : Nat) : Nat := (i.lo - b) + (b - i.hi)

end Sys2Proof.Machine
end

