-- ==== Sys2Proof/Machine/Operands.lean ====
section
/-! DEFINITION. The encodings of R218: handles, mark words, sets, locations, enumerated choices, for parameters and for
result fields; and the validity of a mark (R5). -/

namespace Sys2Proof.Machine

/-! ## Outcome codes -/

/-- R212: the outcome of a command. -/
inductive Code where
  | ok
  | invalid
  | range
  | state
  | busy
  | noSlot
  | duplicate
  | stale
  | held
  | full
  | inMove
  | closed
  | notFound
  | placement
  | inUse
  | stopped
  | immature
  deriving DecidableEq, Repr

/-- R212: the code of an outcome. -/
def Code.num : Code → Nat
  | .ok => 0x00 | .invalid => 0x01 | .range => 0x02 | .state => 0x03 | .busy => 0x04 | .noSlot => 0x05
  | .duplicate => 0x06 | .stale => 0x07 | .held => 0x08 | .full => 0x09 | .inMove => 0x0A | .closed => 0x0B
  | .notFound => 0x0C | .placement => 0x0D | .inUse => 0x0E | .stopped => 0x0F | .immature => 0x10

/-- What a command completes with: its outcome and its result fields (R208, R209). -/
structure Reply where
  code   : Code
  fields : List Byte
  deriving DecidableEq, Repr

/-- A refusal that changes nothing and carries no field (R208). -/
def refuse (c : Code) (s : Plant) : Reply × Plant := (⟨c, []⟩, s)

/-- A refusal that changes nothing and carries the fields its rule names (R209). -/
def refuseWith (c : Code) (fields : List Byte) (s : Plant) : Reply × Plant := (⟨c, fields⟩, s)

/-- An acceptance (R208). -/
def accept (fields : List Byte) (s : Plant) : Reply × Plant := (⟨.ok, fields⟩, s)

/-! ## Handles -/

/-- R218: a handle is 2 bytes, the generation in the top 6 bits and the slot in the low 10. -/
def handleNum (h : Handle) : Nat := h.gen * 1024 + h.slot

/-- R218: the handle that 16 bits carry. -/
def handleOf (n : Nat) : Handle := ⟨n % 1024, n / 1024⟩

/-- R218: a handle as result bytes. -/
def handleBytes (h : Handle) : List Byte := beBytes 2 (handleNum h)

/-- R218: a handle, or the absent handle 0xFFFF. -/
def optHandleBytes : Option Handle → List Byte
  | some h => handleBytes h
  | none => beBytes 2 0xFFFF

/-- R218: an object number, or the absent object 0xFF. -/
def optObjectBytes : Option Nat → List Byte
  | some n => byte1 n
  | none => byte1 0xFF

/-- R218: several handles. -/
def handlesBytes (hs : List Handle) : List Byte := hs.flatMap handleBytes

/-! ## Marks -/

/-- R218: the number of marks, 38 to the 8th. -/
abbrev markCount : Nat := 4347792138496

/-- R218: the 8 digits of a mark number in base 38, the first character first. -/
def markDigits : (k number : Nat) → List Nat
  | 0, _ => []
  | k + 1, n => markDigits k (n / 38) ++ [n % 38]

/-- R5: no character other than a space (digit 0) follows a space. -/
def paddedRight : List Nat → Bool
  | [] => true
  | d :: ds => if d = 0 then ds.all (· == 0) else paddedRight ds

/-- R5, R218: a mark number names a valid mark: it is below 38^8, its first character is no space, and spaces stand
only at the right. -/
def validMark (n : Nat) : Bool :=
  decide (n < markCount) && decide ((markDigits 8 n).head? ≠ some 0) && paddedRight (markDigits 8 n)

/-- R218: a mark word with a class carries a valid mark: bit 42 is 0 and the mark is valid. -/
def markWithClass (m : MarkWord) : Bool := !m.bit42 && validMark m.number

/-- R218: a mark word where the command carries no class: the class bits are 0 as well. -/
def markAlone (m : MarkWord) : Bool := markWithClass m && decide (m.cls = 0)

/-- R218: a mark word as 48 bits. -/
def markWordNum (m : MarkWord) : Nat := m.cls * 2 ^ 43 + (if m.bit42 then 2 ^ 42 else 0) + m.number

/-- R218: the mark word that 48 bits carry. -/
def markWordOf (n : Nat) : MarkWord := ⟨n / 2 ^ 43, decide (n / 2 ^ 42 % 2 = 1), n % 2 ^ 42⟩

/-- R218: a mark in a result, with 0 in the class bits. -/
def markBytes (number : Nat) : List Byte := beBytes 6 number

/-! ## Sets -/

/-- R218: the holds set, QC 1, DAMAGE 2, WEIGHT 4, CURE 8. -/
def holdsNum (h : Holds) : Nat := setNat [h.qc, h.damage, h.weight, h.cure]

/-- R218: the holds that 4 bits carry. -/
def holdsOf (n : Nat) : Holds :=
  ⟨decide (n % 2 = 1), decide (n / 2 % 2 = 1), decide (n / 4 % 2 = 1), decide (n / 8 % 2 = 1)⟩

/-- R42: the alarm flags of a bed as a set. -/
def bedFlagsNum (f : BedFlags) : Nat := setNat [f.planDone, f.gap, f.lost, f.overTemp, f.unitFault]

/-- R155: the alarm flags of a crane as a set, FAULT and PROTOCOL. -/
def craneFlagsNum (c : CraneRecord) : Nat := setNat [c.flagFault, c.flagProtocol]

/-- R174: the order flags as a set, COMPLETE and CHANGED. -/
def orderFlagsNum (t : TruckRecord) : Nat := setNat [t.flagComplete, t.flagChanged]

/-- R113: the wait reasons as a set. -/
def waitsNum (w : Waits) : Nat := setNat [w.after, w.source, w.buried, w.dest, w.order, w.stop, w.redirect]

/-! ## Enumerated choices (R218: the position in the list of the rule that defines the quantity) -/

def Phase.num : Phase → Nat
  | .closed => 0 | .opened => 1

def BedState.num : BedState → Nat
  | .vacant => 0 | .set => 1 | .cast => 2 | .curing => 3 | .released => 4 | .stripping => 5

/-- R196, R218: the bed state a number carries; VACANT and numbers past STRIPPING are none. -/
def bedStateOf : Nat → Option BedState
  | 1 => some .set | 2 => some .cast | 3 => some .curing | 4 => some .released | 5 => some .stripping
  | _ => none

def HeatMode.num : HeatMode → Nat
  | .off => 0 | .steam => 1 | .mat => 2

/-- R49: the mode a number carries. -/
def heatModeOf : Nat → Option HeatMode
  | 0 => some .off | 1 => some .steam | 2 => some .mat
  | _ => none

def Transition.num : Transition → Nat
  | .none => 0 | .purge => 1 | .settle => 2

def PlanState.num : PlanState → Nat
  | .none => 0 | .loaded => 1 | .running => 2 | .complete => 3

def ModeWord.num : ModeWord → Nat
  | .off => 0 | .purge => 1 | .settle => 2 | .steam => 3 | .mat => 4

def SampleState.num : SampleState → Nat
  | .ok => 0 | .gap => 1 | .lost => 2

def StackState.num : StackState → Nat
  | .undefined => 0 | .opened => 1 | .closed => 2

def ClaimKind.num : ClaimKind → Nat
  | .place => 0 | .lift => 1

def TruckState.num : TruckState → Nat
  | .free => 0 | .opened => 1 | .complete => 2 | .unloading => 3

def TicketKind.num : TicketKind → Nat
  | .strip => 0 | .stow => 1 | .shift => 2 | .pick => 3 | .dig => 4 | .yield => 5 | .park => 6

def TicketState.num : TicketState → Nat
  | .pending => 0 | .ready => 1 | .granted => 2 | .lifting => 3 | .lifted => 4 | .setting => 5 | .done => 6
  | .failed => 7 | .cancelled => 8

def TicketOutcome.num : TicketOutcome → Nat
  | .none => 0 | .done => 1 | .weight => 2 | .craneFault => 3 | .cancelled => 4 | .withdrawn => 5

def CraneState.num : CraneState → Nat
  | .unhomed => 0 | .homing => 1 | .idle => 2 | .busy => 3 | .stopped => 4 | .faulted => 5

def FaultCode.num : FaultCode → Nat
  | .none => 0 | .timeout => 1 | .reported => 2 | .homeConflict => 3 | .homeTimeout => 4

def OrderKind.num : OrderKind → Nat
  | .travel => 0 | .lift => 1 | .lower => 2 | .home => 3

/-! ## Locations and destinations (R218) -/

/-- R218: the kind byte and the object byte of a location. -/
def locationBytes : Location → List Byte
  | .bed b _ => byte1 0 ++ byte1 b
  | .hook k => byte1 1 ++ byte1 k
  | .lane l => byte1 2 ++ byte1 l
  | .stack s _ => byte1 3 ++ byte1 s
  | .truck t _ => byte1 4 ++ byte1 t

/-- R218: the position or tier byte of a location. HOOK and LANE have none (R1, R113), so they take no third byte. -/
def positionByte : Location → List Byte
  | .bed _ p => byte1 p
  | .stack _ t => byte1 t
  | .truck _ t => byte1 t
  | .hook _ => []
  | .lane _ => []

/-- R218: a ticket's source with its position or tier; an absent source has a free kind code (log 3). -/
def sourceBytes : Option Location → List Byte
  | some l => locationBytes l ++ positionByte l
  | none => [Config.absentKind] ++ byte1 0xFF

/-- R218: a ticket's destination; an absent destination has a free kind code (log 3). -/
def destBytes : Option Dest → List Byte
  | some (.stack s) => byte1 3 ++ byte1 s
  | some (.lane l) => byte1 2 ++ byte1 l
  | some (.truck t) => byte1 4 ++ byte1 t
  | some (.bay b) => byte1 6 ++ byte1 b
  | none => [Config.absentKind] ++ byte1 0xFF

/-- R46, R218: a segment as result bytes, setpoint and duration. -/
def segmentBytes (g : Segment) : List Byte := byte1 g.setpoint ++ beBytes 2 g.duration

/-- A yes/no parameter byte: 1 and 0 are the only values (R218; log 16). -/
def isFlag (n : Nat) : Bool := decide (n ≤ 1)

end Sys2Proof.Machine
end

