-- ==== Sys2Proof/Machine/Frames.lean ====
section
/-! DEFINITION. The frames of the Command Port (11): command codes and parameter lengths (R213), parameters and their
encodings (R217, R218), command frames read and written, result frames. -/

namespace Sys2Proof.Machine

/-! ## Fields of given widths -/

/-- Values written one after another, each with its width in bytes. -/
def pack : List (Nat × Nat) → List Byte
  | [] => []
  | (w, v) :: rest => beBytes w v ++ pack rest

/-- Bytes read as values of given widths; none when the bytes are more or fewer. -/
def unpack : (widths : List Nat) → List Byte → Option (List Nat)
  | [], [] => some []
  | [], _ :: _ => none
  | w :: ws, bs =>
    if bs.length < w then none
    else
      match unpack ws (bs.drop w) with
      | some vs => some (ofBytes (bs.take w) :: vs)
      | none => none

/-- The widths of `n` groups of fields. -/
def widthsOf (group : List Nat) (n : Nat) : List Nat := (List.replicate n group).flatten

/-- R218: the eight holds sets of RESTORE BED as one number of 4 bytes, position 0 in the high half of the first byte. -/
def nibblesNum (hs : List Nat) : Nat := hs.foldl (fun n h => n * 16 + h) 0

/-- The eight 4-bit values of a number of 4 bytes, the highest first. -/
def nibblesOf (n : Nat) : List Nat := (List.range 8).map (fun i => n / 16 ^ (7 - i) % 16)

/-- Setpoints and durations in turn as segments. -/
def segmentsOf : List Nat → List Segment
  | sp :: d :: rest => ⟨sp, d⟩ :: segmentsOf rest
  | _ => []

/-! ## Command codes and parameters written (R213, R218) -/

/-- R213: the code of a command. -/
def commandCode : Command → Nat
  | .openWorks => 0x01
  | .readWorks => 0x02
  | .settings _ _ _ _ _ _ _ _ _ => 0x03
  | .lockSettings _ => 0x04
  | .readSettings => 0x05
  | .sense => 0x06
  | .restoreBed _ _ _ _ _ _ _ => 0x07
  | .restorePiece _ _ _ _ _ => 0x08
  | .lookupMark _ => 0x10
  | .readPiece _ => 0x11
  | .defineClass _ _ _ _ _ _ => 0x12
  | .readClass _ => 0x13
  | .hold _ _ => 0x14
  | .releaseHold _ _ => 0x15
  | .scrapPiece _ => 0x16
  | .find _ => 0x17
  | .configureBed _ _ _ _ => 0x20
  | .prepareBed _ => 0x21
  | .abandonBed _ => 0x22
  | .cast _ _ => 0x23
  | .startCure _ => 0x24
  | .releaseStrand _ => 0x25
  | .scrapBed _ => 0x26
  | .bedPriority _ _ => 0x27
  | .readBed _ => 0x28
  | .heatMode _ _ => 0x30
  | .loadPlan _ _ => 0x31
  | .swapPlan _ => 0x32
  | .stopCure _ => 0x33
  | .readPlan _ => 0x34
  | .readIntake _ => 0x35
  | .defineStack _ _ _ _ _ => 0x40
  | .closeStack _ => 0x41
  | .openStack _ => 0x42
  | .readStack _ => 0x43
  | .defineLane _ _ _ => 0x44
  | .drainLane _ _ => 0x45
  | .readLane _ => 0x46
  | .defineTruckBay _ _ _ => 0x47
  | .move _ _ _ _ _ _ => 0x50
  | .stripBed _ _ _ => 0x51
  | .cancelMove _ => 0x52
  | .readMove _ => 0x53
  | .parkCrane _ _ _ => 0x54
  | .configureCrane _ _ => 0x60
  | .homeCrane _ => 0x61
  | .clearCrane _ => 0x62
  | .readCrane _ => 0x63
  | .openOrder _ _ _ _ => 0x70
  | .addToOrder _ _ => 0x71
  | .orderLevel _ _ => 0x72
  | .cancelOrder _ => 0x73
  | .shipOrder _ => 0x74
  | .readOrder _ => 0x75

/-- R218: the parameters of a command in the order its rule lists them, each with its width in bytes. -/
def commandFields : Command → List (Nat × Nat)
  | .openWorks => []
  | .readWorks => []
  | .settings period purge maxTemp t1 t2 t3 threshold home stage => [(1, period), (1, purge), (1, maxTemp), (1, t1), (1, t2), (1, t3), (1, threshold), (1, home), (1, stage)]
  | .lockSettings value => [(1, value)]
  | .readSettings => []
  | .sense => []
  | .restoreBed state bed maturity segment minutes holds entries =>
    (1, state * 16 + bed) :: (4, maturity) :: (2, segment * 8192 + minutes) :: (4, nibblesNum holds)
      :: entries.map (fun m => (6, markWordNum m))
  | .restorePiece mark maturity holds kind object => [(6, markWordNum mark), (4, maturity), (1, holds), (1, kind), (1, object)]
  | .lookupMark mark => [(6, markWordNum mark)]
  | .readPiece piece => [(2, handleNum piece)]
  | .defineClass cls choice length weight threshold tier => [(1, cls), (1, choice), (2, length), (2, weight), (4, threshold), (1, tier)]
  | .readClass cls => [(1, cls)]
  | .hold piece value => [(2, handleNum piece), (1, value)]
  | .releaseHold piece value => [(2, handleNum piece), (1, value)]
  | .scrapPiece piece => [(2, handleNum piece)]
  | .find p =>
    [(2, p.start), (1, p.mask), (1, p.cls), (1, p.holdTest), (1, p.maturityTest), (4, p.maturity), (1, p.orderTest),
      (1, p.maxResults)]
  | .configureBed bed bay positions setpoint => [(1, bed), (1, bay), (1, positions), (1, setpoint)]
  | .prepareBed bed => [(1, bed)]
  | .abandonBed bed => [(1, bed)]
  | .cast bed entries =>
    (1, bed) :: entries.map (fun m => (6, markWordNum m))
  | .startCure bed => [(1, bed)]
  | .releaseStrand bed => [(1, bed)]
  | .scrapBed bed => [(1, bed)]
  | .bedPriority bed level => [(1, bed), (1, level)]
  | .readBed bed => [(1, bed)]
  | .heatMode bed mode => [(1, bed), (1, mode)]
  | .loadPlan bed plan =>
    (1, bed) :: plan.flatMap (fun g => [(1, g.setpoint), (2, g.duration)])
  | .swapPlan bed => [(1, bed)]
  | .stopCure bed => [(1, bed)]
  | .readPlan bed => [(1, bed)]
  | .readIntake bed => [(1, bed)]
  | .defineStack stack choice bay tiers load => [(1, stack), (1, choice), (1, bay), (1, tiers), (2, load)]
  | .closeStack stack => [(1, stack)]
  | .openStack stack => [(1, stack)]
  | .readStack stack => [(1, stack)]
  | .defineLane lane choice bay => [(1, lane), (1, choice), (1, bay)]
  | .drainLane lane value => [(1, lane), (1, value)]
  | .readLane lane => [(1, lane)]
  | .defineTruckBay truck choice bay => [(1, truck), (1, choice), (1, bay)]
  | .move piece kind object level after dig => [(2, handleNum piece), (1, kind), (1, object), (1, level), (1, after), (1, dig)]
  | .stripBed bed level after => [(1, bed), (1, level), (1, after)]
  | .cancelMove ticket => [(2, handleNum ticket)]
  | .readMove ticket => [(2, handleNum ticket)]
  | .parkCrane crane bay level => [(1, crane), (1, bay), (1, level)]
  | .configureCrane crane bay => [(1, crane), (1, bay)]
  | .homeCrane crane => [(1, crane)]
  | .clearCrane crane => [(1, crane)]
  | .readCrane crane => [(1, crane)]
  | .openOrder truck level dig pieces =>
    (1, truck) :: (1, level) :: (1, dig) :: pieces.map (fun h => (2, handleNum h))
  | .addToOrder truck pieces =>
    (1, truck) :: pieces.map (fun h => (2, handleNum h))
  | .orderLevel truck level => [(1, truck), (1, level)]
  | .cancelOrder truck => [(1, truck)]
  | .shipOrder truck => [(1, truck)]
  | .readOrder truck => [(1, truck)]

/-- R217, R218: the parameter bytes of a command. -/
def commandParams (c : Command) : List Byte := pack (commandFields c)

/-! ## Parameters read (R207, R213, R218) -/

/-- R213: the widths of the parameters of a code when there are `len` bytes of them; none for a code that is not in the
table, or for a length that the table does not allow. -/
def paramWidths (code len : Nat) : Option (List Nat) :=
  match code with
  | 0x07 => if 11 ≤ len ∧ (len - 11) % 6 = 0 then some (1 :: 4 :: 2 :: 4 :: List.replicate ((len - 11) / 6) 6) else none
  | 0x17 => some [2, 1, 1, 1, 1, 4, 1, 1]
  | 0x23 => if 1 ≤ len ∧ (len - 1) % 6 = 0 then some (1 :: List.replicate ((len - 1) / 6) 6) else none
  | 0x31 => if 1 ≤ len ∧ (len - 1) % 3 = 0 then some (1 :: widthsOf [1, 2] ((len - 1) / 3)) else none
  | 0x70 => if 3 ≤ len ∧ (len - 3) % 2 = 0 then some (1 :: 1 :: 1 :: List.replicate ((len - 3) / 2) 2) else none
  | 0x71 => if 1 ≤ len ∧ (len - 1) % 2 = 0 then some (1 :: List.replicate ((len - 1) / 2) 2) else none
  | 0x01 | 0x02 | 0x05 | 0x06 => some []
  | 0x03 => some [1, 1, 1, 1, 1, 1, 1, 1, 1]
  | 0x04 | 0x13 | 0x21 | 0x22 | 0x24 | 0x25 | 0x26 | 0x28 | 0x32 | 0x33 | 0x34 | 0x35 | 0x41 | 0x42 | 0x43
  | 0x46 | 0x61 | 0x62 | 0x63 | 0x73 | 0x74 | 0x75 => some [1]
  | 0x08 => some [6, 4, 1, 1, 1]
  | 0x10 => some [6]
  | 0x11 | 0x16 | 0x52 | 0x53 => some [2]
  | 0x12 => some [1, 1, 2, 2, 4, 1]
  | 0x14 | 0x15 => some [2, 1]
  | 0x20 => some [1, 1, 1, 1]
  | 0x27 | 0x30 | 0x45 | 0x60 | 0x72 => some [1, 1]
  | 0x40 => some [1, 1, 1, 1, 2]
  | 0x44 | 0x47 | 0x51 | 0x54 => some [1, 1, 1]
  | 0x50 => some [2, 1, 1, 1, 1, 1]
  | _ => none

/-- R218: the command of a code with its parameter values. -/
def buildCommand (code : Nat) (values : List Nat) : Option Command :=
  match code, values with
  | 0x01, [] => some .openWorks
  | 0x02, [] => some .readWorks
  | 0x03, [a, b, c, d, e, f, g, h, i] => some (.settings a b c d e f g h i)
  | 0x04, [a] => some (.lockSettings a)
  | 0x05, [] => some .readSettings
  | 0x06, [] => some .sense
  | 0x07, a :: m :: g :: hs :: words => some (.restoreBed (a / 16) (a % 16) m (g / 8192) (g % 2048) (nibblesOf hs) (words.map markWordOf))
  | 0x08, [a, b, c, d, e] => some (.restorePiece (markWordOf a) b c d e)
  | 0x10, [a] => some (.lookupMark (markWordOf a))
  | 0x11, [a] => some (.readPiece (handleOf a))
  | 0x12, [a, b, c, d, e, f] => some (.defineClass a b c d e f)
  | 0x13, [a] => some (.readClass a)
  | 0x14, [a, b] => some (.hold (handleOf a) b)
  | 0x15, [a, b] => some (.releaseHold (handleOf a) b)
  | 0x16, [a] => some (.scrapPiece (handleOf a))
  | 0x17, [a, b, c, d, e, f, g, h] => some (.find ⟨a, b, c, d, e, f, g, h⟩)
  | 0x20, [a, b, c, d] => some (.configureBed a b c d)
  | 0x21, [a] => some (.prepareBed a)
  | 0x22, [a] => some (.abandonBed a)
  | 0x23, bed :: words => some (.cast bed (words.map markWordOf))
  | 0x24, [a] => some (.startCure a)
  | 0x25, [a] => some (.releaseStrand a)
  | 0x26, [a] => some (.scrapBed a)
  | 0x27, [a, b] => some (.bedPriority a b)
  | 0x28, [a] => some (.readBed a)
  | 0x30, [a, b] => some (.heatMode a b)
  | 0x31, bed :: vs => some (.loadPlan bed (segmentsOf vs))
  | 0x32, [a] => some (.swapPlan a)
  | 0x33, [a] => some (.stopCure a)
  | 0x34, [a] => some (.readPlan a)
  | 0x35, [a] => some (.readIntake a)
  | 0x40, [a, b, c, d, e] => some (.defineStack a b c d e)
  | 0x41, [a] => some (.closeStack a)
  | 0x42, [a] => some (.openStack a)
  | 0x43, [a] => some (.readStack a)
  | 0x44, [a, b, c] => some (.defineLane a b c)
  | 0x45, [a, b] => some (.drainLane a b)
  | 0x46, [a] => some (.readLane a)
  | 0x47, [a, b, c] => some (.defineTruckBay a b c)
  | 0x50, [a, b, c, d, e, f] => some (.move (handleOf a) b c d e f)
  | 0x51, [a, b, c] => some (.stripBed a b c)
  | 0x52, [a] => some (.cancelMove (handleOf a))
  | 0x53, [a] => some (.readMove (handleOf a))
  | 0x54, [a, b, c] => some (.parkCrane a b c)
  | 0x60, [a, b] => some (.configureCrane a b)
  | 0x61, [a] => some (.homeCrane a)
  | 0x62, [a] => some (.clearCrane a)
  | 0x63, [a] => some (.readCrane a)
  | 0x70, t :: l :: d :: hs => some (.openOrder t l d (hs.map handleOf))
  | 0x71, t :: hs => some (.addToOrder t (hs.map handleOf))
  | 0x72, [a, b] => some (.orderLevel a b)
  | 0x73, [a] => some (.cancelOrder a)
  | 0x74, [a] => some (.shipOrder a)
  | 0x75, [a] => some (.readOrder a)
  | _, _ => none

/-- R207: the command that a code and parameter bytes carry; none where the command is INVALID. -/
def parseCommand (code : Nat) (params : List Byte) : Option Command :=
  match paramWidths code params.length with
  | some ws =>
    match unpack ws params with
    | some vs => buildCommand code vs
    | none => none
  | none => none

/-! ## Frames (R205, R217) -/

/-- R217: a command frame. -/
def commandFrame (hd : Header) (code : Nat) (params : List Byte) : List Byte :=
  let body := byte1 (params.length + 5) ++ byte1 hd.tag ++ boolByte hd.after ++ byte1 code ++ params
  body ++ [checkByte body]

/-- R205, case 1: the frame passes the tests of the transfer level. -/
def frameOk (frame : List Byte) : Bool :=
  decide (5 ≤ frame.length) && decide (frame.length ≤ 64)
    && decide ((frame.head?.map BitVec.toNat) = some frame.length) && decide (byteSum frame = 0)

/-- R205, R207, R217: the entry that a good frame makes. A frame with a flag bit other than AFTER, an unknown code or a
disallowed length has no command. -/
def entryOf (frame : List Byte) : Entry :=
  match frame with
  | _ :: tag :: flags :: code :: rest =>
    { tag := tag.toNat
      code := code.toNat
      after := decide (flags.toNat % 2 = 1)
      cmd := if flags.toNat ≤ 1 then parseCommand code.toNat rest.dropLast else none
      state := .waiting }
  | _ => ⟨0, 0, false, none, .waiting⟩

/-- The entry that a command and its header make. -/
def entryFor (hd : Header) (c : Command) : Entry := ⟨hd.tag, commandCode c, hd.after, some c, .waiting⟩

/-- R217: a result frame. -/
def resultFrame (tag code : Nat) (r : Reply) : List Byte :=
  let body := byte1 (r.fields.length + 5) ++ byte1 tag ++ byte1 code ++ byte1 r.code.num ++ r.fields
  body ++ [checkByte body]

/-- R209, R217: the no-result frame. -/
def noResultFrame : List Byte := [0x02#8, 0xFE#8]

end Sys2Proof.Machine
end

