-- ==== Sys2Proof/Machine/Stock.lean ====
section
/-! DEFINITION. The Stock Map's shared operations (05): projections, the placement test, claim lists and their repair,
buried tickets and their promotion, lanes and demand levels. -/

namespace Sys2Proof.Machine

/-! ## Projections (R88) -/

/-- The piece of the ticket that a handle names. -/
def Yard.ticketPiece (y : Yard) (h : Handle) : Option Handle := (y.ticket? h).bind (fun t => t.piece)

/-- R88: one claim applied to a projection. -/
def applyClaim (y : Yard) (proj : List Handle) (c : Claim) : List Handle :=
  match c.kind with
  | .lift => proj.dropLast
  | .place =>
    match y.ticketPiece c.ticket with
    | some p => proj ++ [p]
    | none => proj

/-- R88: the projection of a stack, bottom to top. -/
def projection (y : Yard) (s : Nat) : List Handle := (y.stack s).claims.foldl (applyClaim y) (y.stack s).pieces

/-- R88: the sum of the class weights of pieces. -/
def weightOf (e : Site) (y : Yard) (hs : List Handle) : Nat := (hs.map (fun h => (classOf e y h).weight)).sum

/-! ## The placement test (R89) -/

/-- R89, conditions 3 to 6: the fit of a piece of class entry `c` against a projection. -/
def fitClass (e : Site) (y : Yard) (st : StackRecord) (proj : List Handle) (c : ClassEntry) : Bool :=
  decide (proj.length < st.tiers)
    && decide (proj.length + 1 ≤ c.tier)
    && (match proj.getLast? with
        | some top => decide (c.length ≤ (classOf e y top).length)
        | none => true)
    && decide (weightOf e y proj + c.weight ≤ st.limit)

/-- R89: the fit of a piece against a projection. -/
def fit (e : Site) (y : Yard) (st : StackRecord) (proj : List Handle) (p : Handle) : Bool :=
  fitClass e y st proj (classOf e y p)

/-- R89: the placement test for a piece of class entry `c`: none when it is a valid placement, else the verdict. -/
def placementClass (e : Site) (y : Yard) (s : Nat) (c : ClassEntry) : Option Code :=
  let st := y.stack s
  if st.state ≠ .opened ∨ st.digLock then some .state
  else if st.claims.length ≥ 4 then some .full
  else if fitClass e y st (projection y s) c then none
  else some .placement

/-- R89: the placement test. -/
def placement (e : Site) (y : Yard) (s : Nat) (p : Handle) : Option Code := placementClass e y s (classOf e y p)

/-! ## Buried tickets (R94, R126) -/

/-- The ticket holds a LIFT claim on the stack. -/
def holdsLift (y : Yard) (s : Nat) (h : Handle) : Bool := (y.stack s).claims.contains ⟨.lift, h⟩

/-- The ticket holds a PLACE claim on the stack. -/
def holdsPlace (y : Yard) (s : Nat) (h : Handle) : Bool := (y.stack s).claims.contains ⟨.place, h⟩

/-- R121, BURIED: the stack a waiting ticket is buried in: its source is that stack and it holds no LIFT claim on it. -/
def buriedIn (y : Yard) (slot : Nat) : Option Nat :=
  match y.ticketAt slot with
  | some t =>
    match t.source with
    | some (.stack s _) =>
      if (t.state = .pending ∨ t.state = .ready) ∧ !holdsLift y s (y.ticketHandle slot) then some s else none
    | _ => none
  | none => none

/-- R94: the buried count written, and the dig lock with it. -/
def setBuried (n : Nat) (st : StackRecord) : StackRecord := { st with buried := n, digLock := decide (n > 0) }

/-- R94: the buried count raised. -/
def raiseBuried (y : Yard) (s : Nat) : Yard := y.updStack s (fun st => setBuried (st.buried + 1) st)

/-- R94: the buried count lowered. -/
def lowerBuried (y : Yard) (s : Nat) : Yard := y.updStack s (fun st => setBuried (st.buried - 1) st)

/-- R90: a claim appended at the back of a stack's claim list. -/
def appendClaim (y : Yard) (s : Nat) (c : Claim) : Yard := y.updStack s (fun st => { st with claims := st.claims ++ [c] })

/-- R126: the buried ticket of the stack whose piece is the projection top. -/
def promotable (y : Yard) (s : Nat) : Option Nat :=
  match (projection y s).getLast? with
  | none => none
  | some top =>
    y.moveQueue.find? (fun slot =>
      decide (buriedIn y slot = some s) && decide ((y.ticketAt slot).bind (fun t => t.piece) = some top))

/-- R126: buried tickets append their LIFT claims, from the top of the stack downward, while the list has room. -/
def promoteUpTo : (fuel : Nat) → (s : Nat) → Yard → Yard
  | 0, _, y => y
  | n + 1, s, y =>
    if (y.stack s).claims.length < 4 then
      match promotable y s with
      | some slot => promoteUpTo n s (lowerBuried (appendClaim y s ⟨.lift, y.ticketHandle slot⟩) s)
      | none => y
    else y

/-- R126: the promotions of one stack; at most 4, since each takes a place of the claim list. -/
def promote (s : Nat) (y : Yard) : Yard := promoteUpTo 4 s y

/-- R90, R126: a LIFT claim appended, and the promotions it allows. -/
def appendLift (y : Yard) (s : Nat) (h : Handle) : Yard := promote s (appendClaim y s ⟨.lift, h⟩)

/-! ## Claim repair (R91 to R93) -/

/-- R92: the walk of the remaining claims: the kept ones and the dropped ones, each in order. -/
def repairWalk (e : Site) (y : Yard) (st : StackRecord) : List Handle → List Claim → List Claim × List Claim
  | _, [] => ([], [])
  | proj, c :: cs =>
    match c.kind with
    | .lift =>
      if (y.ticketPiece c.ticket).isSome ∧ proj.getLast? = y.ticketPiece c.ticket then
        let r := repairWalk e y st proj.dropLast cs
        (c :: r.1, r.2)
      else
        let r := repairWalk e y st proj cs
        (r.1, c :: r.2)
    | .place =>
      match y.ticketPiece c.ticket with
      | some p =>
        if fit e y st proj p then
          let r := repairWalk e y st (proj ++ [p]) cs
          (c :: r.1, r.2)
        else
          let r := repairWalk e y st proj cs
          (r.1, c :: r.2)
      | none =>
        let r := repairWalk e y st proj cs
        (r.1, c :: r.2)

/-- R93: a destination when a PLACE claim on stack `s` is dropped: it becomes absent. A PLACE claim on `s` belongs to a ticket
whose destination is `s` (R91); any other destination stays (log 23). -/
def leaveStack (s : Nat) (d : Option Dest) : Option Dest := if d = some (.stack s) then none else d

/-- R93: the effect of a dropped claim on its ticket: a LIFT makes it buried, a PLACE takes its destination away. -/
def dropClaim (s : Nat) (y : Yard) (c : Claim) : Yard :=
  match c.kind with
  | .lift => raiseBuried y s
  | .place => y.updTicket c.ticket.slot (fun t => { t with dest := leaveStack s t.dest })

/-- R92, R93: the claim list of a stack repaired. -/
def repair (e : Site) (y : Yard) (s : Nat) : Yard :=
  let st := y.stack s
  let walk := repairWalk e y st st.pieces st.claims
  forEach walk.2 (dropClaim s) (y.updStack s (fun r => { r with claims := walk.1 }))

/-- R91 to R93, R126: a claim removed without completion: the list repaired and the buried tickets tested. -/
def removeClaim (e : Site) (y : Yard) (s : Nat) (c : Claim) : Yard :=
  if (y.stack s).claims.contains c then
    promote s (repair e (y.updStack s (fun st => { st with claims := st.claims.erase c })) s)
  else y

/-- R91: a claim removed by completion. -/
def completeClaim (y : Yard) (s : Nat) (c : Claim) : Yard :=
  y.updStack s (fun st => { st with claims := st.claims.erase c })

/-! ## Lanes (R99 to R102) -/

/-- R101: the demand level recomputed from its old value and the piece count. -/
def demandLevel (t1 t2 t3 : Nat) (drain : Bool) (n level : Nat) : Nat :=
  let rising :=
    if n ≥ t3 then 3
    else if n ≥ t2 ∧ level < 2 then 2
    else if n ≥ t1 ∧ level < 1 then 1
    else level
  let a := if rising = 3 ∧ n < t2 then 2 else rising
  let b := if a = 2 ∧ n < t1 then 1 else a
  let c := if b = 1 ∧ n = 0 then 0 else b
  if drain ∧ n ≥ 1 ∧ c = 0 then 1 else c

/-- R101: the demand level of a lane recomputed under the settings. -/
def LaneRecord.recompute (st : Settings) (l : LaneRecord) : LaneRecord :=
  { l with demand := demandLevel st.t1 st.t2 st.t3 l.drain l.pieces.length l.demand }

/-- R99, R102: the piece list of a lane changed, and its demand level recomputed in the same change. -/
def setLanePieces (e : Site) (y : Yard) (l : Nat) (f : List Handle → List Handle) : Yard :=
  y.updLane l (fun r => { r with pieces := f r.pieces }.recompute e.settings)

/-- R102: the demand levels of both lanes recomputed. -/
def recomputeLanes (e : Site) (y : Yard) : Yard :=
  (y.updLane 0 (LaneRecord.recompute e.settings)).updLane 1 (LaneRecord.recompute e.settings)

/-- R100: the room test of a lane: none when it has room, else the verdict. -/
def laneRoom (y : Yard) (l : Nat) : Option Code :=
  let r := y.lane l
  if !r.defined then some .state
  else if r.pieces.length + r.reservations ≥ 8 then some .full
  else none

/-- R100: a reservation made. -/
def reserve (y : Yard) (l : Nat) : Yard := y.updLane l (fun r => { r with reservations := r.reservations + 1 })

/-- R99, R100: a reservation ended. -/
def unreserve (y : Yard) (l : Nat) : Yard := y.updLane l (fun r => { r with reservations := r.reservations - 1 })

/-! ## The pieces a holder gives up and takes (R87, R99, R106) -/

/-- R106: a truck's piece list changed by a removal: an UNLOADING bay left empty becomes FREE. -/
def TruckRecord.removed (t : TruckRecord) (pieces : List Handle) : TruckRecord :=
  { t with pieces := pieces, state := if pieces = [] ∧ t.state = .unloading then .free else t.state }

/-- R87, R106: the top piece of a stack leaves. -/
def popStack (y : Yard) (s : Nat) : Yard := y.updStack s (fun st => { st with pieces := st.pieces.dropLast })

/-- R106: the top piece of a truck leaves. -/
def popTruck (y : Yard) (t : Nat) : Yard := y.updTruck t (fun r => r.removed r.pieces.dropLast)

/-- R87: a piece pushed on top of a stack. -/
def pushStack (y : Yard) (s : Nat) (p : Handle) : Yard := y.updStack s (fun st => { st with pieces := st.pieces ++ [p] })

end Sys2Proof.Machine
end

