-- ==== Sys2Proof/Machine/Tickets.lean ====
section
/-! DEFINITION. The Move Queue's shared operations (06): wait reasons and readiness, effective levels, and the ways a
ticket ends. -/

namespace Sys2Proof.Machine

/-! ## Wait reasons (R121, R122) -/

/-- R115: the slots that stand ahead of a slot in the move queue. -/
def ahead (y : Yard) (slot : Nat) : List Nat := y.moveQueue.takeWhile (· ≠ slot)

/-- The slot holds an active PICK of the truck bay. -/
def activePick (y : Yard) (truck slot : Nat) : Bool :=
  match y.ticketAt slot with
  | some t => t.state.isActive && decide (t.kind = .pick) && decide (t.truck = some truck)
  | none => false

/-- R121, SOURCE: the source cannot give the piece up yet. A ticket without a LIFT claim on its stack is BURIED and
not given SOURCE for it. -/
def sourceWaits (e : Site) (y : Yard) (slot : Nat) (t : Ticket) : Bool :=
  match t.source with
  | some (.bed b _) =>
    let st := (getOr e.beds b .reset).state
    decide (st ≠ .released) && decide (st ≠ .stripping)
  | some (.lane l) => decide ((y.lane l).pieces.head? ≠ t.piece)
  | some (.truck k _) => decide ((y.truck k).pieces.getLast? ≠ t.piece) || y.moveQueue.any (activePick y k)
  | some (.stack s _) =>
    holdsLift y s (y.ticketHandle slot) && decide ((y.stack s).claims.head? ≠ some ⟨.lift, y.ticketHandle slot⟩)
  | some (.hook _) => false
  | none => false

/-- R121, DEST: the ticket's PLACE claim is not first. -/
def destWaits (y : Yard) (slot : Nat) (t : Ticket) : Bool :=
  match t.dest with
  | some (.stack s) => decide ((y.stack s).claims.head? ≠ some ⟨.place, y.ticketHandle slot⟩)
  | _ => false

/-- R121, R181, ORDER: an earlier PICK of the same truck bay is active. -/
def orderWaits (y : Yard) (slot : Nat) (t : Ticket) : Bool :=
  match t.kind, t.truck with
  | .pick, some k => (ahead y slot).any (activePick y k)
  | _, _ => false

/-- R121: the wait reasons of a PENDING or READY ticket; YIELD and PARK are tested for STOP alone. -/
def evalWaits (e : Site) (y : Yard) (slot : Nat) (t : Ticket) : Waits :=
  if t.kind = .yield ∨ t.kind = .park then { Waits.none with stop := e.stop }
  else
    { after := t.after && (ahead y slot).any y.activeAt
      source := sourceWaits e y slot t
      buried := (buriedIn y slot).isSome
      dest := destWaits y slot t
      order := orderWaits y slot t
      stop := e.stop
      redirect := t.dest.isNone }

/-- R121, R122: one PENDING or READY ticket evaluated: READY when no reason applies, PENDING otherwise. -/
def refreshTicket (e : Site) (y : Yard) (slot : Nat) : Yard :=
  match y.ticketAt slot with
  | some t =>
    if t.state = .pending ∨ t.state = .ready then
      let w := evalWaits e y slot t
      y.updTicket slot (fun u => { u with waits := w, state := if w = .none then .ready else .pending })
    else y
  | none => y

/-- R122: every PENDING and READY ticket evaluated. -/
def refreshAll (e : Site) (y : Yard) : Yard := forEach y.moveQueue (refreshTicket e) y

/-! ## Effective levels (R123) -/

/-- R123: the ticket that the DIG or YIELD in a slot serves, while it is still in use. It was made before the DIG or YIELD
and stands ahead of it (R115); a later ticket that takes the same slot, and after 64 uses the same handle, stands behind
it and is not the ticket served. -/
def servedTicket (y : Yard) (slot : Nat) (t : Ticket) : Option Ticket :=
  match t.serves with
  | some h => if (ahead y slot).contains h.slot then y.ticket? h else none
  | none => none

/-- R123: the effective level of the active ticket in a slot. A PICK whose piece is not listed, and a DIG or YIELD whose
served ticket is not active, keep the level they have. -/
def ticketLevel (e : Site) (y : Yard) (slot : Nat) (t : Ticket) : Nat :=
  match t.kind with
  | .strip =>
    match t.source with
    | some (.bed b _) => max t.baseLevel (getOr e.beds b .reset).turnover
    | _ => t.baseLevel
  | .stow =>
    match t.source with
    | some (.lane l) => max t.baseLevel (y.lane l).demand
    | _ => t.baseLevel
  | .pick =>
    match t.truck, t.piece with
    | some k, some p =>
      match y.piece? p with
      | some r => if r.order = some k then (y.truck k).level else t.level
      | none => t.level
    | _, _ => t.level
  | .dig | .yield =>
    match servedTicket y slot t with
    | some u => if u.state.isActive then u.level else t.level
    | none => t.level
  | .shift | .park => t.baseLevel

/-- R123: the effective level of the ticket in a slot recomputed, while it is active. -/
def refreshLevel (e : Site) (y : Yard) (slot : Nat) : Yard :=
  match y.ticketAt slot with
  | some t => if t.state.isActive then y.updTicket slot (fun u => { u with level := ticketLevel e y slot t }) else y
  | none => y

/-- R123: every effective level recomputed, in move queue order, so that a served ticket comes before those that serve
it. -/
def refreshLevels (e : Site) (y : Yard) : Yard := forEach y.moveQueue (refreshLevel e) y

/-! ## Making a ticket -/

/-- R113: a ticket as it is made, before its wait reasons are evaluated. -/
def Ticket.fresh (kind : TicketKind) (piece : Option Handle) (source : Option Location) (dest : Option Dest)
    (base : Nat) : Ticket where
  kind := kind
  piece := piece
  source := source
  dest := dest
  baseLevel := base
  level := base
  after := false
  dig := false
  truck := none
  serves := none
  crane := none
  state := .pending
  weightFailed := false
  holdPending := false
  waits := .none
  outcome := .none
  redirected := false

/-- R11: the ticket field of a piece written. -/
def setPieceTicket (y : Yard) (p : Handle) (h : Option Handle) : Yard :=
  y.updPiece p.slot (fun r => { r with ticket := h })

/-- R90, R100: the PLACE claim or the reservation of a destination appended. -/
def claimDest (y : Yard) (h : Handle) : Option Dest → Yard
  | some (.stack s) => appendClaim y s ⟨.place, h⟩
  | some (.lane l) => reserve y l
  | some (.truck _) | some (.bay _) | none => y

/-- R114, R119: a ticket for a piece placed in a slot, its destination claimed, the piece's ticket field set, and its
LIFT claim appended or, for a piece of a stack that is not the projection top, the buried count raised. -/
def makeTicket (e : Site) (y : Yard) (slot : Nat) (p : Handle) (t : Ticket) : Yard :=
  let y1 := y.placeTicket slot t
  let h := y1.ticketHandle slot
  let y2 := setPieceTicket (claimDest y1 h t.dest) p (some h)
  let y3 :=
    match t.source with
    | some (.stack s _) =>
      if (projection y s).getLast? = some p then appendLift y2 s h else raiseBuried y2 s
    | _ => y2
  refreshTicket e (refreshLevel e y3 slot) slot

/-! ## Ending a ticket (R132 to R134) -/

/-- R138: the crane whose bound ticket is the handle loses it. -/
def unbind (y : Yard) (h : Handle) : Yard :=
  forEach [0, 1, 2] (fun y k => y.updArb k (fun a => if a.bound = some h then { a with bound := none } else a)) y

/-- R181: the truck bay whose current pick is the handle loses it. -/
def clearPick (y : Yard) (h : Handle) : Yard :=
  forEach [0, 1, 2, 3]
    (fun y k => y.updTruck k (fun r => if r.currentPick = some h then { r with currentPick := none } else r)) y

/-- R132: the claims that a ticket holds removed: its LIFT claim, or its BURIED mark with the buried count; its PLACE
claim or its reservation. `t` and `buried` are the ticket and the stack it is buried in before it ends. -/
def releaseClaims (e : Site) (y : Yard) (h : Handle) (t : Ticket) (buried : Option Nat) : Yard :=
  let y1 :=
    match t.source with
    | some (.stack s _) => removeClaim e y s ⟨.lift, h⟩
    | _ => y
  let y2 :=
    match buried with
    | some s => lowerBuried y1 s
    | none => y1
  match t.dest with
  | some (.stack s) => removeClaim e y2 s ⟨.place, h⟩
  | some (.lane l) => unreserve y2 l
  | _ => y2

/-- R11: the piece of a ticket loses its ticket field. -/
def clearPieceTicket (y : Yard) (t : Ticket) : Yard :=
  match t.piece with
  | some p => setPieceTicket y p none
  | none => y

/-- R132: a ticket finishes: its state and outcome written, its claims removed (none are left at DONE), its piece's
ticket field made absent, the ticket appended to the finished list. Its other fields stay, the weight-failed mark among
them (log 30). -/
def finishTicket (e : Site) (y : Yard) (slot : Nat) (st : TicketState) (outcome : TicketOutcome) : Yard :=
  match y.ticketAt slot with
  | some t =>
    let h := y.ticketHandle slot
    let buried := buriedIn y slot
    let y1 := y.updTicket slot (fun u => { u with state := st, outcome := outcome, waits := .none })
    let y2 := if st = .done then y1 else releaseClaims e y1 h t buried
    let y3 := clearPick (clearPieceTicket y2 t) h
    { y3 with finished := y3.finished ++ [slot] }
  | none => y

/-- R133, R161: STOP sent to the crane of a GRANTED ticket that is cancelled or withdrawn; the crane stays BUSY
without a current ticket. -/
def stopCraneOf (e : Site) (y : Yard) (t : Ticket) : Yard :=
  match t.state, t.crane with
  | .granted, some k => sendStop e (y.updCrane k (fun c => { c with stage := none, current := none })) k
  | _, _ => y

/-- R134: a device withdrawal: the changes of a cancel, but the ticket becomes CANCELLED with outcome WITHDRAWN and
enters the finished list. -/
def withdraw (e : Site) (y : Yard) (slot : Nat) : Yard :=
  match y.ticketAt slot with
  | some t => finishTicket e (stopCraneOf e y t) slot .cancelled .withdrawn
  | none => y

/-- R133: an accepted CANCEL MOVE: STOP to the crane of a GRANTED ticket, the claims removed, the piece's ticket field
and a crane's binding made absent, the slot freed. -/
def cancelTicket (e : Site) (y : Yard) (slot : Nat) : Yard :=
  match y.ticketAt slot with
  | some t =>
    let h := y.ticketHandle slot
    let buried := buriedIn y slot
    let y1 := (stopCraneOf e y t).updTicket slot (fun u => { u with state := .cancelled, waits := .none })
    let y2 := clearPieceTicket (releaseClaims e y1 h t buried) t
    (unbind y2 h).freeTicket slot
  | none => y

/-- R122, R127: a GRANTED ticket returned to READY and evaluated at once; it keeps its claims, its crane field becomes
absent. -/
def returnTicket (e : Site) (y : Yard) (slot : Nat) : Yard :=
  refreshTicket e (y.updTicket slot (fun u => { u with state := .ready, crane := none })) slot

end Sys2Proof.Machine
end

