-- ==== Sys2Proof/Machine/Search.lean ====
section
/-! DEFINITION. The destination allocator (05, section 5.4), dig generation (06, section 6.6), pick creation (09, R180),
and the work that waits for an occasion, in the order R180 gives it. -/

namespace Sys2Proof.Machine

/-! ## The allocator (R108 to R111) -/

/-- R108: the nearest stack to a bay among those that `ok` admits, the lowest number among equally near ones. -/
def nearestStack (y : Yard) (bay : Nat) (ok : Nat → Bool) : Option Nat :=
  (List.range 40).foldl
    (fun best s =>
      if ok s then
        match best with
        | some b => if distance (y.stack s).bay bay < distance (y.stack b).bay bay then some s else some b
        | none => some s
      else best)
    none

/-- R109: the sum of pieces and reservations of a lane. -/
def laneLoad (y : Yard) (l : Nat) : Nat := (y.lane l).pieces.length + (y.lane l).reservations

/-- R109: the lane with room and the smaller load; on equal loads L0. -/
def chooseLane (y : Yard) : Option Nat :=
  match laneRoom y 0, laneRoom y 1 with
  | none, none => if laneLoad y 1 < laneLoad y 0 then some 1 else some 0
  | none, some _ => some 0
  | some _, none => some 1
  | some _, some _ => none

/-- The location lies in the stack. -/
def Location.inStack : Location → Nat → Bool
  | .stack s _, i => decide (s = i)
  | _, _ => false

/-- R109, R110: the nearest stack other than the source stack on which the piece passes the placement test. -/
def stackFor (e : Site) (y : Yard) (src : Location) (p : Handle) : Option Nat :=
  nearestStack y (sourceBay e y src) (fun s => !src.inStack s && (placement e y s p).isNone)

/-- R109: the AUTO search. -/
def autoDest (e : Site) (y : Yard) (kind : TicketKind) (src : Location) (p : Handle) : Option Dest :=
  match (if kind = .strip then chooseLane y else none) with
  | some l => some (.lane l)
  | none => (stackFor e y src p).map .stack

/-! ## Dig generation (R125, R126) -/

/-- R125, case 6: a DIG ticket for a covering piece of the stack, made for the buried ticket in a slot. -/
def makeDig (e : Site) (y : Yard) (free slot : Nat) (c : Handle) (src : Location) (d : Nat) (t : Ticket) : Yard :=
  makeTicket e y free c
    { Ticket.fresh .dig (some c) (some src) (some (.stack d)) t.level with
      truck := if t.kind = .pick then t.truck else none
      serves := some (y.ticketHandle slot) }

/-- R125: the walk of a dig round over the covering pieces, from the top downward. -/
def digWalk (e : Site) (slot s : Nat) : List Handle → Yard → Yard
  | [], y => y
  | c :: cs, y =>
    match y.pieceAt c.slot, y.ticketAt slot with
    | some p, some t =>
      if p.ticket.isSome then digWalk e slot s cs y
      else
        match y.freeTicketSlot with
        | none => y
        | some free =>
          if (y.stack s).claims.length ≥ 4 ∨ (projection y s).getLast? ≠ some c then y
          else
            match stackFor e y p.location c with
            | none => y
            | some d => digWalk e slot s cs (makeDig e y free slot c p.location d t)
    | _, _ => y

/-- R125: a dig round for the ticket in a slot, when it is buried with its dig flag set. -/
def digRound (e : Site) (y : Yard) (slot : Nat) : Yard :=
  match y.ticketAt slot, buriedIn y slot with
  | some t, some s =>
    if t.dig then digWalk e slot s ((y.stack s).pieces.reverse.takeWhile (fun h => decide (some h ≠ t.piece))) y else y
  | _, _ => y

/-! ## Pick creation (R180) -/

/-- R180: a PICK made for the entry at next index, with its source claim or its BURIED mark. -/
def makePick (e : Site) (y : Yard) (k slot : Nat) (p : Handle) (src : Location) : Yard :=
  let r := y.truck k
  let y1 := makeTicket e y slot p
    { Ticket.fresh .pick (some p) (some src) (some (.truck k)) r.level with
      dig := r.digEnable
      truck := some k }
  y1.updTruck k (fun t => { t with currentPick := some (y.ticketHandle slot) })

/-- R180: pick creation attempted for a truck bay; a buried pick with dig enable runs its first dig round,
after which its wait reasons are evaluated (R126). -/
def createPick (e : Site) (y : Yard) (k : Nat) : Yard :=
  let r := y.truck k
  if r.state = .opened ∧ r.currentPick = none then
    match r.orderList[r.nextIndex]? with
    | some p =>
      match y.piece? p, y.freeTicketSlot with
      | some rec, some slot =>
        if rec.ticket.isSome then y
        else
          match rec.location with
          | .stack s _ =>
            if (projection y s).getLast? = some p ∧ (y.stack s).claims.length ≥ 4 then y
            else refreshTicket e (digRound e (makePick e y k slot p rec.location) slot) slot
          | .lane _ => makePick e y k slot p rec.location
          | .hook _ => makePick e y k slot p rec.location
          | .bed _ _ => y
          | .truck _ _ => y
      | _, _ => y
    | none => y
  else y

/-! ## Redirect searches (R111, R185) -/

/-- R139: the interval does not meet the claims of the crane's neighbours, each on its own side. -/
def reaches (y : Yard) (k : Nat) (span : Interval) : Bool :=
  (match k, y.claim (k - 1) with
    | 0, _ => true
    | _, none => true
    | _, some c => decide (c.hi < span.lo))
  && (if k ≥ 2 then true
      else
        match y.claim (k + 1) with
        | none => true
        | some c => decide (span.hi < c.lo))

/-- R140, condition 2: some crane's claim is empty. -/
def someClaimEmpty (y : Yard) : Bool := (y.claim 0).isNone || (y.claim 1).isNone || (y.claim 2).isNone

/-- R111: the laden redirect search, for the piece on the hook of crane `k`. -/
def ladenStack (e : Site) (y : Yard) (k : Nat) (p : Handle) : Option Nat :=
  match y.claim k with
  | none => none
  | some c =>
    if someClaimEmpty y then none
    else
      nearestStack y (y.crane k).lastBay (fun s =>
        decide ((y.stack s).claims = []) && (placement e y s p).isNone && reaches y k (c.join (y.stack s).bay))

/-- R111: the unladen redirect search. -/
def unladenDest (e : Site) (y : Yard) (t : Ticket) (src : Location) (p : Handle) : Option Dest :=
  match (if t.kind = .strip then chooseLane y else none) with
  | some l => some (.lane l)
  | none =>
    (nearestStack y (sourceBay e y src) (fun s =>
      !src.inStack s && decide ((y.stack s).claims = []) && (placement e y s p).isNone)).map .stack

/-- R93, R185: a waiting ticket given a destination: its claim or reservation appended, REDIRECTED set. -/
def giveDest (y : Yard) (slot : Nat) (d : Dest) : Yard :=
  claimDest
    (y.updTicket slot (fun u => { u with dest := some d, redirected := true, waits := { u.waits with redirect := false } }))
    (y.ticketHandle slot) (some d)

/-- R185, R153: a laden ticket redirected: the destination given, the claim grown, TRAVEL sent. -/
def giveLaden (e : Site) (y : Yard) (slot k s : Nat) : Yard :=
  let bay := (y.stack s).bay
  let y1 := giveDest y slot (.stack s)
  sendStage e (y1.setClaim k ((y1.claim k).map (fun c => c.join bay))) k .travel bay

/-- R111: the search of one ticket that waits under REDIRECT: laden in LIFTED, unladen in PENDING. -/
def redirectOne (e : Site) (y : Yard) (slot : Nat) : Yard :=
  match y.ticketAt slot with
  | some t =>
    match t.dest, t.piece, t.source with
    | none, some p, some src =>
      if t.state = .lifted then
        match t.crane with
        | some k =>
          match ladenStack e y k p with
          | some s => giveLaden e y slot k s
          | none => y
        | none => y
      else if t.state = .pending ∨ t.state = .ready then
        match unladenDest e y t src p with
        | some d => giveDest y slot d
        | none => y
      else y
    | _, _, _ => y
  | none => y

/-- R111: the waiting redirect searches, in move queue order. -/
def redirectAll (e : Site) (y : Yard) : Yard := forEach y.moveQueue (redirectOne e) y

/-! ## Waiting work (R180) -/

/-- R180: at an occasion, redirect searches first, then pick creations from T0, then dig rounds in move queue order. -/
def waitingPass (e : Site) (y : Yard) : Yard :=
  let y1 := redirectAll e y
  let y2 := forEach [0, 1, 2, 3] (createPick e) y1
  forEach y2.moveQueue (digRound e) y2

/-- The tickets that wait for a destination. -/
def missingDests (y : Yard) : Nat :=
  y.moveQueue.countP (fun slot => y.activeAt slot && decide ((y.ticketAt slot).bind (fun t => t.dest) = none))

/-- R126, R180: a pass that made a ticket or gave a destination is itself an occasion, so passes follow until one makes
nothing (log 10). Each pass that goes on makes one of 24 tickets or gives one of 24 destinations. -/
def waitingWork (e : Site) : (fuel : Nat) → Yard → Yard
  | 0, y => y
  | n + 1, y =>
    let y1 := waitingPass e y
    if y1.moveQueue.length = y.moveQueue.length ∧ missingDests y1 = missingDests y then y1
    else waitingWork e n y1

/-- R126: the promotions of every stack that holds a buried ticket. -/
def promoteAll (y : Yard) : Yard :=
  forEach (List.range 40) (fun y s => if (y.stack s).buried > 0 then promote s y else y) y

/-- What follows a change of the yard within the same step, before the arbiter: promotions, effective levels, the
waiting work, and the wait reasons of every PENDING and READY ticket (R122, R123, R126, R180; log 10). -/
def followUp (e : Site) (y : Yard) : Yard :=
  refreshAll e (refreshLevels e (waitingWork e 48 (refreshLevels e (promoteAll y))))

end Sys2Proof.Machine
end

