-- ==== Sys2Proof/Machine/Arbiter.lean ====
section
/-! DEFINITION. The Runway Arbiter (07): spans and reach, the selection order, grants, preemptions and yields, and the
evaluation that follows a change of the yard. -/

namespace Sys2Proof.Machine

/-! ## Spans (R139) -/

/-- The source is a crane's hook. -/
def Ticket.fromHook (t : Ticket) : Bool :=
  match t.source with
  | some (.hook _) => true
  | _ => false

/-- R144, R146: the ticket has a piece and a source other than HOOK. -/
def Ticket.fromYard (t : Ticket) : Bool := t.piece.isSome && !t.fromHook

/-- R139: the destination bay of a ticket, as an interval's worth of bays; none while it has no destination. -/
def destBays (y : Yard) (t : Ticket) : List Nat :=
  match t.dest with
  | some d => [destBay y d]
  | none => []

/-- R139: the bays a ticket needs. -/
def neededBays (e : Site) (y : Yard) (t : Ticket) : List Nat :=
  match t.source with
  | some (.hook _) => destBays y t
  | some src => sourceBay e y src :: destBays y t
  | none => destBays y t

/-- R139: the smallest interval that contains the bays of a list; none for the empty list. -/
def hull : List Nat → Option Interval
  | [] => none
  | b :: bs => some (bs.foldl Interval.join (.single b))

/-- R139: the span of a ticket for a crane. (A crane with an empty claim is tested by no step, R140.) -/
def span (e : Site) (y : Yard) (k : Nat) (t : Ticket) : Option Interval :=
  match y.claim k with
  | some c => some ((neededBays e y t).foldl Interval.join c)
  | none => hull (neededBays e y t)

/-- R139: crane `k` reaches the ticket. -/
def reachesTicket (e : Site) (y : Yard) (k : Nat) (t : Ticket) : Bool :=
  match span e y k t with
  | some i => reaches y k i
  | none => false

/-- R139: the travel interval of a ticket with a piece. -/
def travelInterval (e : Site) (y : Yard) (t : Ticket) : Option Interval := hull (neededBays e y t)

/-- R127, R143: the bay that the TRAVEL of a grant names. -/
def grantBay (e : Site) (y : Yard) (t : Ticket) : Nat := (neededBays e y t).headD 0

/-- R143: the bay from which the distance of a crane is measured. -/
def measureBay (e : Site) (y : Yard) (t : Ticket) : Nat := grantBay e y t

/-! ## Selection (R124, R142) -/

/-- R124: the kind priority. -/
def TicketKind.priority : TicketKind → Nat
  | .yield => 1 | .pick => 2 | .dig => 3 | .strip => 4 | .stow => 5 | .shift => 6 | .park => 7

/-- R142: the place of a ticket in the selection order as a number: level, kind priority, place in the queue. -/
def selectionKey (y : Yard) (slot : Nat) (t : Ticket) : Nat :=
  (3 - t.level) * 1024 + t.kind.priority * 64 + y.moveQueue.idxOf slot

/-- The number of a list with the least score, the first among equals. -/
def leastBy (score : Nat → Nat) : List Nat → Option Nat
  | [] => none
  | x :: xs =>
    match leastBy score xs with
    | some b => if score b < score x then some b else some x
    | none => some x

/-- The key of a READY ticket that stands later in the selection order than `last`. -/
def readyKey (y : Yard) (last : Nat) (slot : Nat) : Option Nat :=
  match y.ticketAt slot with
  | some t => if t.state = .ready ∧ last < selectionKey y slot t then some (selectionKey y slot t) else none
  | none => none

/-- R141: the next READY ticket of a walk. -/
def nextReady (y : Yard) (last : Nat) : Option Nat :=
  leastBy (fun slot => (readyKey y last slot).getD 0) (y.moveQueue.filter (fun slot => (readyKey y last slot).isSome))

/-! ## The idle-crane step (R142, R143) -/

/-- R142: crane `k` may be granted the ticket. -/
def mayServe (y : Yard) (slot k : Nat) (t : Ticket) : Bool :=
  decide ((y.crane k).state = .idle)
    && (match t.kind with
        | .yield | .park => decide ((y.crane k).hook = none) && decide ((y.arb k).bound = some (y.ticketHandle slot))
        | _ =>
          match t.source with
          | some (.hook j) => decide (j = k) && decide ((y.crane k).hook = t.piece)
          | _ => decide ((y.crane k).hook = none))

/-- The distance of crane `k` from a ticket's source bay (R143). -/
def craneDistance (e : Site) (y : Yard) (t : Ticket) (k : Nat) : Nat :=
  match y.claim k with
  | some c => c.distance (measureBay e y t)
  | none => 0

/-- R143: the crane of the idle-crane step. -/
def idleCrane (e : Site) (y : Yard) (slot : Nat) (t : Ticket) : Option Nat :=
  leastBy (craneDistance e y t) ([0, 1, 2].filter (fun k => mayServe y slot k t && reachesTicket e y k t))

/-- R127, R143: the grant of a ticket to a crane. -/
def grant (e : Site) (y : Yard) (slot k : Nat) (t : Ticket) : Yard :=
  let bay := grantBay e y t
  let y1 := y.setClaim k (span e y k t)
  let y2 := y1.updTicket slot (fun u => { u with state := if t.fromHook then .lifted else .granted, crane := some k })
  let y3 := y2.updCrane k (fun c => { c with state := .busy, current := some (y.ticketHandle slot) })
  sendStage e y3 k .travel bay

/-! ## Preemption (R144, R145) -/

/-- R144: the slot of the GRANTED ticket of lower level that crane `k` serves. -/
def preemptable (y : Yard) (k : Nat) (t : Ticket) : Option Nat :=
  if (y.crane k).state = .busy then
    match (y.crane k).current with
    | some h =>
      match y.ticket? h with
      | some u => if u.state = .granted ∧ u.level < t.level then some h.slot else none
      | none => none
    | none => none
  else none

/-- R144: the order of preemption candidates: the lowest level first, then the ticket furthest back in the queue. -/
def preemptScore (y : Yard) (t : Ticket) (k : Nat) : Nat :=
  match preemptable y k t with
  | some slot => ((y.ticketAt slot).map (fun u => u.level)).getD 0 * 64 + (63 - y.moveQueue.idxOf slot)
  | none => 0

/-- R144: the crane of the preemption step. -/
def preemptCrane (e : Site) (y : Yard) (t : Ticket) : Option Nat :=
  leastBy (preemptScore y t) ([0, 1, 2].filter (fun k => (preemptable y k t).isSome && reachesTicket e y k t))

/-- R145: a preemption on crane `k`: its ticket returns to READY and the crane goes to the new one. -/
def preempt (e : Site) (y : Yard) (slot k : Nat) (t : Ticket) : Yard :=
  match preemptable y k t with
  | some u => grant e (returnTicket e y u) slot k t
  | none => y

/-! ## Yields (R146, R147) -/

/-- R146: the neighbours of crane `k` that block a span. -/
def blockers (y : Yard) (k : Nat) (i : Interval) : List Nat :=
  (match k, y.claim (k - 1) with
    | 0, _ => []
    | _, none => []
    | j + 1, some c => if c.hi < i.lo then [] else [j])
  ++ (if k ≥ 2 then []
      else
        match y.claim (k + 1) with
        | none => []
        | some c => if i.hi < c.lo then [] else [k + 1])

/-- R146: the yield target of neighbour `j` of crane `k`; none where it falls outside the runway. -/
def yieldTarget (k j : Nat) (i : Interval) : Option Nat :=
  if j < k then (if i.lo = 0 then none else some (i.lo - 1))
  else if i.hi + 1 ≤ 63 then some (i.hi + 1)
  else none

/-- R146: the yield target of neighbour `j` lies clear of the claim of `j`'s other neighbour. -/
def targetClear (y : Yard) (k j target : Nat) : Bool :=
  if j < k then
    match j, y.claim (j - 1) with
    | 0, _ => true
    | _, none => true
    | _, some c => decide (c.hi < target)
  else if j ≥ 2 then true
  else
    match y.claim (j + 1) with
    | none => true
    | some c => decide (target < c.lo)

/-- R146: neighbour `j` of crane `k` is eligible to yield. -/
def mayYield (y : Yard) (k j : Nat) (i : Interval) : Bool :=
  decide ((y.crane j).state = .idle) && decide ((y.crane j).hook = none) && decide ((y.arb j).bound = none)
    && (match yieldTarget k j i with
        | some target => targetClear y k j target
        | none => false)

/-- R146: crane `k` is a yield candidate for the ticket. -/
def yieldCandidate (e : Site) (y : Yard) (t : Ticket) (k : Nat) : Bool :=
  decide ((y.crane k).state = .idle) && decide ((y.crane k).hook = none)
    && (match span e y k t with
        | some i => !(blockers y k i).isEmpty && (blockers y k i).all (fun j => mayYield y k j i)
        | none => false)

/-- R146: the crane of the yield step. -/
def yieldCrane (e : Site) (y : Yard) (t : Ticket) : Option Nat :=
  leastBy (craneDistance e y t) ([0, 1, 2].filter (yieldCandidate e y t))

/-- R147: a YIELD made for one blocking neighbour, while a ticket slot is free. -/
def makeYield (e : Site) (served : Handle) (level k : Nat) (i : Interval) (y : Yard) (j : Nat) : Yard :=
  match y.freeTicketSlot, yieldTarget k j i with
  | some free, some target =>
    let y1 := y.placeTicket free { Ticket.fresh .yield none none (some (.bay target)) level with serves := some served }
    refreshTicket e (y1.updArb j (fun a => { a with bound := some (y1.ticketHandle free) })) free
  | _, _ => y

/-- R147: the YIELD tickets for the neighbours that block crane `k`, in increasing crane order. -/
def makeYields (e : Site) (y : Yard) (slot k : Nat) (t : Ticket) : Yard :=
  match span e y k t with
  | some i => forEach (blockers y k i) (makeYield e (y.ticketHandle slot) t.level k i) y
  | none => y

/-! ## Evaluation (R140, R141) -/

/-- R143 to R147: the steps for one READY ticket; the flag says whether one of them made something. -/
def examine (e : Site) (y : Yard) (slot : Nat) : Yard × Bool :=
  match y.ticketAt slot with
  | some t =>
    match idleCrane e y slot t with
    | some k => (grant e y slot k t, true)
    | none =>
      if t.fromYard then
        match preemptCrane e y t with
        | some k => (preempt e y slot k t, true)
        | none =>
          match yieldCrane e y t with
          | some k =>
            let y1 := makeYields e y slot k t
            (y1, decide (y1.moveQueue ≠ y.moveQueue))
          | none => (y, false)
      else (y, false)
  | none => (y, false)

/-- R141: one walk over the READY tickets in selection order, from the place `last`. A walk meets each of the 24
slots at most once, since its place only moves on. -/
def walk (e : Site) : (fuel : Nat) → (last : Nat) → Yard → Yard × Bool
  | 0, _, y => (y, false)
  | n + 1, last, y =>
    match nextReady y last with
    | none => (y, false)
    | some slot =>
      let key := (readyKey y last slot).getD 0
      let r := examine e y slot
      let r2 := walk e n key r.1
      (r2.1, r.2 || r2.2)

/-- R141: walks until one makes nothing. Grants, preemptions and yields together are at most 15 in an evaluation. -/
def walks (e : Site) : (fuel : Nat) → Yard → Yard
  | 0, y => y
  | n + 1, y =>
    let r := walk e 25 0 y
    if r.2 then walks e n r.1 else r.1

/-- R140: the arbiter is held back. -/
def heldBack (e : Site) (y : Yard) : Bool := e.stop || someClaimEmpty y

/-- R140, R141: an evaluation. -/
def evaluate (e : Site) (y : Yard) : Yard := if heldBack e y then y else walks e 32 y

/-- R141: the ticket in a slot became READY, or its effective level changed while it was active. -/
def ticketOccasion (y0 y1 : Yard) (slot : Nat) : Bool :=
  match y1.ticketAt slot with
  | some t =>
    let old := if (y0.ticketSlot slot).gen = (y1.ticketSlot slot).gen then y0.ticketAt slot else none
    (decide (t.state = .ready) && decide (old.map (fun u => u.state) ≠ some .ready))
      || (t.state.isActive && (old.map (fun u => u.state.isActive)).getD false && decide (old.map (fun u => u.level) ≠ some t.level))
  | none => false

/-- R141: the crane became IDLE, or its claim changed. -/
def craneOccasion (y0 y1 : Yard) (k : Nat) : Bool :=
  decide (y0.claim k ≠ y1.claim k) || (decide ((y0.crane k).state ≠ .idle) && decide ((y1.crane k).state = .idle))

/-- R141: an occasion for the arbiter lies between two yards. -/
def occasion (y0 y1 : Yard) : Bool :=
  (List.range 24).any (ticketOccasion y0 y1) || [0, 1, 2].any (craneOccasion y0 y1)

/-- What follows a change of the yard from `y0` to `y1` within the same step: the follow-up work, and the arbiter's
evaluation when the change was an occasion for it (R141, R153; log 10). -/
def settle (e : Site) (y0 y1 : Yard) : Yard :=
  let y := followUp e y1
  if occasion y0 y then evaluate e y else y

/-- The state `s1`, whose yard was that of `s0` before the change, after the follow-up work and the arbiter. -/
def Plant.settle (s0 s1 : Plant) : Plant := s1.updYard (Machine.settle s1.site s0.yard)

/-- R153: what follows a crane event that R153 makes a claim change and an occasion for an evaluation, also where it keeps
the claim as it stands: the follow-up work, and the arbiter's evaluation in any case. -/
def settleClaim (e : Site) (y : Yard) : Yard := evaluate e (followUp e y)

/-- The state after such an event, the follow-up work and the evaluation. -/
def Plant.settleClaim (s : Plant) : Plant := s.updYard (Machine.settleClaim s.site)

/-- R153: the state `s1` that a fault of crane `k` made of `s0`, with what follows. A fault taken while the crane is BUSY
is an occasion for an evaluation in any case. -/
def Plant.settleFault (s0 s1 : Plant) (k : Nat) : Plant :=
  if (s0.yard.crane k).state = .busy then s1.settleClaim else s0.settle s1

end Sys2Proof.Machine
end

