-- ==== Sys2Proof/Machine/Flags.lean ====
section
/-! DEFINITION. Every latched flag and every condition the part shows: the alarm flags of beds and cranes, the order
flags, the attention line (R211) and the status byte (R204). -/

namespace Sys2Proof.Machine

/-! ## Latching -/

/-- R42: PLAN-DONE latched. -/
def BedFlags.latchPlanDone (f : BedFlags) : BedFlags := { f with planDone := true }
/-- R42, R79: GAP latched. -/
def BedFlags.latchGap (f : BedFlags) : BedFlags := { f with gap := true }
/-- R42, R80: LOST latched. -/
def BedFlags.latchLost (f : BedFlags) : BedFlags := { f with lost := true }
/-- R42, R75: OVER-TEMP latched. -/
def BedFlags.latchOverTemp (f : BedFlags) : BedFlags := { f with overTemp := true }
/-- R42, R77: UNIT-FAULT latched. -/
def BedFlags.latchUnitFault (f : BedFlags) : BedFlags := { f with unitFault := true }

/-- A bed's alarm flags changed. -/
def Plant.latchBed (s : Plant) (b : Nat) (f : BedFlags → BedFlags) : Plant :=
  s.updBed b (fun r => { r with flags := f r.flags })

/-- R172: FAULT latched on a crane. -/
def CraneRecord.latchFault (c : CraneRecord) : CraneRecord := { c with flagFault := true }

/-- R172: PROTOCOL latched on a crane. -/
def CraneRecord.latchProtocol (c : CraneRecord) : CraneRecord := { c with flagProtocol := true }

/-- R158, R159: PROTOCOL latched, nothing else changed. -/
def latchProtocol (y : Yard) (k : Nat) : Yard := y.updCrane k CraneRecord.latchProtocol

/-! ## What is latched -/

/-- The bed has an alarm flag latched. -/
def BedRecord.alarmed (b : BedRecord) : Bool := decide (b.flags ≠ .none)

/-- The crane has an alarm flag latched. -/
def CraneRecord.alarmed (c : CraneRecord) : Bool := c.flagFault || c.flagProtocol

/-- The truck bay has an order flag latched. -/
def TruckRecord.alarmed (t : TruckRecord) : Bool := t.flagComplete || t.flagChanged

/-- R210: the lowest-numbered bed with a flag latched. -/
def Plant.alarmedBed (s : Plant) : Option Nat := s.beds.toList.findIdx? BedRecord.alarmed

/-- R210: the lowest-numbered crane with a flag latched. -/
def Plant.alarmedCrane (s : Plant) : Option Nat := s.yard.cranes.toList.findIdx? CraneRecord.alarmed

/-- R210: the lowest-numbered truck bay with a flag latched. -/
def Plant.alarmedTruck (s : Plant) : Option Nat := s.yard.trucks.toList.findIdx? TruckRecord.alarmed

/-- R211, cases 2 and 3: an attention item waits. -/
def Plant.itemWaits (s : Plant) : Bool :=
  !s.yard.finished.isEmpty || s.alarmedBed.isSome || s.alarmedCrane.isSome || s.alarmedTruck.isSome

/-! ## The attention line and the status byte -/

/-- R211: the attention line is asserted. -/
def State.attention (s : State) : Bool :=
  decide (s.plant.works.settings.threshold ≤ s.port.resultQueue.length) || s.plant.itemWaits

/-- R204: the status byte, bit 0 first in the list: SCAN-BUSY, FRAME-ERROR, OVERFLOW, CQ-FULL, RESULT-READY, ATTENTION,
STOP, PHASE-OPEN. -/
def State.statusNum (s : State) : Nat :=
  setNat [s.port.scan.isSome, s.port.frameError, s.port.overflow, decide (s.port.commandQueue.length = 8),
    !s.port.resultQueue.isEmpty, s.attention, s.plant.works.stop, !s.plant.isClosed]

/-- R204: the status byte. -/
def State.statusByte (s : State) : Byte := BitVec.ofNat 8 s.statusNum

end Sys2Proof.Machine
end

