-- ==== Sys2Proof/Machine/Listing.lean ====
section
/-! DEFINITION. The listing of pieces on dispatch orders (09): completion, the end of a listing by a hold, what becomes
of the current pick, and holds added to a piece (R16). -/

namespace Sys2Proof.Machine

/-- R182: the completion test of a truck bay. -/
def completionTest (y : Yard) (k : Nat) : Yard :=
  y.updTruck k (fun t =>
    if t.state = .opened ∧ t.orderList ≠ [] ∧ t.nextIndex = t.orderList.length then
      { t with state := .complete, flagComplete := true }
    else t)

/-- R185: the destination of a detached PICK in LIFTED becomes absent, and it takes the REDIRECT wait reason. -/
def loseDest (y : Yard) (slot : Nat) : Yard :=
  y.updTicket slot (fun t => { t with dest := none, waits := { t.waits with redirect := true } })

/-- R185: a PICK in LIFTED that becomes detached loses its destination and is given one by the laden search, if there is
one. Nothing has changed that another ticket's search looks at, so no other search is made first (R111). -/
def redirectLaden (e : Site) (y : Yard) (slot : Nat) : Yard := redirectOne e (loseDest y slot) slot

/-- R183, R186: the current pick dealt with by its state when its entry leaves the list. -/
def dealWithPick (e : Site) (y : Yard) (slot : Nat) : Yard :=
  match y.ticketAt slot with
  | some t =>
    match t.state with
    | .pending | .ready | .granted => withdraw e y slot
    | .lifting => y.updTicket slot (fun u => { u with holdPending := true })
    | .lifted => redirectLaden e y slot
    | .setting | .done | .failed | .cancelled => y
  | none => y

/-- R183: the current pick of a truck bay dealt with, and absent. -/
def dropCurrentPick (e : Site) (y : Yard) (k : Nat) : Yard :=
  (match (y.truck k).currentPick with
    | some h => dealWithPick e y h.slot
    | none => y).updTruck k (fun t => { t with currentPick := none })

/-- R183: a hold ends the listing of a listed piece. Pick creation for the entry now at next index follows with the
other waiting work of the change (R180; log 10). -/
def listingEnd (e : Site) (y : Yard) (h : Handle) : Yard :=
  match (y.pieceAt h.slot).bind (fun p => p.order) with
  | some k =>
    let atNext := decide ((y.truck k).orderList.idxOf h = (y.truck k).nextIndex)
    let y1 := (y.updPiece h.slot (fun p => { p with order := none })).updTruck k
      (fun t => { t with orderList := t.orderList.erase h, flagChanged := true })
    if atNext then completionTest (dropCurrentPick e y1 k) k else y1
  | none => y

/-- R16: a hold added to a piece; the addition ends the listing of a listed piece in the same change. A hold that is
present already leaves everything as it is. -/
def addHold (e : Site) (y : Yard) (h : Handle) (has : Holds → Bool) (set : Holds → Holds) : Yard :=
  match y.pieceAt h.slot with
  | some p =>
    if has p.holds then y
    else listingEnd e (y.updPiece h.slot (fun r => { r with holds := set r.holds })) h
  | none => y

/-- R16: the QC hold added. -/
def addQc (e : Site) (y : Yard) (h : Handle) : Yard :=
  addHold e y h (fun s => s.qc) (fun s => { s with qc := true })

/-- R16: the DAMAGE hold added. -/
def addDamage (e : Site) (y : Yard) (h : Handle) : Yard :=
  addHold e y h (fun s => s.damage) (fun s => { s with damage := true })

/-- R16, R130: the WEIGHT hold added. -/
def addWeight (e : Site) (y : Yard) (h : Handle) : Yard :=
  addHold e y h (fun s => s.weight) (fun s => { s with weight := true })

end Sys2Proof.Machine
end

