-- ==== Sys2Proof/Machine/Cure.lean ====
section
/-! DEFINITION. Cure Control (03): heat orders and the bed lines, transitions, forced OFF, segment timing, plant stop at
the beds, and the commands HEAT MODE, LOAD PLAN, SWAP PLAN, STOP CURE and READ PLAN. -/

namespace Sys2Proof.Machine

/-! ## Heat orders (R55, R56, R219) -/

/-- R55: the setpoint that the bed state and the plan give; none where R55's last row applies. -/
def orderSetpoint (b : BedRecord) (h : HeatRecord) : Option Nat :=
  match b.state with
  | .set | .cast => some b.holdSetpoint
  | .curing => if h.plan = .running then (h.run[h.segIndex]?).map (fun g => g.setpoint) else none
  | .vacant | .released | .stripping => none

/-- R55: the mode word that the running mode and the transition give; none for OFF and where the last row applies. -/
def orderMode (h : HeatRecord) : Option ModeWord :=
  match h.running, h.transition with
  | .off, .purge => some .purge
  | .off, .settle => some .settle
  | .steam, .none => some .steam
  | .mat, .none => some .mat
  | _, _ => none

/-- R55: the heat order of a bed. -/
def formOrder (b : BedRecord) (h : HeatRecord) : HeatOrder :=
  match orderMode h, orderSetpoint b h with
  | some m, some sp => ⟨m, sp⟩
  | _, _ => .off

/-- R219: a HEAT frame written on a free line: the count rises unless the content repeats the last one written. -/
def BedLine.write (l : BedLine) (o : HeatOrder) : BedLine :=
  let count := if o = l.lastWritten then l.heatCount else (l.heatCount + 1) % 256
  { l with
    heatCount := count
    lastWritten := o
    writing := some (linkFrame 0x21 count (byte1 o.mode.num ++ byte1 o.setpoint)) }

/-- R56: an order put on the line: written when the line is free, else in place of any order that waits. -/
def BedLine.put (l : BedLine) (o : HeatOrder) : BedLine :=
  match l.writing with
  | none => l.write o
  | some _ => { l with waiting := some o }

/-- R56: the frame being written is done: the line is free, and an order that waits is written. -/
def BedLine.release (l : BedLine) : BedLine :=
  match l.waiting with
  | some o => BedLine.write { l with waiting := none } o
  | none => { l with writing := none }

/-- R56: the bed's order sent, changed or not; the last order field takes it. No order is sent in CLOSED. -/
def sendOrder (s : Plant) (b : Nat) : Plant :=
  if s.isClosed then s
  else
    let o := formOrder (s.bed b) (s.heat b)
    (s.updBedLine b (fun l => l.put o)).updHeat b (fun h => { h with lastOrder := o })

/-- R56: the bed's order sent when it differs from the last order sent. -/
def sendIfChanged (s : Plant) (b : Nat) : Plant :=
  if formOrder (s.bed b) (s.heat b) = (s.heat b).lastOrder then s else sendOrder s b

/-! ## Forced OFF (R53) -/

/-- R50, R53: requested and running OFF, any transition abandoned. -/
def HeatRecord.turnOff (h : HeatRecord) : HeatRecord :=
  { h with requested := .off, running := .off, transition := .none, minutes := 0 }

/-- R53: a forced OFF of the heat record alone; the order is sent by the cause. -/
def heatOff (s : Plant) (b : Nat) : Plant := s.updHeat b HeatRecord.turnOff

/-- R53, R56: a forced OFF, with the order sent if it changed. -/
def forceOff (s : Plant) (b : Nat) : Plant := sendIfChanged (heatOff s b) b

/-! ## Transitions and segments (R48, R50, R58, R61 to R63) -/

/-- R48, R50, R54: the transition that a requested mode begins from running OFF. It counts from the next advance: a timer event of
this minute that is still to be taken reaches neither it nor, with running OFF for the rest of the minute, the segment timer
(R61), so that event is gone (log 4). -/
def HeatRecord.begin (h : HeatRecord) (purge : Nat) : HeatRecord :=
  match h.requested with
  | .steam => { h with running := .off, transition := .purge, minutes := purge, due := false }
  | .mat => { h with running := .off, transition := .settle, minutes := 1, due := false }
  | .off => h

/-- R48: the transition's part of a timer event. -/
def HeatRecord.tickTransition (h : HeatRecord) : HeatRecord :=
  match h.transition with
  | .none => h
  | .purge | .settle =>
    if h.minutes ≤ 1 then { h with transition := .none, minutes := 0, running := h.requested }
    else { h with minutes := h.minutes - 1 }

/-- R58: NEXT promoted into RUN. -/
def HeatRecord.promote (h : HeatRecord) : HeatRecord := { h with run := h.next, next := [] }

/-- The duration of a segment of RUN. -/
def HeatRecord.durationOf (h : HeatRecord) (i : Nat) : Nat := ((h.run[i]?).map (fun g => g.duration)).getD 0

/-- R60, R62: the plan in RUN set RUNNING at segment 0. -/
def HeatRecord.start (h : HeatRecord) : HeatRecord :=
  { h with plan := .running, segIndex := 0, segMinutes := h.durationOf 0 }

/-- R35, R40, R63: a RUNNING plan becomes COMPLETE and swap pending clears; another plan is left as it is. -/
def HeatRecord.endRunning (h : HeatRecord) : HeatRecord :=
  if h.plan = .running then { h with plan := .complete, swapPending := false } else h

/-- R61: the four conditions under which a timer event counts. -/
def segmentCounts (stop : Bool) (b : BedRecord) (h : HeatRecord) : Bool :=
  decide (b.state = .curing) && decide (h.plan = .running) && decide (h.running ≠ .off) && !stop

/-- R62, case 3: the segment that ends is the last and no swap is pending. -/
def HeatRecord.lastSegmentEnds (h : HeatRecord) : Bool := !h.swapPending && decide (h.run.length ≤ h.segIndex + 1)

/-- R62, R63: the end of a segment in the heat record. -/
def HeatRecord.endSegment (h : HeatRecord) : HeatRecord :=
  if h.swapPending then { h.promote with swapPending := false }.start
  else if h.lastSegmentEnds then { h with plan := .complete, segMinutes := 0 }.turnOff
  else { h with segIndex := h.segIndex + 1, segMinutes := h.durationOf (h.segIndex + 1) }

/-- R62, R63: the end of a segment: the heat record, PLAN-DONE at completion, and the order if it changed. -/
def segmentEnds (s : Plant) (b : Nat) : Plant :=
  let s1 := s.updHeat b HeatRecord.endSegment
  sendIfChanged (if (s.heat b).lastSegmentEnds then s1.latchBed b BedFlags.latchPlanDone else s1) b

/-- R61: the segment minutes lowered, and the segment ended at 0. -/
def countSegment (s : Plant) (b : Nat) : Plant :=
  if (s.heat b).segMinutes ≤ 1 then segmentEnds s b
  else s.updHeat b (fun h => { h with segMinutes := h.segMinutes - 1 })

/-- R48, R61: the timer event of a bed's heat record: the transition first, then the segment timer, which counts by the
conditions as the event found them. The event of this minute is then taken (log 4). -/
def heatTick (s : Plant) (b : Nat) : Plant :=
  let s1 := sendIfChanged (s.updHeat b (fun h => { h.tickTransition with due := false })) b
  if segmentCounts s.works.stop (s.bed b) (s.heat b) then countSegment s1 b else s1

/-- A TRANSITION_END or SEGMENT_END is due: the next timer event would end the transition (log 5). -/
def transitionDue (s : Plant) (b : Nat) : Bool :=
  !s.isClosed && decide ((s.heat b).transition ≠ .none) && decide ((s.heat b).minutes ≤ 1)

/-- The next timer event would end the segment (log 5). -/
def segmentDue (s : Plant) (b : Nat) : Bool :=
  !s.isClosed && segmentCounts s.works.stop (s.bed b) (s.heat b) && decide ((s.heat b).segMinutes ≤ 1)

/-! ## Plant stop (R54) -/

/-- R54: a heat record at the assertion. -/
def HeatRecord.stop (h : HeatRecord) : HeatRecord := { h with running := .off, transition := .none, minutes := 0 }

/-- R54: the assertion at every bed. -/
def cureStop (s : Plant) : Plant :=
  forEach (List.range 12) (fun s b => sendIfChanged (s.updHeat b HeatRecord.stop) b) s

/-- R54: the release at every bed. -/
def cureRelease (s : Plant) : Plant :=
  forEach (List.range 12) (fun s b => sendIfChanged (s.updHeat b (fun h => h.begin s.works.settings.purge)) b) s

/-! ## HEAT MODE (R49 to R51) -/

/-- R49: the result of HEAT MODE; the transition minutes are 1 byte (log 36). -/
def heatFields (h : HeatRecord) : List Byte :=
  byte1 h.requested.num ++ byte1 h.running.num ++ byte1 h.transition.num ++ byte1 h.minutes

/-- R50, R51: the effect of an accepted HEAT MODE on the heat record. -/
def HeatRecord.request (h : HeatRecord) (stop : Bool) (purge : Nat) (m : HeatMode) : HeatRecord :=
  if m = .off then h.turnOff
  else if h.requested = m then h
  else if stop then { h with requested := m }
  else { h with requested := m }.begin purge

/-- HEAT MODE (R49 to R51). -/
def xHeatMode (bed mode : Nat) (s : Plant) : Reply × Plant :=
  if s.isClosed then refuse .closed s
  else if 12 ≤ bed then refuse .range s
  else
    match heatModeOf mode with
    | none => refuse .range s
    | some m =>
      let h := s.heat bed
      let st := (s.bed bed).state
      if st ≠ .set ∧ st ≠ .cast ∧ st ≠ .curing then refuse .state s
      else if m ≠ .off ∧ (s.intakeOf bed).unitFault then refuse .state s
      else if m ≠ .off ∧ st = .curing ∧ h.plan ≠ .running then refuse .state s
      else if m ≠ .off ∧ h.transition ≠ .none then refuse .busy s
      else
        let s1 := sendIfChanged (s.updHeat bed (fun h => h.request s.works.stop s.works.settings.purge m)) bed
        accept (heatFields (s1.heat bed)) s1

/-! ## Plans (R57 to R60, R63, R65) -/

/-- R57: a segment within its ranges, the setpoint and the duration apart. -/
def setpointOk (g : Segment) : Bool := decide (g.setpoint ≤ 190)

/-- R57: a duration of 1 to 1440 minutes. -/
def durationOk (g : Segment) : Bool := decide (1 ≤ g.duration) && decide (g.duration ≤ 1440)

/-- LOAD PLAN (R57). -/
def xLoadPlan (bed : Nat) (plan : List Segment) (s : Plant) : Reply × Plant :=
  if 12 ≤ bed then refuse .range s
  else if plan = [] ∨ 8 < plan.length then refuse .range s
  else if !plan.all setpointOk then refuse .range s
  else if !plan.all durationOk then refuse .range s
  else accept [] (s.updHeat bed (fun h => { h with next := plan }))

/-- R59: the effect of an accepted SWAP PLAN on the heat record. -/
def HeatRecord.swap (h : HeatRecord) (curing : Bool) : HeatRecord :=
  match h.plan with
  | .running => { h with swapPending := true }
  | .complete => if curing then h.promote.start else { h.promote with plan := .loaded }
  | .none | .loaded => { h.promote with plan := .loaded }

/-- SWAP PLAN (R59). -/
def xSwapPlan (bed : Nat) (s : Plant) : Reply × Plant :=
  if s.isClosed then refuse .closed s
  else if 12 ≤ bed then refuse .range s
  else if (s.heat bed).next = [] then refuse .state s
  else
    let s1 := sendIfChanged (s.updHeat bed (fun h => h.swap (decide ((s.bed bed).state = .curing)))) bed
    accept (byte1 (s1.heat bed).plan.num ++ boolByte (s1.heat bed).swapPending) s1

/-- STOP CURE (R63). -/
def xStopCure (bed : Nat) (s : Plant) : Reply × Plant :=
  if s.isClosed then refuse .closed s
  else if 12 ≤ bed then refuse .range s
  else if (s.bed bed).state ≠ .curing then refuse .state s
  else accept [] (forceOff (s.updHeat bed (fun h => { h with plan := .complete, swapPending := false })) bed)

/-- R60: what START CURE does to the heat record. -/
def HeatRecord.startCure (h : HeatRecord) : HeatRecord :=
  { (if h.run = [] then h.promote else h).start with swapPending := false }

/-- R218: the READ PLAN result, packed. -/
def planFields (h : HeatRecord) (unitFault : Bool) : List Byte :=
  byte1 (h.requested.num * 64 + h.running.num * 16 + h.transition.num * 4 + (if h.swapPending then 2 else 0)
      + (if unitFault then 1 else 0))
    ++ byte1 h.minutes
    ++ byte1 (h.plan.num * 64 + h.segIndex)
    ++ beBytes 2 h.segMinutes
    ++ byte1 (h.run.length * 16 + h.next.length)
    ++ byte1 h.lastOrder.mode.num ++ byte1 h.lastOrder.setpoint
    ++ h.run.flatMap segmentBytes ++ h.next.flatMap segmentBytes

/-- READ PLAN (R65). -/
def xReadPlan (bed : Nat) (s : Plant) : Reply × Plant :=
  if 12 ≤ bed then refuse .range s
  else accept (planFields (s.heat bed) (s.intakeOf bed).unitFault) s

/-- R64, R194: a bed's plan at OPEN WORKS. -/
def HeatRecord.openWorks (h : HeatRecord) (curing : Bool) : HeatRecord :=
  if curing ∧ h.plan = .loaded then h.start else h

end Sys2Proof.Machine
end

