-- ==== Sys2Proof/Machine/Pieces.lean ====
section
/-! DEFINITION. The Piece Table (01): allocation and retirement, the mark map, the class table, holds, scrapping, and
the tests of a FIND. -/

namespace Sys2Proof.Machine

/-! ## The mark map (R6) -/

/-- R6: a mark entered, in rising order of slot. -/
def markInsert (m : List (Nat × Nat)) (mark slot : Nat) : List (Nat × Nat) :=
  m.takeWhile (fun e => decide (e.2 < slot)) ++ (mark, slot) :: m.dropWhile (fun e => decide (e.2 < slot))

/-- R6: a mark removed. -/
def markRemove (m : List (Nat × Nat)) (mark : Nat) : List (Nat × Nat) := m.filter (fun e => decide (e.1 ≠ mark))

/-- R6, R7: the slot that the map gives for a mark. -/
def markSlot (m : List (Nat × Nat)) (mark : Nat) : Option Nat := (m.find? (fun e => decide (e.1 = mark))).map (fun e => e.2)

/-! ## Allocation and retirement (R3, R4) -/

/-- R3: the lowest-numbered free piece slot. -/
def Yard.freePieceSlot (y : Yard) : Option Nat := y.pieces.toList.findIdx? (fun ps => ps.piece.isNone)

/-- R3: the number of free piece slots. -/
def Yard.freePieceCount (y : Yard) : Nat := y.pieces.toList.countP (fun ps => ps.piece.isNone)

/-- A record put in a slot. -/
def Yard.putPiece (y : Yard) (slot : Nat) (p : Piece) : Yard :=
  { y with pieces := upd y.pieces slot (fun ps => { ps with piece := some p }) }

/-- R3: a record allocated in the lowest free slot, its mark entered and its class counted. -/
def allocate (s : Plant) (p : Piece) : Option Handle × Plant :=
  match s.yard.freePieceSlot with
  | some slot =>
    (some ⟨slot, (s.yard.pieceSlot slot).gen⟩,
      ({ s with markMap := markInsert s.markMap p.mark slot }.updClass p.cls
        (fun c => { c with liveCount := c.liveCount + 1 })).updYard (fun y => y.putPiece slot p))
  | none => (none, s)

/-- R4: the generation after a retirement; slot 1023 wraps from 62. -/
def nextGen (slot gen : Nat) : Nat := if slot = 1023 ∧ gen = 62 then 0 else (gen + 1) % 64

/-- The record of a slot discarded and the generation raised. -/
def Yard.clearPiece (y : Yard) (slot : Nat) : Yard :=
  { y with pieces := upd y.pieces slot (fun ps => ⟨nextGen slot ps.gen, none⟩) }

/-- R4: a record retired. -/
def retire (s : Plant) (h : Handle) : Plant :=
  match s.yard.pieceAt h.slot with
  | some p =>
    ({ s with markMap := markRemove s.markMap p.mark }.updClass p.cls
      (fun c => { c with liveCount := c.liveCount - 1 })).updYard (fun y => y.clearPiece h.slot)
  | none => s

/-- R13: the class a number names, when it is in range and defined. -/
def definedClass (s : Plant) (c : Nat) : Bool := decide (c < 32) && (s.cls c).defined

/-! ## Looking up and reading (R7, R8, R15) -/

/-- LOOKUP MARK (R7). -/
def xLookupMark (m : MarkWord) (s : Plant) : Reply × Plant :=
  if !markAlone m then refuse .range s
  else
    match markSlot s.markMap m.number with
    | some slot => accept (handleBytes ⟨slot, (s.yard.pieceSlot slot).gen⟩) s
    | none => refuse .notFound s

/-- R1: releasable. -/
def releasable (s : Plant) (p : Piece) : Bool := decide ((s.cls p.cls).threshold ≤ p.maturity)

/-- R8: the third location byte of READ PIECE, where there is one: the bed position, the stack tier or the truck tier; a
LANE location gives the place, from 1 at the front; a HOOK has none. -/
def placeBytes (y : Yard) (h : Handle) : Location → List Byte
  | .lane l => byte1 ((y.lane l).pieces.idxOf h + 1)
  | loc => positionByte loc

/-- R8: the result of READ PIECE. The mark word's class bits are 0 and the class takes a byte of its own (log 28). -/
def pieceFields (s : Plant) (h : Handle) (p : Piece) : List Byte :=
  handleBytes h ++ markBytes p.mark ++ byte1 p.cls ++ locationBytes p.location ++ placeBytes s.yard h p.location
    ++ beBytes 4 p.maturity ++ boolByte (releasable s p) ++ beBytes 4 p.castMinute ++ byte1 (holdsNum p.holds)
    ++ optObjectBytes p.order ++ optHandleBytes p.ticket

/-- READ PIECE (R8). -/
def xReadPiece (h : Handle) (s : Plant) : Reply × Plant :=
  match s.yard.piece? h with
  | some p => accept (pieceFields s h p) s
  | none => refuse .stale s

/-- DEFINE CLASS (R14). -/
def xDefineClass (c choice length weight threshold tier : Nat) (s : Plant) : Reply × Plant :=
  if 32 ≤ c then refuse .range s
  else if !isFlag choice then refuse .range s
  else if choice = 1 ∧ ¬(10 ≤ length ∧ length ≤ 400 ∧ 1 ≤ weight ∧ weight ≤ 600 ∧ threshold ≤ maxU32 ∧ 1 ≤ tier ∧ tier ≤ 8)
    then refuse .range s
  else if 0 < (s.cls c).liveCount then refuse .inUse s
  else
    accept [] (s.updClass c (fun _ => if choice = 1 then ⟨true, length, weight, threshold, tier, 0⟩ else .undefined))

/-- READ CLASS (R15). -/
def xReadClass (c : Nat) (s : Plant) : Reply × Plant :=
  if 32 ≤ c then refuse .range s
  else
    let e := s.cls c
    accept (boolByte e.defined ++ beBytes 2 e.length ++ beBytes 2 e.weight ++ beBytes 4 e.threshold ++ byte1 e.tier
      ++ beBytes 2 e.liveCount) s

/-! ## Holds (R17, R18) -/

/-- R17, check 5: the piece is listed and its PICK is in SETTING. -/
def pickSetting (y : Yard) (p : Piece) : Bool :=
  p.order.isSome
    && (match p.ticket.bind y.ticket? with
        | some t => decide (t.kind = .pick) && decide (t.state = .setting)
        | none => false)

/-- The location is a truck. -/
def Location.isTruck : Location → Bool
  | .truck _ _ => true
  | _ => false

/-- HOLD (R17). -/
def xHold (h : Handle) (value : Nat) (s : Plant) : Reply × Plant :=
  if s.isClosed then refuse .closed s
  else
    match s.yard.piece? h with
    | none => refuse .stale s
    | some p =>
      if value ≠ 1 ∧ value ≠ 2 then refuse .range s
      else if p.location.isTruck then refuse .state s
      else if pickSetting s.yard p then refuse .inMove s
      else accept [] (s.settle (s.updYard (fun y => if value = 1 then addQc s.site y h else addDamage s.site y h)))

/-- R18: the holds left when the named one, or all, are removed; none for a value that names no hold. -/
def releasedHolds (value : Nat) (h : Holds) : Option Holds :=
  match value with
  | 1 => some { h with qc := false }
  | 2 => some { h with damage := false }
  | 4 => some { h with weight := false }
  | 8 => some { h with cure := false }
  | 15 => some .none
  | _ => none

/-- RELEASE HOLD (R18). -/
def xReleaseHold (h : Handle) (value : Nat) (s : Plant) : Reply × Plant :=
  if s.isClosed then refuse .closed s
  else
    match s.yard.piece? h with
    | none => refuse .stale s
    | some p =>
      match releasedHolds value p.holds with
      | none => refuse .range s
      | some hs => accept [] (s.updYard (fun y => y.updPiece h.slot (fun r => { r with holds := hs })))

/-! ## Scrapping (R19, R20) -/

/-- R19, checks 5 to 7: the holder gives the piece up to SCRAP PIECE. -/
def scrapAllowed (y : Yard) (h : Handle) : Location → Bool
  | .bed _ _ => false
  | .hook _ => true
  | .lane _ => true
  | .stack i _ => decide ((y.stack i).pieces.getLast? = some h) && decide ((y.stack i).claims = [])
  | .truck t _ => decide ((y.truck t).pieces.getLast? = some h)

/-- R20: the piece taken out of its holder. -/
def scrapFrom (e : Site) (y : Yard) (h : Handle) : Location → Yard
  | .bed _ _ => y
  | .hook k => y.updCrane k (fun c => { c with hook := none })
  | .lane l => setLanePieces e y l (fun ps => ps.erase h)
  | .stack i _ => popStack y i
  | .truck t _ => popTruck y t

/-- SCRAP PIECE (R19, R20). -/
def xScrapPiece (h : Handle) (s : Plant) : Reply × Plant :=
  if s.isClosed then refuse .closed s
  else
    match s.yard.piece? h with
    | none => refuse .stale s
    | some p =>
      if p.ticket.isSome then refuse .inMove s
      else if p.order.isSome then refuse .inUse s
      else if !scrapAllowed s.yard h p.location then refuse .state s
      else accept (handleBytes h) (s.settle (retire (s.updYard (fun y => scrapFrom s.site y h p.location)) h))

/-! ## FIND (R21 to R24) -/

/-- R21: every parameter of a FIND is in its range. For the maturity test NONE the value is not examined; any 32 bits
are in range. -/
def findOk (p : FindParams) : Bool :=
  decide (p.start ≤ 1023) && decide (1 ≤ p.mask) && decide (p.mask ≤ 31)
    && (decide (p.cls ≤ 31) || decide (p.cls = 0xFF)) && decide (p.holdTest ≤ 6) && decide (p.maturityTest ≤ 2)
    && decide (p.orderTest ≤ 2) && decide (1 ≤ p.maxResults) && decide (p.maxResults ≤ 8)

/-- R218: the bit of a location kind in the mask. -/
def Location.kindBit : Location → Nat
  | .bed _ _ => 0
  | .hook _ => 1
  | .lane _ => 2
  | .stack _ _ => 3
  | .truck _ _ => 4

/-- R22: the hold test. -/
def holdTestOk (test : Nat) (h : Holds) : Bool :=
  match test with
  | 0 => true
  | 1 => decide (h = .none)
  | 2 => decide (h ≠ .none)
  | 3 => h.qc
  | 4 => h.damage
  | 5 => h.weight
  | _ => h.cure

/-- R22: the maturity test. -/
def maturityTestOk (test v m : Nat) : Bool :=
  match test with
  | 0 => true
  | 1 => decide (v ≤ m)
  | _ => decide (m < v)

/-- R22: the order test. -/
def orderTestOk (test : Nat) (order : Option Nat) : Bool :=
  match test with
  | 0 => true
  | 1 => order.isSome
  | _ => order.isNone

/-- R22: a record matches. -/
def matchesFind (p : FindParams) (r : Piece) : Bool :=
  p.mask.testBit r.location.kindBit && (decide (p.cls = 0xFF) || decide (p.cls = r.cls)) && holdTestOk p.holdTest r.holds
    && maturityTestOk p.maturityTest p.maturity r.maturity && orderTestOk p.orderTest r.order

/-- R22, R23: the handles noted after a slot has been examined. -/
def Scan.noted (y : Yard) (sc : Scan) : List Handle :=
  match y.pieceAt sc.slot with
  | some r => if matchesFind sc.params r then sc.found ++ [⟨sc.slot, (y.pieceSlot sc.slot).gen⟩] else sc.found
  | none => sc.found

/-- R24, R218: the result fields of a FIND that has ended: the handles, their number, the next slot or END. -/
def findFields (found : List Handle) (slot : Nat) : List Byte :=
  handlesBytes found ++ byte1 found.length ++ beBytes 2 (if slot = 1023 then 0xFFFF else slot + 1)

/-- R24: the scan ends with the slot just examined. -/
def Scan.ends (sc : Scan) (found : List Handle) : Bool :=
  decide (sc.params.maxResults ≤ found.length) || decide (1023 ≤ sc.slot)

end Sys2Proof.Machine
end

