-- ==== Sys2Proof/Machine/Beds.lean ====
section
/-! DEFINITION. The Bed Unit (02): configuration, the bed cycle, casting, strand release, lifts from a bed, scrapping a
bed, turnover levels and READ BED. -/

namespace Sys2Proof.Machine

/-! ## The position table (R27) -/

/-- The piece at a position, or none. -/
def BedRecord.at (b : BedRecord) (i : Nat) : Option Handle := getOr b.table i none

/-- The positions of a bed that satisfy a test of the piece they hold, in increasing order. -/
def positionsWhere (s : Plant) (b : Nat) (ok : Handle → Piece → Bool) : List Nat :=
  (List.range 8).filter (fun i =>
    match (s.bed b).at i with
    | some h =>
      match s.yard.pieceAt h.slot with
      | some p => ok h p
      | none => false
    | none => false)

/-- The pieces of a bed, in increasing order of position. -/
def BedRecord.occupants (b : BedRecord) : List Handle := b.table.toList.filterMap id

/-- A position of the table written. -/
def setPosition (i : Nat) (h : Option Handle) (b : BedRecord) : BedRecord := { b with table := upd b.table i (fun _ => h) }

/-- The record of the piece at a position, or none. -/
def Plant.pieceOn (s : Plant) (b i : Nat) : Option Piece := ((s.bed b).at i).bind (fun h => s.yard.pieceAt h.slot)

/-- R76: the CURE hold added to every piece on a bed. No piece on a bed is listed, so no listing ends (R76). -/
def holdCure (s : Plant) (b : Nat) : Plant :=
  s.updYard (forEach (s.bed b).occupants
    (fun y h => y.updPiece h.slot (fun p => { p with holds := { p.holds with cure := true } })))

/-! ## Configuration (R28) -/

/-- CONFIGURE BED (R28). -/
def xConfigureBed (bed bay positions setpoint : Nat) (s : Plant) : Reply × Plant :=
  if 12 ≤ bed then refuse .range s
  else if 64 ≤ bay then refuse .range s
  else if positions = 0 ∨ 8 < positions then refuse .range s
  else if 190 < setpoint then refuse .range s
  else if (s.bed bed).state ≠ .vacant then refuse .state s
  else
    accept [] (s.updBed bed (fun b =>
      { b with configured := true, bay := bay, positions := positions, holdSetpoint := setpoint }))

/-! ## The bed cycle (R29 to R33) -/

/-- The bed state written. -/
def Plant.setBedState (s : Plant) (b : Nat) (st : BedState) : Plant := s.updBed b (fun r => { r with state := st })

/-- PREPARE BED (R29). -/
def xPrepareBed (bed : Nat) (s : Plant) : Reply × Plant :=
  if s.isClosed then refuse .closed s
  else if 12 ≤ bed then refuse .range s
  else if !(s.bed bed).configured then refuse .state s
  else if (s.bed bed).state ≠ .vacant then refuse .state s
  else accept [] (sendIfChanged (s.setBedState bed .set) bed)

/-- ABANDON BED (R30). -/
def xAbandonBed (bed : Nat) (s : Plant) : Reply × Plant :=
  if s.isClosed then refuse .closed s
  else if 12 ≤ bed then refuse .range s
  else if (s.bed bed).state ≠ .set then refuse .state s
  else accept [] (forceOff (s.setBedState bed .vacant) bed)

/-- R3, R32: a new record on a bed position. -/
def bedPiece (bed i : Nat) (m : MarkWord) (holds : Holds) (maturity minute : Nat) : Piece where
  mark := m.number
  cls := m.cls
  location := .bed bed i
  maturity := maturity
  castMinute := minute
  holds := holds
  order := none
  ticket := none

/-- R3, R32: a record allocated for a bed position, and the position table written. -/
def fillPosition (bed : Nat) (maturity minute : Nat) (s : Plant) (e : Nat × MarkWord × Holds) : Plant :=
  let r := allocate s (bedPiece bed e.1 e.2.1 e.2.2 maturity minute)
  r.2.updBed bed (setPosition e.1 r.1)

/-- R6: no mark of a list stands in the map or twice in the list. -/
def freshMarks (s : Plant) (marks : List Nat) : Bool :=
  marks.all (fun m => (markSlot s.markMap m).isNone) && decide marks.Nodup

/-- The handles at the used positions of a bed, in position order (R32). -/
def bedHandles (s : Plant) (bed : Nat) : List Byte :=
  (List.range (s.bed bed).positions).flatMap (fun i => optHandleBytes ((s.bed bed).at i))

/-- CAST (R31, R32). -/
def xCast (bed : Nat) (entries : List MarkWord) (s : Plant) : Reply × Plant :=
  if s.isClosed then refuse .closed s
  else if 12 ≤ bed then refuse .range s
  else if (s.bed bed).state ≠ .set then refuse .state s
  else if entries.length ≠ (s.bed bed).positions then refuse .range s
  else if !entries.all markWithClass then refuse .range s
  else if !entries.all (fun m => definedClass s m.cls) then refuse .range s
  else if s.yard.freePieceCount < (s.bed bed).positions then refuse .noSlot s
  else if !freshMarks s (entries.map (fun m => m.number)) then refuse .duplicate s
  else
    let s1 := forEach (entries.zipIdx.map (fun e => (e.2, e.1, Holds.none))) (fillPosition bed 0 s.works.clock)
      (s.updBed bed (fun b => { b with maturity := 0 }))
    let s2 := sendIfChanged (s1.setBedState bed .cast) bed
    accept (bedHandles s2 bed) s2

/-- START CURE (R33, R60). -/
def xStartCure (bed : Nat) (s : Plant) : Reply × Plant :=
  if s.isClosed then refuse .closed s
  else if 12 ≤ bed then refuse .range s
  else if (s.bed bed).state ≠ .cast then refuse .state s
  else if (s.heat bed).run = [] ∧ (s.heat bed).next = [] then refuse .state s
  else accept [] (sendIfChanged ((s.setBedState bed .curing).updHeat bed HeatRecord.startCure) bed)

/-! ## Releasing the strand (R34, R35) -/

/-- R34, check 7: the fields of an IMMATURE refusal. -/
def immatureFields (s : Plant) (bed i : Nat) : List Byte :=
  match s.pieceOn bed i with
  | some p => byte1 i ++ beBytes 4 p.maturity ++ beBytes 4 (s.cls p.cls).threshold
  | none => byte1 i

/-- RELEASE STRAND (R34, R35). -/
def xReleaseStrand (bed : Nat) (s : Plant) : Reply × Plant :=
  if s.isClosed then refuse .closed s
  else if 12 ≤ bed then refuse .range s
  else if (s.bed bed).state ≠ .curing then refuse .state s
  else if (s.heat bed).running ≠ .off then refuse .state s
  else if (s.heat bed).transition ≠ .none then refuse .busy s
  else
    match (positionsWhere s bed (fun _ p => p.holds.cure)).head? with
    | some i => refuseWith .held (byte1 i) s
    | none =>
      match (positionsWhere s bed (fun _ p => !releasable s p)).head? with
      | some i => refuseWith .immature (immatureFields s bed i) s
      | none =>
        accept [] (s.settle (sendIfChanged
          ((s.setBedState bed .released).updHeat bed (fun h => { h with requested := .off }.endRunning)) bed))

/-! ## Lifts from a bed (R36, R37) -/

/-- R36, R37: a position emptied by a lift; the state follows the pieces left. -/
def BedRecord.lifted (i : Nat) (b : BedRecord) : BedRecord :=
  let b1 := setPosition i none b
  { b1 with state := if b1.occupants = [] then .vacant else .stripping }

/-- R36, R37: a lift from a bed. -/
def liftFromBed (s : Plant) (b i : Nat) : Plant := sendIfChanged (s.updBed b (BedRecord.lifted i)) b

/-! ## Scrapping a bed (R39, R40) -/

/-- R39, check 4: the fields of an IN-MOVE refusal. -/
def inMoveFields (s : Plant) (bed i : Nat) : List Byte := byte1 i ++ optHandleBytes ((s.pieceOn bed i).bind (fun p => p.ticket))

/-- R40: the record at a position retired and the position emptied. -/
def scrapPosition (bed : Nat) (s : Plant) (i : Nat) : Plant :=
  match (s.bed bed).at i with
  | some h => retire (s.updBed bed (setPosition i none)) h
  | none => s

/-- SCRAP BED (R39, R40). -/
def xScrapBed (bed : Nat) (s : Plant) : Reply × Plant :=
  if s.isClosed then refuse .closed s
  else if 12 ≤ bed then refuse .range s
  else if (s.bed bed).state ≠ .cast ∧ (s.bed bed).state ≠ .curing then refuse .state s
  else
    match (positionsWhere s bed (fun _ p => p.ticket.isSome)).head? with
    | some i => refuseWith .inMove (inMoveFields s bed i) s
    | none =>
      let s1 := forEach (List.range (s.bed bed).positions) (scrapPosition bed) s
      accept (byte1 (s.bed bed).occupants.length)
        (forceOff ((s1.setBedState bed .vacant).updHeat bed HeatRecord.endRunning) bed)

/-! ## Turnover level and reading (R43, R44) -/

/-- BED PRIORITY (R43). -/
def xBedPriority (bed level : Nat) (s : Plant) : Reply × Plant :=
  if s.isClosed then refuse .closed s
  else if 12 ≤ bed then refuse .range s
  else if 4 ≤ level then refuse .range s
  else accept [] (s.settle (s.updBed bed (fun b => { b with turnover := level })))

/-- READ BED (R44). -/
def xReadBed (bed : Nat) (s : Plant) : Reply × Plant :=
  if 12 ≤ bed then refuse .range s
  else
    let b := s.bed bed
    accept (boolByte b.configured ++ byte1 b.bay ++ byte1 b.positions ++ byte1 b.holdSetpoint ++ byte1 b.state.num
      ++ b.table.toList.flatMap optHandleBytes ++ beBytes 4 b.maturity ++ byte1 b.turnover ++ byte1 (bedFlagsNum b.flags)) s

end Sys2Proof.Machine
end

