-- ==== Sys2Proof/Machine/Intake.lean ====
section
/-! DEFINITION. Sample Intake (04): taking a SAMPLE message, maturity credit, over-temperature, unit status, gaps and
losses, bed line frames, and READ INTAKE. -/

namespace Sys2Proof.Machine

/-! ## Credit (R71, R72) -/

/-- R71: the credit of a sample. -/
def credit (t : Int) (period : Nat) : Nat := (t + 20).toNat * period

/-- R71: the bed states in which a sample is credited. -/
def BedState.credited : BedState → Bool
  | .cast | .curing | .released | .stripping => true
  | .vacant | .set => false

/-- R71: the bed maturity after a credit, which saturates. -/
def creditedMaturity (maturity amount : Nat) : Nat := min maxU32 (maturity + amount)

/-- R10: a piece offered the bed maturity. -/
def offer (maturity : Nat) (p : Piece) : Piece := { p with maturity := max p.maturity maturity }

/-- R71, R72: the credit of a sample made to a bed and the pieces on it. -/
def creditBed (s : Plant) (b : Nat) (t : Int) : Plant :=
  if (s.bed b).state.credited then
    let m := creditedMaturity (s.bed b).maturity (credit t s.works.settings.period)
    (s.updBed b (fun r => { r with maturity := m })).updYard
      (forEach (s.bed b).occupants (fun y h => y.updPiece h.slot (offer m)))
  else s

/-! ## Over-temperature and unit status (R75, R77) -/

/-- R75: the over-temperature test of a sample; the OFF order goes with the sample's repeat (R56, R70). -/
def overTemperature (s : Plant) (b : Nat) (t : Int) : Plant :=
  if (s.works.settings.maxTemp : Int) < t then holdCure (heatOff (s.latchBed b BedFlags.latchOverTemp) b) b else s

/-- R77: the unit status of a sample, 1 FAULT and 0 OK. -/
def unitStatus (s : Plant) (b status : Nat) : Plant :=
  if status = 1 then
    heatOff ((s.updIntake b (fun r => { r with unitFault := true })).latchBed b BedFlags.latchUnitFault) b
  else s.updIntake b (fun r => { r with unitFault := false })

/-! ## Taking a sample (R68 to R70) -/

/-- R68, cases 1, 4 and 5, and R69: a SAMPLE message with a good frame is accepted. -/
def sampleAccepted (s : Plant) (b seq : Nat) (t : Int) (status : Nat) : Bool :=
  !s.isClosed && decide (-80 ≤ t) && decide (t ≤ 190) && decide (status ≤ 1)
    && decide ((s.intakeOf b).lastSeq ≠ some seq)

/-- R70: the intake record after an accepted sample. -/
def IntakeRecord.sampled (seq : Nat) (t : Int) (minute : Nat) (r : IntakeRecord) : IntakeRecord :=
  { r with state := .ok, lastSeq := some seq, gapCount := 0, lastTemp := some t, lastMinute := some minute }

/-- R70: the effects of an accepted sample, in the order listed, and the repeat of the heat order. -/
def sampleEffects (s : Plant) (b seq : Nat) (t : Int) (status : Nat) : Plant :=
  let s1 := s.updIntake b (IntakeRecord.sampled seq t s.works.clock)
  sendOrder (unitStatus (overTemperature (creditBed s1 b t) b t) b status) b

/-- R68 to R70: a SAMPLE message taken or dropped. -/
def takeSample (s : Plant) (b seq : Nat) (t : Int) (status : Nat) : Plant :=
  if sampleAccepted s b seq t status then sampleEffects s b seq t status else s

/-! ## Bed line frames (R68, R219) -/

/-- The signed value of 16 bits. -/
def signed16 (n : Nat) : Int := if n < 32768 then (n : Int) else (n : Int) - 65536

/-- R219: the kind of a yard link frame and the bytes between the kind and the check, when the check is good; none for
bytes that make no such frame. Bytes before the sync byte are discarded (log 13 for the shortest frame). -/
def parseLink (bytes : List Byte) : Option (Nat × List Byte) :=
  match bytes.dropWhile (· ≠ 0x7E#8) with
  | _ :: kind :: c :: rest =>
    if byteSum (kind :: c :: rest) = 0 then some (kind.toNat, (c :: rest).dropLast) else none
  | _ => none

/-- R68: what a bed line does with the bytes received while a frame is open: a good SAMPLE is taken, all else dropped. -/
def takeBedBytes (s : Plant) (b : Nat) (bytes : List Byte) : Plant :=
  match parseLink bytes with
  | some (0x22, [seq, hi, lo, status]) => takeSample s b seq.toNat (signed16 (ofBytes [hi, lo])) status.toNat
  | _ => s

/-! ## Gaps and losses (R78 to R80) -/

/-- R79: a GAP expiry. -/
def gapExpiry (s : Plant) (b : Nat) : Plant :=
  let s1 := s.updIntake b (fun r => { r with state := .gap })
  if (s.bed b).state = .vacant then s1 else s1.latchBed b BedFlags.latchGap

/-- R80: a LOST expiry. `wasOk` says that the sample state was OK when it was raised. -/
def lostExpiry (s : Plant) (b : Nat) (wasOk : Bool) : Plant :=
  let s1 := s.updIntake b (fun r => { r with state := .lost })
  if (s.bed b).state = .vacant then s1
  else
    let s2 := s1.latchBed b (fun f => if wasOk then f.latchGap.latchLost else f.latchLost)
    holdCure (forceOff s2 b) b

/-- R78: the timer event of a bed's intake record. The event of this minute is then taken (log 4). -/
def intakeTick (s : Plant) (b : Nat) : Plant :=
  let r := s.intakeOf b
  if r.state = .lost then s.updIntake b (fun r => { r with due := false })
  else
    let n := r.gapCount + 1
    let s1 := s.updIntake b (fun r => { r with gapCount := n, due := false })
    if 6 * s.works.settings.period ≤ n then lostExpiry s1 b (decide (r.state = .ok))
    else if 2 * s.works.settings.period ≤ n ∧ r.state = .ok then gapExpiry s1 b
    else s1

/-- The next timer event would raise a GAP expiry (log 5). -/
def gapDue (s : Plant) (b : Nat) : Bool :=
  !s.isClosed && decide ((s.intakeOf b).state = .ok)
    && decide (2 * s.works.settings.period ≤ (s.intakeOf b).gapCount + 1)
    && decide ((s.intakeOf b).gapCount + 1 < 6 * s.works.settings.period)

/-- The next timer event would raise a LOST expiry (log 5). -/
def lostDue (s : Plant) (b : Nat) : Bool :=
  !s.isClosed && decide ((s.intakeOf b).state ≠ .lost)
    && decide (6 * s.works.settings.period ≤ (s.intakeOf b).gapCount + 1)

/-! ## READ INTAKE (R83) -/

/-- R83: the last sequence, 1 byte (log 36); its code where there is none is free (log 3). -/
def optSequence : Option Nat → List Byte
  | some n => byte1 n
  | none => [Config.absentSequence]

/-- R218: a yard temperature, two bytes signed; the code of none is free (log 3). -/
def optTemperature : Option Int → List Byte
  | some t => beBytes 2 (t % 65536).toNat
  | none => beBytes 2 Config.absentTemperature.toNat

/-- R218: a works clock minute; the code of none is free (log 3). -/
def optMinute : Option Nat → List Byte
  | some n => beBytes 4 n
  | none => beBytes 4 Config.absentMinute.toNat

/-- READ INTAKE (R83). -/
def xReadIntake (bed : Nat) (s : Plant) : Reply × Plant :=
  if 12 ≤ bed then refuse .range s
  else
    let r := s.intakeOf bed
    accept (byte1 r.state.num ++ byte1 r.gapCount ++ optSequence r.lastSeq ++ optTemperature r.lastTemp
      ++ optMinute r.lastMinute ++ boolByte r.unitFault) s

end Sys2Proof.Machine
end

