-- ==== Sys2Proof/Machine/Cranes.lean ====
section
/-! DEFINITION. The Crane Link Controller (08): crane reports and their effects on tickets, pieces, holders and claims,
faults and timeouts, homing, plant stop at the cranes, and the commands CONFIGURE CRANE, HOME CRANE, CLEAR CRANE and
READ CRANE. -/

namespace Sys2Proof.Machine

/-! ## The current ticket and the timer -/

/-- The slot and the record of the ticket a crane serves. -/
def currentTicket (y : Yard) (k : Nat) : Option (Nat × Ticket) :=
  match (y.crane k).current with
  | some h =>
    match y.ticket? h with
    | some t => some (h.slot, t)
    | none => none
  | none => none

/-- R159, R162: the stage order answered and not followed by another: it becomes absent, and the report timer restarts
when a stop order is still awaited and stops when nothing is. -/
def clearStage (e : Site) (y : Yard) (k : Nat) : Yard :=
  y.updCrane k (fun c =>
    if c.stopOrder.isSome then { c with stage := none }.restart e.settings.stageTimeout
    else { c with stage := none, timer := none })

/-- R160, R162, R169: the crane without a ticket: IDLE, its timer stopped and no order awaited (R156), unless it is
STOPPED, where it stays so and a stop order still awaited goes on being timed (log 20). -/
def freeCrane (e : Site) (y : Yard) (k : Nat) : Yard :=
  (clearStage e y k).updCrane k (fun c =>
    if c.state = .stopped then { c with current := none }
    else { c with state := .idle, current := none, stopOrder := none, timer := none })

/-! ## ARRIVED (R128, R131, R148, R150 to R152) -/

/-- R148, R150: the arrival that finishes a YIELD or PARK ticket. -/
def arriveBound (e : Site) (y : Yard) (k slot bay : Nat) : Yard :=
  let h := y.ticketHandle slot
  freeCrane e (unbind ((finishTicket e y slot .done .done).setClaim k (some (.single bay))) h) k

/-- R128, R151: the arrival at the source. -/
def arriveSource (e : Site) (y : Yard) (k slot : Nat) (t : Ticket) : Yard :=
  let weight := (t.piece.map (fun p => (classOf e y p).weight)).getD 0
  let y1 := y.updTicket slot (fun u => { u with state := .lifting })
  sendStage e (y1.setClaim k (travelInterval e y t)) k .lift weight

/-- R131, R152: the arrival at the destination, or at a bay where the ticket waits under REDIRECT. -/
def arriveLaden (e : Site) (y : Yard) (k slot bay : Nat) (t : Ticket) : Yard :=
  match t.dest with
  | some d =>
    let y1 := y.updTicket slot (fun u => { u with state := .setting })
    sendStage e (y1.setClaim k (some (.single (destBay y d)))) k .lower 0
  | none => clearStage e (y.setClaim k (some (.single bay))) k

/-- The effect of a fitting ARRIVED (R159). -/
def arrivedEffect (e : Site) (y : Yard) (k slot bay : Nat) (t : Ticket) : Yard :=
  let y1 := y.updCrane k (fun c => { c with lastBay := bay })
  if t.state = .lifted then arriveLaden e y1 k slot bay t
  else if t.kind = .yield ∨ t.kind = .park then arriveBound e y1 k slot bay
  else arriveSource e y1 k slot t

/-- R159: a matched ARRIVED fits. -/
def arrivedFits (y : Yard) (k : Nat) (o : StageOrder) (t : Ticket) : Bool :=
  decide (o.kind = .travel) && (decide (t.state = .granted) || decide (t.state = .lifted)) && !(y.crane k).halted

/-! ## LIFTED (R129, R130) -/

/-- R129: the tolerance of a class weight. -/
def tolerance (w : Nat) : Nat := max 1 (w / 10)

/-- R129: the weight check. -/
def weightPasses (w measured : Nat) : Bool := decide (distance measured w ≤ tolerance w)

/-- R129: the piece taken on the hook. -/
def takeOnHook (y : Yard) (k slot : Nat) (p : Handle) : Yard :=
  ((y.updTicket slot (fun u => { u with state := .lifted })).updPiece p.slot
    (fun r => { r with location := .hook k })).updCrane k (fun c => { c with hook := some p })

/-- R129, step 3: a holder other than a bed gives the piece up. -/
def giveUp (e : Site) (y : Yard) (h : Handle) : Location → Yard
  | .stack s _ => completeClaim (popStack y s) s ⟨.lift, h⟩
  | .lane l => setLanePieces e y l List.tail
  | .truck t _ => popTruck y t
  | .bed _ _ => y
  | .hook _ => y

/-- R129, R153, R184, R185: where the crane goes after a good lift: to the destination, or, for a PICK with the
hold-pending mark, where the laden search sends it; without a find the claim shrinks to the source bay. The lift may free what older tickets
wait for, so its search takes its turn among theirs, in move queue order (R111). -/
def sendLaden (e : Site) (y : Yard) (k slot : Nat) (t : Ticket) (src : Location) : Yard :=
  if t.holdPending then
    let y1 := redirectAll e (loseDest y slot)
    match (y1.ticketAt slot).bind (fun u => u.dest) with
    | some _ => y1
    | none => clearStage e (y1.setClaim k (some (.single (sourceBay e y src)))) k
  else
    match t.dest with
    | some d => sendStage e y k .travel (destBay y d)
    | none => clearStage e y k

/-- R129: a lift with the weight check passed, but for the bed position. -/
def liftPassed (e : Site) (y : Yard) (k slot : Nat) (t : Ticket) (p : Handle) (src : Location) : Yard :=
  sendLaden e (giveUp e (takeOnHook y k slot p) (y.ticketHandle slot) src) k slot t src

/-- R130, R151: a lift with the weight check failed. -/
def liftFailed (e : Site) (y : Yard) (k slot : Nat) (p : Handle) (src : Location) : Yard :=
  let y1 := y.updTicket slot (fun u => { u with weightFailed := true })
  addWeight e (sendStage e (y1.setClaim k (some (.single (sourceBay e y src)))) k .lower 0) p

/-- The bed position of a source. -/
def Location.bedPosition : Location → Option (Nat × Nat)
  | .bed b i => some (b, i)
  | _ => none

/-- R36, R37: the bed position that a good lift empties. -/
def emptyBed (s : Plant) (src : Location) : Plant :=
  match src.bedPosition with
  | some (b, i) => liftFromBed s b i
  | none => s

/-- The effect of a fitting LIFTED (R129, R130). -/
def liftedEffect (s : Plant) (k slot weight : Nat) (t : Ticket) (p : Handle) (src : Location) : Plant :=
  if weightPasses (classOf s.site s.yard p).weight weight then
    (emptyBed s src).updYard (fun y => liftPassed s.site y k slot t p src)
  else s.updYard (fun y => liftFailed s.site y k slot p src)

/-- R159: a matched LIFTED fits. -/
def liftedFits (y : Yard) (k : Nat) (o : StageOrder) (t : Ticket) : Bool :=
  decide (o.kind = .lift) && decide (t.state = .lifting) && !t.weightFailed && !(y.crane k).halted

/-! ## LOWERED (R130, R131) -/

/-- R131: a piece set down on its destination, with the completed claim or reservation, and its location written. For
a truck the order's next index rises, the current pick is absent and completion is tested (R181, R182). -/
def setDown (e : Site) (y : Yard) (h p : Handle) (t : Ticket) : Dest → Yard
  | .stack s =>
    let y1 := completeClaim (pushStack y s p) s ⟨.place, h⟩
    y1.updPiece p.slot (fun r => { r with location := .stack s (y1.stack s).pieces.length })
  | .lane l =>
    (unreserve (setLanePieces e y l (fun ps => ps ++ [p])) l).updPiece p.slot (fun r => { r with location := .lane l })
  | .truck k =>
    let y1 := y.updTruck k (fun r => { r with pieces := r.pieces ++ [p] })
    let y2 := y1.updPiece p.slot (fun r => { r with location := .truck k (y1.truck k).pieces.length })
    if t.kind = .pick then
      completionTest (y2.updTruck k (fun r => { r with nextIndex := r.nextIndex + 1, currentPick := none })) k
    else y2
  | .bay _ => y

/-- R131, R152: a set-down. -/
def lowerPiece (e : Site) (y : Yard) (k slot : Nat) (t : Ticket) (p : Handle) (d : Dest) : Yard :=
  let y1 := setDown e y (y.ticketHandle slot) p t d
  let y2 := (y1.updCrane k (fun c => { c with hook := none })).setClaim k (some (.single (destBay y d)))
  freeCrane e (finishTicket e y2 slot .done .done) k

/-- The effect of a fitting LOWERED (R130, R131). -/
def loweredEffect (e : Site) (y : Yard) (k slot : Nat) (t : Ticket) : Yard :=
  if t.state = .setting then
    match t.piece, t.dest with
    | some p, some d => lowerPiece e y k slot t p d
    | _, _ => y
  else freeCrane e (finishTicket e y slot .failed .weight) k

/-- R159: a matched LOWERED fits. -/
def loweredFits (y : Yard) (k : Nat) (o : StageOrder) (t : Ticket) : Bool :=
  decide (o.kind = .lower) && (decide (t.state = .setting) || (decide (t.state = .lifting) && t.weightFailed))
    && !(y.crane k).halted

/-! ## STOPPED (R161, R169, R170) -/

/-- R159: a matched STOPPED fits. -/
def stoppedFits (y : Yard) (k bay : Nat) : Bool :=
  match y.claim k with
  | some c => c.holds bay
  | none => true

/-- The effect of a fitting STOPPED: the end of a stop after a cancel (R161), during the plant stop (R169) or after its
release (R170). -/
def stoppedEffect (e : Site) (y : Yard) (k bay : Nat) : Yard :=
  let c := y.crane k
  let y1 := y.updCrane k (fun c => { c with lastBay := bay, stopOrder := none, timer := none })
  match c.state, c.current with
  | .busy, none => (y1.updCrane k (fun c => { c with state := .idle })).setClaim k (some (.single bay))
  | .busy, some _ =>
    y1.updCrane k (fun c => if c.stage.isSome then c.restart e.settings.stageTimeout else c)
  | .stopped, none =>
    (y1.updCrane k (fun c => if e.stop then { c with halted := true } else { c with state := .idle, halted := false })).setClaim k
      (some (.single bay))
  | .stopped, some _ => y1.updCrane k (fun c => { c with halted := true })
  | _, _ => y1

/-! ## HOMED (R167) -/

/-- R167: a homing failure: FAULTED with the code, the claim empty, FAULT latched, no order awaited. -/
def homingFailure (y : Yard) (k : Nat) (code : FaultCode) : Yard :=
  (y.updCrane k (fun c =>
    { c with state := .faulted, faultCode := code, stage := none, stopOrder := none, timer := none }.latchFault)).setClaim
    k none

/-- R167: the outcome of a fitting HOMED. The neighbours' claims alone are examined, so with K1's claim empty K0 and K2 are
not tested against each other (log 26). -/
def homedEffect (y : Yard) (k bay : Nat) : Yard :=
  let y1 := y.updCrane k (fun c => { c with lastBay := bay })
  if bay ≠ (y.crane k).homeBay ∨ !reaches y k (.single bay) then homingFailure y1 k .homeConflict
  else
    (y1.updCrane k (fun c => { c with state := .idle, stage := none, timer := none })).setClaim k (some (.single bay))

/-- R159: a matched HOMED fits. -/
def homedFits (y : Yard) (k : Nat) (o : StageOrder) : Bool :=
  decide (o.kind = .home) && decide ((y.crane k).state = .homing)

/-! ## Faults and timeouts (R162 to R164) -/

/-- R163: the current ticket of a crane that faults. -/
def faultTicket (e : Site) (y : Yard) (k : Nat) : Yard :=
  match currentTicket y k with
  | some (slot, t) =>
    match t.state with
    | .granted => returnTicket e y slot
    | .lifting | .lifted | .setting => finishTicket e y slot .failed .craneFault
    | .pending | .ready | .done | .failed | .cancelled => y
  | none => y

/-- R163, R164: the crane record after a fault. -/
def CraneRecord.faulted (code : FaultCode) (c : CraneRecord) : CraneRecord :=
  { c with
    state := .faulted
    faultCode := code
    current := none
    stage := none
    stopOrder := none
    halted := false
    timer := none }.latchFault

/-- R163: a stage timeout while BUSY or STOPPED; R162: the expiry of a STOP awaited in UNHOMED, as a FAULT taken there
(R164), with no bay and no controller code. -/
def stageTimeout (e : Site) (y : Yard) (k : Nat) : Yard :=
  (faultTicket e y k).updCrane k (CraneRecord.faulted .timeout)

/-- R163, R164: a FAULT report taken, whatever the state of the crane. The claim is kept as it stands. -/
def faultReport (e : Site) (y : Yard) (k code bay : Nat) : Yard :=
  (faultTicket e y k).updCrane k (fun c => { c.faulted .reported with controller := code, lastBay := bay })

/-- R162: the expiry of a crane's report timer. -/
def timerExpiry (e : Site) (y : Yard) (k : Nat) : Yard :=
  let c := y.crane k
  if c.stopOrder = none ∧ c.state = .homing then homingFailure y k .homeTimeout else stageTimeout e y k

/-- R162, R192: an advance gives a crane's report timer, while it runs, the timer event of the new minute. -/
def minuteDue (y : Yard) (k : Nat) : Yard :=
  y.updCrane k (fun c => { c with timer := c.timer.map (fun t => { t with due := true }) })

/-- R162: the timer event of a report timer that does not expire by it: the minutes remaining fall by one. -/
def countMinute (y : Yard) (k : Nat) : Yard :=
  y.updCrane k (fun c => { c with timer := c.timer.map (fun t => ⟨t.minutes - 1, false⟩) })

/-- R162: the timer event of the report timer is still to be taken in this minute (log 4). -/
def timerWaits (y : Yard) (k : Nat) : Bool :=
  match (y.crane k).timer with
  | some t => t.due
  | none => false

/-- The next timer event of the report timer would bring it to 0 and expire it (R162; log 5). -/
def timerDue (s : Plant) (k : Nat) : Bool :=
  !s.isClosed && (match (s.yard.crane k).timer with
    | some t => decide (t.minutes ≤ 1)
    | none => false)

/-- The report timer times a HOME (R162). -/
def timesHome (y : Yard) (k : Nat) : Bool :=
  decide ((y.crane k).stopOrder = none) && decide ((y.crane k).state = .homing)

/-! ## Reports (R158, R159) -/

/-- R158: a report that matches its order and does not fit latches PROTOCOL. -/
def notFitting (s : Plant) (k : Nat) : Plant := s.updYard (fun y => latchProtocol y k)

/-- R158, case 7: the stage order that a report's sequence number matches. -/
def matchStage (y : Yard) (k seq : Nat) : Option StageOrder :=
  match (y.crane k).stage with
  | some o => if o.seq = seq then some o else none
  | none => none

/-- ARRIVED (R158, R159). -/
def takeArrived (s : Plant) (k seq : Nat) : Plant :=
  if s.isClosed then s
  else
    match matchStage s.yard k seq with
    | none => s
    | some o =>
      match currentTicket s.yard k with
      | some (slot, t) =>
        if arrivedFits s.yard k o t then s.settle (s.updYard (fun y => arrivedEffect s.site y k slot o.arg t))
        else notFitting s k
      | none => notFitting s k

/-- LIFTED (R158, R159). -/
def takeLifted (s : Plant) (k seq weight : Nat) : Plant :=
  if s.isClosed then s
  else
    match matchStage s.yard k seq with
    | none => s
    | some o =>
      match currentTicket s.yard k with
      | some (slot, t) =>
        if liftedFits s.yard k o t then
          match t.piece, t.source with
          | some p, some src => s.settle (liftedEffect s k slot weight t p src)
          | _, _ => notFitting s k
        else notFitting s k
      | none => notFitting s k

/-- LOWERED (R158, R159). -/
def takeLowered (s : Plant) (k seq : Nat) : Plant :=
  if s.isClosed then s
  else
    match matchStage s.yard k seq with
    | none => s
    | some o =>
      match currentTicket s.yard k with
      | some (slot, t) =>
        if loweredFits s.yard k o t then s.settle (s.updYard (fun y => loweredEffect s.site y k slot t))
        else notFitting s k
      | none => notFitting s k

/-- STOPPED (R158, R159). -/
def takeStopped (s : Plant) (k seq bay : Nat) : Plant :=
  if s.isClosed then s
  else if 64 ≤ bay then notFitting s k
  else if (s.yard.crane k).stopOrder ≠ some seq then s
  else if stoppedFits s.yard k bay then (s.updYard (fun y => stoppedEffect s.site y k bay)).settleClaim
  else notFitting s k

/-- HOMED (R158, R159). -/
def takeHomed (s : Plant) (k seq bay : Nat) : Plant :=
  if s.isClosed then s
  else if 64 ≤ bay then notFitting s k
  else
    match matchStage s.yard k seq with
    | none => s
    | some o =>
      if homedFits s.yard k o then (s.updYard (fun y => homedEffect y k bay)).settleClaim else notFitting s k

/-- FAULT, taken whatever its sequence number (R158, R163, R164). -/
def takeFault (s : Plant) (k code bay : Nat) : Plant :=
  if s.isClosed then s
  else if 64 ≤ bay then notFitting s k
  else s.settleFault (s.updYard (fun y => faultReport s.site y k code bay)) k

/-- R219: the kinds of the yard link with the number of bytes between the kind and the check. -/
def linkPayload : Nat → Option Nat
  | 0x21 => some 3
  | 0x22 => some 4
  | 0x41 => some 2
  | 0x42 => some 3
  | 0x43 | 0x44 | 0x45 | 0x46 => some 1
  | 0x61 => some 1
  | 0x62 => some 3
  | 0x63 => some 1
  | 0x64 | 0x65 => some 2
  | 0x66 => some 3
  | _ => none

/-- R158, R219: what a crane link does with the bytes received while a frame is open. -/
def takeCraneBytes (s : Plant) (k : Nat) (bytes : List Byte) : Plant :=
  if s.isClosed then s
  else
    match parseLink bytes with
    | none => s
    | some (0x61, [seq]) => takeArrived s k seq.toNat
    | some (0x62, [seq, hi, lo]) => takeLifted s k seq.toNat (ofBytes [hi, lo])
    | some (0x63, [seq]) => takeLowered s k seq.toNat
    | some (0x64, [seq, bay]) => takeStopped s k seq.toNat bay.toNat
    | some (0x65, [seq, bay]) => takeHomed s k seq.toNat bay.toNat
    | some (0x66, [_, code, bay]) => takeFault s k code.toNat bay.toNat
    | some (kind, rest) =>
      match linkPayload kind with
      | some n => if n = rest.length then notFitting s k else s
      | none => notFitting s k

/-! ## Plant stop (R169, R170) -/

/-- R169: STOP sent, unless the crane's STOP still awaits its report (R199, R202). -/
def stopUnlessAwaited (e : Site) (y : Yard) (k : Nat) : Yard :=
  if (y.crane k).stopOrder.isSome then y else sendStop e y k

/-- R169: the assertion at one crane. -/
def craneStop (e : Site) (y : Yard) (k : Nat) : Yard :=
  let c := y.crane k
  match c.state with
  | .homing => sendStop e (y.updCrane k (fun c => { c with state := .unhomed, stage := none })) k
  | .busy =>
    let y1 := (stopUnlessAwaited e y k).updCrane k (fun c => { c with state := .stopped })
    match currentTicket y k with
    | some (slot, t) =>
      if t.state = .granted then
        returnTicket e (y1.updCrane k (fun c => { c with current := none, stage := none })) slot
      else y1
    | none => y1
  | .idle | .unhomed | .faulted | .stopped => y

/-- R169: the assertion at the three cranes. -/
def cranesStop (e : Site) (y : Yard) : Yard := forEach [0, 1, 2] (craneStop e) y

/-- R170: the crane record of a STOPPED crane at the release. -/
def CraneRecord.resume (timeout : Nat) (c : CraneRecord) : CraneRecord :=
  if c.current.isSome then
    let c1 := { c with state := .busy, halted := false }
    if c.stopOrder.isNone ∧ c.stage.isSome then c1.restart timeout else c1
  else if c.stopOrder.isNone then { c with state := .idle, halted := false }
  else c

/-- R170: the release at one crane. -/
def craneResume (e : Site) (y : Yard) (k : Nat) : Yard :=
  if (y.crane k).state = .stopped then (sendResume y k).updCrane k (CraneRecord.resume e.settings.stageTimeout) else y

/-- R170: the release at the three cranes. -/
def cranesResume (e : Site) (y : Yard) : Yard := forEach [0, 1, 2] (craneResume e) y

/-! ## The crane link (R157) -/

/-- R157: the frame being written is done: the next one that waits is written, or the link is free. -/
def CraneLine.release (l : CraneLine) : CraneLine :=
  match l.queue with
  | f :: fs => ⟨some f, fs⟩
  | [] => ⟨none, []⟩

/-! ## Commands (R166 to R168, R171) -/

/-- CONFIGURE CRANE (R168). -/
def xConfigureCrane (crane bay : Nat) (s : Plant) : Reply × Plant :=
  let home (k : Nat) : Nat := if k = crane then bay else (s.yard.crane k).homeBay
  if 3 ≤ crane then refuse .range s
  else if 64 ≤ bay then refuse .range s
  else if ¬(home 0 < home 1 ∧ home 1 < home 2) then refuse .range s
  else if (s.yard.crane crane).state = .homing then refuse .state s
  else accept [] (s.updYard (fun y => y.updCrane crane (fun c => { c with homeBay := bay })))

/-- R167: an accepted HOME CRANE. The fault code becomes none; the controller code stays as it is, here as at a homing failure
and at a stage timeout, since R163 to R167 write it at a FAULT report and at CLEAR CRANE alone (log 31). -/
def startHoming (e : Site) (y : Yard) (k : Nat) : Yard :=
  sendStage e
    ((y.updCrane k (fun c => { c with state := .homing, faultCode := .none, stopOrder := none })).setClaim k none)
    k .home 0

/-- HOME CRANE (R167). The sequence number in its result is 1 byte (log 36). -/
def xHomeCrane (crane : Nat) (s : Plant) : Reply × Plant :=
  if s.isClosed then refuse .closed s
  else if 3 ≤ crane then refuse .range s
  else if s.works.stop then refuse .stopped s
  else if (s.yard.crane crane).state ≠ .unhomed ∧ (s.yard.crane crane).state ≠ .faulted then refuse .state s
  else
    accept (byte1 (s.yard.crane crane).nextSeq) (s.settle (s.updYard (fun y => startHoming s.site y crane)))

/-- CLEAR CRANE (R166). -/
def xClearCrane (crane : Nat) (s : Plant) : Reply × Plant :=
  if s.isClosed then refuse .closed s
  else if 3 ≤ crane then refuse .range s
  else if (s.yard.crane crane).state ≠ .faulted then refuse .state s
  else
    accept [] (s.updYard (fun y =>
      (y.updCrane crane (fun c => { c with state := .unhomed, faultCode := .none, controller := 0 })).setClaim crane
        none)).settleClaim

/-- R171: the claim, as lo and hi, or an indication that it is empty (log 15). -/
def claimBytes : Option Interval → List Byte
  | some i => byte1 i.lo ++ byte1 i.hi
  | none => byte1 0xFF ++ byte1 0xFF

/-- R171: the stage order's kind and sequence, 1 byte each (log 36 for the sequence); the codes of none are free (log 3). -/
def stageBytes : Option StageOrder → List Byte
  | some o => byte1 o.kind.num ++ byte1 o.seq
  | none => [Config.absentKind, Config.absentSequence]

/-- R171: the minutes of the report timer; R218 gives them no width, and the model writes 1 byte (log 32). The code of a stopped
timer is free (log 3). -/
def timerBytes : Option Timer → List Byte
  | some t => byte1 t.minutes
  | none => [Config.stoppedTimer]

/-- R171: the result of READ CRANE; the controller code is 1 byte (log 36). -/
def craneFields (c : CraneRecord) (a : ArbiterRecord) : List Byte :=
  byte1 c.state.num ++ byte1 c.homeBay ++ claimBytes a.claim ++ optHandleBytes a.bound ++ optHandleBytes c.hook
    ++ optHandleBytes c.current ++ byte1 c.lastBay ++ byte1 c.faultCode.num ++ byte1 c.controller ++ stageBytes c.stage
    ++ boolByte c.stopOrder.isSome ++ boolByte c.halted ++ timerBytes c.timer ++ byte1 (craneFlagsNum c)

/-- READ CRANE (R171). -/
def xReadCrane (crane : Nat) (s : Plant) : Reply × Plant :=
  if 3 ≤ crane then refuse .range s
  else accept (craneFields (s.yard.crane crane) (s.yard.arb crane)) s

end Sys2Proof.Machine
end

