-- ==== Sys2Proof/Machine/Stacks.lean ====
section
/-! DEFINITION. The commands of the Stock Map (05): DEFINE STACK, CLOSE STACK, OPEN STACK, READ STACK, DEFINE LANE, DRAIN
LANE, READ LANE and DEFINE TRUCK BAY. -/

namespace Sys2Proof.Machine

/-! ## Stacks (R95 to R97) -/

/-- R95: the record that an accepted DEFINE STACK writes; the list fields are empty and the dig lock clear already. -/
def StackRecord.define (choice bay tiers load : Nat) (st : StackRecord) : StackRecord :=
  if choice = 1 then { st with state := .opened, bay := bay, tiers := tiers, limit := load }
  else { st with state := .undefined, bay := 0, tiers := 0, limit := 0 }

/-- DEFINE STACK (R95). -/
def xDefineStack (stack choice bay tiers load : Nat) (s : Plant) : Reply × Plant :=
  if 40 ≤ stack then refuse .range s
  else if !isFlag choice then refuse .range s
  else if choice = 1 ∧ ¬(bay < 64 ∧ 1 ≤ tiers ∧ tiers ≤ 8 ∧ 1 ≤ load ∧ load ≤ 4000) then refuse .range s
  else if (s.yard.stack stack).pieces ≠ [] ∨ (s.yard.stack stack).claims ≠ [] then refuse .inUse s
  else accept [] (s.settle (s.updYard (fun y => y.updStack stack (StackRecord.define choice bay tiers load))))

/-- R96: CLOSE STACK and OPEN STACK, which differ in the state they set. -/
def setStackState (st : StackState) (stack : Nat) (s : Plant) : Reply × Plant :=
  if s.isClosed then refuse .closed s
  else if 40 ≤ stack then refuse .range s
  else if (s.yard.stack stack).state = .undefined then refuse .state s
  else accept [] (s.settle (s.updYard (fun y => y.updStack stack (fun r => { r with state := st }))))

/-- CLOSE STACK (R96). -/
def xCloseStack (stack : Nat) (s : Plant) : Reply × Plant := setStackState .closed stack s

/-- OPEN STACK (R96). -/
def xOpenStack (stack : Nat) (s : Plant) : Reply × Plant := setStackState .opened stack s

/-- R97: a claim as result bytes. -/
def claimListBytes (cs : List Claim) : List Byte := cs.flatMap (fun c => byte1 c.kind.num ++ handleBytes c.ticket)

/-- R97: the result of READ STACK. -/
def stackFields (e : Site) (y : Yard) (i : Nat) : List Byte :=
  let st := y.stack i
  byte1 st.state.num ++ byte1 st.bay ++ byte1 st.tiers ++ beBytes 2 st.limit ++ handlesBytes st.pieces
    ++ byte1 st.pieces.length ++ beBytes 2 (weightOf e y st.pieces) ++ claimListBytes st.claims
    ++ byte1 (projection y i).length ++ beBytes 2 (weightOf e y (projection y i)) ++ boolByte st.digLock
    ++ byte1 st.buried

/-- READ STACK (R97). -/
def xReadStack (stack : Nat) (s : Plant) : Reply × Plant :=
  if 40 ≤ stack then refuse .range s else accept (stackFields s.site s.yard stack) s

/-! ## Lanes (R103 to R105) -/

/-- R104: the record that an accepted DEFINE LANE writes. -/
def LaneRecord.define (choice bay : Nat) (l : LaneRecord) : LaneRecord :=
  { l with defined := decide (choice = 1), bay := if choice = 1 then bay else 0, drain := false, demand := 0 }

/-- DEFINE LANE (R104). -/
def xDefineLane (lane choice bay : Nat) (s : Plant) : Reply × Plant :=
  if 2 ≤ lane then refuse .range s
  else if !isFlag choice then refuse .range s
  else if choice = 1 ∧ 64 ≤ bay then refuse .range s
  else if (s.yard.lane lane).pieces ≠ [] ∨ 0 < (s.yard.lane lane).reservations then refuse .inUse s
  else accept [] (s.settle (s.updYard (fun y => y.updLane lane (LaneRecord.define choice bay))))

/-- DRAIN LANE (R103). -/
def xDrainLane (lane value : Nat) (s : Plant) : Reply × Plant :=
  if s.isClosed then refuse .closed s
  else if 2 ≤ lane then refuse .range s
  else if !isFlag value then refuse .range s
  else if !(s.yard.lane lane).defined then refuse .state s
  else
    accept [] (s.settle (s.updYard (fun y =>
      y.updLane lane (fun l => { l with drain := decide (value = 1) }.recompute s.works.settings))))

/-- READ LANE (R105). -/
def xReadLane (lane : Nat) (s : Plant) : Reply × Plant :=
  if 2 ≤ lane then refuse .range s
  else
    let l := s.yard.lane lane
    accept (boolByte l.defined ++ byte1 l.bay ++ handlesBytes l.pieces ++ byte1 l.pieces.length
      ++ byte1 l.reservations ++ boolByte l.drain ++ byte1 l.demand) s

/-! ## Truck bays (R107) -/

/-- DEFINE TRUCK BAY (R107). -/
def xDefineTruckBay (truck choice bay : Nat) (s : Plant) : Reply × Plant :=
  if 4 ≤ truck then refuse .range s
  else if !isFlag choice then refuse .range s
  else if choice = 1 ∧ 64 ≤ bay then refuse .range s
  else if (s.yard.truck truck).state ≠ .free then refuse .inUse s
  else
    accept [] (s.updYard (fun y => y.updTruck truck (fun t =>
      { t with defined := decide (choice = 1), bay := if choice = 1 then bay else 0 })))

end Sys2Proof.Machine
end

