-- ==== Sys2Proof/Machine/Moves.lean ====
section
/-! DEFINITION. The commands of the Move Queue and the arbiter (06, 07): MOVE, STRIP BED, CANCEL MOVE, READ MOVE and PARK
CRANE. -/

namespace Sys2Proof.Machine

/-! ## MOVE (R116 to R119) -/

/-- R116: the kind of a ticket made by MOVE or STRIP BED. -/
def kindOf : Location → TicketKind
  | .bed _ _ => .strip
  | .lane _ => .stow
  | .stack _ _ => .shift
  | .truck _ _ => .shift
  | .hook _ => .shift

/-- R117: the destination that a kind byte and an object byte name: STACK 3, LANE 2, AUTO 5 (none within). No value for
a kind or an object outside its range. -/
def moveDest (kind object : Nat) : Option (Option Dest) :=
  match kind with
  | 2 => if object < 2 then some (some (.lane object)) else none
  | 3 => if object < 40 then some (some (.stack object)) else none
  | 5 => some none
  | _ => none

/-- R117, check 6: the destination is the stack or the lane in which the piece lies. -/
def sameHolder (loc : Location) (d : Option Dest) : Bool :=
  match loc, d with
  | .stack i _, some (.stack j) => decide (i = j)
  | .lane i, some (.lane j) => decide (i = j)
  | _, _ => false

/-- R117, check 7: the piece lies on a truck whose bay is not UNLOADING. -/
def truckHeld (y : Yard) : Location → Bool
  | .truck t _ => decide ((y.truck t).state ≠ .unloading)
  | _ => false

/-- R118: the destination test: the destination chosen, or the verdict. -/
def destTest (e : Site) (y : Yard) (p : Handle) (loc : Location) : Option Dest → Except Code Dest
  | some (.stack i) =>
    match placement e y i p with
    | none => .ok (.stack i)
    | some c => .error c
  | some (.lane l) =>
    match laneRoom y l with
    | none => .ok (.lane l)
    | some c => .error c
  | some d => .ok d
  | none =>
    match autoDest e y (kindOf loc) loc p with
    | some d => .ok d
    | none => .error .full

/-- R119: the source claim test refuses FULL. -/
def sourceFull (y : Yard) (p : Handle) : Location → Bool
  | .stack s _ => decide ((projection y s).getLast? = some p) && decide ((y.stack s).claims.length ≥ 4)
  | _ => false

/-- R117, R119, R126: an accepted move: the ticket made with its claims, the first dig round of a buried one, and its
wait reasons as they stand after the round. -/
def acceptMove (e : Site) (y : Yard) (slot : Nat) (p : Handle) (loc : Location) (d : Dest) (level : Nat)
    (after dig : Bool) : Yard :=
  refreshTicket e
    (digRound e
      (makeTicket e y slot p
        { Ticket.fresh (kindOf loc) (some p) (some loc) (some d) level with after := after, dig := dig }) slot) slot

/-- R119: the result of MOVE: handle, kind, destination, state, wait reasons, as they stand after the dig round; it carries
no handle of a DIG ticket (log 25). -/
def moveFields (y : Yard) (slot : Nat) : List Byte :=
  match y.ticketAt slot with
  | some t =>
    handleBytes (y.ticketHandle slot) ++ byte1 t.kind.num ++ destBytes t.dest ++ byte1 t.state.num ++ byte1 (waitsNum t.waits)
  | none => []

/-- MOVE (R117 to R119). The result shows the ticket before the arbiter's evaluation (log 11). -/
def xMove (h : Handle) (kind object level after dig : Nat) (s : Plant) : Reply × Plant :=
  if s.isClosed then refuse .closed s
  else
    match s.yard.piece? h with
    | none => refuse .stale s
    | some p =>
      if p.ticket.isSome then refuse .inMove s
      else
        match s.yard.freeTicketSlot with
        | none => refuse .full s
        | some slot =>
          match moveDest kind object with
          | none => refuse .range s
          | some want =>
            if 4 ≤ level ∨ !isFlag after ∨ !isFlag dig then refuse .range s
            else if sameHolder p.location want then refuse .placement s
            else if truckHeld s.yard p.location then refuse .state s
            else
              match destTest s.site s.yard h p.location want with
              | .error c => refuse c s
              | .ok d =>
                if sourceFull s.yard h p.location then refuse .full s
                else
                  let y1 := acceptMove s.site s.yard slot h p.location d level (decide (after = 1)) (decide (dig = 1))
                  accept (moveFields y1 slot) (s.settle (s.updYard (fun _ => y1)))

/-! ## STRIP BED (R120) -/

/-- R120: the tickets of STRIP BED made in position order, each with its AUTO search, or none when a search answers
none. -/
def stripPositions (e : Site) (level : Nat) (after : Bool) : List (Handle × Location) → Yard → Option Yard
  | [], y => some y
  | (p, loc) :: rest, y =>
    match autoDest e y .strip loc p, y.freeTicketSlot with
    | some d, some slot => stripPositions e level after rest (acceptMove e y slot p loc d level after false)
    | _, _ => none

/-- R120: the pieces of a bed that have no active ticket, with their locations, in position order. -/
def stripList (s : Plant) (bed : Nat) : List (Handle × Location) :=
  (positionsWhere s bed (fun _ p => p.ticket.isNone)).filterMap
    (fun i => ((s.bed bed).at i).map (fun h => (h, Location.bed bed i)))

/-- R120: for each configured position, the handle of the ticket made, or the absent handle where it was passed over. -/
def stripFields (s : Plant) (y : Yard) (bed : Nat) (made : List (Handle × Location)) : List Byte :=
  byte1 made.length ++ (List.range (s.bed bed).positions).flatMap (fun i =>
    match (s.bed bed).at i with
    | some h =>
      if made.any (fun m => decide (m.1 = h)) then optHandleBytes ((y.pieceAt h.slot).bind (fun p => p.ticket))
      else optHandleBytes none
    | none => optHandleBytes none)

/-- STRIP BED (R120). -/
def xStripBed (bed level after : Nat) (s : Plant) : Reply × Plant :=
  if s.isClosed then refuse .closed s
  else if 12 ≤ bed then refuse .range s
  else if 4 ≤ level then refuse .range s
  else if !isFlag after then refuse .range s
  else if (s.bed bed).state = .vacant ∨ (s.bed bed).state = .set then refuse .state s
  else
    let list := stripList s bed
    if list = [] then refuse .inMove s
    else if s.yard.freeTicketCount < list.length then refuse .full s
    else
      match stripPositions s.site level (decide (after = 1)) list s.yard with
      | none => refuse .full s
      | some y1 => accept (stripFields s y1 bed list) (s.settle (s.updYard (fun _ => y1)))

/-! ## CANCEL MOVE and READ MOVE (R133, R136) -/

/-- CANCEL MOVE (R133). -/
def xCancelMove (h : Handle) (s : Plant) : Reply × Plant :=
  if s.isClosed then refuse .closed s
  else
    match s.yard.ticket? h with
    | none => refuse .stale s
    | some t =>
      if t.kind = .pick then refuse .inUse s
      else if t.state = .lifting ∨ t.state = .lifted ∨ t.state = .setting then refuse .inMove s
      else if t.state = .done ∨ t.state = .failed ∨ t.state = .cancelled then refuse .state s
      else
        accept (handleBytes h ++ byte1 t.state.num ++ byte1 TicketOutcome.cancelled.num)
          (s.settle (s.updYard (fun y => cancelTicket s.site y h.slot)))

/-- R136: the result of READ MOVE. The position in the move queue comes last; R218 gives it no width, and the model writes 1
byte (log 35). -/
def ticketFields (y : Yard) (slot : Nat) (t : Ticket) : List Byte :=
  byte1 t.kind.num ++ optHandleBytes t.piece ++ sourceBytes t.source ++ destBytes t.dest ++ byte1 t.baseLevel
    ++ byte1 t.level ++ boolByte t.after ++ boolByte t.dig ++ optObjectBytes t.truck ++ optHandleBytes t.serves
    ++ optObjectBytes t.crane ++ byte1 t.state.num ++ boolByte t.weightFailed ++ boolByte t.holdPending
    ++ byte1 (waitsNum t.waits) ++ byte1 t.outcome.num ++ boolByte t.redirected ++ byte1 (y.moveQueue.idxOf slot + 1)

/-- READ MOVE (R136). -/
def xReadMove (h : Handle) (s : Plant) : Reply × Plant :=
  match s.yard.ticket? h with
  | none => refuse .stale s
  | some t => accept (ticketFields s.yard h.slot t) s

/-! ## PARK CRANE (R149) -/

/-- R149: a PARK ticket made for a crane. -/
def makePark (e : Site) (y : Yard) (slot crane bay level : Nat) : Yard :=
  let y1 := y.placeTicket slot (Ticket.fresh .park none none (some (.bay bay)) level)
  refreshTicket e (y1.updArb crane (fun a => { a with bound := some (y1.ticketHandle slot) })) slot

/-- R149: the result of PARK CRANE: handle and state. -/
def parkFields (y : Yard) (slot : Nat) : List Byte :=
  match y.ticketAt slot with
  | some t => handleBytes (y.ticketHandle slot) ++ byte1 t.state.num
  | none => []

/-- PARK CRANE (R149). -/
def xParkCrane (crane bay level : Nat) (s : Plant) : Reply × Plant :=
  if s.isClosed then refuse .closed s
  else if 3 ≤ crane ∨ 64 ≤ bay ∨ 4 ≤ level then refuse .range s
  else if (s.yard.arb crane).bound.isSome then refuse .busy s
  else if (s.yard.crane crane).hook.isSome then refuse .state s
  else
    match s.yard.freeTicketSlot with
    | none => refuse .full s
    | some slot =>
      let y1 := makePark s.site s.yard slot crane bay level
      accept (parkFields y1 slot) (s.settle (s.updYard (fun _ => y1)))

end Sys2Proof.Machine
end

