-- ==== Sys2Proof/Machine/Orders.lean ====
section
/-! DEFINITION. The commands of the dispatch orders (09): OPEN ORDER, ADD TO ORDER, ORDER LEVEL, CANCEL ORDER, SHIP ORDER
and READ ORDER. -/

namespace Sys2Proof.Machine

/-! ## The entry checks (R176) -/

/-- R176, checks 4.1 to 4.6 for one entry, `earlier` being the entries before it in the same list. -/
def entryCheck (y : Yard) (earlier : List Handle) (h : Handle) : Option Code :=
  match y.piece? h with
  | none => some .stale
  | some p =>
    if earlier.contains h then some .duplicate
    else if p.holds ≠ .none then some .held
    else if p.order.isSome then some .inUse
    else
      match p.location with
      | .lane _ | .stack _ _ => if p.ticket.isSome then some .inMove else none
      | .bed _ _ | .hook _ | .truck _ _ => some .state

/-- R176: the first failing entry with its number and its outcome, or none. -/
def entriesCheck (y : Yard) : (earlier rest : List Handle) → Option (Nat × Code)
  | _, [] => none
  | earlier, h :: hs =>
    match entryCheck y earlier h with
    | some c => some (earlier.length, c)
    | none => entriesCheck y (earlier ++ [h]) hs

/-- R12: the order field of each piece of a list written. -/
def listPieces (y : Yard) (hs : List Handle) (k : Option Nat) : Yard :=
  forEach hs (fun y h => y.updPiece h.slot (fun p => { p with order := k })) y

/-! ## OPEN ORDER and ADD TO ORDER (R176 to R178) -/

/-- R177: the current pick in the result: handle, state and wait reasons, or an indication that creation waits. -/
def pickFields (y : Yard) (k : Nat) : List Byte :=
  match (y.truck k).currentPick with
  | some h =>
    match y.ticketAt h.slot with
    | some t => handleBytes h ++ byte1 t.state.num ++ byte1 (waitsNum t.waits)
    | none => optHandleBytes none
  | none => optHandleBytes none

/-- R177: the changes of an accepted OPEN ORDER. -/
def openOrder (e : Site) (y : Yard) (k level : Nat) (dig : Bool) (hs : List Handle) : Yard :=
  createPick e
    (listPieces (y.updTruck k (fun t =>
      { t with
        state := .opened
        orderList := hs
        level := level
        digEnable := dig
        nextIndex := 0
        currentPick := none })) hs (some k)) k

/-- OPEN ORDER (R176, R177). R218 gives the failing entry's number no width; the model writes 1 byte (log 35). -/
def xOpenOrder (truck level dig : Nat) (pieces : List Handle) (s : Plant) : Reply × Plant :=
  if s.isClosed then refuse .closed s
  else if 4 ≤ truck ∨ 4 ≤ level ∨ !isFlag dig ∨ pieces = [] ∨ 12 < pieces.length then refuse .range s
  else if !(s.yard.truck truck).defined ∨ (s.yard.truck truck).state ≠ .free then refuse .state s
  else
    match entriesCheck s.yard [] pieces with
    | some (i, c) => refuseWith c (byte1 i) s
    | none =>
      let y1 := openOrder s.site s.yard truck level (decide (dig = 1)) pieces
      accept (byte1 truck ++ byte1 pieces.length ++ pickFields y1 truck) (s.settle (s.updYard (fun _ => y1)))

/-- R178: the changes of an accepted ADD TO ORDER. -/
def addToOrder (e : Site) (y : Yard) (k : Nat) (hs : List Handle) : Yard :=
  createPick e (listPieces (y.updTruck k (fun t => { t with orderList := t.orderList ++ hs })) hs (some k)) k

/-- ADD TO ORDER (R178). That the refusal of an entry carries its number, counted from 0 in the command's own list, is the
model's choice: R178 names no refusal field, R176 names it for OPEN ORDER alone (log 34). Its 1 byte is log 35. -/
def xAddToOrder (truck : Nat) (pieces : List Handle) (s : Plant) : Reply × Plant :=
  if s.isClosed then refuse .closed s
  else if 4 ≤ truck ∨ pieces = [] ∨ 12 < pieces.length then refuse .range s
  else if (s.yard.truck truck).state ≠ .opened then refuse .state s
  else if 12 < (s.yard.truck truck).orderList.length + pieces.length then refuse .full s
  else
    match entriesCheck s.yard [] pieces with
    | some (i, c) => refuseWith c (byte1 i) s
    | none => accept [] (s.settle (s.updYard (fun y => addToOrder s.site y truck pieces)))

/-! ## ORDER LEVEL (R179) -/

/-- ORDER LEVEL (R179). -/
def xOrderLevel (truck level : Nat) (s : Plant) : Reply × Plant :=
  if s.isClosed then refuse .closed s
  else if 4 ≤ truck ∨ 4 ≤ level then refuse .range s
  else if (s.yard.truck truck).state ≠ .opened ∧ (s.yard.truck truck).state ≠ .complete then refuse .state s
  else accept [] (s.settle (s.updYard (fun y => y.updTruck truck (fun t => { t with level := level }))))

/-! ## CANCEL ORDER and SHIP ORDER (R186, R187) -/

/-- R186, check 4: the current pick is in SETTING. -/
def currentPickSetting (y : Yard) (k : Nat) : Bool :=
  match (y.truck k).currentPick with
  | some h =>
    match y.ticket? h with
    | some t => decide (t.state = .setting)
    | none => false
  | none => false

/-- R186: the order list of a truck bay ended, and the state that follows. -/
def TruckRecord.endOrder (t : TruckRecord) : TruckRecord :=
  { t with
    orderList := []
    nextIndex := 0
    currentPick := none
    state := if t.pieces = [] then .free else .unloading }

/-- R186: the changes of an accepted CANCEL ORDER. The list ends before the pick is dealt with, so that the pick keeps
the level it had (R179). -/
def cancelOrder (e : Site) (y : Yard) (k : Nat) : Yard :=
  let y1 := listPieces y (y.truck k).orderList none
  (dropCurrentPick e y1 k).updTruck k TruckRecord.endOrder

/-- CANCEL ORDER (R186). -/
def xCancelOrder (truck : Nat) (s : Plant) : Reply × Plant :=
  if s.isClosed then refuse .closed s
  else if 4 ≤ truck then refuse .range s
  else if (s.yard.truck truck).state ≠ .opened ∧ (s.yard.truck truck).state ≠ .complete then refuse .state s
  else if currentPickSetting s.yard truck then refuse .inMove s
  else
    accept (byte1 (s.yard.truck truck).pieces.length) (s.settle (s.updYard (fun y => cancelOrder s.site y truck)))

/-- R187: the pieces of a truck retired, from the top down. -/
def retireAll (s : Plant) (hs : List Handle) : Plant := forEach hs retire s

/-- R187: the truck bay after SHIP ORDER. -/
def TruckRecord.ship (t : TruckRecord) : TruckRecord :=
  { t with pieces := [], orderList := [], nextIndex := 0, currentPick := none, state := .free }

/-- SHIP ORDER (R187). -/
def xShipOrder (truck : Nat) (s : Plant) : Reply × Plant :=
  if s.isClosed then refuse .closed s
  else if 4 ≤ truck then refuse .range s
  else if (s.yard.truck truck).state ≠ .complete then refuse .state s
  else
    let hs := (s.yard.truck truck).pieces
    accept (byte1 hs.length)
      (s.settle ((retireAll s hs.reverse).updYard (fun y => y.updTruck truck TruckRecord.ship)))

/-! ## READ ORDER (R188) -/

/-- READ ORDER (R188). -/
def xReadOrder (truck : Nat) (s : Plant) : Reply × Plant :=
  if 4 ≤ truck then refuse .range s
  else
    let t := s.yard.truck truck
    accept (boolByte t.defined ++ byte1 t.bay ++ byte1 t.state.num ++ handlesBytes t.pieces
      ++ handlesBytes t.orderList ++ byte1 t.level ++ boolByte t.digEnable ++ byte1 t.nextIndex
      ++ optHandleBytes t.currentPick ++ byte1 (orderFlagsNum t)) s

end Sys2Proof.Machine
end

