-- ==== Sys2Proof/Machine/Works.lean ====
section
/-! DEFINITION. Works Control (10, 11): the works clock and the timer events, the plant stop line, the works settings, OPEN WORKS, READ WORKS, SENSE, RESTORE BED and RESTORE PIECE. -/

namespace Sys2Proof.Machine

/-! ## Settings written (R102, R215) -/

/-- R215: the works settings written, and what follows in the same change: both lanes' demand levels (R102). -/
def writeSettings (st : Settings) (s : Plant) : Plant :=
  let s1 := { s with works := { s.works with settings := st } }
  s.settle (s1.updYard (recomputeLanes s1.site))

/-- R214: what a port reset does to the settings: the defaults, unless the lock is on. -/
def resetSettings (s : Plant) : Plant := if s.works.lock then s else writeSettings .default s

/-! ## The works clock (R192) -/

/-- R162, R163, R167: the expiry of a crane's report timer, with what follows it: a homing timeout and a stage timeout
while BUSY are claim changes (R153). -/
def craneExpires (s : Plant) (k : Nat) : Plant :=
  let s1 := s.updYard (fun y => timerExpiry s.site y k)
  if timesHome s.yard k then s1.settleClaim else s.settleFault s1 k

/-- R162: the timer event of a crane's report timer: the minutes fall by one, and at 0 the timer expires, in one change. Where
a report or an order taken first has restarted or stopped the timer, its event of this minute is gone (log 4). -/
def timerTick (s : Plant) (k : Nat) : Plant :=
  if !timerWaits s.yard k then s
  else if timerDue s k then craneExpires s k
  else s.updYard (fun y => countMinute y k)

/-- R192: one timer event taken by its record, as the event finds it; nothing where that record has no event still to be
taken. -/
def takeEvent (s : Plant) : TimerEvent → Plant
  | .heat b => if (s.heat b).due then heatTick s b else s
  | .intake b => if (s.intakeOf b).due then intakeTick s b else s
  | .crane k => timerTick s k

/-- R192: the clock one minute on; it stays at its greatest value. -/
def clockTick (s : Plant) : Plant := { s with works := { s.works with clock := min maxU32 (s.works.clock + 1) } }

/-- R48, R78, R192: an advance gives a bed's heat record and its intake record the timer event of the new minute. -/
def bedMinuteDue (s : Plant) (b : Nat) : Plant :=
  (s.updHeat b (fun h => { h with due := true })).updIntake b (fun r => { r with due := true })

/-- R48, R78, R162, R192: an advance of the works clock: the clock one minute on, and the timer event of the new minute due at
each bed's two records and at every running report timer. -/
def advance (s : Plant) : Plant :=
  (forEach (List.range 12) bedMinuteDue (clockTick s)).updYard (fun y => forEach [0, 1, 2] minuteDue y)

/-- R48, R78, R162, R192: the timer events that are still to be taken: of the heat records, the intake records and the
cranes. -/
def dueEvents (s : Plant) : List TimerEvent :=
  ((List.range 12).filter (fun b => (s.heat b).due)).map .heat
    ++ ((List.range 12).filter (fun b => (s.intakeOf b).due)).map .intake
    ++ ([0, 1, 2].filter (timerWaits s.yard)).map .crane

/-! ## The plant stop line (R199, R201) -/

/-- The plant stop state written. -/
def setStop (b : Bool) (s : Plant) : Plant := { s with works := { s.works with stop := b } }

/-- R199: an assertion. A line that is asserted already makes no event. -/
def assertStop (s : Plant) : Plant :=
  if s.works.stop then s
  else if s.isClosed then setStop true s
  else
    let s1 := cureStop (setStop true s)
    s1.settle (s1.updYard (cranesStop s1.site))

/-- R201: the release at the Crane Link Controller, and what follows it. -/
def releaseCranes (s : Plant) : Plant := s.settle (s.updYard (cranesResume s.site))

/-- R201: the release at the Move Queue, and what follows it. -/
def releaseQueue (s : Plant) : Plant := s.settle s

/-- R201: a release. The Move Queue may take it before or after the Crane Link Controller (log 2): before, its tickets
become READY and the arbiter evaluates while cranes are still STOPPED. -/
def releaseStop (queueFirst : Bool) (s : Plant) : Plant :=
  if !s.works.stop then s
  else if s.isClosed then setStop false s
  else
    let s1 := cureRelease (setStop false s)
    if queueFirst then releaseCranes (releaseQueue s1) else releaseCranes s1

/-! ## Settings (R215, R216) -/

/-- R215: the nine settings within their ranges. -/
def Settings.ok (st : Settings) : Bool :=
  decide (1 ≤ st.period) && decide (st.period ≤ 15)
    && (decide (st.purge = 2) || decide (st.purge = 5) || decide (st.purge = 10) || decide (st.purge = 20))
    && decide (80 ≤ st.maxTemp) && decide (st.maxTemp ≤ 180)
    && decide (1 ≤ st.t1) && decide (st.t1 < st.t2) && decide (st.t2 < st.t3) && decide (st.t3 ≤ 8)
    && decide (1 ≤ st.threshold) && decide (st.threshold ≤ 8)
    && decide (1 ≤ st.homeTimeout) && decide (st.homeTimeout ≤ 60)
    && decide (1 ≤ st.stageTimeout) && decide (st.stageTimeout ≤ 60)

/-- SETTINGS (R215). -/
def xSettings (st : Settings) (s : Plant) : Reply × Plant :=
  if st.ok then accept [] (writeSettings st s) else refuse .range s

/-- LOCK SETTINGS (R216). -/
def xLockSettings (value : Nat) (s : Plant) : Reply × Plant :=
  if isFlag value then accept [] { s with works := { s.works with lock := decide (value = 1) } } else refuse .range s

/-- R215: the nine setting bytes. -/
def settingsBytes (st : Settings) : List Byte :=
  byte1 st.period ++ byte1 st.purge ++ byte1 st.maxTemp ++ byte1 st.t1 ++ byte1 st.t2 ++ byte1 st.t3
    ++ byte1 st.threshold ++ byte1 st.homeTimeout ++ byte1 st.stageTimeout

/-- READ SETTINGS (R216). -/
def xReadSettings (s : Plant) : Reply × Plant :=
  accept (settingsBytes s.works.settings ++ boolByte s.works.lock) s

/-! ## OPEN WORKS and READ WORKS (R194, R195) -/

/-- R194: every heat order formed and sent. -/
def sendAllOrders (s : Plant) : Plant := forEach (List.range 12) sendOrder s

/-- R64, R194: the bed's plan and gap count at OPEN WORKS. -/
def openBed (s : Plant) (b : Nat) : Plant :=
  (s.updIntake b (fun r => { r with gapCount := 0 })).updHeat b
    (fun h => h.openWorks (decide ((s.bed b).state = .curing)))

/-- R194: the works opened. -/
def openWorks (s : Plant) : Plant :=
  sendAllOrders (forEach (List.range 12) openBed { s with works := { s.works with phase := .opened, clock := 0 } })

/-- The number of configured beds (R194). -/
def Plant.configuredBeds (s : Plant) : Nat := s.beds.toList.countP (fun b => b.configured)

/-- OPEN WORKS (R194). -/
def xOpenWorks (s : Plant) : Reply × Plant :=
  if s.isClosed then
    accept (beBytes 4 0 ++ beBytes 2 s.yard.liveCount ++ byte1 s.configuredBeds) (openWorks s)
  else refuse .state s

/-- READ WORKS (R195). The plant stop state is coded by its place in the list of R191, asserted 0 and released 1 (R218;
log 27). -/
def xReadWorks (s : Plant) : Reply × Plant :=
  accept (byte1 s.works.phase.num ++ beBytes 4 s.works.clock ++ byte1 (if s.works.stop then 0 else 1) ++ beBytes 2 s.yard.liveCount
    ++ byte1 s.yard.moveQueue.length ++ byte1 s.yard.finished.length) s

/-! ## SENSE (R135, R172, R189, R210) -/

/-- R135, R210: the item of a finished ticket. -/
def ticketItem (y : Yard) (slot : Nat) : List Byte :=
  match y.ticketAt slot with
  | some t =>
    byte1 0 ++ handleBytes (y.ticketHandle slot) ++ byte1 t.kind.num ++ optHandleBytes t.piece ++ byte1 t.outcome.num
      ++ boolByte t.redirected ++ optObjectBytes t.crane
  | none => byte1 0

/-- R42, R210: the item of a bed. -/
def bedItem (s : Plant) (b : Nat) : List Byte := byte1 1 ++ byte1 b ++ byte1 (bedFlagsNum (s.bed b).flags)

/-- R172: the item of a crane; the controller code is 1 byte (log 36). -/
def craneItem (c : CraneRecord) : List Byte :=
  byte1 2 ++ byte1 (craneFlagsNum c) ++ byte1 c.state.num ++ byte1 c.faultCode.num ++ byte1 c.controller ++ byte1 c.lastBay

/-- R189: the item of a truck bay. -/
def orderItem (t : TruckRecord) : List Byte :=
  byte1 3 ++ byte1 (orderFlagsNum t) ++ byte1 t.state.num ++ byte1 t.orderList.length ++ byte1 t.nextIndex
    ++ byte1 t.pieces.length

/-- SENSE (R210): the first kind of item that exists is reported and cleared. -/
def xSense (s : Plant) : Reply × Plant :=
  match s.yard.finished with
  | slot :: _ => accept (ticketItem s.yard slot) (s.settle (s.updYard (fun y => y.freeTicket slot)))
  | [] =>
    match s.alarmedBed with
    | some b => accept (bedItem s b) (s.latchBed b (fun _ => .none))
    | none =>
      match s.alarmedCrane with
      | some k =>
        accept (craneItem (s.yard.crane k)) (s.updYard (fun y =>
          y.updCrane k (fun c => { c with flagFault := false, flagProtocol := false })))
      | none =>
        match s.alarmedTruck with
        | some t =>
          accept (orderItem (s.yard.truck t)) (s.updYard (fun y =>
            y.updTruck t (fun r => { r with flagComplete := false, flagChanged := false })))
        | none => accept (byte1 4) s

/-! ## RESTORE BED (R196, R197) -/

/-- R218: an entry of RESTORE BED is occupied unless its mark number is 0. -/
def occupied (m : MarkWord) : Bool := decide (m.number ≠ 0)

/-- R196, check 5: the entries are as many as the positions and occupied as the bed state requires (R27). -/
def entriesFit (st : BedState) (positions : Nat) (entries : List MarkWord) : Bool :=
  let n := entries.countP occupied
  decide (entries.length = positions)
    && (match st with
        | .vacant => false
        | .set => decide (n = 0)
        | .cast | .curing | .released => decide (n = positions)
        | .stripping => decide (1 ≤ n) && decide (n < positions))

/-- R196, check 5: the lowest position whose entry is not occupied, or not empty, as the bed state requires. A number of
entries that is not the number of positions, and a STRIPPING bed given full or given empty, name no position (log 15). -/
def misfitPosition (st : BedState) (positions : Nat) (entries : List MarkWord) : Option Nat :=
  if entries.length ≠ positions then none
  else
    match st with
    | .set => entries.findIdx? occupied
    | .cast | .curing | .released => entries.findIdx? (fun m => !occupied m)
    | .vacant | .stripping => none

/-- R196, R209: the position that a refusal carries, where its check names one. -/
def positionField (i : Option Nat) : List Byte := (i.map byte1).getD []

/-- The lowest position whose occupied entry fails a test. -/
def failingEntry (entries : List MarkWord) (ok : MarkWord → Bool) : Option Nat :=
  entries.findIdx? (fun m => occupied m && !ok m)

/-- R196, check 12: the lowest position whose mark is in the map or in another entry. -/
def duplicateEntry (s : Plant) (entries : List MarkWord) : Option Nat :=
  let marks := (entries.filter occupied).map (fun m => m.number)
  failingEntry entries (fun m => (markSlot s.markMap m.number).isNone && decide (marks.count m.number = 1))

/-- R197: what RESTORE BED does to the heat record of a CURING bed. -/
def HeatRecord.restore (segment minutes : Nat) (h : HeatRecord) : HeatRecord :=
  if minutes = 0 then { h.promote with plan := .loaded, swapPending := false }
  else { h.promote with plan := .running, segIndex := segment, segMinutes := minutes, swapPending := false }

/-- R197: an accepted RESTORE BED. The hold bits that the command gives for an empty entry, or for a position past those of the
bed, are not looked at (log 33). -/
def restoreBed (st : BedState) (bed maturity segment minutes : Nat) (holds : List Nat) (entries : List MarkWord)
    (s : Plant) : Plant :=
  let s1 := s.updBed bed (fun b => { b with state := st, maturity := maturity })
  let rows := (entries.zipIdx.filter (fun e => occupied e.1)).map (fun e => (e.2, e.1, holdsOf (holds.getD e.2 0)))
  let s2 := forEach rows (fillPosition bed maturity 0) s1
  if st = .curing then s2.updHeat bed (HeatRecord.restore segment minutes) else s2

/-- R196, check 9: the segment index is past the plan in NEXT, or the minutes are past the segment's duration. -/
def segmentOutside (plan : List Segment) (segment minutes : Nat) : Bool :=
  match plan[segment]? with
  | some g => decide (g.duration < minutes)
  | none => true

/-- RESTORE BED (R196, R197). -/
def xRestoreBed (state bed maturity segment minutes : Nat) (holds : List Nat) (entries : List MarkWord) (s : Plant) :
    Reply × Plant :=
  if !s.isClosed then refuse .state s
  else if 12 ≤ bed then refuse .range s
  else
    match bedStateOf state with
    | none => refuse .range s
    | some st =>
      if !(s.bed bed).configured ∨ (s.bed bed).state ≠ .vacant then refuse .state s
      else if !entriesFit st (s.bed bed).positions entries then
        refuseWith .range (positionField (misfitPosition st (s.bed bed).positions entries)) s
      else
        match failingEntry entries (fun m => markWithClass m && definedClass s m.cls) with
        | some i => refuseWith .range (byte1 i) s
        | none =>
          if minutes ≠ 0 ∧ st ≠ .curing then refuse .range s
          else if st = .curing ∧ (s.heat bed).next = [] then refuse .state s
          else if st = .curing ∧ minutes ≠ 0 ∧ segmentOutside (s.heat bed).next segment minutes then refuse .range s
          else
            match (if st = .released ∨ st = .stripping then
                failingEntry entries (fun m => decide ((s.cls m.cls).threshold ≤ maturity)) else none) with
            | some i => refuseWith .immature (byte1 i) s
            | none =>
              if s.yard.freePieceCount < entries.countP occupied then refuse .noSlot s
              else
                match duplicateEntry s entries with
                | some i => refuseWith .duplicate (byte1 i) s
                | none =>
                  let s1 := restoreBed st bed maturity segment minutes holds entries s
                  accept (handlesBytes (s1.bed bed).occupants) s1

/-! ## RESTORE PIECE (R198) -/

/-- R198, checks 2, 4 and 5: the location that a restored piece takes, or the refusal. -/
def restoreLocation (kind object : Nat) : Option Dest :=
  match kind with
  | 2 => if object < 2 then some (.lane object) else none
  | 3 => if object < 40 then some (.stack object) else none
  | _ => none

/-- R198, checks 4 and 5: the holder takes the piece: none, or the verdict. -/
def restoreRoom (s : Plant) (m : MarkWord) : Dest → Option Code
  | .lane l =>
    if !(s.yard.lane l).defined then some .state
    else if 8 ≤ (s.yard.lane l).pieces.length then some .full
    else none
  | .stack i => placementClass s.site s.yard i (s.cls m.cls)
  | .truck _ => some .range
  | .bay _ => some .range

/-- The location of a piece put on top of a stack or at the back of a lane, and its tier or place. -/
def restoredAt (y : Yard) : Dest → Location × Nat
  | .lane l => (.lane l, (y.lane l).pieces.length + 1)
  | .stack i => (.stack i ((y.stack i).pieces.length + 1), (y.stack i).pieces.length + 1)
  | .truck t => (.truck t 0, 0)
  | .bay _ => (.lane 0, 0)

/-- R198: the restored piece put in its holder. -/
def restoreInto (e : Site) (y : Yard) (h : Handle) : Dest → Yard
  | .lane l => setLanePieces e y l (fun ps => ps ++ [h])
  | .stack i => pushStack y i h
  | .truck _ => y
  | .bay _ => y

/-- R198: the record of a restored piece. -/
def restoredPiece (m : MarkWord) (maturity holds : Nat) (loc : Location) : Piece where
  mark := m.number
  cls := m.cls
  location := loc
  maturity := maturity
  castMinute := 0
  holds := holdsOf holds
  order := none
  ticket := none

/-- RESTORE PIECE (R198). -/
def xRestorePiece (m : MarkWord) (maturity holds kind object : Nat) (s : Plant) : Reply × Plant :=
  if !s.isClosed then refuse .state s
  else
    match restoreLocation kind object with
    | none => refuse .range s
    | some d =>
      if !markWithClass m ∨ 16 ≤ holds ∨ !definedClass s m.cls then refuse .range s
      else
        match restoreRoom s m d with
        | some c => refuse c s
        | none =>
          if maturity < (s.cls m.cls).threshold then refuse .immature s
          else if s.yard.freePieceCount = 0 then refuse .noSlot s
          else if (markSlot s.markMap m.number).isSome then refuse .duplicate s
          else
            let place := restoredAt s.yard d
            match allocate s (restoredPiece m maturity holds place.1) with
            | (some h, s1) =>
              accept (handleBytes h ++ byte1 place.2) (s1.updYard (fun y => restoreInto s1.site y h d))
            | (none, _) => refuse .noSlot s

end Sys2Proof.Machine
end

