-- ==== Sys2Proof/Machine/Port.lean ====
section
/-! DEFINITION. The Command Port (11): the command queue and its start order, results and their posting, transfers, the
scan of a FIND, port reset; and which block takes each command. -/

namespace Sys2Proof.Machine

/-! ## The block that takes a command (R206, R213) -/

/-- R206, R208: a started command run whole by the block that owns its matter. A FIND is started by the scan unit
(`startEntry`); here it stands for one whose parameters are out of range (R21). -/
def runCommand (c : Command) (s : Plant) : Reply × Plant :=
  match c with
  | .openWorks => xOpenWorks s
  | .readWorks => xReadWorks s
  | .settings p pu mx t1 t2 t3 th ho st => xSettings ⟨p, pu, mx, t1, t2, t3, th, ho, st⟩ s
  | .lockSettings v => xLockSettings v s
  | .readSettings => xReadSettings s
  | .sense => xSense s
  | .restoreBed st bed mat seg mins holds entries => xRestoreBed st bed mat seg mins holds entries s
  | .restorePiece m mat holds kind object => xRestorePiece m mat holds kind object s
  | .lookupMark m => xLookupMark m s
  | .readPiece h => xReadPiece h s
  | .defineClass c ch len wt thr tier => xDefineClass c ch len wt thr tier s
  | .readClass c => xReadClass c s
  | .hold h v => xHold h v s
  | .releaseHold h v => xReleaseHold h v s
  | .scrapPiece h => xScrapPiece h s
  | .find _ => refuse .range s
  | .configureBed b bay pos sp => xConfigureBed b bay pos sp s
  | .prepareBed b => xPrepareBed b s
  | .abandonBed b => xAbandonBed b s
  | .cast b es => xCast b es s
  | .startCure b => xStartCure b s
  | .releaseStrand b => xReleaseStrand b s
  | .scrapBed b => xScrapBed b s
  | .bedPriority b l => xBedPriority b l s
  | .readBed b => xReadBed b s
  | .heatMode b m => xHeatMode b m s
  | .loadPlan b p => xLoadPlan b p s
  | .swapPlan b => xSwapPlan b s
  | .stopCure b => xStopCure b s
  | .readPlan b => xReadPlan b s
  | .readIntake b => xReadIntake b s
  | .defineStack i ch bay tiers load => xDefineStack i ch bay tiers load s
  | .closeStack i => xCloseStack i s
  | .openStack i => xOpenStack i s
  | .readStack i => xReadStack i s
  | .defineLane l ch bay => xDefineLane l ch bay s
  | .drainLane l v => xDrainLane l v s
  | .readLane l => xReadLane l s
  | .defineTruckBay t ch bay => xDefineTruckBay t ch bay s
  | .move h k o l a d => xMove h k o l a d s
  | .stripBed b l a => xStripBed b l a s
  | .cancelMove h => xCancelMove h s
  | .readMove h => xReadMove h s
  | .parkCrane k b l => xParkCrane k b l s
  | .configureCrane k b => xConfigureCrane k b s
  | .homeCrane k => xHomeCrane k s
  | .clearCrane k => xClearCrane k s
  | .readCrane k => xReadCrane k s
  | .openOrder t l d hs => xOpenOrder t l d hs s
  | .addToOrder t hs => xAddToOrder t hs s
  | .orderLevel t l => xOrderLevel t l s
  | .cancelOrder t => xCancelOrder t s
  | .shipOrder t => xShipOrder t s
  | .readOrder t => xReadOrder t s

/-! ## Completion and posting (R205, R209) -/

/-- The completed entries of a command queue. -/
def completedCount (q : List Entry) : Nat :=
  q.countP (fun e =>
    match e.state with
    | .completed _ _ => true
    | .waiting | .scanning => false)

/-- R206: an entry completed with its result; it posts after the entries that completed before it. -/
def complete (p : Port) (i : Nat) (r : Reply) : Port :=
  { p with
    commandQueue := p.commandQueue.modify i (fun e =>
      { e with state := .completed (completedCount p.commandQueue) (resultFrame e.tag e.code r) }) }

/-- R209: the result of an entry that is the oldest COMPLETED one. -/
def Entry.oldest (e : Entry) : Option (List Byte) :=
  match e.state with
  | .completed 0 frame => some frame
  | _ => none

/-- R209: an entry once an older COMPLETED one has posted. -/
def Entry.advance (e : Entry) : Entry :=
  match e.state with
  | .completed n frame => { e with state := .completed (n - 1) frame }
  | .waiting | .scanning => e

/-- R209: one posting: the oldest COMPLETED entry leaves the command queue and its result enters the result queue. -/
def postOne (p : Port) : Port :=
  if p.resultQueue.length < 8 then
    match p.commandQueue.findSome? Entry.oldest with
    | some frame =>
      { p with
        commandQueue := (p.commandQueue.filter (fun e => e.oldest.isNone)).map Entry.advance
        resultQueue := p.resultQueue ++ [frame] }
    | none => p
  else p

/-- R209: postings while there is room; the result queue has room for 8. -/
def postAll : (fuel : Nat) → Port → Port
  | 0, p => p
  | n + 1, p => postAll n (postOne p)

/-! ## Start order (R206) -/

/-- R213: the code of FIND; an entry is treated as a FIND by its code (log 14). -/
def findCode : Nat := 0x17

/-- R206: the first startable entry, `i` being the number of entries ahead. An entry held by AFTER holds all behind it, also
where it is a FIND that the scan unit would hold too (log 29); any other WAITING FIND is passed while the scan unit is busy. -/
def findStart (busy : Bool) : (i : Nat) → List Entry → Option Nat
  | _, [] => none
  | i, e :: es =>
    if e.state ≠ .waiting then findStart busy (i + 1) es
    else if e.after ∧ i ≠ 0 then none
    else if e.code = findCode ∧ busy then findStart busy (i + 1) es
    else some i

/-- R21, R206: a FIND started: the scan unit busy, or the entry completed RANGE. -/
def startFind (s : State) (i : Nat) (p : FindParams) : State :=
  if findOk p then
    { s with
      port :=
        { s.port with
          commandQueue := s.port.commandQueue.modify i (fun e => { e with state := .scanning })
          scan := some ⟨p, p.start, []⟩ } }
  else { s with port := complete s.port i ⟨.range, []⟩ }

/-- R206, R207: an entry started. An INVALID command changes nothing. -/
def startEntry (s : State) (i : Nat) : State :=
  match s.port.commandQueue[i]? with
  | none => s
  | some e =>
    match e.cmd with
    | none => { s with port := complete s.port i ⟨.invalid, []⟩ }
    | some (.find p) => startFind s i p
    | some c =>
      let r := runCommand c s.plant
      { s with plant := r.2, port := complete s.port i r.1 }

/-- R206, R209: postings and starts until neither is possible; each start takes one of 8 entries. -/
def settlePort : (fuel : Nat) → State → State
  | 0, s => s
  | n + 1, s =>
    let s1 := { s with port := postAll 8 s.port }
    match findStart s1.port.scan.isSome 0 s1.port.commandQueue with
    | some i => settlePort n (startEntry s1 i)
    | none => s1

/-- R206, R209: the port looks for postings and starts. -/
def State.runPort (s : State) : State := settlePort 9 s

/-- R205, cases 2 and 3: a good frame queued, or dropped with OVERFLOW. -/
def deliver (e : Entry) (s : State) : State :=
  if 8 ≤ s.port.commandQueue.length then { s with port := { s.port with overflow := true } }
  else State.runPort { s with port := { s.port with commandQueue := s.port.commandQueue ++ [e] } }

/-- A command given to the port in a frame with its header (log 6). -/
def give (hd : Header) (c : Command) (s : State) : State := deliver (entryFor hd c) s

/-! ## The scan (R22 to R24) -/

/-- R24: the end of the scan: the unit free, the FIND completed OK. -/
def endScan (s : State) (sc : Scan) (found : List Handle) : State :=
  let i := s.port.commandQueue.findIdx (fun e => decide (e.state = .scanning))
  State.runPort { s with port := complete { s.port with scan := none } i ⟨.ok, findFields found sc.slot⟩ }

/-- R23: one examination. Without a FIND in progress there is none. -/
def examineSlot (s : State) : State :=
  match s.port.scan with
  | none => s
  | some sc =>
    let found := sc.noted s.plant.yard
    if sc.ends found then endScan s sc found
    else { s with port := { s.port with scan := some { sc with slot := sc.slot + 1, found := found } } }

/-! ## Transfers (R203 to R205, R209) -/

/-- The bytes that the part clocked out in a transfer recorded (log 8). -/
def State.setOut (s : State) (out : List Byte) : State := { s with port := { s.port with lastOut := out } }

/-- R203, R205: FRAME-ERROR latched. -/
def State.latchFrameError (s : State) : State := { s with port := { s.port with frameError := true } }

/-- R203, R205: a WRITE FRAME transfer. -/
def writeFrame (bytes : List Byte) (s : State) : State :=
  let s1 := s.setOut (s.statusByte :: bytes.map (fun _ => 0))
  if frameOk bytes then deliver (entryOf bytes) s1 else s1.latchFrameError

/-- R209: the frame that a READ RESULT sends. -/
def nextResult (p : Port) : List Byte := p.resultQueue.headD noResultFrame

/-- R209: a READ RESULT transfer in which the host clocks `clocked` bytes after the type byte. -/
def readResult (clocked : Nat) (s : State) : State :=
  let s1 := s.setOut (s.statusByte :: (nextResult s.port).take clocked)
  match s.port.resultQueue with
  | frame :: rest =>
    if frame.length ≤ clocked then State.runPort { s1 with port := { s1.port with resultQueue := rest } } else s1
  | [] => s1

/-- R203: the bytes of a READ STATUS after the status byte. -/
def statusBytes (p : Port) (clocked : Nat) : List Byte :=
  (byte1 p.commandQueue.length ++ byte1 p.resultQueue.length ++ List.replicate clocked 0).take clocked

/-- R203, R204: a READ STATUS transfer; it clears the latched flags that its own status byte showed. -/
def readStatus (clocked : Nat) (s : State) : State :=
  let s1 := s.setOut (s.statusByte :: statusBytes s.port clocked)
  { s1 with port := { s1.port with overflow := false, frameError := false } }

/-- R203: a transfer with a type byte and nothing after it; a type byte that R203 names makes that transfer. -/
def bareTransfer (typeByte : Byte) (s : State) : State :=
  if typeByte = 1 then writeFrame [] s
  else if typeByte = 2 then readResult 0 s
  else if typeByte = 3 then readStatus 0 s
  else (s.setOut [s.statusByte]).latchFrameError

/-! ## Port reset and power-on (R191, R214) -/

/-- R214: the Command Port after a port reset. -/
def Port.resetPort (p : Port) : Port :=
  { p with commandQueue := [], resultQueue := [], overflow := false, frameError := false, scan := none }

/-- R214: a port reset. -/
def portReset (s : State) : State := { s with port := s.port.resetPort, plant := resetSettings s.plant }

/-- R191: power-on. The steps that wait and the counter of the free values are the model's own and stay. -/
def powerOn (stop : Bool) (s : State) : State := { s with plant := Plant.powerOn stop, port := .reset }

/-- A step that changes the plant alone. -/
def State.onPlant (s : State) (f : Plant → Plant) : State := { s with plant := f s.plant }

/-- R192: the timer events of this minute that are still to be taken (log 4). -/
def State.events (s : State) : List TimerEvent := dueEvents s.plant

/-- R192: one of the timer events that are due is taken; which of them is a free value, with a fresh number (log 1). -/
def takeDue (s : State) : State :=
  match s.events[Config.dueTurn s.freeCount % s.events.length]? with
  | some e => { s with plant := takeEvent s.plant e, freeCount := s.freeCount + 1 }
  | none => s

/-- Timer events that are due, as many as given, taken one after another. -/
def takeDues : (n : Nat) → State → State
  | 0, s => s
  | n + 1, s => takeDues n (takeDue s)

/-- R192: an advance of the works clock; in CLOSED the clock is stopped. The events of the minute that ends are taken before
it, and those of the new minute become due (log 4). -/
def advanceClock (s : State) : State :=
  if s.plant.isClosed then s
  else
    (takeDues s.events.length s).onPlant advance

/-- What the part does while no step waits: in OPEN it takes one of the timer events that are due (R192; log 4). -/
def idle (s : State) : State := if s.plant.isClosed then s else takeDue s

/-- A timer row: the event of one record, when its next event would have the effect that the row names; that record's event of
this minute is then taken (log 5). -/
def State.timerRow (s : State) (fires : Bool) (f : Plant → Plant) : State := if fires then s.onPlant f else s

/-- R201: a release of the plant stop line; the free value of the release takes a fresh number (log 2). -/
def stopReleased (s : State) : State :=
  { s with plant := releaseStop (Config.queueFirst s.freeCount) s.plant, freeCount := s.freeCount + 1 }

end Sys2Proof.Machine
end

