-- ==== Sys2Proof/Machine/Commands.lean ====
section
/-! DEFINITION. The meaning of every row of spec/opcode_table.json, one definition each. No row ends in a fault or a
refusal: the manual gives every step its effect. -/

namespace Sys2Proof.Machine

/-- R191: power-on, with the level of the plant stop line at its end. -/
def execPowerOn (stopAsserted : Bool) (s : State) : Host.Outcome State Fault Refusal :=
  .next (powerOn stopAsserted s)

/-- R214: the port reset line held low for 10 µs. -/
def execPortReset (s : State) : Host.Outcome State Fault Refusal :=
  .next (portReset s)

/-- R199: an assertion of the plant stop line. -/
def execPlantStopAsserted (s : State) : Host.Outcome State Fault Refusal :=
  .next (s.onPlant assertStop)

/-- R201: a release of the plant stop line. -/
def execPlantStopReleased (s : State) : Host.Outcome State Fault Refusal :=
  .next (stopReleased s)

/-- R192: an advance of the works clock. -/
def execWorksClockAdvance (s : State) : Host.Outcome State Fault Refusal :=
  .next (advanceClock s)

/-- R48: the timer event of a heat record at which a PURGE or SETTLE ends; nothing when none is due (log 5). -/
def execTransitionEnd (bed : Fin 12) (s : State) : Host.Outcome State Fault Refusal :=
  .next (s.timerRow (transitionDue s.plant bed) (fun p => heatTick p bed))

/-- R62, R63: the timer event of a heat record at which a segment ends; nothing when none is due (log 5). -/
def execSegmentEnd (bed : Fin 12) (s : State) : Host.Outcome State Fault Refusal :=
  .next (s.timerRow (segmentDue s.plant bed) (fun p => heatTick p bed))

/-- R79: the timer event of an intake record that raises a GAP expiry; nothing when none is due (log 5). -/
def execGapExpiry (bed : Fin 12) (s : State) : Host.Outcome State Fault Refusal :=
  .next (s.timerRow (gapDue s.plant bed) (fun p => intakeTick p bed))

/-- R80: the timer event of an intake record that raises a LOST expiry; nothing when none is due (log 5). -/
def execLostExpiry (bed : Fin 12) (s : State) : Host.Outcome State Fault Refusal :=
  .next (s.timerRow (lostDue s.plant bed) (fun p => intakeTick p bed))

/-- R162, R163: the timer event at which a report timer that times no HOME expires; nothing when none is due (log 5). -/
def execStageTimeout (crane : Fin 3) (s : State) : Host.Outcome State Fault Refusal :=
  .next (s.timerRow (timerDue s.plant crane && !timesHome s.plant.yard crane) (fun p => craneExpires p crane))

/-- R167: the timer event at which a home timeout expires; nothing when none is due (log 5). -/
def execHomingTimeout (crane : Fin 3) (s : State) : Host.Outcome State Fault Refusal :=
  .next (s.timerRow (timerDue s.plant crane && timesHome s.plant.yard crane) (fun p => craneExpires p crane))

/-- R68 to R77: a SAMPLE message with a good frame on a bed line. -/
def execSample (bed : Fin 12) (sequence : Nat) (temperature : Int) (status : Nat) (s : State) : Host.Outcome State Fault Refusal :=
  .next (s.onPlant (fun p => takeSample p bed sequence temperature status))

/-- R68: bytes received on a bed line; all but a good SAMPLE are dropped (log 21). -/
def execBedLineMessageDropped (bed : Fin 12) (bytes : List Byte) (s : State) : Host.Outcome State Fault Refusal :=
  .next (s.onPlant (fun p => takeBedBytes p bed bytes))

/-- R56, R219: a bed line becomes free, and an order that waits for it is written. -/
def execHeatOrderWrite (bed : Fin 12) (s : State) : Host.Outcome State Fault Refusal :=
  .next (s.onPlant (fun p => p.updBedLine bed BedLine.release))

/-- R157: a crane link becomes free, and the next order that waits for it is written. -/
def execCraneOrderWrite (crane : Fin 3) (s : State) : Host.Outcome State Fault Refusal :=
  .next (s.onPlant (fun p => p.updYard (fun y => y.updLink crane CraneLine.release)))

/-- R128, R131, R148, R150: an ARRIVED report. -/
def execArrived (crane : Fin 3) (sequence : Nat) (s : State) : Host.Outcome State Fault Refusal :=
  .next (s.onPlant (fun p => takeArrived p crane sequence))

/-- R129, R130: a LIFTED report. -/
def execLifted (crane : Fin 3) (sequence weight : Nat) (s : State) : Host.Outcome State Fault Refusal :=
  .next (s.onPlant (fun p => takeLifted p crane sequence weight))

/-- R130, R131: a LOWERED report. -/
def execLowered (crane : Fin 3) (sequence : Nat) (s : State) : Host.Outcome State Fault Refusal :=
  .next (s.onPlant (fun p => takeLowered p crane sequence))

/-- R161, R169, R170: a STOPPED report. -/
def execStopped (crane : Fin 3) (sequence bay : Nat) (s : State) : Host.Outcome State Fault Refusal :=
  .next (s.onPlant (fun p => takeStopped p crane sequence bay))

/-- R167: a HOMED report. -/
def execHomed (crane : Fin 3) (sequence bay : Nat) (s : State) : Host.Outcome State Fault Refusal :=
  .next (s.onPlant (fun p => takeHomed p crane sequence bay))

/-- R163, R164: a FAULT report, taken whatever its sequence number (R158). -/
def execFault (crane : Fin 3) (_sequence code bay : Nat) (s : State) : Host.Outcome State Fault Refusal :=
  .next (s.onPlant (fun p => takeFault p crane code bay))

/-- R158: bytes received on a crane link; all but a good report are dropped, with PROTOCOL where R158 says (log 21). -/
def execCraneMessageDropped (crane : Fin 3) (bytes : List Byte) (s : State) : Host.Outcome State Fault Refusal :=
  .next (s.onPlant (fun p => takeCraneBytes p crane bytes))

/-- R205: a WRITE FRAME transfer; without effect while the port reset line is held low (R214). -/
def execWriteFrame (resetLow : Bool) (bytes : List Byte) (s : State) : Host.Outcome State Fault Refusal :=
  .next (if resetLow then s else writeFrame bytes s)

/-- R209: a READ RESULT transfer; without effect while the port reset line is held low (R214). -/
def execReadResult (resetLow : Bool) (clocked : Nat) (s : State) : Host.Outcome State Fault Refusal :=
  .next (if resetLow then s else readResult clocked s)

/-- R203, R204: a READ STATUS transfer; without effect while the port reset line is held low (R214). -/
def execReadStatus (resetLow : Bool) (clocked : Nat) (s : State) : Host.Outcome State Fault Refusal :=
  .next (if resetLow then s else readStatus clocked s)

/-- R203: a transfer with another type byte; without effect while the port reset line is held low (R214). -/
def execUnknownTypeByte (resetLow : Bool) (typeByte : Byte) (s : State) : Host.Outcome State Fault Refusal :=
  .next (if resetLow then s else bareTransfer typeByte s)

/-- R207: a frame with an unknown code, bad flags or a disallowed length, given to the port (log 6). -/
def execInvalidCommand (hd : Header) (code : Nat) (s : State) : Host.Outcome State Fault Refusal :=
  .next (deliver ⟨hd.tag, code, hd.after, none, .waiting⟩ s)

/-- R22 to R24: the scan unit examines the next slot of a running FIND. -/
def execScanExamine (s : State) : Host.Outcome State Fault Refusal :=
  .next (examineSlot s)

/-- R194: OPEN WORKS given to the Command Port (log 6). -/
def execOpenWorks (hd : Header) (s : State) : Host.Outcome State Fault Refusal :=
  .next (give hd .openWorks s)

/-- R195: READ WORKS given to the Command Port (log 6). -/
def execReadWorks (hd : Header) (s : State) : Host.Outcome State Fault Refusal :=
  .next (give hd .readWorks s)

/-- R215: SETTINGS given to the Command Port (log 6). -/
def execSettings (hd : Header) (period purge maxTemp t1 t2 t3 threshold home stage : Nat) (s : State) : Host.Outcome State Fault Refusal :=
  .next (give hd (.settings period purge maxTemp t1 t2 t3 threshold home stage) s)

/-- R216: LOCK SETTINGS given to the Command Port (log 6). -/
def execLockSettings (hd : Header) (value : Nat) (s : State) : Host.Outcome State Fault Refusal :=
  .next (give hd (.lockSettings value) s)

/-- R216: READ SETTINGS given to the Command Port (log 6). -/
def execReadSettings (hd : Header) (s : State) : Host.Outcome State Fault Refusal :=
  .next (give hd .readSettings s)

/-- R210: SENSE given to the Command Port (log 6). -/
def execSense (hd : Header) (s : State) : Host.Outcome State Fault Refusal :=
  .next (give hd .sense s)

/-- R196: RESTORE BED given to the Command Port (log 6). -/
def execRestoreBed (hd : Header) (state bed maturity segment minutes : Nat) (holds : List Nat) (entries : List MarkWord) (s : State) : Host.Outcome State Fault Refusal :=
  .next (give hd (.restoreBed state bed maturity segment minutes holds entries) s)

/-- R198: RESTORE PIECE given to the Command Port (log 6). -/
def execRestorePiece (hd : Header) (mark : MarkWord) (maturity holds kind object : Nat) (s : State) : Host.Outcome State Fault Refusal :=
  .next (give hd (.restorePiece mark maturity holds kind object) s)

/-- R7: LOOKUP MARK given to the Command Port (log 6). -/
def execLookupMark (hd : Header) (mark : MarkWord) (s : State) : Host.Outcome State Fault Refusal :=
  .next (give hd (.lookupMark mark) s)

/-- R8: READ PIECE given to the Command Port (log 6). -/
def execReadPiece (hd : Header) (piece : Handle) (s : State) : Host.Outcome State Fault Refusal :=
  .next (give hd (.readPiece piece) s)

/-- R14: DEFINE CLASS given to the Command Port (log 6). -/
def execDefineClass (hd : Header) (cls choice length weight threshold tier : Nat) (s : State) : Host.Outcome State Fault Refusal :=
  .next (give hd (.defineClass cls choice length weight threshold tier) s)

/-- R15: READ CLASS given to the Command Port (log 6). -/
def execReadClass (hd : Header) (cls : Nat) (s : State) : Host.Outcome State Fault Refusal :=
  .next (give hd (.readClass cls) s)

/-- R17: HOLD given to the Command Port (log 6). -/
def execHold (hd : Header) (piece : Handle) (value : Nat) (s : State) : Host.Outcome State Fault Refusal :=
  .next (give hd (.hold piece value) s)

/-- R18: RELEASE HOLD given to the Command Port (log 6). -/
def execReleaseHold (hd : Header) (piece : Handle) (value : Nat) (s : State) : Host.Outcome State Fault Refusal :=
  .next (give hd (.releaseHold piece value) s)

/-- R19: SCRAP PIECE given to the Command Port (log 6). -/
def execScrapPiece (hd : Header) (piece : Handle) (s : State) : Host.Outcome State Fault Refusal :=
  .next (give hd (.scrapPiece piece) s)

/-- R21: FIND given to the Command Port (log 6). -/
def execFind (hd : Header) (params : FindParams) (s : State) : Host.Outcome State Fault Refusal :=
  .next (give hd (.find params) s)

/-- R28: CONFIGURE BED given to the Command Port (log 6). -/
def execConfigureBed (hd : Header) (bed bay positions setpoint : Nat) (s : State) : Host.Outcome State Fault Refusal :=
  .next (give hd (.configureBed bed bay positions setpoint) s)

/-- R29: PREPARE BED given to the Command Port (log 6). -/
def execPrepareBed (hd : Header) (bed : Nat) (s : State) : Host.Outcome State Fault Refusal :=
  .next (give hd (.prepareBed bed) s)

/-- R30: ABANDON BED given to the Command Port (log 6). -/
def execAbandonBed (hd : Header) (bed : Nat) (s : State) : Host.Outcome State Fault Refusal :=
  .next (give hd (.abandonBed bed) s)

/-- R31: CAST given to the Command Port (log 6). -/
def execCast (hd : Header) (bed : Nat) (entries : List MarkWord) (s : State) : Host.Outcome State Fault Refusal :=
  .next (give hd (.cast bed entries) s)

/-- R33: START CURE given to the Command Port (log 6). -/
def execStartCure (hd : Header) (bed : Nat) (s : State) : Host.Outcome State Fault Refusal :=
  .next (give hd (.startCure bed) s)

/-- R34: RELEASE STRAND given to the Command Port (log 6). -/
def execReleaseStrand (hd : Header) (bed : Nat) (s : State) : Host.Outcome State Fault Refusal :=
  .next (give hd (.releaseStrand bed) s)

/-- R39: SCRAP BED given to the Command Port (log 6). -/
def execScrapBed (hd : Header) (bed : Nat) (s : State) : Host.Outcome State Fault Refusal :=
  .next (give hd (.scrapBed bed) s)

/-- R43: BED PRIORITY given to the Command Port (log 6). -/
def execBedPriority (hd : Header) (bed level : Nat) (s : State) : Host.Outcome State Fault Refusal :=
  .next (give hd (.bedPriority bed level) s)

/-- R44: READ BED given to the Command Port (log 6). -/
def execReadBed (hd : Header) (bed : Nat) (s : State) : Host.Outcome State Fault Refusal :=
  .next (give hd (.readBed bed) s)

/-- R49: HEAT MODE given to the Command Port (log 6). -/
def execHeatMode (hd : Header) (bed mode : Nat) (s : State) : Host.Outcome State Fault Refusal :=
  .next (give hd (.heatMode bed mode) s)

/-- R57: LOAD PLAN given to the Command Port (log 6). -/
def execLoadPlan (hd : Header) (bed : Nat) (plan : List Segment) (s : State) : Host.Outcome State Fault Refusal :=
  .next (give hd (.loadPlan bed plan) s)

/-- R59: SWAP PLAN given to the Command Port (log 6). -/
def execSwapPlan (hd : Header) (bed : Nat) (s : State) : Host.Outcome State Fault Refusal :=
  .next (give hd (.swapPlan bed) s)

/-- R63: STOP CURE given to the Command Port (log 6). -/
def execStopCure (hd : Header) (bed : Nat) (s : State) : Host.Outcome State Fault Refusal :=
  .next (give hd (.stopCure bed) s)

/-- R65: READ PLAN given to the Command Port (log 6). -/
def execReadPlan (hd : Header) (bed : Nat) (s : State) : Host.Outcome State Fault Refusal :=
  .next (give hd (.readPlan bed) s)

/-- R83: READ INTAKE given to the Command Port (log 6). -/
def execReadIntake (hd : Header) (bed : Nat) (s : State) : Host.Outcome State Fault Refusal :=
  .next (give hd (.readIntake bed) s)

/-- R95: DEFINE STACK given to the Command Port (log 6). -/
def execDefineStack (hd : Header) (stack choice bay tiers load : Nat) (s : State) : Host.Outcome State Fault Refusal :=
  .next (give hd (.defineStack stack choice bay tiers load) s)

/-- R96: CLOSE STACK given to the Command Port (log 6). -/
def execCloseStack (hd : Header) (stack : Nat) (s : State) : Host.Outcome State Fault Refusal :=
  .next (give hd (.closeStack stack) s)

/-- R96: OPEN STACK given to the Command Port (log 6). -/
def execOpenStack (hd : Header) (stack : Nat) (s : State) : Host.Outcome State Fault Refusal :=
  .next (give hd (.openStack stack) s)

/-- R97: READ STACK given to the Command Port (log 6). -/
def execReadStack (hd : Header) (stack : Nat) (s : State) : Host.Outcome State Fault Refusal :=
  .next (give hd (.readStack stack) s)

/-- R104: DEFINE LANE given to the Command Port (log 6). -/
def execDefineLane (hd : Header) (lane choice bay : Nat) (s : State) : Host.Outcome State Fault Refusal :=
  .next (give hd (.defineLane lane choice bay) s)

/-- R103: DRAIN LANE given to the Command Port (log 6). -/
def execDrainLane (hd : Header) (lane value : Nat) (s : State) : Host.Outcome State Fault Refusal :=
  .next (give hd (.drainLane lane value) s)

/-- R105: READ LANE given to the Command Port (log 6). -/
def execReadLane (hd : Header) (lane : Nat) (s : State) : Host.Outcome State Fault Refusal :=
  .next (give hd (.readLane lane) s)

/-- R107: DEFINE TRUCK BAY given to the Command Port (log 6). -/
def execDefineTruckBay (hd : Header) (truck choice bay : Nat) (s : State) : Host.Outcome State Fault Refusal :=
  .next (give hd (.defineTruckBay truck choice bay) s)

/-- R117: MOVE given to the Command Port (log 6). -/
def execMove (hd : Header) (piece : Handle) (kind object level after dig : Nat) (s : State) : Host.Outcome State Fault Refusal :=
  .next (give hd (.move piece kind object level after dig) s)

/-- R120: STRIP BED given to the Command Port (log 6). -/
def execStripBed (hd : Header) (bed level after : Nat) (s : State) : Host.Outcome State Fault Refusal :=
  .next (give hd (.stripBed bed level after) s)

/-- R133: CANCEL MOVE given to the Command Port (log 6). -/
def execCancelMove (hd : Header) (ticket : Handle) (s : State) : Host.Outcome State Fault Refusal :=
  .next (give hd (.cancelMove ticket) s)

/-- R136: READ MOVE given to the Command Port (log 6). -/
def execReadMove (hd : Header) (ticket : Handle) (s : State) : Host.Outcome State Fault Refusal :=
  .next (give hd (.readMove ticket) s)

/-- R149: PARK CRANE given to the Command Port (log 6). -/
def execParkCrane (hd : Header) (crane bay level : Nat) (s : State) : Host.Outcome State Fault Refusal :=
  .next (give hd (.parkCrane crane bay level) s)

/-- R168: CONFIGURE CRANE given to the Command Port (log 6). -/
def execConfigureCrane (hd : Header) (crane bay : Nat) (s : State) : Host.Outcome State Fault Refusal :=
  .next (give hd (.configureCrane crane bay) s)

/-- R167: HOME CRANE given to the Command Port (log 6). -/
def execHomeCrane (hd : Header) (crane : Nat) (s : State) : Host.Outcome State Fault Refusal :=
  .next (give hd (.homeCrane crane) s)

/-- R166: CLEAR CRANE given to the Command Port (log 6). -/
def execClearCrane (hd : Header) (crane : Nat) (s : State) : Host.Outcome State Fault Refusal :=
  .next (give hd (.clearCrane crane) s)

/-- R171: READ CRANE given to the Command Port (log 6). -/
def execReadCrane (hd : Header) (crane : Nat) (s : State) : Host.Outcome State Fault Refusal :=
  .next (give hd (.readCrane crane) s)

/-- R176: OPEN ORDER given to the Command Port (log 6). -/
def execOpenOrder (hd : Header) (truck level dig : Nat) (pieces : List Handle) (s : State) : Host.Outcome State Fault Refusal :=
  .next (give hd (.openOrder truck level dig pieces) s)

/-- R178: ADD TO ORDER given to the Command Port (log 6). -/
def execAddToOrder (hd : Header) (truck : Nat) (pieces : List Handle) (s : State) : Host.Outcome State Fault Refusal :=
  .next (give hd (.addToOrder truck pieces) s)

/-- R179: ORDER LEVEL given to the Command Port (log 6). -/
def execOrderLevel (hd : Header) (truck level : Nat) (s : State) : Host.Outcome State Fault Refusal :=
  .next (give hd (.orderLevel truck level) s)

/-- R186: CANCEL ORDER given to the Command Port (log 6). -/
def execCancelOrder (hd : Header) (truck : Nat) (s : State) : Host.Outcome State Fault Refusal :=
  .next (give hd (.cancelOrder truck) s)

/-- R187: SHIP ORDER given to the Command Port (log 6). -/
def execShipOrder (hd : Header) (truck : Nat) (s : State) : Host.Outcome State Fault Refusal :=
  .next (give hd (.shipOrder truck) s)

/-- R188: READ ORDER given to the Command Port (log 6). -/
def execReadOrder (hd : Header) (truck : Nat) (s : State) : Host.Outcome State Fault Refusal :=
  .next (give hd (.readOrder truck) s)

end Sys2Proof.Machine
end

