-- ==== Sys2Proof/Machine/Dispatch.lean ====
section
/-! DEFINITION. Each row of spec/opcode_table.json and its meaning. -/

namespace Sys2Proof.Machine

def exec (i : Instr) (s : State) : Host.Outcome State Fault Refusal :=
  match i with
  | .powerOn stopAsserted => Sys2Proof.Machine.execPowerOn stopAsserted s
  | .portReset => Sys2Proof.Machine.execPortReset s
  | .plantStopAsserted => Sys2Proof.Machine.execPlantStopAsserted s
  | .plantStopReleased => Sys2Proof.Machine.execPlantStopReleased s
  | .worksClockAdvance => Sys2Proof.Machine.execWorksClockAdvance s
  | .transitionEnd bed => Sys2Proof.Machine.execTransitionEnd bed s
  | .segmentEnd bed => Sys2Proof.Machine.execSegmentEnd bed s
  | .gapExpiry bed => Sys2Proof.Machine.execGapExpiry bed s
  | .lostExpiry bed => Sys2Proof.Machine.execLostExpiry bed s
  | .stageTimeout crane => Sys2Proof.Machine.execStageTimeout crane s
  | .homingTimeout crane => Sys2Proof.Machine.execHomingTimeout crane s
  | .sample bed sequence temperature status => Sys2Proof.Machine.execSample bed sequence temperature status s
  | .bedLineMessageDropped bed bytes => Sys2Proof.Machine.execBedLineMessageDropped bed bytes s
  | .heatOrderWrite bed => Sys2Proof.Machine.execHeatOrderWrite bed s
  | .craneOrderWrite crane => Sys2Proof.Machine.execCraneOrderWrite crane s
  | .arrived crane sequence => Sys2Proof.Machine.execArrived crane sequence s
  | .lifted crane sequence weight => Sys2Proof.Machine.execLifted crane sequence weight s
  | .lowered crane sequence => Sys2Proof.Machine.execLowered crane sequence s
  | .stopped crane sequence bay => Sys2Proof.Machine.execStopped crane sequence bay s
  | .homed crane sequence bay => Sys2Proof.Machine.execHomed crane sequence bay s
  | .fault crane sequence code bay => Sys2Proof.Machine.execFault crane sequence code bay s
  | .craneMessageDropped crane bytes => Sys2Proof.Machine.execCraneMessageDropped crane bytes s
  | .writeFrame resetLow bytes => Sys2Proof.Machine.execWriteFrame resetLow bytes s
  | .readResult resetLow clocked => Sys2Proof.Machine.execReadResult resetLow clocked s
  | .readStatus resetLow clocked => Sys2Proof.Machine.execReadStatus resetLow clocked s
  | .unknownTypeByte resetLow typeByte => Sys2Proof.Machine.execUnknownTypeByte resetLow typeByte s
  | .invalidCommand hd code => Sys2Proof.Machine.execInvalidCommand hd code s
  | .scanExamine => Sys2Proof.Machine.execScanExamine s
  | .openWorks hd => Sys2Proof.Machine.execOpenWorks hd s
  | .readWorks hd => Sys2Proof.Machine.execReadWorks hd s
  | .settings hd period purge maxTemp t1 t2 t3 threshold home stage => Sys2Proof.Machine.execSettings hd period purge maxTemp t1 t2 t3 threshold home stage s
  | .lockSettings hd value => Sys2Proof.Machine.execLockSettings hd value s
  | .readSettings hd => Sys2Proof.Machine.execReadSettings hd s
  | .sense hd => Sys2Proof.Machine.execSense hd s
  | .restoreBed hd state bed maturity segment minutes holds entries => Sys2Proof.Machine.execRestoreBed hd state bed maturity segment minutes holds entries s
  | .restorePiece hd mark maturity holds kind object => Sys2Proof.Machine.execRestorePiece hd mark maturity holds kind object s
  | .lookupMark hd mark => Sys2Proof.Machine.execLookupMark hd mark s
  | .readPiece hd piece => Sys2Proof.Machine.execReadPiece hd piece s
  | .defineClass hd cls choice length weight threshold tier => Sys2Proof.Machine.execDefineClass hd cls choice length weight threshold tier s
  | .readClass hd cls => Sys2Proof.Machine.execReadClass hd cls s
  | .hold hd piece value => Sys2Proof.Machine.execHold hd piece value s
  | .releaseHold hd piece value => Sys2Proof.Machine.execReleaseHold hd piece value s
  | .scrapPiece hd piece => Sys2Proof.Machine.execScrapPiece hd piece s
  | .find hd params => Sys2Proof.Machine.execFind hd params s
  | .configureBed hd bed bay positions setpoint => Sys2Proof.Machine.execConfigureBed hd bed bay positions setpoint s
  | .prepareBed hd bed => Sys2Proof.Machine.execPrepareBed hd bed s
  | .abandonBed hd bed => Sys2Proof.Machine.execAbandonBed hd bed s
  | .cast hd bed entries => Sys2Proof.Machine.execCast hd bed entries s
  | .startCure hd bed => Sys2Proof.Machine.execStartCure hd bed s
  | .releaseStrand hd bed => Sys2Proof.Machine.execReleaseStrand hd bed s
  | .scrapBed hd bed => Sys2Proof.Machine.execScrapBed hd bed s
  | .bedPriority hd bed level => Sys2Proof.Machine.execBedPriority hd bed level s
  | .readBed hd bed => Sys2Proof.Machine.execReadBed hd bed s
  | .heatMode hd bed mode => Sys2Proof.Machine.execHeatMode hd bed mode s
  | .loadPlan hd bed plan => Sys2Proof.Machine.execLoadPlan hd bed plan s
  | .swapPlan hd bed => Sys2Proof.Machine.execSwapPlan hd bed s
  | .stopCure hd bed => Sys2Proof.Machine.execStopCure hd bed s
  | .readPlan hd bed => Sys2Proof.Machine.execReadPlan hd bed s
  | .readIntake hd bed => Sys2Proof.Machine.execReadIntake hd bed s
  | .defineStack hd stack choice bay tiers load => Sys2Proof.Machine.execDefineStack hd stack choice bay tiers load s
  | .closeStack hd stack => Sys2Proof.Machine.execCloseStack hd stack s
  | .openStack hd stack => Sys2Proof.Machine.execOpenStack hd stack s
  | .readStack hd stack => Sys2Proof.Machine.execReadStack hd stack s
  | .defineLane hd lane choice bay => Sys2Proof.Machine.execDefineLane hd lane choice bay s
  | .drainLane hd lane value => Sys2Proof.Machine.execDrainLane hd lane value s
  | .readLane hd lane => Sys2Proof.Machine.execReadLane hd lane s
  | .defineTruckBay hd truck choice bay => Sys2Proof.Machine.execDefineTruckBay hd truck choice bay s
  | .move hd piece kind object level after dig => Sys2Proof.Machine.execMove hd piece kind object level after dig s
  | .stripBed hd bed level after => Sys2Proof.Machine.execStripBed hd bed level after s
  | .cancelMove hd ticket => Sys2Proof.Machine.execCancelMove hd ticket s
  | .readMove hd ticket => Sys2Proof.Machine.execReadMove hd ticket s
  | .parkCrane hd crane bay level => Sys2Proof.Machine.execParkCrane hd crane bay level s
  | .configureCrane hd crane bay => Sys2Proof.Machine.execConfigureCrane hd crane bay s
  | .homeCrane hd crane => Sys2Proof.Machine.execHomeCrane hd crane s
  | .clearCrane hd crane => Sys2Proof.Machine.execClearCrane hd crane s
  | .readCrane hd crane => Sys2Proof.Machine.execReadCrane hd crane s
  | .openOrder hd truck level dig pieces => Sys2Proof.Machine.execOpenOrder hd truck level dig pieces s
  | .addToOrder hd truck pieces => Sys2Proof.Machine.execAddToOrder hd truck pieces s
  | .orderLevel hd truck level => Sys2Proof.Machine.execOrderLevel hd truck level s
  | .cancelOrder hd truck => Sys2Proof.Machine.execCancelOrder hd truck s
  | .shipOrder hd truck => Sys2Proof.Machine.execShipOrder hd truck s
  | .readOrder hd truck => Sys2Proof.Machine.execReadOrder hd truck s

end Sys2Proof.Machine
end

