-- ==== Sys2Proof/Machine/Step.lean ====
section
/-! DEFINITION. One step: the row at the front of the pending queue is taken. -/

namespace Sys2Proof.Machine

/-- A step: the row at the front of `pending` is executed on the state with the queue's rest; on an empty queue the part
takes a timer event that is due, or idles where none is (log 4, log 7). -/
def step (s : State) : Host.Outcome State Fault Refusal :=
  match s.pending with
  | i :: rest => exec i { s with pending := rest }
  | [] => .next (idle s)

/-- The state with the row that a table word spells put at the front of its queue; the table gives no row bits, so the
word spells none and the state is unchanged. -/
def State.withFetchWord (s : State) (nbits w : Nat) : State :=
  match decodeTableWord nbits w with
  | some i => { s with pending := i :: s.pending }
  | none => s

end Sys2Proof.Machine
end

