-- ==== Sys2Proof/Safety.lean ====
section
/-! DEFINITION. The words in which the statements about the machine are made: a ready Command Port and the state after an
answered command, the parts of the yard that the follow-up work of a change never writes, what the end of a ticket, the
end of a listing, a source claim and a listing change, and the invariants that every step keeps. -/

namespace Sys2Proof.Machine

/-! ## A command that runs at once -/

/-- The Command Port takes a command at once and posts its result: no entry waits and the result queue has room
(R205, R206, R209). -/
def State.ready (s : State) : Prop := s.port.commandQueue = [] ∧ s.port.resultQueue.length < 8

/-- The state after a command has run and posted its result: the plant `p`, the result frame at the back of the result
queue (R209, R217), everything else as it was. -/
def State.answered (s : State) (hd : Header) (c : Command) (r : Reply) (p : Plant) : State :=
  { s with
    plant := p
    port := { s.port with resultQueue := s.port.resultQueue ++ [resultFrame hd.tag (commandCode c) r] } }

/-- The state after an accepted command. -/
def State.accepted (s : State) (hd : Header) (c : Command) (fields : List Byte) (p : Plant) : State :=
  s.answered hd c ⟨.ok, fields⟩ p

/-- The state after a refused command: nothing but the result (R208). -/
def State.refused (s : State) (hd : Header) (c : Command) (code : Code) (fields : List Byte) : State :=
  s.answered hd c ⟨code, fields⟩ s.plant

/-- R208: the row is a command that completes with this refusal and these fields, and changes nothing but the result. -/
def refuses (i : Instr) (s : State) (code : Code) (fields : List Byte) : Prop :=
  ∃ hd c, i.command? = some (hd, c) ∧ exec i s = .next (s.refused hd c code fields)

/-! ## What follow-up work never writes -/

/-- A piece slot without the ticket field of its record. -/
def PieceSlot.fixed (ps : PieceSlot) : PieceSlot := { ps with piece := ps.piece.map (fun p => { p with ticket := none }) }

/-- A stack without its claim list, dig lock and buried count. -/
def StackRecord.fixed (r : StackRecord) : StackRecord := { r with claims := [], digLock := false, buried := 0 }

/-- A lane without its reservations. -/
def LaneRecord.fixed (r : LaneRecord) : LaneRecord := { r with reservations := 0 }

/-- A truck bay without its current pick. -/
def TruckRecord.fixed (r : TruckRecord) : TruckRecord := { r with currentPick := none }

/-- A crane record without its state, current ticket, next sequence, stage order and report timer. -/
def CraneRecord.fixed (c : CraneRecord) : CraneRecord :=
  { c with state := .idle, current := none, nextSeq := 0, stage := none, timer := none }

/-- The yard without what the follow-up work of a change and the arbiter write: of each record the fields that they
leave as they are, of each ticket slot its generation, and the finished list. -/
def Yard.fixed (y : Yard) : Yard where
  pieces := y.pieces.map PieceSlot.fixed
  stackRecs := y.stackRecs.map StackRecord.fixed
  lanes := y.lanes.map LaneRecord.fixed
  trucks := y.trucks.map TruckRecord.fixed
  tickets := y.tickets.map (fun ts => ⟨ts.gen, none⟩)
  moveQueue := []
  finished := y.finished
  arbiter := Vector.replicate 3 ⟨none, none⟩
  cranes := y.cranes.map CraneRecord.fixed
  links := Vector.replicate 3 ⟨none, []⟩

/-- What a ticket keeps while it is active: all but its effective level, crane, state, wait reasons, and a destination
given to it with REDIRECTED. -/
def Ticket.fixed (t : Ticket) : Ticket :=
  { t with level := 0, crane := none, state := .pending, waits := .none, dest := none, redirected := false }

/-- What the follow-up work of a change and the arbiter keep of the records that they do write: the move queue only
grows at its back; a ticket keeps its fixed fields and a destination it has; a finished ticket and a piece named by a
ticket stand as they are; a bound ticket stays bound. -/
def Yard.keeps (y y' : Yard) : Prop :=
  (∃ more, y'.moveQueue = y.moveQueue ++ more)
    ∧ (∀ slot t, y.ticketAt slot = some t → ∃ t', y'.ticketAt slot = some t' ∧ t'.fixed = t.fixed
        ∧ (t.dest.isSome = true → t'.dest = t.dest) ∧ (t.state.isActive = false → t' = t))
    ∧ (∀ slot p, y.pieceAt slot = some p → p.ticket.isSome = true → y'.pieceAt slot = some p)
    ∧ ∀ k h, (y.arb k).bound = some h → (y'.arb k).bound = some h

/-- R12, R177, R178: from the yard `y` to `y1`, truck bay `n` becomes `truck` and each piece of the list `hs` takes `n` in
its order field; nothing else changes. -/
def Yard.lists (y : Yard) (n : Nat) (hs : List Handle) (truck : TruckRecord) (y1 : Yard) : Prop :=
  y1.truck n = truck ∧ (∀ j, j ≠ n → y1.truck j = y.truck j)
    ∧ (∀ h ∈ hs, y1.pieceSlot h.slot
        = ⟨(y.pieceSlot h.slot).gen, (y.pieceAt h.slot).map (fun r => { r with order := some n })⟩)
    ∧ (∀ j, (∀ h ∈ hs, h.slot ≠ j) → y1.pieceSlot j = y.pieceSlot j)
    ∧ { y1 with pieces := y.pieces, trucks := y.trucks } = y

/-- R119, R94, R126: the source claim of a new ticket `h` for the piece `p` of stack `i`, from the yard `y` to `y1`. The
projection top takes a LIFT claim, behind which stand the LIFT claims of the buried tickets that it lets follow, each out of
the buried count; where the stack has no buried ticket there are none. Any other piece of the stack is buried. -/
def Yard.sourceClaimed (y : Yard) (i : Nat) (p h : Handle) (y1 : Yard) : Prop :=
  ((projection y i).getLast? ≠ some p →
      y1.stack i = { y.stack i with buried := (y.stack i).buried + 1, digLock := true })
    ∧ ((projection y i).getLast? = some p → ∃ more : List Claim, (∀ c ∈ more, c.kind = .lift)
      ∧ ((∀ j ∈ y.moveQueue, buriedIn y j ≠ some i) → more = [])
      ∧ y1.stack i = { y.stack i with
          claims := (y.stack i).claims ++ ⟨.lift, h⟩ :: more
          buried := (y.stack i).buried - more.length
          digLock := if more = [] then (y.stack i).digLock else decide (more.length < (y.stack i).buried) })

/-- R132: what the end of ticket `t` in slot `i` does, from the yard `y` to `y1`, the cranes, their links and the truck bays
aside. The ticket has the state and the outcome and enters the finished list; its piece loses its ticket field; its LIFT and
PLACE claims leave their stacks, its reservation its lane, and a PENDING or READY ticket without a LIFT claim takes one from
the buried count of its stack (R94). A removed claim starts the repair of its list, which may take the destination of another
ticket (R93) and changes no stack's pieces. -/
def Yard.ticketEnds (y : Yard) (i : Nat) (t : Ticket) (st : TicketState) (outcome : TicketOutcome) (y1 : Yard) : Prop :=
  (∃ u, y1.ticketAt i = some u ∧ { u with dest := t.dest } = { t with state := st, outcome := outcome, waits := .none })
    ∧ (∀ j, (y1.ticketSlot j).gen = (y.ticketSlot j).gen)
    ∧ (∀ j, j ≠ i → y1.ticketAt j = y.ticketAt j ∨ y1.ticketAt j = (y.ticketAt j).map (fun u => { u with dest := none }))
    ∧ y1.finished = y.finished ++ [i] ∧ y1.moveQueue = y.moveQueue ∧ y1.arbiter = y.arbiter
    ∧ (∀ j, (∃ q, t.piece = some q ∧ q.slot = j) → y1.pieceSlot j
        = ⟨(y.pieceSlot j).gen, (y.pieceAt j).map (fun r => { r with ticket := none })⟩)
    ∧ (∀ j, (∀ q, t.piece = some q → q.slot ≠ j) → y1.pieceSlot j = y.pieceSlot j)
    ∧ (∀ s, (y1.stack s).fixed = (y.stack s).fixed)
    ∧ (∀ s, (∀ tier, t.source ≠ some (.stack s tier)) → t.dest ≠ some (.stack s) → y1.stack s = y.stack s)
    ∧ (∀ s tier, t.source = some (.stack s tier) → (y.stack s).claims.count ⟨.lift, y.ticketHandle i⟩ ≤ 1 →
        ⟨.lift, y.ticketHandle i⟩ ∉ (y1.stack s).claims)
    ∧ (∀ s tier, t.source = some (.stack s tier) → s < 40 → t.state = .pending ∨ t.state = .ready →
        ⟨.lift, y.ticketHandle i⟩ ∉ (y.stack s).claims → t.dest ≠ some (.stack s) →
        (y1.stack s).buried = (y.stack s).buried - 1 ∧ (y1.stack s).digLock = decide (1 < (y.stack s).buried))
    ∧ (∀ s, t.dest = some (.stack s) → (y.stack s).claims.count ⟨.place, y.ticketHandle i⟩ ≤ 1 →
        ⟨.place, y.ticketHandle i⟩ ∉ (y1.stack s).claims)
    ∧ (∀ l, t.dest = some (.lane l) → l < 2 →
        y1.lane l = { y.lane l with reservations := (y.lane l).reservations - 1 })
    ∧ ∀ l, t.dest ≠ some (.lane l) → y1.lane l = y.lane l

/-- R132, R181: the truck bays at the end of the ticket with handle `h`: one whose current pick it is loses it. -/
def Yard.picksEnd (y : Yard) (h : Handle) (y1 : Yard) : Prop :=
  ∀ n, y1.truck n = if (y.truck n).currentPick = some h then { y.truck n with currentPick := none } else y.truck n

/-- R183: what the end of a listing does to the current pick, ticket `t` in slot `i`, from the yard `y` to `y1`, the truck bays
aside. In PENDING, READY and GRANTED it is withdrawn (R132, R134): it ends, and a GRANTED one's crane is sent STOP (R161). In
LIFTING it takes the hold-pending mark (R184); in LIFTED it loses its destination and is searched for (R185); in any other state
it stays as it is. -/
def Yard.pickLeft (e : Site) (y : Yard) (i : Nat) (t : Ticket) (y1 : Yard) : Prop :=
  (t.state = .pending ∨ t.state = .ready ∨ t.state = .granted →
      y.ticketEnds i t .cancelled .withdrawn y1
      ∧ (t.state ≠ .granted ∨ t.crane = none → y1.cranes = y.cranes ∧ y1.links = y.links)
      ∧ ∀ k c, t.state = .granted → t.crane = some k → k < 3 → c = y.crane k →
        y1.crane k = { c with
          stage := none
          current := none
          stopOrder := some c.nextSeq
          nextSeq := (c.nextSeq + 1) % 256
          timer := if c.halted then c.timer else some ⟨e.settings.stageTimeout, false⟩ }
        ∧ y1.link k = (y.link k).put (linkFrame 0x44 c.nextSeq [])
        ∧ ∀ j, j ≠ k → y1.crane j = y.crane j ∧ y1.link j = y.link j)
    ∧ (t.state = .lifting → y1.ticketAt i = some { t with holdPending := true }
      ∧ (∀ j, j ≠ i → y1.ticketSlot j = y.ticketSlot j)
      ∧ { y1 with tickets := y.tickets, trucks := y.trucks } = y)
    ∧ (t.state = .lifted → ∃ y0 : Yard,
      y0.ticketSlot i = ⟨(y.ticketSlot i).gen, some { t with dest := none, waits := { t.waits with redirect := true } }⟩
      ∧ (∀ j, j ≠ i → y0.ticketSlot j = y.ticketSlot j) ∧ { y0 with tickets := y.tickets } = y
      ∧ { y1 with trucks := y.trucks } = redirectOne e y0 i)
    ∧ (t.state = .setting ∨ t.state.isActive = false → { y1 with trucks := y.trucks } = y)

/-- R193: the commands that the CLOSED phase refuses. -/
def openOnly : Command → Bool
  | .openWorks | .readWorks | .settings _ _ _ _ _ _ _ _ _ | .lockSettings _ | .readSettings | .sense
  | .restoreBed _ _ _ _ _ _ _ | .restorePiece _ _ _ _ _ | .lookupMark _ | .readPiece _ | .defineClass _ _ _ _ _ _
  | .readClass _ | .find _ | .configureBed _ _ _ _ | .readBed _ | .loadPlan _ _ | .readPlan _ | .readIntake _
  | .defineStack _ _ _ _ _ | .readStack _ | .defineLane _ _ _ | .readLane _ | .defineTruckBay _ _ _ | .readMove _
  | .configureCrane _ _ | .readCrane _ | .readOrder _ => false
  | .hold _ _ | .releaseHold _ _ | .scrapPiece _ | .prepareBed _ | .abandonBed _ | .cast _ _ | .startCure _
  | .releaseStrand _ | .scrapBed _ | .bedPriority _ _ | .heatMode _ _ | .swapPlan _ | .stopCure _ | .closeStack _
  | .openStack _ | .drainLane _ _ | .move _ _ _ _ _ _ | .stripBed _ _ _ | .cancelMove _ | .parkCrane _ _ _
  | .homeCrane _ | .clearCrane _ | .openOrder _ _ _ _ | .addToOrder _ _ | .orderLevel _ _ | .cancelOrder _
  | .shipOrder _ => true

/-! ## Only one bed -/

/-- Nothing but the bed record, the heat record and the bed line of bed `b` differs. -/
def Plant.onlyBed (b : Nat) (s t : Plant) : Prop :=
  t.works = s.works ∧ t.classes = s.classes ∧ t.markMap = s.markMap ∧ t.intake = s.intake ∧ t.yard = s.yard
    ∧ ∀ i, i ≠ b → t.bed i = s.bed i ∧ t.heat i = s.heat i ∧ t.bedLine i = s.bedLine i

/-- R56: nothing but bed `b` differs, its bed record is `bed`, its heat record is `h`, and its order was sent if it is not
the last one sent. -/
def Plant.bedBecomes (b : Nat) (bed : BedRecord) (h : HeatRecord) (s t : Plant) : Prop :=
  Plant.onlyBed b s t ∧ t.bed b = bed ∧ t.heat b = { h with lastOrder := formOrder bed h }
    ∧ t.bedLine b = if formOrder bed h = h.lastOrder then s.bedLine b else (s.bedLine b).put (formOrder bed h)

/-! ## Crane claims (R138) -/

/-- R138: every claim is an interval, and a lower-numbered crane's claim lies below a higher-numbered one's. -/
def Yard.claimsOrdered (y : Yard) : Prop :=
  (∀ k i, y.claim k = some i → i.lo ≤ i.hi)
    ∧ ∀ j k a b, j < k → y.claim j = some a → y.claim k = some b → a.hi < b.lo

/-- R138, as far as R167 keeps it (log 26): every claim is an interval, and the claims of neighbouring cranes lie apart in
crane order. -/
def Yard.claimsApart (y : Yard) : Prop :=
  (∀ k i, y.claim k = some i → i.lo ≤ i.hi)
    ∧ ∀ k a b, y.claim k = some a → y.claim (k + 1) = some b → a.hi < b.lo

/-- R138, R143, R151, R152: the claim of a crane at work holds every bay to which a report on its current ticket can
shrink it. (A PICK that lifts with the hold-pending mark goes to no truck, R184.) -/
def Yard.claimCovers (y : Yard) (e : Site) (k : Nat) : Prop :=
  ((y.crane k).state = .busy ∨ (y.crane k).state = .stopped → y.claim k ≠ none)
    ∧ ∀ slot t, currentTicket y k = some (slot, t) → ∃ c, y.claim k = some c
      ∧ (∀ o, (y.crane k).stage = some o → o.kind = .travel → c.holds o.arg = true)
      ∧ (t.state = .granted → ∀ b ∈ neededBays e y t, c.holds b = true)
      ∧ (t.state = .lifting → ∀ src, t.source = some src → c.holds (sourceBay e y src) = true)
      ∧ ((t.state = .lifting ∧ t.weightFailed = false ∧ t.holdPending = false) ∨ t.state = .lifted ∨ t.state = .setting →
        ∀ d, t.dest = some d → c.holds (destBay y d) = true)

/-- R143: the four states in which a ticket is served by a crane. -/
def TicketState.served : TicketState → Bool
  | .granted | .lifting | .lifted | .setting => true
  | .pending | .ready | .done | .failed | .cancelled => false

/-- R113, R127: what the kind of a ticket says of its fields: a YIELD or PARK has no piece, no source and a bay as its
destination, and is never beyond GRANTED while it is active; any other ticket has a piece and a source, and one whose source is
a hook is never GRANTED or LIFTING. -/
def Ticket.shaped (t : Ticket) : Prop :=
  (t.kind = .yield ∨ t.kind = .park → t.piece = none ∧ t.source = none ∧ (∃ bay, t.dest = some (.bay bay))
      ∧ t.state ≠ .lifting ∧ t.state ≠ .lifted ∧ t.state ≠ .setting)
    ∧ (t.kind ≠ .yield → t.kind ≠ .park → t.piece.isSome = true ∧ t.source.isSome = true)
    ∧ (t.state = .granted ∨ t.state = .lifting → ∀ k, t.source ≠ some (.hook k))

/-- R143, R155, R156, R160: a crane has a current ticket only while BUSY or STOPPED, and that ticket is in one of the four
states and names the crane; and every ticket in one of them is the current ticket of the crane it names. -/
def Yard.serves (y : Yard) : Prop :=
  (∀ k h, k < 3 → (y.crane k).current = some h → ((y.crane k).state = .busy ∨ (y.crane k).state = .stopped)
      ∧ ∃ t, y.ticket? h = some t ∧ t.state.served = true ∧ t.crane = some k)
    ∧ (∀ slot t, y.ticketAt slot = some t → t.state.served = true →
      ∃ k, k < 3 ∧ t.crane = some k ∧ (y.crane k).current = some (y.ticketHandle slot))
    ∧ ∀ slot t, y.ticketAt slot = some t → t.shaped

/-- The command writes the bay of an object (a bed, stack, lane or truck bay: R28, R95, R104, R107), and the ticket names that
object as its source or its destination. -/
def writesBayOf (t : Ticket) : Command → Prop
  | .configureBed b _ _ _ => ∃ n, t.source = some (.bed b n)
  | .defineStack i _ _ _ _ => (∃ tier, t.source = some (.stack i tier)) ∨ t.dest = some (.stack i)
  | .defineLane i _ _ => t.source = some (.lane i) ∨ t.dest = some (.lane i)
  | .defineTruckBay i _ _ => (∃ tier, t.source = some (.truck i tier)) ∨ t.dest = some (.truck i)
  | _ => False

/-- The command that a row brings to the Command Port, as itself or in a frame (R203; log 6). -/
def commandOf : Instr → Option Command
  | .writeFrame _ bytes => (entryOf bytes).cmd
  | i => i.command?.map Prod.snd

/-- The commands that the next step can start: that of the row at the front, and those in the command queue (R206). -/
def State.mayStart (s : State) (c : Command) : Prop :=
  (∃ i rest, s.pending = i :: rest ∧ commandOf i = some c) ∨ ∃ e ∈ s.port.commandQueue, e.cmd = some c

/-! ## Invariants that every step keeps -/

/-- The number of completions before it that an entry waits for, when it has completed (R209). -/
def Entry.rank? (e : Entry) : Option Nat :=
  match e.state with
  | .completed n _ => some n
  | .waiting | .scanning => none

/-- R205, R206, R209: the two queues hold at most 8; the scan unit is busy exactly while one entry is SCANNING; the
completed entries are numbered in the order in which they completed; a completed entry is left only by a full result
queue; and no entry that may start is left waiting. -/
def PortInv (s : State) : Prop :=
  s.port.commandQueue.length ≤ 8 ∧ s.port.resultQueue.length ≤ 8
    ∧ s.port.commandQueue.countP (fun e => decide (e.state = .scanning)) = (if s.port.scan.isSome then 1 else 0)
    ∧ (s.port.commandQueue.filterMap Entry.rank?).Nodup
    ∧ (∀ n ∈ s.port.commandQueue.filterMap Entry.rank?, n < completedCount s.port.commandQueue)
    ∧ (∀ e ∈ s.port.commandQueue, ∀ c, e.cmd = some c → e.code = commandCode c)
    ∧ (s.port.resultQueue.length < 8 → completedCount s.port.commandQueue = 0)
    ∧ findStart s.port.scan.isSome 0 s.port.commandQueue = none

/-- R47, clauses 1 to 4, for one heat record; in the CLOSED phase no heat is requested or run (R64). -/
def HeatRecord.lawful (closed stop : Bool) (h : HeatRecord) : Prop :=
  (h.transition = .none ↔ h.minutes = 0)
    ∧ (h.transition ≠ .none → h.running = .off)
    ∧ (h.transition = .purge → h.requested = .steam)
    ∧ (h.transition = .settle → h.requested = .mat)
    ∧ (h.transition = .none → stop = false → h.running = h.requested)
    ∧ (stop = true → h.running = .off ∧ h.transition = .none)
    ∧ (h.swapPending = true → h.plan = .running)
    ∧ (closed = true → h.requested = .off ∧ h.running = .off ∧ h.transition = .none)

/-- R47, R64, R215: every heat record is lawful, and the settings are within their ranges. -/
def HeatInv (s : State) : Prop :=
  s.plant.works.settings.ok = true
    ∧ ∀ b, b < 12 → (s.plant.heat b).lawful s.plant.isClosed s.plant.works.stop

/-- R56: in OPEN the last heat order of every bed is the order that its records form. -/
def Plant.ordersSent (p : Plant) : Prop :=
  p.isClosed = false → ∀ b, b < 12 → formOrder (p.bed b) (p.heat b) = (p.heat b).lastOrder

/-- R115, R135: the move queue lists each slot in use once, the finished list each finished ticket's slot once. -/
def QueueInv (s : State) : Prop :=
  s.plant.yard.moveQueue.Nodup ∧ s.plant.yard.finished.Nodup
    ∧ (∀ slot, slot ∈ s.plant.yard.moveQueue ↔ (s.plant.yard.ticketAt slot).isSome = true)
    ∧ ∀ slot, slot ∈ s.plant.yard.finished ↔
        ∃ t, s.plant.yard.ticketAt slot = some t ∧ t.state.isActive = false

/-- The number of live records of a class. -/
def Yard.classCount (y : Yard) (c : Nat) : Nat :=
  y.pieces.toList.countP (fun ps => decide (ps.piece.map (fun p => p.cls) = some c))

/-- R1, R6, R13: the mark map holds one entry for each live record and no mark twice; a live record names a defined
class; a class counts its live records; an undefined class holds zeros. -/
def PieceInv (s : State) : Prop :=
  (∀ m slot, (m, slot) ∈ s.plant.markMap ↔ ∃ p, s.plant.yard.pieceAt slot = some p ∧ p.mark = m)
    ∧ (s.plant.markMap.map (fun e => e.1)).Nodup
    ∧ (∀ slot p, s.plant.yard.pieceAt slot = some p → p.cls < 32 ∧ (s.plant.cls p.cls).defined = true)
    ∧ (∀ c, c < 32 → (s.plant.cls c).liveCount = s.plant.yard.classCount c)
    ∧ ∀ c, c < 32 → (s.plant.cls c).defined = false →
        (s.plant.cls c).length = 0 ∧ (s.plant.cls c).weight = 0 ∧ (s.plant.cls c).threshold = 0 ∧ (s.plant.cls c).tier = 0

/-- R1, R4, R113, R114: generations run from 0 to 63, and piece slot 1023 never has 63. -/
def GenInv (s : State) : Prop :=
  (∀ slot, (s.plant.yard.pieceSlot slot).gen < 64) ∧ (s.plant.yard.pieceSlot 1023).gen ≠ 63
    ∧ ∀ slot, (s.plant.yard.ticketSlot slot).gen < 64

/-- The ranges of the counters and levels: works clock (R191), positions and turnover levels (R26), demand levels (R98),
order levels (R174), ticket levels (R113), gap counts (R67), heat counts (R219), sequence numbers and report timers
(R155: a timer that runs has 1 to 60 minutes remaining); and the home bays in crane order (R168). In CLOSED no timer event
is still to be taken (R192; log 4). -/
def RangeInv (s : State) : Prop :=
  s.plant.works.settings.ok = true ∧ s.plant.works.clock ≤ maxU32
    ∧ (∀ b, 1 ≤ (s.plant.bed b).positions ∧ (s.plant.bed b).positions ≤ 8 ∧ (s.plant.bed b).turnover < 4
        ∧ (s.plant.bedLine b).heatCount < 256)
    ∧ (∀ b, (s.plant.intakeOf b).gapCount ≤ 90
        ∧ ((s.plant.intakeOf b).state ≠ .lost → (s.plant.intakeOf b).gapCount < 90))
    ∧ (∀ l, (s.plant.yard.lane l).demand < 4) ∧ (∀ t, (s.plant.yard.truck t).level < 4)
    ∧ (∀ slot t, s.plant.yard.ticketAt slot = some t → t.baseLevel < 4 ∧ t.level < 4)
    ∧ (∀ k, (s.plant.yard.crane k).nextSeq < 256
        ∧ ∀ m, (s.plant.yard.crane k).timer = some m → 1 ≤ m.minutes ∧ m.minutes ≤ 60)
    ∧ (s.plant.isClosed = true → s.events = [])
    ∧ (s.plant.yard.crane 0).homeBay < (s.plant.yard.crane 1).homeBay
    ∧ (s.plant.yard.crane 1).homeBay < (s.plant.yard.crane 2).homeBay ∧ (s.plant.yard.crane 2).homeBay < 64

/-- R94: a stack's dig lock is set exactly while its buried count is above 0. -/
def DigLockInv (s : State) : Prop :=
  ∀ i, (s.plant.yard.stack i).digLock = decide (0 < (s.plant.yard.stack i).buried)

/-- R155, R156: a crane has a current ticket only while BUSY or STOPPED, is halted only while STOPPED, and keeps a fault
code only while FAULTED. -/
def CraneInv (s : State) : Prop :=
  ∀ k, ((s.plant.yard.crane k).current.isSome = true →
          (s.plant.yard.crane k).state = .busy ∨ (s.plant.yard.crane k).state = .stopped)
    ∧ ((s.plant.yard.crane k).halted = true → (s.plant.yard.crane k).state = .stopped)
    ∧ ((s.plant.yard.crane k).faultCode ≠ .none → (s.plant.yard.crane k).state = .faulted)

/-- Every invariant of this file. -/
def State.lawful (s : State) : Prop :=
  PortInv s ∧ HeatInv s ∧ RangeInv s ∧ DigLockInv s ∧ CraneInv s ∧ QueueInv s ∧ PieceInv s ∧ GenInv s
    ∧ s.plant.ordersSent ∧ s.plant.yard.serves ∧ s.plant.yard.claimsOrdered ∧ s.plant.yard.claimsApart
    ∧ ∀ k, k < 3 → s.plant.yard.claimCovers s.plant.site k

end Sys2Proof.Machine
end

