-- ==== Sys2Proof/Certificates/Slice0/Obligations.lean ====
section
/-! DEFINITION. The statements for the provers. A statement about a command is made for a ready Command Port (R205, R206,
R209: no entry waits and the result queue has room), where the command runs at once; what the port does with entries
that wait is said by the statements about the port. -/

open Sys2Proof Sys2Proof.Machine

/-! ## The machine -/

/-- A step takes the row at the front of the pending queue and executes it on the state with the queue's rest. -/
def Obligations.StepRunsFrontRow : Prop :=
  ∀ (i : Instr) (rest : List Instr) (s : State), s.pending = i :: rest → step s = exec i { s with pending := rest }

/-- No row ends in a fault or a refusal, and none touches the pending queue. On an empty queue the part takes one of the timer
events that are due, in OPEN (R192; log 4), which of them being a free value (log 1), and idles where none is (log 7). -/
def Obligations.EveryRowAnswersNext : Prop :=
  (∀ (i : Instr) (s : State), ∃ t, exec i s = .next t ∧ t.pending = s.pending)
    ∧ ∀ s : State, s.pending = [] →
      (s.plant.isClosed = true ∨ s.events = [] → step s = .next s)
      ∧ (s.plant.isClosed = false → s.events ≠ [] → ∃ e, e ∈ s.events ∧ step s = .next { s with
          plant := takeEvent s.plant e, freeCount := s.freeCount + 1 })

/-- R191 and the reset tables of the chapters: what POWER_ON leaves in every record, whatever stood there. -/
def Obligations.PowerOnSetsEveryRecord : Prop :=
  ∀ (stop : Bool) (s : State), ∃ t, exec (.powerOn stop) s = .next t
    ∧ t.plant.works = ⟨.closed, 0, stop, ⟨5, 5, 140, 2, 4, 7, 1, 10, 15⟩, false⟩
    ∧ t.plant.markMap = []
    ∧ (∀ c, c < 32 → t.plant.cls c = ⟨false, 0, 0, 0, 0, 0⟩)
    ∧ (∀ b, b < 12 → t.plant.bed b
          = ⟨false, 0, 1, 60, .vacant, Vector.replicate 8 none, 0, 0, ⟨false, false, false, false, false⟩⟩
        ∧ t.plant.heat b = ⟨.off, .off, .none, 0, [], [], .none, 0, 0, false, ⟨.off, 0⟩, false⟩
        ∧ t.plant.bedLine b = ⟨0, ⟨.off, 0⟩, none, none⟩
        ∧ t.plant.intakeOf b = ⟨.ok, none, 0, none, none, false, false⟩)
    ∧ (∀ i, i < 1024 → t.plant.yard.pieceSlot i = ⟨0, none⟩)
    ∧ (∀ i, i < 40 → t.plant.yard.stack i = ⟨.undefined, 0, 0, 0, [], [], false, 0⟩)
    ∧ (∀ l, l < 2 → t.plant.yard.lane l = ⟨false, 0, [], 0, false, 0⟩)
    ∧ (∀ k, k < 4 → t.plant.yard.truck k = ⟨false, 0, .free, [], [], 0, false, 0, none, false, false⟩)
    ∧ (∀ i, i < 24 → t.plant.yard.ticketSlot i = ⟨0, none⟩)
    ∧ t.plant.yard.moveQueue = [] ∧ t.plant.yard.finished = []
    ∧ (∀ k, k < 3 → t.plant.yard.arb k = ⟨none, none⟩ ∧ t.plant.yard.link k = ⟨none, []⟩
        ∧ ∃ home, [0, 32, 63][k]? = some home
          ∧ t.plant.yard.crane k = ⟨.unhomed, home, none, none, home, .none, 0, 0, none, none, false, none, false, false⟩)
    ∧ t.port = ⟨[], [], false, false, none, []⟩ ∧ t.events = [] ∧ t.pending = s.pending ∧ t.freeCount = s.freeCount

/-- R214, R216: a port reset empties the queues, abandons a FIND, clears the latched flags and, with the lock off, restores
the default settings with both demand levels recomputed; nothing else changes but what follows the recomputed levels. LOCK
SETTINGS sets or clears the lock, and READ SETTINGS shows the settings and the lock. -/
def Obligations.PortResetEmptiesThePort : Prop :=
  (∀ s : State, ∃ p, exec .portReset s = .next { s with
          plant := p
          port := { s.port with commandQueue := [], resultQueue := [], overflow := false, frameError := false, scan := none } }
      ∧ (s.plant.works.lock = true → p = s.plant)
      ∧ (s.plant.works.lock = false → ∃ y1,
          p = s.plant.settle { s.plant with
            works := { s.plant.works with settings := ⟨5, 5, 140, 2, 4, 7, 1, 10, 15⟩ }, yard := y1 }
          ∧ { y1 with lanes := s.plant.yard.lanes } = s.plant.yard
          ∧ ∀ l, l < 2 → y1.lane l = { s.plant.yard.lane l with
              demand := demandLevel 2 4 7 (s.plant.yard.lane l).drain (s.plant.yard.lane l).pieces.length
                (s.plant.yard.lane l).demand }))
    ∧ (∀ (hd : Header) (v : Nat) (s : State), s.ready →
        exec (.lockSettings hd v) s = .next (if v ≤ 1
          then s.accepted hd (.lockSettings v) [] { s.plant with works := { s.plant.works with lock := decide (v = 1) } }
          else s.refused hd (.lockSettings v) .range []))
      ∧ (∀ (hd : Header) (s : State), s.ready → exec (.readSettings hd) s = .next (s.accepted hd .readSettings
          (([s.plant.works.settings.period, s.plant.works.settings.purge, s.plant.works.settings.maxTemp,
              s.plant.works.settings.t1, s.plant.works.settings.t2, s.plant.works.settings.t3,
              s.plant.works.settings.threshold, s.plant.works.settings.homeTimeout, s.plant.works.settings.stageTimeout,
              if s.plant.works.lock then 1 else 0] : List Nat).map (BitVec.ofNat 8)) s.plant))
      ∧ ∀ (s t : State), exec .portReset s = .next t →
          t.plant.works.settings
            = if s.plant.works.lock then s.plant.works.settings else ⟨5, 5, 140, 2, 4, 7, 1, 10, 15⟩

/-! ## Transfers (R203 to R205, R209) -/

/-- R203, R205 to R207, R213: a WRITE FRAME answers 0x00 for each byte; a bad frame latches FRAME-ERROR, a good one at a full
command queue latches OVERFLOW, any other is queued WAITING and the port looks for starts. A type byte that names no transfer
latches FRAME-ERROR alone. While the port reset line is low nothing happens (R214). An INVALID command is answered INVALID
without fields at its start and changes nothing else: one with an unlisted code, a flag bit other than AFTER, or a parameter
length that its code does not allow. The entry that starts is the first that waits, save FINDs passed while the scan unit is
busy; AFTER starts at the front alone and holds what stands behind it, also where it is on a FIND (log 29); an entry counts
as a FIND by its code (log 14). Where nothing posts, the port starts that entry: its command has, on the plant as it stands,
the effect and the reply that it has at a ready port; it becomes COMPLETED behind those that completed before it (a FIND in
range: SCANNING, with the scan unit busy), and the port runs on until nothing posts (ReadTransfersShowAndClear) and nothing
starts. A row named for a command is its frame at any port (log 6). -/
def Obligations.FramesAreQueuedOrDropped : Prop :=
  (∀ (bytes : List Byte) (b : Byte) (s : State),
      (¬(5 ≤ bytes.length ∧ bytes.length ≤ 64 ∧ bytes.head?.map BitVec.toNat = some bytes.length ∧ byteSum bytes = 0) →
        exec (.writeFrame false bytes) s = .next { s with
          port := { s.port with lastOut := s.statusByte :: bytes.map (fun _ => 0), frameError := true } })
      ∧ (5 ≤ bytes.length ∧ bytes.length ≤ 64 ∧ bytes.head?.map BitVec.toNat = some bytes.length ∧ byteSum bytes = 0 →
        8 ≤ s.port.commandQueue.length →
        exec (.writeFrame false bytes) s = .next { s with
          port := { s.port with lastOut := s.statusByte :: bytes.map (fun _ => 0), overflow := true } })
      ∧ (5 ≤ bytes.length ∧ bytes.length ≤ 64 ∧ bytes.head?.map BitVec.toNat = some bytes.length ∧ byteSum bytes = 0 →
        s.port.commandQueue.length < 8 →
        (entryOf bytes).state = .waiting
        ∧ exec (.writeFrame false bytes) s = .next (State.runPort { s with
            port := { s.port with
              lastOut := s.statusByte :: bytes.map (fun _ => 0)
              commandQueue := s.port.commandQueue ++ [entryOf bytes] } }))
      ∧ (b ≠ 1 → b ≠ 2 → b ≠ 3 →
        exec (.unknownTypeByte false b) s = .next { s with
          port := { s.port with lastOut := [s.statusByte], frameError := true } })
      ∧ exec (.writeFrame true bytes) s = .next s ∧ exec (.unknownTypeByte true b) s = .next s)
    ∧ (∀ (hd : Header) (code : Nat) (s : State), s.ready → ¬(code = 0x17 ∧ s.port.scan.isSome = true) →
      exec (.invalidCommand hd code) s = .next { s with
        port := { s.port with resultQueue := s.port.resultQueue ++ [resultFrame hd.tag code ⟨.invalid, []⟩] } })
    -- R206: the entry that starts
    ∧ (∀ (busy : Bool) (q : List Entry) (i : Nat), findStart busy 0 q = some i ↔ ∃ e, q[i]? = some e
      ∧ e.state = .waiting ∧ (e.after = true → i = 0) ∧ (e.code = 0x17 → busy = false)
      ∧ ∀ j f, j < i → q[j]? = some f →
        f.state ≠ .waiting ∨ f.code = 0x17 ∧ busy = true ∧ (f.after = true → j = 0))
    -- R205: a row named for a command, and an INVALID one, as frames at any port (log 6)
    ∧ (∀ (i : Instr) (e : Entry) (s : State),
      (∃ hd c, i.command? = some (hd, c) ∧ e = ⟨hd.tag, commandCode c, hd.after, some c, .waiting⟩)
        ∨ (∃ hd code, i = .invalidCommand hd code ∧ e = ⟨hd.tag, code, hd.after, none, .waiting⟩) →
      (8 ≤ s.port.commandQueue.length → exec i s = .next { s with port := { s.port with overflow := true } })
      ∧ (s.port.commandQueue.length < 8 → exec i s = .next (State.runPort { s with
          port := { s.port with commandQueue := s.port.commandQueue ++ [e] } })))
    -- R206, R208: the port starts that entry, with the effect that its command has at a ready port, and looks again
    ∧ (∀ s : State, s.port.commandQueue.length ≤ 8 →
      8 ≤ s.port.resultQueue.length ∨ (∀ e ∈ s.port.commandQueue, ∀ r, e.state ≠ .completed 0 r) →
      (findStart s.port.scan.isSome 0 s.port.commandQueue = none → s.runPort = s)
      ∧ ∀ (i : Nat) (e : Entry) (rank : Nat) (done : Reply → Port),
        findStart s.port.scan.isSome 0 s.port.commandQueue = some i → s.port.commandQueue[i]? = some e →
        rank = s.port.commandQueue.countP (fun f => f.rank?.isSome) →
        (∀ reply, done reply = { s.port with
          commandQueue := s.port.commandQueue.set i { e with
            state := .completed rank (resultFrame e.tag e.code reply) } }) →
        (e.cmd = none → s.runPort = State.runPort { s with port := done ⟨.invalid, []⟩ })
        ∧ (∀ c, e.cmd = some c → (∀ p, c ≠ .find p) → s.runPort
            = State.runPort { s with plant := (runCommand c s.plant).2, port := done (runCommand c s.plant).1 })
        ∧ ∀ p, e.cmd = some (.find p) → ∀ inRange : Prop, (inRange ↔ p.start ≤ 1023 ∧ 1 ≤ p.mask ∧ p.mask ≤ 31
            ∧ (p.cls ≤ 31 ∨ p.cls = 0xFF) ∧ p.holdTest ≤ 6 ∧ p.maturityTest ≤ 2 ∧ p.orderTest ≤ 2 ∧ 1 ≤ p.maxResults
            ∧ p.maxResults ≤ 8) →
          (¬inRange → s.runPort = State.runPort { s with port := done ⟨.range, []⟩ })
          ∧ (inRange → s.runPort = State.runPort { s with
              port := { s.port with
                commandQueue := s.port.commandQueue.set i { e with state := .scanning }
                scan := some ⟨p, p.start, []⟩ } }))
    ∧ (∀ (i : Instr) (hd : Header) (c : Command) (s : State), i.command? = some (hd, c) → (∀ p, c ≠ .find p) → s.ready →
      exec i s = .next (s.answered hd c (runCommand c s.plant).1 (runCommand c s.plant).2))
    -- R207, R213, R217: the entry that a good frame makes, and the codes and parameter lengths that carry a command
    ∧ (∀ (len tag flags code check : Byte) (params : List Byte),
      entryOf (len :: tag :: flags :: code :: (params ++ [check])) = ⟨tag.toNat, code.toNat, flags.getLsbD 0,
        if flags.toNat ≤ 1 then parseCommand code.toNat params else none, .waiting⟩)
    ∧ (∀ (code : Nat) (params : List Byte) (n : Nat), n = params.length →
      (parseCommand code params ≠ none ↔
        n = 0 ∧ code ∈ [0x01, 0x02, 0x05, 0x06]
        ∨ n = 1 ∧ code ∈ [0x04, 0x13, 0x21, 0x22, 0x24, 0x25, 0x26, 0x28, 0x32, 0x33, 0x34, 0x35, 0x41, 0x42, 0x43, 0x46,
            0x61, 0x62, 0x63, 0x73, 0x74, 0x75]
        ∨ n = 2 ∧ code ∈ [0x11, 0x16, 0x27, 0x30, 0x45, 0x52, 0x53, 0x60, 0x72]
        ∨ n = 3 ∧ code ∈ [0x14, 0x15, 0x44, 0x47, 0x51, 0x54]
        ∨ n = 4 ∧ code = 0x20 ∨ n = 6 ∧ code ∈ [0x10, 0x40] ∨ n = 7 ∧ code = 0x50 ∨ n = 9 ∧ code = 0x03
        ∨ n = 11 ∧ code = 0x12 ∨ n = 12 ∧ code = 0x17 ∨ n = 13 ∧ code = 0x08
        ∨ ∃ m, n = 11 + 6 * m ∧ code = 0x07 ∨ n = 1 + 6 * m ∧ code = 0x23 ∨ n = 1 + 3 * m ∧ code = 0x31
          ∨ n = 3 + 2 * m ∧ code = 0x70 ∨ n = 1 + 2 * m ∧ code = 0x71))
    ∧ ∀ (bytes : List Byte) (s : State) (e : Entry), s.ready → frameOk bytes = true → e = entryOf bytes → e.cmd = none →
      ¬(e.code = 0x17 ∧ s.port.scan.isSome = true) →
      exec (.writeFrame false bytes) s = .next { s with
        port := { s.port with
          lastOut := s.statusByte :: bytes.map (fun _ => 0)
          resultQueue := s.port.resultQueue ++ [resultFrame e.tag e.code ⟨.invalid, []⟩] } }

/-- R203, R204, R209: a READ STATUS answers the status byte, the two queue lengths and zeros, and clears the two latched
flags; each bit of the status byte shows its condition. A READ RESULT sends the oldest result, or 0x02 0xFE; the result is
removed when its last byte has been clocked out, and the port then runs in the same change, whatever its command queue holds.
Where the result queue has room the port posts the oldest COMPLETED entry: its result goes to the back of the result queue,
the entry leaves the command queue, the COMPLETED entries behind it in age move up by one, and the port runs on. -/
def Obligations.ReadTransfersShowAndClear : Prop :=
  (∀ (n : Nat) (s : State),
      exec (.readStatus false n) s = .next { s with
        port := { s.port with
          overflow := false
          frameError := false
          lastOut := s.statusByte :: (BitVec.ofNat 8 s.port.commandQueue.length
            :: BitVec.ofNat 8 s.port.resultQueue.length :: List.replicate n 0).take n } }
      ∧ exec (.readStatus true n) s = .next s
      ∧ s.statusByte.getLsbD 7 = decide (s.plant.works.phase = .opened)
      ∧ s.statusByte.getLsbD 6 = s.plant.works.stop
      ∧ s.statusByte.getLsbD 5 = s.attention
      ∧ s.statusByte.getLsbD 4 = decide (s.port.resultQueue ≠ [])
      ∧ s.statusByte.getLsbD 3 = decide (s.port.commandQueue.length = 8)
      ∧ s.statusByte.getLsbD 2 = s.port.overflow
      ∧ s.statusByte.getLsbD 1 = s.port.frameError
      ∧ s.statusByte.getLsbD 0 = s.port.scan.isSome)
    ∧ (∀ (n : Nat) (s : State),
      exec (.readResult true n) s = .next s
      ∧ (s.port.resultQueue = [] → exec (.readResult false n) s = .next { s with
          port := { s.port with lastOut := s.statusByte :: ([0x02#8, 0xFE#8] : List Byte).take n } })
      ∧ ∀ frame rest, s.port.resultQueue = frame :: rest →
        (n < frame.length → exec (.readResult false n) s = .next { s with
            port := { s.port with lastOut := s.statusByte :: frame.take n } })
        ∧ (frame.length ≤ n → s.port.commandQueue = [] → exec (.readResult false n) s = .next { s with
            port := { s.port with lastOut := s.statusByte :: frame, resultQueue := rest } })
        ∧ (frame.length ≤ n → ∀ e result, s.port.commandQueue = [e] → e.state = .completed 0 result → rest.length < 8 →
            exec (.readResult false n) s = .next { s with
              port := { s.port with
                lastOut := s.statusByte :: frame, commandQueue := [], resultQueue := rest ++ [result] } })
        ∧ (frame.length ≤ n → exec (.readResult false n) s = .next (State.runPort { s with
            port := { s.port with lastOut := s.statusByte :: frame, resultQueue := rest } })))
    -- R209: one posting, whatever else stands in the two queues
    ∧ ∀ (s : State) (i : Nat) (e : Entry) (result : List Byte) (old : List Entry), s.port.commandQueue.length ≤ 8 →
      s.port.resultQueue.length < 8 → s.port.commandQueue[i]? = some e → e.state = .completed 0 result →
      (∀ (j : Nat) (f : Entry) (r : List Byte), s.port.commandQueue[j]? = some f → f.state = .completed 0 r → j = i) →
      old = s.port.commandQueue.eraseIdx i → ∃ left : List Entry, left.length = old.length
      ∧ (∀ (j : Nat) (f : Entry), old[j]? = some f →
        (f.state = .waiting ∨ f.state = .scanning → left[j]? = some f)
        ∧ ∀ n r, f.state = .completed n r → left[j]? = some { f with state := .completed (n - 1) r })
      ∧ s.runPort = State.runPort { s with
          port := { s.port with commandQueue := left, resultQueue := s.port.resultQueue ++ [result] } }

/-- R211: the attention line is asserted exactly while one of the three conditions holds, shows in the status byte, and is
released after power-on. -/
def Obligations.AttentionFollowsItsConditions : Prop :=
  ∀ s : State,
    (s.attention = true ↔ s.plant.works.settings.threshold ≤ s.port.resultQueue.length
      ∨ s.plant.yard.finished ≠ []
      ∨ (∃ b, b < 12 ∧ (s.plant.bed b).flags ≠ ⟨false, false, false, false, false⟩)
      ∨ (∃ k, k < 3 ∧ ((s.plant.yard.crane k).flagFault = true ∨ (s.plant.yard.crane k).flagProtocol = true))
      ∨ ∃ t, t < 4 ∧ ((s.plant.yard.truck t).flagComplete = true ∨ (s.plant.yard.truck t).flagChanged = true))
    ∧ s.statusByte.getLsbD 5 = s.attention
    ∧ ∀ (stop : Bool) (t : State), exec (.powerOn stop) s = .next t → t.attention = false

/-- R193: in CLOSED the commands of the OPEN phase are refused CLOSED; in OPEN the commands of the CLOSED phase are
refused STATE; in CLOSED messages on the yard links are dropped and no timer event is taken. -/
def Obligations.PhasesAdmitCommands : Prop :=
  (∀ (i : Instr) (hd : Header) (c : Command) (s : State), i.command? = some (hd, c) → s.ready →
      s.plant.isClosed = true → openOnly c = true → exec i s = .next (s.refused hd c .closed []))
    ∧ (∀ (hd : Header) (s : State), s.ready → s.plant.isClosed = false →
        exec (.openWorks hd) s = .next (s.refused hd .openWorks .state [])
        ∧ (∀ st bed mat seg mins hs es, exec (.restoreBed hd st bed mat seg mins hs es) s
            = .next (s.refused hd (.restoreBed st bed mat seg mins hs es) .state []))
        ∧ ∀ m mat hs kind object, exec (.restorePiece hd m mat hs kind object) s
            = .next (s.refused hd (.restorePiece m mat hs kind object) .state []))
    ∧ ∀ s : State, s.plant.isClosed = true →
        exec .worksClockAdvance s = .next s
        ∧ (∀ b, exec (.transitionEnd b) s = .next s ∧ exec (.segmentEnd b) s = .next s ∧ exec (.gapExpiry b) s = .next s
            ∧ exec (.lostExpiry b) s = .next s ∧ (∀ q t st, exec (.sample b q t st) s = .next s)
            ∧ ∀ bs, exec (.bedLineMessageDropped b bs) s = .next s)
        ∧ ∀ k, exec (.stageTimeout k) s = .next s ∧ exec (.homingTimeout k) s = .next s
            ∧ (∀ q, exec (.arrived k q) s = .next s ∧ exec (.lowered k q) s = .next s)
            ∧ (∀ q w, exec (.lifted k q w) s = .next s)
            ∧ (∀ q bay, exec (.stopped k q bay) s = .next s ∧ exec (.homed k q bay) s = .next s)
            ∧ (∀ q c bay, exec (.fault k q c bay) s = .next s)
            ∧ ∀ bs, exec (.craneMessageDropped k bs) s = .next s

/-! ## FIND (R21 to R24) -/

/-- R21 to R24: a FIND with good parameters makes the scan unit busy at its start slot, one with a parameter out of range
ends RANGE; an examination takes the next slot, and at the maximum count or slot 1023 the FIND completes with its handles,
their number and the next slot, whatever else stands in the queues, as the youngest COMPLETED entry, and the port runs (R206,
R209). An examination notes the slot's handle when the record there is live and passes the five tests, each test coded by its
place in the list of R21 (R218), where the codes 3 to 6 of the hold test for QC, DAMAGE, WEIGHT and CURE are the model's
choice (log 15). -/
def Obligations.FindScansSlotBySlot : Prop :=
  ((∀ (hd : Header) (p : FindParams) (s : State), s.ready → s.port.scan = none →
      (p.start ≤ 1023 ∧ 1 ≤ p.mask ∧ p.mask ≤ 31 ∧ (p.cls ≤ 31 ∨ p.cls = 0xFF) ∧ p.holdTest ≤ 6 ∧ p.maturityTest ≤ 2
          ∧ p.orderTest ≤ 2 ∧ 1 ≤ p.maxResults ∧ p.maxResults ≤ 8 →
        exec (.find hd p) s = .next { s with
          port := { s.port with
            commandQueue := [⟨hd.tag, 0x17, hd.after, some (.find p), .scanning⟩], scan := some ⟨p, p.start, []⟩ } })
      ∧ (¬(p.start ≤ 1023 ∧ 1 ≤ p.mask ∧ p.mask ≤ 31 ∧ (p.cls ≤ 31 ∨ p.cls = 0xFF) ∧ p.holdTest ≤ 6
          ∧ p.maturityTest ≤ 2 ∧ p.orderTest ≤ 2 ∧ 1 ≤ p.maxResults ∧ p.maxResults ≤ 8) →
        exec (.find hd p) s = .next (s.refused hd (.find p) .range [])))
      ∧ ∀ s : State,
        (s.port.scan = none → exec .scanExamine s = .next s)
        ∧ ∀ sc, s.port.scan = some sc →
          ((sc.noted s.plant.yard).length < sc.params.maxResults → sc.slot < 1023 →
            exec .scanExamine s = .next { s with
              port := { s.port with scan := some { sc with slot := sc.slot + 1, found := sc.noted s.plant.yard } } })
          ∧ (sc.params.maxResults ≤ (sc.noted s.plant.yard).length ∨ 1023 ≤ sc.slot →
            ∀ e, s.port.commandQueue = [e] → e.state = .scanning → s.port.resultQueue.length < 8 →
            exec .scanExamine s = .next { s with
              port := { s.port with
                commandQueue := []
                scan := none
                resultQueue := s.port.resultQueue ++ [resultFrame e.tag e.code ⟨.ok,
                  (sc.noted s.plant.yard).flatMap (fun h => beBytes 2 (h.gen * 1024 + h.slot))
                    ++ beBytes 1 (sc.noted s.plant.yard).length
                    ++ beBytes 2 (if sc.slot = 1023 then 0xFFFF else sc.slot + 1)⟩] } })
          ∧ (sc.params.maxResults ≤ (sc.noted s.plant.yard).length ∨ 1023 ≤ sc.slot →
            ∀ i e rank, s.port.commandQueue[i]? = some e → e.state = .scanning →
            (∀ j f, j < i → s.port.commandQueue[j]? = some f → f.state ≠ .scanning) →
            rank = s.port.commandQueue.countP (fun f => f.rank?.isSome) →
            exec .scanExamine s = .next (State.runPort { s with
              port := { s.port with
                scan := none
                commandQueue := s.port.commandQueue.set i { e with
                  state := .completed rank (resultFrame e.tag e.code ⟨.ok,
                    (sc.noted s.plant.yard).flatMap (fun h => beBytes 2 (h.gen * 1024 + h.slot))
                      ++ beBytes 1 (sc.noted s.plant.yard).length
                      ++ beBytes 2 (if sc.slot = 1023 then 0xFFFF else sc.slot + 1)⟩) } } })))
    ∧ ∀ (sc : Scan) (y : Yard), sc.params.holdTest ≤ 6 → sc.params.maturityTest ≤ 2 → sc.params.orderTest ≤ 2 →
      (y.pieceAt sc.slot = none → sc.noted y = sc.found)
      ∧ ∀ r, y.pieceAt sc.slot = some r → ∀ passes : Prop,
        (passes ↔
          sc.params.mask.testBit r.location.kindBit = true
          ∧ (sc.params.cls = 0xFF ∨ sc.params.cls = r.cls)
          ∧ (sc.params.holdTest = 1 → r.holds = ⟨false, false, false, false⟩)
          ∧ (sc.params.holdTest = 2 → r.holds ≠ ⟨false, false, false, false⟩)
          ∧ (sc.params.holdTest = 3 → r.holds.qc = true) ∧ (sc.params.holdTest = 4 → r.holds.damage = true)
          ∧ (sc.params.holdTest = 5 → r.holds.weight = true) ∧ (sc.params.holdTest = 6 → r.holds.cure = true)
          ∧ (sc.params.maturityTest = 1 → sc.params.maturity ≤ r.maturity)
          ∧ (sc.params.maturityTest = 2 → r.maturity < sc.params.maturity)
          ∧ (sc.params.orderTest = 1 → r.order ≠ none) ∧ (sc.params.orderTest = 2 → r.order = none)) →
        (passes → sc.noted y = sc.found ++ [⟨sc.slot, (y.pieceSlot sc.slot).gen⟩])
          ∧ (¬passes → sc.noted y = sc.found)

/-! ## Frame layouts (R217) -/

/-- R217: quantities travel most significant byte first; the layouts of command frames, result frames and the no-result
frame; the check makes the byte sum 0; a tag is only copied. -/
def Obligations.FramesAreLaidOut : Prop :=
  (∀ (k n : Nat), beBytes (k + 1) n = BitVec.ofNat 8 (n / 256 ^ k) :: beBytes k n)
    ∧ (∀ (hd : Header) (code : Nat) (params : List Byte), params.length ≤ 59 →
        (∃ check, commandFrame hd code params =
            BitVec.ofNat 8 (params.length + 5) :: BitVec.ofNat 8 hd.tag :: (if hd.after then 1#8 else 0#8)
              :: BitVec.ofNat 8 code :: (params ++ [check]))
        ∧ byteSum (commandFrame hd code params) = 0
        ∧ (commandFrame hd code params).length = params.length + 5
        ∧ (hd.tag < 256 → code < 256 → (entryOf (commandFrame hd code params)).tag = hd.tag
          ∧ (entryOf (commandFrame hd code params)).after = hd.after
          ∧ (entryOf (commandFrame hd code params)).code = code
          ∧ (entryOf (commandFrame hd code params)).cmd = parseCommand code params))
    ∧ (∀ (tag code : Nat) (r : Reply),
        (∃ check, resultFrame tag code r =
            BitVec.ofNat 8 (r.fields.length + 5) :: BitVec.ofNat 8 tag :: BitVec.ofNat 8 code
              :: BitVec.ofNat 8 r.code.num :: (r.fields ++ [check]))
        ∧ byteSum (resultFrame tag code r) = 0)
    ∧ noResultFrame = [0x02#8, 0xFE#8]

/-! ## Works settings (R215, R216) -/

/-- R215: the settings after power-on, and SETTINGS: refused RANGE whole when a byte is out of range or the thresholds do
not rise; else all nine values are taken and both demand levels are recomputed in the same change. -/
def Obligations.SettingsAreTakenWhole : Prop :=
  (∀ (stop : Bool) (s t : State), exec (.powerOn stop) s = .next t →
      t.plant.works.settings = ⟨5, 5, 140, 2, 4, 7, 1, 10, 15⟩ ∧ t.plant.works.lock = false)
    ∧ ∀ (hd : Header) (p pu mx t1 t2 t3 th ho st : Nat) (s : State), s.ready →
      ((1 ≤ p ∧ p ≤ 15) ∧ (pu = 2 ∨ pu = 5 ∨ pu = 10 ∨ pu = 20) ∧ (80 ≤ mx ∧ mx ≤ 180)
          ∧ (1 ≤ t1 ∧ t1 < t2 ∧ t2 < t3 ∧ t3 ≤ 8) ∧ (1 ≤ th ∧ th ≤ 8) ∧ (1 ≤ ho ∧ ho ≤ 60) ∧ (1 ≤ st ∧ st ≤ 60) →
        ∃ y1, exec (.settings hd p pu mx t1 t2 t3 th ho st) s = .next (s.accepted hd
              (.settings p pu mx t1 t2 t3 th ho st) []
              (s.plant.settle { s.plant with
                works := { s.plant.works with settings := ⟨p, pu, mx, t1, t2, t3, th, ho, st⟩ }, yard := y1 }))
          ∧ { y1 with lanes := s.plant.yard.lanes } = s.plant.yard
          ∧ ∀ l, l < 2 → y1.lane l = { s.plant.yard.lane l with
              demand := demandLevel t1 t2 t3 (s.plant.yard.lane l).drain (s.plant.yard.lane l).pieces.length
                (s.plant.yard.lane l).demand })
      ∧ (¬((1 ≤ p ∧ p ≤ 15) ∧ (pu = 2 ∨ pu = 5 ∨ pu = 10 ∨ pu = 20) ∧ (80 ≤ mx ∧ mx ≤ 180)
          ∧ (1 ≤ t1 ∧ t1 < t2 ∧ t2 < t3 ∧ t3 ≤ 8) ∧ (1 ≤ th ∧ th ≤ 8) ∧ (1 ≤ ho ∧ ho ≤ 60) ∧ (1 ≤ st ∧ st ≤ 60)) →
        exec (.settings hd p pu mx t1 t2 t3 th ho st) s
          = .next (s.refused hd (.settings p pu mx t1 t2 t3 th ho st) .range []))

/-! ## The works record and the plant stop line (R191 to R201) -/

/-- R194, R64, R84: OPEN WORKS in CLOSED: the phase, the clock, the gap counts, a loaded plan of a CURING bed started, the
order of every bed sent; nothing else. The result's live count takes 2 bytes (log 15). -/
def Obligations.OpenWorksStartsTheWorks : Prop :=
  ∀ (hd : Header) (s : State), s.ready → s.plant.isClosed = true → ∃ p,
    exec (.openWorks hd) s = .next (s.accepted hd .openWorks
      (beBytes 4 0 ++ beBytes 2 s.plant.yard.liveCount ++ beBytes 1 s.plant.configuredBeds) p)
    ∧ p.works = { s.plant.works with phase := .opened, clock := 0 }
    ∧ p.classes = s.plant.classes ∧ p.markMap = s.plant.markMap ∧ p.beds = s.plant.beds ∧ p.yard = s.plant.yard
    ∧ ∀ b, b < 12 →
      p.intakeOf b = { s.plant.intakeOf b with gapCount := 0 }
      ∧ (¬((s.plant.bed b).state = .curing ∧ (s.plant.heat b).plan = .loaded) →
          p.heat b = { s.plant.heat b with lastOrder := formOrder (s.plant.bed b) (s.plant.heat b) })
      ∧ ((s.plant.bed b).state = .curing → (s.plant.heat b).plan = .loaded →
          ∃ h, h = { s.plant.heat b with
                plan := .running, segIndex := 0
                segMinutes := (((s.plant.heat b).run[0]?).map Segment.duration).getD 0 }
            ∧ p.heat b = { h with lastOrder := formOrder (s.plant.bed b) h })
      ∧ p.bedLine b = (s.plant.bedLine b).put (p.heat b).lastOrder
      ∧ ((s.plant.heat b).lawful true s.plant.works.stop → (p.heat b).lastOrder = ⟨.off, 0⟩)

/-- R210, R135, R172, R189: SENSE takes the first kind of attention item that exists, reports it and clears it. The
item kind codes from 0, and the crane and truck items without a number byte beside their fields, are the model's choice
(log 15); the 1 byte of the controller code is log 36. -/
def Obligations.SenseTakesOneItem : Prop :=
  ∀ (hd : Header) (s : State), s.ready →
    (∀ slot rest t, s.plant.yard.finished = slot :: rest → s.plant.yard.ticketAt slot = some t →
      ∃ y1, exec (.sense hd) s = .next (s.accepted hd .sense
          (beBytes 1 0 ++ handleBytes (s.plant.yard.ticketHandle slot) ++ beBytes 1 t.kind.num ++ optHandleBytes t.piece
            ++ beBytes 1 t.outcome.num ++ beBytes 1 (if t.redirected then 1 else 0) ++ optObjectBytes t.crane)
          (s.plant.settle { s.plant with yard := y1 }))
        ∧ y1.ticketSlot slot = ⟨((s.plant.yard.ticketSlot slot).gen + 1) % 64, none⟩
        ∧ (∀ i, i ≠ slot → y1.ticketSlot i = s.plant.yard.ticketSlot i)
        ∧ y1.moveQueue = s.plant.yard.moveQueue.filter (· ≠ slot)
        ∧ y1.finished = s.plant.yard.finished.filter (· ≠ slot)
        ∧ { y1 with
            tickets := s.plant.yard.tickets, moveQueue := s.plant.yard.moveQueue
            finished := s.plant.yard.finished } = s.plant.yard)
    ∧ (s.plant.yard.finished = [] → ∀ b, b < 12 → (s.plant.bed b).flags ≠ .none →
      (∀ j, j < b → (s.plant.bed j).flags = .none) →
      ∃ p, exec (.sense hd) s = .next (s.accepted hd .sense
          (beBytes 1 1 ++ beBytes 1 b ++ beBytes 1 (bedFlagsNum (s.plant.bed b).flags)) p)
        ∧ p.bed b = { s.plant.bed b with flags := .none } ∧ Plant.onlyBed b s.plant p)
    ∧ (s.plant.yard.finished = [] → (∀ b, b < 12 → (s.plant.bed b).flags = .none) →
      ∀ k, k < 3 → (s.plant.yard.crane k).alarmed = true → (∀ j, j < k → (s.plant.yard.crane j).alarmed = false) →
      exec (.sense hd) s = .next (s.accepted hd .sense
          (beBytes 1 2 ++ beBytes 1 (craneFlagsNum (s.plant.yard.crane k)) ++ beBytes 1 (s.plant.yard.crane k).state.num
            ++ beBytes 1 (s.plant.yard.crane k).faultCode.num ++ beBytes 1 (s.plant.yard.crane k).controller
            ++ beBytes 1 (s.plant.yard.crane k).lastBay)
          (s.plant.updYard (fun y => y.updCrane k (fun c => { c with flagFault := false, flagProtocol := false })))))
    ∧ (s.plant.yard.finished = [] → (∀ b, b < 12 → (s.plant.bed b).flags = .none) →
      (∀ k, k < 3 → (s.plant.yard.crane k).alarmed = false) →
      (∀ t, t < 4 → (s.plant.yard.truck t).alarmed = true → (∀ j, j < t → (s.plant.yard.truck j).alarmed = false) →
        exec (.sense hd) s = .next (s.accepted hd .sense
          (beBytes 1 3 ++ beBytes 1 (orderFlagsNum (s.plant.yard.truck t)) ++ beBytes 1 (s.plant.yard.truck t).state.num
            ++ beBytes 1 (s.plant.yard.truck t).orderList.length ++ beBytes 1 (s.plant.yard.truck t).nextIndex
            ++ beBytes 1 (s.plant.yard.truck t).pieces.length)
          (s.plant.updYard (fun y => y.updTruck t (fun r => { r with flagComplete := false, flagChanged := false })))))
      ∧ ((∀ t, t < 4 → (s.plant.yard.truck t).alarmed = false) →
        exec (.sense hd) s = .next (s.accepted hd .sense (beBytes 1 4) s.plant)))

/-- R196, R197, R3: RESTORE BED in CLOSED. An accepted one writes the bed's state and maturity, makes a record for each
occupied entry in the lowest free slots in position order, counts them in their classes and in the mark map, and gives a
CURING bed its plan; no other record of a piece, class, bed or yard changes. The checks in order, a check made position by
position with the lowest failing position. That an entry of mark number 0 is empty whatever its other bits are, that the
result carries the occupied handles alone, and which refusals carry a position, are log 15; that hold bits given for an empty
entry or past the configured positions are not looked at is log 33. -/
def Obligations.RestoreBedFillsTheBed : Prop :=
  (∀ (hd : Header) (n bed maturity segment minutes : Nat) (holds : List Nat) (entries : List MarkWord) (st : BedState)
    (s : State), s.ready → s.plant.isClosed = true → bed < 12 →
    (n = 1 ∧ st = .set ∨ n = 2 ∧ st = .cast ∨ n = 3 ∧ st = .curing ∨ n = 4 ∧ st = .released ∨ n = 5 ∧ st = .stripping) →
    (s.plant.bed bed).configured = true → (s.plant.bed bed).state = .vacant → (s.plant.bed bed).positions ≤ 8 →
    entries.length = (s.plant.bed bed).positions →
    (st = .set → ∀ m ∈ entries, m.number = 0) →
    (st = .cast ∨ st = .curing ∨ st = .released → ∀ m ∈ entries, m.number ≠ 0) →
    (st = .stripping → (∃ m ∈ entries, m.number ≠ 0) ∧ ∃ m ∈ entries, m.number = 0) →
    (∀ m ∈ entries, m.number ≠ 0 → markWithClass m = true ∧ m.cls < 32 ∧ (s.plant.cls m.cls).defined = true) →
    (minutes ≠ 0 → st = .curing) → (st = .curing → (s.plant.heat bed).next ≠ []) →
    (minutes ≠ 0 → ∃ g, (s.plant.heat bed).next[segment]? = some g ∧ minutes ≤ g.duration) →
    (st = .released ∨ st = .stripping → ∀ m ∈ entries, m.number ≠ 0 → (s.plant.cls m.cls).threshold ≤ maturity) →
    entries.countP (fun m => decide (m.number ≠ 0)) ≤ s.plant.yard.freePieceCount →
    (∀ m ∈ entries, m.number ≠ 0 → markSlot s.plant.markMap m.number = none) →
    ((entries.filter (fun m => decide (m.number ≠ 0))).map (fun m => m.number)).Nodup →
    ∃ p, exec (.restoreBed hd n bed maturity segment minutes holds entries) s = .next (s.accepted hd
          (.restoreBed n bed maturity segment minutes holds entries)
          ((p.bed bed).table.toList.filterMap id |>.flatMap handleBytes) p)
      ∧ (p.bed bed).state = st ∧ (p.bed bed).maturity = maturity
      ∧ { p.bed bed with table := (s.plant.bed bed).table } = { s.plant.bed bed with state := st, maturity := maturity }
      ∧ (∀ i m h slot, entries[i]? = some m → m.number ≠ 0 → (p.bed bed).at i = some h → slot < h.slot →
          s.plant.yard.pieceAt slot = none →
          ∃ j r g, j < i ∧ entries[j]? = some r ∧ r.number ≠ 0 ∧ (p.bed bed).at j = some g ∧ g.slot = slot)
      ∧ (∀ slot, (∀ i m h, entries[i]? = some m → m.number ≠ 0 → (p.bed bed).at i = some h → h.slot ≠ slot) →
          p.yard.pieceSlot slot = s.plant.yard.pieceSlot slot)
      ∧ (∀ mark slot, (mark, slot) ∈ p.markMap ↔ (mark, slot) ∈ s.plant.markMap
          ∨ ∃ i m h, entries[i]? = some m ∧ m.number ≠ 0 ∧ (p.bed bed).at i = some h ∧ mark = m.number ∧ slot = h.slot)
      ∧ (∀ c, p.cls c = { s.plant.cls c with
          liveCount := (s.plant.cls c).liveCount + entries.countP (fun m => decide (m.number ≠ 0 ∧ m.cls = c)) })
      ∧ (∀ i m, entries[i]? = some m → m.number ≠ 0 → ∃ h, (p.bed bed).at i = some h
          ∧ s.plant.yard.pieceAt h.slot = none ∧ h.gen = (s.plant.yard.pieceSlot h.slot).gen
          ∧ markSlot p.markMap m.number = some h.slot
          ∧ p.yard.pieceAt h.slot = some ⟨m.number, m.cls, .bed bed i, maturity, 0, holdsOf (holds.getD i 0), none, none⟩)
      ∧ (∀ i m, entries[i]? = some m → m.number = 0 → (p.bed bed).at i = (s.plant.bed bed).at i)
      ∧ (st = .curing → p.heat bed = { s.plant.heat bed with
          run := (s.plant.heat bed).next
          next := []
          plan := if minutes = 0 then .loaded else .running
          segIndex := if minutes = 0 then (s.plant.heat bed).segIndex else segment
          segMinutes := if minutes = 0 then (s.plant.heat bed).segMinutes else minutes
          swapPending := false })
      ∧ (st ≠ .curing → p.heat bed = s.plant.heat bed)
      ∧ (∀ b, b ≠ bed → p.bed b = s.plant.bed b ∧ p.heat b = s.plant.heat b)
      ∧ (p.bed bed).flags = (s.plant.bed bed).flags ∧ (p.bed bed).turnover = (s.plant.bed bed).turnover
      ∧ p.works = s.plant.works ∧ p.intake = s.plant.intake ∧ p.bedLines = s.plant.bedLines
      ∧ (∀ slot q, s.plant.yard.pieceAt slot = some q → p.yard.pieceAt slot = some q)
      ∧ { p.yard with pieces := s.plant.yard.pieces } = s.plant.yard)
    ∧ ∀ (hd : Header) (n bed maturity segment minutes : Nat) (holds : List Nat) (entries : List MarkWord) (s : State)
        (row : Instr), s.ready → s.plant.isClosed = true →
      row = .restoreBed hd n bed maturity segment minutes holds entries →
      (12 ≤ bed ∨ n = 0 ∨ 5 < n → refuses row s .range [])
      ∧ ∀ (st : BedState) (b : BedRecord) (good : MarkWord → Prop), bed < 12 → b = s.plant.bed bed →
        (n = 1 ∧ st = .set ∨ n = 2 ∧ st = .cast ∨ n = 3 ∧ st = .curing ∨ n = 4 ∧ st = .released
          ∨ n = 5 ∧ st = .stripping) →
        (∀ m, good m ↔ markWithClass m = true ∧ m.cls < 32 ∧ (s.plant.cls m.cls).defined = true) →
        (¬(b.configured = true ∧ b.state = .vacant) → refuses row s .state [])
        ∧ (b.configured = true → b.state = .vacant →
          (entries.length ≠ b.positions → refuses row s .range [])
          ∧ (entries.length = b.positions →
            (∀ i m, entries[i]? = some m → st = .set → m.number ≠ 0 →
              (∀ j r, j < i → entries[j]? = some r → r.number = 0) → refuses row s .range [BitVec.ofNat 8 i])
            ∧ (∀ i m, entries[i]? = some m → st = .cast ∨ st = .curing ∨ st = .released → m.number = 0 →
              (∀ j r, j < i → entries[j]? = some r → r.number ≠ 0) → refuses row s .range [BitVec.ofNat 8 i])
            ∧ (st = .stripping → (∀ m ∈ entries, m.number = 0) ∨ (∀ m ∈ entries, m.number ≠ 0) →
              refuses row s .range [])
            ∧ ((st = .set → ∀ m ∈ entries, m.number = 0) →
              (st = .cast ∨ st = .curing ∨ st = .released → ∀ m ∈ entries, m.number ≠ 0) →
              (st = .stripping → (∃ m ∈ entries, m.number ≠ 0) ∧ ∃ m ∈ entries, m.number = 0) →
              (∀ i m, entries[i]? = some m → m.number ≠ 0 → ¬good m →
                (∀ j r, j < i → entries[j]? = some r → r.number ≠ 0 → good r) → refuses row s .range [BitVec.ofNat 8 i])
              ∧ ((∀ m ∈ entries, m.number ≠ 0 → good m) →
                (minutes ≠ 0 → st ≠ .curing → refuses row s .range [])
                ∧ (st = .curing → (s.plant.heat bed).next = [] → refuses row s .state [])
                ∧ (st = .curing → minutes ≠ 0 → (s.plant.heat bed).next ≠ [] →
                  (∀ g, (s.plant.heat bed).next[segment]? = some g → g.duration < minutes) → refuses row s .range [])
                ∧ ((minutes ≠ 0 → st = .curing) → (st = .curing → (s.plant.heat bed).next ≠ []) →
                  (minutes ≠ 0 → ∃ g, (s.plant.heat bed).next[segment]? = some g ∧ minutes ≤ g.duration) →
                  (∀ i m, st = .released ∨ st = .stripping → entries[i]? = some m → m.number ≠ 0 →
                    maturity < (s.plant.cls m.cls).threshold →
                    (∀ j r, j < i → entries[j]? = some r → r.number ≠ 0 → (s.plant.cls r.cls).threshold ≤ maturity) →
                    refuses row s .immature [BitVec.ofNat 8 i])
                  ∧ ((st = .released ∨ st = .stripping →
                      ∀ m ∈ entries, m.number ≠ 0 → (s.plant.cls m.cls).threshold ≤ maturity) →
                    (s.plant.yard.freePieceCount < entries.countP (fun m => decide (m.number ≠ 0)) →
                      refuses row s .noSlot [])
                    ∧ (entries.countP (fun m => decide (m.number ≠ 0)) ≤ s.plant.yard.freePieceCount →
                      ∀ (i : Nat) (m : MarkWord) (dup : Nat → MarkWord → Prop),
                      (∀ j r, dup j r ↔ markSlot s.plant.markMap r.number ≠ none
                        ∨ ∃ l q, l ≠ j ∧ entries[l]? = some q ∧ q.number = r.number) →
                      entries[i]? = some m → m.number ≠ 0 → dup i m →
                      (∀ j r, j < i → entries[j]? = some r → r.number ≠ 0 → ¬dup j r) →
                      refuses row s .duplicate [BitVec.ofNat 8 i])))))))

/-- R198: RESTORE PIECE in CLOSED, in a lane (kind 2) or on a stack (kind 3): what an accepted one does, and the checks in
order. -/
def Obligations.RestorePieceFillsTheHolder : Prop :=
  (∀ (hd : Header) (m : MarkWord) (maturity holds kind object : Nat) (s : State), s.ready → s.plant.isClosed = true →
    (kind = 2 ∧ object < 2 ∧ (s.plant.yard.lane object).defined = true ∧ (s.plant.yard.lane object).pieces.length < 8
      ∨ kind = 3 ∧ object < 40 ∧ placementClass s.plant.site s.plant.yard object (s.plant.cls m.cls) = none) →
    markWithClass m = true → holds < 16 → m.cls < 32 → (s.plant.cls m.cls).defined = true →
    (s.plant.cls m.cls).threshold ≤ maturity → (∃ i, i < 1024 ∧ s.plant.yard.pieceAt i = none) →
    markSlot s.plant.markMap m.number = none →
    ∃ p h, exec (.restorePiece hd m maturity holds kind object) s = .next (s.accepted hd
          (.restorePiece m maturity holds kind object)
          (handleBytes h ++ beBytes 1 (if kind = 2 then (s.plant.yard.lane object).pieces.length + 1
            else (s.plant.yard.stack object).pieces.length + 1)) p)
      ∧ h.slot < 1024 ∧ s.plant.yard.pieceAt h.slot = none ∧ (∀ i, i < h.slot → s.plant.yard.pieceAt i ≠ none)
      ∧ h.gen = (s.plant.yard.pieceSlot h.slot).gen
      ∧ p.yard.pieceAt h.slot = some ⟨m.number, m.cls,
          if kind = 2 then .lane object else .stack object ((s.plant.yard.stack object).pieces.length + 1),
          maturity, 0, holdsOf holds, none, none⟩
      ∧ (∀ i, i ≠ h.slot → p.yard.pieceSlot i = s.plant.yard.pieceSlot i)
      ∧ markSlot p.markMap m.number = some h.slot
      ∧ (∀ mark slot, (mark, slot) ∈ p.markMap
          ↔ (mark, slot) ∈ s.plant.markMap ∨ mark = m.number ∧ slot = h.slot)
      ∧ p.cls m.cls = { s.plant.cls m.cls with liveCount := (s.plant.cls m.cls).liveCount + 1 }
      ∧ (∀ c, c ≠ m.cls → p.cls c = s.plant.cls c)
      ∧ (kind = 2 → p.yard.lane object = { s.plant.yard.lane object with
          pieces := (s.plant.yard.lane object).pieces ++ [h]
          demand := demandLevel s.plant.works.settings.t1 s.plant.works.settings.t2 s.plant.works.settings.t3
            (s.plant.yard.lane object).drain ((s.plant.yard.lane object).pieces.length + 1)
            (s.plant.yard.lane object).demand }
        ∧ (∀ l, l ≠ object → p.yard.lane l = s.plant.yard.lane l)
        ∧ { p.yard with pieces := s.plant.yard.pieces, lanes := s.plant.yard.lanes } = s.plant.yard)
      ∧ (kind = 3 → p.yard.stack object = { s.plant.yard.stack object with
          pieces := (s.plant.yard.stack object).pieces ++ [h] }
        ∧ (∀ i, i ≠ object → p.yard.stack i = s.plant.yard.stack i)
        ∧ { p.yard with pieces := s.plant.yard.pieces, stackRecs := s.plant.yard.stackRecs } = s.plant.yard)
      ∧ p.works = s.plant.works ∧ p.beds = s.plant.beds ∧ p.cure = s.plant.cure ∧ p.bedLines = s.plant.bedLines
      ∧ p.intake = s.plant.intake)
    ∧ ∀ (hd : Header) (m : MarkWord) (maturity holds kind object : Nat) (s : State) (row : Instr) (l : LaneRecord),
      s.ready → s.plant.isClosed = true → row = .restorePiece hd m maturity holds kind object →
      l = s.plant.yard.lane object →
      (¬(kind = 2 ∧ object < 2 ∨ kind = 3 ∧ object < 40) → refuses row s .range [])
      ∧ (kind = 2 ∧ object < 2 ∨ kind = 3 ∧ object < 40 →
        (¬(markWithClass m = true ∧ holds < 16 ∧ m.cls < 32 ∧ (s.plant.cls m.cls).defined = true) →
          refuses row s .range [])
        ∧ (markWithClass m = true → holds < 16 → m.cls < 32 → (s.plant.cls m.cls).defined = true →
          (kind = 2 → l.defined = false → refuses row s .state [])
          ∧ (kind = 2 → l.defined = true → 8 ≤ l.pieces.length → refuses row s .full [])
          ∧ (∀ c, kind = 3 → placementClass s.plant.site s.plant.yard object (s.plant.cls m.cls) = some c →
              refuses row s c [])
          ∧ ((kind = 2 → l.defined = true ∧ l.pieces.length < 8) →
            (kind = 3 → placementClass s.plant.site s.plant.yard object (s.plant.cls m.cls) = none) →
            (maturity < (s.plant.cls m.cls).threshold → refuses row s .immature [])
            ∧ ((s.plant.cls m.cls).threshold ≤ maturity →
              ((∀ i, i < 1024 → s.plant.yard.pieceAt i ≠ none) → refuses row s .noSlot [])
              ∧ ((∃ i, i < 1024 ∧ s.plant.yard.pieceAt i = none) → markSlot s.plant.markMap m.number ≠ none →
                refuses row s .duplicate [])))))

/-- R199, R54, R169: an assertion of the plant stop line. In CLOSED it is recorded and does nothing else; a line that is
asserted already makes no event (log 9); in OPEN every bed and every crane takes it, with STOP on the link of a crane that
was HOMING, or BUSY with no STOP awaited. A BUSY crane becomes STOPPED; its GRANTED ticket returns to PENDING with STOP, a
ticket beyond GRANTED stays its current ticket as it is; every other ticket, and all else of the yard, stays until the
follow-up work. -/
def Obligations.PlantStopTakesHeatAndCranesOutOfMotion : Prop :=
  ∀ s : State,
    (s.plant.isClosed = true →
      exec .plantStopAsserted s = .next { s with plant := { s.plant with works := { s.plant.works with stop := true } } })
    ∧ (s.plant.works.stop = true → exec .plantStopAsserted s = .next s)
    ∧ (s.plant.isClosed = false → s.plant.works.stop = false → ∃ (p : Plant) (y1 : Yard),
      exec .plantStopAsserted s = .next { s with plant := s.plant.settle { p with yard := y1 } }
      ∧ p.works = { s.plant.works with stop := true }
      ∧ p.beds = s.plant.beds ∧ p.intake = s.plant.intake ∧ p.classes = s.plant.classes ∧ p.markMap = s.plant.markMap
      ∧ (∀ b, b < 12 → ∃ h, h = { s.plant.heat b with running := .off, transition := .none, minutes := 0 }
          ∧ p.heat b = { h with lastOrder := formOrder (s.plant.bed b) h }
          ∧ p.bedLine b = if (p.heat b).lastOrder = (s.plant.heat b).lastOrder then s.plant.bedLine b
              else (s.plant.bedLine b).put (p.heat b).lastOrder)
      ∧ { y1 with
          tickets := s.plant.yard.tickets
          cranes := s.plant.yard.cranes
          links := s.plant.yard.links } = s.plant.yard
      ∧ (∀ slot, (∀ k t, k < 3 → (s.plant.yard.crane k).state = .busy → currentTicket s.plant.yard k = some (slot, t) →
          t.state ≠ .granted) → y1.ticketSlot slot = s.plant.yard.ticketSlot slot)
      ∧ ∀ (k : Nat) (c sent : CraneRecord), k < 3 → c = s.plant.yard.crane k →
        sent = { c with
          stopOrder := some c.nextSeq
          nextSeq := (c.nextSeq + 1) % 256
          timer := if c.halted then c.timer else some ⟨s.plant.works.settings.stageTimeout, false⟩ } →
        (c.state ≠ .homing → c.state ≠ .busy → y1.crane k = c)
        ∧ (c.state = .homing ∨ c.state = .busy ∧ c.stopOrder = none →
          y1.link k = (s.plant.yard.link k).put (linkFrame 0x44 c.nextSeq []))
        ∧ (¬(c.state = .homing ∨ c.state = .busy ∧ c.stopOrder = none) → y1.link k = s.plant.yard.link k)
        ∧ (c.state = .homing → y1.crane k = { sent with state := .unhomed, stage := none })
        ∧ (c.state = .busy → ∀ stopped : CraneRecord,
          stopped = { (if c.stopOrder = none then sent else c) with state := .stopped } →
          ((∀ slot t, currentTicket s.plant.yard k = some (slot, t) → t.state ≠ .granted) → y1.crane k = stopped)
          ∧ ∀ slot t, currentTicket s.plant.yard k = some (slot, t) → t.state = .granted →
            (∀ j, j ≠ k → (s.plant.yard.crane j).current ≠ c.current) →
            y1.crane k = { stopped with current := none, stage := none }
            ∧ ∃ w : Waits, w.stop = true ∧ y1.ticketSlot slot = ⟨(s.plant.yard.ticketSlot slot).gen,
                some { t with state := .pending, crane := none, waits := w }⟩))

/-- R201, R54, R56, R170: a release of the plant stop line. In CLOSED it is recorded and does nothing else; in OPEN every bed
begins its transition again, its heat order put on the bed line if it is not the last one sent, and every STOPPED crane takes
RESUME (numbered as any order is, log 12) and goes on as R170 gives, whichever of the Move Queue and the Crane Link
Controller takes the release first (log 2). A transition that begins counts from the next advance (R48, log 4). A release of
a line that is released already does nothing (log 9). -/
def Obligations.PlantStopReleaseStartsThemAgain : Prop :=
  ∀ s : State,
    (s.plant.isClosed = true → exec .plantStopReleased s = .next { s with
          plant := { s.plant with works := { s.plant.works with stop := false } }, freeCount := s.freeCount + 1 })
    ∧ (s.plant.works.stop = false → exec .plantStopReleased s = .next { s with freeCount := s.freeCount + 1 })
    ∧ (s.plant.isClosed = false → s.plant.works.stop = true → ∃ (p : Plant) (y1 : Yard),
      exec .plantStopReleased s
          = .next { s with plant := p.settle { p with yard := y1 }, freeCount := s.freeCount + 1 }
      ∧ p.works = { s.plant.works with stop := false }
      ∧ p.beds = s.plant.beds ∧ p.intake = s.plant.intake ∧ p.classes = s.plant.classes ∧ p.markMap = s.plant.markMap
      ∧ (∀ b, b < 12 → ∃ h,
          ((s.plant.heat b).requested = .steam → h = { s.plant.heat b with
            running := .off, transition := .purge, minutes := s.plant.works.settings.purge, due := false })
          ∧ ((s.plant.heat b).requested = .mat → h = { s.plant.heat b with
            running := .off, transition := .settle, minutes := 1, due := false })
          ∧ ((s.plant.heat b).requested = .off → h = s.plant.heat b)
          ∧ p.heat b = { h with lastOrder := formOrder (s.plant.bed b) h }
          ∧ p.bedLine b = if formOrder (s.plant.bed b) h = h.lastOrder then s.plant.bedLine b
            else (s.plant.bedLine b).put (formOrder (s.plant.bed b) h))
      ∧ { y1 with cranes := s.plant.yard.cranes }.fixed = s.plant.yard.fixed
      ∧ (∀ k, k < 3 → (s.plant.yard.crane k).state = .stopped →
          ((s.plant.yard.crane k).current.isSome = true → (y1.crane k).state = .busy ∧ (y1.crane k).halted = false)
          ∧ ((s.plant.yard.crane k).current = none → (s.plant.yard.crane k).stopOrder = none →
              (y1.crane k).state = .idle ∧ (y1.crane k).halted = false)
          ∧ ((s.plant.yard.crane k).current = none → (s.plant.yard.crane k).stopOrder.isSome = true →
              (y1.crane k).state = .stopped ∧ (y1.crane k).stopOrder = (s.plant.yard.crane k).stopOrder))
      ∧ (p.yard = s.plant.yard ∨ ∃ r : Plant, r.yard = s.plant.yard ∧ p = r.settle r)
      ∧ { y1 with cranes := p.yard.cranes, links := p.yard.links } = p.yard
      ∧ ∀ (k : Nat) (c : CraneRecord), k < 3 → c = p.yard.crane k →
        ((s.plant.yard.crane k).state = .stopped → c.state = .stopped)
        ∧ (c.state ≠ .stopped → y1.crane k = c ∧ y1.link k = p.yard.link k)
        ∧ (c.state = .stopped →
          y1.link k = (p.yard.link k).put (linkFrame 0x45 c.nextSeq [])
          ∧ (c.current.isSome = true → y1.crane k = { c with
              state := .busy
              halted := false
              nextSeq := (c.nextSeq + 1) % 256
              timer := if c.stopOrder = none ∧ c.stage ≠ none then some ⟨s.plant.works.settings.stageTimeout, false⟩ else c.timer })
          ∧ (c.current = none → c.stopOrder = none → y1.crane k = { c with
              state := .idle, halted := false, nextSeq := (c.nextSeq + 1) % 256 })
          ∧ (c.current = none → c.stopOrder ≠ none → y1.crane k = { c with nextSeq := (c.nextSeq + 1) % 256 })))

/-- R192, R48, R61, R78 to R81, R162: an advance of the works clock: the clock rises and stays at its greatest value, and the
timer event of each bed's two records, and of each crane whose report timer runs, becomes due; events that the minute before
left due are taken first. A due event is taken while no row waits, or before the next advance (log 4), and acts on its record
as it finds it: an intake record counts and takes the effect of GAP_EXPIRY or LOST_EXPIRY at its limits, a heat record counts
its transition or its segment and takes the effect of TRANSITION_END or SEGMENT_END at the end, a report timer falls by one
minute and at 0, in the same event, takes the effect of HOMING_TIMEOUT or STAGE_TIMEOUT. An event taken is due no longer. Where
a transition has begun meanwhile (HeatModeTakesTheRequest, PlantStopReleaseStartsThemAgain), or the timer has been restarted or
stopped, the event of this minute is gone, so that the wait counts from the next advance (R48). -/
def Obligations.ClockAdvanceCountsAtEveryBed : Prop :=
  (∀ s : State, s.plant.isClosed = false →
    (s.events = [] → ∃ p, exec .worksClockAdvance s = .next { s with plant := p }
      ∧ p.works = { s.plant.works with clock := min 4294967295 (s.plant.works.clock + 1) }
      ∧ (∀ b, b < 12 → p.heat b = { s.plant.heat b with due := true }
        ∧ p.intakeOf b = { s.plant.intakeOf b with due := true })
      ∧ (∀ k, p.yard.crane k
        = { s.plant.yard.crane k with timer := (s.plant.yard.crane k).timer.map (fun m => ⟨m.minutes, true⟩) })
      ∧ { p with
          works := s.plant.works
          cure := s.plant.cure
          intake := s.plant.intake
          yard := { p.yard with cranes := s.plant.yard.cranes } } = s.plant)
    ∧ (s.events ≠ [] → ∀ t, step { s with pending := [] } = .next t →
        exec .worksClockAdvance s = exec .worksClockAdvance { t with pending := s.pending }))
    ∧ (∀ (s : State) (b : Fin 12) (r : IntakeRecord) (p : Plant) (n period : Nat), s.plant.isClosed = false →
      r = s.plant.intakeOf b → p = takeEvent s.plant (.intake b) → n = r.gapCount + 1 →
      period = s.plant.works.settings.period →
      (.intake b.val ∈ s.events ↔ r.due = true) ∧ (r.due = false → p = s.plant)
      ∧ (r.due = true →
        (r.state ≠ .lost → 6 * period ≤ n → exec (.lostExpiry b) s = .next { s with plant := p })
        ∧ (r.state = .ok → 2 * period ≤ n → n < 6 * period → exec (.gapExpiry b) s = .next { s with plant := p })
        ∧ (r.state = .lost → p.intakeOf b = { r with due := false })
        ∧ (r.state ≠ .lost → n < 6 * period → (r.state = .ok → n < 2 * period) →
          p.intakeOf b = { r with gapCount := n, due := false })
        ∧ (r.state = .lost ∨ n < 6 * period ∧ (r.state = .ok → n < 2 * period) →
          (∀ i : Fin 12, i ≠ b → p.intakeOf i = s.plant.intakeOf i) ∧ { p with intake := s.plant.intake } = s.plant)))
    ∧ (∀ (s : State) (b : Fin 12) (h : HeatRecord) (p : Plant) (counts : Prop), s.plant.isClosed = false →
      h = s.plant.heat b → p = takeEvent s.plant (.heat b) →
      (counts ↔ (s.plant.bed b).state = .curing ∧ h.plan = .running ∧ h.running ≠ .off ∧ s.plant.works.stop = false) →
      (.heat b.val ∈ s.events ↔ h.due = true) ∧ (h.due = false → p = s.plant)
      ∧ (h.due = true →
        (h.transition ≠ .none → h.minutes ≤ 1 → exec (.transitionEnd b) s = .next { s with plant := p })
        ∧ (counts → h.segMinutes ≤ 1 → exec (.segmentEnd b) s = .next { s with plant := p })
        ∧ (h.transition ≠ .none → 1 < h.minutes → h.running = .off →
          Plant.bedBecomes b (s.plant.bed b) { h with minutes := h.minutes - 1, due := false } s.plant p)
        ∧ (h.transition = .none → counts → 1 < h.segMinutes →
          Plant.bedBecomes b (s.plant.bed b) { h with segMinutes := h.segMinutes - 1, due := false } s.plant p)
        ∧ (h.transition = .none → ¬counts → Plant.bedBecomes b (s.plant.bed b) { h with due := false } s.plant p)))
    ∧ ∀ (s : State) (k : Fin 3) (c : CraneRecord) (p : Plant) (row : Instr), s.plant.isClosed = false →
      c = s.plant.yard.crane k → p = takeEvent s.plant (.crane k) →
      (c.stopOrder = none ∧ c.state = .homing → row = .homingTimeout k) →
      (¬(c.stopOrder = none ∧ c.state = .homing) → row = .stageTimeout k) →
      (.crane k.val ∈ s.events ↔ ∃ m, c.timer = some m ∧ m.due = true)
      ∧ ((∀ m, c.timer = some m → m.due = false) → p = s.plant)
      ∧ ∀ m, c.timer = some m → m.due = true →
        (m.minutes ≤ 1 → exec row s = .next { s with plant := p })
        ∧ (1 < m.minutes → p.yard.crane k = { c with timer := some ⟨m.minutes - 1, false⟩ }
          ∧ (∀ j, j ≠ k.val → p.yard.crane j = s.plant.yard.crane j)
          ∧ { p with yard := { p.yard with cranes := s.plant.yard.cranes } } = s.plant)

/-! ## Pieces and classes (R1 to R20) -/

/-- R7, R5: LOOKUP MARK: RANGE for a mark that is not valid, NOT-FOUND for one not in the map, else the handle, that is the
slot from the map with its current generation. In both phases, and nothing changes. -/
def Obligations.LookupMarkAnswersTheHandle : Prop :=
  ∀ (hd : Header) (m : MarkWord) (s : State) (digit : Nat → Nat) (valid : Prop), s.ready →
    (∀ i, digit i = m.number / 38 ^ (7 - i) % 38) →
    (valid ↔ m.cls = 0 ∧ m.bit42 = false ∧ m.number < 38 ^ 8 ∧ digit 0 ≠ 0
      ∧ ∀ i j, i < j → j < 8 → digit i = 0 → digit j = 0) →
    (¬valid → exec (.lookupMark hd m) s = .next (s.refused hd (.lookupMark m) .range []))
    ∧ (valid → (∀ e ∈ s.plant.markMap, e.1 ≠ m.number) →
        exec (.lookupMark hd m) s = .next (s.refused hd (.lookupMark m) .notFound []))
    ∧ (valid → ∀ slot, (m.number, slot) ∈ s.plant.markMap → (s.plant.markMap.map (fun e => e.1)).Nodup →
        exec (.lookupMark hd m) s = .next (s.accepted hd (.lookupMark m)
          (beBytes 2 ((s.plant.yard.pieceSlot slot).gen * 1024 + slot)) s.plant))

/-- R14, R13: DEFINE CLASS, a definition (1) or a withdrawal (0): its checks in order and its effect on the one entry. -/
def Obligations.DefineClassWritesTheEntry : Prop :=
  ∀ (hd : Header) (c choice len wt thr tier : Nat) (s : State), s.ready → choice ≤ 1 →
    (32 ≤ c ∨ choice = 1 ∧ ¬(10 ≤ len ∧ len ≤ 400 ∧ 1 ≤ wt ∧ wt ≤ 600 ∧ thr ≤ 4294967295 ∧ 1 ≤ tier ∧ tier ≤ 8) →
      exec (.defineClass hd c choice len wt thr tier) s
        = .next (s.refused hd (.defineClass c choice len wt thr tier) .range []))
    ∧ (c < 32 → (choice = 1 → 10 ≤ len ∧ len ≤ 400 ∧ 1 ≤ wt ∧ wt ≤ 600 ∧ thr ≤ 4294967295 ∧ 1 ≤ tier ∧ tier ≤ 8) →
      (0 < (s.plant.cls c).liveCount → exec (.defineClass hd c choice len wt thr tier) s
        = .next (s.refused hd (.defineClass c choice len wt thr tier) .inUse []))
      ∧ ((s.plant.cls c).liveCount = 0 → ∃ p,
        exec (.defineClass hd c choice len wt thr tier) s
          = .next (s.accepted hd (.defineClass c choice len wt thr tier) [] p)
        ∧ (choice = 1 → p.cls c = ⟨true, len, wt, thr, tier, 0⟩)
        ∧ (choice = 0 → p.cls c = ⟨false, 0, 0, 0, 0, 0⟩)
        ∧ (∀ i, i ≠ c → p.cls i = s.plant.cls i)
        ∧ { p with classes := s.plant.classes } = s.plant))

/-- R17, R16, R182, R183, R134, R161: HOLD, QC (1) or DAMAGE (2): its checks in order, and what an accepted one does to the
piece, its order and the current pick of its order (for a GRANTED pick STOP to its crane), before what follows the change;
all else stays. -/
def Obligations.HoldBarsThePiece : Prop :=
  ∀ (hd : Header) (h : Handle) (v : Nat) (s : State), s.ready → s.plant.isClosed = false →
    (s.plant.yard.piece? h = none → exec (.hold hd h v) s = .next (s.refused hd (.hold h v) .stale []))
    ∧ ∀ p, s.plant.yard.piece? h = some p →
      (v ≠ 1 → v ≠ 2 → exec (.hold hd h v) s = .next (s.refused hd (.hold h v) .range []))
      ∧ (v = 1 ∨ v = 2 →
        (p.location.isTruck = true → exec (.hold hd h v) s = .next (s.refused hd (.hold h v) .state []))
        ∧ (p.location.isTruck = false → pickSetting s.plant.yard p = true →
            exec (.hold hd h v) s = .next (s.refused hd (.hold h v) .inMove []))
        ∧ (p.location.isTruck = false → pickSetting s.plant.yard p = false → ∃ y1,
          exec (.hold hd h v) s = .next (s.accepted hd (.hold h v) [] (s.plant.settle { s.plant with yard := y1 }))
          ∧ ((v = 1 ∧ p.holds.qc = true ∨ v = 2 ∧ p.holds.damage = true) → y1 = s.plant.yard)
          ∧ (¬(v = 1 ∧ p.holds.qc = true ∨ v = 2 ∧ p.holds.damage = true) →
            ∀ held, held = { p.holds with qc := p.holds.qc || decide (v = 1), damage := p.holds.damage || decide (v = 2) } →
            (p.order = none → y1.pieceAt h.slot = some { p with holds := held }
              ∧ (∀ i, i ≠ h.slot → y1.pieceSlot i = s.plant.yard.pieceSlot i)
              ∧ { y1 with pieces := s.plant.yard.pieces } = s.plant.yard)
            ∧ ∀ k, p.order = some k → k < 4 →
              (∃ t, y1.pieceAt h.slot = some { p with holds := held, order := none, ticket := t })
              ∧ (y1.truck k).orderList = (s.plant.yard.truck k).orderList.erase h
              ∧ (y1.truck k).flagChanged = true ∧ (y1.truck k).nextIndex = (s.plant.yard.truck k).nextIndex
              ∧ (y1.truck k).pieces = (s.plant.yard.truck k).pieces
              ∧ (∃ ya : Yard, ya.pieceSlot h.slot = ⟨h.gen, some { p with holds := held, order := none }⟩
                ∧ (∀ i, i ≠ h.slot → ya.pieceSlot i = s.plant.yard.pieceSlot i)
                ∧ { ya with pieces := s.plant.yard.pieces } = s.plant.yard
                ∧ ∀ (t : TruckRecord) (atNext done : Prop), t = s.plant.yard.truck k →
                  (atNext ↔ t.orderList.idxOf h = t.nextIndex) →
                  (done ↔ t.state = .opened ∧ t.orderList.erase h ≠ []
                    ∧ t.nextIndex = (t.orderList.erase h).length) →
                  (¬atNext → { y1 with trucks := ya.trucks } = ya
                    ∧ y1.truck k = { t with orderList := t.orderList.erase h, flagChanged := true })
                  ∧ (atNext → (done → y1.truck k = { t with
                        orderList := t.orderList.erase h
                        flagChanged := true
                        currentPick := none
                        state := .complete
                        flagComplete := true })
                    ∧ (¬done → y1.truck k = { t with
                        orderList := t.orderList.erase h, flagChanged := true, currentPick := none }))
                  ∧ (atNext → (t.currentPick = none → { y1 with trucks := ya.trucks } = ya)
                    ∧ ∀ pick u, t.currentPick = some pick → ya.ticketAt pick.slot = some u →
                      ya.pickLeft s.plant.site pick.slot u y1)
                  ∧ ∀ n, n ≠ k → (y1.truck n).fixed = (s.plant.yard.truck n).fixed
                    ∧ ((∀ pick, t.currentPick = some pick →
                        (s.plant.yard.truck n).currentPick ≠ some (ya.ticketHandle pick.slot)) →
                      y1.truck n = s.plant.yard.truck n))
              ∧ ((s.plant.yard.truck k).orderList.idxOf h ≠ (s.plant.yard.truck k).nextIndex →
                  y1.tickets = s.plant.yard.tickets ∧ y1.finished = s.plant.yard.finished
                  ∧ (y1.truck k).currentPick = (s.plant.yard.truck k).currentPick)
              ∧ ((s.plant.yard.truck k).orderList.idxOf h = (s.plant.yard.truck k).nextIndex →
                  (y1.truck k).currentPick = none
                  ∧ ∀ pick t, (s.plant.yard.truck k).currentPick = some pick →
                    s.plant.yard.ticketAt pick.slot = some t →
                    ((t.state = .pending ∨ t.state = .ready ∨ t.state = .granted) →
                      y1.finished = s.plant.yard.finished ++ [pick.slot]
                      ∧ ∃ u, y1.ticketAt pick.slot = some u ∧ u.state = .cancelled ∧ u.outcome = .withdrawn)
                    ∧ (t.state = .lifting → y1.ticketAt pick.slot = some { t with holdPending := true }
                        ∧ y1.finished = s.plant.yard.finished)
                    ∧ (t.state = .lifted → y1.finished = s.plant.yard.finished
                        ∧ ∃ u, y1.ticketAt pick.slot = some u ∧ u.state = .lifted
                          ∧ (u.dest = none ∨ u.redirected = true ∧ ∃ i, u.dest = some (.stack i)))))))

/-- R18: RELEASE HOLD of QC 1, DAMAGE 2, WEIGHT 4, CURE 8 or ALL 15: its checks in order; the named members leave the set
and nothing else changes. -/
def Obligations.ReleaseHoldRemovesTheHold : Prop :=
  ∀ (hd : Header) (h : Handle) (v : Nat) (s : State), s.ready →
    (s.plant.isClosed = true → exec (.releaseHold hd h v) s = .next (s.refused hd (.releaseHold h v) .closed []))
    ∧ (s.plant.isClosed = false →
      (s.plant.yard.piece? h = none → exec (.releaseHold hd h v) s = .next (s.refused hd (.releaseHold h v) .stale []))
      ∧ ∀ p, s.plant.yard.piece? h = some p →
        (v ≠ 1 → v ≠ 2 → v ≠ 4 → v ≠ 8 → v ≠ 15 →
          exec (.releaseHold hd h v) s = .next (s.refused hd (.releaseHold h v) .range []))
        ∧ (v = 1 ∨ v = 2 ∨ v = 4 ∨ v = 8 ∨ v = 15 → ∃ y1,
          exec (.releaseHold hd h v) s = .next (s.accepted hd (.releaseHold h v) [] { s.plant with yard := y1 })
          ∧ y1.piece? h = some { p with
              holds := ⟨p.holds.qc && decide (v ≠ 1 ∧ v ≠ 15), p.holds.damage && decide (v ≠ 2 ∧ v ≠ 15),
                p.holds.weight && decide (v ≠ 4 ∧ v ≠ 15), p.holds.cure && decide (v ≠ 8 ∧ v ≠ 15)⟩ }
          ∧ (∀ i, i ≠ h.slot → y1.pieceSlot i = s.plant.yard.pieceSlot i)
          ∧ { y1 with pieces := s.plant.yard.pieces } = s.plant.yard))

/-- R19, R20, R4: SCRAP PIECE: its checks in order; an accepted one takes the piece out of its holder and retires the
record, before what follows the change. -/
def Obligations.ScrapPieceRetiresTheRecord : Prop :=
  ∀ (hd : Header) (h : Handle) (s : State), s.ready → s.plant.isClosed = false →
    (s.plant.yard.piece? h = none → exec (.scrapPiece hd h) s = .next (s.refused hd (.scrapPiece h) .stale []))
    ∧ ∀ p, s.plant.yard.piece? h = some p →
      (p.ticket.isSome = true → exec (.scrapPiece hd h) s = .next (s.refused hd (.scrapPiece h) .inMove []))
      ∧ (p.ticket = none → p.order.isSome = true →
          exec (.scrapPiece hd h) s = .next (s.refused hd (.scrapPiece h) .inUse []))
      ∧ (p.ticket = none → p.order = none → ∀ allowed : Prop,
        (allowed ↔ (∃ k, p.location = .hook k) ∨ (∃ l, p.location = .lane l)
          ∨ (∃ i tier, p.location = .stack i tier ∧ (s.plant.yard.stack i).pieces.getLast? = some h
              ∧ (s.plant.yard.stack i).claims = [])
          ∨ ∃ k tier, p.location = .truck k tier ∧ (s.plant.yard.truck k).pieces.getLast? = some h) →
        (¬allowed → exec (.scrapPiece hd h) s = .next (s.refused hd (.scrapPiece h) .state []))
        ∧ (allowed → ∃ q,
          exec (.scrapPiece hd h) s
            = .next (s.accepted hd (.scrapPiece h) (beBytes 2 (h.gen * 1024 + h.slot)) (s.plant.settle q))
          ∧ q.yard.pieceSlot h.slot = ⟨if h.slot = 1023 ∧ h.gen = 62 then 0 else (h.gen + 1) % 64, none⟩
          ∧ (∀ i, i ≠ h.slot → q.yard.pieceSlot i = s.plant.yard.pieceSlot i)
          ∧ q.markMap = s.plant.markMap.filter (fun e => decide (e.1 ≠ p.mark))
          ∧ (p.cls < 32 → q.cls p.cls = { s.plant.cls p.cls with liveCount := (s.plant.cls p.cls).liveCount - 1 })
          ∧ (∀ c, c ≠ p.cls → q.cls c = s.plant.cls c)
          ∧ q.works = s.plant.works ∧ q.beds = s.plant.beds ∧ q.cure = s.plant.cure ∧ q.bedLines = s.plant.bedLines
          ∧ q.intake = s.plant.intake
          ∧ q.yard.tickets = s.plant.yard.tickets ∧ q.yard.moveQueue = s.plant.yard.moveQueue
          ∧ q.yard.finished = s.plant.yard.finished ∧ q.yard.arbiter = s.plant.yard.arbiter
          ∧ q.yard.links = s.plant.yard.links
          ∧ (∀ k, k < 3 → q.yard.crane k = if p.location = .hook k then { s.plant.yard.crane k with hook := none }
              else s.plant.yard.crane k)
          ∧ (∀ l, l < 2 → q.yard.lane l = if p.location = .lane l then { s.plant.yard.lane l with
                pieces := (s.plant.yard.lane l).pieces.erase h
                demand := demandLevel s.plant.works.settings.t1 s.plant.works.settings.t2 s.plant.works.settings.t3
                  (s.plant.yard.lane l).drain ((s.plant.yard.lane l).pieces.erase h).length (s.plant.yard.lane l).demand }
              else s.plant.yard.lane l)
          ∧ (∀ i, i < 40 → ((∃ tier, p.location = .stack i tier) →
                q.yard.stack i = { s.plant.yard.stack i with pieces := (s.plant.yard.stack i).pieces.dropLast })
              ∧ ((∀ tier, p.location ≠ .stack i tier) → q.yard.stack i = s.plant.yard.stack i))
          ∧ (∀ k, k < 4 → ((∃ tier, p.location = .truck k tier) → q.yard.truck k = { s.plant.yard.truck k with
                pieces := (s.plant.yard.truck k).pieces.dropLast
                state := if (s.plant.yard.truck k).pieces.dropLast = [] ∧ (s.plant.yard.truck k).state = .unloading
                  then .free else (s.plant.yard.truck k).state })
              ∧ ((∀ tier, p.location ≠ .truck k tier) → q.yard.truck k = s.plant.yard.truck k))))

/-! ## Beds (R26 to R45) -/

/-- R28: CONFIGURE BED: its checks in order; an accepted one writes four fields of the bed record and nothing else. -/
def Obligations.ConfigureBedWritesTheRecord : Prop :=
  ∀ (hd : Header) (b bay pos sp : Nat) (s : State), s.ready →
    (¬(b < 12 ∧ bay < 64 ∧ 1 ≤ pos ∧ pos ≤ 8 ∧ sp ≤ 190) →
      exec (.configureBed hd b bay pos sp) s = .next (s.refused hd (.configureBed b bay pos sp) .range []))
    ∧ (b < 12 ∧ bay < 64 ∧ 1 ≤ pos ∧ pos ≤ 8 ∧ sp ≤ 190 →
      ((s.plant.bed b).state ≠ .vacant →
        exec (.configureBed hd b bay pos sp) s = .next (s.refused hd (.configureBed b bay pos sp) .state []))
      ∧ ((s.plant.bed b).state = .vacant → ∃ p,
        exec (.configureBed hd b bay pos sp) s = .next (s.accepted hd (.configureBed b bay pos sp) [] p)
        ∧ p.bed b = { s.plant.bed b with configured := true, bay := bay, positions := pos, holdSetpoint := sp }
        ∧ (∀ i, i ≠ b → p.bed i = s.plant.bed i) ∧ { p with beds := s.plant.beds } = s.plant))

/-- R29, R30, R33, R60: PREPARE BED, ABANDON BED and START CURE: the bed state, the heat record and the heat order of the one
bed; and their refusals. -/
def Obligations.BedCycleCommandsMoveTheBed : Prop :=
  ∀ (hd : Header) (b : Nat) (s : State), s.ready → s.plant.isClosed = false →
    (12 ≤ b → exec (.prepareBed hd b) s = .next (s.refused hd (.prepareBed b) .range [])
      ∧ exec (.abandonBed hd b) s = .next (s.refused hd (.abandonBed b) .range [])
      ∧ exec (.startCure hd b) s = .next (s.refused hd (.startCure b) .range []))
    ∧ (b < 12 →
      (¬((s.plant.bed b).configured = true ∧ (s.plant.bed b).state = .vacant) →
        exec (.prepareBed hd b) s = .next (s.refused hd (.prepareBed b) .state []))
      ∧ ((s.plant.bed b).configured = true → (s.plant.bed b).state = .vacant → ∃ p,
        exec (.prepareBed hd b) s = .next (s.accepted hd (.prepareBed b) [] p)
        ∧ Plant.bedBecomes b { s.plant.bed b with state := .set } (s.plant.heat b) s.plant p)
      ∧ ((s.plant.bed b).state ≠ .set → exec (.abandonBed hd b) s = .next (s.refused hd (.abandonBed b) .state []))
      ∧ ((s.plant.bed b).state = .set → ∃ p, exec (.abandonBed hd b) s = .next (s.accepted hd (.abandonBed b) [] p)
        ∧ Plant.bedBecomes b { s.plant.bed b with state := .vacant }
            { s.plant.heat b with requested := .off, running := .off, transition := .none, minutes := 0 } s.plant p)
      ∧ (((s.plant.bed b).state ≠ .cast ∨ (s.plant.heat b).run = [] ∧ (s.plant.heat b).next = []) →
        exec (.startCure hd b) s = .next (s.refused hd (.startCure b) .state []))
      ∧ ((s.plant.bed b).state = .cast → ∀ plan, plan ≠ [] →
        ((s.plant.heat b).run = plan → ∃ p, exec (.startCure hd b) s = .next (s.accepted hd (.startCure b) [] p)
          ∧ Plant.bedBecomes b { s.plant.bed b with state := .curing }
            { s.plant.heat b with
              plan := .running, segIndex := 0, segMinutes := (plan[0]?.map Segment.duration).getD 0, swapPending := false }
            s.plant p)
        ∧ ((s.plant.heat b).run = [] → (s.plant.heat b).next = plan → ∃ p,
          exec (.startCure hd b) s = .next (s.accepted hd (.startCure b) [] p)
          ∧ Plant.bedBecomes b { s.plant.bed b with state := .curing }
            { s.plant.heat b with
              run := plan, next := [], plan := .running, segIndex := 0
              segMinutes := (plan[0]?.map Segment.duration).getD 0, swapPending := false }
            s.plant p)))

/-- R31, R32, R3, R56: CAST. An accepted one makes one record for each position, in the lowest free slots in position order,
with its mark, class and cast minute, counts them in their classes and in the mark map, and leaves the bed CAST with maturity
0 and its heat order sent if it changed; no other record changes. The checks in order. -/
def Obligations.CastFillsTheBed : Prop :=
  (∀ (hd : Header) (b : Nat) (entries : List MarkWord) (s : State), s.ready → s.plant.isClosed = false → b < 12 →
    (s.plant.bed b).state = .set → entries.length = (s.plant.bed b).positions → (s.plant.bed b).positions ≤ 8 →
    (∀ m ∈ entries, markWithClass m = true ∧ m.cls < 32 ∧ (s.plant.cls m.cls).defined = true) →
    (s.plant.bed b).positions ≤ s.plant.yard.freePieceCount →
    (∀ m ∈ entries, markSlot s.plant.markMap m.number = none) → (entries.map (fun m => m.number)).Nodup →
    ∃ p, exec (.cast hd b entries) s = .next (s.accepted hd (.cast b entries)
          ((List.range (s.plant.bed b).positions).flatMap (fun i => optHandleBytes ((p.bed b).at i))) p)
      ∧ { p.bed b with table := (s.plant.bed b).table } = { s.plant.bed b with state := .cast, maturity := 0 }
      ∧ (∀ i m, entries[i]? = some m → ∃ h, (p.bed b).at i = some h ∧ s.plant.yard.pieceAt h.slot = none
          ∧ h.gen = (s.plant.yard.pieceSlot h.slot).gen ∧ markSlot p.markMap m.number = some h.slot
          ∧ p.yard.pieceAt h.slot
            = some ⟨m.number, m.cls, .bed b i, 0, s.plant.works.clock, ⟨false, false, false, false⟩, none, none⟩)
      ∧ (∀ i, entries.length ≤ i → (p.bed b).at i = (s.plant.bed b).at i)
      ∧ (∀ i h slot, i < entries.length → (p.bed b).at i = some h → slot < h.slot → s.plant.yard.pieceAt slot = none →
          ∃ j g, j < i ∧ (p.bed b).at j = some g ∧ g.slot = slot)
      ∧ (∀ slot, (∀ i h, i < entries.length → (p.bed b).at i = some h → h.slot ≠ slot) →
          p.yard.pieceSlot slot = s.plant.yard.pieceSlot slot)
      ∧ { p.yard with pieces := s.plant.yard.pieces } = s.plant.yard
      ∧ (∀ mark slot, (mark, slot) ∈ p.markMap ↔ (mark, slot) ∈ s.plant.markMap
          ∨ ∃ i m h, entries[i]? = some m ∧ (p.bed b).at i = some h ∧ mark = m.number ∧ slot = h.slot)
      ∧ (∀ c, p.cls c = { s.plant.cls c with
          liveCount := (s.plant.cls c).liveCount + entries.countP (fun m => decide (m.cls = c)) })
      ∧ p.heat b = { s.plant.heat b with lastOrder := formOrder (p.bed b) (s.plant.heat b) }
      ∧ (p.bedLine b = if formOrder (p.bed b) (s.plant.heat b) = (s.plant.heat b).lastOrder then s.plant.bedLine b
          else (s.plant.bedLine b).put (formOrder (p.bed b) (s.plant.heat b)))
      ∧ (∀ i, i ≠ b → p.bed i = s.plant.bed i ∧ p.heat i = s.plant.heat i ∧ p.bedLine i = s.plant.bedLine i)
      ∧ p.works = s.plant.works ∧ p.intake = s.plant.intake)
    ∧ ∀ (hd : Header) (b : Nat) (entries : List MarkWord) (s : State) (row : Instr), s.ready →
      s.plant.isClosed = false → row = .cast hd b entries →
      (12 ≤ b → refuses row s .range [])
      ∧ (b < 12 →
        ((s.plant.bed b).state ≠ .set → refuses row s .state [])
        ∧ ((s.plant.bed b).state = .set →
          (¬(entries.length = (s.plant.bed b).positions ∧ (∀ m ∈ entries, markWithClass m = true)
              ∧ ∀ m ∈ entries, m.cls < 32 ∧ (s.plant.cls m.cls).defined = true) → refuses row s .range [])
          ∧ (entries.length = (s.plant.bed b).positions → (∀ m ∈ entries, markWithClass m = true) →
            (∀ m ∈ entries, m.cls < 32 ∧ (s.plant.cls m.cls).defined = true) →
            (s.plant.yard.freePieceCount < (s.plant.bed b).positions → refuses row s .noSlot [])
            ∧ ((s.plant.bed b).positions ≤ s.plant.yard.freePieceCount →
              ((∃ m ∈ entries, markSlot s.plant.markMap m.number ≠ none) ∨ ¬(entries.map (fun m => m.number)).Nodup →
                refuses row s .duplicate [])))))

/-- R34, R35, R43: RELEASE STRAND: its checks in order with the fields of a refusal; an accepted one makes the bed RELEASED
with its heat request OFF and its plan ended. BED PRIORITY writes the turnover level. Both before what follows. -/
def Obligations.ReleaseStrandFreesTheBed : Prop :=
  (∀ (hd : Header) (b level : Nat) (s : State), s.ready → s.plant.isClosed = false → 12 ≤ b →
    refuses (.releaseStrand hd b) s .range [] ∧ refuses (.bedPriority hd b level) s .range [])
  ∧ ∀ (hd : Header) (b level : Nat) (s : State), s.ready → s.plant.isClosed = false → b < 12 →
    ((s.plant.bed b).state ≠ .curing ∨ (s.plant.heat b).running ≠ .off →
      exec (.releaseStrand hd b) s = .next (s.refused hd (.releaseStrand b) .state []))
    ∧ ((s.plant.bed b).state = .curing → (s.plant.heat b).running = .off →
      ((s.plant.heat b).transition ≠ .none →
        exec (.releaseStrand hd b) s = .next (s.refused hd (.releaseStrand b) .busy []))
      ∧ ((s.plant.heat b).transition = .none →
        (∀ i q, i < 8 → s.plant.pieceOn b i = some q → q.holds.cure = true →
          (∀ j r, j < i → s.plant.pieceOn b j = some r → r.holds.cure = false) →
          exec (.releaseStrand hd b) s = .next (s.refused hd (.releaseStrand b) .held [BitVec.ofNat 8 i]))
        ∧ ((∀ i q, i < 8 → s.plant.pieceOn b i = some q → q.holds.cure = false) →
          (∀ i q, i < 8 → s.plant.pieceOn b i = some q → q.maturity < (s.plant.cls q.cls).threshold →
            (∀ j r, j < i → s.plant.pieceOn b j = some r → (s.plant.cls r.cls).threshold ≤ r.maturity) →
            exec (.releaseStrand hd b) s = .next (s.refused hd (.releaseStrand b) .immature
              (BitVec.ofNat 8 i :: (beBytes 4 q.maturity ++ beBytes 4 (s.plant.cls q.cls).threshold))))
          ∧ ((∀ i q, i < 8 → s.plant.pieceOn b i = some q → (s.plant.cls q.cls).threshold ≤ q.maturity) → ∃ p,
            exec (.releaseStrand hd b) s = .next (s.accepted hd (.releaseStrand b) [] (s.plant.settle p))
            ∧ ((s.plant.heat b).plan = .running → Plant.bedBecomes b { s.plant.bed b with state := .released }
                { s.plant.heat b with requested := .off, plan := .complete, swapPending := false } s.plant p)
            ∧ ((s.plant.heat b).plan ≠ .running → Plant.bedBecomes b { s.plant.bed b with state := .released }
                { s.plant.heat b with requested := .off } s.plant p)))))
    ∧ (4 ≤ level → exec (.bedPriority hd b level) s = .next (s.refused hd (.bedPriority b level) .range []))
    ∧ (level < 4 → ∃ p, exec (.bedPriority hd b level) s = .next (s.accepted hd (.bedPriority b level) [] (s.plant.settle p))
      ∧ p.bed b = { s.plant.bed b with turnover := level } ∧ (∀ i, i ≠ b → p.bed i = s.plant.bed i)
      ∧ { p with beds := s.plant.beds } = s.plant)

/-- R39, R40: SCRAP BED: RANGE for a bed number past 11; a piece with a ticket refuses it IN-MOVE with the lowest such
position and the ticket; an accepted one retires the records of the bed's positions and leaves the bed VACANT with its heat
forced OFF, the OFF order put on the bed line if it is not the last one sent, and its plan ended; the retired pieces leave the
mark map and the live counts of their classes (R4). -/
def Obligations.ScrapBedRetiresThePour : Prop :=
  (∀ (hd : Header) (b : Nat) (s : State), s.ready → s.plant.isClosed = false → 12 ≤ b →
    refuses (.scrapBed hd b) s .range [])
  ∧ ∀ (hd : Header) (b : Nat) (s : State), s.ready → s.plant.isClosed = false → b < 12 → (s.plant.bed b).positions ≤ 8 →
    ((s.plant.bed b).state ≠ .cast → (s.plant.bed b).state ≠ .curing →
      exec (.scrapBed hd b) s = .next (s.refused hd (.scrapBed b) .state []))
    ∧ ((s.plant.bed b).state = .cast ∨ (s.plant.bed b).state = .curing →
      (∀ i q t, i < 8 → s.plant.pieceOn b i = some q → q.ticket = some t →
        (∀ j r, j < i → s.plant.pieceOn b j = some r → r.ticket = none) →
        exec (.scrapBed hd b) s
          = .next (s.refused hd (.scrapBed b) .inMove (BitVec.ofNat 8 i :: beBytes 2 (t.gen * 1024 + t.slot))))
      ∧ ((∀ i q, i < 8 → s.plant.pieceOn b i = some q → q.ticket = none) → ∃ p,
        exec (.scrapBed hd b) s = .next (s.accepted hd (.scrapBed b)
          [BitVec.ofNat 8 ((s.plant.bed b).table.toList.filterMap id).length] p)
        ∧ (p.bed b).state = .vacant ∧ (∀ i, i < (s.plant.bed b).positions → (p.bed b).at i = none)
        ∧ (p.bed b).maturity = (s.plant.bed b).maturity ∧ (p.bed b).flags = (s.plant.bed b).flags
        ∧ (p.bed b).turnover = (s.plant.bed b).turnover
        ∧ (∃ o, p.heat b = { s.plant.heat b with
            requested := .off, running := .off, transition := .none, minutes := 0
            plan := if (s.plant.heat b).plan = .running then .complete else (s.plant.heat b).plan
            swapPending := if (s.plant.heat b).plan = .running then false else (s.plant.heat b).swapPending
            lastOrder := o } ∧ o = ⟨.off, 0⟩)
        ∧ { p.bed b with table := (s.plant.bed b).table } = { s.plant.bed b with state := .vacant }
        ∧ (∀ i, (s.plant.bed b).positions ≤ i → (p.bed b).at i = (s.plant.bed b).at i)
        ∧ (p.bedLine b = if (s.plant.heat b).lastOrder = ⟨.off, 0⟩ then s.plant.bedLine b
            else (s.plant.bedLine b).put ⟨.off, 0⟩)
        ∧ (∀ gone : List Handle, gone = ((s.plant.bed b).table.toList.take (s.plant.bed b).positions).filterMap id →
          p.markMap = s.plant.markMap.filter (fun e =>
            gone.all (fun h => (s.plant.yard.pieceAt h.slot).all (fun q => decide (q.mark ≠ e.1))))
          ∧ ((gone.map (fun h => h.slot)).Nodup → ∀ c, p.cls c = { s.plant.cls c with
              liveCount := (s.plant.cls c).liveCount
                - gone.countP (fun h => (s.plant.yard.pieceAt h.slot).any (fun q => decide (q.cls = c))) }))
        ∧ (∀ slot q, s.plant.yard.pieceAt slot = some q →
          ((∃ i h, i < (s.plant.bed b).positions ∧ (s.plant.bed b).at i = some h ∧ h.slot = slot) →
            p.yard.pieceSlot slot = ⟨if slot = 1023 ∧ (s.plant.yard.pieceSlot slot).gen = 62 then 0
              else ((s.plant.yard.pieceSlot slot).gen + 1) % 64, none⟩
            ∧ markSlot p.markMap q.mark = none)
          ∧ ((∀ i h, i < (s.plant.bed b).positions → (s.plant.bed b).at i = some h → h.slot ≠ slot) →
            p.yard.pieceSlot slot = s.plant.yard.pieceSlot slot))
        ∧ (∀ i, i ≠ b → p.bed i = s.plant.bed i ∧ p.heat i = s.plant.heat i
            ∧ p.bedLine i = s.plant.bedLine i)
        ∧ { p.yard with pieces := s.plant.yard.pieces } = s.plant.yard
        ∧ p.works = s.plant.works ∧ p.intake = s.plant.intake))

/-! ## Cure Control (R46 to R66) -/

/-- R55: the heat order of a bed, by the running mode and the transition, the bed state and the plan; OFF at 0.0 °C for every
other combination. -/
def Obligations.HeatOrderFollowsTheTable : Prop :=
  ∀ (b : BedRecord) (h : HeatRecord) (word : ModeWord) (setpoint : Nat) (row : Prop),
    (row ↔ (h.running = .off ∧ h.transition = .purge ∧ word = .purge
          ∨ h.running = .off ∧ h.transition = .settle ∧ word = .settle
          ∨ h.running = .steam ∧ h.transition = .none ∧ word = .steam
          ∨ h.running = .mat ∧ h.transition = .none ∧ word = .mat)
        ∧ ((b.state = .set ∨ b.state = .cast) ∧ setpoint = b.holdSetpoint
          ∨ b.state = .curing ∧ h.plan = .running ∧ ∃ g, h.run[h.segIndex]? = some g ∧ setpoint = g.setpoint)) →
    (row → formOrder b h = ⟨word, setpoint⟩)
    ∧ (formOrder b h = ⟨.off, 0⟩ ∨ ∃ w sp, w ≠ .off ∧ formOrder b h = ⟨w, sp⟩
        ∧ (h.running = .off ∧ h.transition = .purge ∧ w = .purge
          ∨ h.running = .off ∧ h.transition = .settle ∧ w = .settle
          ∨ h.running = .steam ∧ h.transition = .none ∧ w = .steam
          ∨ h.running = .mat ∧ h.transition = .none ∧ w = .mat)
        ∧ ((b.state = .set ∨ b.state = .cast) ∧ sp = b.holdSetpoint
          ∨ b.state = .curing ∧ h.plan = .running ∧ ∃ g, h.run[h.segIndex]? = some g ∧ sp = g.setpoint))

/-- R49 to R51: HEAT MODE, OFF 0, STEAM 1 or MAT 2: its checks in order; what an accepted one does to the heat record, and
the record's modes, transition and minutes as its result. A transition that begins counts from the next advance (R48): a timer
event of this minute that is still due is gone (log 4). The 1 byte of the transition minutes in the result is log 36. -/
def Obligations.HeatModeTakesTheRequest : Prop :=
  ∀ (hd : Header) (b n : Nat) (s : State), s.ready → s.plant.isClosed = false →
    (12 ≤ b ∨ 2 < n → exec (.heatMode hd b n) s = .next (s.refused hd (.heatMode b n) .range []))
    ∧ (b < 12 → n ≤ 2 →
      ((s.plant.bed b).state ≠ .set → (s.plant.bed b).state ≠ .cast → (s.plant.bed b).state ≠ .curing →
        exec (.heatMode hd b n) s = .next (s.refused hd (.heatMode b n) .state []))
      ∧ ((s.plant.bed b).state = .set ∨ (s.plant.bed b).state = .cast ∨ (s.plant.bed b).state = .curing →
        (n ≠ 0 → ((s.plant.intakeOf b).unitFault = true
            ∨ (s.plant.bed b).state = .curing ∧ (s.plant.heat b).plan ≠ .running) →
          exec (.heatMode hd b n) s = .next (s.refused hd (.heatMode b n) .state []))
        ∧ (n ≠ 0 → (s.plant.intakeOf b).unitFault = false →
          ((s.plant.bed b).state = .curing → (s.plant.heat b).plan = .running) →
          (s.plant.heat b).transition ≠ .none →
          exec (.heatMode hd b n) s = .next (s.refused hd (.heatMode b n) .busy []))
        ∧ (n ≠ 0 → (s.plant.intakeOf b).unitFault = false →
          ((s.plant.bed b).state = .curing → (s.plant.heat b).plan = .running) →
          (s.plant.heat b).transition = .none →
          ∀ m, (n = 1 ∧ m = .steam ∨ n = 2 ∧ m = .mat) → ∃ p h,
            exec (.heatMode hd b n) s = .next (s.accepted hd (.heatMode b n)
              [BitVec.ofNat 8 h.requested.num, BitVec.ofNat 8 h.running.num, BitVec.ofNat 8 h.transition.num,
                BitVec.ofNat 8 h.minutes] p)
            ∧ Plant.bedBecomes b (s.plant.bed b) h s.plant p
            ∧ ((s.plant.heat b).requested = m → h = s.plant.heat b)
            ∧ ((s.plant.heat b).requested ≠ m → s.plant.works.stop = true →
                h = { s.plant.heat b with requested := m })
            ∧ ((s.plant.heat b).requested ≠ m → s.plant.works.stop = false →
                (m = .steam → h = { s.plant.heat b with
                  requested := .steam, running := .off, transition := .purge
                  minutes := s.plant.works.settings.purge, due := false })
                ∧ (m = .mat → h = { s.plant.heat b with
                  requested := .mat, running := .off, transition := .settle, minutes := 1, due := false })))
        ∧ (n = 0 → ∃ p h,
          exec (.heatMode hd b n) s = .next (s.accepted hd (.heatMode b n) [0#8, 0#8, 0#8, 0#8] p)
          ∧ h = { s.plant.heat b with requested := .off, running := .off, transition := .none, minutes := 0 }
          ∧ Plant.bedBecomes b (s.plant.bed b) h s.plant p)))

/-- R57: LOAD PLAN: its checks in order; an accepted one writes NEXT and nothing else, in both phases. -/
def Obligations.LoadPlanWritesNext : Prop :=
  ∀ (hd : Header) (b : Nat) (plan : List Segment) (s : State), s.ready →
    (¬(b < 12 ∧ 1 ≤ plan.length ∧ plan.length ≤ 8 ∧ (∀ g ∈ plan, g.setpoint ≤ 190)
        ∧ ∀ g ∈ plan, 1 ≤ g.duration ∧ g.duration ≤ 1440) →
      exec (.loadPlan hd b plan) s = .next (s.refused hd (.loadPlan b plan) .range []))
    ∧ (b < 12 ∧ 1 ≤ plan.length ∧ plan.length ≤ 8 ∧ (∀ g ∈ plan, g.setpoint ≤ 190)
        ∧ (∀ g ∈ plan, 1 ≤ g.duration ∧ g.duration ≤ 1440) → ∃ p,
      exec (.loadPlan hd b plan) s = .next (s.accepted hd (.loadPlan b plan) [] p)
      ∧ p.heat b = { s.plant.heat b with next := plan } ∧ (∀ i, i ≠ b → p.heat i = s.plant.heat i)
      ∧ { p with cure := s.plant.cure } = s.plant)

/-- R58, R59, R63: SWAP PLAN and STOP CURE: their checks in order, the heat record and the heat order of the one bed. -/
def Obligations.PlanCommandsMoveThePlan : Prop :=
  ∀ (hd : Header) (b : Nat) (s : State), s.ready → s.plant.isClosed = false →
    (12 ≤ b → exec (.swapPlan hd b) s = .next (s.refused hd (.swapPlan b) .range [])
      ∧ exec (.stopCure hd b) s = .next (s.refused hd (.stopCure b) .range []))
    ∧ (b < 12 →
      ((s.plant.heat b).next = [] → exec (.swapPlan hd b) s = .next (s.refused hd (.swapPlan b) .state []))
      ∧ ((s.plant.heat b).next ≠ [] → ∃ p h,
        exec (.swapPlan hd b) s = .next (s.accepted hd (.swapPlan b)
          [BitVec.ofNat 8 h.plan.num, if h.swapPending then 1#8 else 0#8] p)
        ∧ Plant.bedBecomes b (s.plant.bed b) h s.plant p
        ∧ ((s.plant.heat b).plan = .running → h = { s.plant.heat b with swapPending := true })
        ∧ ((s.plant.heat b).plan ≠ .running → (s.plant.bed b).state ≠ .curing →
            h = { s.plant.heat b with run := (s.plant.heat b).next, next := [], plan := .loaded })
        ∧ ((s.plant.heat b).plan = .complete → (s.plant.bed b).state = .curing →
            h = { s.plant.heat b with
              run := (s.plant.heat b).next, next := [], plan := .running, segIndex := 0
              segMinutes := ((s.plant.heat b).next[0]?.map Segment.duration).getD 0 }))
      ∧ ((s.plant.bed b).state ≠ .curing → exec (.stopCure hd b) s = .next (s.refused hd (.stopCure b) .state []))
      ∧ ((s.plant.bed b).state = .curing → ∃ p, exec (.stopCure hd b) s = .next (s.accepted hd (.stopCure b) [] p)
        ∧ Plant.bedBecomes b (s.plant.bed b)
          { s.plant.heat b with
            plan := .complete, swapPending := false, requested := .off, running := .off, transition := .none
            minutes := 0 } s.plant p))

/-- R48, R61 to R63: the timer events of a heat record that end its transition or its segment; nothing when none is due
(log 5). That the last order is the order that the records form is R56, which
StepsKeepTheHeat says every step keeps. -/
def Obligations.HeatTimersEndTransitionsAndSegments : Prop :=
  ∀ (b : Fin 12) (s : State), s.plant.isClosed = false →
    formOrder (s.plant.bed b) (s.plant.heat b) = (s.plant.heat b).lastOrder →
    ((s.plant.heat b).transition = .none ∨ 1 < (s.plant.heat b).minutes → exec (.transitionEnd b) s = .next s)
    ∧ ((s.plant.heat b).transition ≠ .none → (s.plant.heat b).minutes ≤ 1 → (s.plant.heat b).running = .off →
      ∃ p, exec (.transitionEnd b) s = .next { s with plant := p }
        ∧ Plant.bedBecomes b (s.plant.bed b) { s.plant.heat b with
            transition := .none, minutes := 0, running := (s.plant.heat b).requested, due := false } s.plant p)
    ∧ (¬((s.plant.bed b).state = .curing ∧ (s.plant.heat b).plan = .running ∧ (s.plant.heat b).running ≠ .off
          ∧ s.plant.works.stop = false ∧ (s.plant.heat b).segMinutes ≤ 1) → exec (.segmentEnd b) s = .next s)
    ∧ ((s.plant.bed b).state = .curing → (s.plant.heat b).plan = .running → (s.plant.heat b).running ≠ .off →
        s.plant.works.stop = false → (s.plant.heat b).segMinutes ≤ 1 → (s.plant.heat b).transition = .none →
      ∃ p, exec (.segmentEnd b) s = .next { s with plant := p }
        ∧ ((s.plant.heat b).swapPending = true → Plant.bedBecomes b (s.plant.bed b) { s.plant.heat b with
            run := (s.plant.heat b).next, next := [], segIndex := 0, swapPending := false, due := false
            segMinutes := ((s.plant.heat b).next[0]?.map Segment.duration).getD 0 } s.plant p)
        ∧ ((s.plant.heat b).swapPending = false → (s.plant.heat b).segIndex + 1 < (s.plant.heat b).run.length →
          Plant.bedBecomes b (s.plant.bed b) { s.plant.heat b with
            segIndex := (s.plant.heat b).segIndex + 1
            due := false
            segMinutes := ((s.plant.heat b).run[(s.plant.heat b).segIndex + 1]?.map Segment.duration).getD 0 }
            s.plant p)
        ∧ ((s.plant.heat b).swapPending = false → (s.plant.heat b).run.length ≤ (s.plant.heat b).segIndex + 1 →
          Plant.bedBecomes b
            { s.plant.bed b with flags := { (s.plant.bed b).flags with planDone := true } }
            { s.plant.heat b with
              plan := .complete, segMinutes := 0, requested := .off, running := .off, transition := .none
              minutes := 0, due := false } s.plant p))

/-! ## Sample Intake (R67 to R85) -/

/-- R78 to R80: the timer events of an intake record that raise a GAP or a LOST expiry; nothing when none is due (log 5). A
GAP expiry latches GAP on a bed that is not VACANT; a LOST expiry there latches LOST, forces heat OFF, puts the OFF order on the
bed line where it is not the last one sent (R56), and holds the pieces. -/
def Obligations.ExpiriesFollowTheGapCount : Prop :=
  ∀ (b : Fin 12) (s : State), s.plant.isClosed = false →
    (((s.plant.intakeOf b).state ≠ .ok ∨ (s.plant.intakeOf b).gapCount + 1 < 2 * s.plant.works.settings.period
        ∨ 6 * s.plant.works.settings.period ≤ (s.plant.intakeOf b).gapCount + 1) →
      exec (.gapExpiry b) s = .next s)
    ∧ ((s.plant.intakeOf b).state = .ok → 2 * s.plant.works.settings.period ≤ (s.plant.intakeOf b).gapCount + 1 →
        (s.plant.intakeOf b).gapCount + 1 < 6 * s.plant.works.settings.period → ∃ p,
      exec (.gapExpiry b) s = .next { s with plant := p }
      ∧ p.intakeOf b = { s.plant.intakeOf b with state := .gap, gapCount := (s.plant.intakeOf b).gapCount + 1, due := false }
      ∧ ((s.plant.bed b).state = .vacant → p.bed b = s.plant.bed b)
      ∧ ((s.plant.bed b).state ≠ .vacant →
          p.bed b = { s.plant.bed b with flags := { (s.plant.bed b).flags with gap := true } })
      ∧ (∀ i : Fin 12, i ≠ b → p.bed i = s.plant.bed i ∧ p.intakeOf i = s.plant.intakeOf i)
      ∧ { p with beds := s.plant.beds, intake := s.plant.intake } = s.plant)
    ∧ (((s.plant.intakeOf b).state = .lost
        ∨ (s.plant.intakeOf b).gapCount + 1 < 6 * s.plant.works.settings.period) → exec (.lostExpiry b) s = .next s)
    ∧ ((s.plant.intakeOf b).state ≠ .lost → 6 * s.plant.works.settings.period ≤ (s.plant.intakeOf b).gapCount + 1 → ∃ p,
      exec (.lostExpiry b) s = .next { s with plant := p }
      ∧ p.intakeOf b = { s.plant.intakeOf b with state := .lost, gapCount := (s.plant.intakeOf b).gapCount + 1, due := false }
      ∧ ((s.plant.bed b).state = .vacant → p.bed b = s.plant.bed b ∧ p.heat b = s.plant.heat b
          ∧ p.bedLine b = s.plant.bedLine b ∧ p.yard = s.plant.yard)
      ∧ ((s.plant.bed b).state ≠ .vacant →
        p.bed b = { s.plant.bed b with
          flags := { (s.plant.bed b).flags with
            lost := true, gap := (s.plant.bed b).flags.gap || decide ((s.plant.intakeOf b).state = .ok) } }
        ∧ p.heat b = { s.plant.heat b with
          requested := .off, running := .off, transition := .none, minutes := 0, lastOrder := ⟨.off, 0⟩ }
        ∧ (p.bedLine b = if (s.plant.heat b).lastOrder = ⟨.off, 0⟩ then s.plant.bedLine b
            else (s.plant.bedLine b).put ⟨.off, 0⟩)
        ∧ ∀ slot q, s.plant.yard.pieceAt slot = some q →
          ((∃ i h, i < 8 ∧ (s.plant.bed b).at i = some h ∧ h.slot = slot) →
            p.yard.pieceAt slot = some { q with holds := { q.holds with cure := true } })
          ∧ ((∀ i h, i < 8 → (s.plant.bed b).at i = some h → h.slot ≠ slot) → p.yard.pieceAt slot = some q))
      ∧ (∀ i : Fin 12, i ≠ b →
          p.bed i = s.plant.bed i ∧ p.intakeOf i = s.plant.intakeOf i ∧ p.heat i = s.plant.heat i
            ∧ p.bedLine i = s.plant.bedLine i)
      ∧ { p.yard with pieces := s.plant.yard.pieces } = s.plant.yard ∧ p.works = s.plant.works
      ∧ p.classes = s.plant.classes ∧ p.markMap = s.plant.markMap)

/-- R68 to R77: a SAMPLE message: dropped when a field is out of range or the sequence repeats the last; an accepted one
writes the intake record, credits the bed and its pieces, tests the temperature, applies the unit status and repeats the
heat order. -/
def Obligations.SamplesCreditMaturity : Prop :=
  ∀ (b : Fin 12) (q : Nat) (t : Int) (status : Nat) (s : State), s.plant.isClosed = false →
    (¬(-80 ≤ t ∧ t ≤ 190 ∧ status ≤ 1 ∧ (s.plant.intakeOf b).lastSeq ≠ some q) →
      exec (.sample b q t status) s = .next s)
    ∧ (-80 ≤ t → t ≤ 190 → status ≤ 1 → (s.plant.intakeOf b).lastSeq ≠ some q →
      ∀ (hot earns : Bool) (h : HeatRecord), (hot = true ↔ (s.plant.works.settings.maxTemp : Int) < t) →
      (earns = true ↔ (s.plant.bed b).state = .cast ∨ (s.plant.bed b).state = .curing
        ∨ (s.plant.bed b).state = .released ∨ (s.plant.bed b).state = .stripping) →
      (h = if hot = true ∨ status = 1 then
          { s.plant.heat b with requested := .off, running := .off, transition := .none, minutes := 0 }
        else s.plant.heat b) →
      ∃ p, exec (.sample b q t status) s = .next { s with plant := p }
        ∧ p.intakeOf b = ⟨.ok, some q, 0, some t, some s.plant.works.clock, decide (status = 1),
            (s.plant.intakeOf b).due⟩
        ∧ p.bed b = { s.plant.bed b with
            maturity := if earns then
                min 4294967295 ((s.plant.bed b).maturity + (t + 20).toNat * s.plant.works.settings.period)
              else (s.plant.bed b).maturity
            flags := { (s.plant.bed b).flags with
              overTemp := (s.plant.bed b).flags.overTemp || hot
              unitFault := (s.plant.bed b).flags.unitFault || decide (status = 1) } }
        ∧ p.heat b = { h with lastOrder := formOrder (s.plant.bed b) h }
        ∧ p.bedLine b = (s.plant.bedLine b).put (formOrder (s.plant.bed b) h)
        ∧ (∀ slot r, s.plant.yard.pieceAt slot = some r →
          ((∃ i hh, i < 8 ∧ (s.plant.bed b).at i = some hh ∧ hh.slot = slot) →
            p.yard.pieceAt slot = some { r with
              maturity := if earns then max r.maturity (p.bed b).maturity else r.maturity
              holds := { r.holds with cure := r.holds.cure || hot } })
          ∧ ((∀ i hh, i < 8 → (s.plant.bed b).at i = some hh → hh.slot ≠ slot) → p.yard.pieceAt slot = some r))
        ∧ (∀ i : Fin 12, i ≠ b → p.bed i = s.plant.bed i ∧ p.heat i = s.plant.heat i
            ∧ p.bedLine i = s.plant.bedLine i ∧ p.intakeOf i = s.plant.intakeOf i)
        ∧ { p.yard with pieces := s.plant.yard.pieces } = s.plant.yard
        ∧ p.works = s.plant.works ∧ p.classes = s.plant.classes ∧ p.markMap = s.plant.markMap)

/-! ## The yard links (R56, R68, R157, R158, R219) -/

/-- R219: a yard link frame is sync, kind, sequence, payload and a check that makes the sum from the kind on 0; the kinds and
the number of bytes between the kind and the check of each. R68, R158: the bytes of a good SAMPLE or crane report act as the
report; bytes before the sync byte are discarded; bytes with a bad check do nothing; a good frame of another kind does
nothing on a bed line, and latches PROTOCOL alone on a crane link; a listed kind with another length does nothing. The rows
of dropped messages carry bytes, and what they are is decided by the rules (log 21), as is a frame of an unlisted kind, of
any length (log 13). R56, R157, R219: an order is written on a free line at once; on a busy bed line it takes the place of an
order that waits, on a busy crane link it waits behind the others. When the frame being written is done, the next one is
written. The heat count rises with each HEAT frame whose content differs from the last (log 18 for the moments). -/
def Obligations.LinesCarryTheirFrames : Prop :=
  (∀ (kind seq : Nat) (payload : List Byte),
      (∃ check, linkFrame kind seq payload
          = 0x7E#8 :: BitVec.ofNat 8 kind :: BitVec.ofNat 8 seq :: (payload ++ [check]))
      ∧ byteSum (linkFrame kind seq payload).tail = 0 ∧ (linkFrame kind seq payload).length = payload.length + 4)
    ∧ (∀ kind n : Nat, linkPayload kind = some n ↔
      kind = 0x21 ∧ n = 3 ∨ kind = 0x22 ∧ n = 4 ∨ kind = 0x41 ∧ n = 2 ∨ kind = 0x42 ∧ n = 3
      ∨ (kind = 0x43 ∨ kind = 0x44 ∨ kind = 0x45 ∨ kind = 0x46) ∧ n = 1
      ∨ kind = 0x61 ∧ n = 1 ∨ kind = 0x62 ∧ n = 3 ∨ kind = 0x63 ∧ n = 1 ∨ (kind = 0x64 ∨ kind = 0x65) ∧ n = 2
      ∨ kind = 0x66 ∧ n = 3)
    ∧ (∀ (b : Fin 12) (k : Fin 3) (q : Nat) (s : State), q < 256 → s.plant.isClosed = false →
      (∀ t status, t < 65536 → status < 256 →
        exec (.bedLineMessageDropped b (linkFrame 0x22 q (beBytes 2 t ++ beBytes 1 status))) s
          = exec (.sample b q (if t < 32768 then (t : Int) else (t : Int) - 65536) status) s)
      ∧ exec (.craneMessageDropped k (linkFrame 0x61 q [])) s = exec (.arrived k q) s
      ∧ (∀ w, w < 65536 → exec (.craneMessageDropped k (linkFrame 0x62 q (beBytes 2 w))) s = exec (.lifted k q w) s)
      ∧ exec (.craneMessageDropped k (linkFrame 0x63 q [])) s = exec (.lowered k q) s
      ∧ (∀ bay, bay < 256 →
        exec (.craneMessageDropped k (linkFrame 0x64 q (beBytes 1 bay))) s = exec (.stopped k q bay) s
        ∧ exec (.craneMessageDropped k (linkFrame 0x65 q (beBytes 1 bay))) s = exec (.homed k q bay) s
        ∧ ∀ code, code < 256 →
          exec (.craneMessageDropped k (linkFrame 0x66 q (beBytes 1 code ++ beBytes 1 bay))) s
            = exec (.fault k q code bay) s)
      ∧ (∀ (kind : Nat) (payload : List Byte), kind < 256 →
        (kind ≠ 0x22 ∨ payload.length ≠ 3 → exec (.bedLineMessageDropped b (linkFrame kind q payload)) s = .next s)
        ∧ (kind < 0x61 ∨ 0x66 < kind → linkPayload kind = none ∨ linkPayload kind = some (payload.length + 1) →
          exec (.craneMessageDropped k (linkFrame kind q payload)) s
            = .next { s with plant := s.plant.updYard (fun y => y.updCrane k (fun c => { c with flagProtocol := true })) })
        ∧ (∀ n, linkPayload kind = some n → n ≠ payload.length + 1 →
          exec (.craneMessageDropped k (linkFrame kind q payload)) s = .next s))
      ∧ ∀ (junk body : List Byte), (∀ x ∈ junk, x ≠ 0x7E#8) →
        (byteSum body ≠ 0 → exec (.bedLineMessageDropped b (junk ++ 0x7E#8 :: body)) s = .next s
          ∧ exec (.craneMessageDropped k (junk ++ 0x7E#8 :: body)) s = .next s)
        ∧ exec (.bedLineMessageDropped b (junk ++ 0x7E#8 :: body)) s = exec (.bedLineMessageDropped b (0x7E#8 :: body)) s
        ∧ exec (.craneMessageDropped k (junk ++ 0x7E#8 :: body)) s = exec (.craneMessageDropped k (0x7E#8 :: body)) s
        ∧ exec (.bedLineMessageDropped b junk) s = .next s ∧ exec (.craneMessageDropped k junk) s = .next s)
    ∧ (∀ (l : BedLine) (o : HeatOrder), ∀ count, count = (if o = l.lastWritten then l.heatCount else (l.heatCount + 1) % 256) →
        (l.writing = none → l.put o
          = ⟨count, o, some (linkFrame 0x21 count [BitVec.ofNat 8 o.mode.num, BitVec.ofNat 8 o.setpoint]), l.waiting⟩)
        ∧ (l.writing ≠ none → l.put o = { l with waiting := some o }))
      ∧ (∀ (l : CraneLine) (f : List Byte),
        (l.writing = none → l.put f = { l with writing := some f })
        ∧ (l.writing ≠ none → l.put f = { l with queue := l.queue ++ [f] }))
      ∧ ∀ (b : Fin 12) (k : Fin 3) (s : State),
        (∃ p, exec (.heatOrderWrite b) s = .next { s with plant := p }
          ∧ { p with bedLines := s.plant.bedLines } = s.plant
          ∧ (∀ i : Fin 12, i ≠ b → p.bedLine i = s.plant.bedLine i)
          ∧ ((s.plant.bedLine b).waiting = none → p.bedLine b = { s.plant.bedLine b with writing := none })
          ∧ ∀ o, (s.plant.bedLine b).waiting = some o →
              p.bedLine b = { s.plant.bedLine b with waiting := none, writing := none }.put o)
        ∧ ∃ y1, exec (.craneOrderWrite k) s = .next { s with plant := { s.plant with yard := y1 } }
          ∧ { y1 with links := s.plant.yard.links } = s.plant.yard
          ∧ (∀ i : Fin 3, i ≠ k → y1.link i = s.plant.yard.link i)
          ∧ ((s.plant.yard.link k).queue = [] → y1.link k = ⟨none, []⟩)
          ∧ ∀ f fs, (s.plant.yard.link k).queue = f :: fs → y1.link k = ⟨some f, fs⟩

/-! ## The Stock Map (R86 to R112) -/

/-- R101: the demand level of a lane, recomputed from its old value and its piece count in three steps. -/
def Obligations.DemandLevelRisesAndFalls : Prop :=
  (∀ (t1 t2 t3 : Nat) (drain : Bool) (n level l1 a b l2 : Nat),
    (n ≥ t3 → l1 = 3)
    → (n < t3 → n ≥ t2 → level < 2 → l1 = 2)
    → (n < t3 → ¬(n ≥ t2 ∧ level < 2) → n ≥ t1 → level < 1 → l1 = 1)
    → (n < t3 → ¬(n ≥ t2 ∧ level < 2) → ¬(n ≥ t1 ∧ level < 1) → l1 = level)
    → (l1 = 3 ∧ n < t2 → a = 2) → (¬(l1 = 3 ∧ n < t2) → a = l1)
    → (a = 2 ∧ n < t1 → b = 1) → (¬(a = 2 ∧ n < t1) → b = a)
    → (b = 1 ∧ n = 0 → l2 = 0) → (¬(b = 1 ∧ n = 0) → l2 = b)
    → (drain = true → n ≥ 1 → l2 = 0 → demandLevel t1 t2 t3 drain n level = 1)
      ∧ (¬(drain = true ∧ n ≥ 1 ∧ l2 = 0) → demandLevel t1 t2 t3 drain n level = l2))
    ∧ (∀ (t1 t2 t3 : Nat) (drain : Bool) (n : Nat), 1 ≤ t1 → t1 < t2 → t2 < t3 →
      (t2 ≤ n → demandLevel t1 t2 t3 drain n 3 = 3)
      ∧ (t1 ≤ n → n < t3 → demandLevel t1 t2 t3 drain n 2 = 2)
      ∧ (1 ≤ n → n < t2 → demandLevel t1 t2 t3 drain n 1 = 1)
      ∧ (∀ level, level ≤ 3 → demandLevel t1 t2 t3 false 0 level = 0)
      ∧ (n < t1 → demandLevel t1 t2 t3 false n 0 = 0))
    ∧ ∀ (st : Settings) (l : LaneRecord), l.recompute st
        = { l with demand := demandLevel st.t1 st.t2 st.t3 l.drain l.pieces.length l.demand }

/-- R89: the placement test: its six conditions in order, each with its verdict. -/
def Obligations.PlacementTestTakesItsConditionsInOrder : Prop :=
  ∀ (e : Site) (y : Yard) (i : Nat) (p : Handle),
    ((y.stack i).state ≠ .opened ∨ (y.stack i).digLock = true → placement e y i p = some .state)
    ∧ ((y.stack i).state = .opened → (y.stack i).digLock = false →
      ((y.stack i).claims.length ≥ 4 → placement e y i p = some .full)
      ∧ ((y.stack i).claims.length < 4 →
        ((y.stack i).tiers ≤ (projection y i).length
            ∨ (classOf e y p).tier < (projection y i).length + 1
            ∨ (∃ top, (projection y i).getLast? = some top ∧ (classOf e y top).length < (classOf e y p).length)
            ∨ (y.stack i).limit < ((projection y i).map (fun h => (classOf e y h).weight)).sum + (classOf e y p).weight →
          placement e y i p = some .placement)
        ∧ ((projection y i).length < (y.stack i).tiers → (projection y i).length + 1 ≤ (classOf e y p).tier →
          (∀ top, (projection y i).getLast? = some top → (classOf e y p).length ≤ (classOf e y top).length) →
          ((projection y i).map (fun h => (classOf e y h).weight)).sum + (classOf e y p).weight ≤ (y.stack i).limit →
          placement e y i p = none)))

/-- R95, R96, R103, R104: DEFINE STACK, CLOSE STACK, OPEN STACK, DEFINE LANE and DRAIN LANE: when they are refused, and the
record that an accepted one writes, before what follows the change. -/
def Obligations.StockCommandsWriteTheirRecords : Prop :=
  ∀ (hd : Header) (i ch bay tiers load v : Nat) (s : State), s.ready → ch ≤ 1 →
    (¬(i < 40 ∧ (ch = 1 → bay < 64 ∧ 1 ≤ tiers ∧ tiers ≤ 8 ∧ 1 ≤ load ∧ load ≤ 4000)) →
      exec (.defineStack hd i ch bay tiers load) s = .next (s.refused hd (.defineStack i ch bay tiers load) .range []))
    ∧ (i < 40 → (ch = 1 → bay < 64 ∧ 1 ≤ tiers ∧ tiers ≤ 8 ∧ 1 ≤ load ∧ load ≤ 4000) →
      ((s.plant.yard.stack i).pieces ≠ [] ∨ (s.plant.yard.stack i).claims ≠ [] →
        exec (.defineStack hd i ch bay tiers load) s = .next (s.refused hd (.defineStack i ch bay tiers load) .inUse []))
      ∧ ((s.plant.yard.stack i).pieces = [] → (s.plant.yard.stack i).claims = [] → ∃ y1,
        exec (.defineStack hd i ch bay tiers load) s = .next (s.accepted hd (.defineStack i ch bay tiers load) []
          (s.plant.settle { s.plant with yard := y1 }))
        ∧ (ch = 1 → y1.stack i = { s.plant.yard.stack i with state := .opened, bay := bay, tiers := tiers, limit := load })
        ∧ (ch = 0 → y1.stack i = { s.plant.yard.stack i with state := .undefined, bay := 0, tiers := 0, limit := 0 })
        ∧ (∀ j, j ≠ i → y1.stack j = s.plant.yard.stack j)
        ∧ { y1 with stackRecs := s.plant.yard.stackRecs } = s.plant.yard))
    ∧ (¬(i < 2 ∧ (ch = 1 → bay < 64)) →
      exec (.defineLane hd i ch bay) s = .next (s.refused hd (.defineLane i ch bay) .range []))
    ∧ (i < 2 → (ch = 1 → bay < 64) →
      ((s.plant.yard.lane i).pieces ≠ [] ∨ 0 < (s.plant.yard.lane i).reservations →
        exec (.defineLane hd i ch bay) s = .next (s.refused hd (.defineLane i ch bay) .inUse []))
      ∧ ((s.plant.yard.lane i).pieces = [] → (s.plant.yard.lane i).reservations = 0 → ∃ y1,
        exec (.defineLane hd i ch bay) s = .next (s.accepted hd (.defineLane i ch bay) []
          (s.plant.settle { s.plant with yard := y1 }))
        ∧ y1.lane i = ⟨decide (ch = 1), if ch = 1 then bay else 0, [], 0, false, 0⟩
        ∧ (∀ j, j ≠ i → y1.lane j = s.plant.yard.lane j) ∧ { y1 with lanes := s.plant.yard.lanes } = s.plant.yard))
    ∧ (s.plant.isClosed = false →
      (40 ≤ i → exec (.closeStack hd i) s = .next (s.refused hd (.closeStack i) .range [])
        ∧ exec (.openStack hd i) s = .next (s.refused hd (.openStack i) .range []))
      ∧ (i < 40 → (s.plant.yard.stack i).state = .undefined →
        exec (.closeStack hd i) s = .next (s.refused hd (.closeStack i) .state [])
        ∧ exec (.openStack hd i) s = .next (s.refused hd (.openStack i) .state []))
      ∧ (i < 40 → (s.plant.yard.stack i).state ≠ .undefined →
        (∃ y1, exec (.closeStack hd i) s
            = .next (s.accepted hd (.closeStack i) [] (s.plant.settle { s.plant with yard := y1 }))
          ∧ y1.stack i = { s.plant.yard.stack i with state := .closed }
          ∧ (∀ j, j ≠ i → y1.stack j = s.plant.yard.stack j) ∧ { y1 with stackRecs := s.plant.yard.stackRecs } = s.plant.yard)
        ∧ ∃ y1, exec (.openStack hd i) s
            = .next (s.accepted hd (.openStack i) [] (s.plant.settle { s.plant with yard := y1 }))
          ∧ y1.stack i = { s.plant.yard.stack i with state := .opened }
          ∧ (∀ j, j ≠ i → y1.stack j = s.plant.yard.stack j) ∧ { y1 with stackRecs := s.plant.yard.stackRecs } = s.plant.yard)
      ∧ (2 ≤ i ∨ 2 ≤ v → exec (.drainLane hd i v) s = .next (s.refused hd (.drainLane i v) .range []))
      ∧ (i < 2 → v < 2 → (s.plant.yard.lane i).defined = false →
        exec (.drainLane hd i v) s = .next (s.refused hd (.drainLane i v) .state []))
      ∧ (i < 2 → v < 2 → (s.plant.yard.lane i).defined = true → ∃ y1,
        exec (.drainLane hd i v) s
          = .next (s.accepted hd (.drainLane i v) [] (s.plant.settle { s.plant with yard := y1 }))
        ∧ y1.lane i = { s.plant.yard.lane i with
            drain := decide (v = 1)
            demand := demandLevel s.plant.works.settings.t1 s.plant.works.settings.t2 s.plant.works.settings.t3
              (decide (v = 1)) (s.plant.yard.lane i).pieces.length (s.plant.yard.lane i).demand }
        ∧ (∀ j, j ≠ i → y1.lane j = s.plant.yard.lane j) ∧ { y1 with lanes := s.plant.yard.lanes } = s.plant.yard))

/-- R107: DEFINE TRUCK BAY, a definition (1) or a withdrawal (0): its checks in order and the two fields it writes. -/
def Obligations.DefineTruckBayWritesTheRecord : Prop :=
  ∀ (hd : Header) (k ch bay : Nat) (s : State), s.ready → ch ≤ 1 →
    (¬(k < 4 ∧ (ch = 1 → bay < 64)) →
      exec (.defineTruckBay hd k ch bay) s = .next (s.refused hd (.defineTruckBay k ch bay) .range []))
    ∧ (k < 4 → (ch = 1 → bay < 64) →
      ((s.plant.yard.truck k).state ≠ .free →
        exec (.defineTruckBay hd k ch bay) s = .next (s.refused hd (.defineTruckBay k ch bay) .inUse []))
      ∧ ((s.plant.yard.truck k).state = .free → ∃ y1,
        exec (.defineTruckBay hd k ch bay) s
          = .next (s.accepted hd (.defineTruckBay k ch bay) [] { s.plant with yard := y1 })
        ∧ y1.truck k = { s.plant.yard.truck k with defined := decide (ch = 1), bay := if ch = 1 then bay else 0 }
        ∧ (∀ j, j ≠ k → y1.truck j = s.plant.yard.truck j) ∧ { y1 with trucks := s.plant.yard.trucks } = s.plant.yard))

/-! ## Moves (R113 to R136, R149) -/

/-- R117 to R119: MOVE: its checks in order; an accepted one makes the ticket in the lowest free slot with its fields, its
effective level, its claims, its buried mark and the piece's ticket field, and shows the ticket, before what follows the
change and without a handle of a DIG made for it (log 11, log 25). Every other ticket stands as it was, and without a dig
round every other piece, stack and lane. R116: the kind of the ticket, by the source. R100, R108 to R111: what the room test
and the searches answer that MOVE, STRIP BED and the redirects use: the nearest stack of those that fit, the lowest number
among equally near ones; the lane with the smaller load. -/
def Obligations.MoveMakesATicket : Prop :=
  (∀ (hd : Header) (h : Handle) (kind object level after dig : Nat) (s : State) (row : Instr), s.ready →
    s.plant.isClosed = false → after ≤ 1 → dig ≤ 1 → row = .move hd h kind object level after dig →
    (s.plant.yard.piece? h = none → refuses row s .stale [])
    ∧ ∀ p, s.plant.yard.piece? h = some p →
      (p.ticket.isSome = true → refuses row s .inMove [])
      ∧ (p.ticket = none → s.plant.yard.freeTicketSlot = none → refuses row s .full [])
      ∧ ∀ slot (allowed same onTruck : Prop), p.ticket = none → s.plant.yard.freeTicketSlot = some slot →
        (allowed ↔ (kind = 2 ∧ object < 2 ∨ kind = 3 ∧ object < 40 ∨ kind = 5) ∧ level < 4) →
        (same ↔ kind = 2 ∧ p.location = .lane object ∨ kind = 3 ∧ ∃ tier, p.location = .stack object tier) →
        (onTruck ↔ ∃ t tier, p.location = .truck t tier ∧ (s.plant.yard.truck t).state ≠ .unloading) →
        (¬allowed → refuses row s .range [])
        ∧ (allowed → same → refuses row s .placement [])
        ∧ (allowed → ¬same → onTruck → refuses row s .state [])
        ∧ (allowed → ¬same → ¬onTruck →
          (∀ c, kind = 2 → laneRoom s.plant.yard object = some c → refuses row s c [])
          ∧ (∀ c, kind = 3 → placement s.plant.site s.plant.yard object h = some c → refuses row s c [])
          ∧ (kind = 5 → autoDest s.plant.site s.plant.yard (kindOf p.location) p.location h = none →
              refuses row s .full [])
          ∧ ∀ d, (kind = 2 ∧ laneRoom s.plant.yard object = none ∧ d = .lane object
                ∨ kind = 3 ∧ placement s.plant.site s.plant.yard object h = none ∧ d = .stack object
                ∨ kind = 5 ∧ autoDest s.plant.site s.plant.yard (kindOf p.location) p.location h = some d) →
            (∀ i tier, p.location = .stack i tier → (projection s.plant.yard i).getLast? = some h →
              4 ≤ (s.plant.yard.stack i).claims.length → refuses row s .full [])
            ∧ ((∀ i tier, p.location = .stack i tier → (projection s.plant.yard i).getLast? = some h →
                (s.plant.yard.stack i).claims.length < 4) →
              ∃ (y1 : Yard) (t : Ticket) (hh : Handle), hh = ⟨slot, (s.plant.yard.ticketSlot slot).gen⟩
                ∧ exec row s = .next (s.accepted hd (.move h kind object level after dig)
                    (beBytes 2 (hh.gen * 1024 + hh.slot) ++ [BitVec.ofNat 8 t.kind.num] ++ destBytes t.dest
                      ++ [BitVec.ofNat 8 t.state.num, BitVec.ofNat 8 (waitsNum t.waits)])
                    (s.plant.settle { s.plant with yard := y1 }))
                ∧ y1.ticketAt slot = some t
                ∧ t.kind = kindOf p.location ∧ t.piece = some h ∧ t.source = some p.location ∧ t.dest = some d
                ∧ t.baseLevel = level ∧ t.after = decide (after = 1) ∧ t.dig = decide (dig = 1) ∧ t.crane = none
                ∧ t.serves = none ∧ t.truck = none ∧ t.outcome = .none ∧ t.redirected = false
                ∧ (∀ b i, p.location = .bed b i → t.level = max level (s.plant.bed b).turnover)
                ∧ (∀ l, p.location = .lane l → t.level = max level (s.plant.yard.lane l).demand)
                ∧ ((∀ b i, p.location ≠ .bed b i) → (∀ l, p.location ≠ .lane l) → t.level = level)
                ∧ (t.state = .ready ∧ t.waits = .none ∨ t.state = .pending ∧ t.waits ≠ .none)
                ∧ y1.pieceAt h.slot = some { p with ticket := some hh }
                ∧ (∃ more, y1.moveQueue = s.plant.yard.moveQueue ++ slot :: more ∧ (dig = 0 → more = []))
                ∧ (∀ i, d = .stack i → ⟨.place, hh⟩ ∈ (y1.stack i).claims)
                ∧ (∀ l, d = .lane l → (y1.lane l).reservations = (s.plant.yard.lane l).reservations + 1)
                ∧ (∀ i tier, p.location = .stack i tier → i < 40 →
                    ((projection s.plant.yard i).getLast? = some h → ⟨.lift, hh⟩ ∈ (y1.stack i).claims)
                    ∧ ((projection s.plant.yard i).getLast? ≠ some h → dig = 0 →
                      (y1.stack i).buried = (s.plant.yard.stack i).buried + 1 ∧ (y1.stack i).digLock = true))
                ∧ (∀ j, j ≠ slot → dig = 0 ∨ (s.plant.yard.ticketAt j).isSome = true →
                    y1.ticketSlot j = s.plant.yard.ticketSlot j)
                ∧ (∀ l, d ≠ .lane l → y1.lane l = s.plant.yard.lane l)
                ∧ (dig = 0 → (∀ j, j ≠ h.slot → y1.pieceSlot j = s.plant.yard.pieceSlot j)
                  ∧ (∀ i, d = .stack i → y1.stack i = { s.plant.yard.stack i with
                      claims := (s.plant.yard.stack i).claims ++ [⟨.place, hh⟩] })
                  ∧ (∀ i tier, p.location = .stack i tier → i < 40 → s.plant.yard.sourceClaimed i h hh y1)
                  ∧ (∀ i, d ≠ .stack i → (∀ tier, p.location ≠ .stack i tier) → y1.stack i = s.plant.yard.stack i)
                  ∧ ∀ l, d = .lane l → y1.lane l = { s.plant.yard.lane l with
                      reservations := (s.plant.yard.lane l).reservations + 1 })
                ∧ y1.fixed = s.plant.yard.fixed ∧ y1.cranes = s.plant.yard.cranes ∧ y1.trucks = s.plant.yard.trucks
                ∧ y1.arbiter = s.plant.yard.arbiter ∧ y1.links = s.plant.yard.links)))
    ∧ (∀ n m : Nat, kindOf (.bed n m) = .strip ∧ kindOf (.lane n) = .stow ∧ kindOf (.stack n m) = .shift
      ∧ kindOf (.truck n m) = .shift ∧ kindOf (.hook n) = .shift)
    ∧ (∀ (y : Yard) (l : Nat),
      ((y.lane l).defined = false → laneRoom y l = some .state)
      ∧ ((y.lane l).defined = true → 8 ≤ (y.lane l).pieces.length + (y.lane l).reservations → laneRoom y l = some .full)
      ∧ ((y.lane l).defined = true → (y.lane l).pieces.length + (y.lane l).reservations < 8 → laneRoom y l = none))
    ∧ (∀ (s : Plant) (n m : Nat),
      sourceBay s.site s.yard (.bed n m) = (s.bed n).bay ∧ sourceBay s.site s.yard (.lane n) = (s.yard.lane n).bay
      ∧ sourceBay s.site s.yard (.stack n m) = (s.yard.stack n).bay
      ∧ sourceBay s.site s.yard (.truck n m) = (s.yard.truck n).bay
      ∧ sourceBay s.site s.yard (.hook n) = (s.yard.crane n).lastBay
      ∧ destBay s.yard (.stack n) = (s.yard.stack n).bay ∧ destBay s.yard (.lane n) = (s.yard.lane n).bay
      ∧ destBay s.yard (.truck n) = (s.yard.truck n).bay ∧ destBay s.yard (.bay n) = n)
    ∧ ∀ (s : Plant) (src : Location) (p : Handle) (load : Nat → Nat) (near : Nat → Nat → Nat) (fits : Nat → Prop),
      (∀ l, load l = (s.yard.lane l).pieces.length + (s.yard.lane l).reservations) →
      (∀ b i, near b i = ((s.yard.stack i).bay - b) + (b - (s.yard.stack i).bay)) →
      (∀ i, fits i ↔ i < 40 ∧ placement s.site s.yard i p = none) →
      (∀ i, stackFor s.site s.yard src p = some i ↔ fits i ∧ (∀ tier, src ≠ .stack i tier)
        ∧ ∀ j, fits j → (∀ tier, src ≠ .stack j tier) →
          near (sourceBay s.site s.yard src) i < near (sourceBay s.site s.yard src) j
          ∨ near (sourceBay s.site s.yard src) i = near (sourceBay s.site s.yard src) j ∧ i ≤ j)
      ∧ (∀ l, chooseLane s.yard = some l ↔ l < 2 ∧ laneRoom s.yard l = none
        ∧ ∀ m, m < 2 → laneRoom s.yard m = none → load l < load m ∨ load l = load m ∧ l ≤ m)
      ∧ (∀ kind, kind ≠ .strip ∨ chooseLane s.yard = none →
          autoDest s.site s.yard kind src p = (stackFor s.site s.yard src p).map .stack)
      ∧ (∀ l, chooseLane s.yard = some l → autoDest s.site s.yard .strip src p = some (.lane l))
      ∧ (∀ t l, t.kind = .strip → chooseLane s.yard = some l → unladenDest s.site s.yard t src p = some (.lane l))
      ∧ (∀ t d, t.kind ≠ .strip ∨ chooseLane s.yard = none → (unladenDest s.site s.yard t src p = some d
        ↔ ∃ i, d = .stack i ∧ fits i ∧ (∀ tier, src ≠ .stack i tier) ∧ (s.yard.stack i).claims = []
          ∧ ∀ j, fits j → (∀ tier, src ≠ .stack j tier) → (s.yard.stack j).claims = [] →
            near (sourceBay s.site s.yard src) i < near (sourceBay s.site s.yard src) j
            ∨ near (sourceBay s.site s.yard src) i = near (sourceBay s.site s.yard src) j ∧ i ≤ j))
      ∧ ∀ k c, k < 3 → s.yard.claim k = some c →
        ((∃ j, j < 3 ∧ s.yard.claim j = none) → ladenStack s.site s.yard k p = none)
        ∧ ((∀ j, j < 3 → s.yard.claim j ≠ none) → ∀ reached : Nat → Prop,
          (∀ i, reached i ↔ fits i ∧ (s.yard.stack i).claims = []
            ∧ (∀ a, k ≠ 0 → s.yard.claim (k - 1) = some a → a.hi < min c.lo (s.yard.stack i).bay)
            ∧ ∀ a, k ≠ 2 → s.yard.claim (k + 1) = some a → max c.hi (s.yard.stack i).bay < a.lo) →
          ∀ i, ladenStack s.site s.yard k p = some i ↔ reached i ∧ ∀ j, reached j →
            near (s.yard.crane k).lastBay i < near (s.yard.crane k).lastBay j
            ∨ near (s.yard.crane k).lastBay i = near (s.yard.crane k).lastBay j ∧ i ≤ j)

/-- R120: STRIP BED: its checks in order; an accepted one makes one STRIP ticket for each piece of the bed that has none, in
position order, before what follows the change: each by its own AUTO search, which sees the reservations and claims of the
positions before it (R109), in the lowest free slot (R114), with the claim or reservation of its destination. The result
shows for each configured position the ticket made for it, before the arbiter's evaluation (log 11), or the absent handle
where the position was passed over (log 15). -/
def Obligations.StripBedMakesATicketForEachPiece : Prop :=
  (∀ (hd : Header) (b level after : Nat) (s : State) (row : Instr), s.ready → s.plant.isClosed = false → after ≤ 1 →
    row = .stripBed hd b level after →
    (12 ≤ b ∨ 4 ≤ level → refuses row s .range [])
    ∧ (b < 12 → level < 4 →
      ((s.plant.bed b).state = .vacant ∨ (s.plant.bed b).state = .set → refuses row s .state [])
      ∧ ((s.plant.bed b).state ≠ .vacant → (s.plant.bed b).state ≠ .set →
        ∀ list, list = stripList s.plant b →
          (list = [] → refuses row s .inMove [])
          ∧ (list ≠ [] → s.plant.yard.freeTicketCount < list.length → refuses row s .full [])
          ∧ (list ≠ [] → list.length ≤ s.plant.yard.freeTicketCount →
            (stripPositions s.plant.site level (decide (after = 1)) list s.plant.yard = none → refuses row s .full [])
            ∧ ∀ y1, stripPositions s.plant.site level (decide (after = 1)) list s.plant.yard = some y1 →
              ∃ cell : Nat → List Byte,
              exec row s = .next (s.accepted hd (.stripBed b level after)
                (BitVec.ofNat 8 list.length :: (List.range (s.plant.bed b).positions).flatMap cell)
                (s.plant.settle { s.plant with yard := y1 }))
              ∧ (∀ i, (∀ x ∈ list, x.2 ≠ .bed b i) → cell i = [0xFF#8, 0xFF#8])
              ∧ y1.fixed = s.plant.yard.fixed ∧ y1.cranes = s.plant.yard.cranes
              ∧ y1.arbiter = s.plant.yard.arbiter ∧ y1.links = s.plant.yard.links
              ∧ ∃ slots : List Nat, slots.length = list.length ∧ y1.moveQueue = s.plant.yard.moveQueue ++ slots
                ∧ ∀ (n : Nat) (x : Handle × Location) (slot : Nat), list[n]? = some x → slots[n]? = some slot →
                  (∃ i, i < 8 ∧ (s.plant.bed b).at i = some x.1 ∧ x.2 = .bed b i)
                  ∧ s.plant.yard.ticketAt slot = none
                  ∧ ((list.map (fun x => x.1.slot)).Nodup →
                    (y1.pieceAt x.1.slot).bind Piece.ticket = some ⟨slot, (s.plant.yard.ticketSlot slot).gen⟩
                    ∧ ∀ i, x.2 = .bed b i → cell i = beBytes 2 ((s.plant.yard.ticketSlot slot).gen * 1024 + slot))
                  ∧ ∃ t, y1.ticketAt slot = some t ∧ t.kind = .strip ∧ t.piece = some x.1 ∧ t.source = some x.2
                    ∧ t.baseLevel = level ∧ t.level = max level (s.plant.bed b).turnover
                    ∧ t.after = decide (after = 1) ∧ t.dig = false ∧ t.dest.isSome = true
                    ∧ (t.state = .ready ∨ t.state = .pending)))))
    -- the pieces without a ticket, in position order
    ∧ (∀ (s : Plant) (b : Nat),
      (∀ x, x ∈ stripList s b ↔ ∃ i q, i < 8 ∧ x.2 = .bed b i ∧ (s.bed b).at i = some x.1
        ∧ s.yard.pieceAt x.1.slot = some q ∧ q.ticket = none)
      ∧ (stripList s b).Pairwise (fun x z => ∀ i j, x.2 = .bed b i → z.2 = .bed b j → i < j))
    -- one position after another: the AUTO search in the yard that the positions before it left, the lowest free slot
    ∧ ∀ (e : Site) (level : Nat) (after : Bool) (x : Handle × Location) (rest : List (Handle × Location)) (b i : Nat)
        (y : Yard), x.2 = .bed b i →
      stripPositions e level after [] y = some y
      ∧ (autoDest e y .strip x.2 x.1 = none ∨ (∀ slot, slot < 24 → y.ticketAt slot ≠ none) →
        stripPositions e level after (x :: rest) y = none)
      ∧ ∀ d slot h, autoDest e y .strip x.2 x.1 = some d → slot < 24 → y.ticketAt slot = none →
        (∀ n, n < slot → y.ticketAt n ≠ none) → h = ⟨slot, (y.ticketSlot slot).gen⟩ → ∃ (y1 : Yard) (w : Waits),
        stripPositions e level after (x :: rest) y = stripPositions e level after rest y1
        ∧ y1.ticketSlot slot = ⟨h.gen, some ⟨.strip, some x.1, some x.2, some d, level,
            max level (getOr e.beds b .reset).turnover, after, false, none, none, none,
            if w = .none then .ready else .pending, false, false, w, .none, false⟩⟩
        ∧ (∀ t, y1.ticketAt slot = some t → w = evalWaits e y1 slot t)
        ∧ (∀ n, n ≠ slot → y1.ticketSlot n = y.ticketSlot n) ∧ y1.moveQueue = y.moveQueue ++ [slot]
        ∧ y1.pieceSlot x.1.slot
          = ⟨(y.pieceSlot x.1.slot).gen, (y.pieceAt x.1.slot).map (fun r => { r with ticket := some h })⟩
        ∧ (∀ n, n ≠ x.1.slot → y1.pieceSlot n = y.pieceSlot n)
        ∧ (∀ n, d = .stack n → y1.stack n = { y.stack n with claims := (y.stack n).claims ++ [⟨.place, h⟩] }
          ∧ (∀ j, j ≠ n → y1.stack j = y.stack j) ∧ y1.lanes = y.lanes)
        ∧ (∀ n, d = .lane n → y1.lane n = { y.lane n with reservations := (y.lane n).reservations + 1 }
          ∧ (∀ j, j ≠ n → y1.lane j = y.lane j) ∧ y1.stackRecs = y.stackRecs)
        ∧ { y1 with
            tickets := y.tickets
            moveQueue := y.moveQueue
            pieces := y.pieces
            stackRecs := y.stackRecs
            lanes := y.lanes } = y

/-- R133, R161, R149: CANCEL MOVE and PARK CRANE: their checks in order; an accepted cancel frees the slot and removes what the
ticket held, the buried count of its stack falling with a buried ticket, with STOP to the crane of a GRANTED ticket; an
accepted PARK CRANE makes a PARK ticket bound to the crane, and its result shows the ticket before the arbiter's evaluation
(log 11); before what follows the change. R91 to R93: what the repair of a claim list, which a cancel starts, keeps and
drops, and what a dropped claim does to its ticket. -/
def Obligations.CancelMoveAndParkCrane : Prop :=
  (∀ (hd : Header) (h : Handle) (s : State) (row : Instr), s.ready → s.plant.isClosed = false → row = .cancelMove hd h →
      (s.plant.yard.ticket? h = none → refuses row s .stale [])
      ∧ ∀ t, s.plant.yard.ticket? h = some t →
        (t.kind = .pick → refuses row s .inUse [])
        ∧ (t.kind ≠ .pick → t.state = .lifting ∨ t.state = .lifted ∨ t.state = .setting → refuses row s .inMove [])
        ∧ (t.kind ≠ .pick → t.state = .done ∨ t.state = .failed ∨ t.state = .cancelled → refuses row s .state [])
        ∧ (t.kind ≠ .pick → t.state = .pending ∨ t.state = .ready ∨ t.state = .granted → ∃ y1,
          exec row s = .next (s.accepted hd (.cancelMove h)
            (beBytes 2 (h.gen * 1024 + h.slot) ++ [BitVec.ofNat 8 t.state.num, 4#8])
            (s.plant.settle { s.plant with yard := y1 }))
          ∧ y1.ticketSlot h.slot = ⟨(h.gen + 1) % 64, none⟩
          ∧ y1.moveQueue = s.plant.yard.moveQueue.filter (fun i => decide (i ≠ h.slot))
          ∧ y1.finished = s.plant.yard.finished.filter (fun i => decide (i ≠ h.slot))
          ∧ (∀ p r, t.piece = some p → s.plant.yard.pieceAt p.slot = some r →
              y1.pieceAt p.slot = some { r with ticket := none })
          ∧ (∀ i, (∀ p, t.piece = some p → p.slot ≠ i) → y1.pieceAt i = s.plant.yard.pieceAt i)
          ∧ (∀ i, t.dest = some (.stack i) → (s.plant.yard.stack i).claims.count ⟨.place, h⟩ ≤ 1 →
              ⟨.place, h⟩ ∉ (y1.stack i).claims)
          ∧ (∀ i tier, t.source = some (.stack i tier) → (s.plant.yard.stack i).claims.count ⟨.lift, h⟩ ≤ 1 →
              ⟨.lift, h⟩ ∉ (y1.stack i).claims)
          ∧ (∀ i tier, t.source = some (.stack i tier) → i < 40 → t.state ≠ .granted →
              ⟨.lift, h⟩ ∉ (s.plant.yard.stack i).claims → t.dest ≠ some (.stack i) →
              (y1.stack i).buried = (s.plant.yard.stack i).buried - 1
              ∧ (y1.stack i).digLock = decide (1 < (s.plant.yard.stack i).buried))
          ∧ (∀ l, t.dest = some (.lane l) → l < 2 →
              (y1.lane l).reservations = (s.plant.yard.lane l).reservations - 1)
          ∧ (∀ k, k < 3 → (y1.arb k).claim = (s.plant.yard.arb k).claim
              ∧ ((s.plant.yard.arb k).bound = some h → (y1.arb k).bound = none)
              ∧ ((s.plant.yard.arb k).bound ≠ some h → (y1.arb k).bound = (s.plant.yard.arb k).bound))
          ∧ (t.state ≠ .granted → y1.cranes = s.plant.yard.cranes ∧ y1.links = s.plant.yard.links)
          ∧ (∀ k, t.state = .granted → t.crane = some k → k < 3 →
              (y1.crane k).current = none ∧ (y1.crane k).stage = none
              ∧ (y1.crane k).stopOrder = some (s.plant.yard.crane k).nextSeq
              ∧ (y1.crane k).nextSeq = ((s.plant.yard.crane k).nextSeq + 1) % 256
              ∧ (y1.crane k).state = (s.plant.yard.crane k).state
              ∧ y1.link k = (s.plant.yard.link k).put (linkFrame 0x44 (s.plant.yard.crane k).nextSeq [])
              ∧ ∀ j, j ≠ k → y1.crane j = s.plant.yard.crane j ∧ y1.link j = s.plant.yard.link j)
          ∧ (∀ i, (y1.stack i).pieces = (s.plant.yard.stack i).pieces) ∧ y1.trucks = s.plant.yard.trucks))
    ∧ (∀ (hd : Header) (k bay level : Nat) (s : State) (row : Instr), s.ready → s.plant.isClosed = false →
      row = .parkCrane hd k bay level →
      (¬(k < 3 ∧ bay < 64 ∧ level < 4) → refuses row s .range [])
      ∧ (k < 3 → bay < 64 → level < 4 →
        ((s.plant.yard.arb k).bound.isSome = true → refuses row s .busy [])
        ∧ ((s.plant.yard.arb k).bound = none → (s.plant.yard.crane k).hook.isSome = true → refuses row s .state [])
        ∧ ((s.plant.yard.arb k).bound = none → (s.plant.yard.crane k).hook = none →
          (s.plant.yard.freeTicketSlot = none → refuses row s .full [])
          ∧ ∀ slot, s.plant.yard.freeTicketSlot = some slot → ∃ (y1 : Yard) (st : TicketState),
            st = (if s.plant.works.stop then .pending else .ready)
            ∧ exec row s = .next (s.accepted hd (.parkCrane k bay level)
                (beBytes 2 ((s.plant.yard.ticketSlot slot).gen * 1024 + slot) ++ [BitVec.ofNat 8 st.num])
                (s.plant.settle { s.plant with yard := y1 }))
            ∧ y1.ticketAt slot = some ⟨.park, none, none, some (.bay bay), level, level, false, false, none, none, none, st,
                false, false, ⟨false, false, false, false, false, s.plant.works.stop, false⟩, .none, false⟩
            ∧ y1.arb k = ⟨s.plant.yard.claim k, some ⟨slot, (s.plant.yard.ticketSlot slot).gen⟩⟩
            ∧ (∀ j, j ≠ k → y1.arb j = s.plant.yard.arb j)
            ∧ (∀ i, i ≠ slot → y1.ticketSlot i = s.plant.yard.ticketSlot i)
            ∧ y1.moveQueue = s.plant.yard.moveQueue ++ [slot]
            ∧ { y1 with
                tickets := s.plant.yard.tickets
                moveQueue := s.plant.yard.moveQueue
                arbiter := s.plant.yard.arbiter } = s.plant.yard)))
    ∧ (∀ (s : Plant) (st : StackRecord) (proj : List Handle) (c : Claim) (cs : List Claim) (kept : Prop),
      (kept ↔ ∃ t p, s.yard.ticket? c.ticket = some t ∧ t.piece = some p
        ∧ (c.kind = .lift → proj.getLast? = some p)
        ∧ (c.kind = .place → proj.length < st.tiers ∧ proj.length + 1 ≤ (classOf s.site s.yard p).tier
          ∧ (∀ top, proj.getLast? = some top →
            (classOf s.site s.yard p).length ≤ (classOf s.site s.yard top).length)
          ∧ (proj.map (fun h => (classOf s.site s.yard h).weight)).sum + (classOf s.site s.yard p).weight ≤ st.limit)) →
      repairWalk s.site s.yard st proj [] = ([], [])
      ∧ (kept → ∀ t p, s.yard.ticket? c.ticket = some t → t.piece = some p → ∃ l d,
          repairWalk s.site s.yard st (if c.kind = .lift then proj.dropLast else proj ++ [p]) cs = (l, d)
          ∧ repairWalk s.site s.yard st proj (c :: cs) = (c :: l, d))
      ∧ (¬kept → ∃ l d, repairWalk s.site s.yard st proj cs = (l, d)
          ∧ repairWalk s.site s.yard st proj (c :: cs) = (l, c :: d)))
    ∧ ∀ (s : Plant) (i : Nat) (st : StackRecord) (l d : List Claim), i < 40 → st = s.yard.stack i →
      repairWalk s.site s.yard st st.pieces st.claims = (l, d) → ∃ y1, repair s.site s.yard i = y1
      ∧ (∀ n, n = d.countP (fun c => decide (c.kind = .lift)) → y1.stack i = { st with
          claims := l, buried := st.buried + n, digLock := if n = 0 then st.digLock else true })
      ∧ (∀ j, j ≠ i → y1.stack j = s.yard.stack j)
      ∧ (∀ slot t, s.yard.ticketAt slot = some t →
        ((∃ c ∈ d, c.kind = .place ∧ c.ticket.slot = slot) →
          y1.ticketAt slot = some { t with dest := if t.dest = some (.stack i) then none else t.dest })
        ∧ ((∀ c ∈ d, c.kind = .place → c.ticket.slot ≠ slot) → y1.ticketAt slot = some t))
      ∧ { y1 with stackRecs := s.yard.stackRecs, tickets := s.yard.tickets } = s.yard

/-! ## Crane links (R155 to R173) -/

/-- R168: CONFIGURE CRANE: its checks in order; an accepted one writes the home bay and nothing else, in both phases. -/
def Obligations.ConfigureCraneWritesTheHomeBay : Prop :=
  ∀ (hd : Header) (k bay : Nat) (s : State) (home : Nat → Nat) (row : Instr), s.ready →
    (∀ j, home j = if j = k then bay else (s.plant.yard.crane j).homeBay) → row = .configureCrane hd k bay →
    (¬(k < 3 ∧ bay < 64 ∧ home 0 < home 1 ∧ home 1 < home 2) → refuses row s .range [])
    ∧ (k < 3 → bay < 64 → home 0 < home 1 → home 1 < home 2 →
      ((s.plant.yard.crane k).state = .homing → refuses row s .state [])
      ∧ ((s.plant.yard.crane k).state ≠ .homing → ∃ y1,
        exec row s = .next (s.accepted hd (.configureCrane k bay) [] { s.plant with yard := y1 })
        ∧ y1.crane k = { s.plant.yard.crane k with homeBay := bay }
        ∧ (∀ j, j ≠ k → y1.crane j = s.plant.yard.crane j) ∧ { y1 with cranes := s.plant.yard.cranes } = s.plant.yard))

/-- R166, R167: HOME CRANE and CLEAR CRANE: their checks in order, and what an accepted one does to the crane, its claim and
its link, before what follows the change. That HOME CRANE leaves the controller code is the model's choice (log 31); the 1
byte of the sequence in its result is log 36. -/
def Obligations.HomeAndClearMoveTheCrane : Prop :=
  ∀ (hd : Header) (k : Nat) (s : State), s.ready → s.plant.isClosed = false →
    (3 ≤ k → refuses (.homeCrane hd k) s .range [] ∧ refuses (.clearCrane hd k) s .range [])
    ∧ (k < 3 →
      (s.plant.works.stop = true → refuses (.homeCrane hd k) s .stopped [])
      ∧ (s.plant.works.stop = false → (s.plant.yard.crane k).state ≠ .unhomed →
          (s.plant.yard.crane k).state ≠ .faulted → refuses (.homeCrane hd k) s .state [])
      ∧ (s.plant.works.stop = false →
          (s.plant.yard.crane k).state = .unhomed ∨ (s.plant.yard.crane k).state = .faulted → ∃ y1,
        exec (.homeCrane hd k) s = .next (s.accepted hd (.homeCrane k)
          [BitVec.ofNat 8 (s.plant.yard.crane k).nextSeq] (s.plant.settle { s.plant with yard := y1 }))
        ∧ y1.crane k = CraneRecord.restart { s.plant.yard.crane k with
            state := .homing
            faultCode := .none
            stopOrder := none
            stage := some ⟨.home, (s.plant.yard.crane k).nextSeq, 0⟩
            nextSeq := ((s.plant.yard.crane k).nextSeq + 1) % 256 } s.plant.works.settings.homeTimeout
        ∧ y1.arb k = ⟨none, (s.plant.yard.arb k).bound⟩
        ∧ y1.link k = (s.plant.yard.link k).put (linkFrame 0x46 (s.plant.yard.crane k).nextSeq [])
        ∧ (∀ j, j ≠ k → y1.crane j = s.plant.yard.crane j ∧ y1.arb j = s.plant.yard.arb j
            ∧ y1.link j = s.plant.yard.link j)
        ∧ { y1 with
            cranes := s.plant.yard.cranes
            arbiter := s.plant.yard.arbiter
            links := s.plant.yard.links } = s.plant.yard)
      ∧ ((s.plant.yard.crane k).state ≠ .faulted → refuses (.clearCrane hd k) s .state [])
      ∧ ((s.plant.yard.crane k).state = .faulted → ∃ y1,
        exec (.clearCrane hd k) s
          = .next (s.accepted hd (.clearCrane k) [] (Plant.settleClaim { s.plant with yard := y1 }))
        ∧ y1.crane k = { s.plant.yard.crane k with state := .unhomed, faultCode := .none, controller := 0 }
        ∧ y1.arb k = ⟨none, (s.plant.yard.arb k).bound⟩
        ∧ (∀ j, j ≠ k → y1.crane j = s.plant.yard.crane j ∧ y1.arb j = s.plant.yard.arb j)
        ∧ { y1 with cranes := s.plant.yard.cranes, arbiter := s.plant.yard.arbiter } = s.plant.yard))

/-- R158, R159, R128, R131, R148, R150 to R152: ARRIVED: dropped when it matches no order, PROTOCOL when it does not fit; a
fitting one starts the next stage of the crane's ticket or finishes a YIELD or PARK (the crane IDLE with no order awaited even
where a STOP is, log 20), before what follows the change. R139, R151: at the source the claim becomes the smallest interval of
the source bay and the destination bay, each where there is one. -/
def Obligations.ArrivedStartsTheNextStage : Prop :=
  ∀ (k : Fin 3) (q : Nat) (s : State) (c : CraneRecord), s.plant.isClosed = false → c = s.plant.yard.crane k →
    ((∀ o, c.stage = some o → o.seq ≠ q) → exec (.arrived k q) s = .next s)
    ∧ ∀ o, c.stage = some o → o.seq = q →
      (c.current = none → exec (.arrived k q) s
        = .next { s with plant := s.plant.updYard (fun y => y.updCrane k (fun r => { r with flagProtocol := true })) })
      ∧ ∀ h t, c.current = some h → s.plant.yard.ticket? h = some t →
        (¬(o.kind = .travel ∧ (t.state = .granted ∨ t.state = .lifted) ∧ c.halted = false) →
          exec (.arrived k q) s
            = .next { s with plant := s.plant.updYard (fun y => y.updCrane k (fun r => { r with flagProtocol := true })) })
        ∧ (o.kind = .travel → (t.state = .granted ∨ t.state = .lifted) → c.halted = false → ∃ y1,
          exec (.arrived k q) s = .next { s with plant := s.plant.settle { s.plant with yard := y1 } }
          ∧ y1.stackRecs = s.plant.yard.stackRecs ∧ y1.lanes = s.plant.yard.lanes
          ∧ y1.moveQueue = s.plant.yard.moveQueue
          ∧ (∀ j : Fin 3, j ≠ k → y1.crane j = s.plant.yard.crane j ∧ y1.claim j = s.plant.yard.claim j
              ∧ y1.link j = s.plant.yard.link j)
          ∧ (∀ i, i ≠ h.slot → y1.ticketAt i = s.plant.yard.ticketAt i)
          ∧ (t.state = .granted → t.kind ≠ .yield → t.kind ≠ .park → ∀ p, t.piece = some p →
            ∀ w, w = (classOf s.plant.site s.plant.yard p).weight →
            y1.ticketAt h.slot = some { t with state := .lifting }
            ∧ y1.crane k = { c with
                lastBay := o.arg
                stage := some ⟨.lift, c.nextSeq, w⟩
                nextSeq := (c.nextSeq + 1) % 256
                timer := some ⟨s.plant.works.settings.stageTimeout, false⟩ }
            ∧ y1.claim k = travelInterval s.plant.site s.plant.yard t
            ∧ (∀ src a, t.source = some src → (∀ j, src ≠ .hook j) → a = sourceBay s.plant.site s.plant.yard src →
              (∀ d b, t.dest = some d → b = destBay s.plant.yard d → y1.claim k = some ⟨min a b, max a b⟩)
              ∧ (t.dest = none → y1.claim k = some ⟨a, a⟩))
            ∧ (t.source = none ∨ (∃ j, t.source = some (.hook j)) →
              (∀ d b, t.dest = some d → b = destBay s.plant.yard d → y1.claim k = some ⟨b, b⟩)
              ∧ (t.dest = none → y1.claim k = none))
            ∧ y1.link k = (s.plant.yard.link k).put (linkFrame 0x42 c.nextSeq (beBytes 2 w))
            ∧ y1.pieces = s.plant.yard.pieces ∧ y1.trucks = s.plant.yard.trucks ∧ y1.finished = s.plant.yard.finished)
          ∧ (∀ d, t.state = .lifted → t.dest = some d →
            y1.ticketAt h.slot = some { t with state := .setting }
            ∧ y1.crane k = { c with
                lastBay := o.arg
                stage := some ⟨.lower, c.nextSeq, 0⟩
                nextSeq := (c.nextSeq + 1) % 256
                timer := some ⟨s.plant.works.settings.stageTimeout, false⟩ }
            ∧ y1.claim k = some ⟨destBay s.plant.yard d, destBay s.plant.yard d⟩
            ∧ y1.link k = (s.plant.yard.link k).put (linkFrame 0x43 c.nextSeq [])
            ∧ y1.pieces = s.plant.yard.pieces ∧ y1.trucks = s.plant.yard.trucks ∧ y1.finished = s.plant.yard.finished)
          ∧ (t.state = .lifted → t.dest = none →
            y1.ticketAt h.slot = some t
            ∧ y1.crane k = { c with
                lastBay := o.arg
                stage := none
                timer := if c.stopOrder.isSome then some ⟨s.plant.works.settings.stageTimeout, false⟩ else none }
            ∧ y1.claim k = some ⟨o.arg, o.arg⟩
            ∧ y1.link k = s.plant.yard.link k
            ∧ y1.pieces = s.plant.yard.pieces ∧ y1.trucks = s.plant.yard.trucks ∧ y1.finished = s.plant.yard.finished)
          ∧ (t.state = .granted → t.kind = .yield ∨ t.kind = .park → t.piece = none →
            y1.ticketAt h.slot = some { t with state := .done, outcome := .done, waits := .none }
            ∧ y1.finished = s.plant.yard.finished ++ [h.slot]
            ∧ (c.state ≠ .stopped → y1.crane k = { c with
                lastBay := o.arg, state := .idle, current := none, stage := none, stopOrder := none, timer := none })
            ∧ (c.state = .stopped → (y1.crane k).state = .stopped ∧ (y1.crane k).current = none
                ∧ (y1.crane k).stopOrder = c.stopOrder ∧ (y1.crane k).stage = none)
            ∧ y1.claim k = some ⟨o.arg, o.arg⟩
            ∧ (∀ j, (s.plant.yard.arb j).bound = some h → (y1.arb j).bound = none)
            ∧ (∀ j, (s.plant.yard.arb j).bound ≠ some h → (y1.arb j).bound = (s.plant.yard.arb j).bound)
            ∧ y1.link k = s.plant.yard.link k ∧ y1.pieces = s.plant.yard.pieces))

/-- R158, R159, R129, R130, R36, R37, R151, R182, R183: LIFTED: dropped when it matches no order, PROTOCOL when it does not
fit or the crane has no ticket; with the weight within the tolerance the piece goes to the hook, its holder gives it up and
TRAVEL is sent; otherwise the ticket takes the weight-failed mark, the piece a WEIGHT hold and LOWER is sent, and where the
piece is listed and had no WEIGHT hold its listing ends (R130, R182, R183): its entry leaves the order list, CHANGED latches,
and at next index the current pick is dealt with and the order is tested for completion; before what follows the change. That
the searches at the lift of a hold-pending PICK are made in move queue order, its own in its place among them, is the model's
choice (log 10). -/
def Obligations.LiftedTakesThePieceOrHoldsIt : Prop :=
  ∀ (k : Fin 3) (q w : Nat) (s : State) (c : CraneRecord), s.plant.isClosed = false → c = s.plant.yard.crane k →
    ((∀ o, c.stage = some o → o.seq ≠ q) → exec (.lifted k q w) s = .next s)
    ∧ (∀ o, c.stage = some o → o.seq = q → (∀ h, c.current = some h → s.plant.yard.ticket? h = none) →
      exec (.lifted k q w) s
        = .next { s with plant := s.plant.updYard (fun y => y.updCrane k (fun r => { r with flagProtocol := true })) })
    ∧ ∀ o, c.stage = some o → o.seq = q → ∀ h t, c.current = some h → s.plant.yard.ticket? h = some t →
      (¬(o.kind = .lift ∧ t.state = .lifting ∧ t.weightFailed = false ∧ c.halted = false) →
        exec (.lifted k q w) s
          = .next { s with plant := s.plant.updYard (fun y => y.updCrane k (fun r => { r with flagProtocol := true })) })
      ∧ (o.kind = .lift → t.state = .lifting → t.weightFailed = false → c.halted = false →
        ∀ p src r, t.piece = some p → t.source = some src → s.plant.yard.pieceAt p.slot = some r →
        ∀ cw tol, cw = (classOf s.plant.site s.plant.yard p).weight → tol = max 1 (cw / 10) →
        (w ≤ cw + tol ∧ cw ≤ w + tol → ∃ (pl : Plant) (y1 : Yard),
          exec (.lifted k q w) s = .next { s with plant := s.plant.settle { pl with yard := y1 } }
          ∧ pl.works = s.plant.works ∧ pl.classes = s.plant.classes ∧ pl.markMap = s.plant.markMap
          ∧ pl.intake = s.plant.intake
          ∧ y1.pieceAt p.slot = some { r with location := .hook k }
          ∧ (∀ i, i ≠ p.slot → y1.pieceAt i = s.plant.yard.pieceAt i)
          ∧ (y1.crane k).hook = some p ∧ (y1.crane k).state = c.state ∧ (y1.crane k).current = some h
          ∧ ((∀ b i, src ≠ .bed b i) → pl = s.plant)
          ∧ (∀ b i, src = .bed b i → b < 12 → ∃ bed,
              Plant.bedBecomes b bed (s.plant.heat b) s.plant { pl with yard := s.plant.yard }
              ∧ bed.at i = none ∧ (∀ j, j ≠ i → bed.at j = (s.plant.bed b).at j)
              ∧ ((∀ j, j < 8 → j ≠ i → (s.plant.bed b).at j = none) → bed.state = .vacant)
              ∧ ((∃ j, j < 8 ∧ j ≠ i ∧ (s.plant.bed b).at j ≠ none) → bed.state = .stripping)
              ∧ { bed with state := (s.plant.bed b).state, table := (s.plant.bed b).table } = s.plant.bed b)
          ∧ (∀ i tier, src = .stack i tier → i < 40 → (y1.stack i).pieces = (s.plant.yard.stack i).pieces.dropLast)
          ∧ (∀ l, src = .lane l → l < 2 →
            { y1.lane l with reservations := (s.plant.yard.lane l).reservations } = { s.plant.yard.lane l with
              pieces := (s.plant.yard.lane l).pieces.tail
              demand := demandLevel s.plant.works.settings.t1 s.plant.works.settings.t2 s.plant.works.settings.t3
                (s.plant.yard.lane l).drain (s.plant.yard.lane l).pieces.tail.length (s.plant.yard.lane l).demand }
            ∧ (t.holdPending = false → (y1.lane l).reservations = (s.plant.yard.lane l).reservations))
          ∧ (∀ n tier, src = .truck n tier → n < 4 → (y1.truck n).pieces = (s.plant.yard.truck n).pieces.dropLast)
          ∧ (t.holdPending = false → ∀ d, t.dest = some d →
            y1.ticketAt h.slot = some { t with state := .lifted }
            ∧ y1.crane k = { c with
                hook := some p
                stage := some ⟨.travel, c.nextSeq, destBay s.plant.yard d⟩
                nextSeq := (c.nextSeq + 1) % 256
                timer := some ⟨s.plant.works.settings.stageTimeout, false⟩ }
            ∧ y1.claim k = s.plant.yard.claim k
            ∧ y1.link k = (s.plant.yard.link k).put (linkFrame 0x41 c.nextSeq (beBytes 1 (destBay s.plant.yard d)))
            ∧ ∀ i tier, src = .stack i tier → i < 40 → (y1.stack i).claims = (s.plant.yard.stack i).claims.erase ⟨.lift, h⟩)
          ∧ (t.holdPending = true → t.crane = some k.val →
            (∀ i u, i ≠ h.slot → s.plant.yard.ticketAt i = some u → u.state = .lifted → u.crane ≠ some k.val) →
            ∀ bay, bay = sourceBay s.plant.site s.plant.yard src → ∃ (y0 y2 : Yard) (t' : Ticket),
            y0.ticketAt h.slot
              = some { t with state := .lifted, dest := none, waits := { t.waits with redirect := true } }
            ∧ (∀ i, i ≠ h.slot → y0.ticketAt i = s.plant.yard.ticketAt i) ∧ y0.moveQueue = s.plant.yard.moveQueue
            ∧ (∀ i tier, src = .stack i tier → i < 40 →
              (y0.stack i).claims = (s.plant.yard.stack i).claims.erase ⟨.lift, h⟩)
            ∧ (∀ i, (∀ tier, src ≠ .stack i tier) → y0.stack i = s.plant.yard.stack i)
            ∧ y2 = y0.moveQueue.foldl (redirectOne s.plant.site) y0
            ∧ y2.ticketAt h.slot = some t' ∧ y1.ticketAt h.slot = some t' ∧ t'.state = .lifted
            ∧ (t'.dest = none → (y1.crane k).stage = none ∧ y1.claim k = some ⟨bay, bay⟩
              ∧ { y1 with cranes := y2.cranes, arbiter := y2.arbiter } = y2)
            ∧ (t'.dest ≠ none → y1 = y2 ∧ ∃ i, t'.dest = some (.stack i) ∧ t'.redirected = true
              ∧ (y1.crane k).stage = some ⟨.travel, c.nextSeq, (s.plant.yard.stack i).bay⟩)))
        ∧ (¬(w ≤ cw + tol ∧ cw ≤ w + tol) → ∀ ends : Nat → Prop,
          (∀ n, ends n ↔ r.order = some n ∧ r.holds.weight = false) →
          (∀ n, ends n → (s.plant.yard.truck n).orderList.idxOf p = (s.plant.yard.truck n).nextIndex →
            (s.plant.yard.truck n).currentPick = some h ∨ (s.plant.yard.truck n).currentPick = none) →
          ∃ (y1 : Yard) (mark : Bool),
          exec (.lifted k q w) s = .next { s with plant := s.plant.settle { s.plant with yard := y1 } }
          ∧ y1.ticketAt h.slot = some { t with weightFailed := true, holdPending := mark }
          ∧ (∀ j, j ≠ h.slot → y1.ticketSlot j = s.plant.yard.ticketSlot j)
          ∧ y1.crane k = { c with
              stage := some ⟨.lower, c.nextSeq, 0⟩
              nextSeq := (c.nextSeq + 1) % 256
              timer := some ⟨s.plant.works.settings.stageTimeout, false⟩ }
          ∧ y1.link k = (s.plant.yard.link k).put (linkFrame 0x43 c.nextSeq [])
          ∧ y1.arb k = ⟨some ⟨sourceBay s.plant.site s.plant.yard src, sourceBay s.plant.site s.plant.yard src⟩,
              (s.plant.yard.arb k).bound⟩
          ∧ (∀ j : Fin 3, j ≠ k → y1.crane j = s.plant.yard.crane j ∧ y1.link j = s.plant.yard.link j
              ∧ y1.arb j = s.plant.yard.arb j)
          ∧ y1.pieceAt p.slot = some { r with
              holds := { r.holds with weight := true }, order := if r.holds.weight then r.order else none }
          ∧ (∀ i, i ≠ p.slot → y1.pieceSlot i = s.plant.yard.pieceSlot i)
          ∧ ((∀ n, ¬ends n) → mark = t.holdPending ∧ y1.trucks = s.plant.yard.trucks)
          ∧ (∀ (n : Nat) (truck : TruckRecord) (list : List Handle) (done : Prop), ends n → n < 4 →
            truck = s.plant.yard.truck n → list = truck.orderList.erase p →
            (done ↔ truck.state = .opened ∧ list ≠ [] ∧ truck.nextIndex = list.length) →
            (truck.orderList.idxOf p ≠ truck.nextIndex → mark = t.holdPending
              ∧ y1.truck n = { truck with orderList := list, flagChanged := true })
            ∧ (truck.orderList.idxOf p = truck.nextIndex →
              (mark = true ↔ t.holdPending = true ∨ truck.currentPick = some h)
              ∧ (done → y1.truck n = { truck with
                  orderList := list, flagChanged := true, currentPick := none, state := .complete, flagComplete := true })
              ∧ (¬done → y1.truck n = { truck with orderList := list, flagChanged := true, currentPick := none }))
            ∧ ∀ j, j ≠ n → y1.truck j = s.plant.yard.truck j)
          ∧ { y1 with
              tickets := s.plant.yard.tickets
              pieces := s.plant.yard.pieces
              trucks := s.plant.yard.trucks
              cranes := s.plant.yard.cranes
              arbiter := s.plant.yard.arbiter
              links := s.plant.yard.links } = s.plant.yard))

/-- R158, R159, R130 to R132, R152, R181: LOWERED: dropped when it matches no order, PROTOCOL when it does not fit or the
crane has no ticket; in SETTING the piece is set down on the destination and the ticket is DONE; after a failed weight check
the ticket is FAILED with WEIGHT, its claims, its reservation and a truck bay's current pick leaving with it (R132), its
weight-failed mark standing (log 30); the crane becomes IDLE with no order awaited even where a STOP is (log 20), and a STOPPED
crane stays STOPPED with its STOP awaited; no other crane and no link changes, and a set-down changes no other ticket, piece,
stack, lane or claim of a crane, and of another truck bay its current pick alone; before what follows the change. -/
def Obligations.LoweredSetsThePieceDown : Prop :=
  ∀ (k : Fin 3) (q : Nat) (s : State) (c : CraneRecord), s.plant.isClosed = false → c = s.plant.yard.crane k →
    ((∀ o, c.stage = some o → o.seq ≠ q) → exec (.lowered k q) s = .next s)
    ∧ (∀ o, c.stage = some o → o.seq = q → (∀ h, c.current = some h → s.plant.yard.ticket? h = none) →
      exec (.lowered k q) s
        = .next { s with plant := s.plant.updYard (fun y => y.updCrane k (fun r => { r with flagProtocol := true })) })
    ∧ ∀ o, c.stage = some o → o.seq = q → ∀ h t, c.current = some h → s.plant.yard.ticket? h = some t →
      (¬(o.kind = .lower ∧ (t.state = .setting ∨ t.state = .lifting ∧ t.weightFailed = true) ∧ c.halted = false) →
        exec (.lowered k q) s
          = .next { s with plant := s.plant.updYard (fun y => y.updCrane k (fun r => { r with flagProtocol := true })) })
      ∧ (o.kind = .lower → c.halted = false → t.state = .setting → ∀ p d r, t.piece = some p → t.dest = some d →
        s.plant.yard.pieceAt p.slot = some r → ∃ y1,
        exec (.lowered k q) s = .next { s with plant := s.plant.settle { s.plant with yard := y1 } }
        ∧ y1.ticketSlot h.slot
          = ⟨(s.plant.yard.ticketSlot h.slot).gen, some { t with state := .done, outcome := .done, waits := .none }⟩
        ∧ (∀ i, i ≠ h.slot → y1.ticketSlot i = s.plant.yard.ticketSlot i)
        ∧ y1.finished = s.plant.yard.finished ++ [h.slot] ∧ y1.moveQueue = s.plant.yard.moveQueue
        ∧ (∀ j : Fin 3, j ≠ k → y1.crane j = s.plant.yard.crane j ∧ y1.arb j = s.plant.yard.arb j)
        ∧ y1.links = s.plant.yard.links
        ∧ (∀ i, d ≠ .stack i → y1.stack i = s.plant.yard.stack i)
        ∧ (∀ l, d ≠ .lane l → y1.lane l = s.plant.yard.lane l)
        ∧ (∀ n, d ≠ .truck n → y1.truck n = { s.plant.yard.truck n with
            currentPick := if (s.plant.yard.truck n).currentPick = some h then none else (s.plant.yard.truck n).currentPick })
        ∧ (c.state ≠ .stopped → y1.crane k = { c with
            hook := none, state := .idle, current := none, stage := none, stopOrder := none, timer := none })
        ∧ (c.state = .stopped → y1.crane k = { c with
            hook := none
            current := none
            stage := none
            timer := if c.stopOrder.isSome then some ⟨s.plant.works.settings.stageTimeout, false⟩ else none })
        ∧ y1.arb k = ⟨some ⟨destBay s.plant.yard d, destBay s.plant.yard d⟩, (s.plant.yard.arb k).bound⟩
        ∧ (∀ i, i ≠ p.slot → y1.pieceSlot i = s.plant.yard.pieceSlot i)
        ∧ (y1.pieceSlot p.slot).gen = (s.plant.yard.pieceSlot p.slot).gen
        ∧ (∀ i, d = .stack i → i < 40 →
            y1.pieceAt p.slot = some { r with location := .stack i ((s.plant.yard.stack i).pieces.length + 1), ticket := none }
            ∧ y1.stack i = { s.plant.yard.stack i with
                pieces := (s.plant.yard.stack i).pieces ++ [p]
                claims := (s.plant.yard.stack i).claims.erase ⟨.place, h⟩ })
        ∧ (∀ l, d = .lane l → l < 2 →
            y1.pieceAt p.slot = some { r with location := .lane l, ticket := none }
            ∧ y1.lane l = { s.plant.yard.lane l with
                pieces := (s.plant.yard.lane l).pieces ++ [p]
                reservations := (s.plant.yard.lane l).reservations - 1
                demand := demandLevel s.plant.works.settings.t1 s.plant.works.settings.t2 s.plant.works.settings.t3
                  (s.plant.yard.lane l).drain ((s.plant.yard.lane l).pieces.length + 1) (s.plant.yard.lane l).demand })
        ∧ (∀ (n : Nat) (truck : TruckRecord) (done : Prop), d = .truck n → n < 4 → truck = s.plant.yard.truck n →
            (done ↔ truck.state = .opened ∧ truck.nextIndex + 1 = truck.orderList.length) →
            y1.pieceAt p.slot = some { r with location := .truck n (truck.pieces.length + 1), ticket := none }
            ∧ (t.kind ≠ .pick → y1.truck n = { truck with
                pieces := truck.pieces ++ [p]
                currentPick := if truck.currentPick = some h then none else truck.currentPick })
            ∧ (t.kind = .pick → done → y1.truck n = { truck with
                pieces := truck.pieces ++ [p], nextIndex := truck.nextIndex + 1, currentPick := none
                state := .complete, flagComplete := true })
            ∧ (t.kind = .pick → ¬done → y1.truck n = { truck with
                pieces := truck.pieces ++ [p], nextIndex := truck.nextIndex + 1, currentPick := none })))
      ∧ (o.kind = .lower → c.halted = false → t.state = .lifting → t.weightFailed = true → ∃ y1 : Yard,
        exec (.lowered k q) s = .next { s with plant := s.plant.settle { s.plant with yard := y1 } }
        ∧ s.plant.yard.ticketEnds h.slot t .failed .weight y1 ∧ s.plant.yard.picksEnd h y1
        ∧ (c.state ≠ .stopped → y1.crane k = { c with
            state := .idle, current := none, stage := none, stopOrder := none, timer := none })
        ∧ (c.state = .stopped → y1.crane k = { c with
            current := none
            stage := none
            timer := if c.stopOrder.isSome then some ⟨s.plant.works.settings.stageTimeout, false⟩ else none })
        ∧ (∀ j : Fin 3, j ≠ k → y1.crane j = s.plant.yard.crane j) ∧ y1.links = s.plant.yard.links)

/-- R158, R161, R167, R169, R170: STOPPED and HOMED: PROTOCOL for a bay outside the runway and for a report that does not
fit, nothing for one that answers no order; a fitting STOPPED ends the stop, a fitting HOMED homes the crane or faults it
with HOME-CONFLICT, each of them an occasion for an evaluation in any case (R153); before what follows the change. A HOMED is
tested against the neighbours' claims alone (log 26), and that HOME-CONFLICT leaves the controller code is the model's choice
(log 31). -/
def Obligations.StoppedAndHomedEndTheirOrders : Prop :=
  ∀ (k : Fin 3) (q bay : Nat) (s : State) (c : CraneRecord), s.plant.isClosed = false → c = s.plant.yard.crane k →
    ∀ protocol : State,
      protocol = { s with plant := s.plant.updYard (fun y => y.updCrane k (fun r => { r with flagProtocol := true })) } →
    (64 ≤ bay → exec (.stopped k q bay) s = .next protocol ∧ exec (.homed k q bay) s = .next protocol)
    ∧ (bay < 64 →
      (c.stopOrder ≠ some q → exec (.stopped k q bay) s = .next s)
      ∧ (c.stopOrder = some q → (∃ i, s.plant.yard.claim k = some i ∧ ¬(i.lo ≤ bay ∧ bay ≤ i.hi)) →
          exec (.stopped k q bay) s = .next protocol)
      ∧ (c.stopOrder = some q → (∀ i, s.plant.yard.claim k = some i → i.lo ≤ bay ∧ bay ≤ i.hi) → ∃ y1,
        exec (.stopped k q bay) s = .next { s with plant := Plant.settleClaim { s.plant with yard := y1 } }
        ∧ { y1 with cranes := s.plant.yard.cranes, arbiter := s.plant.yard.arbiter } = s.plant.yard
        ∧ (∀ j : Fin 3, j ≠ k → y1.crane j = s.plant.yard.crane j ∧ y1.arb j = s.plant.yard.arb j)
        ∧ (c.state = .busy → c.current = none →
            y1.crane k = { c with lastBay := bay, stopOrder := none, timer := none, state := .idle }
            ∧ y1.claim k = some ⟨bay, bay⟩)
        ∧ (c.state = .busy → c.current.isSome = true → c.halted = false →
            y1.crane k = { c with
              lastBay := bay, stopOrder := none
              timer := if c.stage.isSome then some ⟨s.plant.works.settings.stageTimeout, false⟩ else none }
            ∧ y1.claim k = s.plant.yard.claim k)
        ∧ (c.state = .stopped → c.current = none →
            (s.plant.works.stop = true →
              y1.crane k = { c with lastBay := bay, stopOrder := none, timer := none, halted := true })
            ∧ (s.plant.works.stop = false →
              y1.crane k = { c with lastBay := bay, stopOrder := none, timer := none, state := .idle, halted := false })
            ∧ y1.claim k = some ⟨bay, bay⟩)
        ∧ (c.state = .stopped → c.current.isSome = true →
            y1.crane k = { c with lastBay := bay, stopOrder := none, timer := none, halted := true }
            ∧ y1.claim k = s.plant.yard.claim k)
        ∧ (c.state = .unhomed →
            y1.crane k = { c with lastBay := bay, stopOrder := none, timer := none }
            ∧ y1.claim k = s.plant.yard.claim k))
      ∧ ((∀ o, c.stage = some o → o.seq ≠ q) → exec (.homed k q bay) s = .next s)
      ∧ ∀ o, c.stage = some o → o.seq = q →
        (¬(o.kind = .home ∧ c.state = .homing) → exec (.homed k q bay) s = .next protocol)
        ∧ (o.kind = .home → c.state = .homing → ∃ y1,
          exec (.homed k q bay) s = .next { s with plant := Plant.settleClaim { s.plant with yard := y1 } }
          ∧ { y1 with cranes := s.plant.yard.cranes, arbiter := s.plant.yard.arbiter } = s.plant.yard
          ∧ (∀ j : Fin 3, j ≠ k → y1.crane j = s.plant.yard.crane j ∧ y1.arb j = s.plant.yard.arb j)
          ∧ (bay ≠ c.homeBay ∨ reaches s.plant.yard k ⟨bay, bay⟩ = false →
              y1.crane k = { c with
                lastBay := bay, state := .faulted, faultCode := .homeConflict, stage := none, stopOrder := none
                timer := none, flagFault := true }
              ∧ y1.arb k = ⟨none, (s.plant.yard.arb k).bound⟩)
          ∧ (bay = c.homeBay → reaches s.plant.yard k ⟨bay, bay⟩ = true →
              y1.crane k = { c with lastBay := bay, state := .idle, stage := none, timer := none }
              ∧ y1.arb k = ⟨some ⟨bay, bay⟩, (s.plant.yard.arb k).bound⟩)))

/-- R162 to R164, R167, R132: FAULT, STAGE_TIMEOUT and HOMING_TIMEOUT: what each does to the crane and to its ticket, a
ticket that fails losing its LIFT claim and its PLACE claim or reservation, before what follows the change; a fault taken
while BUSY and a homing timeout are occasions for an evaluation in any case (R153). A timeout that is not due does nothing
(log 5); that a timeout leaves the controller code is the model's choice (log 31), and that a failed ticket keeps its
weight-failed mark is read from R113 and R132 (log 30). -/
def Obligations.FaultsAndTimeoutsFaultTheCrane : Prop :=
  ∀ (k : Fin 3) (q code bay : Nat) (s : State) (c : CraneRecord), s.plant.isClosed = false →
    c = s.plant.yard.crane k → ∀ due home : Prop, (due ↔ ∃ m, c.timer = some m ∧ m.minutes ≤ 1) →
    (home ↔ c.stopOrder = none ∧ c.state = .homing) →
    (64 ≤ bay → exec (.fault k q code bay) s = .next { s with
        plant := s.plant.updYard (fun y => y.updCrane k (fun r => { r with flagProtocol := true })) })
    ∧ (¬(due ∧ ¬home) → exec (.stageTimeout k) s = .next s)
    ∧ (¬(due ∧ home) → exec (.homingTimeout k) s = .next s)
    ∧ (due → home → ∃ y1,
      exec (.homingTimeout k) s = .next { s with
          plant := Plant.settleClaim { s.plant with yard := y1 } }
      ∧ y1.crane k = { c with
          state := .faulted, faultCode := .homeTimeout, stage := none, stopOrder := none, timer := none
          flagFault := true }
      ∧ y1.arb k = ⟨none, (s.plant.yard.arb k).bound⟩
      ∧ (∀ j : Fin 3, j ≠ k → y1.crane j = s.plant.yard.crane j ∧ y1.arb j = s.plant.yard.arb j)
      ∧ { y1 with cranes := s.plant.yard.cranes, arbiter := s.plant.yard.arbiter } = s.plant.yard)
    ∧ ∀ (row : Instr) (after : CraneRecord),
      (row = .fault k q code bay ∧ bay < 64 ∧ after = { c with
          state := .faulted, faultCode := .reported, controller := code, lastBay := bay, current := none, stage := none
          stopOrder := none, halted := false, timer := none, flagFault := true }
        ∨ row = .stageTimeout k ∧ due ∧ ¬home ∧ after = { c with
          state := .faulted, faultCode := .timeout, current := none, stage := none
          stopOrder := none, halted := false, timer := none, flagFault := true }) → ∃ y1,
      exec row s = .next { s with
          plant := if c.state = .busy then Plant.settleClaim { s.plant with yard := y1 }
            else s.plant.settle { s.plant with yard := y1 } }
      ∧ y1.crane k = after
      ∧ (∀ j : Fin 3, j ≠ k → y1.crane j = s.plant.yard.crane j)
      ∧ y1.arbiter = s.plant.yard.arbiter ∧ y1.links = s.plant.yard.links
      ∧ (∀ i, (y1.stack i).pieces = (s.plant.yard.stack i).pieces)
      ∧ (c.current = none → { y1 with cranes := s.plant.yard.cranes } = s.plant.yard)
      ∧ ∀ h t, c.current = some h → s.plant.yard.ticket? h = some t →
        (t.state = .granted → { y1 with tickets := s.plant.yard.tickets, cranes := s.plant.yard.cranes } = s.plant.yard
          ∧ (∀ j, j ≠ h.slot → y1.ticketSlot j = s.plant.yard.ticketSlot j)
          ∧ ∃ (st : TicketState) (w : Waits), (st = .ready ∧ w = .none ∨ st = .pending ∧ w ≠ .none)
            ∧ y1.ticketAt h.slot = some { t with state := st, crane := none, waits := w })
        ∧ (t.state = .lifting ∨ t.state = .lifted ∨ t.state = .setting →
          s.plant.yard.ticketEnds h.slot t .failed .craneFault y1 ∧ s.plant.yard.picksEnd h y1)

/-! ## Dispatch orders (R174 to R190) -/

/-- R176 to R178, R12: OPEN ORDER and ADD TO ORDER: their checks in order, a failing entry's number in the refusal (for ADD
TO ORDER, and counted from 0 in the command's own list, log 34; its 1 byte, log 35); what an accepted one writes in the truck
bay and in the listed pieces, before pick creation and what follows the change, all else staying; and what the check of one
entry answers. R180: the first pick is made exactly where its conditions hold, in the lowest free slot; and what pick
creation does for any order, here and in the work that follows a change. OPEN ORDER's result shows the pick before the
arbiter's evaluation (log 11), and 0xFF 0xFF where creation waits (log 15). -/
def Obligations.OrdersListTheirPieces : Prop :=
  (∀ (hd : Header) (n level dig : Nat) (hs : List Handle) (s : State) (t : TruckRecord), s.ready →
      s.plant.isClosed = false → t = s.plant.yard.truck n →
      (¬(n < 4 ∧ level < 4 ∧ dig ≤ 1 ∧ 1 ≤ hs.length ∧ hs.length ≤ 12) → refuses (.openOrder hd n level dig hs) s .range [])
      ∧ (¬(n < 4 ∧ 1 ≤ hs.length ∧ hs.length ≤ 12) → refuses (.addToOrder hd n hs) s .range [])
      ∧ (n < 4 → 1 ≤ hs.length → hs.length ≤ 12 →
        (level < 4 → dig ≤ 1 → ¬(t.defined = true ∧ t.state = .free) → refuses (.openOrder hd n level dig hs) s .state [])
        ∧ (t.state ≠ .opened → refuses (.addToOrder hd n hs) s .state [])
        ∧ (t.state = .opened → 12 < t.orderList.length + hs.length → refuses (.addToOrder hd n hs) s .full [])
        ∧ (∀ (i : Nat) (h : Handle) (c : Code), hs[i]? = some h → entryCheck s.plant.yard (hs.take i) h = some c →
          (∀ j g, j < i → hs[j]? = some g → entryCheck s.plant.yard (hs.take j) g = none) →
          (level < 4 → dig ≤ 1 → t.defined = true → t.state = .free →
            refuses (.openOrder hd n level dig hs) s c [BitVec.ofNat 8 i])
          ∧ (t.state = .opened → t.orderList.length + hs.length ≤ 12 → refuses (.addToOrder hd n hs) s c [BitVec.ofNat 8 i]))
        ∧ ((∀ j g, hs[j]? = some g → entryCheck s.plant.yard (hs.take j) g = none) →
          (level < 4 → dig ≤ 1 → t.defined = true → t.state = .free → ∃ (y1 : Yard) (fields : List Byte),
            exec (.openOrder hd n level dig hs) s = .next (s.accepted hd (.openOrder n level dig hs)
              (BitVec.ofNat 8 n :: BitVec.ofNat 8 hs.length :: fields) (s.plant.settle { s.plant with yard := y1 }))
            ∧ (∃ y0, y1 = createPick s.plant.site y0 n ∧ s.plant.yard.lists n hs { t with
                state := .opened, orderList := hs, level := level, digEnable := decide (dig = 1), nextIndex := 0
                currentPick := none } y0)
            ∧ { y1.truck n with currentPick := none } = { t with
                state := .opened, orderList := hs, level := level, digEnable := decide (dig = 1), nextIndex := 0
                currentPick := none }
            ∧ (∀ i, i ≠ n → y1.truck i = s.plant.yard.truck i)
            ∧ (∀ h ∈ hs, ∃ r, y1.pieceAt h.slot = some r ∧ r.order = some n)
            ∧ ((y1.truck n).currentPick = none → fields = [0xFF#8, 0xFF#8])
            ∧ (∀ pick, (y1.truck n).currentPick = some pick → ∃ u, y1.ticketAt pick.slot = some u
                ∧ u.kind = .pick ∧ u.piece = hs[0]? ∧ u.truck = some n ∧ u.dest = some (.truck n) ∧ u.baseLevel = level
                ∧ u.dig = decide (dig = 1)
                ∧ fields = handleBytes pick ++ [BitVec.ofNat 8 u.state.num, BitVec.ofNat 8 (waitsNum u.waits)])
            ∧ (s.plant.yard.freeTicketSlot = none → (y1.truck n).currentPick = none)
            ∧ ∀ h p, hs[0]? = some h → s.plant.yard.piece? h = some p →
              (∀ slot, s.plant.yard.freeTicketSlot = some slot →
                ((∃ l, p.location = .lane l) ∨ ∃ i tier, p.location = .stack i tier
                  ∧ ((projection s.plant.yard i).getLast? = some h → (s.plant.yard.stack i).claims.length < 4)) →
                (y1.truck n).currentPick = some ⟨slot, (s.plant.yard.ticketSlot slot).gen⟩)
              ∧ ∀ i tier, p.location = .stack i tier → (projection s.plant.yard i).getLast? = some h →
                4 ≤ (s.plant.yard.stack i).claims.length → (y1.truck n).currentPick = none)
          ∧ (t.state = .opened → t.orderList.length + hs.length ≤ 12 → ∃ y1,
            exec (.addToOrder hd n hs) s
              = .next (s.accepted hd (.addToOrder n hs) [] (s.plant.settle { s.plant with yard := y1 }))
            ∧ (∃ y0, y1 = createPick s.plant.site y0 n
              ∧ s.plant.yard.lists n hs { t with orderList := t.orderList ++ hs } y0)
            ∧ { y1.truck n with currentPick := none } = { t with orderList := t.orderList ++ hs, currentPick := none }
            ∧ (∀ i, i ≠ n → y1.truck i = s.plant.yard.truck i)
            ∧ (∀ h ∈ hs, ∃ r, y1.pieceAt h.slot = some r ∧ r.order = some n)
            ∧ (t.currentPick ≠ none → (y1.truck n).currentPick = t.currentPick
              ∧ y1.tickets = s.plant.yard.tickets)
            ∧ (s.plant.yard.freeTicketSlot = none → (y1.truck n).currentPick = t.currentPick
              ∧ y1.tickets = s.plant.yard.tickets)
            ∧ ∀ h p, (t.orderList ++ hs)[t.nextIndex]? = some h → s.plant.yard.piece? h = some p →
              (p.ticket ≠ none → (y1.truck n).currentPick = t.currentPick ∧ y1.tickets = s.plant.yard.tickets)
              ∧ (∀ i tier, p.location = .stack i tier → (projection s.plant.yard i).getLast? = some h →
                4 ≤ (s.plant.yard.stack i).claims.length →
                (y1.truck n).currentPick = t.currentPick ∧ y1.tickets = s.plant.yard.tickets)
              ∧ ∀ slot, t.currentPick = none → p.ticket = none → s.plant.yard.freeTicketSlot = some slot →
                ((∃ l, p.location = .lane l) ∨ (∃ j, p.location = .hook j) ∨ ∃ i tier, p.location = .stack i tier
                  ∧ ((projection s.plant.yard i).getLast? = some h → (s.plant.yard.stack i).claims.length < 4)) →
                (y1.truck n).currentPick = some ⟨slot, (s.plant.yard.ticketSlot slot).gen⟩
                ∧ ∃ u, y1.ticketAt slot = some u ∧ u.kind = .pick ∧ u.piece = some h ∧ u.truck = some n
                  ∧ u.dest = some (.truck n) ∧ u.baseLevel = t.level ∧ u.dig = t.digEnable))))
    ∧ (∀ (e : Site) (y : Yard) (k : Nat) (r : TruckRecord), r = y.truck k →
      (r.state ≠ .opened ∨ r.currentPick ≠ none ∨ r.orderList[r.nextIndex]? = none ∨ y.freeTicketSlot = none →
        createPick e y k = y)
      ∧ ∀ h p, r.orderList[r.nextIndex]? = some h → y.piece? h = some p →
        (p.ticket ≠ none ∨ (∃ b i, p.location = .bed b i) ∨ (∃ n tier, p.location = .truck n tier)
            ∨ (∃ i tier, p.location = .stack i tier ∧ (projection y i).getLast? = some h ∧ 4 ≤ (y.stack i).claims.length) →
          createPick e y k = y)
        ∧ ∀ slot hh, r.state = .opened → r.currentPick = none → p.ticket = none → y.freeTicketSlot = some slot →
          hh = ⟨slot, (y.ticketSlot slot).gen⟩ →
          ((∃ l, p.location = .lane l) ∨ (∃ j, p.location = .hook j) ∨ ∃ i tier, p.location = .stack i tier
            ∧ ((projection y i).getLast? = some h → (y.stack i).claims.length < 4)) → ∃ (y1 : Yard) (u : Ticket),
          createPick e y k = y1 ∧ y1.truck k = { r with currentPick := some hh }
          ∧ (∀ n, n ≠ k → y1.truck n = y.truck n) ∧ y1.ticketAt slot = some u
          ∧ u.kind = .pick ∧ u.piece = some h ∧ u.source = some p.location ∧ u.dest = some (.truck k)
          ∧ u.baseLevel = r.level ∧ u.after = false ∧ u.dig = r.digEnable ∧ u.truck = some k ∧ u.serves = none
          ∧ u.crane = none ∧ u.outcome = .none ∧ u.redirected = false
          ∧ (u.state = .ready ∧ u.waits = .none ∨ u.state = .pending ∧ u.waits ≠ .none)
          ∧ y1.pieceAt h.slot = some { p with ticket := some hh }
          ∧ (∃ more, y1.moveQueue = y.moveQueue ++ slot :: more ∧ (r.digEnable = false → more = []))
          ∧ (∀ i tier, p.location = .stack i tier →
            ((projection y i).getLast? = some h → ⟨.lift, hh⟩ ∈ (y1.stack i).claims)
            ∧ ((projection y i).getLast? ≠ some h → i < 40 → r.digEnable = false →
              (y1.stack i).buried = (y.stack i).buried + 1 ∧ (y1.stack i).digLock = true))
          ∧ (∀ j, j ≠ slot → r.digEnable = false ∨ (y.ticketAt j).isSome = true → y1.ticketSlot j = y.ticketSlot j)
          ∧ (r.digEnable = false → (∀ j, j ≠ h.slot → y1.pieceSlot j = y.pieceSlot j)
            ∧ (∀ i tier, p.location = .stack i tier → i < 40 → y.sourceClaimed i h hh y1)
            ∧ ∀ i, (∀ tier, p.location ≠ .stack i tier) → y1.stack i = y.stack i)
          ∧ y1.lanes = y.lanes ∧ y1.fixed = y.fixed ∧ y1.cranes = y.cranes ∧ y1.arbiter = y.arbiter ∧ y1.links = y.links)
    ∧ ∀ (y : Yard) (earlier : List Handle) (h : Handle),
      (y.piece? h = none → entryCheck y earlier h = some .stale)
      ∧ ∀ p, y.piece? h = some p →
        (h ∈ earlier → entryCheck y earlier h = some .duplicate)
        ∧ (h ∉ earlier →
          (p.holds ≠ ⟨false, false, false, false⟩ → entryCheck y earlier h = some .held)
          ∧ (p.holds = ⟨false, false, false, false⟩ →
            (p.order.isSome = true → entryCheck y earlier h = some .inUse)
            ∧ (p.order = none →
              ((∀ l, p.location ≠ .lane l) → (∀ i tier, p.location ≠ .stack i tier) → entryCheck y earlier h = some .state)
              ∧ ((∃ l, p.location = .lane l) ∨ (∃ i tier, p.location = .stack i tier) →
                (p.ticket.isSome = true → entryCheck y earlier h = some .inMove)
                ∧ (p.ticket = none → entryCheck y earlier h = none)))))

/-- R179, R186, R187: ORDER LEVEL, CANCEL ORDER and SHIP ORDER: their checks in order; the truck bay that an accepted one
leaves, the pieces that leave the list or the table, and what each leaves as it is, before what follows the change: all else
for ORDER LEVEL; for SHIP ORDER all else but the mark map, which the retired marks leave, and the class table, whose live
counts fall by the pieces retired; for CANCEL ORDER all else where there is no current pick, and where there is one what the
end of a pick writes by its state (R134, R161, R183 to R185). -/
def Obligations.OrdersEnd : Prop :=
  ∀ (hd : Header) (n level : Nat) (s : State) (t : TruckRecord), s.ready → s.plant.isClosed = false →
    t = s.plant.yard.truck n →
    (¬(n < 4 ∧ level < 4) → refuses (.orderLevel hd n level) s .range [])
    ∧ (4 ≤ n → refuses (.cancelOrder hd n) s .range [] ∧ refuses (.shipOrder hd n) s .range [])
    ∧ (n < 4 →
      (t.state ≠ .opened → t.state ≠ .complete →
        (level < 4 → refuses (.orderLevel hd n level) s .state []) ∧ refuses (.cancelOrder hd n) s .state [])
      ∧ (level < 4 → t.state = .opened ∨ t.state = .complete → ∃ y1,
        exec (.orderLevel hd n level) s
          = .next (s.accepted hd (.orderLevel n level) [] (s.plant.settle { s.plant with yard := y1 }))
        ∧ y1.truck n = { t with level := level } ∧ (∀ i, i ≠ n → y1.truck i = s.plant.yard.truck i)
        ∧ { y1 with trucks := s.plant.yard.trucks } = s.plant.yard)
      ∧ (∀ h u, t.state = .opened ∨ t.state = .complete → t.currentPick = some h → s.plant.yard.ticket? h = some u →
          u.state = .setting → refuses (.cancelOrder hd n) s .inMove [])
      ∧ (t.state = .opened ∨ t.state = .complete →
        (∀ h u, t.currentPick = some h → s.plant.yard.ticket? h = some u → u.state ≠ .setting) → ∃ y1,
        exec (.cancelOrder hd n) s = .next (s.accepted hd (.cancelOrder n) [BitVec.ofNat 8 t.pieces.length]
          (s.plant.settle { s.plant with yard := y1 }))
        ∧ y1.truck n = { t with
            orderList := [], nextIndex := 0, currentPick := none
            state := if t.pieces = [] then .free else .unloading }
        ∧ (∀ h ∈ t.orderList, ∀ r, s.plant.yard.pieceAt h.slot = some r →
            ∃ r', y1.pieceAt h.slot = some r' ∧ r'.order = none ∧ r'.location = r.location ∧ r'.holds = r.holds)
        ∧ (∃ ya : Yard, (∀ h ∈ t.orderList, ∀ r, s.plant.yard.pieceAt h.slot = some r →
              ya.pieceAt h.slot = some { r with order := none })
          ∧ (∀ slot, (∀ h ∈ t.orderList, h.slot ≠ slot) → ya.pieceSlot slot = s.plant.yard.pieceSlot slot)
          ∧ (∀ slot, (ya.pieceSlot slot).gen = (s.plant.yard.pieceSlot slot).gen)
          ∧ { ya with pieces := s.plant.yard.pieces } = s.plant.yard
          ∧ (t.currentPick = none → { y1 with trucks := ya.trucks } = ya)
          ∧ ∀ pick u, t.currentPick = some pick → ya.ticketAt pick.slot = some u →
            ya.pickLeft s.plant.site pick.slot u y1)
        ∧ (t.currentPick = none → y1.tickets = s.plant.yard.tickets ∧ y1.finished = s.plant.yard.finished)
        ∧ (t.currentPick = none → { y1 with pieces := s.plant.yard.pieces, trucks := s.plant.yard.trucks } = s.plant.yard
          ∧ ∀ i, i ≠ n → y1.truck i = s.plant.yard.truck i)
        ∧ (∀ slot, (∀ h ∈ t.orderList, h.slot ≠ slot) →
            (y1.pieceSlot slot).fixed = (s.plant.yard.pieceSlot slot).fixed)
        ∧ (∀ i, i ≠ n → (y1.truck i).fixed = (s.plant.yard.truck i).fixed)
        ∧ (∀ i, (y1.stack i).fixed = (s.plant.yard.stack i).fixed)
        ∧ (∀ l, (y1.lane l).fixed = (s.plant.yard.lane l).fixed)
        ∧ (∀ k, (y1.crane k).hook = (s.plant.yard.crane k).hook ∧ (y1.crane k).state = (s.plant.yard.crane k).state
            ∧ (y1.crane k).lastBay = (s.plant.yard.crane k).lastBay ∧ (y1.arb k).bound = (s.plant.yard.arb k).bound)
        ∧ y1.moveQueue = s.plant.yard.moveQueue
        ∧ ∀ h u, t.currentPick = some h → s.plant.yard.ticket? h = some u →
          (u.state = .pending ∨ u.state = .ready ∨ u.state = .granted →
            y1.finished = s.plant.yard.finished ++ [h.slot]
            ∧ ∃ u', y1.ticketAt h.slot = some u' ∧ u'.state = .cancelled ∧ u'.outcome = .withdrawn)
          ∧ (u.state = .lifting → y1.finished = s.plant.yard.finished
            ∧ y1.ticketAt h.slot = some { u with holdPending := true })
          ∧ (u.state = .lifted → y1.finished = s.plant.yard.finished
            ∧ ∃ u', y1.ticketAt h.slot = some u' ∧ u'.state = .lifted
              ∧ (u'.dest = none ∨ ∃ i, u'.dest = some (.stack i) ∧ u'.redirected = true)))
      ∧ (t.state ≠ .complete → refuses (.shipOrder hd n) s .state [])
      ∧ (t.state = .complete → (t.pieces.map (fun h => h.slot)).Nodup → ∃ p,
        exec (.shipOrder hd n) s
          = .next (s.accepted hd (.shipOrder n) [BitVec.ofNat 8 t.pieces.length] (s.plant.settle p))
        ∧ p.yard.truck n = { t with
            pieces := [], orderList := [], nextIndex := 0, currentPick := none, state := .free }
        ∧ (∀ i, i ≠ n → p.yard.truck i = s.plant.yard.truck i)
        ∧ (∀ h ∈ t.pieces, ∀ r, s.plant.yard.pieceAt h.slot = some r →
            p.yard.pieceSlot h.slot = ⟨nextGen h.slot (s.plant.yard.pieceSlot h.slot).gen, none⟩
            ∧ ∀ slot, (r.mark, slot) ∉ p.markMap)
        ∧ (∀ i, (∀ h ∈ t.pieces, h.slot ≠ i) → p.yard.pieceSlot i = s.plant.yard.pieceSlot i)
        ∧ p.markMap = s.plant.markMap.filter (fun e =>
            t.pieces.all (fun h => (s.plant.yard.pieceAt h.slot).all (fun r => decide (r.mark ≠ e.1))))
        ∧ (∀ c, p.cls c = { s.plant.cls c with
            liveCount := (s.plant.cls c).liveCount
              - t.pieces.countP (fun h => (s.plant.yard.pieceAt h.slot).any (fun r => decide (r.cls = c))) })
        ∧ p.works = s.plant.works ∧ p.beds = s.plant.beds ∧ p.cure = s.plant.cure ∧ p.bedLines = s.plant.bedLines
        ∧ p.intake = s.plant.intake
        ∧ { p.yard with pieces := s.plant.yard.pieces, trucks := s.plant.yard.trucks } = s.plant.yard
        ∧ ∀ c, { p.cls c with liveCount := (s.plant.cls c).liveCount } = s.plant.cls c))

/-! ## Reading -/

/-- R8, R15, R44, R65, R83, R97, R105, R136, R171, R188, R195: the commands that read a record (READ BED, READ STACK, READ
LANE, READ ORDER, READ PIECE, READ CLASS, READ PLAN, READ INTAKE, READ MOVE, READ CRANE, READ WORKS): RANGE for a number out
of range or STALE for a stale handle, else the record's fields in the order and the codes of R218, in both phases; nothing
changes. The codes of absent items are free values (log 3); an empty claim and the length of a live count are log 15, the
code of the plant stop state is log 27, the bytes of mark and class in READ PIECE are log 28, the 1 byte of READ CRANE's
report timer log 32, that of READ MOVE's position in the move queue log 35, that of a sequence and of a controller code log
36. -/
def Obligations.ReadsShowEveryRecord : Prop :=
  (∀ (hd : Header) (i : Nat) (s : State), s.ready →
      (12 ≤ i → refuses (.readBed hd i) s .range [])
      ∧ (40 ≤ i → refuses (.readStack hd i) s .range [])
      ∧ (2 ≤ i → refuses (.readLane hd i) s .range [])
      ∧ (4 ≤ i → refuses (.readOrder hd i) s .range [])
      ∧ (i < 12 → ∀ b, b = s.plant.bed i →
        exec (.readBed hd i) s = .next (s.accepted hd (.readBed i)
          (boolByte b.configured ++ [BitVec.ofNat 8 b.bay, BitVec.ofNat 8 b.positions, BitVec.ofNat 8 b.holdSetpoint,
              BitVec.ofNat 8 b.state.num]
            ++ (List.range 8).flatMap (fun n => optHandleBytes (b.at n))
            ++ beBytes 4 b.maturity ++ [BitVec.ofNat 8 b.turnover, BitVec.ofNat 8 (bedFlagsNum b.flags)]) s.plant))
      ∧ (i < 40 → ∀ r proj, r = s.plant.yard.stack i → proj = projection s.plant.yard i →
        exec (.readStack hd i) s = .next (s.accepted hd (.readStack i)
          ([BitVec.ofNat 8 r.state.num, BitVec.ofNat 8 r.bay, BitVec.ofNat 8 r.tiers] ++ beBytes 2 r.limit
            ++ r.pieces.flatMap handleBytes ++ [BitVec.ofNat 8 r.pieces.length]
            ++ beBytes 2 (r.pieces.map (fun h => (classOf s.plant.site s.plant.yard h).weight)).sum
            ++ r.claims.flatMap (fun c => BitVec.ofNat 8 c.kind.num :: handleBytes c.ticket)
            ++ [BitVec.ofNat 8 proj.length]
            ++ beBytes 2 (proj.map (fun h => (classOf s.plant.site s.plant.yard h).weight)).sum
            ++ boolByte r.digLock ++ [BitVec.ofNat 8 r.buried]) s.plant))
      ∧ (i < 2 → ∀ l, l = s.plant.yard.lane i →
        exec (.readLane hd i) s = .next (s.accepted hd (.readLane i)
          (boolByte l.defined ++ [BitVec.ofNat 8 l.bay] ++ l.pieces.flatMap handleBytes
            ++ [BitVec.ofNat 8 l.pieces.length, BitVec.ofNat 8 l.reservations] ++ boolByte l.drain
            ++ [BitVec.ofNat 8 l.demand]) s.plant))
      ∧ (i < 4 → ∀ t, t = s.plant.yard.truck i →
        exec (.readOrder hd i) s = .next (s.accepted hd (.readOrder i)
          (boolByte t.defined ++ [BitVec.ofNat 8 t.bay, BitVec.ofNat 8 t.state.num] ++ t.pieces.flatMap handleBytes
            ++ t.orderList.flatMap handleBytes ++ [BitVec.ofNat 8 t.level] ++ boolByte t.digEnable
            ++ [BitVec.ofNat 8 t.nextIndex] ++ optHandleBytes t.currentPick ++ [BitVec.ofNat 8 (orderFlagsNum t)]) s.plant)))
    ∧ ∀ (hd : Header) (i : Nat) (h : Handle) (s : State), s.ready →
      (32 ≤ i → refuses (.readClass hd i) s .range [])
      ∧ (12 ≤ i → refuses (.readPlan hd i) s .range [] ∧ refuses (.readIntake hd i) s .range [])
      ∧ (3 ≤ i → refuses (.readCrane hd i) s .range [])
      ∧ (s.plant.yard.piece? h = none → refuses (.readPiece hd h) s .stale [])
      ∧ (s.plant.yard.ticket? h = none → refuses (.readMove hd h) s .stale [])
      ∧ (∀ p place, s.plant.yard.piece? h = some p →
          (∀ b n, p.location = .bed b n → place = [0#8, BitVec.ofNat 8 b, BitVec.ofNat 8 n]) →
          (∀ k, p.location = .hook k → place = [1#8, BitVec.ofNat 8 k]) →
          (∀ l, p.location = .lane l → place
            = [2#8, BitVec.ofNat 8 l, BitVec.ofNat 8 ((s.plant.yard.lane l).pieces.idxOf h + 1)]) →
          (∀ n tier, p.location = .stack n tier → place = [3#8, BitVec.ofNat 8 n, BitVec.ofNat 8 tier]) →
          (∀ n tier, p.location = .truck n tier → place = [4#8, BitVec.ofNat 8 n, BitVec.ofNat 8 tier]) →
          exec (.readPiece hd h) s = .next (s.accepted hd (.readPiece h)
          (beBytes 2 (h.gen * 1024 + h.slot) ++ beBytes 6 p.mark ++ [BitVec.ofNat 8 p.cls] ++ place ++ beBytes 4 p.maturity
            ++ [if (s.plant.cls p.cls).threshold ≤ p.maturity then 1#8 else 0#8] ++ beBytes 4 p.castMinute
            ++ [BitVec.ofNat 8 (holdsNum p.holds)] ++ optObjectBytes p.order ++ optHandleBytes p.ticket) s.plant))
      ∧ (∀ t source dest, s.plant.yard.ticket? h = some t →
          (∀ b n, t.source = some (.bed b n) → source = [0#8, BitVec.ofNat 8 b, BitVec.ofNat 8 n]) →
          (∀ k, t.source = some (.hook k) → source = [1#8, BitVec.ofNat 8 k]) →
          (∀ l, t.source = some (.lane l) → source = [2#8, BitVec.ofNat 8 l]) →
          (∀ n tier, t.source = some (.stack n tier) → source = [3#8, BitVec.ofNat 8 n, BitVec.ofNat 8 tier]) →
          (∀ n tier, t.source = some (.truck n tier) → source = [4#8, BitVec.ofNat 8 n, BitVec.ofNat 8 tier]) →
          (t.source = none → source = [Config.absentKind, 0xFF#8]) →
          (∀ n, t.dest = some (.stack n) → dest = [3#8, BitVec.ofNat 8 n]) →
          (∀ l, t.dest = some (.lane l) → dest = [2#8, BitVec.ofNat 8 l]) →
          (∀ n, t.dest = some (.truck n) → dest = [4#8, BitVec.ofNat 8 n]) →
          (∀ bay, t.dest = some (.bay bay) → dest = [6#8, BitVec.ofNat 8 bay]) →
          (t.dest = none → dest = [Config.absentKind, 0xFF#8]) →
          exec (.readMove hd h) s = .next (s.accepted hd (.readMove h)
            ([BitVec.ofNat 8 t.kind.num] ++ optHandleBytes t.piece ++ source ++ dest
              ++ [BitVec.ofNat 8 t.baseLevel, BitVec.ofNat 8 t.level, if t.after then 1#8 else 0#8,
                if t.dig then 1#8 else 0#8] ++ optObjectBytes t.truck ++ optHandleBytes t.serves ++ optObjectBytes t.crane
              ++ [BitVec.ofNat 8 t.state.num, if t.weightFailed then 1#8 else 0#8, if t.holdPending then 1#8 else 0#8,
                BitVec.ofNat 8 (waitsNum t.waits), BitVec.ofNat 8 t.outcome.num, if t.redirected then 1#8 else 0#8,
                BitVec.ofNat 8 (s.plant.yard.moveQueue.idxOf h.slot + 1)]) s.plant))
      ∧ (i < 32 → ∀ c, c = s.plant.cls i → exec (.readClass hd i) s = .next (s.accepted hd (.readClass i)
          (boolByte c.defined ++ beBytes 2 c.length ++ beBytes 2 c.weight ++ beBytes 4 c.threshold
            ++ [BitVec.ofNat 8 c.tier] ++ beBytes 2 c.liveCount) s.plant))
      ∧ (i < 12 → ∀ r segment, r = s.plant.heat i →
          (∀ g : Segment, segment g = BitVec.ofNat 8 g.setpoint :: beBytes 2 g.duration) →
          exec (.readPlan hd i) s = .next (s.accepted hd (.readPlan i)
            ([BitVec.ofNat 8 (r.requested.num * 64 + r.running.num * 16 + r.transition.num * 4
                  + (if r.swapPending then 2 else 0) + (if (s.plant.intakeOf i).unitFault then 1 else 0)),
                BitVec.ofNat 8 r.minutes, BitVec.ofNat 8 (r.plan.num * 64 + r.segIndex)]
              ++ beBytes 2 r.segMinutes
              ++ [BitVec.ofNat 8 (r.run.length * 16 + r.next.length), BitVec.ofNat 8 r.lastOrder.mode.num,
                BitVec.ofNat 8 r.lastOrder.setpoint]
              ++ r.run.flatMap segment ++ r.next.flatMap segment) s.plant))
      ∧ (i < 12 → ∀ r, r = s.plant.intakeOf i → exec (.readIntake hd i) s = .next (s.accepted hd (.readIntake i)
          ([BitVec.ofNat 8 r.state.num, BitVec.ofNat 8 r.gapCount] ++ optSequence r.lastSeq ++ optTemperature r.lastTemp
            ++ optMinute r.lastMinute ++ boolByte r.unitFault) s.plant))
      ∧ (i < 3 → ∀ c claim stage timer, c = s.plant.yard.crane i →
          (∀ b, s.plant.yard.claim i = some b → claim = [BitVec.ofNat 8 b.lo, BitVec.ofNat 8 b.hi]) →
          (s.plant.yard.claim i = none → claim = [0xFF#8, 0xFF#8]) →
          (∀ o, c.stage = some o → stage = [BitVec.ofNat 8 o.kind.num, BitVec.ofNat 8 o.seq]) →
          (c.stage = none → stage = [Config.absentKind, Config.absentSequence]) →
          (∀ m, c.timer = some m → timer = BitVec.ofNat 8 m.minutes) → (c.timer = none → timer = Config.stoppedTimer) →
          exec (.readCrane hd i) s = .next (s.accepted hd (.readCrane i)
            ([BitVec.ofNat 8 c.state.num, BitVec.ofNat 8 c.homeBay] ++ claim ++ optHandleBytes (s.plant.yard.arb i).bound
              ++ optHandleBytes c.hook ++ optHandleBytes c.current
              ++ [BitVec.ofNat 8 c.lastBay, BitVec.ofNat 8 c.faultCode.num, BitVec.ofNat 8 c.controller] ++ stage
              ++ [if c.stopOrder.isSome then 1#8 else 0#8, if c.halted then 1#8 else 0#8, timer,
                BitVec.ofNat 8 (craneFlagsNum c)]) s.plant))
      ∧ ∀ live, live = ((List.range 1024).filter (fun n => (s.plant.yard.pieceAt n).isSome)).length →
        exec (.readWorks hd) s = .next (s.accepted hd .readWorks
          ([if s.plant.works.phase = .opened then 1#8 else 0#8] ++ beBytes 4 s.plant.works.clock
            ++ [if s.plant.works.stop then 0#8 else 1#8] ++ beBytes 2 live ++ [BitVec.ofNat 8 s.plant.yard.moveQueue.length,
              BitVec.ofNat 8 s.plant.yard.finished.length]) s.plant)

/-! ## What follows a change (R121 to R126, R138 to R147, R153, R180) -/

/-- R122, R123, R126, R138 to R147, R153: what follows a change of the yard in the same step moves no piece, frees no ticket
slot and finishes no ticket; the follow-up work leaves every PENDING and READY ticket with the wait reasons that apply, READY
exactly when there are none; while a stop is asserted or a claim is empty the arbiter changes nothing. Each wait reason
stands exactly where its condition holds (R121, R181); after the work every active ticket has the effective level of its
kind, and one that takes its level from nothing more the level it had (R123); a buried ticket whose piece is the projection
top takes its LIFT claim while the list has room, the buried count falls and the dig lock clears at 0, at every append of a
LIFT claim, at every removal of a claim and at the start of the work that follows any change (R126). At every occasion the
waiting work is made in its order, redirect searches, pick creations, dig rounds, until none of them can do anything more
(R180); what a search gives its ticket (R111, R153, R185), what a dig round makes, from the top down and until a case stops
it (R125), and what a pick creation makes (R180, in OrdersListTheirPieces). The arbiter keeps claims that lie in crane order
so, and so does a HOMED report where the middle crane has a claim (log 26). Then the arbiter's own rules: reach and span
(R139), the selection order and the walk (R124, R141, R142), that walks follow until one makes nothing and that an evaluation
is made at every occasion and at no other change (R141), the crane of the idle-crane step (R142, R143), what a grant changes
(R127, R143, R157), the crane of a preemption and what it changes (R144, R145), the crane of the yield step and what a yield
makes (R146, R147), the order in which the steps are tried (R143 to R147); and that a grant, the arrival that follows it and
the lift leave the crane with a claim that holds each bay to which a later report can shrink it (R151, R152). -/
def Obligations.FollowUpWorkKeepsTheRecords : Prop :=
  (∀ (e : Site) (y0 y1 : Yard),
      ((settle e y0 y1).fixed = y1.fixed ∧ (settleClaim e y1).fixed = y1.fixed)
      ∧ (y1.keeps (settle e y0 y1) ∧ y1.keeps (settleClaim e y1))
      ∧ (∀ slot t, slot ∈ (followUp e y1).moveQueue → (followUp e y1).ticketAt slot = some t →
          t.state = .pending ∨ t.state = .ready →
          t.waits = evalWaits e (followUp e y1) slot t ∧ (t.state = .ready ↔ t.waits = .none))
      ∧ (e.stop = true ∨ (∃ k, k < 3 ∧ y1.claim k = none) → evaluate e y1 = y1))
    -- R121, R181: the condition of each wait reason
    ∧ (∀ (e : Site) (y : Yard) (slot : Nat) (t : Ticket) (h : Handle) (front back : List Nat) (w : Waits)
        (pickOf : Nat → Nat → Prop), y.ticketAt slot = some t → t.state = .pending ∨ t.state = .ready →
      h = y.ticketHandle slot → y.moveQueue = front ++ slot :: back → slot ∉ front → w = evalWaits e y slot t →
      (∀ k i, pickOf k i ↔ ∃ u, y.ticketAt i = some u ∧ u.state.isActive = true ∧ u.kind = .pick ∧ u.truck = some k) →
      w.stop = e.stop
      ∧ (t.kind = .yield ∨ t.kind = .park → w = ⟨false, false, false, false, false, e.stop, false⟩)
      ∧ (t.kind ≠ .yield → t.kind ≠ .park →
        (w.after = true ↔ t.after = true ∧ ∃ i ∈ front, ∃ u, y.ticketAt i = some u ∧ u.state.isActive = true)
        ∧ (∀ b n, t.source = some (.bed b n) → (w.source = true ↔
            (getOr e.beds b .reset).state ≠ .released ∧ (getOr e.beds b .reset).state ≠ .stripping))
        ∧ (∀ l, t.source = some (.lane l) → (w.source = true ↔ (y.lane l).pieces.head? ≠ t.piece))
        ∧ (∀ k tier, t.source = some (.truck k tier) →
            (w.source = true ↔ (y.truck k).pieces.getLast? ≠ t.piece ∨ ∃ i ∈ y.moveQueue, pickOf k i))
        ∧ (∀ i tier, t.source = some (.stack i tier) → (w.buried = true ↔ ⟨.lift, h⟩ ∉ (y.stack i).claims)
          ∧ (w.source = true ↔ ⟨.lift, h⟩ ∈ (y.stack i).claims ∧ (y.stack i).claims.head? ≠ some ⟨.lift, h⟩))
        ∧ ((∀ i tier, t.source ≠ some (.stack i tier)) → w.buried = false)
        ∧ (t.source = none ∨ (∃ k, t.source = some (.hook k)) → w.source = false)
        ∧ (∀ i, t.dest = some (.stack i) → (w.dest = true ↔ (y.stack i).claims.head? ≠ some ⟨.place, h⟩))
        ∧ ((∀ i, t.dest ≠ some (.stack i)) → w.dest = false)
        ∧ (w.order = true ↔ t.kind = .pick ∧ ∃ k, t.truck = some k ∧ ∃ i ∈ front, pickOf k i)
        ∧ (w.redirect = true ↔ t.dest = none)))
    -- R123: the effective level of every active ticket after the work that follows a change
    ∧ (∀ (e : Site) (y0 y z : Yard), y.moveQueue.Nodup →
      (∀ slot, slot ∈ y.moveQueue ↔ (y.ticketAt slot).isSome = true) →
      (z = followUp e y ∨ z = settle e y0 y ∨ z = settleClaim e y) → ∀ (slot : Nat) (t : Ticket) (kept : Prop),
      z.ticketAt slot = some t → t.state.isActive = true →
      (kept ↔ ∀ u, y.ticketAt slot = some u → t.level = u.level) →
      (∀ b n, t.kind = .strip → t.source = some (.bed b n) →
        t.level = max t.baseLevel (getOr e.beds b .reset).turnover)
      ∧ (∀ l, t.kind = .stow → t.source = some (.lane l) → t.level = max t.baseLevel (z.lane l).demand)
      ∧ (∀ listed : Nat → Prop, t.kind = .pick → (∀ k, listed k ↔ t.truck = some k
          ∧ ∃ p r, t.piece = some p ∧ z.piece? p = some r ∧ r.order = some k) →
        (∀ k, listed k → t.level = (z.truck k).level) ∧ ((∀ k, ¬listed k) → kept))
      ∧ (∀ served : Ticket → Prop, t.kind = .dig ∨ t.kind = .yield → (∀ u, served u ↔ u.state.isActive = true
          ∧ ∃ h, t.serves = some h ∧ z.ticket? h = some u ∧ h.slot ∈ z.moveQueue.takeWhile (fun i => decide (i ≠ slot))) →
        (∀ u, served u → t.level = u.level) ∧ ((∀ u, ¬served u) → kept))
      ∧ (t.kind = .shift ∨ t.kind = .park → t.level = t.baseLevel))
    -- R126: promotion, one buried ticket after another, and the occasions at which it is tested
    ∧ (∀ (y : Yard) (i : Nat) (may : Nat → Prop), i < 40 →
      (∀ slot, may slot ↔ slot ∈ y.moveQueue ∧ ∃ t p tier, y.ticketAt slot = some t
        ∧ (t.state = .pending ∨ t.state = .ready) ∧ t.source = some (.stack i tier) ∧ t.piece = some p
        ∧ ⟨.lift, y.ticketHandle slot⟩ ∉ (y.stack i).claims ∧ (projection y i).getLast? = some p) →
      ((4 ≤ (y.stack i).claims.length ∨ ∀ slot, ¬may slot) → promote i y = y)
      ∧ (∀ slot, (y.stack i).claims.length < 4 → may slot →
        (∀ other, may other → y.moveQueue.idxOf slot ≤ y.moveQueue.idxOf other) → ∃ y1, promote i y = promote i y1
        ∧ y1.stack i = { y.stack i with
            claims := (y.stack i).claims ++ [⟨.lift, y.ticketHandle slot⟩]
            buried := (y.stack i).buried - 1
            digLock := decide (1 < (y.stack i).buried) }
        ∧ (∀ j, j ≠ i → y1.stack j = y.stack j) ∧ { y1 with stackRecs := y.stackRecs } = y)
      ∧ (∀ h, ∃ y1, appendLift y i h = promote i y1
        ∧ y1.stack i = { y.stack i with claims := (y.stack i).claims ++ [⟨.lift, h⟩] }
        ∧ (∀ j, j ≠ i → y1.stack j = y.stack j) ∧ { y1 with stackRecs := y.stackRecs } = y)
      ∧ (∀ e c, (c ∉ (y.stack i).claims → removeClaim e y i c = y)
        ∧ (c ∈ (y.stack i).claims → ∃ y1, removeClaim e y i c = promote i (repair e y1 i)
          ∧ y1.stack i = { y.stack i with claims := (y.stack i).claims.erase c }
          ∧ (∀ j, j ≠ i → y1.stack j = y.stack j) ∧ { y1 with stackRecs := y.stackRecs } = y))
      ∧ (0 < ((promoteAll y).stack i).buried → promote i (promoteAll y) = promoteAll y))
    ∧ (∀ y : Yard, promoteAll y
        = (List.range 40).foldl (fun z i => if 0 < (z.stack i).buried then promote i z else z) y)
    -- R111, R125, R180: the waiting work of an occasion is made, in its order, until nothing is left to be made
    ∧ (∀ (e : Site) (y z : Yard),
      (z = [0, 1, 2, 3].foldl (createPick e) (y.moveQueue.foldl (redirectOne e) y) →
        waitingPass e y = z.moveQueue.foldl (digRound e) z)
      ∧ (∃ n, followUp e y = refreshAll e (refreshLevels e ((waitingPass e)^[n + 1] (refreshLevels e (promoteAll y)))))
      ∧ (z = followUp e y → (∀ k, k < 4 → createPick e z k = z)
        ∧ ∀ slot ∈ z.moveQueue, digRound e z slot = z ∧ redirectOne e z slot = z))
    -- R111, R153, R185: the search of one ticket that waits for a destination
    ∧ (∀ (e : Site) (y : Yard) (slot : Nat) (t : Ticket) (p : Handle) (src : Location), y.ticketAt slot = some t →
      (t.dest ≠ none ∨ t.state ≠ .lifted ∧ t.state ≠ .pending ∧ t.state ≠ .ready → redirectOne e y slot = y)
      ∧ (t.dest = none → t.piece = some p → t.source = some src → ∀ given : Dest → Ticket,
        (∀ d, given d = { t with dest := some d, redirected := true, waits := { t.waits with redirect := false } }) →
        (t.state = .pending ∨ t.state = .ready →
          (unladenDest e y t src p = none → redirectOne e y slot = y)
          ∧ (∀ i, unladenDest e y t src p = some (.stack i) → ∃ y1, redirectOne e y slot = y1
            ∧ y1.ticketSlot slot = ⟨(y.ticketSlot slot).gen, some (given (.stack i))⟩
            ∧ y1.stack i = { y.stack i with claims := (y.stack i).claims ++ [⟨.place, y.ticketHandle slot⟩] }
            ∧ (∀ j, j ≠ slot → y1.ticketSlot j = y.ticketSlot j) ∧ (∀ j, j ≠ i → y1.stack j = y.stack j)
            ∧ { y1 with tickets := y.tickets, stackRecs := y.stackRecs } = y)
          ∧ ∀ l, unladenDest e y t src p = some (.lane l) → ∃ y1, redirectOne e y slot = y1
            ∧ y1.ticketSlot slot = ⟨(y.ticketSlot slot).gen, some (given (.lane l))⟩
            ∧ y1.lane l = { y.lane l with reservations := (y.lane l).reservations + 1 }
            ∧ (∀ j, j ≠ slot → y1.ticketSlot j = y.ticketSlot j) ∧ (∀ j, j ≠ l → y1.lane j = y.lane j)
            ∧ { y1 with tickets := y.tickets, lanes := y.lanes } = y)
        ∧ (∀ k c, k < 3 → t.state = .lifted → t.crane = some k → y.claim k = some c →
          (ladenStack e y k p = none → redirectOne e y slot = y)
          ∧ ∀ i bay, ladenStack e y k p = some i → bay = (y.stack i).bay → ∃ y1, redirectOne e y slot = y1
            ∧ y1.ticketSlot slot = ⟨(y.ticketSlot slot).gen, some (given (.stack i))⟩
            ∧ y1.stack i = { y.stack i with claims := (y.stack i).claims ++ [⟨.place, y.ticketHandle slot⟩] }
            ∧ y1.arb k = { y.arb k with claim := some ⟨min c.lo bay, max c.hi bay⟩ }
            ∧ y1.crane k = { y.crane k with
                stage := some ⟨.travel, (y.crane k).nextSeq, bay⟩
                nextSeq := ((y.crane k).nextSeq + 1) % 256
                timer := if (y.crane k).halted then (y.crane k).timer else some ⟨e.settings.stageTimeout, false⟩ }
            ∧ y1.link k = (y.link k).put (linkFrame 0x41 (y.crane k).nextSeq [BitVec.ofNat 8 bay])
            ∧ (∀ j, j ≠ slot → y1.ticketSlot j = y.ticketSlot j) ∧ (∀ j, j ≠ i → y1.stack j = y.stack j)
            ∧ (∀ j, j ≠ k → y1.crane j = y.crane j ∧ y1.arb j = y.arb j ∧ y1.link j = y.link j)
            ∧ { y1 with
                tickets := y.tickets
                stackRecs := y.stackRecs
                arbiter := y.arbiter
                cranes := y.cranes
                links := y.links } = y)))
    -- R125: a dig round, and its walk from the top downward
    ∧ (∀ (e : Site) (y : Yard) (slot : Nat) (t : Ticket), y.ticketAt slot = some t →
      (t.dig = false ∨ t.state ≠ .pending ∧ t.state ≠ .ready ∨ (∀ i tier, t.source ≠ some (.stack i tier))
          ∨ (∃ i tier, t.source = some (.stack i tier) ∧ ⟨.lift, y.ticketHandle slot⟩ ∈ (y.stack i).claims) →
        digRound e y slot = y)
      ∧ ∀ i tier x below above, t.dig = true → t.state = .pending ∨ t.state = .ready →
        t.source = some (.stack i tier) → ⟨.lift, y.ticketHandle slot⟩ ∉ (y.stack i).claims → t.piece = some x →
        (y.stack i).pieces = below ++ x :: above → x ∉ above →
        digRound e y slot = digWalk e slot i above.reverse y)
    ∧ (∀ (e : Site) (y : Yard) (slot i : Nat) (c : Handle) (cs : List Handle) (p : Piece) (t : Ticket),
      y.pieceAt c.slot = some p → y.ticketAt slot = some t →
      digWalk e slot i [] y = y
      ∧ (p.ticket ≠ none → digWalk e slot i (c :: cs) y = digWalk e slot i cs y)
      ∧ (p.ticket = none →
        (y.freeTicketSlot = none ∨ 4 ≤ (y.stack i).claims.length ∨ (projection y i).getLast? ≠ some c
            ∨ stackFor e y p.location c = none → digWalk e slot i (c :: cs) y = y)
        ∧ ∀ free d tier hh, y.freeTicketSlot = some free → (y.stack i).claims.length < 4 →
          (projection y i).getLast? = some c → stackFor e y p.location c = some d → p.location = .stack i tier →
          hh = ⟨free, (y.ticketSlot free).gen⟩ → ∃ (y1 : Yard) (u : Ticket),
          digWalk e slot i (c :: cs) y = digWalk e slot i cs y1 ∧ y1.ticketAt free = some u
          ∧ u.kind = .dig ∧ u.piece = some c ∧ u.source = some p.location ∧ u.dest = some (.stack d)
          ∧ u.baseLevel = t.level ∧ u.after = false ∧ u.dig = false ∧ u.serves = some (y.ticketHandle slot)
          ∧ (t.kind = .pick → u.truck = t.truck) ∧ (t.kind ≠ .pick → u.truck = none) ∧ u.crane = none
          ∧ (u.state = .ready ∧ u.waits = .none ∨ u.state = .pending ∧ u.waits ≠ .none)
          ∧ y1.pieceAt c.slot = some { p with ticket := some hh } ∧ y1.moveQueue = y.moveQueue ++ [free]
          ∧ ⟨.lift, hh⟩ ∈ (y1.stack i).claims ∧ ⟨.place, hh⟩ ∈ (y1.stack d).claims
          ∧ (∀ j, j ≠ free → y1.ticketAt j = y.ticketAt j)
          ∧ y1.fixed = y.fixed ∧ y1.cranes = y.cranes ∧ y1.arbiter = y.arbiter ∧ y1.links = y.links))
    ∧ (∀ (e : Site) (y0 y : Yard), y.claimsOrdered →
      (evaluate e y).claimsOrdered ∧ (settle e y0 y).claimsOrdered ∧ (settleClaim e y).claimsOrdered
      ∧ ∀ k bay, k < 3 → k = 1 ∨ y.claim 1 ≠ none → (homedEffect y k bay).claimsOrdered)
    -- R139: reach, the bays of a ticket, its span
    ∧ (∀ (y : Yard) (k : Nat) (i : Interval), k < 3 →
      (reaches y k i = true ↔ (∀ j c, j + 1 = k → y.claim j = some c → c.hi < i.lo)
        ∧ ∀ c, y.claim (k + 1) = some c → i.hi < c.lo))
    ∧ (∀ (e : Site) (y : Yard) (t : Ticket) (k : Nat) (dests : List Nat),
      (t.dest = none → dests = []) → (∀ n, t.dest = some (.stack n) → dests = [(y.stack n).bay]) →
      (∀ n, t.dest = some (.lane n) → dests = [(y.lane n).bay]) →
      (∀ n, t.dest = some (.truck n) → dests = [(y.truck n).bay]) → (∀ bay, t.dest = some (.bay bay) → dests = [bay]) →
      (t.source = none → neededBays e y t = dests)
      ∧ (∀ j, t.source = some (.hook j) → neededBays e y t = dests)
      ∧ (∀ b n, t.source = some (.bed b n) → neededBays e y t = (getOr e.beds b .reset).bay :: dests)
      ∧ (∀ l, t.source = some (.lane l) → neededBays e y t = (y.lane l).bay :: dests)
      ∧ (∀ n tier, t.source = some (.stack n tier) → neededBays e y t = (y.stack n).bay :: dests)
      ∧ (∀ n tier, t.source = some (.truck n tier) → neededBays e y t = (y.truck n).bay :: dests)
      ∧ (∀ c, y.claim k = some c → ∃ i, span e y k t = some i
        ∧ i.lo ≤ c.lo ∧ c.hi ≤ i.hi ∧ (∀ b ∈ neededBays e y t, i.lo ≤ b ∧ b ≤ i.hi)
        ∧ (i.lo = c.lo ∨ i.lo ∈ neededBays e y t) ∧ (i.hi = c.hi ∨ i.hi ∈ neededBays e y t))
      ∧ (reachesTicket e y k t = true ↔ ∃ i, span e y k t = some i ∧ reaches y k i = true))
    -- R124, R142: the selection order and the walk
    ∧ ([TicketKind.yield, .pick, .dig, .strip, .stow, .shift, .park].map TicketKind.priority = [1, 2, 3, 4, 5, 6, 7])
    ∧ (∀ (y : Yard) (slot next : Nat) (t u : Ticket), t.level < 4 → u.level < 4 → y.moveQueue.length ≤ 24 →
      (selectionKey y slot t < selectionKey y next u ↔ u.level < t.level ∨ t.level = u.level
        ∧ (t.kind.priority < u.kind.priority ∨ t.kind.priority = u.kind.priority
          ∧ y.moveQueue.idxOf slot < y.moveQueue.idxOf next)))
    ∧ (∀ (e : Site) (y : Yard) (last n : Nat),
      (nextReady y last = none → walk e (n + 1) last y = (y, false)
        ∧ ∀ slot ∈ y.moveQueue, ∀ t, y.ticketAt slot = some t → t.state = .ready → selectionKey y slot t ≤ last)
      ∧ ∀ slot, nextReady y last = some slot → slot ∈ y.moveQueue ∧ ∃ t, y.ticketAt slot = some t ∧ t.state = .ready
        ∧ last < selectionKey y slot t
        ∧ (∀ other ∈ y.moveQueue, ∀ u, y.ticketAt other = some u → u.state = .ready → last < selectionKey y other u →
          selectionKey y slot t ≤ selectionKey y other u)
        ∧ ∃ r, r = walk e n (selectionKey y slot t) (examine e y slot).1
          ∧ walk e (n + 1) last y = (r.1, (examine e y slot).2 || r.2))
    -- R140, R141: walks until one makes nothing; an evaluation at every occasion, and only there
    ∧ (∀ (e : Site) (y : Yard) (after : Nat → Yard), e.stop = false → (∀ k, k < 3 → y.claim k ≠ none) →
      y.moveQueue.length ≤ 24 → (∀ slot t, y.ticketAt slot = some t → t.level < 4) → after 0 = y →
      (∀ n, after (n + 1) = (walk e 25 0 (after n)).1) →
      (∃ n, evaluate e y = after (n + 1) ∧ ∀ j, j ≤ n → ((walk e 25 0 (after j)).2 = true ↔ j < n))
      ∧ ∀ slot ∈ (evaluate e y).moveQueue, ∀ t, (evaluate e y).ticketAt slot = some t → t.state = .ready →
        examine e (evaluate e y) slot = (evaluate e y, false))
    ∧ (∀ (e : Site) (y0 y z : Yard) (old : Nat → Option Ticket) (occasion : Prop), z = followUp e y →
      (∀ slot, old slot = if (y0.ticketSlot slot).gen = (z.ticketSlot slot).gen then y0.ticketAt slot else none) →
      (occasion ↔ (∃ k, k < 3 ∧ (y0.claim k ≠ z.claim k ∨ (y0.crane k).state ≠ .idle ∧ (z.crane k).state = .idle))
        ∨ ∃ slot t, z.ticketAt slot = some t ∧ (t.state = .ready ∧ (∀ u, old slot = some u → u.state ≠ .ready)
          ∨ t.state.isActive = true ∧ ∃ u, old slot = some u ∧ u.state.isActive = true ∧ u.level ≠ t.level)) →
      (occasion → settle e y0 y = evaluate e z) ∧ (¬occasion → settle e y0 y = z) ∧ settleClaim e y = evaluate e z)
    -- R142, R143: the idle-crane step
    ∧ (∀ (y : Yard) (slot k : Nat) (t : Ticket),
      (t.kind = .yield ∨ t.kind = .park → (mayServe y slot k t = true ↔
        (y.crane k).state = .idle ∧ (y.crane k).hook = none ∧ (y.arb k).bound = some (y.ticketHandle slot)))
      ∧ (t.kind ≠ .yield → t.kind ≠ .park →
        (∀ j, t.source = some (.hook j) → (mayServe y slot k t = true ↔
          (y.crane k).state = .idle ∧ j = k ∧ (y.crane k).hook = t.piece))
        ∧ ((∀ j, t.source ≠ some (.hook j)) → (mayServe y slot k t = true ↔
          (y.crane k).state = .idle ∧ (y.crane k).hook = none))))
    ∧ (∀ (e : Site) (y : Yard) (slot : Nat) (t : Ticket) (may : Nat → Prop) (far : Nat → Nat),
      (∀ k, may k ↔ k < 3 ∧ mayServe y slot k t = true ∧ reachesTicket e y k t = true) → far = craneDistance e y t →
      (∀ k c b rest, y.claim k = some c → neededBays e y t = b :: rest → far k = (c.lo - b) + (b - c.hi))
      ∧ (idleCrane e y slot t = none ↔ ∀ k, ¬may k)
      ∧ ∀ k, idleCrane e y slot t = some k ↔ may k ∧ ∀ j, may j → far k < far j ∨ far k = far j ∧ k ≤ j)
    -- R127, R143, R157: a grant
    ∧ (∀ (e : Site) (y y1 : Yard) (slot k b : Nat) (t : Ticket) (c : Interval) (rest : List Nat), k < 3 →
      y.ticketAt slot = some t → y.claim k = some c → neededBays e y t = b :: rest → y1 = grant e y slot k t →
      y1.arb k = { y.arb k with claim := span e y k t } ∧ (∀ j, j ≠ k → y1.arb j = y.arb j)
      ∧ y1.ticketSlot slot = ⟨(y.ticketSlot slot).gen,
          some { t with state := if t.fromHook then .lifted else .granted, crane := some k }⟩
      ∧ (∀ i, i ≠ slot → y1.ticketSlot i = y.ticketSlot i)
      ∧ y1.crane k = { y.crane k with
          state := .busy, current := some (y.ticketHandle slot), stage := some ⟨.travel, (y.crane k).nextSeq, b⟩
          nextSeq := ((y.crane k).nextSeq + 1) % 256
          timer := if (y.crane k).halted then (y.crane k).timer else some ⟨e.settings.stageTimeout, false⟩ }
      ∧ (∀ j, j ≠ k → y1.crane j = y.crane j)
      ∧ y1.link k = (y.link k).put (linkFrame 0x41 (y.crane k).nextSeq [BitVec.ofNat 8 b])
      ∧ (∀ j, j ≠ k → y1.link j = y.link j)
      ∧ { y1 with arbiter := y.arbiter, tickets := y.tickets, cranes := y.cranes, links := y.links } = y
      ∧ y1.claimCovers e k)
    -- R144, R145: the preemption step
    ∧ (∀ (e : Site) (y : Yard) (t : Ticket) (served : Nat → Nat → Ticket → Prop), y.moveQueue.length ≤ 24 →
      (∀ k u v, served k u v ↔ k < 3 ∧ reachesTicket e y k t = true ∧ (y.crane k).state = .busy
        ∧ ∃ h, (y.crane k).current = some h ∧ y.ticket? h = some v ∧ h.slot = u ∧ v.state = .granted
          ∧ v.level < t.level) →
      (preemptCrane e y t = none ↔ ∀ k u v, ¬served k u v)
      ∧ (∀ k, preemptCrane e y t = some k ↔ ∃ u v, served k u v ∧ ∀ j w x, served j w x →
        v.level < x.level ∨ v.level = x.level ∧ (y.moveQueue.idxOf w < y.moveQueue.idxOf u
          ∨ y.moveQueue.idxOf w = y.moveQueue.idxOf u ∧ k ≤ j))
      ∧ ∀ k u v slot, served k u v → ∃ y1 v1, preempt e y slot k t = grant e y1 slot k t
        ∧ y1.ticketSlot u = ⟨(y.ticketSlot u).gen, some v1⟩ ∧ (∀ i, i ≠ u → y1.ticketSlot i = y.ticketSlot i)
        ∧ { y1 with tickets := y.tickets } = y
        ∧ { v1 with state := v.state, waits := v.waits, crane := v.crane } = v ∧ v1.crane = none
        ∧ v1.waits = evalWaits e y1 u v1 ∧ v1.state = if v1.waits = .none then .ready else .pending)
    -- R146, R147: the yield step
    ∧ (∀ (y : Yard) (k : Nat) (i : Interval), k < 3 →
      (blockers y k i).Pairwise (· < ·)
      ∧ (∀ j, j ∈ blockers y k i ↔ (j + 1 = k ∧ ∃ c, y.claim j = some c ∧ i.lo ≤ c.hi)
          ∨ (j = k + 1 ∧ ∃ c, y.claim j = some c ∧ c.lo ≤ i.hi))
      ∧ ∀ j target, j < 3 →
        (j + 1 = k → (yieldTarget k j i = some target ↔ target + 1 = i.lo)
          ∧ (mayYield y k j i = true ↔ (y.crane j).state = .idle ∧ (y.crane j).hook = none ∧ (y.arb j).bound = none
            ∧ 0 < i.lo ∧ ∀ o c, o + 1 = j → y.claim o = some c → c.hi + 1 < i.lo))
        ∧ (j = k + 1 → (yieldTarget k j i = some target ↔ target = i.hi + 1 ∧ target < 64)
          ∧ (mayYield y k j i = true ↔ (y.crane j).state = .idle ∧ (y.crane j).hook = none ∧ (y.arb j).bound = none
            ∧ i.hi < 63 ∧ ∀ c, y.claim (j + 1) = some c → i.hi + 1 < c.lo)))
    ∧ (∀ (e : Site) (y : Yard) (t : Ticket) (may : Nat → Prop) (far : Nat → Nat), far = craneDistance e y t →
      (∀ k, may k ↔ k < 3 ∧ (y.crane k).state = .idle ∧ (y.crane k).hook = none
        ∧ ∃ i, span e y k t = some i ∧ blockers y k i ≠ [] ∧ ∀ j ∈ blockers y k i, mayYield y k j i = true) →
      (yieldCrane e y t = none ↔ ∀ k, ¬may k)
      ∧ ∀ k, yieldCrane e y t = some k ↔ may k ∧ ∀ j, may j → far k < far j ∨ far k = far j ∧ k ≤ j)
    ∧ (∀ (e : Site) (y : Yard) (slot k : Nat) (t : Ticket) (i : Interval), span e y k t = some i →
      makeYields e y slot k t = (blockers y k i).foldl (makeYield e (y.ticketHandle slot) t.level k i) y)
    ∧ (∀ (e : Site) (y y1 : Yard) (served : Handle) (level k j target : Nat) (i : Interval), j < 3 →
      yieldTarget k j i = some target → y1 = makeYield e served level k i y j →
      ((∀ slot, slot < 24 → y.ticketAt slot ≠ none) → y1 = y)
      ∧ ∀ slot, slot < 24 → y.ticketAt slot = none → (∀ n, n < slot → y.ticketAt n ≠ none) →
        y1.ticketSlot slot = ⟨(y.ticketSlot slot).gen, some ⟨.yield, none, none, some (.bay target), level, level, false,
          false, none, some served, none, if e.stop then .pending else .ready, false, false,
          ⟨false, false, false, false, false, e.stop, false⟩, .none, false⟩⟩
        ∧ (∀ n, n ≠ slot → y1.ticketSlot n = y.ticketSlot n) ∧ y1.moveQueue = y.moveQueue ++ [slot]
        ∧ y1.arb j = { y.arb j with bound := some (y.ticketHandle slot) } ∧ (∀ n, n ≠ j → y1.arb n = y.arb n)
        ∧ { y1 with tickets := y.tickets, moveQueue := y.moveQueue, arbiter := y.arbiter } = y)
    -- R143 to R147: the order of the steps
    ∧ (∀ (e : Site) (y : Yard) (slot : Nat) (t : Ticket), y.ticketAt slot = some t →
      (∀ k, idleCrane e y slot t = some k → examine e y slot = (grant e y slot k t, true))
      ∧ (idleCrane e y slot t = none →
        (t.piece = none ∨ (∃ j, t.source = some (.hook j)) → examine e y slot = (y, false))
        ∧ (t.piece ≠ none → (∀ j, t.source ≠ some (.hook j)) →
          (∀ k, preemptCrane e y t = some k → examine e y slot = (preempt e y slot k t, true))
          ∧ (preemptCrane e y t = none →
            (∀ k, yieldCrane e y t = some k → examine e y slot
              = (makeYields e y slot k t, decide ((makeYields e y slot k t).moveQueue ≠ y.moveQueue)))
            ∧ (yieldCrane e y t = none → examine e y slot = (y, false))))))
    -- R151, R152: the claim after an arrival and after a lift holds the bays that are still needed
    ∧ ∀ (e : Site) (y : Yard) (k slot : Nat) (t : Ticket) (o : StageOrder), k < 3 → currentTicket y k = some (slot, t) →
      t.crane = some k → y.claimCovers e k → (y.crane k).stage = some o →
      (arrivedFits y k o t = true →
        (t.state = .granted → t.kind = .yield ∨ t.kind = .park ∨ ∃ src, t.source = some src ∧ ∀ j, src ≠ .hook j) →
        (arrivedEffect e y k slot o.arg t).claimCovers e k)
      ∧ ∀ p src, liftedFits y k o t = true → t.piece = some p → t.source = some src → (∀ j, src ≠ .hook j) →
        (liftPassed e y k slot t p src).claimCovers e k

/-! ## Encodings (R205, R213, R217, R218) -/

/-- R213, R217, R218: for every well-formed command the frame that carries it passes the transfer tests and is read as that
command with its header, every parameter at every value that its bytes admit; so a WRITE FRAME with it does what the
command's row does. -/
def Obligations.CommandFramesCarryTheirCommands : Prop :=
  (∀ c : Command, c.wellFormed = true →
      (commandParams c).length ≤ 59 ∧ parseCommand (commandCode c) (commandParams c) = some c)
    ∧ ∀ (i : Instr) (hd : Header) (c : Command) (s : State) (frame : List Byte), i.command? = some (hd, c) →
      hd.wellFormed = true → c.wellFormed = true → frame = commandFrame hd (commandCode c) (commandParams c) →
      frameOk frame = true ∧ entryOf frame = entryFor hd c
      ∧ exec (.writeFrame false frame) s = exec i (s.setOut (s.statusByte :: frame.map (fun _ => 0)))

/-! ## Invariants -/

/-- The invariants below hold right after reset and after every power-on and, of the Command Port, after every port reset. -/
def Obligations.ResetMeetsTheInvariants : Prop :=
  State.reset.lawful
    ∧ (∀ (stop : Bool) (s t : State), exec (.powerOn stop) s = .next t → t.lawful)
    ∧ ∀ s t : State, exec .portReset s = .next t → PortInv t

/-- R205, R206, R209: every step keeps the Command Port's invariant: its queues within 8, one SCANNING entry for a busy scan
unit, completed entries in order of completion and left only by a full result queue, and no entry that may start left
waiting. -/
def Obligations.StepsKeepThePort : Prop :=
  ∀ s t : State, step s = .next t → PortInv s → PortInv t

/-- R47, R64, R215: every step keeps the settings in their ranges and every heat record lawful: a transition exactly while
minutes remain, no heat in a transition, PURGE only toward STEAM and SETTLE only toward MAT, no heat while the plant stop is
asserted or the works is CLOSED, swap pending only while RUNNING. R56: every step keeps the last order of every bed equal, in
OPEN, to the order that its records form; OPEN WORKS makes it so (R194). -/
def Obligations.StepsKeepTheHeat : Prop :=
  (∀ s t : State, step s = .next t → HeatInv s → HeatInv t)
    ∧ (∀ s t : State, step s = .next t → s.plant.ordersSent → t.plant.ordersSent)
    ∧ ∀ s : State, s.plant.ordersSent ↔ s.plant.works.phase = .opened →
        ∀ b, b < 12 → (s.plant.heat b).lastOrder = formOrder (s.plant.bed b) (s.plant.heat b)

/-- R26, R67, R94, R98, R113, R155, R156, R168, R174, R191, R219: every step keeps the counters and levels in their ranges,
the home bays in crane order, the dig locks set exactly while the buried count is above 0, and the crane records lawful.
R138: every step keeps the claims of neighbouring cranes apart, and where the middle crane has a claim all claims, in crane
order (log 26), in a state in which each crane's claim holds every bay to which a report on its work can shrink it. Every
step keeps the tickets under way and the cranes' current tickets in agreement (R143, R155), and with them the claims holding
those bays (R143, R151 to R153), as long as no command that may start in it writes a bay. A command that writes a bay keeps
them where no ticket under way names its object; R28, R95, R104 and R107 refuse it while the object is in use. The marks of the
timer events that are still to be taken, none in CLOSED, are the model's own (log 4). -/
def Obligations.StepsKeepTheRanges : Prop :=
  (∀ s t : State, step s = .next t → RangeInv s → RangeInv t)
    ∧ (∀ s t : State, step s = .next t → DigLockInv s → DigLockInv t)
    ∧ (∀ s t : State, step s = .next t → CraneInv s → CraneInv t)
    ∧ (∀ s t : State, step s = .next t → (∀ k, k < 3 → s.plant.yard.claimCovers s.plant.site k) →
        (s.plant.yard.claimsApart → t.plant.yard.claimsApart)
        ∧ (s.plant.yard.claimsOrdered → s.plant.yard.claim 1 ≠ none → t.plant.yard.claimsOrdered))
    ∧ (∀ s t : State, step s = .next t → QueueInv s → s.plant.yard.serves → t.plant.yard.serves)
    ∧ (∀ s t : State, step s = .next t → QueueInv s → s.plant.yard.serves →
        (∀ c, s.mayStart c → ∀ u, ¬writesBayOf u c) → (∀ k, k < 3 → s.plant.yard.claimCovers s.plant.site k) →
        ∀ k, k < 3 → t.plant.yard.claimCovers t.plant.site k)
    ∧ ∀ (i : Instr) (hd : Header) (c : Command) (s t : State), i.command? = some (hd, c) → s.ready → exec i s = .next t →
        QueueInv s → s.plant.yard.serves →
        (∀ slot u, s.plant.yard.ticketAt slot = some u → u.state.served = true → ¬writesBayOf u c) →
        (∀ k, k < 3 → s.plant.yard.claimCovers s.plant.site k) → ∀ k, k < 3 → t.plant.yard.claimCovers t.plant.site k

/-- R1, R4, R6, R13, R113 to R115, R135: every step keeps the move queue and the finished list in agreement with the tickets,
the mark map and the class table in agreement with the pieces, and the generations in their ranges. -/
def Obligations.StepsKeepTheTables : Prop :=
  (∀ s t : State, step s = .next t → QueueInv s → QueueInv t)
    ∧ (∀ s t : State, step s = .next t → PieceInv s → PieceInv t)
    ∧ ∀ s t : State, step s = .next t → GenInv s → GenInv t
end

