-- ==== Sys2Proof/Laws/State.lean ====
section
/-! SUPPORT. One lemma for each field under each update of the plant, the yard and the state. All hold by rfl, so no proof
unfolds a record update. -/

namespace Sys2Proof.Machine

/-! ## Updates of the plant -/

@[simp] theorem Plant.updBed_works (s : Plant) (b : Nat) (f : BedRecord → BedRecord) : (s.updBed b f).works = s.works := rfl
@[simp] theorem Plant.updBed_classes (s : Plant) (b : Nat) (f : BedRecord → BedRecord) : (s.updBed b f).classes = s.classes := rfl
@[simp] theorem Plant.updBed_markMap (s : Plant) (b : Nat) (f : BedRecord → BedRecord) : (s.updBed b f).markMap = s.markMap := rfl
@[simp] theorem Plant.updBed_beds (s : Plant) (b : Nat) (f : BedRecord → BedRecord) : (s.updBed b f).beds = upd s.beds b f := rfl
@[simp] theorem Plant.updBed_cure (s : Plant) (b : Nat) (f : BedRecord → BedRecord) : (s.updBed b f).cure = s.cure := rfl
@[simp] theorem Plant.updBed_bedLines (s : Plant) (b : Nat) (f : BedRecord → BedRecord) : (s.updBed b f).bedLines = s.bedLines := rfl
@[simp] theorem Plant.updBed_intake (s : Plant) (b : Nat) (f : BedRecord → BedRecord) : (s.updBed b f).intake = s.intake := rfl
@[simp] theorem Plant.updBed_yard (s : Plant) (b : Nat) (f : BedRecord → BedRecord) : (s.updBed b f).yard = s.yard := rfl

@[simp] theorem Plant.updHeat_works (s : Plant) (b : Nat) (f : HeatRecord → HeatRecord) : (s.updHeat b f).works = s.works := rfl
@[simp] theorem Plant.updHeat_classes (s : Plant) (b : Nat) (f : HeatRecord → HeatRecord) : (s.updHeat b f).classes = s.classes := rfl
@[simp] theorem Plant.updHeat_markMap (s : Plant) (b : Nat) (f : HeatRecord → HeatRecord) : (s.updHeat b f).markMap = s.markMap := rfl
@[simp] theorem Plant.updHeat_beds (s : Plant) (b : Nat) (f : HeatRecord → HeatRecord) : (s.updHeat b f).beds = s.beds := rfl
@[simp] theorem Plant.updHeat_cure (s : Plant) (b : Nat) (f : HeatRecord → HeatRecord) : (s.updHeat b f).cure = upd s.cure b f := rfl
@[simp] theorem Plant.updHeat_bedLines (s : Plant) (b : Nat) (f : HeatRecord → HeatRecord) : (s.updHeat b f).bedLines = s.bedLines := rfl
@[simp] theorem Plant.updHeat_intake (s : Plant) (b : Nat) (f : HeatRecord → HeatRecord) : (s.updHeat b f).intake = s.intake := rfl
@[simp] theorem Plant.updHeat_yard (s : Plant) (b : Nat) (f : HeatRecord → HeatRecord) : (s.updHeat b f).yard = s.yard := rfl

@[simp] theorem Plant.updIntake_works (s : Plant) (b : Nat) (f : IntakeRecord → IntakeRecord) : (s.updIntake b f).works = s.works := rfl
@[simp] theorem Plant.updIntake_classes (s : Plant) (b : Nat) (f : IntakeRecord → IntakeRecord) : (s.updIntake b f).classes = s.classes := rfl
@[simp] theorem Plant.updIntake_markMap (s : Plant) (b : Nat) (f : IntakeRecord → IntakeRecord) : (s.updIntake b f).markMap = s.markMap := rfl
@[simp] theorem Plant.updIntake_beds (s : Plant) (b : Nat) (f : IntakeRecord → IntakeRecord) : (s.updIntake b f).beds = s.beds := rfl
@[simp] theorem Plant.updIntake_cure (s : Plant) (b : Nat) (f : IntakeRecord → IntakeRecord) : (s.updIntake b f).cure = s.cure := rfl
@[simp] theorem Plant.updIntake_bedLines (s : Plant) (b : Nat) (f : IntakeRecord → IntakeRecord) : (s.updIntake b f).bedLines = s.bedLines := rfl
@[simp] theorem Plant.updIntake_intake (s : Plant) (b : Nat) (f : IntakeRecord → IntakeRecord) : (s.updIntake b f).intake = upd s.intake b f := rfl
@[simp] theorem Plant.updIntake_yard (s : Plant) (b : Nat) (f : IntakeRecord → IntakeRecord) : (s.updIntake b f).yard = s.yard := rfl

@[simp] theorem Plant.updBedLine_works (s : Plant) (b : Nat) (f : BedLine → BedLine) : (s.updBedLine b f).works = s.works := rfl
@[simp] theorem Plant.updBedLine_classes (s : Plant) (b : Nat) (f : BedLine → BedLine) : (s.updBedLine b f).classes = s.classes := rfl
@[simp] theorem Plant.updBedLine_markMap (s : Plant) (b : Nat) (f : BedLine → BedLine) : (s.updBedLine b f).markMap = s.markMap := rfl
@[simp] theorem Plant.updBedLine_beds (s : Plant) (b : Nat) (f : BedLine → BedLine) : (s.updBedLine b f).beds = s.beds := rfl
@[simp] theorem Plant.updBedLine_cure (s : Plant) (b : Nat) (f : BedLine → BedLine) : (s.updBedLine b f).cure = s.cure := rfl
@[simp] theorem Plant.updBedLine_bedLines (s : Plant) (b : Nat) (f : BedLine → BedLine) : (s.updBedLine b f).bedLines = upd s.bedLines b f := rfl
@[simp] theorem Plant.updBedLine_intake (s : Plant) (b : Nat) (f : BedLine → BedLine) : (s.updBedLine b f).intake = s.intake := rfl
@[simp] theorem Plant.updBedLine_yard (s : Plant) (b : Nat) (f : BedLine → BedLine) : (s.updBedLine b f).yard = s.yard := rfl

@[simp] theorem Plant.updClass_works (s : Plant) (b : Nat) (f : ClassEntry → ClassEntry) : (s.updClass b f).works = s.works := rfl
@[simp] theorem Plant.updClass_classes (s : Plant) (b : Nat) (f : ClassEntry → ClassEntry) : (s.updClass b f).classes = upd s.classes b f := rfl
@[simp] theorem Plant.updClass_markMap (s : Plant) (b : Nat) (f : ClassEntry → ClassEntry) : (s.updClass b f).markMap = s.markMap := rfl
@[simp] theorem Plant.updClass_beds (s : Plant) (b : Nat) (f : ClassEntry → ClassEntry) : (s.updClass b f).beds = s.beds := rfl
@[simp] theorem Plant.updClass_cure (s : Plant) (b : Nat) (f : ClassEntry → ClassEntry) : (s.updClass b f).cure = s.cure := rfl
@[simp] theorem Plant.updClass_bedLines (s : Plant) (b : Nat) (f : ClassEntry → ClassEntry) : (s.updClass b f).bedLines = s.bedLines := rfl
@[simp] theorem Plant.updClass_intake (s : Plant) (b : Nat) (f : ClassEntry → ClassEntry) : (s.updClass b f).intake = s.intake := rfl
@[simp] theorem Plant.updClass_yard (s : Plant) (b : Nat) (f : ClassEntry → ClassEntry) : (s.updClass b f).yard = s.yard := rfl

@[simp] theorem Plant.updYard_works (s : Plant) (f : Yard → Yard) : (s.updYard f).works = s.works := rfl
@[simp] theorem Plant.updYard_classes (s : Plant) (f : Yard → Yard) : (s.updYard f).classes = s.classes := rfl
@[simp] theorem Plant.updYard_markMap (s : Plant) (f : Yard → Yard) : (s.updYard f).markMap = s.markMap := rfl
@[simp] theorem Plant.updYard_beds (s : Plant) (f : Yard → Yard) : (s.updYard f).beds = s.beds := rfl
@[simp] theorem Plant.updYard_cure (s : Plant) (f : Yard → Yard) : (s.updYard f).cure = s.cure := rfl
@[simp] theorem Plant.updYard_bedLines (s : Plant) (f : Yard → Yard) : (s.updYard f).bedLines = s.bedLines := rfl
@[simp] theorem Plant.updYard_intake (s : Plant) (f : Yard → Yard) : (s.updYard f).intake = s.intake := rfl
@[simp] theorem Plant.updYard_yard (s : Plant) (f : Yard → Yard) : (s.updYard f).yard = f s.yard := rfl

/-! ## Updates of the yard -/

@[simp] theorem Yard.updStack_pieces (y : Yard) (i : Nat) (f : StackRecord → StackRecord) : (y.updStack i f).pieces = y.pieces := rfl
@[simp] theorem Yard.updStack_stackRecs (y : Yard) (i : Nat) (f : StackRecord → StackRecord) : (y.updStack i f).stackRecs = upd y.stackRecs i f := rfl
@[simp] theorem Yard.updStack_lanes (y : Yard) (i : Nat) (f : StackRecord → StackRecord) : (y.updStack i f).lanes = y.lanes := rfl
@[simp] theorem Yard.updStack_trucks (y : Yard) (i : Nat) (f : StackRecord → StackRecord) : (y.updStack i f).trucks = y.trucks := rfl
@[simp] theorem Yard.updStack_tickets (y : Yard) (i : Nat) (f : StackRecord → StackRecord) : (y.updStack i f).tickets = y.tickets := rfl
@[simp] theorem Yard.updStack_moveQueue (y : Yard) (i : Nat) (f : StackRecord → StackRecord) : (y.updStack i f).moveQueue = y.moveQueue := rfl
@[simp] theorem Yard.updStack_finished (y : Yard) (i : Nat) (f : StackRecord → StackRecord) : (y.updStack i f).finished = y.finished := rfl
@[simp] theorem Yard.updStack_arbiter (y : Yard) (i : Nat) (f : StackRecord → StackRecord) : (y.updStack i f).arbiter = y.arbiter := rfl
@[simp] theorem Yard.updStack_cranes (y : Yard) (i : Nat) (f : StackRecord → StackRecord) : (y.updStack i f).cranes = y.cranes := rfl
@[simp] theorem Yard.updStack_links (y : Yard) (i : Nat) (f : StackRecord → StackRecord) : (y.updStack i f).links = y.links := rfl

@[simp] theorem Yard.updLane_pieces (y : Yard) (i : Nat) (f : LaneRecord → LaneRecord) : (y.updLane i f).pieces = y.pieces := rfl
@[simp] theorem Yard.updLane_stackRecs (y : Yard) (i : Nat) (f : LaneRecord → LaneRecord) : (y.updLane i f).stackRecs = y.stackRecs := rfl
@[simp] theorem Yard.updLane_lanes (y : Yard) (i : Nat) (f : LaneRecord → LaneRecord) : (y.updLane i f).lanes = upd y.lanes i f := rfl
@[simp] theorem Yard.updLane_trucks (y : Yard) (i : Nat) (f : LaneRecord → LaneRecord) : (y.updLane i f).trucks = y.trucks := rfl
@[simp] theorem Yard.updLane_tickets (y : Yard) (i : Nat) (f : LaneRecord → LaneRecord) : (y.updLane i f).tickets = y.tickets := rfl
@[simp] theorem Yard.updLane_moveQueue (y : Yard) (i : Nat) (f : LaneRecord → LaneRecord) : (y.updLane i f).moveQueue = y.moveQueue := rfl
@[simp] theorem Yard.updLane_finished (y : Yard) (i : Nat) (f : LaneRecord → LaneRecord) : (y.updLane i f).finished = y.finished := rfl
@[simp] theorem Yard.updLane_arbiter (y : Yard) (i : Nat) (f : LaneRecord → LaneRecord) : (y.updLane i f).arbiter = y.arbiter := rfl
@[simp] theorem Yard.updLane_cranes (y : Yard) (i : Nat) (f : LaneRecord → LaneRecord) : (y.updLane i f).cranes = y.cranes := rfl
@[simp] theorem Yard.updLane_links (y : Yard) (i : Nat) (f : LaneRecord → LaneRecord) : (y.updLane i f).links = y.links := rfl

@[simp] theorem Yard.updTruck_pieces (y : Yard) (i : Nat) (f : TruckRecord → TruckRecord) : (y.updTruck i f).pieces = y.pieces := rfl
@[simp] theorem Yard.updTruck_stackRecs (y : Yard) (i : Nat) (f : TruckRecord → TruckRecord) : (y.updTruck i f).stackRecs = y.stackRecs := rfl
@[simp] theorem Yard.updTruck_lanes (y : Yard) (i : Nat) (f : TruckRecord → TruckRecord) : (y.updTruck i f).lanes = y.lanes := rfl
@[simp] theorem Yard.updTruck_trucks (y : Yard) (i : Nat) (f : TruckRecord → TruckRecord) : (y.updTruck i f).trucks = upd y.trucks i f := rfl
@[simp] theorem Yard.updTruck_tickets (y : Yard) (i : Nat) (f : TruckRecord → TruckRecord) : (y.updTruck i f).tickets = y.tickets := rfl
@[simp] theorem Yard.updTruck_moveQueue (y : Yard) (i : Nat) (f : TruckRecord → TruckRecord) : (y.updTruck i f).moveQueue = y.moveQueue := rfl
@[simp] theorem Yard.updTruck_finished (y : Yard) (i : Nat) (f : TruckRecord → TruckRecord) : (y.updTruck i f).finished = y.finished := rfl
@[simp] theorem Yard.updTruck_arbiter (y : Yard) (i : Nat) (f : TruckRecord → TruckRecord) : (y.updTruck i f).arbiter = y.arbiter := rfl
@[simp] theorem Yard.updTruck_cranes (y : Yard) (i : Nat) (f : TruckRecord → TruckRecord) : (y.updTruck i f).cranes = y.cranes := rfl
@[simp] theorem Yard.updTruck_links (y : Yard) (i : Nat) (f : TruckRecord → TruckRecord) : (y.updTruck i f).links = y.links := rfl

@[simp] theorem Yard.updCrane_pieces (y : Yard) (i : Nat) (f : CraneRecord → CraneRecord) : (y.updCrane i f).pieces = y.pieces := rfl
@[simp] theorem Yard.updCrane_stackRecs (y : Yard) (i : Nat) (f : CraneRecord → CraneRecord) : (y.updCrane i f).stackRecs = y.stackRecs := rfl
@[simp] theorem Yard.updCrane_lanes (y : Yard) (i : Nat) (f : CraneRecord → CraneRecord) : (y.updCrane i f).lanes = y.lanes := rfl
@[simp] theorem Yard.updCrane_trucks (y : Yard) (i : Nat) (f : CraneRecord → CraneRecord) : (y.updCrane i f).trucks = y.trucks := rfl
@[simp] theorem Yard.updCrane_tickets (y : Yard) (i : Nat) (f : CraneRecord → CraneRecord) : (y.updCrane i f).tickets = y.tickets := rfl
@[simp] theorem Yard.updCrane_moveQueue (y : Yard) (i : Nat) (f : CraneRecord → CraneRecord) : (y.updCrane i f).moveQueue = y.moveQueue := rfl
@[simp] theorem Yard.updCrane_finished (y : Yard) (i : Nat) (f : CraneRecord → CraneRecord) : (y.updCrane i f).finished = y.finished := rfl
@[simp] theorem Yard.updCrane_arbiter (y : Yard) (i : Nat) (f : CraneRecord → CraneRecord) : (y.updCrane i f).arbiter = y.arbiter := rfl
@[simp] theorem Yard.updCrane_cranes (y : Yard) (i : Nat) (f : CraneRecord → CraneRecord) : (y.updCrane i f).cranes = upd y.cranes i f := rfl
@[simp] theorem Yard.updCrane_links (y : Yard) (i : Nat) (f : CraneRecord → CraneRecord) : (y.updCrane i f).links = y.links := rfl

@[simp] theorem Yard.updArb_pieces (y : Yard) (i : Nat) (f : ArbiterRecord → ArbiterRecord) : (y.updArb i f).pieces = y.pieces := rfl
@[simp] theorem Yard.updArb_stackRecs (y : Yard) (i : Nat) (f : ArbiterRecord → ArbiterRecord) : (y.updArb i f).stackRecs = y.stackRecs := rfl
@[simp] theorem Yard.updArb_lanes (y : Yard) (i : Nat) (f : ArbiterRecord → ArbiterRecord) : (y.updArb i f).lanes = y.lanes := rfl
@[simp] theorem Yard.updArb_trucks (y : Yard) (i : Nat) (f : ArbiterRecord → ArbiterRecord) : (y.updArb i f).trucks = y.trucks := rfl
@[simp] theorem Yard.updArb_tickets (y : Yard) (i : Nat) (f : ArbiterRecord → ArbiterRecord) : (y.updArb i f).tickets = y.tickets := rfl
@[simp] theorem Yard.updArb_moveQueue (y : Yard) (i : Nat) (f : ArbiterRecord → ArbiterRecord) : (y.updArb i f).moveQueue = y.moveQueue := rfl
@[simp] theorem Yard.updArb_finished (y : Yard) (i : Nat) (f : ArbiterRecord → ArbiterRecord) : (y.updArb i f).finished = y.finished := rfl
@[simp] theorem Yard.updArb_arbiter (y : Yard) (i : Nat) (f : ArbiterRecord → ArbiterRecord) : (y.updArb i f).arbiter = upd y.arbiter i f := rfl
@[simp] theorem Yard.updArb_cranes (y : Yard) (i : Nat) (f : ArbiterRecord → ArbiterRecord) : (y.updArb i f).cranes = y.cranes := rfl
@[simp] theorem Yard.updArb_links (y : Yard) (i : Nat) (f : ArbiterRecord → ArbiterRecord) : (y.updArb i f).links = y.links := rfl

@[simp] theorem Yard.updLink_pieces (y : Yard) (i : Nat) (f : CraneLine → CraneLine) : (y.updLink i f).pieces = y.pieces := rfl
@[simp] theorem Yard.updLink_stackRecs (y : Yard) (i : Nat) (f : CraneLine → CraneLine) : (y.updLink i f).stackRecs = y.stackRecs := rfl
@[simp] theorem Yard.updLink_lanes (y : Yard) (i : Nat) (f : CraneLine → CraneLine) : (y.updLink i f).lanes = y.lanes := rfl
@[simp] theorem Yard.updLink_trucks (y : Yard) (i : Nat) (f : CraneLine → CraneLine) : (y.updLink i f).trucks = y.trucks := rfl
@[simp] theorem Yard.updLink_tickets (y : Yard) (i : Nat) (f : CraneLine → CraneLine) : (y.updLink i f).tickets = y.tickets := rfl
@[simp] theorem Yard.updLink_moveQueue (y : Yard) (i : Nat) (f : CraneLine → CraneLine) : (y.updLink i f).moveQueue = y.moveQueue := rfl
@[simp] theorem Yard.updLink_finished (y : Yard) (i : Nat) (f : CraneLine → CraneLine) : (y.updLink i f).finished = y.finished := rfl
@[simp] theorem Yard.updLink_arbiter (y : Yard) (i : Nat) (f : CraneLine → CraneLine) : (y.updLink i f).arbiter = y.arbiter := rfl
@[simp] theorem Yard.updLink_cranes (y : Yard) (i : Nat) (f : CraneLine → CraneLine) : (y.updLink i f).cranes = y.cranes := rfl
@[simp] theorem Yard.updLink_links (y : Yard) (i : Nat) (f : CraneLine → CraneLine) : (y.updLink i f).links = upd y.links i f := rfl

@[simp] theorem Yard.setClaim_pieces (y : Yard) (k : Nat) (c : Option Interval) : (y.setClaim k c).pieces = y.pieces := rfl
@[simp] theorem Yard.setClaim_stackRecs (y : Yard) (k : Nat) (c : Option Interval) : (y.setClaim k c).stackRecs = y.stackRecs := rfl
@[simp] theorem Yard.setClaim_lanes (y : Yard) (k : Nat) (c : Option Interval) : (y.setClaim k c).lanes = y.lanes := rfl
@[simp] theorem Yard.setClaim_trucks (y : Yard) (k : Nat) (c : Option Interval) : (y.setClaim k c).trucks = y.trucks := rfl
@[simp] theorem Yard.setClaim_tickets (y : Yard) (k : Nat) (c : Option Interval) : (y.setClaim k c).tickets = y.tickets := rfl
@[simp] theorem Yard.setClaim_moveQueue (y : Yard) (k : Nat) (c : Option Interval) : (y.setClaim k c).moveQueue = y.moveQueue := rfl
@[simp] theorem Yard.setClaim_finished (y : Yard) (k : Nat) (c : Option Interval) : (y.setClaim k c).finished = y.finished := rfl
@[simp] theorem Yard.setClaim_arbiter (y : Yard) (k : Nat) (c : Option Interval) : (y.setClaim k c).arbiter = upd y.arbiter k (fun a => { a with claim := c }) := rfl
@[simp] theorem Yard.setClaim_cranes (y : Yard) (k : Nat) (c : Option Interval) : (y.setClaim k c).cranes = y.cranes := rfl
@[simp] theorem Yard.setClaim_links (y : Yard) (k : Nat) (c : Option Interval) : (y.setClaim k c).links = y.links := rfl

@[simp] theorem Yard.updPiece_pieces (y : Yard) (i : Nat) (f : Piece → Piece) :
    (y.updPiece i f).pieces = upd y.pieces i (fun ps => { ps with piece := ps.piece.map f }) := rfl
@[simp] theorem Yard.updPiece_stackRecs (y : Yard) (i : Nat) (f : Piece → Piece) : (y.updPiece i f).stackRecs = y.stackRecs := rfl
@[simp] theorem Yard.updPiece_lanes (y : Yard) (i : Nat) (f : Piece → Piece) : (y.updPiece i f).lanes = y.lanes := rfl
@[simp] theorem Yard.updPiece_trucks (y : Yard) (i : Nat) (f : Piece → Piece) : (y.updPiece i f).trucks = y.trucks := rfl
@[simp] theorem Yard.updPiece_tickets (y : Yard) (i : Nat) (f : Piece → Piece) : (y.updPiece i f).tickets = y.tickets := rfl
@[simp] theorem Yard.updPiece_moveQueue (y : Yard) (i : Nat) (f : Piece → Piece) : (y.updPiece i f).moveQueue = y.moveQueue := rfl
@[simp] theorem Yard.updPiece_finished (y : Yard) (i : Nat) (f : Piece → Piece) : (y.updPiece i f).finished = y.finished := rfl
@[simp] theorem Yard.updPiece_arbiter (y : Yard) (i : Nat) (f : Piece → Piece) : (y.updPiece i f).arbiter = y.arbiter := rfl
@[simp] theorem Yard.updPiece_cranes (y : Yard) (i : Nat) (f : Piece → Piece) : (y.updPiece i f).cranes = y.cranes := rfl
@[simp] theorem Yard.updPiece_links (y : Yard) (i : Nat) (f : Piece → Piece) : (y.updPiece i f).links = y.links := rfl

@[simp] theorem Yard.updTicket_pieces (y : Yard) (i : Nat) (f : Ticket → Ticket) : (y.updTicket i f).pieces = y.pieces := rfl
@[simp] theorem Yard.updTicket_stackRecs (y : Yard) (i : Nat) (f : Ticket → Ticket) : (y.updTicket i f).stackRecs = y.stackRecs := rfl
@[simp] theorem Yard.updTicket_lanes (y : Yard) (i : Nat) (f : Ticket → Ticket) : (y.updTicket i f).lanes = y.lanes := rfl
@[simp] theorem Yard.updTicket_trucks (y : Yard) (i : Nat) (f : Ticket → Ticket) : (y.updTicket i f).trucks = y.trucks := rfl
@[simp] theorem Yard.updTicket_tickets (y : Yard) (i : Nat) (f : Ticket → Ticket) :
    (y.updTicket i f).tickets = upd y.tickets i (fun ts => { ts with ticket := ts.ticket.map f }) := rfl
@[simp] theorem Yard.updTicket_moveQueue (y : Yard) (i : Nat) (f : Ticket → Ticket) : (y.updTicket i f).moveQueue = y.moveQueue := rfl
@[simp] theorem Yard.updTicket_finished (y : Yard) (i : Nat) (f : Ticket → Ticket) : (y.updTicket i f).finished = y.finished := rfl
@[simp] theorem Yard.updTicket_arbiter (y : Yard) (i : Nat) (f : Ticket → Ticket) : (y.updTicket i f).arbiter = y.arbiter := rfl
@[simp] theorem Yard.updTicket_cranes (y : Yard) (i : Nat) (f : Ticket → Ticket) : (y.updTicket i f).cranes = y.cranes := rfl
@[simp] theorem Yard.updTicket_links (y : Yard) (i : Nat) (f : Ticket → Ticket) : (y.updTicket i f).links = y.links := rfl

@[simp] theorem Yard.putPiece_pieces (y : Yard) (slot : Nat) (p : Piece) :
    (y.putPiece slot p).pieces = upd y.pieces slot (fun ps => { ps with piece := some p }) := rfl
@[simp] theorem Yard.putPiece_stackRecs (y : Yard) (slot : Nat) (p : Piece) : (y.putPiece slot p).stackRecs = y.stackRecs := rfl
@[simp] theorem Yard.putPiece_lanes (y : Yard) (slot : Nat) (p : Piece) : (y.putPiece slot p).lanes = y.lanes := rfl
@[simp] theorem Yard.putPiece_trucks (y : Yard) (slot : Nat) (p : Piece) : (y.putPiece slot p).trucks = y.trucks := rfl
@[simp] theorem Yard.putPiece_tickets (y : Yard) (slot : Nat) (p : Piece) : (y.putPiece slot p).tickets = y.tickets := rfl
@[simp] theorem Yard.putPiece_moveQueue (y : Yard) (slot : Nat) (p : Piece) : (y.putPiece slot p).moveQueue = y.moveQueue := rfl
@[simp] theorem Yard.putPiece_finished (y : Yard) (slot : Nat) (p : Piece) : (y.putPiece slot p).finished = y.finished := rfl
@[simp] theorem Yard.putPiece_arbiter (y : Yard) (slot : Nat) (p : Piece) : (y.putPiece slot p).arbiter = y.arbiter := rfl
@[simp] theorem Yard.putPiece_cranes (y : Yard) (slot : Nat) (p : Piece) : (y.putPiece slot p).cranes = y.cranes := rfl
@[simp] theorem Yard.putPiece_links (y : Yard) (slot : Nat) (p : Piece) : (y.putPiece slot p).links = y.links := rfl

@[simp] theorem Yard.clearPiece_pieces (y : Yard) (slot : Nat) :
    (y.clearPiece slot).pieces = upd y.pieces slot (fun ps => ⟨nextGen slot ps.gen, none⟩) := rfl
@[simp] theorem Yard.clearPiece_stackRecs (y : Yard) (slot : Nat) : (y.clearPiece slot).stackRecs = y.stackRecs := rfl
@[simp] theorem Yard.clearPiece_lanes (y : Yard) (slot : Nat) : (y.clearPiece slot).lanes = y.lanes := rfl
@[simp] theorem Yard.clearPiece_trucks (y : Yard) (slot : Nat) : (y.clearPiece slot).trucks = y.trucks := rfl
@[simp] theorem Yard.clearPiece_tickets (y : Yard) (slot : Nat) : (y.clearPiece slot).tickets = y.tickets := rfl
@[simp] theorem Yard.clearPiece_moveQueue (y : Yard) (slot : Nat) : (y.clearPiece slot).moveQueue = y.moveQueue := rfl
@[simp] theorem Yard.clearPiece_finished (y : Yard) (slot : Nat) : (y.clearPiece slot).finished = y.finished := rfl
@[simp] theorem Yard.clearPiece_arbiter (y : Yard) (slot : Nat) : (y.clearPiece slot).arbiter = y.arbiter := rfl
@[simp] theorem Yard.clearPiece_cranes (y : Yard) (slot : Nat) : (y.clearPiece slot).cranes = y.cranes := rfl
@[simp] theorem Yard.clearPiece_links (y : Yard) (slot : Nat) : (y.clearPiece slot).links = y.links := rfl

@[simp] theorem Yard.placeTicket_pieces (y : Yard) (slot : Nat) (t : Ticket) : (y.placeTicket slot t).pieces = y.pieces := rfl
@[simp] theorem Yard.placeTicket_stackRecs (y : Yard) (slot : Nat) (t : Ticket) : (y.placeTicket slot t).stackRecs = y.stackRecs := rfl
@[simp] theorem Yard.placeTicket_lanes (y : Yard) (slot : Nat) (t : Ticket) : (y.placeTicket slot t).lanes = y.lanes := rfl
@[simp] theorem Yard.placeTicket_trucks (y : Yard) (slot : Nat) (t : Ticket) : (y.placeTicket slot t).trucks = y.trucks := rfl
@[simp] theorem Yard.placeTicket_tickets (y : Yard) (slot : Nat) (t : Ticket) :
    (y.placeTicket slot t).tickets = upd y.tickets slot (fun ts => { ts with ticket := some t }) := rfl
@[simp] theorem Yard.placeTicket_moveQueue (y : Yard) (slot : Nat) (t : Ticket) :
    (y.placeTicket slot t).moveQueue = y.moveQueue ++ [slot] := rfl
@[simp] theorem Yard.placeTicket_finished (y : Yard) (slot : Nat) (t : Ticket) : (y.placeTicket slot t).finished = y.finished := rfl
@[simp] theorem Yard.placeTicket_arbiter (y : Yard) (slot : Nat) (t : Ticket) : (y.placeTicket slot t).arbiter = y.arbiter := rfl
@[simp] theorem Yard.placeTicket_cranes (y : Yard) (slot : Nat) (t : Ticket) : (y.placeTicket slot t).cranes = y.cranes := rfl
@[simp] theorem Yard.placeTicket_links (y : Yard) (slot : Nat) (t : Ticket) : (y.placeTicket slot t).links = y.links := rfl

@[simp] theorem Yard.freeTicket_pieces (y : Yard) (slot : Nat) : (y.freeTicket slot).pieces = y.pieces := rfl
@[simp] theorem Yard.freeTicket_stackRecs (y : Yard) (slot : Nat) : (y.freeTicket slot).stackRecs = y.stackRecs := rfl
@[simp] theorem Yard.freeTicket_lanes (y : Yard) (slot : Nat) : (y.freeTicket slot).lanes = y.lanes := rfl
@[simp] theorem Yard.freeTicket_trucks (y : Yard) (slot : Nat) : (y.freeTicket slot).trucks = y.trucks := rfl
@[simp] theorem Yard.freeTicket_tickets (y : Yard) (slot : Nat) :
    (y.freeTicket slot).tickets = upd y.tickets slot (fun ts => ⟨(ts.gen + 1) % 64, none⟩) := rfl
@[simp] theorem Yard.freeTicket_moveQueue (y : Yard) (slot : Nat) :
    (y.freeTicket slot).moveQueue = y.moveQueue.filter (· ≠ slot) := rfl
@[simp] theorem Yard.freeTicket_finished (y : Yard) (slot : Nat) :
    (y.freeTicket slot).finished = y.finished.filter (· ≠ slot) := rfl
@[simp] theorem Yard.freeTicket_arbiter (y : Yard) (slot : Nat) : (y.freeTicket slot).arbiter = y.arbiter := rfl
@[simp] theorem Yard.freeTicket_cranes (y : Yard) (slot : Nat) : (y.freeTicket slot).cranes = y.cranes := rfl
@[simp] theorem Yard.freeTicket_links (y : Yard) (slot : Nat) : (y.freeTicket slot).links = y.links := rfl

/-! ## Updates of the state -/

@[simp] theorem State.onPlant_plant (s : State) (f : Plant → Plant) : (s.onPlant f).plant = f s.plant := rfl
@[simp] theorem State.onPlant_port (s : State) (f : Plant → Plant) : (s.onPlant f).port = s.port := rfl
@[simp] theorem State.onPlant_freeCount (s : State) (f : Plant → Plant) : (s.onPlant f).freeCount = s.freeCount := rfl
@[simp] theorem State.onPlant_pending (s : State) (f : Plant → Plant) : (s.onPlant f).pending = s.pending := rfl

@[simp] theorem State.setOut_plant (s : State) (out : List Byte) : (s.setOut out).plant = s.plant := rfl
@[simp] theorem State.setOut_port (s : State) (out : List Byte) : (s.setOut out).port = { s.port with lastOut := out } := rfl
@[simp] theorem State.setOut_freeCount (s : State) (out : List Byte) : (s.setOut out).freeCount = s.freeCount := rfl
@[simp] theorem State.setOut_pending (s : State) (out : List Byte) : (s.setOut out).pending = s.pending := rfl

@[simp] theorem State.latchFrameError_plant (s : State) : (s.latchFrameError).plant = s.plant := rfl
@[simp] theorem State.latchFrameError_port (s : State) : (s.latchFrameError).port = { s.port with frameError := true } := rfl
@[simp] theorem State.latchFrameError_freeCount (s : State) : (s.latchFrameError).freeCount = s.freeCount := rfl
@[simp] theorem State.latchFrameError_pending (s : State) : (s.latchFrameError).pending = s.pending := rfl

/-- A timer row either takes the event of its record or does nothing. -/
theorem State.timerRow_cases (s : State) (fires : Bool) (f : Plant → Plant) :
    s.timerRow fires f = s.onPlant f ∧ fires = true ∨ s.timerRow fires f = s ∧ fires = false := by
  cases fires
  · exact Or.inr ⟨rfl, rfl⟩
  · exact Or.inl ⟨rfl, rfl⟩

/-- A due timer event taken: nothing where none is due, else one of those due. -/
theorem takeDue_cases (s : State) :
    s.events = [] ∧ takeDue s = s
      ∨ ∃ e ∈ s.events, takeDue s
          = { s with plant := takeEvent s.plant e, freeCount := s.freeCount + 1 } := by
  unfold takeDue
  split
  · exact Or.inr ⟨_, List.mem_of_getElem? ‹_›, rfl⟩
  · rename_i h
    refine Or.inl ⟨?_, rfl⟩
    rw [List.getElem?_eq_none_iff] at h
    cases hd : s.events with
    | nil => rfl
    | cons e es =>
      rw [hd] at h
      have := Nat.mod_lt (Config.dueTurn s.freeCount) (show 0 < (e :: es).length by simp)
      omega

/-! ## The site of a plant -/

@[simp] theorem Plant.site_stop (s : Plant) : s.site.stop = s.works.stop := rfl
@[simp] theorem Plant.site_settings (s : Plant) : s.site.settings = s.works.settings := rfl
@[simp] theorem Plant.site_beds (s : Plant) : s.site.beds = s.beds := rfl
@[simp] theorem Plant.site_classes (s : Plant) : s.site.classes = s.classes := rfl

/-- Where one timer event is due, that one is taken. -/
theorem takeDue_single (s : State) (e : TimerEvent) (h : s.events = [e]) :
    takeDue s = { s with plant := takeEvent s.plant e, freeCount := s.freeCount + 1 } := by
  rcases takeDue_cases s with ⟨h0, _⟩ | ⟨e', he, hs⟩
  · rw [h] at h0; cases h0
  · rw [h, List.mem_singleton] at he
    subst he
    exact hs

/-- R48, R192: the timer event of a heat record is among those still to be taken exactly while the record says so. -/
theorem heat_mem_dueEvents (s : Plant) (b : Nat) : .heat b ∈ dueEvents s ↔ b < 12 ∧ (s.heat b).due = true := by
  simp [dueEvents]

/-- R78, R192: the timer event of an intake record is among those still to be taken exactly while the record says so. -/
theorem intake_mem_dueEvents (s : Plant) (b : Nat) : .intake b ∈ dueEvents s ↔ b < 12 ∧ (s.intakeOf b).due = true := by
  simp [dueEvents]

/-- R162, R192: a crane's timer event is among those still to be taken exactly while its timer runs with its event due. -/
theorem crane_mem_dueEvents (s : Plant) (k : Nat) : .crane k ∈ dueEvents s ↔ k < 3 ∧ timerWaits s.yard k = true := by
  simp only [dueEvents, List.mem_append, List.mem_map, List.mem_filter, List.mem_range, List.mem_cons, List.not_mem_nil,
    reduceCtorEq, and_false, exists_false, TimerEvent.crane.injEq, exists_eq_right, false_or, or_false]
  exact and_congr_left (fun _ => by omega)

/-- R48: a transition that begins leaves its record without a timer event to be taken in this minute. -/
theorem HeatRecord.begin_due (h : HeatRecord) (purge : Nat) (hr : h.requested ≠ .off) : (h.begin purge).due = false := by
  unfold HeatRecord.begin
  split <;> simp_all

/-- A timer event that is not still to be taken does nothing. -/
theorem takeEvent_of_not_due (s : Plant) (e : TimerEvent)
    (h : match e with
      | .heat b => (s.heat b).due = false
      | .intake b => (s.intakeOf b).due = false
      | .crane k => timerWaits s.yard k = false) : takeEvent s e = s := by
  cases e <;> simp_all [takeEvent, timerTick]

/-- R162: what the timer event of a crane's report timer does: nothing where it is not due, the expiry at 0, else one minute
less. -/
theorem timerTick_cases (s : Plant) (k : Nat) :
    timerTick s k = s ∧ timerWaits s.yard k = false
      ∨ timerTick s k = craneExpires s k ∧ timerWaits s.yard k = true ∧ timerDue s k = true
      ∨ timerTick s k = s.updYard (fun y => countMinute y k) ∧ timerWaits s.yard k = true ∧ timerDue s k = false := by
  unfold timerTick
  cases timerWaits s.yard k <;> cases timerDue s k <;> simp

/-- What every taking of one due event keeps, the taking of several keeps. -/
theorem takeDues_keeps {P : State → Prop} (step : ∀ s, P s → P (takeDue s)) : ∀ n s, P s → P (takeDues n s)
  | 0, _, h => h
  | n + 1, s, h => takeDues_keeps step n (takeDue s) (step s h)

end Sys2Proof.Machine
end

