-- ==== Sys2Proof/Laws/Port.lean ====
section
/-! SUPPORT. The Command Port: what posting and starting do, and a command given to a ready port, said once. -/

namespace Sys2Proof.Machine

/-- With no completed entry nothing is posted. -/
theorem postOne_of_none (p : Port) (h : p.commandQueue.findSome? Entry.oldest = none) : postOne p = p := by
  unfold postOne
  split
  · simp [h]
  · rfl

/-- With no completed entry nothing is posted, however often the port looks. -/
theorem postAll_of_none (n : Nat) (p : Port) (h : p.commandQueue.findSome? Entry.oldest = none) : postAll n p = p := by
  induction n with
  | zero => rfl
  | succ n ih => rw [postAll, postOne_of_none p h, ih]

/-- A single completed entry is posted when there is room. -/
theorem postAll_single (n : Nat) (p : Port) (e : Entry) (frame : List Byte) (hq : p.commandQueue = [e])
    (he : e.state = .completed 0 frame) (hr : p.resultQueue.length < 8) :
    postAll (n + 1) p = { p with commandQueue := [], resultQueue := p.resultQueue ++ [frame] } := by
  have ho : e.oldest = some frame := by simp [Entry.oldest, he]
  have h1 : postOne p = { p with commandQueue := [], resultQueue := p.resultQueue ++ [frame] } := by
    simp [postOne, hr, hq, ho]
  rw [postAll, h1, postAll_of_none _ _ (by simp)]

/-- The port with an empty queue has nothing to do. -/
theorem settlePort_empty (n : Nat) (s : State) (h : s.port.commandQueue = []) : settlePort n s = s := by
  cases n with
  | zero => rfl
  | succ n =>
    have hp : postAll 8 s.port = s.port := postAll_of_none _ _ (by simp [h])
    simp [settlePort, hp, h, findStart]

/-- A single entry that completes at its start posts its result at once. -/
theorem settlePort_completes (n : Nat) (s s1 : State) (e : Entry) (frame : List Byte)
    (hq : s.port.commandQueue = [e]) (hw : e.state = .waiting)
    (hf : ¬(e.code = findCode ∧ s.port.scan.isSome = true))
    (hs : startEntry s 0 = s1) (hc : s1.port.commandQueue = [{ e with state := .completed 0 frame }])
    (hr : s1.port.resultQueue.length < 8) :
    settlePort (n + 2) s =
      { s1 with port := { s1.port with commandQueue := [], resultQueue := s1.port.resultQueue ++ [frame] } } := by
  have hp : postAll 8 s.port = s.port := postAll_of_none _ _ (by simp [hq, Entry.oldest, hw])
  have hst : findStart s.port.scan.isSome 0 s.port.commandQueue = some 0 := by
    simp [hq, findStart, hw]
    simpa using hf
  have h1 : settlePort (n + 2) s = settlePort (n + 1) s1 := by
    rw [settlePort]
    simp only [hp]
    rw [show findStart s.port.scan.isSome 0 s.port.commandQueue = some 0 from hst]
    exact congrArg (settlePort (n + 1)) hs
  have h2 : postAll 8 s1.port =
      { s1.port with commandQueue := [], resultQueue := s1.port.resultQueue ++ [frame] } :=
    postAll_single 7 _ _ frame hc rfl hr
  rw [h1, settlePort]
  simp only [h2]
  simp [findStart]

/-- A single entry delivered to a ready port: the port starts it and posts what it completes with. -/
theorem deliver_ready (e : Entry) (s s1 : State) (frame : List Byte) (h : s.ready) (hw : e.state = .waiting)
    (hf : ¬(e.code = findCode ∧ s.port.scan.isSome = true))
    (hs : startEntry { s with port := { s.port with commandQueue := [e] } } 0 = s1)
    (hc : s1.port.commandQueue = [{ e with state := .completed 0 frame }])
    (hr : s1.port.resultQueue.length < 8) :
    deliver e s =
      { s1 with port := { s1.port with commandQueue := [], resultQueue := s1.port.resultQueue ++ [frame] } } := by
  have hq := h.1
  unfold deliver
  simp only [hq, List.length_nil, List.nil_append]
  rw [if_neg (by omega)]
  exact settlePort_completes 7 _ s1 e frame rfl hw hf hs hc hr

/-- The code of a command other than FIND is not FIND's. -/
theorem commandCode_ne_find (c : Command) (h : ∀ p, c ≠ .find p) : commandCode c ≠ findCode := by
  cases c <;> simp_all [commandCode, findCode]

/-- A started command other than FIND is run whole and its entry completed. -/
theorem startEntry_command (s : State) (i : Nat) (e : Entry) (c : Command) (hi : s.port.commandQueue[i]? = some e)
    (hc : e.cmd = some c) (h : ∀ p, c ≠ .find p) :
    startEntry s i =
      { s with plant := (runCommand c s.plant).2, port := complete s.port i (runCommand c s.plant).1 } := by
  unfold startEntry
  simp only [hi, hc]

/-- R206, R208, R209: a command other than FIND given to a ready port runs at once, and its result stands at the back of
the result queue; nothing else of the port has changed. -/
theorem give_ready (hd : Header) (c : Command) (s : State) (h : s.ready) (hc : ∀ p, c ≠ .find p) :
    give hd c s = s.answered hd c (runCommand c s.plant).1 (runCommand c s.plant).2 := by
  have hstart := startEntry_command { s with port := { s.port with commandQueue := [entryFor hd c] } } 0 (entryFor hd c) c
    rfl rfl hc
  unfold give
  rw [deliver_ready (entryFor hd c) s _ (resultFrame hd.tag (commandCode c) (runCommand c s.plant).1) h rfl
    (fun hf => commandCode_ne_find c hc hf.1) hstart rfl h.2]
  have hq := h.1
  simp only [State.answered, complete]
  rw [← hq]

/-- R207: an INVALID command given to a ready port is answered INVALID, and nothing else has changed. -/
theorem deliver_invalid_ready (e : Entry) (s : State) (h : s.ready) (hw : e.state = .waiting) (hc : e.cmd = none)
    (hf : ¬(e.code = findCode ∧ s.port.scan.isSome = true)) :
    deliver e s =
      { s with port := { s.port with resultQueue := s.port.resultQueue ++ [resultFrame e.tag e.code ⟨.invalid, []⟩] } } := by
  have hstart : startEntry { s with port := { s.port with commandQueue := [e] } } 0 =
      { s with port := complete { s.port with commandQueue := [e] } 0 ⟨.invalid, []⟩ } := by
    unfold startEntry
    simp [hc]
  rw [deliver_ready e s _ (resultFrame e.tag e.code ⟨.invalid, []⟩) h hw hf hstart (by simp [complete, completedCount, hw]) h.2]
  have hq := h.1
  simp only [complete]
  rw [← hq]

/-! ## The port run to its end: how often it looks does not matter -/

/-- Where one look posts nothing, no number of looks does. -/
theorem postAll_of_fixed {p : Port} (h : postOne p = p) : ∀ n, postAll n p = p
  | 0 => rfl
  | n + 1 => by rw [postAll, h, postAll_of_fixed h n]

/-- A posting takes at least one entry out of the command queue. -/
theorem postOne_cases (p : Port) :
    postOne p = p ∨ (postOne p).commandQueue.length < p.commandQueue.length := by
  unfold postOne
  split
  · split
    · rename_i frame hf
      refine Or.inr ?_
      obtain ⟨e, he, ho⟩ := List.exists_of_findSome?_eq_some hf
      simp only [List.length_map]
      refine List.length_filter_lt_length_iff_exists.2 ⟨e, he, ?_⟩
      simp [ho]
    · exact Or.inl rfl
  · exact Or.inl rfl

/-- R209: as many looks as the queue has entries post all that can be posted. -/
theorem postAll_succ : ∀ (n : Nat) (p : Port), p.commandQueue.length ≤ n → postAll (n + 1) p = postAll n p
  | 0, p, h => by
    have hq : p.commandQueue = [] := List.eq_nil_of_length_eq_zero (Nat.le_zero.1 h)
    exact postAll_of_fixed (postOne_of_none p (by simp [hq])) 1
  | n + 1, p, h => by
    rcases postOne_cases p with hp | hp
    · rw [postAll_of_fixed hp, postAll_of_fixed hp]
    · rw [postAll, postAll_succ n (postOne p) (by omega)]
      rfl

/-- The entries that wait to start. -/
def waitingCount (q : List Entry) : Nat := q.countP (fun e => decide (e.state = .waiting))

/-- An entry waits after an older one has posted exactly if it waited before. -/
theorem Entry.advance_waiting (e : Entry) : e.advance.state = .waiting ↔ e.state = .waiting := by
  unfold Entry.advance
  split <;> simp_all

/-- A posting starts nothing and posts nothing that waits. -/
theorem postOne_waiting (p : Port) : waitingCount (postOne p).commandQueue = waitingCount p.commandQueue := by
  unfold postOne
  split
  · split
    · simp only [waitingCount, List.countP_map, List.countP_filter]
      refine List.countP_congr (fun e _ => ?_)
      simp only [Function.comp, Entry.advance_waiting, Bool.and_eq_true, decide_eq_true_eq, and_iff_left_iff_imp]
      intro hw
      simp [Entry.oldest, hw]
    · rfl
  · rfl

/-- Postings start nothing and post nothing that waits. -/
theorem postAll_waiting : ∀ (n : Nat) (p : Port), waitingCount (postAll n p).commandQueue = waitingCount p.commandQueue
  | 0, _ => rfl
  | n + 1, p => (postAll_waiting n (postOne p)).trans (postOne_waiting p)

/-- R206: the entry that starts stands in the queue and waits. -/
theorem findStart_waiting (busy : Bool) : ∀ (q : List Entry) (n i : Nat), findStart busy n q = some i →
    n ≤ i ∧ ∃ e, q[i - n]? = some e ∧ e.state = .waiting
  | [], _, _, h => by simp [findStart] at h
  | e :: es, n, i, h => by
    have behind : findStart busy (n + 1) es = some i → n ≤ i ∧ ∃ f, (e :: es)[i - n]? = some f ∧ f.state = .waiting :=
      fun hb => by
        obtain ⟨hn, f, hf, hw⟩ := findStart_waiting busy es (n + 1) i hb
        refine ⟨by omega, f, ?_, hw⟩
        rw [show i - n = (i - (n + 1)) + 1 by omega]
        simpa using hf
    unfold findStart at h
    split at h
    · exact behind h
    · rename_i hw
      split at h
      · cases h
      · split at h
        · exact behind h
        · obtain rfl := Option.some.inj h
          exact ⟨Nat.le_refl _, e, by simp, by simpa using hw⟩

/-- A waiting entry that leaves that state leaves one fewer. -/
theorem waitingCount_modify (f : Entry → Entry) (hf : ∀ e, (f e).state ≠ .waiting) : ∀ (q : List Entry) (i : Nat) (e : Entry),
    q[i]? = some e → e.state = .waiting → waitingCount (q.modify i f) < waitingCount q
  | [], _, _, h, _ => by simp at h
  | a :: q, 0, e, h, hw => by
    obtain rfl : a = e := by simpa using h
    simp [waitingCount, hw, hf]
  | a :: q, i + 1, e, h, hw => by
    have := waitingCount_modify f hf q i e (by simpa using h) hw
    simp only [waitingCount, List.modify_succ_cons, List.countP_cons] at this ⊢
    omega

/-- R206: a start leaves one entry fewer that waits. -/
theorem startEntry_waiting (s : State) (i : Nat) (e : Entry) (hi : s.port.commandQueue[i]? = some e)
    (hw : e.state = .waiting) :
    waitingCount (startEntry s i).port.commandQueue < waitingCount s.port.commandQueue := by
  have done : ∀ (p : Port) (r : Reply), p.commandQueue = s.port.commandQueue →
      waitingCount (complete p i r).commandQueue < waitingCount s.port.commandQueue := fun p r hp => by
    simp only [complete, hp]
    exact waitingCount_modify _ (fun _ => by simp) _ _ e hi hw
  unfold startEntry
  simp only [hi]
  split
  · exact done _ _ rfl
  · unfold startFind
    split
    · exact waitingCount_modify _ (fun _ => by simp) _ _ e hi hw
    · exact done _ _ rfl
  · exact done _ _ rfl

/-- R206, R209: one look after which an entry starts. -/
theorem settlePort_starts (n : Nat) (s : State) (p : Port) (i : Nat) (hp : postAll 8 s.port = p)
    (hi : findStart p.scan.isSome 0 p.commandQueue = some i) :
    settlePort (n + 1) s = settlePort n (startEntry { s with port := p } i) := by
  subst hp
  rw [settlePort]
  simp only [hi]

/-- R206, R209: one look after which no entry starts. -/
theorem settlePort_rests (n : Nat) (s : State) (p : Port) (hp : postAll 8 s.port = p)
    (hi : findStart p.scan.isSome 0 p.commandQueue = none) : settlePort (n + 1) s = { s with port := p } := by
  subst hp
  rw [settlePort]
  simp only [hi]

/-- R206, R209: with more looks than entries that wait, one look more changes nothing. -/
theorem settlePort_succ : ∀ (n : Nat) (s : State), waitingCount s.port.commandQueue < n → settlePort (n + 1) s = settlePort n s
  | 0, _, h => absurd h (Nat.not_lt_zero _)
  | n + 1, s, h => by
    have hc := postAll_waiting 8 s.port
    generalize hp : postAll 8 s.port = p at hc
    cases hi : findStart p.scan.isSome 0 p.commandQueue with
    | none => rw [settlePort_rests _ s p hp hi, settlePort_rests _ s p hp hi]
    | some i =>
      obtain ⟨_, e, he, hw⟩ := findStart_waiting _ _ _ _ hi
      have hs := startEntry_waiting { s with port := p } i e (by simpa using he) hw
      rw [settlePort_starts _ s p i hp hi, settlePort_starts _ s p i hp hi]
      refine settlePort_succ n _ (Nat.lt_of_lt_of_le hs ?_)
      show waitingCount p.commandQueue ≤ n
      omega

/-- R206: where nothing posts, the port starts the entry that may start, and runs on. -/
theorem runPort_starts (s : State) (i : Nat) (hq : s.port.commandQueue.length ≤ 8) (hp : postOne s.port = s.port)
    (hi : findStart s.port.scan.isSome 0 s.port.commandQueue = some i) : s.runPort = (startEntry s i).runPort := by
  obtain ⟨_, e, he, hw⟩ := findStart_waiting _ _ _ _ hi
  have h1 := startEntry_waiting s i e (by simpa using he) hw
  have h2 : waitingCount s.port.commandQueue ≤ s.port.commandQueue.length := List.countP_le_length
  have h3 := settlePort_succ 8 (startEntry s i) (by omega)
  exact (settlePort_starts 8 s s.port i (postAll_of_fixed hp 8) hi).trans h3.symm

/-- R206, R209: where nothing posts and nothing may start, the port rests. -/
theorem runPort_rests (s : State) (hp : postOne s.port = s.port)
    (hi : findStart s.port.scan.isSome 0 s.port.commandQueue = none) : s.runPort = s :=
  settlePort_rests 8 s s.port (postAll_of_fixed hp 8) hi

/-- R209: one posting, and the port runs on. -/
theorem runPort_posts (s : State) (hq : s.port.commandQueue.length ≤ 8) :
    s.runPort = State.runPort { s with port := postOne s.port } := by
  have h : postAll 8 (postOne s.port) = postAll 8 s.port := postAll_succ 8 s.port hq
  show settlePort 9 s = settlePort 9 { s with port := postOne s.port }
  generalize hp : postAll 8 s.port = p at h
  cases hi : findStart p.scan.isSome 0 p.commandQueue with
  | none => rw [settlePort_rests 8 s p hp hi, settlePort_rests 8 { s with port := postOne s.port } p h hi]
  | some i => rw [settlePort_starts 8 s p i hp hi, settlePort_starts 8 { s with port := postOne s.port } p i h hi]

end Sys2Proof.Machine
end

