-- ==== Sys2Proof/Laws/Commands.lean ====
section
/-! SUPPORT. A command row at a ready port: it is refused or accepted as the block that owns its matter answers. -/

namespace Sys2Proof.Machine

/-- A command row gives its command to the Command Port. -/
theorem exec_command (i : Instr) (hd : Header) (c : Command) (s : State) (h : i.command? = some (hd, c)) :
    exec i s = .next (give hd c s) := by
  cases i <;> first | (cases h; rfl) | (cases h)

/-- At a ready port the row is refused as its block refuses. -/
theorem refuses_of_run {i : Instr} {hd : Header} {c : Command} {s : State} {code : Code} {fields : List Byte}
    (h : i.command? = some (hd, c)) (hs : s.ready) (hc : ∀ p, c ≠ .find p)
    (hr : runCommand c s.plant = (⟨code, fields⟩, s.plant)) : refuses i s code fields := by
  refine ⟨hd, c, h, ?_⟩
  rw [exec_command i hd c s h, give_ready hd c s hs hc, hr]
  rfl

/-- At a ready port the row answers as its block answers. -/
theorem exec_of_run {i : Instr} {hd : Header} {c : Command} {s : State} {r : Reply} {p : Plant}
    (h : i.command? = some (hd, c)) (hs : s.ready) (hc : ∀ q, c ≠ .find q)
    (hr : runCommand c s.plant = (r, p)) : exec i s = .next (s.answered hd c r p) := by
  rw [exec_command i hd c s h, give_ready hd c s hs hc, hr]

end Sys2Proof.Machine
end

