-- ==== Sys2Proof/Laws/Records.lean ====
section
/-! SUPPORT. Reading a record after one record of a vector has changed, first for any vector and then under the names of the
plant's and the yard's records. -/

namespace Sys2Proof.Machine

section
variable {α β : Type} {n : Nat}

/-- A record in range is the vector's own. -/
theorem getOr_lt (v : Vector α n) (i : Nat) (d : α) (h : i < n) : getOr v i d = v[i] := by
  simp [getOr, Vector.getElem?_eq_getElem h]

/-- A number out of range reads as the default. -/
theorem getOr_ge (v : Vector α n) (i : Nat) (d : α) (h : n ≤ i) : getOr v i d = d := by
  simp [getOr, Vector.getElem?_eq_none h]

/-- The changed record. -/
theorem getOr_upd_same (v : Vector α n) (i : Nat) (f : α → α) (d : α) (h : i < n) :
    getOr (upd v i f) i d = f (getOr v i d) := by
  simp [getOr, upd, h]

/-- Another record. -/
theorem getOr_upd_ne (v : Vector α n) (i j : Nat) (f : α → α) (d : α) (h : i ≠ j) :
    getOr (upd v i f) j d = getOr v j d := by
  unfold upd
  split
  · next hi =>
    by_cases hj : j < n
    · rw [getOr_lt _ _ _ hj, getOr_lt _ _ _ hj, Vector.getElem_set_ne hi hj h]
    · rw [getOr_ge _ _ _ (by omega), getOr_ge _ _ _ (by omega)]
  · rfl

/-- A change of a record that is not there. -/
theorem upd_ge (v : Vector α n) (i : Nat) (f : α → α) (h : n ≤ i) : upd v i f = v := by
  simp [upd, Nat.not_lt.mpr h]

/-- A record after a change, by whether it is the changed one. -/
theorem getOr_upd (v : Vector α n) (i j : Nat) (f : α → α) (d : α) (h : i < n) :
    getOr (upd v i f) j d = if i = j then f (getOr v j d) else getOr v j d := by
  by_cases hij : i = j
  · subst hij; simp [getOr_upd_same v i f d h]
  · simp [hij, getOr_upd_ne v i j f d hij]

/-- A change that a projection of the record does not see leaves the projected vector as it is. -/
theorem map_upd_of_comp (g : α → β) (v : Vector α n) (i : Nat) (f : α → α) (h : ∀ a, g (f a) = g a) :
    (upd v i f).map g = v.map g := by
  unfold upd
  split
  · next hi =>
    ext j hj
    by_cases hij : i = j
    · subst hij; simp [h]
    · simp [hij]
  · rfl

/-- A change followed by a projection is a change of the projected vector. -/
theorem map_upd (g : α → β) (v : Vector α n) (i : Nat) (f : α → α) (f' : β → β) (h : ∀ a, g (f a) = f' (g a)) :
    (upd v i f).map g = upd (v.map g) i f' := by
  unfold upd
  split
  · next hi =>
    ext j hj
    by_cases hij : i = j
    · subst hij; simp [h]
    · simp [hij]
  · rfl

/-- A change that gives back each record it is given changes nothing. -/
theorem upd_id (v : Vector α n) (i : Nat) (f : α → α) (h : ∀ a, f a = a) : upd v i f = v := by
  have := map_upd_of_comp (fun a => a) v i f h
  simpa using this

end

/-! ## Reading a record of the plant after its change -/

theorem Plant.bed_updBed_same (s : Plant) (b : Nat) (f : BedRecord → BedRecord) (h : b < 12) :
    (s.updBed b f).bed b = f (s.bed b) := getOr_upd_same _ _ _ _ h
theorem Plant.bed_updBed_ne (s : Plant) (b i : Nat) (f : BedRecord → BedRecord) (h : b ≠ i) :
    (s.updBed b f).bed i = s.bed i := getOr_upd_ne _ _ _ _ _ h
theorem Plant.heat_updHeat_same (s : Plant) (b : Nat) (f : HeatRecord → HeatRecord) (h : b < 12) :
    (s.updHeat b f).heat b = f (s.heat b) := getOr_upd_same _ _ _ _ h
theorem Plant.heat_updHeat_ne (s : Plant) (b i : Nat) (f : HeatRecord → HeatRecord) (h : b ≠ i) :
    (s.updHeat b f).heat i = s.heat i := getOr_upd_ne _ _ _ _ _ h
theorem Plant.intakeOf_updIntake_same (s : Plant) (b : Nat) (f : IntakeRecord → IntakeRecord) (h : b < 12) :
    (s.updIntake b f).intakeOf b = f (s.intakeOf b) := getOr_upd_same _ _ _ _ h
theorem Plant.intakeOf_updIntake_ne (s : Plant) (b i : Nat) (f : IntakeRecord → IntakeRecord) (h : b ≠ i) :
    (s.updIntake b f).intakeOf i = s.intakeOf i := getOr_upd_ne _ _ _ _ _ h
theorem Plant.bedLine_updBedLine_same (s : Plant) (b : Nat) (f : BedLine → BedLine) (h : b < 12) :
    (s.updBedLine b f).bedLine b = f (s.bedLine b) := getOr_upd_same _ _ _ _ h
theorem Plant.bedLine_updBedLine_ne (s : Plant) (b i : Nat) (f : BedLine → BedLine) (h : b ≠ i) :
    (s.updBedLine b f).bedLine i = s.bedLine i := getOr_upd_ne _ _ _ _ _ h
theorem Plant.cls_updClass_same (s : Plant) (c : Nat) (f : ClassEntry → ClassEntry) (h : c < 32) :
    (s.updClass c f).cls c = f (s.cls c) := getOr_upd_same _ _ _ _ h
theorem Plant.cls_updClass_ne (s : Plant) (c i : Nat) (f : ClassEntry → ClassEntry) (h : c ≠ i) :
    (s.updClass c f).cls i = s.cls i := getOr_upd_ne _ _ _ _ _ h

/-! ## Reading a record of the yard after its change -/

theorem Yard.stack_updStack_same (y : Yard) (i : Nat) (f : StackRecord → StackRecord) (h : i < 40) :
    (y.updStack i f).stack i = f (y.stack i) := getOr_upd_same _ _ _ _ h
theorem Yard.stack_updStack_ne (y : Yard) (i j : Nat) (f : StackRecord → StackRecord) (h : i ≠ j) :
    (y.updStack i f).stack j = y.stack j := getOr_upd_ne _ _ _ _ _ h
theorem Yard.lane_updLane_same (y : Yard) (i : Nat) (f : LaneRecord → LaneRecord) (h : i < 2) :
    (y.updLane i f).lane i = f (y.lane i) := getOr_upd_same _ _ _ _ h
theorem Yard.lane_updLane_ne (y : Yard) (i j : Nat) (f : LaneRecord → LaneRecord) (h : i ≠ j) :
    (y.updLane i f).lane j = y.lane j := getOr_upd_ne _ _ _ _ _ h
theorem Yard.truck_updTruck_same (y : Yard) (i : Nat) (f : TruckRecord → TruckRecord) (h : i < 4) :
    (y.updTruck i f).truck i = f (y.truck i) := getOr_upd_same _ _ _ _ h
theorem Yard.truck_updTruck_ne (y : Yard) (i j : Nat) (f : TruckRecord → TruckRecord) (h : i ≠ j) :
    (y.updTruck i f).truck j = y.truck j := getOr_upd_ne _ _ _ _ _ h
theorem Yard.crane_updCrane_same (y : Yard) (k : Nat) (f : CraneRecord → CraneRecord) (h : k < 3) :
    (y.updCrane k f).crane k = f (y.crane k) := getOr_upd_same _ _ _ _ h
theorem Yard.crane_updCrane_ne (y : Yard) (k j : Nat) (f : CraneRecord → CraneRecord) (h : k ≠ j) :
    (y.updCrane k f).crane j = y.crane j := getOr_upd_ne _ _ _ _ _ h
theorem Yard.arb_updArb_same (y : Yard) (k : Nat) (f : ArbiterRecord → ArbiterRecord) (h : k < 3) :
    (y.updArb k f).arb k = f (y.arb k) := getOr_upd_same _ _ _ _ h
theorem Yard.arb_updArb_ne (y : Yard) (k j : Nat) (f : ArbiterRecord → ArbiterRecord) (h : k ≠ j) :
    (y.updArb k f).arb j = y.arb j := getOr_upd_ne _ _ _ _ _ h
theorem Yard.link_updLink_same (y : Yard) (k : Nat) (f : CraneLine → CraneLine) (h : k < 3) :
    (y.updLink k f).link k = f (y.link k) := getOr_upd_same _ _ _ _ h
theorem Yard.link_updLink_ne (y : Yard) (k j : Nat) (f : CraneLine → CraneLine) (h : k ≠ j) :
    (y.updLink k f).link j = y.link j := getOr_upd_ne _ _ _ _ _ h

/-- The claim written is the claim read. -/
theorem Yard.claim_setClaim_same (y : Yard) (k : Nat) (c : Option Interval) (h : k < 3) :
    (y.setClaim k c).claim k = c := by
  unfold Yard.claim Yard.setClaim
  rw [Yard.arb_updArb_same _ _ _ h]

/-- Another crane's claim is as it was. -/
theorem Yard.claim_setClaim_ne (y : Yard) (k j : Nat) (c : Option Interval) (h : k ≠ j) :
    (y.setClaim k c).claim j = y.claim j := by
  unfold Yard.claim Yard.setClaim
  rw [Yard.arb_updArb_ne _ _ _ _ h]

/-- The ticket of a changed slot. -/
theorem Yard.ticketAt_updTicket_same (y : Yard) (i : Nat) (f : Ticket → Ticket) (h : i < 24) :
    (y.updTicket i f).ticketAt i = (y.ticketAt i).map f := by
  unfold Yard.ticketAt Yard.ticketSlot
  rw [Yard.updTicket_tickets, getOr_upd_same _ _ _ _ h]

/-- The ticket of another slot. -/
theorem Yard.ticketAt_updTicket_ne (y : Yard) (i j : Nat) (f : Ticket → Ticket) (h : i ≠ j) :
    (y.updTicket i f).ticketAt j = y.ticketAt j := by
  unfold Yard.ticketAt Yard.ticketSlot
  rw [Yard.updTicket_tickets, getOr_upd_ne _ _ _ _ _ h]

/-- The piece of a changed slot. -/
theorem Yard.pieceAt_updPiece_same (y : Yard) (i : Nat) (f : Piece → Piece) (h : i < 1024) :
    (y.updPiece i f).pieceAt i = (y.pieceAt i).map f := by
  unfold Yard.pieceAt Yard.pieceSlot
  rw [Yard.updPiece_pieces, getOr_upd_same _ _ _ _ h]

/-- The piece of another slot. -/
theorem Yard.pieceAt_updPiece_ne (y : Yard) (i j : Nat) (f : Piece → Piece) (h : i ≠ j) :
    (y.updPiece i f).pieceAt j = y.pieceAt j := by
  unfold Yard.pieceAt Yard.pieceSlot
  rw [Yard.updPiece_pieces, getOr_upd_ne _ _ _ _ _ h]

/-- A live slot is one of the 1024. -/
theorem Yard.pieceAt_lt (y : Yard) (i : Nat) (p : Piece) (h : y.pieceAt i = some p) : i < 1024 := by
  by_contra hi
  unfold Yard.pieceAt Yard.pieceSlot at h
  rw [getOr_ge _ _ _ (by omega)] at h
  cases h

/-- A slot that holds a ticket is one of the 24. -/
theorem Yard.ticketAt_lt (y : Yard) (i : Nat) (t : Ticket) (h : y.ticketAt i = some t) : i < 24 := by
  by_contra hi
  unfold Yard.ticketAt Yard.ticketSlot at h
  rw [getOr_ge _ _ _ (by omega)] at h
  cases h

end Sys2Proof.Machine
end

