-- ==== Sys2Proof/Laws/Cranes.lean ====
section
/-! SUPPORT. Orders on a crane link, and the evaluation of one ticket: what each can change, said once. -/

namespace Sys2Proof.Machine

/-! ## Orders on a crane link (R157) -/

/-- A frame sent raises the next sequence number of its crane. -/
theorem sendFrame_crane (y : Yard) (k kind : Nat) (payload : List Byte) (h : k < 3) :
    (sendFrame y k kind payload).crane k = { y.crane k with nextSeq := ((y.crane k).nextSeq + 1) % 256 } :=
  Yard.crane_updCrane_same _ _ _ h

/-- A frame sent is put on the link of its crane. -/
theorem sendFrame_link (y : Yard) (k kind : Nat) (payload : List Byte) (h : k < 3) :
    (sendFrame y k kind payload).link k = (y.link k).put (linkFrame kind (y.crane k).nextSeq payload) :=
  Yard.link_updLink_same _ _ _ h

/-- R157: a stage order sent becomes the crane's stage order, raises the sequence number and restarts the timer. -/
theorem sendStage_crane (e : Site) (y : Yard) (k : Nat) (kind : OrderKind) (arg : Nat) (h : k < 3) :
    (sendStage e y k kind arg).crane k =
      CraneRecord.restart
        { y.crane k with
          nextSeq := ((y.crane k).nextSeq + 1) % 256
          stage := some ⟨kind, (y.crane k).nextSeq, arg⟩ }
        (if kind = .home then e.settings.homeTimeout else e.settings.stageTimeout) := by
  unfold sendStage
  dsimp only
  rw [Yard.crane_updCrane_same _ _ _ h, sendFrame_crane _ _ _ _ h]

/-- R157: a STOP sent becomes the crane's stop order, raises the sequence number and restarts the timer. -/
theorem sendStop_crane (e : Site) (y : Yard) (k : Nat) (h : k < 3) :
    (sendStop e y k).crane k =
      CraneRecord.restart
        { y.crane k with
          nextSeq := ((y.crane k).nextSeq + 1) % 256
          stopOrder := some (y.crane k).nextSeq }
        e.settings.stageTimeout := by
  unfold sendStop
  dsimp only
  rw [Yard.crane_updCrane_same _ _ _ h, sendFrame_crane _ _ _ _ h]

/-- An order to one crane leaves the others' records as they are. -/
theorem sendStage_crane_ne (e : Site) (y : Yard) (k j : Nat) (kind : OrderKind) (arg : Nat) (h : k ≠ j) :
    (sendStage e y k kind arg).crane j = y.crane j := by
  unfold sendStage sendFrame
  dsimp only
  rw [Yard.crane_updCrane_ne _ _ _ _ h, Yard.crane_updCrane_ne _ _ _ _ h]
  rfl

/-- A STOP to one crane leaves the others' records as they are. -/
theorem sendStop_crane_ne (e : Site) (y : Yard) (k j : Nat) (h : k ≠ j) : (sendStop e y k).crane j = y.crane j := by
  unfold sendStop sendFrame
  dsimp only
  rw [Yard.crane_updCrane_ne _ _ _ _ h, Yard.crane_updCrane_ne _ _ _ _ h]
  rfl

/-! ## The report timer (R162) -/

/-- An advance makes the timer event due where the timer runs. -/
theorem minuteDue_crane (y : Yard) (k : Nat) (h : k < 3) :
    (minuteDue y k).crane k
      = { y.crane k with timer := (y.crane k).timer.map (fun t => { t with due := true }) } :=
  Yard.crane_updCrane_same _ _ _ h

/-- A timer event that does not expire takes a minute off. -/
theorem countMinute_crane (y : Yard) (k : Nat) (h : k < 3) :
    (countMinute y k).crane k
      = { y.crane k with timer := (y.crane k).timer.map (fun t => ⟨t.minutes - 1, false⟩) } :=
  Yard.crane_updCrane_same _ _ _ h

/-- The timer event of one crane writes no other crane's record. -/
theorem countMinute_crane_ne (y : Yard) (k j : Nat) (h : k ≠ j) : (countMinute y k).crane j = y.crane j :=
  Yard.crane_updCrane_ne _ _ _ _ h

/-! ## The fields that an order does not write -/

@[simp] theorem sendStage_pieces (e : Site) (y : Yard) (k : Nat) (kind : OrderKind) (arg : Nat) :
    (sendStage e y k kind arg).pieces = y.pieces := rfl
@[simp] theorem sendStage_stackRecs (e : Site) (y : Yard) (k : Nat) (kind : OrderKind) (arg : Nat) :
    (sendStage e y k kind arg).stackRecs = y.stackRecs := rfl
@[simp] theorem sendStage_lanes (e : Site) (y : Yard) (k : Nat) (kind : OrderKind) (arg : Nat) :
    (sendStage e y k kind arg).lanes = y.lanes := rfl
@[simp] theorem sendStage_trucks (e : Site) (y : Yard) (k : Nat) (kind : OrderKind) (arg : Nat) :
    (sendStage e y k kind arg).trucks = y.trucks := rfl
@[simp] theorem sendStage_tickets (e : Site) (y : Yard) (k : Nat) (kind : OrderKind) (arg : Nat) :
    (sendStage e y k kind arg).tickets = y.tickets := rfl
@[simp] theorem sendStage_moveQueue (e : Site) (y : Yard) (k : Nat) (kind : OrderKind) (arg : Nat) :
    (sendStage e y k kind arg).moveQueue = y.moveQueue := rfl
@[simp] theorem sendStage_finished (e : Site) (y : Yard) (k : Nat) (kind : OrderKind) (arg : Nat) :
    (sendStage e y k kind arg).finished = y.finished := rfl
@[simp] theorem sendStage_arbiter (e : Site) (y : Yard) (k : Nat) (kind : OrderKind) (arg : Nat) :
    (sendStage e y k kind arg).arbiter = y.arbiter := rfl
@[simp] theorem sendStop_pieces (e : Site) (y : Yard) (k : Nat) : (sendStop e y k).pieces = y.pieces := rfl
@[simp] theorem sendStop_stackRecs (e : Site) (y : Yard) (k : Nat) : (sendStop e y k).stackRecs = y.stackRecs := rfl
@[simp] theorem sendStop_lanes (e : Site) (y : Yard) (k : Nat) : (sendStop e y k).lanes = y.lanes := rfl
@[simp] theorem sendStop_trucks (e : Site) (y : Yard) (k : Nat) : (sendStop e y k).trucks = y.trucks := rfl
@[simp] theorem sendStop_tickets (e : Site) (y : Yard) (k : Nat) : (sendStop e y k).tickets = y.tickets := rfl
@[simp] theorem sendStop_moveQueue (e : Site) (y : Yard) (k : Nat) : (sendStop e y k).moveQueue = y.moveQueue := rfl
@[simp] theorem sendStop_finished (e : Site) (y : Yard) (k : Nat) : (sendStop e y k).finished = y.finished := rfl
@[simp] theorem sendStop_arbiter (e : Site) (y : Yard) (k : Nat) : (sendStop e y k).arbiter = y.arbiter := rfl

/-! ## The evaluation of one ticket (R121, R122) -/

/-- R122: a PENDING or READY ticket takes the wait reasons that apply, and is READY when there is none. -/
theorem refreshTicket_waiting (e : Site) (y : Yard) (slot : Nat) (t : Ticket) (h : y.ticketAt slot = some t)
    (hw : t.state = .pending ∨ t.state = .ready) :
    (refreshTicket e y slot).ticketAt slot =
      some { t with
        waits := evalWaits e y slot t
        state := if evalWaits e y slot t = .none then .ready else .pending } := by
  unfold refreshTicket
  simp only [h, hw, if_true]
  rw [Yard.ticketAt_updTicket_same _ _ _ (Yard.ticketAt_lt _ _ _ h), h]
  rfl

/-- A ticket in another state is left as it is. -/
theorem refreshTicket_other (e : Site) (y : Yard) (slot : Nat) (t : Ticket) (h : y.ticketAt slot = some t)
    (hw : ¬(t.state = .pending ∨ t.state = .ready)) : refreshTicket e y slot = y := by
  unfold refreshTicket
  simp only [h, hw, if_false]

/-- The other tickets are left as they are. -/
theorem refreshTicket_ne (e : Site) (y : Yard) (slot i : Nat) (h : slot ≠ i) :
    (refreshTicket e y slot).ticketAt i = y.ticketAt i := by
  unfold refreshTicket
  split
  · split
    · exact Yard.ticketAt_updTicket_ne _ _ _ _ h
    · rfl
  · rfl

end Sys2Proof.Machine
end

