-- ==== Sys2Proof/Laws/Cure.lean ====
section
/-! SUPPORT. Heat orders: what forming and sending an order can change, said once. -/

namespace Sys2Proof.Machine

/-- The frame of a single bed is reflexive. -/
theorem Plant.onlyBed_refl (b : Nat) (s : Plant) : Plant.onlyBed b s s :=
  ⟨rfl, rfl, rfl, rfl, rfl, fun _ _ => ⟨rfl, rfl, rfl⟩⟩

/-- The frame of a single bed is transitive. -/
theorem Plant.onlyBed_trans {b : Nat} {s t u : Plant} (h : Plant.onlyBed b s t) (k : Plant.onlyBed b t u) :
    Plant.onlyBed b s u := by
  obtain ⟨h1, h2, h3, h4, h5, h6⟩ := h
  obtain ⟨k1, k2, k3, k4, k5, k6⟩ := k
  refine ⟨k1.trans h1, k2.trans h2, k3.trans h3, k4.trans h4, k5.trans h5, fun i hi => ?_⟩
  obtain ⟨a1, a2, a3⟩ := h6 i hi
  obtain ⟨c1, c2, c3⟩ := k6 i hi
  exact ⟨c1.trans a1, c2.trans a2, c3.trans a3⟩

/-- A change of one bed record touches only that bed. -/
theorem Plant.onlyBed_updBed (b : Nat) (s : Plant) (f : BedRecord → BedRecord) : Plant.onlyBed b s (s.updBed b f) :=
  ⟨rfl, rfl, rfl, rfl, rfl, fun _ hi => ⟨Plant.bed_updBed_ne _ _ _ _ (Ne.symm hi), rfl, rfl⟩⟩

/-- A change of one heat record touches only that bed. -/
theorem Plant.onlyBed_updHeat (b : Nat) (s : Plant) (f : HeatRecord → HeatRecord) : Plant.onlyBed b s (s.updHeat b f) :=
  ⟨rfl, rfl, rfl, rfl, rfl, fun _ hi => ⟨rfl, Plant.heat_updHeat_ne _ _ _ _ (Ne.symm hi), rfl⟩⟩

/-- A change of one bed line touches only that bed. -/
theorem Plant.onlyBed_updBedLine (b : Nat) (s : Plant) (f : BedLine → BedLine) :
    Plant.onlyBed b s (s.updBedLine b f) :=
  ⟨rfl, rfl, rfl, rfl, rfl, fun _ hi => ⟨rfl, rfl, Plant.bedLine_updBedLine_ne _ _ _ _ (Ne.symm hi)⟩⟩

/-- R56: an order sent touches only its bed. -/
theorem sendOrder_onlyBed (s : Plant) (b : Nat) : Plant.onlyBed b s (sendOrder s b) := by
  unfold sendOrder
  split
  · exact Plant.onlyBed_refl _ _
  · exact Plant.onlyBed_trans (Plant.onlyBed_updBedLine _ _ _) (Plant.onlyBed_updHeat _ _ _)

/-- R56: an order sent if it changed touches only its bed. -/
theorem sendIfChanged_onlyBed (s : Plant) (b : Nat) : Plant.onlyBed b s (sendIfChanged s b) := by
  unfold sendIfChanged
  split
  · exact Plant.onlyBed_refl _ _
  · exact sendOrder_onlyBed _ _

/-- No order sent writes a bed record. -/
theorem sendOrder_beds (s : Plant) (b : Nat) : (sendOrder s b).beds = s.beds := by
  unfold sendOrder
  split <;> rfl

/-- No order sent writes a bed record. -/
theorem sendIfChanged_beds (s : Plant) (b : Nat) : (sendIfChanged s b).beds = s.beds := by
  unfold sendIfChanged
  split
  · rfl
  · exact sendOrder_beds _ _

/-- R56: in the OPEN phase the last order of the bed is the order formed, and the rest of its heat record stands. -/
theorem sendOrder_heat (s : Plant) (b : Nat) (hb : b < 12) (ho : s.isClosed = false) :
    (sendOrder s b).heat b = { s.heat b with lastOrder := formOrder (s.bed b) (s.heat b) } := by
  unfold sendOrder
  simp only [ho, Bool.false_eq_true, if_false]
  exact Plant.heat_updHeat_same _ _ _ hb

/-- R56: in the OPEN phase the last order of the bed is the order formed, and the rest of its heat record stands. -/
theorem sendIfChanged_heat (s : Plant) (b : Nat) (hb : b < 12) (ho : s.isClosed = false) :
    (sendIfChanged s b).heat b = { s.heat b with lastOrder := formOrder (s.bed b) (s.heat b) } := by
  unfold sendIfChanged
  split
  · next h => rw [h]
  · exact sendOrder_heat s b hb ho

/-- R56: in the OPEN phase the bed line is unchanged when the order is the last one sent, and takes it otherwise. -/
theorem sendIfChanged_bedLine (s : Plant) (b : Nat) (hb : b < 12) (ho : s.isClosed = false) :
    (sendIfChanged s b).bedLine b =
      if formOrder (s.bed b) (s.heat b) = (s.heat b).lastOrder then s.bedLine b
      else (s.bedLine b).put (formOrder (s.bed b) (s.heat b)) := by
  unfold sendIfChanged
  split
  · rfl
  · unfold sendOrder
    simp only [ho, Bool.false_eq_true, if_false]
    exact Plant.bedLine_updBedLine_same _ _ _ hb

end Sys2Proof.Machine
end

