-- ==== Sys2Proof/Laws/Frames.lean ====
section
/-! SUPPORT. Bytes of quantities and fields of given widths: their lengths, and that reading gives back what was written. -/

namespace Sys2Proof.Machine

/-- A quantity of `k` bytes is `k` bytes long. -/
theorem beBytes_length (k n : Nat) : (beBytes k n).length = k := by
  induction k generalizing n with
  | zero => rfl
  | succ k ih => simp [beBytes, ih]

/-- One more byte read. -/
theorem ofBytes_append_one (bs : List Byte) (b : Byte) : ofBytes (bs ++ [b]) = ofBytes bs * 256 + b.toNat := by
  simp [ofBytes]

/-- A quantity that fits its bytes is read as it was written. -/
theorem ofBytes_beBytes (k n : Nat) (h : n < 256 ^ k) : ofBytes (beBytes k n) = n := by
  induction k generalizing n with
  | zero =>
    simp at h
    subst h
    rfl
  | succ k ih =>
    have hd : n / 256 < 256 ^ k := by
      rw [Nat.div_lt_iff_lt_mul (by decide)]
      rwa [Nat.pow_succ] at h
    rw [beBytes, ofBytes_append_one, ih _ hd, BitVec.toNat_ofNat]
    omega

/-- Fields that fit their widths are read as they were written. -/
theorem unpack_pack (fields : List (Nat × Nat)) (h : ∀ f ∈ fields, f.2 < 256 ^ f.1) :
    unpack (fields.map (fun f => f.1)) (pack fields) = some (fields.map (fun f => f.2)) := by
  induction fields with
  | nil => rfl
  | cons f fields ih =>
    have hlen : (beBytes f.1 f.2).length = f.1 := beBytes_length _ _
    have hf : f.2 < 256 ^ f.1 := h f (by simp)
    have ih' := ih (fun g hg => h g (by simp [hg]))
    simp only [List.map_cons, pack]
    rw [unpack]
    rw [if_neg (by simp [hlen])]
    rw [List.drop_append_of_le_length (by omega), List.take_append_of_le_length (by omega)]
    rw [List.drop_of_length_le (by omega), List.take_of_length_le (by omega), List.nil_append, ih',
      ofBytes_beBytes _ _ hf]

/-- The bytes of fields are as many as their widths add up to. -/
theorem pack_length (fields : List (Nat × Nat)) : (pack fields).length = (fields.map (fun f => f.1)).sum := by
  induction fields with
  | nil => rfl
  | cons f fields ih => simp [pack, beBytes_length, ih]

/-- The byte sum of bytes one after another. -/
theorem byteSum_append (a b : List Byte) : byteSum (a ++ b) = byteSum a + byteSum b := by
  have h : ∀ (bs : List Byte) (x : Byte), bs.foldl (· + ·) x = x + bs.foldl (· + ·) 0 := by
    intro bs
    induction bs with
    | nil => intro x; simp
    | cons c cs ih =>
      intro x
      rw [List.foldl_cons, List.foldl_cons, ih, ih (0 + c)]
      simp [add_assoc]
  unfold byteSum
  rw [List.foldl_append, h b]

/-- A frame that ends with the check byte of what precedes it sums to 0. -/
theorem byteSum_check (body : List Byte) : byteSum (body ++ [checkByte body]) = 0 := by
  rw [byteSum_append]
  simp [byteSum, checkByte]

end Sys2Proof.Machine
end

