-- ==== Sys2Proof/Laws/Settle.lean ====
section
/-! SUPPORT. What the follow-up work of a change and the arbiter can do to the yard, said once: they leave `Yard.fixed` as it
is (no piece moves, no stack, lane or truck gains or loses a piece, no ticket slot is freed, no ticket finishes). -/

namespace Sys2Proof.Machine

/-! ## The updates -/

theorem fixed_updTicket (y : Yard) (i : Nat) (f : Ticket → Ticket) : (y.updTicket i f).fixed = y.fixed := by
  unfold Yard.fixed
  simp [map_upd_of_comp]

theorem fixed_updArb (y : Yard) (k : Nat) (f : ArbiterRecord → ArbiterRecord) : (y.updArb k f).fixed = y.fixed := rfl

theorem fixed_updLink (y : Yard) (k : Nat) (f : CraneLine → CraneLine) : (y.updLink k f).fixed = y.fixed := rfl

theorem fixed_setClaim (y : Yard) (k : Nat) (c : Option Interval) : (y.setClaim k c).fixed = y.fixed := rfl

theorem fixed_updCrane (y : Yard) (k : Nat) (f : CraneRecord → CraneRecord) (h : ∀ c, (f c).fixed = c.fixed) :
    (y.updCrane k f).fixed = y.fixed := by
  unfold Yard.fixed
  simp [map_upd_of_comp _ _ _ _ h]

theorem fixed_updStack (y : Yard) (i : Nat) (f : StackRecord → StackRecord) (h : ∀ r, (f r).fixed = r.fixed) :
    (y.updStack i f).fixed = y.fixed := by
  unfold Yard.fixed
  simp [map_upd_of_comp _ _ _ _ h]

theorem fixed_updLane (y : Yard) (i : Nat) (f : LaneRecord → LaneRecord) (h : ∀ r, (f r).fixed = r.fixed) :
    (y.updLane i f).fixed = y.fixed := by
  unfold Yard.fixed
  simp [map_upd_of_comp _ _ _ _ h]

theorem fixed_updTruck (y : Yard) (i : Nat) (f : TruckRecord → TruckRecord) (h : ∀ r, (f r).fixed = r.fixed) :
    (y.updTruck i f).fixed = y.fixed := by
  unfold Yard.fixed
  simp [map_upd_of_comp _ _ _ _ h]

theorem fixed_updPiece (y : Yard) (i : Nat) (f : Piece → Piece)
    (h : ∀ p : Piece, { f p with ticket := none } = { p with ticket := none }) : (y.updPiece i f).fixed = y.fixed := by
  unfold Yard.fixed
  simp only [Yard.updPiece_pieces, Yard.updPiece_stackRecs, Yard.updPiece_lanes, Yard.updPiece_trucks,
    Yard.updPiece_tickets, Yard.updPiece_finished, Yard.updPiece_cranes]
  rw [map_upd_of_comp]
  intro ps
  simp [PieceSlot.fixed, Option.map_map, Function.comp_def, h]

theorem fixed_placeTicket (y : Yard) (i : Nat) (t : Ticket) : (y.placeTicket i t).fixed = y.fixed := by
  unfold Yard.fixed
  simp [map_upd_of_comp]

theorem fixed_setPieceTicket (y : Yard) (p : Handle) (h : Option Handle) : (setPieceTicket y p h).fixed = y.fixed :=
  fixed_updPiece _ _ _ fun _ => rfl

/-- A walk of steps that each keep the fixed part keeps it. -/
theorem fixed_forEach {α : Type} (f : Yard → α → Yard) (h : ∀ y a, (f y a).fixed = y.fixed) (xs : List α) (y : Yard) :
    (forEach xs f y).fixed = y.fixed := by
  unfold forEach
  induction xs generalizing y with
  | nil => rfl
  | cons x xs ih => rw [List.foldl_cons, ih, h]

/-! ## Orders, claims, buried tickets -/

theorem fixed_sendFrame (y : Yard) (k kind : Nat) (payload : List Byte) : (sendFrame y k kind payload).fixed = y.fixed := by
  refine (fixed_updCrane _ _ _ ?_).trans (fixed_updLink _ _ _)
  intro c
  rfl

theorem fixed_sendStage (e : Site) (y : Yard) (k : Nat) (kind : OrderKind) (arg : Nat) :
    (sendStage e y k kind arg).fixed = y.fixed := by
  unfold sendStage
  rw [fixed_updCrane, fixed_sendFrame]
  intro c
  unfold CraneRecord.restart CraneRecord.fixed
  split <;> rfl

theorem fixed_appendClaim (y : Yard) (s : Nat) (c : Claim) : (appendClaim y s c).fixed = y.fixed :=
  fixed_updStack _ _ _ fun _ => rfl

theorem fixed_raiseBuried (y : Yard) (s : Nat) : (raiseBuried y s).fixed = y.fixed := fixed_updStack _ _ _ fun _ => rfl

theorem fixed_lowerBuried (y : Yard) (s : Nat) : (lowerBuried y s).fixed = y.fixed := fixed_updStack _ _ _ fun _ => rfl

theorem fixed_promoteUpTo (n s : Nat) (y : Yard) : (promoteUpTo n s y).fixed = y.fixed := by
  induction n generalizing y with
  | zero => rfl
  | succ n ih =>
    unfold promoteUpTo
    split
    · split
      · rw [ih, fixed_lowerBuried, fixed_appendClaim]
      · rfl
    · rfl

theorem fixed_promote (s : Nat) (y : Yard) : (promote s y).fixed = y.fixed := fixed_promoteUpTo _ _ _

theorem fixed_appendLift (y : Yard) (s : Nat) (h : Handle) : (appendLift y s h).fixed = y.fixed := by
  unfold appendLift
  rw [fixed_promote, fixed_appendClaim]

theorem fixed_reserve (y : Yard) (l : Nat) : (reserve y l).fixed = y.fixed := fixed_updLane _ _ _ fun _ => rfl

theorem fixed_claimDest (y : Yard) (h : Handle) (d : Option Dest) : (claimDest y h d).fixed = y.fixed := by
  unfold claimDest
  split
  · exact fixed_appendClaim _ _ _
  · exact fixed_reserve _ _
  all_goals rfl

/-! ## Wait reasons and levels -/

theorem fixed_refreshTicket (e : Site) (y : Yard) (slot : Nat) : (refreshTicket e y slot).fixed = y.fixed := by
  unfold refreshTicket
  split
  · split
    · exact fixed_updTicket _ _ _
    · rfl
  · rfl

theorem fixed_refreshAll (e : Site) (y : Yard) : (refreshAll e y).fixed = y.fixed :=
  fixed_forEach _ (fixed_refreshTicket e) _ _

theorem fixed_refreshLevel (e : Site) (y : Yard) (slot : Nat) : (refreshLevel e y slot).fixed = y.fixed := by
  unfold refreshLevel
  split
  · split
    · exact fixed_updTicket _ _ _
    · rfl
  · rfl

theorem fixed_refreshLevels (e : Site) (y : Yard) : (refreshLevels e y).fixed = y.fixed :=
  fixed_forEach _ (fixed_refreshLevel e) _ _

/-- A ticket made writes no fixed part. -/
theorem fixed_makeTicket (e : Site) (y : Yard) (slot : Nat) (p : Handle) (t : Ticket) :
    (makeTicket e y slot p t).fixed = y.fixed := by
  unfold makeTicket
  rw [fixed_refreshTicket, fixed_refreshLevel]
  split
  · split
    · rw [fixed_appendLift, fixed_setPieceTicket, fixed_claimDest, fixed_placeTicket]
    · rw [fixed_raiseBuried, fixed_setPieceTicket, fixed_claimDest, fixed_placeTicket]
  · rw [fixed_setPieceTicket, fixed_claimDest, fixed_placeTicket]

theorem fixed_returnTicket (e : Site) (y : Yard) (slot : Nat) : (returnTicket e y slot).fixed = y.fixed := by
  unfold returnTicket
  rw [fixed_refreshTicket, fixed_updTicket]

/-! ## Dig rounds, picks, searches -/

theorem fixed_digWalk (e : Site) (slot s : Nat) (cs : List Handle) (y : Yard) :
    (digWalk e slot s cs y).fixed = y.fixed := by
  induction cs generalizing y with
  | nil => rfl
  | cons c cs ih =>
    unfold digWalk
    split
    · split
      · exact ih y
      · split
        · rfl
        · split
          · rfl
          · split
            · rfl
            · rw [ih]; exact fixed_makeTicket _ _ _ _ _
    · rfl

theorem fixed_digRound (e : Site) (y : Yard) (slot : Nat) : (digRound e y slot).fixed = y.fixed := by
  unfold digRound
  split
  · split
    · exact fixed_digWalk _ _ _ _ _
    · rfl
  · rfl

theorem fixed_makePick (e : Site) (y : Yard) (k slot : Nat) (p : Handle) (src : Location) :
    (makePick e y k slot p src).fixed = y.fixed := by
  refine (fixed_updTruck _ _ _ ?_).trans (fixed_makeTicket _ _ _ _ _)
  intro r
  rfl

theorem fixed_createPick (e : Site) (y : Yard) (k : Nat) : (createPick e y k).fixed = y.fixed := by
  unfold createPick
  dsimp only
  split
  · split
    · split
      · split
        · rfl
        · split
          · split
            · rfl
            · rw [fixed_refreshTicket, fixed_digRound, fixed_makePick]
          · exact fixed_makePick _ _ _ _ _ _
          · exact fixed_makePick _ _ _ _ _ _
          · rfl
          · rfl
      · rfl
    · rfl
  · rfl

theorem fixed_giveDest (y : Yard) (slot : Nat) (d : Dest) : (giveDest y slot d).fixed = y.fixed := by
  unfold giveDest
  rw [fixed_claimDest, fixed_updTicket]

theorem fixed_giveLaden (e : Site) (y : Yard) (slot k s : Nat) : (giveLaden e y slot k s).fixed = y.fixed := by
  unfold giveLaden
  rw [fixed_sendStage, fixed_setClaim, fixed_giveDest]

theorem fixed_redirectOne (e : Site) (y : Yard) (slot : Nat) : (redirectOne e y slot).fixed = y.fixed := by
  unfold redirectOne
  split
  · split
    · split
      · split
        · split
          · exact fixed_giveLaden _ _ _ _ _
          · rfl
        · rfl
      · split
        · split
          · exact fixed_giveDest _ _ _
          · rfl
        · rfl
    · rfl
  · rfl

theorem fixed_waitingPass (e : Site) (y : Yard) : (waitingPass e y).fixed = y.fixed := by
  unfold waitingPass redirectAll
  dsimp only
  rw [fixed_forEach _ (fixed_digRound e), fixed_forEach _ (fixed_createPick e), fixed_forEach _ (fixed_redirectOne e)]

theorem fixed_waitingWork (e : Site) (n : Nat) (y : Yard) : (waitingWork e n y).fixed = y.fixed := by
  induction n generalizing y with
  | zero => rfl
  | succ n ih =>
    unfold waitingWork
    dsimp only
    split
    · exact fixed_waitingPass e y
    · rw [ih, fixed_waitingPass]

theorem fixed_promoteAll (y : Yard) : (promoteAll y).fixed = y.fixed := by
  refine fixed_forEach _ ?_ _ _
  intro y a
  split
  · exact fixed_promote _ _
  · rfl

/-- The follow-up work of a change leaves the fixed part as it is. -/
theorem fixed_followUp (e : Site) (y : Yard) : (followUp e y).fixed = y.fixed := by
  unfold followUp
  rw [fixed_refreshAll, fixed_refreshLevels, fixed_waitingWork, fixed_refreshLevels, fixed_promoteAll]

/-! ## The arbiter -/

theorem fixed_grant (e : Site) (y : Yard) (slot k : Nat) (t : Ticket) : (grant e y slot k t).fixed = y.fixed := by
  unfold grant
  dsimp only
  rw [fixed_sendStage]
  refine (fixed_updCrane _ _ _ ?_).trans ((fixed_updTicket _ _ _).trans (fixed_setClaim _ _ _))
  intro c
  rfl

theorem fixed_preempt (e : Site) (y : Yard) (slot k : Nat) (t : Ticket) : (preempt e y slot k t).fixed = y.fixed := by
  unfold preempt
  split
  · rw [fixed_grant, fixed_returnTicket]
  · rfl

theorem fixed_makeYield (e : Site) (served : Handle) (level k : Nat) (i : Interval) (y : Yard) (j : Nat) :
    (makeYield e served level k i y j).fixed = y.fixed := by
  unfold makeYield
  split
  · rw [fixed_refreshTicket, fixed_updArb, fixed_placeTicket]
  · rfl

theorem fixed_makeYields (e : Site) (y : Yard) (slot k : Nat) (t : Ticket) : (makeYields e y slot k t).fixed = y.fixed := by
  unfold makeYields
  split
  · exact fixed_forEach _ (fixed_makeYield e _ _ _ _) _ _
  · rfl

theorem fixed_examine (e : Site) (y : Yard) (slot : Nat) : (examine e y slot).1.fixed = y.fixed := by
  unfold examine
  split
  · split
    · exact fixed_grant _ _ _ _ _
    · split
      · split
        · exact fixed_preempt _ _ _ _ _
        · split
          · exact fixed_makeYields _ _ _ _ _
          · rfl
      · rfl
  · rfl

theorem fixed_walk (e : Site) (n last : Nat) (y : Yard) : (walk e n last y).1.fixed = y.fixed := by
  induction n generalizing last y with
  | zero => rfl
  | succ n ih =>
    unfold walk
    split
    · rfl
    · dsimp only
      rw [ih, fixed_examine]

theorem fixed_walks (e : Site) (n : Nat) (y : Yard) : (walks e n y).fixed = y.fixed := by
  induction n generalizing y with
  | zero => rfl
  | succ n ih =>
    unfold walks
    dsimp only
    split
    · rw [ih, fixed_walk]
    · exact fixed_walk _ _ _ _

/-- An evaluation of the arbiter leaves the fixed part as it is. -/
theorem fixed_evaluate (e : Site) (y : Yard) : (evaluate e y).fixed = y.fixed := by
  unfold evaluate
  split
  · rfl
  · exact fixed_walks _ _ _

/-- What follows a change leaves the fixed part as it is. -/
theorem fixed_settle (e : Site) (y0 y1 : Yard) : (settle e y0 y1).fixed = y1.fixed := by
  unfold settle
  dsimp only
  split
  · rw [fixed_evaluate, fixed_followUp]
  · exact fixed_followUp _ _

/-- What follows a crane event that R153 makes a claim change leaves the fixed part as it is. -/
theorem fixed_settleClaim (e : Site) (y : Yard) : (settleClaim e y).fixed = y.fixed := by
  unfold settleClaim
  rw [fixed_evaluate, fixed_followUp]

/-! ## The rest of the plant -/

/-- What follows a change of the plant touches the yard alone. -/
theorem Plant.settle_eq (s0 s1 : Plant) :
    s0.settle s1 = { s1 with yard := Machine.settle s1.site s0.yard s1.yard } := rfl

theorem Plant.fixed_settle (s0 s1 : Plant) : (s0.settle s1).yard.fixed = s1.yard.fixed := by
  have h := Sys2Proof.Machine.fixed_settle s1.site s0.yard s1.yard
  unfold Plant.settle
  rw [Plant.updYard_yard]
  exact h

theorem Plant.settleClaim_eq (s : Plant) : s.settleClaim = { s with yard := Machine.settleClaim s.site s.yard } := rfl

theorem Plant.fixed_settleClaim (s : Plant) : s.settleClaim.yard.fixed = s.yard.fixed := by
  unfold Plant.settleClaim
  rw [Plant.updYard_yard]
  exact Sys2Proof.Machine.fixed_settleClaim _ _

theorem Plant.fixed_settleFault (s0 s1 : Plant) (k : Nat) : (s0.settleFault s1 k).yard.fixed = s1.yard.fixed := by
  unfold Plant.settleFault
  split
  · exact Plant.fixed_settleClaim _
  · exact Plant.fixed_settle _ _

/-- An arbiter that is held back changes nothing (R140). -/
theorem evaluate_heldBack (e : Site) (y : Yard) (h : heldBack e y = true) : evaluate e y = y := by
  unfold evaluate
  simp [h]

/-! ## The move queue and its active tickets (R115, R121) -/

/-- The slots ahead of a slot are the front of the queue before its first place. -/
theorem ahead_of_split (y : Yard) (slot : Nat) (front back : List Nat) (hq : y.moveQueue = front ++ slot :: back)
    (hf : slot ∉ front) : ahead y slot = front := by
  unfold ahead
  rw [hq]
  clear hq
  induction front with
  | nil => simp
  | cons a as ih =>
    rw [List.mem_cons, not_or] at hf
    simpa [Ne.symm hf.1] using ih hf.2

theorem activeAt_iff (y : Yard) (slot : Nat) :
    y.activeAt slot = true ↔ ∃ t, y.ticketAt slot = some t ∧ t.state.isActive = true := by
  unfold Yard.activeAt
  split <;> simp_all

theorem activePick_iff (y : Yard) (truck slot : Nat) :
    activePick y truck slot = true
      ↔ ∃ t, y.ticketAt slot = some t ∧ t.state.isActive = true ∧ t.kind = .pick ∧ t.truck = some truck := by
  unfold activePick
  split <;> simp_all [and_assoc]

/-! ## Dropped claims (R93) -/

/-- A dropped LIFT claim raises the buried count of its stack. -/
theorem dropClaim_lift (s : Nat) (y : Yard) (h : Handle) : dropClaim s y ⟨.lift, h⟩ = raiseBuried y s := rfl

/-- A dropped PLACE claim takes the destination of its ticket where that is the stack. -/
theorem ticketAt_dropClaim_place (s : Nat) (y : Yard) (h : Handle) (hs : h.slot < 24) :
    (dropClaim s y ⟨.place, h⟩).ticketAt h.slot
      = (y.ticketAt h.slot).map (fun t => { t with dest := leaveStack s t.dest }) :=
  Yard.ticketAt_updTicket_same _ _ _ hs

end Sys2Proof.Machine
end

