-- ==== Sys2Proof/Tests/Slice0.lean ====
section
/-! SUPPORT. The model's own tests: ill-formed terms that WellFormed refuses, one or two steps of the manual's worked
examples, and for every statement with hypotheses a concrete state and operands that meet them together (a clause each,
at the ends of its range). Every state here is built by the helpers of the first section. -/

namespace Sys2Proof.Tests
open Sys2Proof.Machine

set_option Elab.async false

/-! ## States and observations -/

/-- A header with tag 42 and no AFTER. -/
def hd : Header := ⟨42, false⟩

/-- The part in the CLOSED phase, with one change of its records. -/
def closedWith (f : Plant → Plant) : State := { State.reset with plant := f (Plant.powerOn false) }

/-- The part in the OPEN phase, with one change of its records. -/
def openWith (f : Plant → Plant) : State :=
  closedWith (fun p => f { p with works := { p.works with phase := .opened } })

/-- The plant stop state asserted. -/
def stopOn (s : State) : State := { s with plant := { s.plant with works := { s.plant.works with stop := true } } }

/-- A change of the yard. -/
def inYard (f : Yard → Yard) (s : State) : State := { s with plant := s.plant.updYard f }

/-- The outcome code of the last result that a row leaves; none where it posts none. -/
def outcome (i : Instr) (s : State) : Option Nat :=
  match exec i s with
  | .next t =>
    if s.port.resultQueue.length < t.port.resultQueue.length then
      (t.port.resultQueue.getLast?.bind (fun f => f[3]?)).map BitVec.toNat
    else none
  | .fault _ => none
  | .refused _ => none

/-- A row answers a next state that passes a test. -/
def gives (i : Instr) (s : State) (test : State → Bool) : Bool :=
  match exec i s with
  | .next t => test t
  | .fault _ => false
  | .refused _ => false

/-- The piece of number `n`: class 0, maturity 500, no hold. Its mark is one character, coded `n + 1`. -/
def pc (n : Nat) (loc : Location) : Piece := ⟨(n + 1) * 38 ^ 7, 0, loc, 500, 0, .none, none, none⟩

/-- A mark word of class 0 with the one-character mark coded `n`. -/
def mk (n : Nat) : MarkWord := ⟨0, false, n * 38 ^ 7⟩

/-- Class 0 defined: length 100, weight 50, threshold 400, tier limit 4. -/
def withClass (n : Nat) (p : Plant) : Plant := p.updClass 0 (fun _ => ⟨true, 100, 50, 400, 4, n⟩)

/-- Pieces in the slots from 0 up, with their marks and their class. -/
def withPieces (ps : List Piece) (p : Plant) : Plant :=
  (withClass ps.length { p with markMap := ps.zipIdx.map (fun x => (x.1.mark, x.2)) }).updYard
    (fun y => forEach ps.zipIdx (fun y x => y.putPiece x.2 x.1) y)

/-- Bed 0 configured at bay 6 with two positions, in a state, with a heat record and a position table. -/
def withBed (st : BedState) (h : HeatRecord) (a b : Option Handle) (p : Plant) : Plant :=
  (p.updBed 0 (fun r => { r with
    configured := true, bay := 6, positions := 2, state := st, maturity := 500
    table := #v[a, b, none, none, none, none, none, none] })).updHeat 0 (fun _ => h)

/-- A bed without pieces. -/
def emptyBed (st : BedState) (h : HeatRecord) : State := openWith (fun p => withBed st h none none (withClass 0 p))

/-- A bed with pieces 0 and 1 on its positions. -/
def fullBed (st : BedState) (h : HeatRecord) : State :=
  openWith (fun p => withBed st h (some ⟨0, 0⟩) (some ⟨1, 0⟩) (withPieces [pc 0 (.bed 0 0), pc 1 (.bed 0 1)] p))

/-- A plan of two segments. -/
def plan2 : List Segment := [⟨100, 60⟩, ⟨80, 30⟩]

/-- STEAM under the first segment of a running plan, in its last minute. -/
def steaming : HeatRecord := { HeatRecord.reset with
  requested := .steam, running := .steam, run := plan2, plan := .running, segMinutes := 1, lastOrder := ⟨.steam, 100⟩ }

/-- No heat under a running plan. -/
def resting : HeatRecord := { HeatRecord.reset with run := plan2, plan := .running, segMinutes := 60 }

/-- Pieces 0 and 1 on stack 0 (bay 10), piece 2 in lane 0 (bay 5), piece 3 on truck 0 (bay 60); stack 1 at bay 20 and
lane 1 at bay 8 empty, truck 1 free at bay 61. Crane claims 0–0, 10–20 and 63–63. -/
def stock : State := openWith (fun p =>
  (withPieces [pc 0 (.stack 0 1), pc 1 (.stack 0 2), pc 2 (.lane 0), pc 3 (.truck 0 1)] p).updYard (fun y =>
    (((((((((y.updStack 0 (fun r => { r with state := .opened, bay := 10, tiers := 4, limit := 400, pieces := [⟨0, 0⟩, ⟨1, 0⟩] })).updStack
      1 (fun r => { r with state := .opened, bay := 20, tiers := 8, limit := 4000 })).updLane
      0 (fun r => { r with defined := true, bay := 5, pieces := [⟨2, 0⟩] })).updLane
      1 (fun r => { r with defined := true, bay := 8 })).updTruck
      0 (fun r => { r with defined := true, bay := 60, state := .unloading, pieces := [⟨3, 0⟩] })).updTruck
      1 (fun r => { r with defined := true, bay := 61 })).setClaim
      0 (some ⟨0, 0⟩)).setClaim 1 (some ⟨10, 20⟩)).setClaim 2 (some ⟨63, 63⟩))))

/-- A SHIFT of piece 1 from stack 0 to stack 1. -/
def shift (st : TicketState) : Ticket :=
  ⟨.shift, some ⟨1, 0⟩, some (.stack 0 2), some (.stack 1), 0, 0, false, false, none, none,
    if st = .ready ∨ st = .pending then none else some 1, st, false, false, .none, .none, false⟩

/-- The stock with that ticket in slot 0, its claims, and crane 1 at bay 10 with a record of its own. -/
def moving (t : Ticket) (c : CraneRecord) : State :=
  inYard (fun y =>
    ((((y.placeTicket 0 t).updPiece 1 (fun p => { p with ticket := some ⟨0, 0⟩ })).updStack
      0 (fun r => { r with claims := [⟨.lift, ⟨0, 0⟩⟩] })).updStack
      1 (fun r => { r with claims := [⟨.place, ⟨0, 0⟩⟩] })).updCrane 1 (fun _ => c)) stock

/-- Crane 1 at work on the ticket in slot 0 with a stage order of sequence 7. -/
def atWork (kind : OrderKind) : CraneRecord :=
  { CraneRecord.reset 32 with
    state := .busy, current := some ⟨0, 0⟩, lastBay := 10, stage := some ⟨kind, 7, 10⟩, nextSeq := 8, timer := some ⟨15, false⟩ }


/-! ## WellFormed refuses each ill-formed term -/

theorem test_wellFormed_header : Instr.wellFormed (.openWorks ⟨256, false⟩) = false ∧ Instr.wellFormed (.openWorks ⟨255, true⟩) = true := by
  decide

theorem test_wellFormed_bytes :
    Instr.wellFormed (.settings hd 256 5 140 2 4 7 1 10 15) = false ∧ Instr.wellFormed (.lockSettings hd 256) = false
    ∧ Instr.wellFormed (.readBed hd 256) = false ∧ Instr.wellFormed (.heatMode hd 0 256) = false
    ∧ Instr.wellFormed (.defineLane hd 0 0 256) = false ∧ Instr.wellFormed (.configureBed hd 0 0 0 256) = false
    ∧ Instr.wellFormed (.defineStack hd 0 1 0 1 65536) = false ∧ Instr.wellFormed (.defineClass hd 0 1 0 0 4294967296 0) = false
    ∧ Instr.wellFormed (.defineStack hd 255 255 255 255 65535) = true := by decide

theorem test_wellFormed_handles :
    Instr.wellFormed (.readPiece hd ⟨1024, 0⟩) = false ∧ Instr.wellFormed (.hold hd ⟨0, 64⟩ 1) = false
    ∧ Instr.wellFormed (.hold hd ⟨1023, 63⟩ 256) = false ∧ Instr.wellFormed (.move hd ⟨0, 0⟩ 256 0 0 0 0) = false
    ∧ Instr.wellFormed (.readPiece hd ⟨1023, 63⟩) = true := by decide

theorem test_wellFormed_marks :
    Instr.wellFormed (.lookupMark hd ⟨32, false, 0⟩) = false ∧ Instr.wellFormed (.lookupMark hd ⟨0, false, 2 ^ 42⟩) = false
    ∧ Instr.wellFormed (.restorePiece hd (mk 1) 4294967296 0 2 0) = false
    ∧ Instr.wellFormed (.lookupMark hd ⟨31, true, 2 ^ 42 - 1⟩) = true := by decide

theorem test_wellFormed_lists :
    Instr.wellFormed (.cast hd 0 (List.replicate 10 (mk 1))) = false ∧ Instr.wellFormed (.cast hd 0 (List.replicate 9 (mk 1))) = true
    ∧ Instr.wellFormed (.loadPlan hd 0 (List.replicate 20 ⟨0, 1⟩)) = false ∧ Instr.wellFormed (.loadPlan hd 0 [⟨256, 1⟩]) = false
    ∧ Instr.wellFormed (.openOrder hd 0 0 0 (List.replicate 29 ⟨0, 0⟩)) = false
    ∧ Instr.wellFormed (.addToOrder hd 0 (List.replicate 30 ⟨0, 0⟩)) = false
    ∧ Instr.wellFormed (.addToOrder hd 0 (List.replicate 29 ⟨0, 0⟩)) = true := by decide

theorem test_wellFormed_restoreBed :
    Instr.wellFormed (.restoreBed hd 16 0 0 0 0 (List.replicate 8 0) []) = false
    ∧ Instr.wellFormed (.restoreBed hd 1 16 0 0 0 (List.replicate 8 0) []) = false
    ∧ Instr.wellFormed (.restoreBed hd 1 0 0 8 0 (List.replicate 8 0) []) = false
    ∧ Instr.wellFormed (.restoreBed hd 1 0 0 0 2048 (List.replicate 8 0) []) = false
    ∧ Instr.wellFormed (.restoreBed hd 1 0 0 0 0 (List.replicate 7 0) []) = false
    ∧ Instr.wellFormed (.restoreBed hd 1 0 0 0 0 (List.replicate 8 16) []) = false
    ∧ Instr.wellFormed (.restoreBed hd 1 0 0 0 0 (List.replicate 8 0) (List.replicate 9 (mk 0))) = false
    ∧ Instr.wellFormed (.restoreBed hd 1 0 0 0 0 (List.replicate 8 0) (List.replicate 8 (mk 0))) = true := by decide

theorem test_wellFormed_find :
    Instr.wellFormed (.find hd ⟨65536, 1, 0, 0, 0, 0, 0, 1⟩) = false ∧ Instr.wellFormed (.find hd ⟨0, 1, 0, 0, 0, 4294967296, 0, 1⟩) = false
    ∧ Instr.wellFormed (.find hd ⟨0, 1, 0, 0, 0, 0, 256, 1⟩) = false ∧ Instr.wellFormed (.find hd ⟨0, 1, 0, 0, 0, 0, 0, 1⟩) = true := by
  decide

theorem test_wellFormed_messages :
    Instr.wellFormed (.sample 0 256 0 0) = false ∧ Instr.wellFormed (.sample 0 0 32768 0) = false
    ∧ Instr.wellFormed (.sample 0 0 (-32769) 0) = false ∧ Instr.wellFormed (.sample 0 0 0 256) = false
    ∧ Instr.wellFormed (.arrived 0 256) = false ∧ Instr.wellFormed (.lifted 0 0 65536) = false
    ∧ Instr.wellFormed (.stopped 0 0 256) = false ∧ Instr.wellFormed (.fault 0 0 256 0) = false
    ∧ Instr.wellFormed (.unknownTypeByte false 3#8) = false ∧ Instr.wellFormed (.invalidCommand hd 256) = false
    ∧ Instr.wellFormed (.sample 0 255 (-32768) 255) = true ∧ Instr.wellFormed (.fault 2 255 255 255) = true := by decide

/-! ## Encodings written out from the spec's tables (R213, R217 to R219) -/

/-- READ BED of bed 11, tag 42: length 6, tag, flags, code 0x28, the bed, and the check. -/
theorem test_commandFrame_readBed :
    commandFrame hd (commandCode (.readBed 11)) [11#8] = [6#8, 42#8, 0#8, 0x28#8, 11#8, 0x9D#8] := by decide

/-- Bits 15 to 10 of a handle are its generation, bits 9 to 0 its slot. -/
theorem test_handleBytes : handleBytes ⟨0x155, 0x2A⟩ = [0xA9#8, 0x55#8] := by decide

/-- The mark of one character is followed by blanks; a blank inside a mark makes it no mark. -/
theorem test_validMark : validMark (38 ^ 7) = true ∧ validMark (38 ^ 8 - 1) = true ∧ validMark 0 = false ∧ validMark 1 = false
    ∧ validMark (38 ^ 7 + 38 ^ 5) = false ∧ validMark (38 ^ 8) = false := by decide

/-- R218: RESTORE BED of B4 in CURING at 0x1000 mu, segment 1 with 5 minutes, QC on position 0 and CURE on position 1. The bits
between the segment index and the minutes are not examined (log 24). -/
theorem test_restoreBedParams :
    commandParams (.restoreBed 3 4 0x1000 1 5 [1, 8, 0, 0, 0, 0, 0, 0] [])
      = [0x34#8, 0x00#8, 0x00#8, 0x10#8, 0x00#8, 0x20#8, 0x05#8, 0x18#8, 0x00#8, 0x00#8, 0x00#8]
    ∧ parseCommand 0x07 [0x34#8, 0x00#8, 0x00#8, 0x10#8, 0x00#8, 0x38#8, 0x05#8, 0x18#8, 0x00#8, 0x00#8, 0x00#8]
      = some (.restoreBed 3 4 0x1000 1 5 [1, 8, 0, 0, 0, 0, 0, 0] []) := by decide

/-- R218: a mark word is the class in the top 5 bits, a 0 bit, and the mark number in base 38. -/
theorem test_markWord :
    commandParams (.lookupMark ⟨0, false, 38 ^ 7⟩) = [0x00#8, 0x1A#8, 0xA3#8, 0xB3#8, 0x3D#8, 0x80#8]
    ∧ commandParams (.cast 2 [⟨31, false, 1⟩]) = [0x02#8, 0xF8#8, 0x00#8, 0x00#8, 0x00#8, 0x00#8, 0x01#8] := by decide

/-- R218: READ PLAN packs the modes, the plan state with the segment index, and the two counts. -/
theorem test_planFields :
    planFields { HeatRecord.reset with
        requested := .mat, running := .off, transition := .settle, minutes := 1, swapPending := true
        run := [⟨100, 0x0102⟩, ⟨50, 7⟩], next := [⟨0, 1⟩], plan := .running, segIndex := 1, segMinutes := 7, lastOrder := ⟨.settle, 50⟩ } true
      = [0x8B#8, 1#8, 0x81#8, 0#8, 7#8, 0x21#8, 2#8, 50#8, 100#8, 1#8, 2#8, 50#8, 0#8, 7#8, 0#8, 0#8, 1#8] := by decide

/-- The no-result frame sums to 0. -/
theorem test_noResultFrame : byteSum noResultFrame = 0 := by decide

/-- A TRAVEL to bay 20 with sequence 42 on the wire (10.7). -/
theorem test_travelFrame : linkFrame 0x41 42 [20#8] = [0x7E#8, 0x41#8, 42#8, 20#8, 0x81#8] := by decide

/-! ## Steps of the worked examples -/

/-- 5.2: lane L1 by its events, and the change of the thresholds. -/
theorem test_demandLevel :
    demandLevel 2 4 7 false 1 0 = 0 ∧ demandLevel 2 4 7 false 2 0 = 1 ∧ demandLevel 2 4 7 false 4 1 = 2
    ∧ demandLevel 2 4 7 false 3 2 = 2 ∧ demandLevel 2 4 7 false 7 2 = 3 ∧ demandLevel 2 4 7 false 4 3 = 3
    ∧ demandLevel 2 4 7 false 3 3 = 2 ∧ demandLevel 2 4 7 false 1 2 = 1 ∧ demandLevel 2 4 7 true 1 1 = 1
    ∧ demandLevel 2 4 7 true 0 1 = 0 ∧ demandLevel 2 4 7 true 1 0 = 1 ∧ demandLevel 2 4 7 false 1 1 = 1
    ∧ demandLevel 1 3 5 false 5 2 = 3 := by decide

/-- 4.9: −12.0 °C credits nothing, −4.0 °C credits 60, 71.0 °C credits 810 and is over the limit. -/
theorem test_sampleCredit :
    gives (.sample 0 40 (-24) 0) (fullBed .curing steaming) (fun t => decide ((t.plant.bed 0).maturity = 500)) = true
    ∧ gives (.sample 0 41 (-8) 0) (fullBed .curing steaming) (fun t => decide ((t.plant.bed 0).maturity = 560)) = true
    ∧ gives (.sample 0 47 142 0) (fullBed .curing steaming) (fun t => decide ((t.plant.bed 0).maturity = 1310)
        && (t.plant.bed 0).flags.overTemp && decide ((t.plant.heat 0).running = .off)
        && (t.plant.yard.pieceAt 1).any (fun p => p.holds.cure && decide (p.maturity = 1310))) = true := by
  decide +kernel

/-! ## What meets the hypotheses of the statements: the machine and the Command Port -/

theorem test_meets_StepRunsFrontRow : { State.reset with pending := [.portReset] }.pending = .portReset :: [] := by decide +kernel

theorem test_meets_EveryRowAnswersNext : State.reset.pending = [] := by decide +kernel

theorem test_meets_PortResetEmptiesThePort :
    State.reset.ready ∧ State.reset.plant.works.lock = false
    ∧ outcome (.lockSettings hd 1) State.reset = some 0 ∧ outcome (.lockSettings hd 2) State.reset = some 2
    ∧ gives (.lockSettings hd 1) State.reset (fun t => t.plant.works.lock) = true
    ∧ gives .portReset State.reset (fun t => decide (t.plant.works.settings = .default)) = true :=
  ⟨⟨rfl, by decide⟩, by decide +kernel⟩

/-- Eight entries behind a FIND that is being scanned: a full command queue. -/
def busyPort (n : Nat) : State := { State.reset with
  port := { Port.reset with
    commandQueue := ⟨1, 0x17, false, some (.find ⟨0, 1, 0xFF, 0, 0, 0, 0, 1⟩), .scanning⟩
      :: List.replicate n ⟨2, 0x17, false, some (.find ⟨0, 1, 0xFF, 0, 0, 0, 0, 1⟩), .waiting⟩
    scan := some ⟨⟨0, 1, 0xFF, 0, 0, 0, 0, 1⟩, 0, []⟩ } }

theorem test_meets_FramesAreQueuedOrDropped :
    frameOk [5#8, 0#8, 0#8, 1#8, 0xFA#8] = true ∧ frameOk [5#8, 0#8, 0#8, 1#8, 0xFB#8] = false ∧ frameOk [4#8, 0#8, 0#8, 0xFC#8] = false
    ∧ (busyPort 7).port.commandQueue.length = 8 ∧ (busyPort 6).port.commandQueue.length = 7
    ∧ gives (.writeFrame false [5#8, 0#8, 0#8, 1#8, 0xFA#8]) (busyPort 7) (fun t => t.port.overflow) = true
    ∧ gives (.writeFrame false [4#8, 0#8, 0#8, 0xFC#8]) (busyPort 7) (fun t => t.port.frameError && !t.port.overflow) = true
    ∧ gives (.writeFrame false [5#8, 0#8, 0#8, 2#8, 0xF9#8]) (busyPort 6) (fun t => decide (t.port.resultQueue.length = 1)) = true
    ∧ gives (.unknownTypeByte false 4#8) State.reset (fun t => t.port.frameError) = true
    ∧ gives (.unknownTypeByte false 0#8) State.reset (fun t => t.port.frameError) = true := by decide +kernel

theorem test_meets_FramesAreQueuedOrDropped_invalid :
    State.reset.ready ∧ ¬(0x17 = 0x17 ∧ State.reset.port.scan.isSome = true)
    ∧ outcome (.invalidCommand hd 0x17) State.reset = some 1 ∧ outcome (.invalidCommand hd 0) State.reset = some 1 :=
  ⟨⟨rfl, by decide⟩, by decide +kernel⟩

/-- A port with results waiting and one completed entry behind them. -/
def fullResults (n : Nat) : State := { State.reset with
  port := { Port.reset with
    commandQueue := [⟨9, 0x02, false, some .readWorks, .completed 0 [1#8, 0xFF#8]⟩]
    resultQueue := List.replicate n [0x02#8, 0xFE#8] } }

theorem test_meets_ReadTransfersShowAndClear :
    State.reset.port.resultQueue = [] ∧ (fullResults 8).port.resultQueue = [0x02#8, 0xFE#8] :: List.replicate 7 [0x02#8, 0xFE#8]
    ∧ (List.replicate 7 [0x02#8, 0xFE#8]).length < 8 ∧ 1 < [0x02#8, 0xFE#8].length ∧ [0x02#8, 0xFE#8].length ≤ 2
    ∧ gives (.readResult false 1) (fullResults 8) (fun t => decide (t.port.commandQueue.length = 1)) = true
    ∧ gives (.readResult false 2) (fullResults 8) (fun t => decide (t.port.commandQueue = [] ∧ t.port.resultQueue.length = 8)) = true
    ∧ gives (.readStatus false 2) { State.reset with port := { Port.reset with overflow := true } }
        (fun t => !t.port.overflow && decide (t.port.lastOut = [0x04#8, 0#8, 0#8])) = true := by decide +kernel

theorem test_meets_AttentionFollowsItsConditions :
    gives (.powerOn true) (fullResults 8) (fun t => !t.attention && t.statusByte.getLsbD 6) = true
    ∧ (fullResults 1).attention = true ∧ State.reset.attention = false
    ∧ (inYard (fun y => y.updCrane 2 (fun c => { c with flagProtocol := true })) State.reset).attention = true := by decide +kernel

theorem test_meets_PhasesAdmitCommands :
    State.reset.ready ∧ State.reset.plant.isClosed = true ∧ openOnly (.shipOrder 0) = true
    ∧ Instr.command? (.shipOrder hd 0) = some (hd, .shipOrder 0)
    ∧ outcome (.shipOrder hd 0) State.reset = some 0x0B ∧ outcome (.hold hd ⟨0, 0⟩ 1) State.reset = some 0x0B :=
  ⟨⟨rfl, by decide⟩, by decide +kernel⟩

theorem test_meets_PhasesAdmitCommands_open :
    stock.ready ∧ stock.plant.isClosed = false ∧ outcome (.openWorks hd) stock = some 3
    ∧ outcome (.restorePiece hd (mk 9) 400 0 2 0) stock = some 3 := ⟨⟨rfl, by decide⟩, by decide +kernel⟩

theorem test_meets_FindScansSlotBySlot :
    stock.ready ∧ stock.port.scan = none
    ∧ gives (.find hd ⟨1023, 31, 31, 6, 2, 0, 2, 8⟩) stock (fun t => t.port.scan.isSome) = true
    ∧ gives (.find hd ⟨0, 1, 0xFF, 0, 0, 0, 0, 1⟩) stock (fun t => t.port.scan.isSome) = true
    ∧ outcome (.find hd ⟨1024, 1, 0, 0, 0, 0, 0, 1⟩) stock = some 2 ∧ outcome (.find hd ⟨0, 0, 0, 0, 0, 0, 0, 1⟩) stock = some 2
    ∧ outcome (.find hd ⟨0, 32, 0, 0, 0, 0, 0, 1⟩) stock = some 2 ∧ outcome (.find hd ⟨0, 1, 32, 0, 0, 0, 0, 1⟩) stock = some 2
    ∧ outcome (.find hd ⟨0, 1, 0, 7, 0, 0, 0, 1⟩) stock = some 2 ∧ outcome (.find hd ⟨0, 1, 0, 0, 0, 0, 0, 9⟩) stock = some 2 :=
  ⟨⟨rfl, by decide⟩, by decide +kernel⟩

/-- The stock during a FIND that stands at a slot. -/
def scanning (p : FindParams) (slot : Nat) : State := { stock with
  port := { Port.reset with commandQueue := [⟨1, 0x17, false, some (.find p), .scanning⟩], scan := some ⟨p, slot, []⟩ } }

theorem test_meets_FindScansSlotBySlot_examine :
    stock.plant.yard.pieceAt 4 = none ∧ (stock.plant.yard.pieceAt 2).isSome = true
    ∧ ((⟨⟨0, 4, 0, 1, 1, 500, 2, 2⟩, 2, []⟩ : Scan).noted stock.plant.yard) = [⟨2, 0⟩]
    ∧ ((⟨⟨0, 4, 0, 1, 1, 501, 2, 2⟩, 2, []⟩ : Scan).noted stock.plant.yard) = []
    ∧ ((⟨⟨0, 8, 0, 6, 2, 501, 1, 2⟩, 2, []⟩ : Scan).noted stock.plant.yard) = []
    ∧ gives .scanExamine (scanning ⟨0, 4, 0, 1, 1, 500, 2, 2⟩ 1022) (fun t => decide (t.port.scan.map (fun c => c.slot) = some 1023)) = true
    ∧ gives .scanExamine (scanning ⟨0, 4, 0, 1, 1, 500, 2, 2⟩ 1023) (fun t => decide (t.port.scan = none)) = true
    ∧ outcome .scanExamine (scanning ⟨0, 4, 0, 1, 1, 500, 2, 1⟩ 2) = some 0 := by decide +kernel

theorem test_meets_FramesAreLaidOut : (List.replicate 59 0xFF#8).length ≤ 59 ∧ hd.tag < 256
    ∧ (commandFrame hd 0x28 [11#8]) = [6#8, 42#8, 0#8, 0x28#8, 11#8, 0x9D#8] ∧ (entryOf (commandFrame hd 0x28 [11#8])).cmd = some (.readBed 11) := by
  decide

theorem test_meets_SettingsAreTakenWhole :
    stock.ready ∧ outcome (.settings hd 1 2 80 1 2 3 1 1 1) stock = some 0 ∧ outcome (.settings hd 15 20 180 6 7 8 8 60 60) stock = some 0
    ∧ outcome (.settings hd 0 2 80 1 2 3 1 1 1) stock = some 2 ∧ outcome (.settings hd 1 3 80 1 2 3 1 1 1) stock = some 2
    ∧ outcome (.settings hd 1 2 79 1 2 3 1 1 1) stock = some 2 ∧ outcome (.settings hd 1 2 80 2 2 3 1 1 1) stock = some 2
    ∧ outcome (.settings hd 1 2 80 1 2 9 1 1 1) stock = some 2 ∧ outcome (.settings hd 1 2 80 1 2 3 9 1 1) stock = some 2
    ∧ outcome (.settings hd 1 2 80 1 2 3 1 61 1) stock = some 2 ∧ outcome (.settings hd 1 2 80 1 2 3 1 1 61) stock = some 2 :=
  ⟨⟨rfl, by decide⟩, by decide +kernel⟩

/-! ## Works Control -/

/-- CLOSED, bed 0 CURING with a loaded plan. -/
def restored : State := closedWith (fun p =>
  withBed .curing { HeatRecord.reset with run := plan2, plan := .loaded } (some ⟨0, 0⟩) none (withPieces [pc 0 (.bed 0 0)] p))

theorem test_meets_OpenWorksStartsTheWorks :
    restored.ready ∧ restored.plant.isClosed = true ∧ (restored.plant.bed 0).state = .curing ∧ (restored.plant.heat 0).plan = .loaded
    ∧ (restored.plant.heat 11).plan ≠ .loaded ∧ outcome (.openWorks hd) restored = some 0 := ⟨⟨rfl, by decide⟩, by decide +kernel⟩

theorem test_meets_OpenWorksStartsTheWorks_lawful : (restored.plant.heat 0).lawful true restored.plant.works.stop := by
  unfold HeatRecord.lawful; decide +kernel

theorem test_meets_SenseTakesOneItem :
    stock.ready ∧ (moving (shift .done) (.reset 32)).ready ∧ outcome (.sense hd) stock = some 0
    ∧ (inYard (fun y => { y with finished := [0] }) (moving (shift .done) (.reset 32))).plant.yard.finished = 0 :: []
    ∧ ((moving (shift .done) (.reset 32)).plant.yard.ticketAt 0).isSome = true
    ∧ gives (.sense hd) (inYard (fun y => { y with finished := [0] }) (moving (shift .done) (.reset 32)))
        (fun t => decide (t.plant.yard.finished = [] ∧ t.plant.yard.ticketAt 0 = none)) = true
    ∧ gives (.sense hd) (openWith (fun p => p.updBed 11 (fun b => { b with flags := ⟨true, true, true, true, true⟩ })))
        (fun t => decide ((t.plant.bed 11).flags = .none)) = true
    ∧ gives (.sense hd) (inYard (fun y => y.updCrane 2 (fun c => { c with flagFault := true })) stock)
        (fun t => decide (t.plant.yard.crane 2 = stock.plant.yard.crane 2)) = true
    ∧ gives (.sense hd) (inYard (fun y => y.updTruck 3 (fun r => { r with flagChanged := true })) stock)
        (fun t => decide (t.plant.yard.truck 3 = stock.plant.yard.truck 3)) = true :=
  ⟨⟨rfl, by decide⟩, ⟨rfl, by decide⟩, by decide +kernel⟩

/-- CLOSED, bed 0 VACANT with two positions and a NEXT plan, class 0 defined. -/
def vacantClosed : State := closedWith (fun p => withBed .vacant { HeatRecord.reset with next := plan2 } none none (withClass 0 p))

theorem test_meets_RestoreBedFillsTheBed :
    vacantClosed.ready ∧ vacantClosed.plant.isClosed = true ∧ (vacantClosed.plant.bed 0).configured = true
    ∧ (vacantClosed.plant.bed 0).state = .vacant ∧ (vacantClosed.plant.bed 0).positions = 2 ∧ (vacantClosed.plant.heat 0).next ≠ []
    ∧ (vacantClosed.plant.heat 0).next[1]? = some ⟨80, 30⟩ ∧ markWithClass (mk 1) = true ∧ 2 ≤ vacantClosed.plant.yard.freePieceCount
    ∧ outcome (.restoreBed hd 1 0 0 0 0 (List.replicate 8 0) [mk 0, mk 0]) vacantClosed = some 0
    ∧ outcome (.restoreBed hd 2 0 0 0 0 (List.replicate 8 0) [mk 1, mk 2]) vacantClosed = some 0
    ∧ outcome (.restoreBed hd 3 0 0 1 30 (List.replicate 8 0) [mk 1, mk 2]) vacantClosed = some 0
    ∧ outcome (.restoreBed hd 3 0 0 0 0 (List.replicate 8 0) [mk 1, mk 2]) vacantClosed = some 0
    ∧ outcome (.restoreBed hd 4 0 400 0 0 (List.replicate 8 15) [mk 1, mk 2]) vacantClosed = some 0
    ∧ outcome (.restoreBed hd 5 0 400 0 0 (List.replicate 8 0) [mk 0, mk 2]) vacantClosed = some 0 :=
  ⟨⟨rfl, by decide⟩, by decide +kernel⟩

/-- CLOSED, lane 1 and stack 39 defined, class 0 defined. -/
def holdersClosed : State := closedWith (fun p => (withClass 0 p).updYard (fun y =>
  (y.updLane 1 (fun r => { r with defined := true, bay := 8 })).updStack 39 (fun r =>
    { r with state := .opened, bay := 10, tiers := 1, limit := 50 })))

theorem test_meets_RestorePieceFillsTheHolder :
    holdersClosed.ready ∧ holdersClosed.plant.isClosed = true ∧ (holdersClosed.plant.yard.lane 1).defined = true
    ∧ placementClass holdersClosed.plant.site holdersClosed.plant.yard 39 (holdersClosed.plant.cls 0) = none
    ∧ holdersClosed.plant.yard.pieceAt 0 = none ∧ markSlot holdersClosed.plant.markMap (mk 1).number = none
    ∧ outcome (.restorePiece hd (mk 1) 400 15 2 1) holdersClosed = some 0
    ∧ outcome (.restorePiece hd (mk 1) 400 0 3 39) holdersClosed = some 0 := ⟨⟨rfl, by decide⟩, by decide +kernel⟩

theorem test_meets_PlantStopTakesHeatAndCranesOutOfMotion :
    stock.plant.isClosed = false ∧ stock.plant.works.stop = false ∧ State.reset.plant.isClosed = true
    ∧ (stopOn stock).plant.works.stop = true
    ∧ ((moving (shift .granted) (atWork .travel)).plant.yard.crane 1).state = .busy
    ∧ currentTicket (moving (shift .granted) (atWork .travel)).plant.yard 1 = some (0, shift .granted)
    ∧ gives .plantStopAsserted (moving (shift .granted) (atWork .travel)) (fun t =>
        decide ((t.plant.yard.crane 1).state = .stopped ∧ (t.plant.yard.crane 1).current = none)) = true
    ∧ gives .plantStopAsserted (moving (shift .lifted) (atWork .travel)) (fun t =>
        decide ((t.plant.yard.crane 1).state = .stopped ∧ (t.plant.yard.crane 1).current = some ⟨0, 0⟩)) = true
    ∧ gives .plantStopAsserted (inYard (fun y => y.updCrane 0 (fun c => { c with state := .homing })) stock) (fun t =>
        decide ((t.plant.yard.crane 0).state = .unhomed ∧ (t.plant.yard.crane 0).stopOrder = some 0)) = true
    ∧ gives .plantStopAsserted (fullBed .curing steaming) (fun t =>
        decide ((t.plant.heat 0).running = .off ∧ (t.plant.heat 0).requested = .steam)) = true := by decide +kernel

theorem test_meets_PlantStopReleaseStartsThemAgain :
    (stopOn stock).plant.isClosed = false ∧ (stopOn stock).plant.works.stop = true
    ∧ (stopOn (fullBed .curing { steaming with running := .off })).plant.works.stop = true
    ∧ ((stopOn (fullBed .curing { steaming with running := .off })).plant.heat 0).requested = .steam
    ∧ ((moving (shift .lifted) { atWork .travel with state := .stopped }).plant.yard.crane 1).current.isSome = true
    ∧ ((moving (shift .ready) { CraneRecord.reset 32 with state := .stopped, stopOrder := some 9 }).plant.yard.crane 1).current = none := by
  decide +kernel

theorem test_meets_ClockAdvanceCountsAtEveryBed :
    (fullBed .curing steaming).plant.isClosed = false ∧ ((fullBed .curing steaming).plant.intakeOf 0).state ≠ .lost
    ∧ ((fullBed .curing steaming).plant.intakeOf 0).gapCount + 1 < 2 * (fullBed .curing steaming).plant.works.settings.period
    ∧ ((fullBed .curing { steaming with running := .off, transition := .purge, minutes := 2 }).plant.heat 0).running = .off
    ∧ segmentCounts false ((fullBed .curing { steaming with segMinutes := 2 }).plant.bed 0)
        ((fullBed .curing { steaming with segMinutes := 2 }).plant.heat 0) = true
    ∧ 6 * 5 ≤ 29 + 1 ∧ 2 * 5 ≤ 9 + 1 ∧ 9 + 1 < 6 * 5 := by decide +kernel

/-! ## Pieces and classes -/

theorem test_meets_LookupMarkAnswersTheHandle :
    stock.ready ∧ (∀ i, i < 8 → (mk 3).number / 38 ^ (7 - i) % 38 = if i = 0 then 3 else 0)
    ∧ ((mk 3).number, 2) ∈ stock.plant.markMap ∧ (stock.plant.markMap.map (fun e => e.1)).Nodup
    ∧ (∀ e ∈ stock.plant.markMap, e.1 ≠ (mk 37).number)
    ∧ outcome (.lookupMark hd (mk 3)) stock = some 0 ∧ outcome (.lookupMark hd (mk 37)) stock = some 0x0C
    ∧ outcome (.lookupMark hd ⟨1, false, 38 ^ 7⟩) stock = some 2 ∧ outcome (.lookupMark hd ⟨0, true, 38 ^ 7⟩) stock = some 2
    ∧ outcome (.lookupMark hd (mk 38)) stock = some 2 ∧ outcome (.lookupMark hd (mk 0)) stock = some 2 := ⟨⟨rfl, by decide⟩, by decide +kernel⟩

theorem test_meets_DefineClassWritesTheEntry :
    stock.ready ∧ 0 < (stock.plant.cls 0).liveCount ∧ (stock.plant.cls 31).liveCount = 0
    ∧ outcome (.defineClass hd 31 1 10 1 0 1) stock = some 0 ∧ outcome (.defineClass hd 31 1 400 600 4294967295 8) stock = some 0
    ∧ outcome (.defineClass hd 31 0 0 0 0 0) stock = some 0 ∧ outcome (.defineClass hd 0 1 10 1 0 1) stock = some 0x0E
    ∧ outcome (.defineClass hd 32 1 10 1 0 1) stock = some 2 ∧ outcome (.defineClass hd 31 1 9 1 0 1) stock = some 2
    ∧ outcome (.defineClass hd 31 1 10 601 0 1) stock = some 2 ∧ outcome (.defineClass hd 31 1 10 1 0 9) stock = some 2 :=
  ⟨⟨rfl, by decide⟩, by decide +kernel⟩

/-- Truck 1 with an OPEN order of piece 2, its PICK in slot 0 in a state, crane 1 with it. -/
def picking (st : TicketState) (c : CraneRecord) : State :=
  inYard (fun y =>
    (((((y.placeTicket 0 ⟨.pick, some ⟨2, 0⟩, some (.lane 0), some (.truck 1), 0, 0, false, false, some 1, none, some 1, st,
        false, false, .none, .none, false⟩).updPiece 2 (fun p => { p with order := some 1, ticket := some ⟨0, 0⟩ })).updTruck
      1 (fun r => { r with state := .opened, orderList := [⟨2, 0⟩], currentPick := some ⟨0, 0⟩ })).updCrane 1 (fun _ => c)).setClaim
      1 (some ⟨5, 60⟩))) stock

/-- The order listed without a ticket for the piece. -/
def listed : State := inYard (fun y => (y.updPiece 2 (fun p => { p with order := some 1 })).updTruck
  1 (fun r => { r with state := .opened, orderList := [⟨2, 0⟩], nextIndex := 0 })) stock

theorem test_meets_HoldBarsThePiece :
    stock.ready ∧ (picking .lifting (atWork .lift)).ready ∧ stock.plant.isClosed = false
    ∧ stock.plant.yard.piece? ⟨0, 1⟩ = none ∧ (stock.plant.yard.piece? ⟨0, 0⟩).isSome = true
    ∧ (picking .setting (atWork .lower)).plant.yard.piece? ⟨2, 0⟩ = some { pc 2 (.lane 0) with order := some 1, ticket := some ⟨0, 0⟩ }
    ∧ pickSetting (picking .setting (atWork .lower)).plant.yard { pc 2 (.lane 0) with order := some 1, ticket := some ⟨0, 0⟩ } = true
    ∧ outcome (.hold hd ⟨0, 1⟩ 1) stock = some 7 ∧ outcome (.hold hd ⟨0, 0⟩ 3) stock = some 2 ∧ outcome (.hold hd ⟨0, 0⟩ 0) stock = some 2
    ∧ outcome (.hold hd ⟨3, 0⟩ 1) stock = some 3 ∧ outcome (.hold hd ⟨2, 0⟩ 1) (picking .setting (atWork .lower)) = some 0x0A
    ∧ gives (.hold hd ⟨2, 0⟩ 2) (picking .lifting (atWork .lift)) (fun t => (t.plant.yard.ticketAt 0).any (fun u => u.holdPending)
        && decide ((t.plant.yard.truck 1).orderList = [])) = true
    ∧ gives (.hold hd ⟨2, 0⟩ 1) (picking .granted (atWork .travel)) (fun t => (t.plant.yard.ticketAt 0).any (fun u =>
        decide (u.state = .cancelled ∧ u.outcome = .withdrawn)) && decide (t.plant.yard.finished = [0])) = true
    ∧ gives (.hold hd ⟨2, 0⟩ 1) (picking .lifted (atWork .travel)) (fun t => (t.plant.yard.ticketAt 0).any (fun u =>
        decide (u.state = .lifted ∧ u.dest = some (.stack 0) ∧ u.redirected = true))) = true :=
  ⟨⟨rfl, by decide⟩, ⟨rfl, by decide⟩, by decide +kernel⟩

theorem test_meets_ReleaseHoldRemovesTheHold :
    stock.ready ∧ State.reset.ready ∧ outcome (.releaseHold hd ⟨0, 0⟩ 1) State.reset = some 0x0B
    ∧ outcome (.releaseHold hd ⟨0, 0⟩ 15) stock = some 0 ∧ outcome (.releaseHold hd ⟨0, 0⟩ 3) stock = some 2
    ∧ outcome (.releaseHold hd ⟨4, 0⟩ 1) stock = some 7
    ∧ gives (.releaseHold hd ⟨0, 0⟩ 8) (inYard (fun y => y.updPiece 0 (fun p => { p with holds := ⟨true, true, true, true⟩ })) stock)
        (fun t => (t.plant.yard.pieceAt 0).any (fun p => decide (p.holds = ⟨true, true, true, false⟩))) = true :=
  ⟨⟨rfl, by decide⟩, ⟨rfl, by decide⟩, by decide +kernel⟩

theorem test_meets_ScrapPieceRetiresTheRecord :
    stock.ready ∧ outcome (.scrapPiece hd ⟨1, 0⟩) stock = some 0 ∧ outcome (.scrapPiece hd ⟨2, 0⟩) stock = some 0
    ∧ outcome (.scrapPiece hd ⟨0, 0⟩) stock = some 3 ∧ outcome (.scrapPiece hd ⟨0, 63⟩) stock = some 7
    ∧ outcome (.scrapPiece hd ⟨2, 0⟩) listed = some 0x0E
    ∧ outcome (.scrapPiece hd ⟨1, 0⟩) (moving (shift .ready) (.reset 32)) = some 0x0A
    ∧ gives (.scrapPiece hd ⟨3, 0⟩) stock (fun t => decide ((t.plant.yard.truck 0).state = .free ∧ t.plant.yard.pieceSlot 3 = ⟨1, none⟩
        ∧ (t.plant.cls 0).liveCount = 3)) = true
    ∧ outcome (.scrapPiece hd ⟨0, 0⟩) (openWith (fun p => (withPieces [pc 0 (.hook 2)] p).updYard (fun y =>
        y.updCrane 2 (fun c => { c with hook := some ⟨0, 0⟩ })))) = some 0 := ⟨⟨rfl, by decide⟩, by decide +kernel⟩

/-! ## Beds, heat and samples -/

theorem test_meets_ConfigureBedWritesTheRecord :
    State.reset.ready ∧ (State.reset.plant.bed 11).state = .vacant ∧ (fullBed .cast .reset).ready
    ∧ outcome (.configureBed hd 11 63 8 190) State.reset = some 0 ∧ outcome (.configureBed hd 0 0 1 0) State.reset = some 0
    ∧ outcome (.configureBed hd 12 0 1 0) State.reset = some 2 ∧ outcome (.configureBed hd 0 64 1 0) State.reset = some 2
    ∧ outcome (.configureBed hd 0 0 9 0) State.reset = some 2 ∧ outcome (.configureBed hd 0 0 1 191) State.reset = some 2
    ∧ outcome (.configureBed hd 0 0 1 0) (fullBed .cast .reset) = some 3 := ⟨⟨rfl, by decide⟩, by decide, ⟨rfl, by decide⟩, by decide +kernel⟩

theorem test_meets_BedCycleCommandsMoveTheBed :
    (emptyBed .vacant .reset).ready ∧ (emptyBed .vacant .reset).plant.isClosed = false
    ∧ outcome (.prepareBed hd 12) (emptyBed .vacant .reset) = some 2 ∧ outcome (.prepareBed hd 0) (emptyBed .vacant .reset) = some 0
    ∧ outcome (.prepareBed hd 11) (emptyBed .vacant .reset) = some 3 ∧ outcome (.abandonBed hd 0) (emptyBed .set .reset) = some 0
    ∧ outcome (.abandonBed hd 0) (emptyBed .vacant .reset) = some 3 ∧ outcome (.startCure hd 0) (fullBed .cast .reset) = some 3
    ∧ outcome (.startCure hd 0) (fullBed .cast { HeatRecord.reset with next := plan2 }) = some 0
    ∧ outcome (.startCure hd 0) (fullBed .cast { HeatRecord.reset with run := plan2, plan := .loaded }) = some 0 :=
  ⟨⟨rfl, by decide⟩, by decide +kernel⟩

theorem test_meets_CastFillsTheBed :
    (emptyBed .set .reset).ready ∧ ((emptyBed .set .reset).plant.bed 0).positions = 2 ∧ ((emptyBed .set .reset).plant.cls 0).defined = true
    ∧ ([mk 1, mk 2].map (fun m => m.number)).Nodup ∧ 2 ≤ (emptyBed .set .reset).plant.yard.freePieceCount
    ∧ outcome (.cast hd 0 [mk 1, mk 2]) (emptyBed .set .reset) = some 0 ∧ outcome (.cast hd 0 [mk 1]) (emptyBed .set .reset) = some 2
    ∧ outcome (.cast hd 0 [mk 1, mk 1]) (emptyBed .set .reset) = some 6 := ⟨⟨rfl, by decide⟩, by decide +kernel⟩

theorem test_meets_ReleaseStrandFreesTheBed :
    (fullBed .curing resting).ready ∧ outcome (.releaseStrand hd 0) (fullBed .curing resting) = some 0
    ∧ outcome (.releaseStrand hd 0) (fullBed .curing { HeatRecord.reset with plan := .complete }) = some 0
    ∧ outcome (.releaseStrand hd 0) (fullBed .curing steaming) = some 3
    ∧ outcome (.releaseStrand hd 0) (fullBed .curing { resting with requested := .mat, transition := .settle, minutes := 1 }) = some 4
    ∧ outcome (.releaseStrand hd 0) (inYard (fun y => y.updPiece 1 (fun p => { p with holds := ⟨false, false, false, true⟩ }))
        (fullBed .curing resting)) = some 8
    ∧ outcome (.releaseStrand hd 0) (inYard (fun y => y.updPiece 0 (fun p => { p with maturity := 399 })) (fullBed .curing resting)) = some 0x10
    ∧ outcome (.bedPriority hd 11 3) (fullBed .curing resting) = some 0 ∧ outcome (.bedPriority hd 0 4) (fullBed .curing resting) = some 2 :=
  ⟨⟨rfl, by decide⟩, by decide +kernel⟩

theorem test_meets_ScrapBedRetiresThePour :
    (fullBed .curing steaming).ready ∧ outcome (.scrapBed hd 0) (fullBed .curing steaming) = some 0
    ∧ outcome (.scrapBed hd 0) (fullBed .cast .reset) = some 0 ∧ outcome (.scrapBed hd 0) (fullBed .released .reset) = some 3
    ∧ outcome (.scrapBed hd 0) (inYard (fun y => y.updPiece 1 (fun p => { p with ticket := some ⟨0, 0⟩ })) (fullBed .curing steaming)) = some 0x0A :=
  ⟨⟨rfl, by decide⟩, by decide +kernel⟩

theorem test_meets_HeatOrderFollowsTheTable :
    formOrder ((fullBed .curing steaming).plant.bed 0) steaming = ⟨.steam, 100⟩
    ∧ formOrder ((fullBed .cast steaming).plant.bed 0) { steaming with running := .off, transition := .purge, minutes := 5 } = ⟨.purge, 60⟩
    ∧ formOrder ((fullBed .cast steaming).plant.bed 0) { steaming with running := .off, transition := .settle, minutes := 1 } = ⟨.settle, 60⟩
    ∧ formOrder ((fullBed .curing steaming).plant.bed 0) { steaming with running := .mat, segIndex := 1 } = ⟨.mat, 80⟩
    ∧ formOrder ((fullBed .released steaming).plant.bed 0) steaming = ⟨.off, 0⟩ ∧ formOrder ((fullBed .curing steaming).plant.bed 0) resting = ⟨.off, 0⟩ := by
  decide +kernel

theorem test_meets_HeatModeTakesTheRequest :
    (fullBed .curing resting).ready ∧ (fullBed .curing resting).plant.isClosed = false
    ∧ outcome (.heatMode hd 12 0) (fullBed .curing resting) = some 2 ∧ outcome (.heatMode hd 0 3) (fullBed .curing resting) = some 2
    ∧ outcome (.heatMode hd 0 0) (fullBed .curing steaming) = some 0 ∧ outcome (.heatMode hd 0 1) (fullBed .curing resting) = some 0
    ∧ outcome (.heatMode hd 0 2) (fullBed .curing steaming) = some 0 ∧ outcome (.heatMode hd 0 2) (stopOn (fullBed .curing resting)) = some 0
    ∧ outcome (.heatMode hd 0 1) (fullBed .released resting) = some 3 ∧ outcome (.heatMode hd 0 1) (fullBed .curing .reset) = some 3
    ∧ outcome (.heatMode hd 0 1) (fullBed .cast { HeatRecord.reset with requested := .mat, transition := .settle, minutes := 1 }) = some 4 :=
  ⟨⟨rfl, by decide⟩, by decide +kernel⟩

theorem test_meets_LoadPlanWritesNext :
    State.reset.ready ∧ outcome (.loadPlan hd 11 (List.replicate 8 ⟨190, 1440⟩)) State.reset = some 0
    ∧ outcome (.loadPlan hd 0 [⟨0, 1⟩]) State.reset = some 0 ∧ outcome (.loadPlan hd 0 []) State.reset = some 2
    ∧ outcome (.loadPlan hd 0 (List.replicate 9 ⟨0, 1⟩)) State.reset = some 2 ∧ outcome (.loadPlan hd 0 [⟨191, 1⟩]) State.reset = some 2
    ∧ outcome (.loadPlan hd 0 [⟨0, 0⟩]) State.reset = some 2 ∧ outcome (.loadPlan hd 0 [⟨0, 1441⟩]) State.reset = some 2
    ∧ outcome (.loadPlan hd 12 [⟨0, 1⟩]) State.reset = some 2 := ⟨⟨rfl, by decide⟩, by decide +kernel⟩

theorem test_meets_PlanCommandsMoveThePlan :
    (fullBed .curing { steaming with next := plan2 }).ready ∧ outcome (.swapPlan hd 12) (fullBed .curing steaming) = some 2
    ∧ outcome (.swapPlan hd 0) (fullBed .curing steaming) = some 3 ∧ outcome (.swapPlan hd 0) (fullBed .curing { steaming with next := plan2 }) = some 0
    ∧ outcome (.swapPlan hd 0) (emptyBed .vacant { HeatRecord.reset with next := plan2 }) = some 0
    ∧ outcome (.swapPlan hd 0) (fullBed .curing { HeatRecord.reset with next := plan2, plan := .complete }) = some 0
    ∧ outcome (.stopCure hd 0) (fullBed .curing steaming) = some 0 ∧ outcome (.stopCure hd 0) (fullBed .cast steaming) = some 3 :=
  ⟨⟨rfl, by decide⟩, by decide +kernel⟩

theorem test_meets_HeatTimersEndTransitionsAndSegments :
    formOrder ((fullBed .curing steaming).plant.bed 0) ((fullBed .curing steaming).plant.heat 0) = ((fullBed .curing steaming).plant.heat 0).lastOrder
    ∧ gives (.transitionEnd 0) (fullBed .curing { steaming with running := .off, transition := .purge, minutes := 1, lastOrder := ⟨.purge, 100⟩ })
        (fun t => decide (t.plant.heat 0 = steaming)) = true
    ∧ formOrder ((fullBed .curing steaming).plant.bed 0) { steaming with running := .off, transition := .purge, minutes := 1 } = ⟨.purge, 100⟩
    ∧ gives (.segmentEnd 0) (fullBed .curing steaming) (fun t => decide ((t.plant.heat 0).segIndex = 1 ∧ (t.plant.heat 0).segMinutes = 30
        ∧ (t.plant.heat 0).lastOrder = ⟨.steam, 80⟩)) = true
    ∧ gives (.segmentEnd 0) (fullBed .curing { steaming with segIndex := 1, lastOrder := ⟨.steam, 80⟩ }) (fun t =>
        decide ((t.plant.heat 0).plan = .complete) && (t.plant.bed 0).flags.planDone) = true
    ∧ gives (.segmentEnd 0) (fullBed .curing { steaming with next := [⟨0, 9⟩], swapPending := true }) (fun t =>
        decide ((t.plant.heat 0).run = [⟨0, 9⟩] ∧ (t.plant.heat 0).segMinutes = 9)) = true
    ∧ gives (.segmentEnd 0) (fullBed .curing { steaming with segMinutes := 2 }) (fun t => decide ((t.plant.heat 0).segMinutes = 2)) = true := by
  decide +kernel

/-- Bed 0 CURING with its gap count. -/
def silent (st : SampleState) (n : Nat) : State :=
  { fullBed .curing steaming with
    plant := (fullBed .curing steaming).plant.updIntake 0 (fun r => { r with state := st, gapCount := n, lastSeq := some 41 }) }

/-- The records of bed 0 are those of the state. -/
def sameBed (s t : State) : Bool :=
  decide (t.plant.bed 0 = s.plant.bed 0 ∧ t.plant.heat 0 = s.plant.heat 0 ∧ t.plant.intakeOf 0 = s.plant.intakeOf 0)

theorem test_meets_ExpiriesFollowTheGapCount :
    (silent .ok 9).plant.isClosed = false
    ∧ gives (.gapExpiry 0) (silent .ok 8) (sameBed (silent .ok 8)) = true
    ∧ gives (.gapExpiry 0) (silent .ok 9) (fun t => decide ((t.plant.intakeOf 0).state = .gap) && (t.plant.bed 0).flags.gap) = true
    ∧ gives (.gapExpiry 0) (silent .ok 28) (fun t => decide ((t.plant.intakeOf 0).state = .gap)) = true
    ∧ gives (.gapExpiry 0) (silent .ok 29) (sameBed (silent .ok 29)) = true
    ∧ gives (.lostExpiry 0) (silent .gap 28) (sameBed (silent .gap 28)) = true
    ∧ gives (.lostExpiry 0) (silent .gap 29) (fun t => decide ((t.plant.heat 0).running = .off) && (t.plant.bed 0).flags.lost
        && (t.plant.yard.pieceAt 0).any (fun p => p.holds.cure)) = true
    ∧ gives (.lostExpiry 11) (openWith (fun p => p.updIntake 11 (fun r => { r with gapCount := 29 })))
        (fun t => decide ((t.plant.bed 11).flags = .none ∧ (t.plant.intakeOf 11).state = .lost)) = true := by decide +kernel

theorem test_meets_SamplesCreditMaturity :
    (silent .gap 12).plant.isClosed = false ∧ ((silent .gap 12).plant.intakeOf 0).lastSeq ≠ some 42
    ∧ gives (.sample 0 41 0 0) (silent .gap 12) (sameBed (silent .gap 12)) = true
    ∧ gives (.sample 0 42 (-81) 0) (silent .gap 12) (sameBed (silent .gap 12)) = true
    ∧ gives (.sample 0 42 191 0) (silent .gap 12) (sameBed (silent .gap 12)) = true
    ∧ gives (.sample 0 42 0 2) (silent .gap 12) (sameBed (silent .gap 12)) = true
    ∧ gives (.sample 0 42 (-80) 1) (silent .gap 12) (fun t => (t.plant.bed 0).flags.unitFault && decide ((t.plant.heat 0).requested = .off)) = true
    ∧ gives (.sample 0 42 140 0) (silent .gap 12) (fun t => !(t.plant.bed 0).flags.overTemp && decide ((t.plant.intakeOf 0).state = .ok)) = true
    ∧ gives (.sample 0 42 190 0) (silent .gap 12) (fun t => (t.plant.bed 0).flags.overTemp) = true := by decide +kernel

/-! ## The yard links -/

theorem test_meets_LinesCarryTheirFrames :
    stock.plant.isClosed = false ∧ (∀ x ∈ [0x7F#8, 0#8], x ≠ 0x7E#8) ∧ byteSum [0x22#8, 1#8] ≠ 0
    ∧ linkPayload 0x41 = some (([20#8] : List Byte).length + 1) ∧ linkPayload 0x61 = some 1 ∧ 1 ≠ ([20#8] : List Byte).length + 1
    ∧ gives (.bedLineMessageDropped 0 (0#8 :: linkFrame 0x22 42 [0xFF#8, 0xF8#8, 0#8])) (silent .ok 3)
        (fun t => decide ((t.plant.bed 0).maturity = 560)) = true
    ∧ gives (.craneMessageDropped 1 (linkFrame 0x41 7 [20#8])) stock (fun t => (t.plant.yard.crane 1).flagProtocol) = true
    ∧ (BedLine.reset.put ⟨.steam, 100⟩).writing = some (linkFrame 0x21 1 [3#8, 100#8])
    ∧ gives (.heatOrderWrite 0) { fullBed .curing steaming with
        plant := (fullBed .curing steaming).plant.updBedLine 0 (fun l => { l with writing := some [], waiting := some ⟨.steam, 100⟩ }) }
        (fun t => decide ((t.plant.bedLine 0).heatCount = 1 ∧ (t.plant.bedLine 0).waiting = none)) = true
    ∧ gives (.craneOrderWrite 2) (inYard (fun y => y.updLink 2 (fun _ => ⟨some [1#8], [[2#8]]⟩)) stock)
        (fun t => decide (t.plant.yard.link 2 = ⟨some [2#8], []⟩)) = true := by decide +kernel

/-! ## The Stock Map -/

theorem test_meets_DemandLevelRisesAndFalls : 1 ≤ 1 ∧ 1 < 2 ∧ 2 < 3 ∧ 6 < 7 ∧ 7 < 8 ∧ demandLevel 6 7 8 false 5 0 = 0
    ∧ demandLevel 6 7 8 false 6 2 = 2 ∧ demandLevel 6 7 8 false 7 3 = 3 ∧ demandLevel 6 7 8 true 1 0 = 1 := by decide

theorem test_meets_PlacementTestTakesItsConditionsInOrder :
    placement stock.plant.site stock.plant.yard 2 ⟨2, 0⟩ = some .state ∧ placement stock.plant.site stock.plant.yard 0 ⟨2, 0⟩ = none
    ∧ placement stock.plant.site (stock.plant.yard.updStack 0 (fun r => { r with digLock := true })) 0 ⟨2, 0⟩ = some .state
    ∧ placement stock.plant.site (stock.plant.yard.updStack 0 (fun r => { r with claims := List.replicate 4 ⟨.lift, ⟨23, 0⟩⟩ })) 0 ⟨2, 0⟩ = some .full
    ∧ placement stock.plant.site (stock.plant.yard.updStack 0 (fun r => { r with tiers := 2 })) 0 ⟨2, 0⟩ = some .placement
    ∧ placement stock.plant.site (stock.plant.yard.updStack 0 (fun r => { r with limit := 149 })) 0 ⟨2, 0⟩ = some .placement
    ∧ placement stock.plant.site (stock.plant.yard.updStack 0 (fun r => { r with tiers := 3, limit := 150 })) 0 ⟨2, 0⟩ = none := by decide +kernel

theorem test_meets_StockCommandsWriteTheirRecords :
    stock.ready ∧ stock.plant.isClosed = false ∧ outcome (.defineStack hd 39 1 63 8 4000) stock = some 0
    ∧ outcome (.defineStack hd 39 1 0 1 1) stock = some 0 ∧ outcome (.defineStack hd 1 0 99 99 0) stock = some 0
    ∧ outcome (.defineStack hd 40 0 0 0 0) stock = some 2 ∧ outcome (.defineStack hd 39 1 64 1 1) stock = some 2
    ∧ outcome (.defineStack hd 39 1 0 0 1) stock = some 2 ∧ outcome (.defineStack hd 39 1 0 1 4001) stock = some 2
    ∧ outcome (.defineStack hd 0 0 0 0 0) stock = some 0x0E ∧ outcome (.defineLane hd 1 1 63) stock = some 0
    ∧ outcome (.defineLane hd 1 0 64) stock = some 0 ∧ outcome (.defineLane hd 2 0 0) stock = some 2 ∧ outcome (.defineLane hd 1 1 64) stock = some 2
    ∧ outcome (.defineLane hd 0 1 0) stock = some 0x0E :=
  ⟨⟨rfl, by decide⟩, by decide +kernel⟩

theorem test_meets_StockCommandsWriteTheirRecords_open :
    stock.ready ∧ stock.plant.isClosed = false ∧ outcome (.closeStack hd 0) stock = some 0 ∧ outcome (.openStack hd 1) stock = some 0
    ∧ outcome (.closeStack hd 40) stock = some 2 ∧ outcome (.openStack hd 39) stock = some 3 ∧ outcome (.drainLane hd 1 1) stock = some 0
    ∧ outcome (.drainLane hd 2 1) stock = some 2 ∧ outcome (.drainLane hd 0 0) stock = some 0
    ∧ outcome (.drainLane hd 0 0) (openWith id) = some 3
    ∧ gives (.drainLane hd 0 1) stock (fun t => decide ((t.plant.yard.lane 0).demand = 1)) = true := ⟨⟨rfl, by decide⟩, by decide +kernel⟩

theorem test_meets_DefineTruckBayWritesTheRecord :
    stock.ready ∧ outcome (.defineTruckBay hd 3 1 63) stock = some 0 ∧ outcome (.defineTruckBay hd 1 0 99) stock = some 0
    ∧ outcome (.defineTruckBay hd 4 0 0) stock = some 2 ∧ outcome (.defineTruckBay hd 3 1 64) stock = some 2
    ∧ outcome (.defineTruckBay hd 0 1 0) stock = some 0x0E := ⟨⟨rfl, by decide⟩, by decide +kernel⟩

/-! ## Moves -/

/-- Every ticket slot in use. -/
def fullTickets (s : State) : State :=
  inYard (fun y => { y with tickets := Vector.replicate 24 ⟨0, some (shift .pending)⟩, moveQueue := List.range 24 }) s

theorem test_meets_MoveMakesATicket :
    stock.ready ∧ stock.plant.isClosed = false ∧ stock.plant.yard.freeTicketSlot = some 0
    ∧ outcome (.move hd ⟨1, 0⟩ 3 1 3 0 0) stock = some 0 ∧ outcome (.move hd ⟨1, 0⟩ 2 1 0 1 0) stock = some 0
    ∧ outcome (.move hd ⟨2, 0⟩ 5 0 0 0 0) stock = some 0 ∧ outcome (.move hd ⟨0, 0⟩ 3 1 0 0 1) stock = some 0
    ∧ outcome (.move hd ⟨0, 0⟩ 3 1 0 0 0) stock = some 0 ∧ outcome (.move hd ⟨3, 0⟩ 3 1 0 0 0) stock = some 0
    ∧ outcome (.move hd ⟨4, 0⟩ 3 1 0 0 0) stock = some 7 ∧ outcome (.move hd ⟨1, 0⟩ 3 1 0 0 0) (moving (shift .ready) (.reset 32)) = some 0x0A
    ∧ outcome (.move hd ⟨2, 0⟩ 3 1 0 0 0) (fullTickets stock) = some 9 ∧ outcome (.move hd ⟨1, 0⟩ 3 40 0 0 0) stock = some 2
    ∧ outcome (.move hd ⟨1, 0⟩ 2 2 0 0 0) stock = some 2 ∧ outcome (.move hd ⟨1, 0⟩ 4 0 0 0 0) stock = some 2
    ∧ outcome (.move hd ⟨1, 0⟩ 5 0 4 0 0) stock = some 2 ∧ outcome (.move hd ⟨1, 0⟩ 3 0 0 0 0) stock = some 0x0D
    ∧ outcome (.move hd ⟨2, 0⟩ 2 0 0 0 0) stock = some 0x0D
    ∧ outcome (.move hd ⟨3, 0⟩ 5 0 0 0 0) (inYard (fun y => y.updTruck 0 (fun r => { r with state := .opened })) stock) = some 3 :=
  ⟨⟨rfl, by decide⟩, by decide +kernel⟩

theorem test_meets_MoveMakesATicket_room :
    (projection stock.plant.yard 0).getLast? = some ⟨1, 0⟩ ∧ (projection stock.plant.yard 0).getLast? ≠ some ⟨0, 0⟩
    ∧ (stock.plant.yard.stack 0).claims.length < 4 ∧ laneRoom stock.plant.yard 1 = none
    ∧ autoDest stock.plant.site stock.plant.yard .shift (.stack 0 2) ⟨1, 0⟩ = some (.stack 1)
    ∧ autoDest stock.plant.site (openWith (withPieces [pc 0 (.lane 0)])).plant.yard .stow (.lane 0) ⟨0, 0⟩ = none
    ∧ outcome (.move hd ⟨1, 0⟩ 3 2 0 0 0) stock = some 3
    ∧ laneRoom (stock.plant.yard.updLane 1 (fun r => { r with reservations := 8 })) 1 = some .full
    ∧ outcome (.move hd ⟨1, 0⟩ 2 1 0 0 0) (inYard (fun y => y.updStack 0 (fun r => { r with claims := List.replicate 4 ⟨.place, ⟨23, 0⟩⟩ })) stock) = some 9 := by
  decide +kernel

/-- Piece 0 of the stock's stack 0 waits buried in slot 23; a move of the projection top above it lets it follow. -/
theorem test_meets_MoveMakesATicket_source :
    (stock.plant.yard.ticketAt 0).isNone = true ∧ (∀ j ∈ stock.plant.yard.moveQueue, buriedIn stock.plant.yard j ≠ some 0)
    ∧ (makeTicket stock.plant.site
        ((stock.plant.yard.placeTicket 23 { shift .pending with piece := some ⟨0, 0⟩, source := some (.stack 0 1) }).updStack 0
          (fun r => { r with buried := 1, digLock := true })) 0 ⟨1, 0⟩ (shift .pending)).stack 0
      = { stock.plant.yard.stack 0 with claims := [⟨.lift, ⟨0, 0⟩⟩, ⟨.lift, ⟨23, 0⟩⟩], buried := 0, digLock := false }
    ∧ gives (.move hd ⟨0, 0⟩ 3 1 0 0 0) stock (fun t => decide ((t.plant.yard.stack 0).buried = 1 ∧ (t.plant.yard.stack 0).claims = []
        ∧ (t.plant.yard.stack 1).claims = [⟨.place, ⟨0, 0⟩⟩] ∧ t.plant.yard.ticketSlot 1 = ⟨0, none⟩)) = true := by decide +kernel

/-- A RELEASED bed 0 beside the stock's stacks and lanes. -/
def strippable : State :=
  openWith (fun p => (withBed .released .reset (some ⟨0, 0⟩) (some ⟨1, 0⟩) (withPieces [pc 0 (.bed 0 0), pc 1 (.bed 0 1)] p)).updYard
    (fun y => y.updLane 1 (fun r => { r with defined := true, bay := 8 })))

theorem test_meets_StripBedMakesATicketForEachPiece :
    strippable.ready ∧ strippable.plant.isClosed = false ∧ stripList strippable.plant 0 = [(⟨0, 0⟩, .bed 0 0), (⟨1, 0⟩, .bed 0 1)]
    ∧ (stripPositions strippable.plant.site 3 true (stripList strippable.plant 0) strippable.plant.yard).isSome = true
    ∧ ((stripList strippable.plant 0).map (fun x => x.1.slot)).Nodup
    ∧ outcome (.stripBed hd 0 3 1) strippable = some 0 ∧ outcome (.stripBed hd 12 0 0) strippable = some 2
    ∧ outcome (.stripBed hd 0 4 0) strippable = some 2 ∧ outcome (.stripBed hd 0 0 0) (emptyBed .set .reset) = some 3
    ∧ outcome (.stripBed hd 0 0 0) (emptyBed .released .reset) = some 0x0A ∧ outcome (.stripBed hd 0 0 0) (fullTickets strippable) = some 9
    ∧ outcome (.stripBed hd 0 0 0) (fullBed .released .reset) = some 9 := ⟨⟨rfl, by decide⟩, by decide +kernel⟩

theorem test_meets_CancelMoveAndParkCrane :
    (moving (shift .granted) (atWork .travel)).ready ∧ (moving (shift .granted) (atWork .travel)).plant.isClosed = false
    ∧ (moving (shift .granted) (atWork .travel)).plant.yard.ticket? ⟨0, 0⟩ = some (shift .granted)
    ∧ ((moving (shift .granted) (atWork .travel)).plant.yard.stack 1).claims.count ⟨.place, ⟨0, 0⟩⟩ ≤ 1
    ∧ outcome (.cancelMove hd ⟨0, 0⟩) (moving (shift .granted) (atWork .travel)) = some 0
    ∧ outcome (.cancelMove hd ⟨0, 0⟩) (moving (shift .pending) (.reset 32)) = some 0
    ∧ outcome (.cancelMove hd ⟨0, 0⟩) (moving (shift .ready) (.reset 32)) = some 0
    ∧ outcome (.cancelMove hd ⟨0, 0⟩) (moving (shift .lifting) (atWork .lift)) = some 0x0A
    ∧ outcome (.cancelMove hd ⟨0, 0⟩) (moving (shift .done) (.reset 32)) = some 3 ∧ outcome (.cancelMove hd ⟨0, 1⟩) stock = some 7
    ∧ outcome (.cancelMove hd ⟨24, 0⟩) stock = some 7 ∧ outcome (.cancelMove hd ⟨0, 0⟩) (picking .granted (atWork .travel)) = some 0x0E :=
  ⟨⟨rfl, by decide⟩, by decide +kernel⟩

theorem test_meets_CancelMoveAndParkCrane_park :
    stock.ready ∧ (stock.plant.yard.arb 2).bound = none ∧ (stock.plant.yard.crane 2).hook = none
    ∧ outcome (.parkCrane hd 2 63 3) stock = some 0 ∧ outcome (.parkCrane hd 0 0 0) (stopOn stock) = some 0
    ∧ outcome (.parkCrane hd 3 0 0) stock = some 2 ∧ outcome (.parkCrane hd 2 64 0) stock = some 2 ∧ outcome (.parkCrane hd 2 0 4) stock = some 2
    ∧ outcome (.parkCrane hd 2 0 0) (inYard (fun y => y.updArb 2 (fun a => { a with bound := some ⟨0, 0⟩ })) stock) = some 4
    ∧ outcome (.parkCrane hd 2 0 0) (inYard (fun y => y.updCrane 2 (fun c => { c with hook := some ⟨0, 0⟩ })) stock) = some 3
    ∧ outcome (.parkCrane hd 2 0 0) (fullTickets stock) = some 9 := ⟨⟨rfl, by decide⟩, by decide +kernel⟩

/-! ## Crane links -/

theorem test_meets_ConfigureCraneWritesTheHomeBay :
    State.reset.ready ∧ (State.reset.plant.yard.crane 1).state ≠ .homing ∧ outcome (.configureCrane hd 1 1) State.reset = some 0
    ∧ outcome (.configureCrane hd 1 62) State.reset = some 0 ∧ outcome (.configureCrane hd 1 63) State.reset = some 2
    ∧ outcome (.configureCrane hd 1 0) State.reset = some 2 ∧ outcome (.configureCrane hd 3 1) State.reset = some 2
    ∧ outcome (.configureCrane hd 2 64) State.reset = some 2
    ∧ outcome (.configureCrane hd 1 31) (inYard (fun y => y.updCrane 1 (fun c => { c with state := .homing })) stock) = some 3 :=
  ⟨⟨rfl, by decide⟩, by decide, by decide +kernel⟩

/-- The stock with the record of crane 1 changed. -/
def crane1 (f : CraneRecord → CraneRecord) : State := inYard (fun y => y.updCrane 1 f) stock

theorem test_meets_HomeAndClearMoveTheCrane :
    stock.ready ∧ stock.plant.isClosed = false ∧ outcome (.homeCrane hd 1) stock = some 0
    ∧ outcome (.homeCrane hd 1) (crane1 (fun c => { c with state := .faulted })) = some 0 ∧ outcome (.homeCrane hd 3) stock = some 2
    ∧ outcome (.homeCrane hd 1) (stopOn stock) = some 0x0F ∧ outcome (.homeCrane hd 1) (crane1 (fun c => { c with state := .idle })) = some 3
    ∧ outcome (.clearCrane hd 1) (crane1 (fun c => { c with state := .faulted })) = some 0
    ∧ outcome (.clearCrane hd 1) stock = some 3 ∧ outcome (.clearCrane hd 3) stock = some 2 := ⟨⟨rfl, by decide⟩, by decide +kernel⟩

/-- A PARK ticket in slot 0 bound to crane 1, under way. -/
def parking : State := inYard (fun y => (((y.placeTicket 0 ⟨.park, none, none, some (.bay 15), 0, 0, false, false, none, none, some 1,
  .granted, false, false, .none, .none, false⟩).updCrane 1 (fun _ => atWork .travel)).updArb 1 (fun a => { a with bound := some ⟨0, 0⟩ }))) stock

theorem test_meets_ArrivedStartsTheNextStage :
    stock.plant.isClosed = false ∧ (atWork .travel).stage = some ⟨.travel, 7, 10⟩
    ∧ (moving (shift .granted) (atWork .travel)).plant.yard.ticket? ⟨0, 0⟩ = some (shift .granted)
    ∧ gives (.arrived 1 8) (moving (shift .granted) (atWork .travel)) (fun t => decide (t.plant.yard.crane 1 = atWork .travel)) = true
    ∧ gives (.arrived 1 7) (moving (shift .lifting) (atWork .lift)) (fun t => (t.plant.yard.crane 1).flagProtocol) = true
    ∧ gives (.arrived 1 7) (crane1 (fun _ => { atWork .home with state := .homing, current := none })) (fun t => (t.plant.yard.crane 1).flagProtocol) = true
    ∧ gives (.arrived 1 7) (moving (shift .granted) (atWork .travel)) (fun t => decide ((t.plant.yard.crane 1).stage = some ⟨.lift, 8, 50⟩)) = true
    ∧ gives (.arrived 1 7) (moving (shift .lifted) (atWork .travel)) (fun t => decide ((t.plant.yard.crane 1).stage = some ⟨.lower, 8, 0⟩)) = true
    ∧ gives (.arrived 1 7) (moving { shift .lifted with dest := none } (atWork .travel)) (fun t => decide ((t.plant.yard.crane 1).lastBay = 10)) = true
    ∧ gives (.arrived 1 7) parking (fun t => decide (t.plant.yard.finished = [0] ∧ (t.plant.yard.arb 1).bound = none)) = true := by decide +kernel

theorem test_meets_ArrivedStartsTheNextStage_claim :
    gives (.arrived 1 7) (moving (shift .granted) (atWork .travel)) (fun t => decide (t.plant.yard.claim 1 = some ⟨10, 20⟩)) = true
    ∧ gives (.arrived 1 7) (moving { shift .granted with dest := some (.lane 1) } (atWork .travel)) (fun t =>
        decide (t.plant.yard.claim 1 = some ⟨8, 10⟩)) = true
    ∧ gives (.arrived 1 7) (moving { shift .granted with dest := none } (atWork .travel)) (fun t =>
        decide (t.plant.yard.claim 1 = some ⟨10, 10⟩)) = true
    ∧ gives (.arrived 1 7) (moving { shift .granted with source := some (.hook 1) } (atWork .travel)) (fun t =>
        decide (t.plant.yard.claim 1 = some ⟨20, 20⟩)) = true := by decide +kernel

/-- The class weight of the piece is 50, so the tolerance is 5. -/
theorem test_meets_LiftedTakesThePieceOrHoldsIt :
    (moving (shift .lifting) (atWork .lift)).plant.isClosed = false
    ∧ (moving (shift .lifting) (atWork .lift)).plant.yard.ticket? ⟨0, 0⟩ = some (shift .lifting)
    ∧ ((moving (shift .lifting) (atWork .lift)).plant.yard.pieceAt 1).isSome = true
    ∧ gives (.lifted 1 7 45) (moving (shift .lifting) (atWork .lift)) (fun t => decide ((t.plant.yard.crane 1).hook = some ⟨1, 0⟩)) = true
    ∧ gives (.lifted 1 7 55) (moving (shift .lifting) (atWork .lift)) (fun t => decide ((t.plant.yard.stack 0).pieces = [⟨0, 0⟩])) = true
    ∧ gives (.lifted 1 7 44) (moving (shift .lifting) (atWork .lift)) (fun t => (t.plant.yard.ticketAt 0).any (fun u => u.weightFailed)) = true
    ∧ gives (.lifted 1 7 56) (moving (shift .lifting) (atWork .lift)) (fun t => (t.plant.yard.pieceAt 1).any (fun p => p.holds.weight)) = true
    ∧ gives (.lifted 1 6 50) (moving (shift .lifting) (atWork .lift)) (fun t => decide (t.plant.yard.crane 1 = atWork .lift)) = true
    ∧ gives (.lifted 1 7 50) (moving (shift .granted) (atWork .travel)) (fun t => (t.plant.yard.crane 1).flagProtocol) = true
    ∧ gives (.lifted 1 7 50) (moving { shift .lifting with holdPending := true } (atWork .lift)) (fun t =>
        (t.plant.yard.ticketAt 0).any (fun u => decide (u.state = .lifted))) = true
    ∧ gives (.lifted 1 7 50) (picking .lifting (atWork .lift)) (fun t => decide ((t.plant.yard.lane 0).pieces = [])) = true := by decide +kernel

theorem test_meets_LoweredSetsThePieceDown :
    (moving (shift .setting) (atWork .lower)).plant.isClosed = false
    ∧ (moving (shift .setting) (atWork .lower)).plant.yard.ticket? ⟨0, 0⟩ = some (shift .setting)
    ∧ gives (.lowered 1 7) (moving (shift .setting) (atWork .lower)) (fun t => decide ((t.plant.yard.stack 1).pieces = [⟨1, 0⟩]
        ∧ t.plant.yard.finished = [0])) = true
    ∧ gives (.lowered 1 7) (moving { shift .setting with dest := some (.lane 1) } (atWork .lower)) (fun t =>
        decide ((t.plant.yard.lane 1).pieces = [⟨1, 0⟩])) = true
    ∧ gives (.lowered 1 7) (picking .setting (atWork .lower)) (fun t => decide ((t.plant.yard.truck 1).pieces = [⟨2, 0⟩]
        ∧ (t.plant.yard.truck 1).state = .complete)) = true
    ∧ gives (.lowered 1 7) (moving { shift .lifting with weightFailed := true } (atWork .lower)) (fun t =>
        (t.plant.yard.ticketAt 0).any (fun u => decide (u.state = .failed ∧ u.outcome = .weight))) = true
    ∧ gives (.lowered 1 7) (moving (shift .lifting) (atWork .lift)) (fun t => (t.plant.yard.crane 1).flagProtocol) = true
    ∧ gives (.lowered 1 9) (moving (shift .setting) (atWork .lower)) (fun t => decide (t.plant.yard.crane 1 = atWork .lower)) = true := by
  decide +kernel

theorem test_meets_LoweredSetsThePieceDown_frame :
    gives (.lowered 1 7) (moving { shift .setting with dest := some (.truck 3) } (atWork .lower)) (fun t =>
        decide ((t.plant.yard.truck 3).pieces = [⟨1, 0⟩] ∧ (t.plant.yard.truck 3).nextIndex = 0
          ∧ t.plant.yard.truck 0 = stock.plant.yard.truck 0 ∧ t.plant.yard.crane 0 = stock.plant.yard.crane 0
          ∧ t.plant.yard.arb 2 = stock.plant.yard.arb 2 ∧ t.plant.yard.link 1 = stock.plant.yard.link 1)) = true
    ∧ gives (.lowered 1 7) (inYard (fun y => y.updTruck 1 (fun r => { r with orderList := [⟨2, 0⟩, ⟨0, 0⟩] })) (picking .setting (atWork .lower)))
        (fun t => decide ((t.plant.yard.truck 1).state = .opened ∧ (t.plant.yard.truck 1).nextIndex = 1)) = true := by decide +kernel

theorem test_meets_StoppedAndHomedEndTheirOrders :
    stock.plant.isClosed = false ∧ reaches stock.plant.yard 1 ⟨32, 32⟩ = true
    ∧ gives (.stopped 1 9 64) stock (fun t => (t.plant.yard.crane 1).flagProtocol) = true
    ∧ gives (.stopped 1 9 15) stock (fun t => decide (t.plant.yard.crane 1 = .reset 32)) = true
    ∧ gives (.stopped 1 9 21) (crane1 (fun c => { c with state := .busy, stopOrder := some 9 })) (fun t => (t.plant.yard.crane 1).flagProtocol) = true
    ∧ gives (.stopped 1 9 20) (crane1 (fun c => { c with state := .busy, stopOrder := some 9 })) (fun t =>
        decide ((t.plant.yard.crane 1).state = .idle ∧ t.plant.yard.claim 1 = some ⟨20, 20⟩)) = true
    ∧ gives (.stopped 1 9 10) (moving (shift .lifted) { atWork .travel with stopOrder := some 9 }) (fun t =>
        decide ((t.plant.yard.crane 1).state = .busy ∧ (t.plant.yard.crane 1).timer = some ⟨15, false⟩)) = true
    ∧ gives (.stopped 1 9 10) (moving (shift .lifted) { atWork .travel with state := .stopped, stopOrder := some 9 }) (fun t =>
        (t.plant.yard.crane 1).halted) = true
    ∧ gives (.stopped 1 9 10) (stopOn (crane1 (fun c => { c with state := .stopped, stopOrder := some 9 }))) (fun t =>
        (t.plant.yard.crane 1).halted) = true
    ∧ gives (.stopped 1 9 10) (crane1 (fun c => { c with state := .stopped, stopOrder := some 9 })) (fun t =>
        decide ((t.plant.yard.crane 1).state = .idle)) = true
    ∧ gives (.stopped 1 9 10) (crane1 (fun c => { c with stopOrder := some 9 })) (fun t => decide ((t.plant.yard.crane 1).state = .unhomed)) = true
    ∧ gives (.homed 1 7 32) (crane1 (fun _ => { atWork .home with state := .homing, current := none })) (fun t =>
        decide ((t.plant.yard.crane 1).state = .idle ∧ t.plant.yard.claim 1 = some ⟨32, 32⟩)) = true
    ∧ gives (.homed 1 7 33) (crane1 (fun _ => { atWork .home with state := .homing, current := none })) (fun t =>
        decide ((t.plant.yard.crane 1).faultCode = .homeConflict)) = true
    ∧ gives (.homed 1 7 32) (crane1 (fun _ => atWork .travel)) (fun t => (t.plant.yard.crane 1).flagProtocol) = true
    ∧ gives (.homed 1 8 32) (crane1 (fun _ => atWork .travel)) (fun t => decide (t.plant.yard.crane 1 = atWork .travel)) = true := by decide +kernel

theorem test_meets_FaultsAndTimeoutsFaultTheCrane :
    (moving (shift .lifted) (atWork .travel)).plant.isClosed = false
    ∧ (moving (shift .lifted) (atWork .travel)).plant.yard.ticket? ⟨0, 0⟩ = some (shift .lifted)
    ∧ gives (.fault 1 0 9 64) stock (fun t => (t.plant.yard.crane 1).flagProtocol) = true
    ∧ gives (.fault 1 0 9 63) (moving (shift .lifted) (atWork .travel)) (fun t => decide ((t.plant.yard.crane 1).faultCode = .reported
        ∧ (t.plant.yard.crane 1).controller = 9 ∧ t.plant.yard.finished = [0])) = true
    ∧ gives (.fault 1 0 9 0) (moving (shift .granted) (atWork .travel)) (fun t => (t.plant.yard.ticketAt 0).any (fun u => decide (u.crane = none))) = true
    ∧ gives (.fault 1 0 9 0) (crane1 (fun c => { c with state := .idle })) (fun t => decide ((t.plant.yard.crane 1).state = .faulted)) = true
    ∧ gives (.stageTimeout 1) (moving (shift .lifted) { atWork .travel with timer := some ⟨1, false⟩ }) (fun t =>
        decide ((t.plant.yard.crane 1).faultCode = .timeout)) = true
    ∧ gives (.stageTimeout 1) (moving (shift .lifted) { atWork .travel with timer := some ⟨2, false⟩ }) (fun t =>
        decide ((t.plant.yard.crane 1).faultCode = .none)) = true
    ∧ gives (.homingTimeout 1) (crane1 (fun _ => { atWork .home with state := .homing, current := none, timer := some ⟨1, false⟩ })) (fun t =>
        decide ((t.plant.yard.crane 1).faultCode = .homeTimeout)) = true
    ∧ gives (.homingTimeout 1) (crane1 (fun _ => { atWork .home with state := .homing, current := none, timer := some ⟨1, false⟩, stopOrder := some 3 })) (fun t =>
        decide ((t.plant.yard.crane 1).faultCode = .none)) = true := by decide +kernel

/-! ## Dispatch orders -/

theorem test_meets_OrdersListTheirPieces :
    stock.ready ∧ stock.plant.isClosed = false ∧ outcome (.openOrder hd 1 3 1 [⟨2, 0⟩, ⟨1, 0⟩, ⟨0, 0⟩]) stock = some 0
    ∧ outcome (.openOrder hd 1 0 0 [⟨2, 0⟩]) (fullTickets stock) = some 0 ∧ outcome (.openOrder hd 4 0 0 [⟨2, 0⟩]) stock = some 2
    ∧ outcome (.openOrder hd 1 4 0 [⟨2, 0⟩]) stock = some 2 ∧ outcome (.openOrder hd 1 0 0 []) stock = some 2
    ∧ outcome (.openOrder hd 1 0 0 (List.replicate 13 ⟨2, 0⟩)) stock = some 2 ∧ outcome (.openOrder hd 0 0 0 [⟨2, 0⟩]) stock = some 3
    ∧ outcome (.openOrder hd 1 0 0 [⟨2, 0⟩, ⟨2, 0⟩]) stock = some 6 ∧ outcome (.openOrder hd 1 0 0 [⟨2, 0⟩, ⟨4, 0⟩]) stock = some 7
    ∧ outcome (.addToOrder hd 1 [⟨0, 0⟩]) listed = some 0 ∧ outcome (.addToOrder hd 1 [⟨2, 0⟩]) listed = some 0x0E
    ∧ outcome (.addToOrder hd 1 [⟨3, 0⟩]) listed = some 3 ∧ outcome (.addToOrder hd 4 [⟨0, 0⟩]) listed = some 2
    ∧ outcome (.addToOrder hd 2 [⟨0, 0⟩]) listed = some 3 ∧ outcome (.addToOrder hd 1 (List.replicate 12 ⟨0, 0⟩)) listed = some 9
    ∧ outcome (.addToOrder hd 1 [⟨0, 0⟩]) (picking .granted (atWork .travel)) = some 0 := ⟨⟨rfl, by decide⟩, by decide +kernel⟩

theorem test_meets_OrdersListTheirPieces_entries :
    entryCheck stock.plant.yard [⟨2, 0⟩] ⟨1, 0⟩ = none ∧ entryCheck stock.plant.yard [] ⟨2, 0⟩ = none ∧ entryCheck stock.plant.yard [] ⟨2, 1⟩ = some .stale
    ∧ entryCheck stock.plant.yard [⟨2, 0⟩] ⟨2, 0⟩ = some .duplicate ∧ entryCheck stock.plant.yard [] ⟨3, 0⟩ = some .state
    ∧ entryCheck listed.plant.yard [] ⟨2, 0⟩ = some .inUse
    ∧ entryCheck (stock.plant.yard.updPiece 0 (fun p => { p with holds := ⟨false, false, false, true⟩ })) [] ⟨0, 0⟩ = some .held
    ∧ entryCheck (moving (shift .ready) (.reset 32)).plant.yard [] ⟨1, 0⟩ = some .inMove := by decide +kernel

theorem test_meets_OrdersListTheirPieces_lists :
    (listPieces stock.plant.yard [⟨2, 0⟩, ⟨0, 0⟩] (some 1)).pieceAt 0 = some { pc 0 (.stack 0 1) with order := some 1 }
    ∧ (listPieces stock.plant.yard [⟨2, 0⟩, ⟨0, 0⟩] (some 1)).pieceAt 1 = some (pc 1 (.stack 0 2)) := by decide +kernel

/-- Truck 0 with a COMPLETE order. -/
def complete : State := inYard (fun y => y.updTruck 0 (fun r => { r with state := .complete, orderList := [⟨3, 0⟩], nextIndex := 1 })) stock

theorem test_meets_OrdersEnd :
    listed.ready ∧ complete.ready ∧ (picking .setting (atWork .lower)).ready
    ∧ outcome (.orderLevel hd 1 3) listed = some 0 ∧ outcome (.orderLevel hd 4 0) listed = some 2 ∧ outcome (.orderLevel hd 1 4) listed = some 2
    ∧ outcome (.orderLevel hd 0 0) complete = some 0 ∧ outcome (.orderLevel hd 2 0) listed = some 3
    ∧ outcome (.cancelOrder hd 1) listed = some 0 ∧ outcome (.cancelOrder hd 1) (picking .setting (atWork .lower)) = some 0x0A
    ∧ outcome (.cancelOrder hd 1) (picking .granted (atWork .travel)) = some 0 ∧ outcome (.cancelOrder hd 1) (picking .lifting (atWork .lift)) = some 0
    ∧ outcome (.cancelOrder hd 1) (picking .lifted (atWork .travel)) = some 0 ∧ outcome (.cancelOrder hd 0) stock = some 3
    ∧ outcome (.cancelOrder hd 4) stock = some 2 ∧ outcome (.shipOrder hd 0) complete = some 0 ∧ outcome (.shipOrder hd 1) listed = some 3
    ∧ outcome (.shipOrder hd 4) listed = some 2 ∧ ((complete.plant.yard.truck 0).pieces.map (fun h => h.slot)).Nodup :=
  ⟨⟨rfl, by decide⟩, ⟨rfl, by decide⟩, ⟨rfl, by decide⟩, by decide +kernel⟩

/-! ## Reading -/

theorem test_meets_ReadsShowEveryRecord :
    stock.ready ∧ outcome (.readBed hd 11) stock = some 0 ∧ outcome (.readBed hd 12) stock = some 2 ∧ outcome (.readStack hd 39) stock = some 0
    ∧ outcome (.readStack hd 40) stock = some 2 ∧ outcome (.readLane hd 1) stock = some 0 ∧ outcome (.readLane hd 2) stock = some 2
    ∧ outcome (.readOrder hd 3) stock = some 0 ∧ outcome (.readOrder hd 4) stock = some 2 ∧ outcome (.readClass hd 31) stock = some 0
    ∧ outcome (.readClass hd 32) stock = some 2 ∧ outcome (.readPlan hd 12) stock = some 2 ∧ outcome (.readIntake hd 12) stock = some 2
    ∧ outcome (.readCrane hd 3) stock = some 2 ∧ outcome (.readPiece hd ⟨0, 0⟩) stock = some 0 ∧ outcome (.readPiece hd ⟨0, 1⟩) stock = some 7
    ∧ outcome (.readMove hd ⟨0, 0⟩) (moving (shift .ready) (.reset 32)) = some 0 ∧ outcome (.readMove hd ⟨0, 0⟩) stock = some 7
    ∧ outcome (.readPlan hd 11) stock = some 0 ∧ outcome (.readIntake hd 0) (silent .ok 3) = some 0
    ∧ outcome (.readWorks hd) State.reset = some 0 ∧ outcome (.readSettings hd) State.reset = some 0 := ⟨⟨rfl, by decide⟩, by decide +kernel⟩

/-! ## Follow-up work, encodings, invariants -/

/-- What follows a change of a part with an IDLE crane 1 and a READY ticket grants it: the claim covers its bays. -/
theorem test_meets_FollowUpWorkKeepsTheRecords :
    stock.plant.site.stop = false ∧ stock.plant.yard.claim 1 ≠ none ∧ State.reset.plant.yard.claim 0 = none
    ∧ (0 ∈ (followUp stock.plant.site (moving (shift .pending) (.reset 32)).plant.yard).moveQueue)
    ∧ ((followUp stock.plant.site (moving (shift .pending) (.reset 32)).plant.yard).ticketAt 0).any (fun t => decide (t.state = .ready)) = true
    ∧ ((evaluate stock.plant.site (moving (shift .ready) { CraneRecord.reset 32 with state := .idle }).plant.yard).ticketAt 0).any
        (fun t => decide (t.state = .granted)) = true := by decide +kernel

theorem test_meets_CommandFramesCarryTheirCommands :
    Command.wellFormed (.cast 0 [⟨31, true, 2 ^ 42 - 1⟩]) = true ∧ Command.wellFormed (.find ⟨65535, 255, 255, 255, 255, 4294967295, 255, 255⟩) = true
    ∧ Instr.command? (.readBed hd 255) = some (hd, .readBed 255) ∧ Header.wellFormed hd = true
    ∧ frameOk (commandFrame hd (commandCode (.readBed 255)) (commandParams (.readBed 255))) = true
    ∧ parseCommand (commandCode (.cast 0 [⟨31, true, 2 ^ 42 - 1⟩])) (commandParams (.cast 0 [⟨31, true, 2 ^ 42 - 1⟩]))
        = some (.cast 0 [⟨31, true, 2 ^ 42 - 1⟩])
    ∧ parseCommand 0x2D [1#8, 2#8] = none := by decide +kernel

theorem test_meets_ResetMeetsTheInvariants : gives (.powerOn true) stock (fun t => decide (t.plant.works.phase = .closed)) = true := by
  decide +kernel

/-- Reset with a row in front of the queue: a state with the invariant of the Command Port that a step leaves. -/
theorem test_meets_StepsKeepThePort : PortInv { State.reset with pending := [.portReset] } := by
  unfold PortInv; decide +kernel

theorem test_meets_StepsKeepTheHeat : HeatInv { State.reset with pending := [.worksClockAdvance] } := by
  unfold HeatInv HeatRecord.lawful; decide +kernel

/-- An OPEN works with a heat order under way, and the CLOSED one that OPEN WORKS brings to it. -/
theorem test_meets_StepsKeepTheHeat_orders :
    (fullBed .curing steaming).plant.isClosed = false ∧ (fullBed .curing steaming).plant.ordersSent ∧ restored.plant.ordersSent
    ∧ gives (.openWorks hd) restored (fun t => decide ((t.plant.heat 0).lastOrder = formOrder (t.plant.bed 0) (t.plant.heat 0))
        && !t.plant.isClosed) = true := by
  unfold Plant.ordersSent; decide +kernel

/-- Reset with a clock advance in front of the queue. -/
def waitingReset : State := { State.reset with pending := [.worksClockAdvance] }

theorem getOr_replicate {α : Type} (n i : Nat) (a : α) : getOr (Vector.replicate n a) i a = a := by
  unfold getOr
  by_cases h : i < n
  · rw [Vector.getElem?_eq_getElem h]; simp
  · rw [Vector.getElem?_eq_none (by omega)]; rfl

theorem crane_waitingReset (k : Nat) : ∃ home, home < 64 ∧ waitingReset.plant.yard.crane k = CraneRecord.reset home := by
  match k with
  | 0 => exact ⟨0, by decide, rfl⟩
  | 1 => exact ⟨32, by decide, rfl⟩
  | 2 => exact ⟨63, by decide, rfl⟩
  | k + 3 =>
    refine ⟨0, by decide, ?_⟩
    show getOr _ (k + 3) _ = _
    unfold getOr
    rw [Vector.getElem?_eq_none (by omega)]; rfl

theorem slot_waitingReset (i : Nat) : waitingReset.plant.yard.pieceSlot i = ⟨0, none⟩ ∧ waitingReset.plant.yard.ticketSlot i = ⟨0, none⟩ :=
  ⟨getOr_replicate 1024 i _, getOr_replicate 24 i _⟩

theorem test_meets_StepsKeepTheRanges :
    RangeInv waitingReset ∧ DigLockInv waitingReset ∧ CraneInv waitingReset
    ∧ gives .worksClockAdvance State.reset (fun t => decide (t.plant.works.clock = 0)) = true := by
  refine ⟨⟨by decide, by decide, ?_, ?_, ?_, ?_, ?_, ?_, by decide, by decide, by decide, by decide⟩, ?_, ?_,
    by decide +kernel⟩
  · intro b
    rw [show waitingReset.plant.bed b = .reset from getOr_replicate 12 b _,
      show waitingReset.plant.bedLine b = .reset from getOr_replicate 12 b _]
    decide
  · intro b
    rw [show waitingReset.plant.intakeOf b = .reset from getOr_replicate 12 b _]
    decide
  · intro l
    rw [show waitingReset.plant.yard.lane l = .reset from getOr_replicate 2 l _]
    decide
  · intro n
    rw [show waitingReset.plant.yard.truck n = .reset from getOr_replicate 4 n _]
    decide
  · intro slot t h
    rw [show waitingReset.plant.yard.ticketAt slot = none from congrArg TicketSlot.ticket (slot_waitingReset slot).2] at h
    cases h
  · intro k
    obtain ⟨home, _, e⟩ := crane_waitingReset k
    rw [e]
    exact ⟨(by decide : (0 : Nat) < 256), fun m h => by cases h⟩
  · intro i
    rw [show waitingReset.plant.yard.stack i = .reset from getOr_replicate 40 i _]
    decide
  · intro k
    obtain ⟨home, _, e⟩ := crane_waitingReset k
    rw [e]
    refine ⟨fun h => ?_, fun h => ?_, fun h => ?_⟩
    · cases h
    · cases h
    · exact (h rfl).elim

theorem test_meets_StepsKeepTheTables : QueueInv waitingReset ∧ PieceInv waitingReset ∧ GenInv waitingReset := by
  have hp : ∀ slot, waitingReset.plant.yard.pieceAt slot = none :=
    fun slot => congrArg PieceSlot.piece (slot_waitingReset slot).1
  have ht : ∀ slot, waitingReset.plant.yard.ticketAt slot = none :=
    fun slot => congrArg TicketSlot.ticket (slot_waitingReset slot).2
  refine ⟨⟨by decide, by decide, fun slot => ?_, fun slot => ?_⟩, ⟨fun m slot => ?_, by decide, fun slot p h => ?_, by decide +kernel, by decide +kernel⟩,
    fun slot => ?_, by decide +kernel, fun slot => ?_⟩
  · rw [ht]; exact ⟨fun h => (List.not_mem_nil h).elim, fun h => (Bool.false_ne_true h).elim⟩
  · rw [ht]; exact ⟨fun h => (List.not_mem_nil h).elim, fun ⟨t, h, _⟩ => by cases h⟩
  · rw [hp]; exact ⟨fun h => (List.not_mem_nil h).elim, fun ⟨p, h, _⟩ => by cases h⟩
  · rw [hp] at h; cases h
  · rw [(slot_waitingReset slot).1]; decide
  · rw [(slot_waitingReset slot).2]; decide

/-! ## The further clauses of the statements: refusals in their order, frames, searches, the arbiter -/

/-- The outcome code and the fields of the last result that a row leaves. -/
def reply (i : Instr) (s : State) : Option (List Nat) :=
  match exec i s with
  | .next t =>
    if s.port.resultQueue.length < t.port.resultQueue.length then
      t.port.resultQueue.getLast?.map (fun f => (f.drop 3).dropLast.map BitVec.toNat)
    else none
  | .fault _ => none
  | .refused _ => none

/-- Every piece slot in use. -/
def fullTable (s : State) : State :=
  inYard (fun y => { y with pieces := Vector.replicate 1024 ⟨0, some (pc 9 (.lane 0))⟩ }) s

/-- A RESTORE BED of bed 0 without holds. -/
def restore (st maturity segment minutes : Nat) (es : List MarkWord) : Instr :=
  .restoreBed hd st 0 maturity segment minutes (List.replicate 8 0) es

/-- A mark word whose class is not defined. -/
def strange (n : Nat) : MarkWord := ⟨5, false, n * 38 ^ 7⟩

theorem test_meets_RestoreBedFillsTheBed_refusals :
    reply (.restoreBed hd 1 12 0 0 0 (List.replicate 8 0) [mk 0, mk 0]) vacantClosed = some [2]
    ∧ reply (restore 0 0 0 0 [mk 0, mk 0]) vacantClosed = some [2] ∧ reply (restore 6 0 0 0 [mk 0, mk 0]) vacantClosed = some [2]
    ∧ reply (.restoreBed hd 1 11 0 0 0 (List.replicate 8 0) [mk 0]) vacantClosed = some [3]
    ∧ reply (restore 2 0 0 0 [mk 1]) vacantClosed = some [2] ∧ reply (restore 1 0 0 0 [mk 0, mk 1]) vacantClosed = some [2, 1]
    ∧ reply (restore 2 0 0 0 [mk 0, mk 0]) vacantClosed = some [2, 0] ∧ reply (restore 4 400 0 0 [mk 1, mk 0]) vacantClosed = some [2, 1]
    ∧ reply (restore 5 400 0 0 [mk 0, mk 0]) vacantClosed = some [2] ∧ reply (restore 5 400 0 0 [mk 1, mk 2]) vacantClosed = some [2]
    ∧ reply (restore 2 0 0 0 [mk 1, strange 2]) vacantClosed = some [2, 1] ∧ reply (restore 2 0 0 1 [mk 1, mk 2]) vacantClosed = some [2]
    ∧ reply (restore 3 0 0 0 [mk 1, mk 2]) (closedWith (fun p => withBed .vacant .reset none none (withClass 0 p))) = some [3]
    ∧ reply (restore 3 0 1 31 [mk 1, mk 2]) vacantClosed = some [2] ∧ reply (restore 3 0 2 1 [mk 1, mk 2]) vacantClosed = some [2]
    ∧ reply (restore 4 399 0 0 [mk 1, mk 2]) vacantClosed = some [0x10, 0] ∧ reply (restore 5 399 0 0 [mk 0, mk 2]) vacantClosed = some [0x10, 1]
    ∧ reply (restore 2 0 0 0 [mk 1, mk 2]) (fullTable vacantClosed) = some [0x05]
    ∧ reply (restore 2 0 0 0 [mk 1, mk 1]) vacantClosed = some [6, 0]
    ∧ reply (restore 2 0 0 0 [mk 1, mk 2])
        { vacantClosed with plant := { vacantClosed.plant with markMap := [((mk 2).number, 9)] } } = some [6, 1] := by decide +kernel

theorem test_meets_RestorePieceFillsTheHolder_refusals :
    outcome (.restorePiece hd (mk 1) 400 0 2 2) holdersClosed = some 2 ∧ outcome (.restorePiece hd (mk 1) 400 0 3 40) holdersClosed = some 2
    ∧ outcome (.restorePiece hd (mk 1) 400 0 4 0) holdersClosed = some 2 ∧ outcome (.restorePiece hd (mk 0) 400 0 2 1) holdersClosed = some 2
    ∧ outcome (.restorePiece hd (mk 1) 400 16 2 1) holdersClosed = some 2 ∧ outcome (.restorePiece hd (strange 1) 400 0 2 1) holdersClosed = some 2
    ∧ outcome (.restorePiece hd (mk 1) 400 0 2 0) holdersClosed = some 3 ∧ outcome (.restorePiece hd (mk 1) 400 0 3 38) holdersClosed = some 3
    ∧ outcome (.restorePiece hd (mk 1) 400 0 2 1) (inYard (fun y => y.updLane 1 (fun r => { r with pieces := List.replicate 8 ⟨0, 0⟩ })) holdersClosed)
        = some 9
    ∧ outcome (.restorePiece hd (mk 1) 400 0 3 39) (inYard (fun y => y.updStack 39 (fun r => { r with limit := 49 })) holdersClosed) = some 0x0D
    ∧ outcome (.restorePiece hd (mk 1) 399 0 2 1) holdersClosed = some 0x10
    ∧ outcome (.restorePiece hd (mk 1) 400 0 2 1) (fullTable holdersClosed) = some 5
    ∧ outcome (.restorePiece hd (mk 1) 400 0 2 1)
        { holdersClosed with plant := { holdersClosed.plant with markMap := [((mk 1).number, 9)] } } = some 6 := by decide +kernel

theorem test_meets_CastFillsTheBed_refusals :
    outcome (.cast hd 12 [mk 1]) (emptyBed .set .reset) = some 2 ∧ outcome (.cast hd 0 [mk 1, mk 2]) (emptyBed .vacant .reset) = some 3
    ∧ outcome (.cast hd 0 [mk 1, mk 0]) (emptyBed .set .reset) = some 2 ∧ outcome (.cast hd 0 [mk 1, strange 2]) (emptyBed .set .reset) = some 2
    ∧ outcome (.cast hd 0 [mk 1, mk 2]) (fullTable (emptyBed .set .reset)) = some 5
    ∧ outcome (.cast hd 0 [mk 1, mk 2])
        { emptyBed .set .reset with plant := { (emptyBed .set .reset).plant with markMap := [((mk 2).number, 9)] } } = some 6
    ∧ outcome (.releaseStrand hd 12) (emptyBed .set .reset) = some 2 ∧ outcome (.bedPriority hd 12 0) (emptyBed .set .reset) = some 2
    ∧ outcome (.scrapBed hd 12) (emptyBed .set .reset) = some 2 ∧ outcome (.drainLane hd 0 2) stock = some 2
    ∧ outcome (.openOrder hd 1 0 2 [⟨2, 0⟩]) stock = some 2 := by decide +kernel

theorem test_meets_PlantStopTakesHeatAndCranesOutOfMotion_frames :
    gives .plantStopAsserted (moving (shift .lifted) (atWork .travel)) (fun t =>
      decide ((t.plant.yard.link 1).writing = some (linkFrame 0x44 8 []))) = true
    ∧ gives .plantStopAsserted (moving (shift .lifted) { atWork .travel with stopOrder := some 3 }) (fun t =>
      decide (t.plant.yard.link 1 = ⟨none, []⟩ ∧ (t.plant.yard.crane 1).stopOrder = some 3)) = true := by decide +kernel

/-- The release of the stop, whichever part takes it first. -/
theorem test_meets_PlantStopReleaseStartsThemAgain_resume :
    [true, false].all (fun first =>
      let y := (releaseStop first (stopOn (moving (shift .lifted) { atWork .travel with state := .stopped, halted := true, timer := none })).plant).yard
      decide (y.link 1 = ⟨some (linkFrame 0x45 8 []), []⟩ ∧ (y.crane 1).state = .busy ∧ (y.crane 1).timer = some ⟨15, false⟩)) = true
    ∧ [true, false].all (fun first =>
      let y := (releaseStop first (stopOn (crane1 (fun c => { c with state := .stopped, stopOrder := some 9, timer := some ⟨4, false⟩ }))).plant).yard
      decide ((y.crane 1).state = .stopped ∧ (y.crane 1).timer = some ⟨4, false⟩ ∧ (y.crane 1).nextSeq = 1)) = true
    ∧ [true, false].all (fun first =>
      let y := (releaseStop first (stopOn (crane1 (fun c => { c with state := .stopped, halted := true }))).plant).yard
      decide ((y.crane 1).state = .idle ∧ (y.crane 1).halted = false)) = true := by decide +kernel

/-- A port with a FIND being scanned, the entries behind it, and `n` results. -/
def behindScan (q : List Entry) (n : Nat) : State := { stock with
  port := { Port.reset with
    commandQueue := ⟨1, 0x17, false, some (.find ⟨0, 4, 0, 1, 1, 500, 2, 2⟩), .scanning⟩ :: q
    resultQueue := List.replicate n [0x02#8, 0xFE#8]
    scan := some ⟨⟨0, 4, 0, 1, 1, 500, 2, 2⟩, 1023, []⟩ } }

/-- A READ WORKS in the command queue. -/
def waitingRead (after : Bool) : Entry := ⟨7, 0x02, after, some .readWorks, .waiting⟩

/-- R206: a command behind a FIND that is scanned starts, with room for its result and without; one with AFTER does not, nor what
stands behind it; at the front it does, behind a full result queue too. -/
theorem test_meets_FramesAreQueuedOrDropped_runs :
    findStart true 0 (behindScan [waitingRead false] 8).port.commandQueue = some 1
    ∧ findStart true 0 (behindScan [waitingRead true, waitingRead false] 0).port.commandQueue = none
    ∧ findStart false 0 [waitingRead true] = some 0
    ∧ (behindScan [waitingRead false] 8).runPort.port.commandQueue.map (fun e => e.state)
      = [.scanning, .completed 0 (resultFrame 7 2 (runCommand .readWorks stock.plant).1)]
    ∧ (behindScan [waitingRead false] 7).runPort.port.resultQueue.length = 8
    ∧ gives (.lockSettings hd 1) (behindScan [] 0) (fun t => t.plant.works.lock && t.port.scan.isSome
        && decide (t.port.resultQueue = [resultFrame 42 0x04 ⟨.ok, []⟩])) = true
    ∧ gives (.lockSettings hd 1) (behindScan (List.replicate 7 (waitingRead true)) 0)
        (fun t => t.port.overflow && !t.plant.works.lock) = true
    ∧ gives (.invalidCommand hd 0) (behindScan [] 8) (fun t => decide (t.port.commandQueue.length = 2)) = true := by decide +kernel

/-- R209: a result read while a FIND is scanned lets the oldest COMPLETED entry post, and the younger one moves up. -/
theorem test_meets_ReadTransfersShowAndClear_posts :
    gives (.readResult false 2)
      (behindScan [⟨7, 0x02, false, some .readWorks, .completed 1 [1#8]⟩, ⟨8, 0x02, false, some .readWorks, .completed 0 [2#8]⟩] 8)
      (fun t => decide (t.port.resultQueue = List.replicate 7 [0x02#8, 0xFE#8] ++ [[2#8]]
        ∧ t.port.commandQueue.map (fun e => e.state) = [.scanning, .completed 0 [1#8]])) = true := by decide +kernel

/-- R24: a FIND that ends with a full result queue is COMPLETED behind the entry that completed before it; what waited for the scan
unit then starts. -/
theorem test_meets_FindScansSlotBySlot_ends :
    gives .scanExamine (behindScan [⟨7, 0x02, false, some .readWorks, .completed 0 [1#8]⟩,
        ⟨9, 0x17, false, some (.find ⟨0, 1, 0xFF, 0, 0, 0, 0, 1⟩), .waiting⟩] 8)
      (fun t => decide (t.port.commandQueue.map (fun e => e.state)
          = [.completed 1 (resultFrame 1 0x17 ⟨.ok, [0#8, 0xFF#8, 0xFF#8]⟩), .completed 0 [1#8], .scanning]
        ∧ t.port.scan = some ⟨⟨0, 1, 0xFF, 0, 0, 0, 0, 1⟩, 0, []⟩)) = true := by decide +kernel

/-- R169: a BUSY crane keeps a ticket in LIFTED as it is; a ticket in GRANTED returns to PENDING with STOP. -/
theorem test_meets_PlantStopTakesHeatAndCranesOutOfMotion_tickets :
    (let y := cranesStop { stock.plant.site with stop := true } (moving (shift .lifted) (atWork .travel)).plant.yard;
      y.ticketAt 0 = some (shift .lifted) ∧ y.crane 1
        = { atWork .travel with state := .stopped, stopOrder := some 8, nextSeq := 9, timer := some ⟨15, false⟩ })
    ∧ (let y := cranesStop { stock.plant.site with stop := true } (moving (shift .granted) { atWork .travel with stopOrder := some 3 }).plant.yard;
      (y.ticketAt 0).map (fun t => (t.state, t.crane, t.waits.stop)) = some (.pending, none, true) ∧ y.crane 1
        = { atWork .travel with state := .stopped, stopOrder := some 3, current := none, stage := none })
    ∧ (cranesStop { stock.plant.site with stop := true } (crane1 (fun c => { c with state := .homing })).plant.yard).crane 1
      = { CraneRecord.reset 32 with state := .unhomed, stopOrder := some 0, nextSeq := 1, timer := some ⟨15, false⟩ } := by
  decide +kernel

/-- The state as the clock's advance leaves it. -/
def advanced (s : State) : State := advanceClock s

/-- The timer event of one record is due as well. -/
def withDue (e : TimerEvent) (s : State) : State :=
  s.onPlant (fun p => match e with
    | .heat b => p.updHeat b (fun h => { h with due := true })
    | .intake b => p.updIntake b (fun r => { r with due := true })
    | .crane k => p.updYard (fun y => minuteDue y k))

/-- The records after the timer event of one of them, which was due. -/
def taken (e : TimerEvent) (s : State) : Plant := takeEvent (withDue e s).plant e

/-- An advance counts the running timers and makes the events due; each acts on its record as it finds it. -/
theorem test_meets_ClockAdvanceCountsAtEveryBed_ends :
    stock.events = [] ∧ ((moving (shift .lifted) (atWork .travel)).plant.yard.crane 1).timer = some ⟨15, false⟩
    ∧ ((moving (shift .lifted) (atWork .travel)).plant.yard.crane 0).timer = none
    ∧ ((advanced (moving (shift .lifted) (atWork .travel))).plant.yard.crane 1).timer = some ⟨15, true⟩
    ∧ (advanced (moving (shift .lifted) (atWork .travel))).events.length = 25
    ∧ ((takeEvent (advanced (moving (shift .lifted) (atWork .travel))).plant (.crane 1)).yard.crane 1).timer = some ⟨14, false⟩
    ∧ ((takeEvent (moving (shift .lifted) { atWork .travel with timer := some ⟨1, true⟩ }).plant (.crane 1)).yard.crane 1).faultCode = .timeout
    ∧ ((takeEvent (moving (shift .lifted) (atWork .travel)).plant (.crane 1)).yard.crane 1).state = .busy
    ∧ ((takeEvent (crane1 (fun _ => { atWork .home with state := .homing, current := none, timer := some ⟨1, true⟩ })).plant (.crane 1)).yard.crane
        1).faultCode = .homeTimeout
    ∧ (taken (.heat 0) (fullBed .curing { steaming with running := .off, transition := .purge, minutes := 1 })).heat 0 = steaming
    ∧ ((taken (.heat 0) (fullBed .curing steaming)).heat 0).segIndex = 1
    ∧ ((taken (.heat 0) (fullBed .curing { steaming with next := [⟨0, 9⟩], swapPending := true })).heat 0).segMinutes = 9
    ∧ ((taken (.heat 0) (fullBed .curing { steaming with segIndex := 1 })).bed 0).flags.planDone = true
    ∧ ((taken (.intake 0) (silent .gap 29)).heat 0).running = .off
    ∧ ((taken (.intake 0) (silent .gap 29)).bed 0).flags.lost = true
    ∧ (taken (.intake 0) (silent .lost 40)).intakeOf 0 = (silent .lost 40).plant.intakeOf 0 := by
  decide +kernel

/-- R81: a sample taken in a minute before that minute's intake event, which is still due and then counts; a timer row takes
its event off what is due. -/
theorem test_sample_before_the_event :
    gives (.sample 0 42 140 0) (withDue (.intake 0) (silent .gap 20)) (fun t => decide (t.events = [.intake 0]
        ∧ (t.plant.intakeOf 0).gapCount = 0 ∧ ((takeEvent t.plant (.intake 0)).intakeOf 0).gapCount = 1)) = true
    ∧ ((taken (.intake 0) (silent .gap 20)).intakeOf 0).gapCount = 21
    ∧ ((takeEvent (silent .gap 20).plant (.intake 0)).intakeOf 0).gapCount = 20
    ∧ gives (.lostExpiry 0) (withDue (.intake 0) (silent .gap 29)) (fun t => decide (t.events = [])) = true
    ∧ gives (.stageTimeout 1) (moving (shift .lifted) { atWork .travel with timer := some ⟨1, true⟩ })
        (fun t => decide (t.events = [] ∧ (t.plant.yard.crane 1).faultCode = .timeout)) = true
    -- R162: a report taken before the event of its minute restarts the timer, and no expiry happens
    ∧ gives (.arrived 1 7) (moving (shift .lifted) { atWork .travel with timer := some ⟨1, true⟩ })
        (fun t => decide (t.events = [] ∧ (t.plant.yard.crane 1).timer = some ⟨15, false⟩)) = true := by decide +kernel

/-- R48, 3.10: a transition begun before the heat event of its minute is not counted by it: SETTLE and PURGE keep their minutes
until the next advance, at a HEAT MODE and at a release of the plant stop. -/
theorem test_transition_begun_before_the_event :
    (withDue (.heat 0) (fullBed .curing resting)).events = [.heat 0]
    ∧ gives (.heatMode hd 0 2) (withDue (.heat 0) (fullBed .curing resting)) (fun t => decide (t.events = []
        ∧ (t.plant.heat 0).transition = .settle ∧ (t.plant.heat 0).minutes = 1
        ∧ (takeEvent t.plant (.heat 0)).heat 0 = t.plant.heat 0
        ∧ ((taken (.heat 0) t).heat 0).running = .mat)) = true
    ∧ gives (.heatMode hd 0 1) (withDue (.heat 0) (fullBed .curing resting)) (fun t =>
        decide ((takeEvent t.plant (.heat 0)).heat 0 = t.plant.heat 0 ∧ ((taken (.heat 0) t).heat 0).minutes = 4)) = true
    ∧ ((releaseStop true (stopOn (withDue (.heat 0) (fullBed .curing { resting with requested := .mat }))).plant).heat 0).due = false := by
  decide +kernel

/-- An empty queue takes the one event that is due. -/
theorem test_idle_takes_the_event :
    step (withDue (.intake 0) (silent .gap 20)) = .next { silent .gap 20 with
      plant := taken (.intake 0) (silent .gap 20), freeCount := (silent .gap 20).freeCount + 1 } := by
  have := takeDue_single (withDue (.intake 0) (silent .gap 20)) (.intake 0) (by decide +kernel)
  exact congrArg Host.Outcome.next this

/-- The stock with the claim of crane `k` changed. -/
def withClaim (k : Nat) (c : Option Interval) : Yard := stock.plant.yard.setClaim k c

theorem test_meets_MoveMakesATicket_searches :
    laneRoom (openWith id).plant.yard 0 = some .state ∧ chooseLane stock.plant.yard = some 1
    ∧ chooseLane (stock.plant.yard.updLane 0 (fun r => { r with pieces := [] })) = some 0 ∧ chooseLane (openWith id).plant.yard = none
    ∧ stackFor stock.plant.site stock.plant.yard (.lane 0) ⟨2, 0⟩ = some 0
    ∧ stackFor stock.plant.site stock.plant.yard (.stack 0 2) ⟨1, 0⟩ = some 1
    ∧ stackFor stock.plant.site (stock.plant.yard.updStack 1 (fun r => { r with bay := 0 })) (.lane 0) ⟨2, 0⟩ = some 0
    ∧ autoDest stock.plant.site stock.plant.yard .strip (.bed 0 0) ⟨2, 0⟩ = some (.lane 1)
    ∧ unladenDest stock.plant.site stock.plant.yard { shift .pending with kind := .strip } (.bed 0 0) ⟨2, 0⟩ = some (.lane 1)
    ∧ unladenDest stock.plant.site (moving (shift .pending) (.reset 32)).plant.yard (shift .pending) (.lane 0) ⟨2, 0⟩ = none
    ∧ unladenDest stock.plant.site stock.plant.yard (shift .pending) (.lane 0) ⟨2, 0⟩ = some (.stack 0)
    ∧ ladenStack stock.plant.site (withClaim 0 none) 1 ⟨2, 0⟩ = none ∧ ladenStack stock.plant.site stock.plant.yard 1 ⟨2, 0⟩ = some 1
    ∧ ladenStack stock.plant.site (withClaim 2 (some ⟨20, 20⟩)) 1 ⟨2, 0⟩ = none
    ∧ ladenStack stock.plant.site (withClaim 0 (some ⟨9, 9⟩)) 0 ⟨2, 0⟩ = none := by decide +kernel

/-- A ticket buried under piece 1 on stack 0. -/
def buried : State := inYard (fun y => ((y.placeTicket 0 { shift .pending with piece := some ⟨0, 0⟩, source := some (.stack 0 1), dest := some (.lane 1) }).updPiece
  0 (fun p => { p with ticket := some ⟨0, 0⟩ })).updStack 0 (setBuried 1)) stock

theorem test_meets_CancelMoveAndParkCrane_repair :
    (buried.plant.yard.stack 0).digLock = true ∧ buriedIn buried.plant.yard 0 = some 0
    ∧ gives (.cancelMove hd ⟨0, 0⟩) buried (fun t => decide ((t.plant.yard.stack 0).buried = 0 ∧ (t.plant.yard.stack 0).digLock = false)) = true
    ∧ (let y := (moving (shift .ready) (.reset 32)).plant.yard
       repairWalk stock.plant.site y (y.stack 0) [⟨0, 0⟩, ⟨1, 0⟩] [⟨.lift, ⟨0, 0⟩⟩, ⟨.lift, ⟨0, 0⟩⟩] = ([⟨.lift, ⟨0, 0⟩⟩], [⟨.lift, ⟨0, 0⟩⟩])
       ∧ repairWalk stock.plant.site y (y.stack 1) [] [⟨.place, ⟨0, 0⟩⟩, ⟨.place, ⟨3, 0⟩⟩] = ([⟨.place, ⟨0, 0⟩⟩], [⟨.place, ⟨3, 0⟩⟩])
       ∧ repairWalk stock.plant.site y { y.stack 1 with tiers := 0 } [] [⟨.place, ⟨0, 0⟩⟩] = ([], [⟨.place, ⟨0, 0⟩⟩])
       ∧ (repair stock.plant.site (y.updStack 1 (fun r => { r with limit := 0 })) 1).ticketAt 0 = some { shift .ready with dest := none }
       ∧ ((repair stock.plant.site (y.updStack 0 (fun r => { r with pieces := [⟨0, 0⟩] })) 0).stack 0).buried = 1) := by decide +kernel

/-- R153: the events that are an occasion in any case, where they leave the claim as it stands: the READY ticket in slot 1 is
granted to crane 1, which is IDLE already. -/
def asideOf (f : Yard → Yard) : State := inYard (fun y => f ((y.placeTicket 1 { shift .ready with
    piece := some ⟨2, 0⟩, source := some (.lane 0), dest := some (.lane 1) }).updCrane 1 (fun c => { c with state := .idle }))) stock

theorem test_meets_settleClaim :
    gives (.stopped 2 9 63) (asideOf (fun y => y.updCrane 2 (fun c => { c with stopOrder := some 9 })))
      (fun t => (t.plant.yard.ticketAt 1).any (fun u => decide (u.state = .granted ∧ u.crane = some 1))) = true
    ∧ gives (.fault 2 0 9 63) (asideOf (fun y => y.updCrane 2 (fun c => { c with state := .busy })))
      (fun t => (t.plant.yard.ticketAt 1).any (fun u => decide (u.state = .granted ∧ u.crane = some 1))) = true
    ∧ gives (.fault 2 0 9 63) (asideOf (fun y => y.updCrane 2 (fun c => { c with state := .idle })))
      (fun t => (t.plant.yard.ticketAt 1).any (fun u => decide (u.state = .ready))) = true
    ∧ gives (.clearCrane hd 2) (asideOf (fun y => y.updCrane 2 (fun c => { c with state := .faulted })))
      (fun t => decide (t.plant.yard.claim 2 = none) && (t.plant.yard.ticketAt 1).any (fun u => decide (u.state = .ready))) = true := by
  decide +kernel

/-- A report that matches the stage order of a crane without a ticket latches PROTOCOL. -/
theorem test_meets_reports_without_ticket :
    gives (.lifted 1 7 50) (crane1 (fun _ => { atWork .lift with current := none })) (fun t => (t.plant.yard.crane 1).flagProtocol) = true
    ∧ gives (.lowered 1 7) (crane1 (fun _ => atWork .lower)) (fun t => (t.plant.yard.crane 1).flagProtocol) = true
    ∧ gives (.lowered 1 7) (moving (shift .setting) { atWork .lower with stopOrder := some 3 }) (fun t =>
        decide ((t.plant.yard.crane 1).state = .idle ∧ (t.plant.yard.crane 1).stopOrder = none)) = true := by decide +kernel

theorem test_meets_ReadsShowEveryRecord_fields :
    (reply (.readPiece hd ⟨1, 0⟩) stock).map (fun r => (r.drop 10).take 3) = some [3, 0, 2]
    ∧ (reply (.readPiece hd ⟨2, 0⟩) stock).map (fun r => (r.drop 10).take 3) = some [2, 0, 1]
    ∧ (reply (.readPiece hd ⟨3, 0⟩) stock).map (fun r => (r.drop 10).take 3) = some [4, 0, 1]
    ∧ (reply (.readPiece hd ⟨0, 0⟩) (fullBed .curing steaming)).map (fun r => (r.drop 10).take 3) = some [0, 0, 0]
    ∧ (reply (.readPiece hd ⟨0, 0⟩) (openWith (withPieces [pc 0 (.hook 2)]))).map (fun r => ((r.drop 10).take 2, r.length))
        = some ([1, 2], (1 + 2 + 6 + 1 + 2) + 4 + 1 + 4 + 1 + 1 + 2)
    ∧ (reply (.readMove hd ⟨0, 0⟩) (moving (shift .granted) (atWork .travel))).map (fun r => (r.drop 1).take 8) = some [2, 0, 1, 3, 0, 2, 3, 1]
    ∧ (reply (.readMove hd ⟨0, 0⟩) (picking .granted (atWork .travel))).map (fun r => (r.drop 1).take 7) = some [3, 0, 2, 2, 0, 4, 1]
    ∧ (reply (.readMove hd ⟨0, 0⟩) parking).map (fun r => r.length) = some (1 + 1 + 2 + 2 + 2 + 4 + 1 + 2 + 1 + 7)
    ∧ reply (.readPlan hd 0) (fullBed .curing steaming) = some [0, 80, 0, 128, 0, 1, 32, 3, 100, 100, 0, 60, 80, 0, 30]
    ∧ (reply (.readCrane hd 1) (moving (shift .granted) (atWork .travel))).map (fun r => ((r.drop 1).take 4, (r.drop 9).take 10))
        = some ([3, 32, 10, 20], [0, 0, 10, 0, 0, 0, 7, 0, 0, 15])
    ∧ (reply (.readCrane hd 0) State.reset).map (fun r => ((r.drop 3).take 2, r.length)) = some ([255, 255], 20)
    ∧ reply (.readWorks hd) (stopOn stock) = some [0, 1, 0, 0, 0, 0, 0, 0, 4, 0, 0] := by decide +kernel

/-! ### Listings ended, orders ended, pieces retired, strips, starts -/

/-- Crane 1 GRANTED the PICK of the order of truck 1, and what a HOLD of its piece leaves: the order, the pick, STOP. -/
theorem test_meets_HoldBarsThePiece_granted :
    ((picking .granted (atWork .travel)).plant.yard.truck 1).orderList.idxOf ⟨2, 0⟩ = 0
    ∧ gives (.hold hd ⟨2, 0⟩ 1) (picking .granted (atWork .travel)) (fun t =>
      decide ((t.plant.yard.truck 1).orderList = [] ∧ (t.plant.yard.truck 1).state = .opened ∧ (t.plant.yard.truck 1).flagChanged = true
        ∧ t.plant.yard.truck 0 = stock.plant.yard.truck 0
        ∧ t.plant.yard.pieceAt 2 = some { pc 2 (.lane 0) with holds := ⟨true, false, false, false⟩ }
        ∧ (t.plant.yard.crane 1).stopOrder = some 8 ∧ (t.plant.yard.crane 1).current = none ∧ (t.plant.yard.crane 1).state = .busy
        ∧ (t.plant.yard.link 1).writing = some (linkFrame 0x44 8 []))) = true
    ∧ gives (.hold hd ⟨2, 0⟩ 1) (inYard (fun y => y.updTruck 1 (fun r => { r with orderList := [⟨9, 0⟩, ⟨2, 0⟩], nextIndex := 1 }))
        (picking .granted (atWork .travel)))
      (fun t => decide ((t.plant.yard.truck 1).orderList = [⟨9, 0⟩] ∧ (t.plant.yard.truck 1).state = .complete
        ∧ (t.plant.yard.truck 1).flagComplete = true)) = true
    ∧ gives (.hold hd ⟨2, 0⟩ 1) (inYard (fun y => y.updTruck 1 (fun r => { r with orderList := [⟨9, 0⟩, ⟨2, 0⟩] })) (picking .granted (atWork .travel)))
      (fun t => decide ((t.plant.yard.truck 1).currentPick = some ⟨0, 0⟩ ∧ (t.plant.yard.crane 1).stopOrder = none)) = true := by decide +kernel

/-- Truck 0 COMPLETE with pieces 3 and 2 on it. -/
def loaded : State := inYard (fun y => (y.updPiece 2 (fun p => { p with location := .truck 0 2 })).updTruck
  0 (fun r => { r with state := .complete, orderList := [⟨3, 0⟩, ⟨2, 0⟩], nextIndex := 2, pieces := [⟨3, 0⟩, ⟨2, 0⟩] })) stock

theorem test_meets_OrdersEnd_records :
    (loaded.plant.yard.truck 0).state = .complete ∧ ((loaded.plant.yard.truck 0).pieces.map (fun h => h.slot)).Nodup
    ∧ gives (.shipOrder hd 0) loaded (fun t => decide (t.plant.markMap = [((pc 0 (.lane 0)).mark, 0), ((pc 1 (.lane 0)).mark, 1)]
        ∧ (t.plant.cls 0).liveCount = 2 ∧ (t.plant.yard.truck 0).state = .free)) = true
    ∧ gives (.cancelOrder hd 1) (inYard (fun y => y.updTruck 1 (fun r => { r with currentPick := none })) (picking .ready (.reset 32))) (fun t =>
        decide ((t.plant.yard.pieceAt 2).map (fun p => (p.order, p.mark, p.maturity)) = some (none, (pc 2 (.lane 0)).mark, 500)
          ∧ (t.plant.yard.truck 1).state = .free)) = true
    ∧ gives (.cancelOrder hd 1) (picking .granted (atWork .travel)) (fun t => decide ((t.plant.yard.crane 1).stopOrder = some 8
        ∧ t.plant.yard.finished = [0] ∧ t.plant.yard.pieceAt 2 = some (pc 2 (.lane 0)))) = true
    ∧ gives (.cancelOrder hd 1) (picking .lifting (atWork .lift)) (fun t =>
        (t.plant.yard.ticketAt 0).any (fun u => u.holdPending && decide (u.state = .lifting))) = true := by decide +kernel

theorem test_meets_ScrapBedRetiresThePour_records :
    (((fullBed .curing steaming).plant.bed 0).table.toList.take 2).filterMap id = [⟨0, 0⟩, ⟨1, 0⟩]
    ∧ gives (.scrapBed hd 0) (fullBed .curing steaming) (fun t => decide (t.plant.markMap = [] ∧ (t.plant.cls 0).liveCount = 0
        ∧ (t.plant.bed 0).configured = true ∧ (t.plant.bed 0).bay = 6
        ∧ t.plant.bedLine 0 = ((fullBed .curing steaming).plant.bedLine 0).put ⟨.off, 0⟩)) = true
    ∧ gives (.scrapBed hd 0) (fullBed .curing resting) (fun t => decide (t.plant.bedLine 0 = (fullBed .curing resting).plant.bedLine 0)) = true := by
  decide +kernel

theorem test_meets_RestorePieceFillsTheHolder_frame :
    gives (.restorePiece hd (mk 9) 400 0 2 0) (closedWith (fun p => (withClass 0 p).updYard (fun y => y.updLane 0 (fun r => { r with defined := true }))))
      (fun t => decide ((t.plant.yard.lane 0).pieces = [⟨0, 0⟩] ∧ t.plant.yard.lane 1 = State.reset.plant.yard.lane 1
        ∧ t.plant.markMap = [((mk 9).number, 0)])) = true := by decide +kernel

/-- The orders on the bed lines at a release. -/
theorem test_meets_PlantStopReleaseStartsThemAgain_lines :
    let s := stopOn (fullBed .curing { steaming with running := .off, lastOrder := ⟨.off, 0⟩ })
    let p := (releaseStop false s.plant)
    (p.heat 0).transition = .purge ∧ p.bedLine 0 = (s.plant.bedLine 0).put (formOrder (s.plant.bed 0) (p.heat 0))
      ∧ p.bedLine 1 = s.plant.bedLine 1 := by decide +kernel

/-- R120: the first of two positions to L1, and the second after it, in the next free slot. -/
theorem test_meets_StripBedMakesATicketForEachPiece_positions :
    autoDest strippable.plant.site strippable.plant.yard .strip (.bed 0 0) ⟨0, 0⟩ = some (.lane 1)
    ∧ (stripPositions strippable.plant.site 3 true (stripList strippable.plant 0) strippable.plant.yard).any (fun y =>
      decide (y.moveQueue = [0, 1] ∧ (y.lane 1).reservations = 2
        ∧ (y.pieceAt 1).bind (fun p => p.ticket) = some ⟨1, 0⟩)
      && (y.ticketAt 1).any (fun t => decide (t.piece = some ⟨1, 0⟩ ∧ t.dest = some (.lane 1) ∧ t.waits.after = true))) = true
    ∧ stripPositions strippable.plant.site 3 true (stripList strippable.plant 0)
        (strippable.plant.yard.updLane 1 (fun r => { r with reservations := 7 })) = none := by decide +kernel

/-- A WAITING entry with a code. -/
def waits (code : Nat) (after : Bool) : Entry := ⟨1, code, after, none, .waiting⟩

/-- R206: which entry starts; R207: which frames carry a command. -/
theorem test_meets_FramesAreQueuedOrDropped_starts :
    findStart false 0 [waits 0x17 false, waits 2 false] = some 0 ∧ findStart true 0 [waits 0x17 false, waits 2 false] = some 1
    ∧ findStart true 0 [waits 0x17 false, waits 2 true, waits 2 false] = none ∧ findStart false 0 [waits 2 true] = some 0
    ∧ findStart true 0 [⟨1, 0x17, false, none, .scanning⟩, waits 0x17 true, waits 2 false] = none
    ∧ findStart true 0 [waits 0x17 true, waits 2 false] = some 1
    ∧ parseCommand 0x99 [] = none ∧ parseCommand 0x21 [] = none ∧ parseCommand 0x21 [4#8] = some (.prepareBed 4)
    ∧ parseCommand 0x23 (List.replicate 7 0#8) ≠ none ∧ parseCommand 0x23 (List.replicate 8 0#8) = none
    ∧ (entryOf [6#8, 3#8, 2#8, 0x21#8, 4#8, 0xD0#8]).cmd = none ∧ (entryOf [6#8, 3#8, 1#8, 0x21#8, 4#8, 0xD1#8]).after = true
    ∧ frameOk [6#8, 3#8, 2#8, 0x21#8, 4#8, 0xD0#8] = true ∧ State.reset.port.scan = none := by decide +kernel

/-! ### Picks, digs and redirects -/

/-- A PICK of piece 0, buried under piece 1 on stack 0, with its dig flag set; a covering piece without a ticket. -/
def digging : State := inYard (fun y => y.updTicket 0 (fun u => { u with kind := .pick, dig := true, level := 2, baseLevel := 2, truck := some 1 })) buried

/-- R125: the DIG of a dig round, and the cases that stop it. -/
theorem test_meets_FollowUpWorkKeepsTheRecords_digs :
    (let y := digRound stock.plant.site digging.plant.yard 0
     (y.ticketAt 1).any (fun u => decide (u.kind = .dig ∧ u.piece = some ⟨1, 0⟩ ∧ u.dest = some (.stack 1) ∧ u.baseLevel = 2
       ∧ u.truck = some 1 ∧ u.serves = some ⟨0, 0⟩ ∧ u.state = .ready)) && decide (y.moveQueue = [0, 1])) = true
    ∧ (projection digging.plant.yard 0).getLast? = some ⟨1, 0⟩
    ∧ stackFor stock.plant.site digging.plant.yard (.stack 0 2) ⟨1, 0⟩ = some 1
    ∧ (digRound stock.plant.site (digging.plant.yard.updTicket 0 (fun u => { u with dig := false })) 0).moveQueue = [0]
    ∧ (digRound stock.plant.site (digging.plant.yard.updStack 1 (fun r => { r with limit := 0 })) 0).moveQueue = [0]
    ∧ (digRound stock.plant.site (digging.plant.yard.updStack 0 (fun r => { r with claims := List.replicate 4 ⟨.place, ⟨9, 0⟩⟩ })) 0).moveQueue
        = [0]
    ∧ (followUp stock.plant.site digging.plant.yard).moveQueue = [0, 1] := by decide +kernel

/-- A READY ticket without a destination, and a LIFTED one at crane 1. -/
def waiting (f : Ticket → Ticket) : Yard :=
  (moving (f { shift .pending with dest := none }) (atWork .travel)).plant.yard.updStack 1 (fun r => { r with claims := [] })

/-- R111, R185: the search of a ticket that waits under REDIRECT. -/
theorem test_meets_FollowUpWorkKeepsTheRecords_redirects :
    ((redirectOne stock.plant.site (waiting id) 0).ticketAt 0).any (fun u => decide (u.dest = some (.stack 1)) && u.redirected) = true
    ∧ ((redirectOne stock.plant.site (waiting (fun u => { u with kind := .strip })) 0).ticketAt 0).any
        (fun u => decide (u.dest = some (.lane 1))) = true
    ∧ (let y := redirectOne stock.plant.site (waiting (fun u => { u with state := .lifted, crane := some 1 })) 0
       (y.ticketAt 0).any (fun u => decide (u.dest = some (.stack 1)))
        && decide ((y.crane 1).stage = some ⟨.travel, 8, 20⟩ ∧ y.claim 1 = some ⟨10, 20⟩)) = true
    ∧ ((redirectOne stock.plant.site ((waiting id).updStack 1 (fun r => { r with limit := 0 })) 0).ticketAt 0).any
        (fun u => decide (u.dest = none)) = true := by decide +kernel

/-- R111, R185: piece 1 lifted from stack 0 by a hold-pending PICK in slot 0, and an older ticket that waits for a stack: the
stack that the lift frees, the one with room, goes to the older ticket. -/
theorem test_meets_LiftedTakesThePieceOrHoldsIt_order :
    (let y0 := (waiting (fun u => { u with state := .lifting, kind := .pick, holdPending := true, crane := some 1 }))
     let y1 := (y0.placeTicket 1 { shift .pending with piece := some ⟨2, 0⟩, source := some (.lane 0), dest := none, kind := .shift }).updStack
       1 (fun r => { r with limit := 0 })
     let y := liftPassed stock.plant.site { y1 with moveQueue := [1, 0] } 1 0
       { shift .lifting with kind := .pick, holdPending := true, dest := none } ⟨1, 0⟩ (.stack 0 2)
     (y.ticketAt 1).any (fun u => decide (u.dest = some (.stack 0))) && (y.ticketAt 0).any (fun u => decide (u.dest = none))
       && decide ((y.crane 1).stage = none ∧ y.claim 1 = some ⟨10, 10⟩)) = true := by decide +kernel

/-- R180: pick creation in the lowest free slot, and the cases in which it waits. -/
theorem test_meets_OrdersListTheirPieces_picks :
    entryCheck stock.plant.yard [] ⟨0, 0⟩ = none ∧ stock.plant.yard.freeTicketSlot = some 0
    ∧ gives (.openOrder hd 1 2 1 [⟨0, 0⟩]) stock (fun t => decide ((t.plant.yard.truck 1).currentPick = some ⟨0, 0⟩)
        && (t.plant.yard.ticketAt 1).any (fun u => decide (u.kind = .dig ∧ u.serves = some ⟨0, 0⟩))) = true
    ∧ gives (.openOrder hd 1 2 0 [⟨1, 0⟩]) stock (fun t => decide ((t.plant.yard.truck 1).currentPick = some ⟨0, 0⟩)) = true
    ∧ gives (.openOrder hd 1 2 0 [⟨1, 0⟩]) (inYard (fun y => y.updStack 0 (fun r => { r with claims := List.replicate 4 ⟨.place, ⟨9, 0⟩⟩ })) stock)
        (fun t => decide ((t.plant.yard.truck 1).state = .opened)) = true
    ∧ gives (.addToOrder hd 1 [⟨0, 0⟩]) listed (fun t => decide ((t.plant.yard.truck 1).currentPick = some ⟨0, 0⟩)
        && (t.plant.yard.ticketAt 0).any (fun u => decide (u.kind = .pick ∧ u.piece = some ⟨2, 0⟩))) = true
    ∧ gives (.addToOrder hd 1 [⟨0, 0⟩]) (picking .granted (atWork .travel)) (fun t =>
        decide ((t.plant.yard.truck 1).currentPick = some ⟨0, 0⟩ ∧ (t.plant.yard.truck 1).orderList = [⟨2, 0⟩, ⟨0, 0⟩])) = true
    ∧ ((createPick stock.plant.site (fullTickets listed).plant.yard 1).truck 1).currentPick = none
    ∧ ((createPick stock.plant.site listed.plant.yard 1).truck 1).currentPick = some ⟨0, 0⟩ := by decide +kernel

/-! ### The arbiter -/

/-- Crane 1 GRANTED the SHIFT of slot 0 at level 0, and a READY ticket of level 2 in slot 1 from lane 0 to stack 1. -/
def urgent : Yard := ((moving (shift .granted) (atWork .travel)).plant.yard.placeTicket 1
  { shift .ready with piece := some ⟨2, 0⟩, source := some (.lane 0), level := 2, baseLevel := 2 })

/-- Cranes 0 and 1 IDLE at bays 6 and 10, and the ticket of slot 1 from lane 0 (bay 5) to lane 1 (bay 8). -/
def blocked : Yard :=
  (((((stock.plant.yard.setClaim 0 (some ⟨6, 6⟩)).setClaim 1 (some ⟨8, 10⟩)).updCrane 0 (fun c => { c with state := .idle })).updCrane
    1 (fun c => { c with state := .idle })).placeTicket 1
    { shift .ready with piece := some ⟨2, 0⟩, source := some (.lane 0), dest := some (.lane 1) })

/-- The READY ticket of slot 1 in the two yards. -/
def urgentTicket : Ticket := { shift .ready with piece := some ⟨2, 0⟩, source := some (.lane 0), level := 2, baseLevel := 2 }
def blockedTicket : Ticket := { shift .ready with piece := some ⟨2, 0⟩, source := some (.lane 0), dest := some (.lane 1) }

theorem test_meets_FollowUpWorkKeepsTheRecords_arbiter :
    (∀ slot, slot < 24 → ∀ t, urgent.ticketAt slot = some t → t.level < 4) ∧ urgent.moveQueue = [0, 1]
    ∧ nextReady urgent 0 = some 1 ∧ nextReady urgent 2000 = none ∧ selectionKey urgent 1 urgentTicket = 1024 + 6 * 64 + 1
    ∧ neededBays stock.plant.site urgent urgentTicket = [5, 20] ∧ span stock.plant.site urgent 1 urgentTicket = some ⟨5, 20⟩
    ∧ reaches urgent 1 ⟨5, 20⟩ = true ∧ reaches urgent 1 ⟨0, 20⟩ = false ∧ reaches urgent 1 ⟨5, 63⟩ = false
    ∧ idleCrane stock.plant.site urgent 1 urgentTicket = none ∧ preemptCrane stock.plant.site urgent urgentTicket = some 1
    ∧ preemptCrane stock.plant.site urgent { urgentTicket with level := 0 } = none
    ∧ (let y := (examine stock.plant.site urgent 1).1
       (y.ticketAt 0).any (fun u => decide (u.state = .ready ∧ u.crane = none))
        && (y.ticketAt 1).any (fun u => decide (u.state = .granted ∧ u.crane = some 1))
        && decide (y.claim 1 = some ⟨5, 20⟩ ∧ (y.crane 1).stage = some ⟨.travel, 8, 5⟩ ∧ (y.crane 1).current = some ⟨1, 0⟩)) = true
    ∧ mayServe blocked 1 0 blockedTicket = true ∧ mayServe blocked 1 2 blockedTicket = false
    ∧ mayServe blocked 1 0 { blockedTicket with source := some (.hook 0) } = false
    ∧ mayServe (parking.plant.yard.updCrane 1 (fun c => { c with state := .idle })) 0 1 { shift .ready with kind := .park } = true
    ∧ idleCrane stock.plant.site blocked 1 blockedTicket = none ∧ preemptCrane stock.plant.site blocked blockedTicket = none
    ∧ blockers blocked 0 ⟨5, 8⟩ = [1] ∧ blockers blocked 1 ⟨5, 10⟩ = [0] ∧ yieldTarget 0 1 ⟨5, 8⟩ = some 9 ∧ yieldTarget 1 0 ⟨5, 10⟩ = some 4
    ∧ yieldTarget 1 0 ⟨0, 10⟩ = none ∧ yieldTarget 1 2 ⟨5, 63⟩ = none ∧ yieldTarget 1 2 ⟨5, 62⟩ = some 63
    ∧ mayYield blocked 1 0 ⟨5, 10⟩ = true ∧ mayYield blocked 0 1 ⟨5, 8⟩ = true ∧ mayYield blocked 0 1 ⟨5, 62⟩ = false
    ∧ yieldCrane stock.plant.site blocked blockedTicket = some 0
    ∧ (let y := (examine stock.plant.site blocked 1).1
       decide (y.moveQueue = [1, 0] ∧ (y.arb 1).bound = some ⟨0, 0⟩)
        && (y.ticketAt 0).any (fun u => decide (u.kind = .yield ∧ u.dest = some (.bay 9) ∧ u.serves = some ⟨1, 0⟩ ∧ u.state = .ready))) = true
    ∧ (examine stock.plant.site { blocked with tickets := Vector.replicate 24 ⟨0, some blockedTicket⟩ } 1).1.moveQueue = [1]
    ∧ (examine stock.plant.site (blocked.setClaim 1 (some ⟨10, 10⟩)) 1).2 = true
    ∧ idleCrane stock.plant.site (blocked.setClaim 1 (some ⟨10, 10⟩)) 1 blockedTicket = some 0
    ∧ (examine stock.plant.site (blocked.updTicket 1 (fun u => { u with source := some (.hook 2) })) 1).2 = false := by decide +kernel

/-- R138: claims in crane order, and claims that cover the work under way. -/
theorem test_meets_claims :
    stock.plant.yard.claim 0 = some ⟨0, 0⟩ ∧ stock.plant.yard.claim 1 = some ⟨10, 20⟩ ∧ stock.plant.yard.claim 2 = some ⟨63, 63⟩
    ∧ currentTicket (moving (shift .granted) (atWork .travel)).plant.yard 1 = some (0, shift .granted)
    ∧ neededBays stock.plant.site (moving (shift .granted) (atWork .travel)).plant.yard (shift .granted) = [10, 20]
    ∧ arrivedFits (moving (shift .granted) (atWork .travel)).plant.yard 1 ⟨.travel, 7, 10⟩ (shift .granted) = true
    ∧ liftedFits (moving (shift .lifting) (atWork .lift)).plant.yard 1 ⟨.lift, 7, 10⟩ (shift .lifting) = true := by decide +kernel

/-- The three claims of a yard stand in crane order. -/
theorem claimsOrdered_of (y : Yard) (a b c : Interval) (h0 : y.claim 0 = some a) (h1 : y.claim 1 = some b) (h2 : y.claim 2 = some c)
    (h : a.lo ≤ a.hi ∧ b.lo ≤ b.hi ∧ c.lo ≤ c.hi ∧ a.hi < b.lo ∧ b.hi < c.lo) : y.claimsOrdered := by
  have none3 : ∀ k, 3 ≤ k → y.claim k = none := by
    intro k hk
    show ((y.arbiter[k]?).getD ⟨none, none⟩).claim = none
    rw [Vector.getElem?_eq_none (by omega)]; rfl
  have lt3 : ∀ k i, y.claim k = some i → k < 3 := by
    intro k i hi
    by_cases hk : k < 3
    · exact hk
    · rw [none3 k (by omega)] at hi; cases hi
  have at3 : ∀ k, k < 3 → k = 0 ∨ k = 1 ∨ k = 2 := by omega
  constructor
  · intro k i hi
    rcases at3 k (lt3 k i hi) with rfl | rfl | rfl <;> simp_all
  · intro j k i i' hjk hi hi'
    rcases at3 j (lt3 j i hi) with rfl | rfl | rfl <;> rcases at3 k (lt3 k i' hi') with rfl | rfl | rfl <;> simp_all
    all_goals omega

/-- Crane 1 on its way to the source of the ticket in slot 0. -/
def underWay : Yard := (moving (shift .granted) (atWork .travel)).plant.yard

theorem test_meets_StepsKeepTheRanges_claims :
    underWay.claimsOrdered ∧ underWay.claim 1 ≠ none ∧ ∀ k, k < 3 → underWay.claimCovers stock.plant.site k := by
  refine ⟨claimsOrdered_of _ ⟨0, 0⟩ ⟨10, 20⟩ ⟨63, 63⟩ (by decide +kernel) (by decide +kernel) (by decide +kernel) (by decide),
    by decide +kernel, fun k hk => ?_⟩
  have idle : ∀ k, (underWay.crane k).state = .unhomed → currentTicket underWay k = none → underWay.claimCovers stock.plant.site k := by
    intro k hs hc
    refine ⟨fun h => ?_, fun slot t h => ?_⟩
    · rw [hs] at h; rcases h with h | h <;> cases h
    · rw [hc] at h; cases h
  have : k = 0 ∨ k = 1 ∨ k = 2 := by omega
  rcases this with rfl | rfl | rfl
  · exact idle 0 (by decide +kernel) (by decide +kernel)
  · refine ⟨fun _ => by decide +kernel, fun slot t h => ⟨⟨10, 20⟩, by decide +kernel, ?_⟩⟩
    rw [show currentTicket underWay 1 = some (0, shift .granted) by decide +kernel] at h
    cases h
    refine ⟨fun o ho _ => ?_, fun _ => by decide +kernel, fun h => (by cases h), fun h => ?_⟩
    · rw [show (underWay.crane 1).stage = some ⟨.travel, 7, 10⟩ by decide +kernel] at ho
      cases ho; decide
    · rcases h with ⟨h, _⟩ | h | h <;> cases h
  · exact idle 2 (by decide +kernel) (by decide +kernel)

/-- The one ticket of that yard. -/
theorem ticketAt_underWay (slot : Nat) : underWay.ticketAt slot = if slot = 0 then some (shift .granted) else none := by
  by_cases h : slot < 24
  · exact (by decide +kernel : ∀ i, i < 24 → underWay.ticketAt i = if i = 0 then some (shift .granted) else none) slot h
  · rw [if_neg (by omega)]
    show ((underWay.tickets[slot]?).getD ⟨0, none⟩).ticket = none
    rw [Vector.getElem?_eq_none (by omega)]; rfl

/-- The arrival of that crane waiting in the queue. -/
def arriving : State := { moving (shift .granted) (atWork .travel) with pending := [.arrived 1 7] }

/-- The premises under which the claims keep covering the work: tickets and cranes agree, and no command writes a bay; a command
that defines stack 5 writes the bay of no ticket under way. -/
theorem test_meets_StepsKeepTheRanges_serves :
    QueueInv arriving ∧ arriving.plant.yard.serves ∧ (∀ c, arriving.mayStart c → ∀ u, ¬writesBayOf u c)
    ∧ arriving.ready ∧ Instr.command? (.defineStack hd 5 1 3 4 400) = some (hd, .defineStack 5 1 3 4 400)
    ∧ (∀ slot u, arriving.plant.yard.ticketAt slot = some u → u.state.served = true →
        ¬writesBayOf u (.defineStack 5 1 3 4 400))
    ∧ gives (.defineStack hd 5 1 3 4 400) arriving (fun t => decide ((t.plant.yard.stack 5).bay = 3)) = true := by
  have one : ∀ slot t, arriving.plant.yard.ticketAt slot = some t → slot = 0 ∧ t = shift .granted := by
    intro slot t h
    rw [show arriving.plant.yard.ticketAt slot = _ from ticketAt_underWay slot] at h
    split at h
    · exact ⟨by assumption, by cases h; rfl⟩
    · cases h
  have is : arriving.plant.yard.ticketAt 0 = some (shift .granted) := ticketAt_underWay 0
  refine ⟨⟨by decide +kernel, by decide +kernel, fun slot => ?_, fun slot => ?_⟩, ⟨fun k h hk hc => ?_, fun slot t h _ => ?_, fun slot t h => ?_⟩,
    fun c h => ?_, ⟨by decide +kernel, by decide +kernel⟩, rfl, fun slot t h _ => ?_, by decide +kernel⟩
  · rw [show arriving.plant.yard.moveQueue = [0] by decide +kernel, List.mem_singleton]
    refine ⟨fun h => by rw [h, is]; rfl, fun h => ?_⟩
    obtain ⟨t, ht⟩ := Option.isSome_iff_exists.mp h
    exact (one slot t ht).1
  · rw [show arriving.plant.yard.finished = [] by decide +kernel]
    refine ⟨fun h => (List.not_mem_nil h).elim, fun ⟨t, ht, ha⟩ => ?_⟩
    rw [(one slot t ht).2] at ha; cases ha
  · have at3 : k = 0 ∨ k = 1 ∨ k = 2 := by omega
    rcases at3 with rfl | rfl | rfl
    · rw [show (arriving.plant.yard.crane 0).current = none by decide +kernel] at hc; cases hc
    · rw [show (arriving.plant.yard.crane 1).current = some ⟨0, 0⟩ by decide +kernel] at hc; cases hc
      exact ⟨.inl (by decide +kernel), shift .granted, by decide +kernel, rfl, rfl⟩
    · rw [show (arriving.plant.yard.crane 2).current = none by decide +kernel] at hc; cases hc
  · obtain ⟨rfl, rfl⟩ := one slot t h
    exact ⟨1, by decide, rfl, by decide +kernel⟩
  · obtain ⟨-, rfl⟩ := one slot t h
    refine ⟨fun h => ?_, fun _ _ => ⟨rfl, rfl⟩, fun _ k h => by cases h⟩
    rcases h with h | h <;> cases h
  · rcases h with ⟨i, rest, h, hb⟩ | ⟨e, he, -⟩
    · cases h; cases hb
    · rw [show arriving.port.commandQueue = [] by decide +kernel] at he; exact (List.not_mem_nil he).elim
  · obtain ⟨-, rfl⟩ := one slot t h
    rintro (⟨tier, h⟩ | h) <;> cases h

/-! ### Wait reasons, levels, promotion, evaluations -/

/-- Two tickets of the stock: in slot 0 a ticket, and behind it in slot 1 another. -/
def pair (a b : Ticket) : Yard := (stock.plant.yard.placeTicket 0 a).placeTicket 1 b

/-- A ticket for piece 2 from lane 0 to lane 1, which no reason keeps waiting. -/
def free (kind : TicketKind) : Ticket := { shift .ready with
  kind := kind, piece := some ⟨2, 0⟩, source := some (.lane 0), dest := some (.lane 1) }

/-- R121: each wait reason with its condition met and not met. -/
theorem test_meets_FollowUpWorkKeepsTheRecords_waits :
    (pair (free .stow) (free .stow)).ticketAt 1 = some (free .stow) ∧ (pair (free .stow) (free .stow)).moveQueue = [0] ++ 1 :: []
    ∧ evalWaits stock.plant.site (pair (free .stow) (free .stow)) 1 (free .stow) = .none
    ∧ (let w (a t : Ticket) := evalWaits stock.plant.site (pair a t) 1 t
       (w (free .stow) { free .stow with after := true }).after = true
       ∧ (w { free .stow with state := .done } { free .stow with after := true }).after = false
       ∧ (w (free .stow) { free .stow with piece := some ⟨0, 0⟩ }).source = true
       ∧ (w (free .stow) { free .stow with source := some (.bed 0 0) }).source = true
       ∧ (w (free .stow) { free .shift with piece := some ⟨3, 0⟩, source := some (.truck 0 1) }).source = false
       ∧ (w { free .pick with truck := some 0 } { free .shift with piece := some ⟨3, 0⟩, source := some (.truck 0 1) }).source = true
       ∧ (w (free .stow) (shift .ready)).buried = true ∧ (w (free .stow) (shift .ready)).source = false
       ∧ (w (free .stow) (shift .ready)).dest = true ∧ (w (free .stow) { free .stow with dest := none }).redirect = true
       ∧ (w { free .pick with truck := some 0 } { free .pick with truck := some 0 }).order = true
       ∧ (w { free .pick with truck := some 1 } { free .pick with truck := some 0 }).order = false
       ∧ (w (free .stow) { free .stow with source := some (.hook 1) }).source = false)
    ∧ evalWaits (stopOn stock).plant.site (pair (free .stow) (free .yield)) 1 { free .yield with dest := none }
      = { Waits.none with stop := true }
    ∧ (evalWaits stock.plant.site (moving (shift .ready) (.reset 32)).plant.yard 0 (shift .ready)) = .none
    ∧ (evalWaits stock.plant.site ((moving (shift .ready) (.reset 32)).plant.yard.updStack 0 (fun r => { r with
        claims := ⟨.place, ⟨9, 0⟩⟩ :: r.claims })) 0 (shift .ready)).source = true := by decide +kernel

/-- R123: the level of each kind after the work that follows a change, and the levels kept. -/
theorem test_meets_FollowUpWorkKeepsTheRecords_levels :
    (pair (free .stow) (free .yield)).moveQueue.Nodup
    ∧ (∀ slot, slot < 24 → (slot ∈ (pair (free .stow) (free .yield)).moveQueue
        ↔ ((pair (free .stow) (free .yield)).ticketAt slot).isSome = true))
    ∧ (let e : Site := { stock.plant.site with beds := upd stock.plant.site.beds 0 (fun b => { b with turnover := 2 }) }
       let y : Yard := (stock.plant.yard.updLane 0 (fun l => { l with demand := 3 })).updTruck 1 (fun r => { r with level := 2 })
       let levels (y : Yard) (a b : Ticket) : List Nat :=
         [0, 1].filterMap (fun i => ((followUp e ((y.placeTicket 0 a).placeTicket 1 b)).ticketAt i).map (fun t => t.level))
       let yield := { free .yield with source := none, piece := none, dest := some (.bay 3), level := 1, serves := some ⟨0, 0⟩ }
       let pick := { free .pick with truck := some 1, dest := some (.truck 1), level := 1 }
       levels y (free .stow) yield = [3, 3] ∧ levels y { free .stow with state := .done } yield = [0, 1]
       ∧ levels y { free .strip with source := some (.bed 0 0) } (free .shift) = [2, 0]
       ∧ levels y { free .strip with source := some (.bed 0 0), baseLevel := 3 } { free .park with level := 2 } = [3, 0]
       ∧ levels y pick yield = [1, 1]
       ∧ levels (y.updPiece 2 (fun r => { r with order := some 1 })) pick yield = [2, 2]) := by decide +kernel

/-- A LIFT claim on piece 1, and behind it in slot 1 a ticket buried under that piece. -/
def promotable1 : Yard := ((moving (shift .ready) (.reset 32)).plant.yard.placeTicket 1
  { shift .pending with piece := some ⟨0, 0⟩, source := some (.stack 0 1), dest := some (.lane 1) }).updStack 0 (setBuried 1)

/-- R126: the promotion of a buried ticket, at each occasion, and the cases in which it waits. -/
theorem test_meets_FollowUpWorkKeepsTheRecords_promotion :
    (projection promotable1 0).getLast? = some ⟨0, 0⟩ ∧ buriedIn promotable1 1 = some 0 ∧ (promotable1.stack 0).claims.length < 4
    ∧ (promote 0 promotable1).stack 0 = { promotable1.stack 0 with
        claims := [⟨.lift, ⟨0, 0⟩⟩, ⟨.lift, ⟨1, 0⟩⟩], buried := 0, digLock := false }
    ∧ (promoteAll promotable1).stack 0 = (promote 0 promotable1).stack 0
    ∧ (promote 0 buried.plant.yard).stack 0 = buried.plant.yard.stack 0
    ∧ (let full := promotable1.updStack 0 (fun r => { r with claims := r.claims ++ List.replicate 3 ⟨.place, ⟨9, 1⟩⟩ })
       (projection full 0).getLast? = some ⟨0, 0⟩ ∧ (promote 0 full).stack 0 = full.stack 0
       ∧ ((removeClaim stock.plant.site full 0 ⟨.place, ⟨9, 1⟩⟩).stack 0).claims = [⟨.lift, ⟨0, 0⟩⟩, ⟨.lift, ⟨1, 0⟩⟩])
    ∧ (removeClaim stock.plant.site promotable1 0 ⟨.place, ⟨0, 0⟩⟩).stack 0 = promotable1.stack 0
    ∧ (let bare := promotable1.updStack 0 (fun r => { r with claims := [] })
       ((appendLift bare 0 ⟨0, 0⟩).stack 0).claims = [⟨.lift, ⟨0, 0⟩⟩, ⟨.lift, ⟨1, 0⟩⟩])
    ∧ (followUp stock.plant.site promotable1).stack 0 = (promote 0 promotable1).stack 0 := by decide +kernel

/-- R141: an evaluation of two walks, one that makes no walk, and the changes that are an occasion. -/
theorem test_meets_FollowUpWorkKeepsTheRecords_evaluations :
    stock.plant.site.stop = false ∧ (∀ k, k < 3 → urgent.claim k ≠ none) ∧ urgent.moveQueue.length ≤ 24
    ∧ (∀ slot, slot < 24 → ∀ t, urgent.ticketAt slot = some t → t.level < 4)
    ∧ (walk stock.plant.site 25 0 urgent).2 = true
    ∧ (walk stock.plant.site 25 0 (walk stock.plant.site 25 0 urgent).1).2 = false
    ∧ (evaluate stock.plant.site urgent).ticketAt 1 = (walk stock.plant.site 25 0 urgent).1.ticketAt 1
    ∧ (evaluate stock.plant.site (urgent.setClaim 2 none)).ticketAt 1 = some urgentTicket
    ∧ (let y0 := (moving (shift .ready) (.reset 32)).plant.yard
       let idle := y0.updCrane 1 (fun c => { c with state := .idle })
       ((settle stock.plant.site y0 idle).ticketAt 0).any (fun t => decide (t.state = .granted)) = true
       ∧ ((settle stock.plant.site idle idle).ticketAt 0).any (fun t => decide (t.state = .ready)) = true
       ∧ ((settle stock.plant.site (idle.updTicket 0 (fun t => { t with state := .pending })) idle).ticketAt 0).any
           (fun t => decide (t.state = .granted)) = true
       ∧ ((settle stock.plant.site (idle.updTicket 0 (fun t => { t with level := 1 })) idle).ticketAt 0).any
           (fun t => decide (t.state = .granted)) = true
       ∧ ((settle stock.plant.site (idle.setClaim 2 (some ⟨62, 63⟩)) idle).ticketAt 0).any
           (fun t => decide (t.state = .granted)) = true
       ∧ ((settleClaim stock.plant.site idle).ticketAt 0).any (fun t => decide (t.state = .granted)) = true) := by decide +kernel

/-! ### The ends of tickets and listings, and what the lines carry -/

/-- R130, R132, R163: the claims, the reservation and the current pick that leave with a ticket that fails; the STOP of a STOPPED
crane stays awaited. -/
theorem test_meets_tickets_that_fail :
    gives (.lowered 1 7) (moving { shift .lifting with weightFailed := true } (atWork .lower)) (fun t =>
        decide ((t.plant.yard.stack 0).claims = [] ∧ (t.plant.yard.stack 1).claims = [])) = true
    ∧ gives (.lowered 1 7) (stopOn (moving { shift .lifting with weightFailed := true } { atWork .lower with
        state := .stopped, stopOrder := some 6 })) (fun t => decide (t.plant.yard.crane 1 = { atWork .lower with
          state := .stopped, stopOrder := some 6, current := none, stage := none })) = true
    ∧ gives (.lowered 1 7) (inYard (fun y => y.updTicket 0 (fun u => { u with weightFailed := true })) (picking .lifting (atWork .lower)))
        (fun t => (t.plant.yard.ticketAt 0).any (fun u => decide (u.state = .failed ∧ u.outcome = .weight))
          && decide ((t.plant.yard.truck 1).currentPick = some ⟨1, 0⟩)) = true
    ∧ gives (.fault 1 0 9 0) (moving (shift .lifting) (atWork .lift)) (fun t =>
        decide ((t.plant.yard.stack 0).claims = [] ∧ (t.plant.yard.stack 1).claims = [])) = true
    ∧ gives (.fault 1 0 9 0) (moving { shift .setting with dest := some (.lane 1) } (atWork .lower)) (fun t =>
        decide ((t.plant.yard.lane 1).reservations = 0 ∧ (t.plant.yard.stack 0).claims = [])) = true
    ∧ gives (.fault 1 0 9 0) (picking .lifting (atWork .lift)) (fun t =>
        (t.plant.yard.ticketAt 0).any (fun u => decide (u.state = .failed)) && decide ((t.plant.yard.truck 1).currentPick = some ⟨1, 0⟩)) = true := by
  decide +kernel

/-- R130, R183: a failed weight check ends the listing of a listed piece, at next index with its current pick and the completion
test; a piece that has its WEIGHT hold already stays listed. -/
theorem test_meets_LiftedTakesThePieceOrHoldsIt_listed :
    ((picking .lifting (atWork .lift)).plant.yard.truck 1).currentPick = some ⟨0, 0⟩
    ∧ gives (.lifted 1 7 99) (picking .lifting (atWork .lift)) (fun t => decide (t.plant.yard.truck 1
        = { (picking .lifting (atWork .lift)).plant.yard.truck 1 with orderList := [], flagChanged := true, currentPick := none })
        && (t.plant.yard.ticketAt 0).any (fun u => u.weightFailed && u.holdPending)) = true
    ∧ gives (.lifted 1 7 99) (inYard (fun y => y.updTruck 1 (fun r => { r with orderList := [⟨9, 0⟩, ⟨2, 0⟩], nextIndex := 1 }))
        (picking .lifting (atWork .lift))) (fun t => decide ((t.plant.yard.truck 1).state = .complete)
        && (t.plant.yard.truck 1).flagComplete) = true
    ∧ gives (.lifted 1 7 99) (inYard (fun y => y.updTruck 1 (fun r => { r with orderList := [⟨9, 0⟩, ⟨2, 0⟩], currentPick := some ⟨5, 0⟩ }))
        (picking .lifting (atWork .lift))) (fun t => decide ((t.plant.yard.truck 1).orderList = [⟨9, 0⟩]
          ∧ (t.plant.yard.truck 1).currentPick = some ⟨5, 0⟩) && (t.plant.yard.ticketAt 0).any (fun u => !u.holdPending)) = true
    ∧ gives (.lifted 1 7 99) (inYard (fun y => y.updPiece 2 (fun p => { p with holds := ⟨false, false, true, false⟩ }))
        (picking .lifting (atWork .lift))) (fun t => decide ((t.plant.yard.truck 1).orderList = [⟨2, 0⟩])) = true := by decide +kernel

/-- R80, R56: a LOST expiry puts the OFF order on the bed line where it is not the last one sent. -/
theorem test_meets_ExpiriesFollowTheGapCount_line :
    gives (.lostExpiry 0) (silent .gap 29) (fun t => decide ((t.plant.bedLine 0).writing = some (linkFrame 0x21 0 [0#8, 0#8]))) = true
    ∧ ((silent .gap 29).plant.heat 0).lastOrder ≠ ⟨.off, 0⟩
    ∧ gives (.lostExpiry 11) (openWith (fun p => p.updIntake 11 (fun r => { r with gapCount := 29 })))
        (fun t => decide (t.plant.bedLine 11 = .reset)) = true := by decide +kernel

/-- R219: the lengths of the listed kinds and the layout of a frame, at the ends of the kinds. -/
theorem test_meets_LinesCarryTheirFrames_layout :
    linkFrame 0x66 255 [9#8, 63#8] = [0x7E#8, 0x66#8, 255#8, 9#8, 63#8, 0x53#8]
    ∧ byteSum (linkFrame 0x66 255 [9#8, 63#8]).tail = 0
    ∧ linkPayload 0x20 = none ∧ linkPayload 0x21 = some 3 ∧ linkPayload 0x22 = some 4 ∧ linkPayload 0x40 = none
    ∧ linkPayload 0x46 = some 1 ∧ linkPayload 0x47 = none ∧ linkPayload 0x60 = none ∧ linkPayload 0x66 = some 3
    ∧ linkPayload 0x67 = none := by decide

/-- R123: a DIG or YIELD keeps its level when the slot it served is in use again behind it. -/
theorem test_servedTicket :
    (let y := (stock.plant.yard.placeTicket 1 { shift .ready with kind := .yield, level := 3, serves := some ⟨0, 0⟩ }).placeTicket 0 (shift .ready)
     servedTicket y 1 { shift .ready with kind := .yield, level := 3, serves := some ⟨0, 0⟩ } = none
     ∧ ticketLevel stock.plant.site y 1 { shift .ready with kind := .yield, level := 3, serves := some ⟨0, 0⟩ } = 3)
    ∧ (let y := (stock.plant.yard.placeTicket 0 { shift .ready with level := 2 }).placeTicket 1 (shift .ready)
       ticketLevel stock.plant.site y 1 { shift .ready with kind := .dig, serves := some ⟨0, 0⟩ } = 2) := by decide +kernel

end Sys2Proof.Tests
end

