-- ==== Sys2Proof/Proofs/Census.lean ====
section
/-! PROOF. What the invariants of the tables read of the yard, its census, and that no operation of the move machinery
changes it but the making and the ending of a ticket (R114, R132). -/

namespace Sys2Proof.Machine

/-! ## The census of a yard -/

/-- What a piece slot counts for: its generation, and the mark and the class of a live record. -/
def PieceSlot.entry (ps : PieceSlot) : Nat × Option (Nat × Nat) := (ps.gen, ps.piece.map (fun p => (p.mark, p.cls)))

/-- What a ticket slot counts for: its generation, and whether its ticket is active. -/
def TicketSlot.entry (ts : TicketSlot) : Nat × Option Bool := (ts.gen, ts.ticket.map (fun t => t.state.isActive))

/-- What the invariants of the tables read of a yard. -/
structure Census where
  pieces    : Vector (Nat × Option (Nat × Nat)) 1024
  tickets   : Vector (Nat × Option Bool) 24
  moveQueue : List Nat
  finished  : List Nat

/-- The census of a yard. -/
def Yard.census (y : Yard) : Census :=
  ⟨y.pieces.map PieceSlot.entry, y.tickets.map TicketSlot.entry, y.moveQueue, y.finished⟩

/-- A projected vector is read by projecting what the vector reads. -/
theorem getOr_map {α β : Type} {n : Nat} (g : α → β) (v : Vector α n) (i : Nat) (d : α) :
    getOr (v.map g) i (g d) = g (getOr v i d) := by
  by_cases h : i < n
  · simp [getOr_lt _ _ _ h]
  · simp [getOr_ge _ _ _ (Nat.not_lt.mp h)]

theorem Yard.ticketSlot_entry (y : Yard) (i : Nat) : (y.ticketSlot i).entry = getOr y.census.tickets i (0, none) :=
  (getOr_map TicketSlot.entry y.tickets i ⟨0, none⟩).symm

theorem Yard.pieceSlot_entry (y : Yard) (i : Nat) : (y.pieceSlot i).entry = getOr y.census.pieces i (0, none) :=
  (getOr_map PieceSlot.entry y.pieces i ⟨0, none⟩).symm

/-- Whether the ticket in a slot is active is read from the slot's entry. -/
theorem Yard.ticketAt_entry (y : Yard) (i : Nat) :
    (y.ticketAt i).map (fun t => t.state.isActive) = (y.ticketSlot i).entry.2 := rfl

theorem Yard.activeAt_entry (y : Yard) (i : Nat) : y.activeAt i = true ↔ (y.ticketSlot i).entry.2 = some true := by
  rw [activeAt_iff, ← Yard.ticketAt_entry]
  simp

/-- Yards with one census have the same slots with an active ticket. -/
theorem Yard.activeAt_of_census {y y' : Yard} (h : y'.census = y.census) {i : Nat} (ha : y.activeAt i = true) :
    y'.activeAt i = true := by
  rw [Yard.activeAt_entry, Yard.ticketSlot_entry] at ha ⊢
  rwa [h]

/-! ## The updates -/

section
variable (y : Yard) (i : Nat)

@[simp] theorem census_updStack (f : StackRecord → StackRecord) : (y.updStack i f).census = y.census := rfl
@[simp] theorem census_updLane (f : LaneRecord → LaneRecord) : (y.updLane i f).census = y.census := rfl
@[simp] theorem census_updTruck (f : TruckRecord → TruckRecord) : (y.updTruck i f).census = y.census := rfl
@[simp] theorem census_updCrane (f : CraneRecord → CraneRecord) : (y.updCrane i f).census = y.census := rfl
@[simp] theorem census_updArb (f : ArbiterRecord → ArbiterRecord) : (y.updArb i f).census = y.census := rfl
@[simp] theorem census_updLink (f : CraneLine → CraneLine) : (y.updLink i f).census = y.census := rfl
@[simp] theorem census_setClaim (c : Option Interval) : (y.setClaim i c).census = y.census := rfl

/-- A change of a piece that leaves its mark and its class. -/
theorem census_updPiece (f : Piece → Piece) (h : ∀ p, ((f p).mark, (f p).cls) = (p.mark, p.cls)) :
    (y.updPiece i f).census = y.census := by
  have hp : (y.updPiece i f).pieces.map PieceSlot.entry = y.pieces.map PieceSlot.entry := by
    rw [Yard.updPiece_pieces, map_upd_of_comp]
    intro ps
    simp [PieceSlot.entry, Option.map_map, Function.comp_def, h]
  unfold Yard.census
  rw [hp]
  rfl

/-- A change of a ticket that leaves it active or not, as it was. -/
theorem census_updTicket (f : Ticket → Ticket)
    (h : ∀ t, y.ticketAt i = some t → (f t).state.isActive = t.state.isActive) :
    (y.updTicket i f).census = y.census := by
  have ht : (y.updTicket i f).tickets.map TicketSlot.entry = y.tickets.map TicketSlot.entry := by
    rw [Yard.updTicket_tickets]
    by_cases hi : i < 24
    · ext j hj
      · simp only [Vector.getElem_map, upd, hi, dif_pos]
        by_cases hij : i = j
        · subst hij
          rw [Vector.getElem_set_self]
          rfl
        · rw [Vector.getElem_set_ne hi hj hij]
      · simp only [Vector.getElem_map, upd, hi, dif_pos]
        by_cases hij : i = j
        · subst hij
          rw [Vector.getElem_set_self]
          have hs : y.ticketAt i = y.tickets[i].ticket := by
            unfold Yard.ticketAt Yard.ticketSlot
            rw [getOr_lt _ _ _ hi]
          cases hts : y.tickets[i].ticket with
          | none => simp [TicketSlot.entry, hts]
          | some t => simp [TicketSlot.entry, hts, h t (hs.trans hts)]
        · rw [Vector.getElem_set_ne hi hj hij]
    · rw [upd_ge _ _ _ (Nat.not_lt.mp hi)]
  unfold Yard.census
  rw [ht]
  rfl

end

/-- A walk of steps that each keep the census keeps it. -/
theorem census_forEach {α : Type} (f : Yard → α → Yard) (h : ∀ y a, (f y a).census = y.census) (xs : List α) (y : Yard) :
    (forEach xs f y).census = y.census := by
  unfold forEach
  induction xs generalizing y with
  | nil => rfl
  | cons x xs ih => rw [List.foldl_cons, ih, h]

/-! ## Orders, claims, holders -/

@[simp] theorem census_sendStage (e : Site) (y : Yard) (k : Nat) (kind : OrderKind) (arg : Nat) :
    (sendStage e y k kind arg).census = y.census := rfl
@[simp] theorem census_sendStop (e : Site) (y : Yard) (k : Nat) : (sendStop e y k).census = y.census := rfl
@[simp] theorem census_setLanePieces (e : Site) (y : Yard) (l : Nat) (f : List Handle → List Handle) :
    (setLanePieces e y l f).census = y.census := rfl

@[simp] theorem census_setPieceTicket (y : Yard) (p : Handle) (h : Option Handle) :
    (setPieceTicket y p h).census = y.census := census_updPiece _ _ _ fun _ => rfl

theorem census_promoteUpTo (n s : Nat) (y : Yard) : (promoteUpTo n s y).census = y.census := by
  induction n generalizing y with
  | zero => rfl
  | succ n ih =>
    unfold promoteUpTo
    split
    · split
      · rw [ih]; rfl
      · rfl
    · rfl

@[simp] theorem census_promote (s : Nat) (y : Yard) : (promote s y).census = y.census := census_promoteUpTo _ _ _

@[simp] theorem census_appendLift (y : Yard) (s : Nat) (h : Handle) : (appendLift y s h).census = y.census :=
  census_promote _ _

theorem census_dropClaim (s : Nat) (y : Yard) (c : Claim) : (dropClaim s y c).census = y.census := by
  unfold dropClaim
  split
  · rfl
  · exact census_updTicket _ _ _ fun _ _ => rfl

@[simp] theorem census_removeClaim (e : Site) (y : Yard) (s : Nat) (c : Claim) :
    (removeClaim e y s c).census = y.census := by
  unfold removeClaim
  split
  · rw [census_promote]
    unfold repair
    rw [census_forEach _ (census_dropClaim s)]
    rfl
  · rfl

@[simp] theorem census_claimDest (y : Yard) (h : Handle) (d : Option Dest) : (claimDest y h d).census = y.census := by
  unfold claimDest
  split <;> rfl

@[simp] theorem census_clearPick (y : Yard) (h : Handle) : (clearPick y h).census = y.census := by
  unfold clearPick
  exact census_forEach _ (fun _ _ => census_updTruck _ _ _) _ _

@[simp] theorem census_unbind (y : Yard) (h : Handle) : (unbind y h).census = y.census := by
  unfold unbind
  exact census_forEach _ (fun _ _ => census_updArb _ _ _) _ _

@[simp] theorem census_clearPieceTicket (y : Yard) (t : Ticket) : (clearPieceTicket y t).census = y.census := by
  unfold clearPieceTicket
  split
  · exact census_setPieceTicket _ _ _
  · rfl

/-- R132: the LIFT claim of a ticket removed from its source. -/
def releaseSource (e : Site) (y : Yard) (h : Handle) (source : Option Location) : Yard :=
  match source with
  | some (.stack s _) => removeClaim e y s ⟨.lift, h⟩
  | _ => y

/-- R94, R132: the BURIED mark of a ticket taken from the count of its stack. -/
def releaseBuried (y : Yard) (buried : Option Nat) : Yard :=
  match buried with
  | some s => lowerBuried y s
  | none => y

/-- R132: the PLACE claim or the reservation of a ticket removed from its destination. -/
def releaseDest (e : Site) (y : Yard) (h : Handle) (dest : Option Dest) : Yard :=
  match dest with
  | some (.stack s) => removeClaim e y s ⟨.place, h⟩
  | some (.lane l) => unreserve y l
  | _ => y

/-- R132: the claims of a ticket are removed in three steps. -/
theorem releaseClaims_eq (e : Site) (y : Yard) (h : Handle) (t : Ticket) (buried : Option Nat) :
    releaseClaims e y h t buried = releaseDest e (releaseBuried (releaseSource e y h t.source) buried) h t.dest := rfl

@[simp] theorem census_releaseClaims (e : Site) (y : Yard) (h : Handle) (t : Ticket) (buried : Option Nat) :
    (releaseClaims e y h t buried).census = y.census := by
  have hsource : (releaseSource e y h t.source).census = y.census := by
    unfold releaseSource
    split
    · exact census_removeClaim _ _ _ _
    · rfl
  have hburied : ∀ y1, (releaseBuried y1 buried).census = y1.census := fun y1 => by
    unfold releaseBuried
    split <;> rfl
  have hdest : ∀ y1, (releaseDest e y1 h t.dest).census = y1.census := fun y1 => by
    unfold releaseDest
    split
    · exact census_removeClaim _ _ _ _
    · rfl
    · rfl
  rw [releaseClaims_eq, hdest, hburied, hsource]

@[simp] theorem census_stopCraneOf (e : Site) (y : Yard) (t : Ticket) : (stopCraneOf e y t).census = y.census := by
  unfold stopCraneOf
  split <;> rfl

/-! ## Wait reasons, levels, returned tickets (R121 to R123, R127) -/

/-- A PENDING or READY ticket that is evaluated stays active. -/
@[simp] theorem census_refreshTicket (e : Site) (y : Yard) (slot : Nat) : (refreshTicket e y slot).census = y.census := by
  unfold refreshTicket
  split
  · rename_i t ht
    split
    · rename_i hw
      refine census_updTicket _ _ _ fun u hu => ?_
      obtain rfl : t = u := Option.some.inj (ht.symm.trans hu)
      have ha : t.state.isActive = true := by rcases hw with h | h <;> rw [h] <;> rfl
      rw [ha]
      dsimp only
      split <;> rfl
    · rfl
  · rfl

@[simp] theorem census_refreshAll (e : Site) (y : Yard) : (refreshAll e y).census = y.census :=
  census_forEach _ (census_refreshTicket e) _ _

@[simp] theorem census_refreshLevel (e : Site) (y : Yard) (slot : Nat) : (refreshLevel e y slot).census = y.census := by
  unfold refreshLevel
  split
  · split
    · exact census_updTicket _ _ _ fun _ _ => rfl
    · rfl
  · rfl

@[simp] theorem census_refreshLevels (e : Site) (y : Yard) : (refreshLevels e y).census = y.census :=
  census_forEach _ (census_refreshLevel e) _ _

/-- An active ticket that takes another active state. -/
theorem census_updTicket_active (y : Yard) (slot : Nat) (f : Ticket → Ticket) (ha : y.activeAt slot = true)
    (hf : ∀ t, (f t).state.isActive = true) : (y.updTicket slot f).census = y.census := by
  obtain ⟨t, ht, hact⟩ := (activeAt_iff y slot).1 ha
  refine census_updTicket _ _ _ fun u hu => ?_
  obtain rfl : t = u := Option.some.inj (ht.symm.trans hu)
  rw [hf, hact]

theorem census_returnTicket (e : Site) (y : Yard) (slot : Nat) (ha : y.activeAt slot = true) :
    (returnTicket e y slot).census = y.census := by
  unfold returnTicket
  rw [census_refreshTicket, census_updTicket_active _ _ _ ha fun _ => rfl]

/-! ## Searches and grants (R111, R127, R143, R185) -/

@[simp] theorem census_giveDest (y : Yard) (slot : Nat) (d : Dest) : (giveDest y slot d).census = y.census := by
  unfold giveDest
  rw [census_claimDest]
  exact census_updTicket _ _ _ fun _ _ => rfl

@[simp] theorem census_giveLaden (e : Site) (y : Yard) (slot k s : Nat) : (giveLaden e y slot k s).census = y.census := by
  unfold giveLaden
  rw [census_sendStage, census_setClaim, census_giveDest]

@[simp] theorem census_redirectOne (e : Site) (y : Yard) (slot : Nat) : (redirectOne e y slot).census = y.census := by
  unfold redirectOne
  split
  · split
    · split
      · split
        · split
          · exact census_giveLaden _ _ _ _ _
          · rfl
        · rfl
      · split
        · split
          · exact census_giveDest _ _ _
          · rfl
        · rfl
    · rfl
  · rfl

@[simp] theorem census_redirectAll (e : Site) (y : Yard) : (redirectAll e y).census = y.census :=
  census_forEach _ (census_redirectOne e) _ _

@[simp] theorem census_loseDest (y : Yard) (slot : Nat) : (loseDest y slot).census = y.census :=
  census_updTicket _ _ _ fun _ _ => rfl

@[simp] theorem census_promoteAll (y : Yard) : (promoteAll y).census = y.census := by
  refine census_forEach _ (fun y a => ?_) _ _
  split
  · exact census_promote _ _
  · rfl

theorem census_grant (e : Site) (y : Yard) (slot k : Nat) (t : Ticket) (ha : y.activeAt slot = true) :
    (grant e y slot k t).census = y.census := by
  unfold grant
  dsimp only
  rw [census_sendStage, census_updCrane]
  refine (census_updTicket_active _ _ _ (Yard.activeAt_of_census (census_setClaim _ _ _) ha) fun u => ?_).trans
    (census_setClaim _ _ _)
  dsimp only
  split <;> rfl

end Sys2Proof.Machine
end

