-- ==== Sys2Proof/Proofs/QueueSteps.lean ====
section
/-! PROOF. The changes of a yard that keep the move queue and the finished list in agreement with the tickets (R115, R135),
write no mark, no class and no generation; and that the move machinery makes no other change. -/

namespace Sys2Proof.Machine

/-- R115, R135: the queue invariant, read from the yard. -/
def Yard.queueOk (y : Yard) : Prop :=
  y.moveQueue.Nodup ∧ y.finished.Nodup ∧ (∀ slot, slot ∈ y.moveQueue ↔ (y.ticketAt slot).isSome = true)
    ∧ ∀ slot, slot ∈ y.finished ↔ ∃ t, y.ticketAt slot = some t ∧ t.state.isActive = false

theorem queueInv_iff (s : State) : QueueInv s ↔ s.plant.yard.queueOk := Iff.rfl

/-- The queue invariant read from the census: a slot is in use, or holds a finished ticket, by its entry. -/
theorem Yard.queueOk_iff (y : Yard) :
    y.queueOk ↔ y.census.moveQueue.Nodup ∧ y.census.finished.Nodup
      ∧ (∀ slot, slot ∈ y.census.moveQueue ↔ (getOr y.census.tickets slot (0, none)).2.isSome = true)
      ∧ ∀ slot, slot ∈ y.census.finished ↔ (getOr y.census.tickets slot (0, none)).2 = some false := by
  have used : ∀ slot, (getOr y.census.tickets slot (0, none)).2.isSome = (y.ticketAt slot).isSome := fun slot => by
    rw [← Yard.ticketSlot_entry, ← Yard.ticketAt_entry, Option.isSome_map]
  have done : ∀ slot, (getOr y.census.tickets slot (0, none)).2 = some false
      ↔ ∃ t, y.ticketAt slot = some t ∧ t.state.isActive = false := fun slot => by
    rw [← Yard.ticketSlot_entry, ← Yard.ticketAt_entry, Option.map_eq_some_iff]
  simp only [used, done]
  exact Iff.rfl

/-- R115, R135: a change of the yard that keeps the queue invariant, and writes no mark, class or generation. -/
structure Yard.Follows (y y' : Yard) : Prop where
  pieces : y'.census.pieces = y.census.pieces
  gens   : ∀ i, (y'.ticketSlot i).gen = (y.ticketSlot i).gen
  queue  : y.queueOk → y'.queueOk

namespace Yard.Follows

theorem of_census {y y' : Yard} (h : y'.census = y.census) : Yard.Follows y y' where
  pieces := by rw [h]
  gens i := by
    have he : (y'.ticketSlot i).entry = (y.ticketSlot i).entry := by
      rw [Yard.ticketSlot_entry, Yard.ticketSlot_entry, h]
    exact congrArg Prod.fst he
  queue hq := by
    rw [Yard.queueOk_iff] at hq ⊢
    rwa [h]

theorem refl (y : Yard) : Yard.Follows y y := of_census rfl

theorem trans {y y' y'' : Yard} (h : Yard.Follows y y') (k : Yard.Follows y' y'') : Yard.Follows y y'' where
  pieces := k.pieces.trans h.pieces
  gens i := (k.gens i).trans (h.gens i)
  queue hq := k.queue (h.queue hq)

/-- A change followed by one that keeps the census. -/
theorem then_census {y y' y'' : Yard} (h : Yard.Follows y y') (k : y''.census = y'.census) : Yard.Follows y y'' :=
  h.trans (of_census k)

theorem forEach {α : Type} (f : Yard → α → Yard) (h : ∀ y a, Yard.Follows y (f y a)) (xs : List α) (y : Yard) :
    Yard.Follows y (Machine.forEach xs f y) := by
  unfold Machine.forEach
  induction xs generalizing y with
  | nil => exact refl y
  | cons x xs ih => exact (h y x).trans (ih (f y x))

end Yard.Follows

/-! ## The making of a ticket (R114, R119, R147) -/

/-- R114: the lowest free slot is one of the 24 and holds no ticket. -/
theorem Yard.freeTicketSlot_free {y : Yard} {slot : Nat} (h : y.freeTicketSlot = some slot) :
    slot < 24 ∧ y.ticketAt slot = none := by
  obtain ⟨hlt, hnone, -⟩ := List.findIdx?_eq_some_iff_getElem.1 h
  have hs : slot < 24 := by simpa using hlt
  refine ⟨hs, ?_⟩
  unfold Yard.ticketAt Yard.ticketSlot
  rw [getOr_lt _ _ _ hs]
  simpa using hnone

/-- The tickets after one is placed. -/
theorem ticketAt_placeTicket (y : Yard) (slot i : Nat) (t : Ticket) (h : slot < 24) :
    (y.placeTicket slot t).ticketAt i = if slot = i then some t else y.ticketAt i := by
  unfold Yard.ticketAt Yard.ticketSlot
  rw [Yard.placeTicket_tickets, getOr_upd _ _ _ _ _ h]
  split <;> rfl

/-- R114, R115: an active ticket placed in the lowest free slot. -/
theorem follows_placeTicket (y : Yard) (slot : Nat) (t : Ticket) (hfree : y.freeTicketSlot = some slot)
    (ha : t.state.isActive = true) : Yard.Follows y (y.placeTicket slot t) := by
  obtain ⟨hlt, hnone⟩ := Yard.freeTicketSlot_free hfree
  have hat := fun i => ticketAt_placeTicket y slot i t hlt
  refine ⟨rfl, fun i => ?_, fun ⟨hm, hf, hused, hdone⟩ => ?_⟩
  · unfold Yard.ticketSlot
    rw [Yard.placeTicket_tickets, getOr_upd _ _ _ _ _ hlt]
    split <;> rfl
  · have hnotin : slot ∉ y.moveQueue := by
      rw [hused, hnone]
      simp
    refine ⟨?_, hf, fun i => ?_, fun i => ?_⟩
    · rw [Yard.placeTicket_moveQueue]
      exact List.nodup_append.2 ⟨hm, List.nodup_singleton _, by grind⟩
    · rw [Yard.placeTicket_moveQueue, List.mem_append, List.mem_singleton, hused, hat]
      by_cases hi : slot = i
      · simp [hi]
      · simp [hi, Ne.symm hi]
    · rw [Yard.placeTicket_finished, hdone, hat]
      by_cases hi : slot = i
      · subst hi
        simp [hnone, ha]
      · simp [hi]

/-- R119: a ticket made for a piece. -/
theorem follows_makeTicket (e : Site) (y : Yard) (slot : Nat) (p : Handle) (t : Ticket)
    (hfree : y.freeTicketSlot = some slot) (ha : t.state.isActive = true) :
    Yard.Follows y (makeTicket e y slot p t) := by
  refine (follows_placeTicket y slot t hfree ha).then_census ?_
  unfold makeTicket
  dsimp only
  rw [census_refreshTicket, census_refreshLevel]
  split
  · split
    · rw [census_appendLift, census_setPieceTicket, census_claimDest]
    · exact (census_updStack _ _ _).trans ((census_setPieceTicket _ _ _).trans (census_claimDest _ _ _))
  · rw [census_setPieceTicket, census_claimDest]

/-- R125: a dig round makes tickets in free slots. -/
theorem follows_digWalk (e : Site) (slot s : Nat) (cs : List Handle) (y : Yard) :
    Yard.Follows y (digWalk e slot s cs y) := by
  induction cs generalizing y with
  | nil => exact .refl y
  | cons c cs ih =>
    unfold digWalk
    split
    · split
      · exact ih y
      · split
        · exact .refl y
        · rename_i free hfree
          split
          · exact .refl y
          · split
            · exact .refl y
            · exact (follows_makeTicket _ _ _ _ _ hfree rfl).trans (ih _)
    · exact .refl y

theorem follows_digRound (e : Site) (y : Yard) (slot : Nat) : Yard.Follows y (digRound e y slot) := by
  unfold digRound
  split
  · split
    · exact follows_digWalk _ _ _ _ _
    · exact .refl y
  · exact .refl y

theorem follows_makePick (e : Site) (y : Yard) (k slot : Nat) (p : Handle) (src : Location)
    (hfree : y.freeTicketSlot = some slot) : Yard.Follows y (makePick e y k slot p src) :=
  (follows_makeTicket _ _ _ _ _ hfree rfl).then_census (census_updTruck _ _ _)

/-- R180: a pick creation makes at most its PICK and a dig round's tickets. -/
theorem follows_createPick (e : Site) (y : Yard) (k : Nat) : Yard.Follows y (createPick e y k) := by
  unfold createPick
  dsimp only
  split
  · split
    · split
      · rename_i slot _ hfree
        have pick : ∀ p src, Yard.Follows y (makePick e y k slot p src) := fun p src =>
          follows_makePick e y k slot p src hfree
        split
        · exact .refl y
        · split
          · split
            · exact .refl y
            · exact ((pick _ _).trans (follows_digRound e _ _)).then_census (census_refreshTicket _ _ _)
          · exact pick _ _
          · exact pick _ _
          · exact .refl y
          · exact .refl y
      · exact .refl y
    · exact .refl y
  · exact .refl y

/-! ## The follow-up work of a change (R122, R123, R126, R180) -/

theorem follows_waitingPass (e : Site) (y : Yard) : Yard.Follows y (waitingPass e y) :=
  ((Yard.Follows.of_census (census_redirectAll e y)).trans (.forEach _ (follows_createPick e) _ _)).trans
    (.forEach _ (follows_digRound e) _ _)

theorem follows_waitingWork (e : Site) (n : Nat) (y : Yard) : Yard.Follows y (waitingWork e n y) := by
  induction n generalizing y with
  | zero => exact .refl y
  | succ n ih =>
    unfold waitingWork
    dsimp only
    split
    · exact follows_waitingPass e y
    · exact (follows_waitingPass e y).trans (ih _)

theorem follows_followUp (e : Site) (y : Yard) : Yard.Follows y (followUp e y) := by
  have start : (refreshLevels e (promoteAll y)).census = y.census := by rw [census_refreshLevels, census_promoteAll]
  unfold followUp
  exact ((Yard.Follows.of_census start).trans (follows_waitingWork e _ _)).then_census
    (by rw [census_refreshAll, census_refreshLevels])

/-! ## The arbiter (R140 to R147) -/

/-- R144: a preempted ticket is GRANTED. -/
theorem preemptable_active {y : Yard} {k u : Nat} {t : Ticket} (h : preemptable y k t = some u) :
    y.activeAt u = true := by
  unfold preemptable at h
  split at h
  · split at h
    · split at h
      · rename_i hd _ v hv
        split at h
        · rename_i hg
          obtain rfl := Option.some.inj h
          refine (activeAt_iff _ _).2 ⟨v, ?_, by rw [hg.1]; rfl⟩
          unfold Yard.ticket? at hv
          split at hv
          · exact hv
          · cases hv
        · cases h
      · cases h
    · cases h
  · cases h

theorem census_preempt (e : Site) (y : Yard) (slot k : Nat) (t : Ticket) (ha : y.activeAt slot = true) :
    (preempt e y slot k t).census = y.census := by
  unfold preempt
  split
  · rename_i u hu
    have hr := census_returnTicket e y u (preemptable_active hu)
    rw [census_grant _ _ _ _ _ (Yard.activeAt_of_census hr ha), hr]
  · rfl

/-- R147: a YIELD is made in a free slot. -/
theorem follows_makeYield (e : Site) (served : Handle) (level k : Nat) (i : Interval) (y : Yard) (j : Nat) :
    Yard.Follows y (makeYield e served level k i y j) := by
  unfold makeYield
  split
  · rename_i free _ hfree _
    exact (follows_placeTicket y free _ hfree rfl).then_census (census_refreshTicket _ _ _)
  · exact .refl y

theorem follows_makeYields (e : Site) (y : Yard) (slot k : Nat) (t : Ticket) :
    Yard.Follows y (makeYields e y slot k t) := by
  unfold makeYields
  split
  · exact .forEach _ (follows_makeYield e _ _ _ _) _ _
  · exact .refl y

/-- R143 to R147: the steps for one active ticket. -/
theorem follows_examine (e : Site) (y : Yard) (slot : Nat) (ha : y.activeAt slot = true) :
    Yard.Follows y (examine e y slot).1 := by
  unfold examine
  split
  · split
    · exact .of_census (census_grant _ _ _ _ _ ha)
    · split
      · split
        · exact .of_census (census_preempt _ _ _ _ _ ha)
        · split
          · exact follows_makeYields _ _ _ _ _
          · exact .refl y
      · exact .refl y
  · exact .refl y

/-- The least of a list is one of it. -/
theorem leastBy_mem {score : Nat → Nat} : ∀ {xs : List Nat} {b : Nat}, leastBy score xs = some b → b ∈ xs
  | [], _, h => by cases h
  | x :: xs, b, h => by
    unfold leastBy at h
    split at h
    · rename_i c hc
      split at h
      · obtain rfl := Option.some.inj h
        exact List.mem_cons_of_mem _ (leastBy_mem hc)
      · obtain rfl := Option.some.inj h
        exact List.mem_cons_self
    · obtain rfl := Option.some.inj h
      exact List.mem_cons_self

/-- R141: the next ticket of a walk is READY. -/
theorem nextReady_ready {y : Yard} {last slot : Nat} (h : nextReady y last = some slot) :
    ∃ t, y.ticketAt slot = some t ∧ t.state = .ready := by
  have hk : (readyKey y last slot).isSome = true := (List.mem_filter.1 (leastBy_mem h)).2
  unfold readyKey at hk
  split at hk
  · rename_i t ht
    split at hk
    · rename_i hr
      exact ⟨t, ht, hr.1⟩
    · cases hk
  · cases hk

theorem follows_walk (e : Site) (n last : Nat) (y : Yard) : Yard.Follows y (walk e n last y).1 := by
  induction n generalizing last y with
  | zero => exact .refl y
  | succ n ih =>
    unfold walk
    split
    · exact .refl y
    · rename_i slot hslot
      obtain ⟨t, ht, hr⟩ := nextReady_ready hslot
      have ha : y.activeAt slot = true := (activeAt_iff _ _).2 ⟨t, ht, by rw [hr]; rfl⟩
      exact (follows_examine e y slot ha).trans (ih _ _)

theorem follows_walks (e : Site) (n : Nat) (y : Yard) : Yard.Follows y (walks e n y) := by
  induction n generalizing y with
  | zero => exact .refl y
  | succ n ih =>
    unfold walks
    dsimp only
    split
    · exact (follows_walk e _ _ y).trans (ih _)
    · exact follows_walk e _ _ y

theorem follows_evaluate (e : Site) (y : Yard) : Yard.Follows y (evaluate e y) := by
  unfold evaluate
  split
  · exact .refl y
  · exact follows_walks e _ y

theorem follows_settle (e : Site) (y0 y1 : Yard) : Yard.Follows y1 (settle e y0 y1) := by
  unfold settle
  dsimp only
  split
  · exact (follows_followUp e y1).trans (follows_evaluate e _)
  · exact follows_followUp e y1

theorem follows_settleClaim (e : Site) (y : Yard) : Yard.Follows y (settleClaim e y) :=
  (follows_followUp e y).trans (follows_evaluate e _)

/-! ## The end of a ticket (R132 to R134) -/

/-- The ticket of a changed slot, and the others. -/
theorem ticketAt_updTicket (y : Yard) (slot i : Nat) (f : Ticket → Ticket) :
    (y.updTicket slot f).ticketAt i = if slot = i then (y.ticketAt i).map f else y.ticketAt i := by
  by_cases h : slot = i
  · subst h
    by_cases hs : slot < 24
    · simp [Yard.ticketAt_updTicket_same _ _ _ hs]
    · unfold Yard.ticketAt Yard.ticketSlot
      rw [getOr_ge _ _ _ (Nat.not_lt.mp hs), getOr_ge _ _ _ (Nat.not_lt.mp hs)]
      simp
  · simp [h, Yard.ticketAt_updTicket_ne _ _ _ _ h]

/-- A change of a ticket writes no generation. -/
theorem gen_updTicket (y : Yard) (slot i : Nat) (f : Ticket → Ticket) :
    ((y.updTicket slot f).ticketSlot i).gen = (y.ticketSlot i).gen := by
  unfold Yard.ticketSlot
  rw [Yard.updTicket_tickets]
  by_cases hs : slot < 24
  · rw [getOr_upd _ _ _ _ _ hs]
    split <;> rfl
  · rw [upd_ge _ _ _ (Nat.not_lt.mp hs)]

/-- R135: an active ticket that ends and enters the finished list keeps the queue invariant. -/
theorem follows_end (y : Yard) (slot : Nat) (f : Ticket → Ticket) (ha : y.activeAt slot = true)
    (hf : ∀ t, (f t).state.isActive = false) :
    Yard.Follows y { y.updTicket slot f with finished := y.finished ++ [slot] } := by
  obtain ⟨t, ht, hact⟩ := (activeAt_iff _ _).1 ha
  have hat : ∀ i, Yard.ticketAt { y.updTicket slot f with finished := y.finished ++ [slot] } i
      = if slot = i then (y.ticketAt i).map f else y.ticketAt i := fun i => ticketAt_updTicket y slot i f
  refine ⟨rfl, fun i => gen_updTicket y slot i f, fun ⟨hm, hfin, hused, hdone⟩ => ⟨hm, ?_, fun i => ?_, fun i => ?_⟩⟩
  · have hnotin : slot ∉ y.finished := by
      rw [hdone, ht]
      simp [hact]
    exact List.nodup_append.2 ⟨hfin, List.nodup_singleton _, by grind⟩
  · refine (hused i).trans ?_
    rw [hat]
    split <;> simp
  · rw [hat]
    show i ∈ y.finished ++ [slot] ↔ _
    rw [List.mem_append, List.mem_singleton, hdone]
    by_cases hi : slot = i
    · subst hi
      simp [ht, hf]
    · simp [hi, Ne.symm hi]

/-- R132: an active ticket finishes. -/
theorem follows_finishTicket (e : Site) (y : Yard) (slot : Nat) (st : TicketState) (outcome : TicketOutcome)
    (ha : y.activeAt slot = true) (hst : st.isActive = false) :
    Yard.Follows y (finishTicket e y slot st outcome) := by
  unfold finishTicket
  split
  · rename_i t ht
    dsimp only
    generalize hy1 : y.updTicket slot (fun u => { u with state := st, outcome := outcome, waits := .none }) = y1
    have hclaims : Yard.census (if st = .done then y1 else releaseClaims e y1 (y.ticketHandle slot) t (buriedIn y slot))
        = y1.census := by
      split
      · rfl
      · exact census_releaseClaims _ _ _ _ _
    generalize (if st = .done then y1 else releaseClaims e y1 (y.ticketHandle slot) t (buriedIn y slot)) = y2 at hclaims
    have hpick : (clearPick (clearPieceTicket y2 t) (y.ticketHandle slot)).census = y1.census := by
      rw [census_clearPick, census_clearPieceTicket, hclaims]
    generalize clearPick (clearPieceTicket y2 t) (y.ticketHandle slot) = y3 at hpick
    have hend := follows_end y slot (fun u => { u with state := st, outcome := outcome, waits := .none }) ha fun _ => hst
    rw [hy1] at hend
    refine hend.then_census ?_
    have hfin : y3.finished = y.finished := by
      rw [show y3.finished = y3.census.finished from rfl, hpick, ← hy1]
      rfl
    have hrest : ∀ l, Yard.census { y3 with finished := l } = { y3.census with finished := l } := fun _ => rfl
    rw [hrest, hpick, hfin]
    rfl
  · exact .refl y

/-- R134: an active ticket is withdrawn. -/
theorem follows_withdraw (e : Site) (y : Yard) (slot : Nat) (ha : y.activeAt slot = true) :
    Yard.Follows y (withdraw e y slot) := by
  unfold withdraw
  split
  · have hs := census_stopCraneOf e y
    exact (Yard.Follows.of_census (hs _)).trans
      (follows_finishTicket e _ slot _ _ (Yard.activeAt_of_census (hs _) ha) rfl)
  · exact .refl y

/-! ## Listings and holds (R16, R182, R183) -/

/-- R183: a current pick that no crane has lifted from is withdrawn. -/
theorem dealWithPick_waiting (e : Site) (y : Yard) (slot : Nat) (t : Ticket) (h : y.ticketAt slot = some t)
    (hs : t.state = .pending ∨ t.state = .ready ∨ t.state = .granted) : dealWithPick e y slot = withdraw e y slot := by
  unfold dealWithPick
  rcases hs with hs | hs | hs <;> simp only [h, hs]

/-- R184: a current pick in LIFTING takes the hold-pending mark. -/
theorem dealWithPick_lifting (e : Site) (y : Yard) (slot : Nat) (t : Ticket) (h : y.ticketAt slot = some t)
    (hs : t.state = .lifting) : dealWithPick e y slot = y.updTicket slot (fun u => { u with holdPending := true }) := by
  unfold dealWithPick
  simp only [h, hs]

/-- R185: a current pick in LIFTED loses its destination and is searched for. -/
theorem dealWithPick_lifted (e : Site) (y : Yard) (slot : Nat) (t : Ticket) (h : y.ticketAt slot = some t)
    (hs : t.state = .lifted) : dealWithPick e y slot = redirectOne e (loseDest y slot) slot := by
  unfold dealWithPick
  simp only [h, hs]
  rfl

/-- R183: a current pick in SETTING, or one that has finished, stays as it is. -/
theorem dealWithPick_stays (e : Site) (y : Yard) (slot : Nat) (t : Ticket) (h : y.ticketAt slot = some t)
    (hs : t.state = .setting ∨ t.state.isActive = false) : dealWithPick e y slot = y := by
  unfold dealWithPick
  cases hst : t.state <;> simp_all [TicketState.isActive]

/-- The four ways in which a current pick is dealt with. -/
theorem TicketState.pick_cases (st : TicketState) :
    (st = .pending ∨ st = .ready ∨ st = .granted) ∨ st = .lifting ∨ st = .lifted ∨ st = .setting ∨ st.isActive = false := by
  cases st <;> simp [TicketState.isActive]

theorem follows_dealWithPick (e : Site) (y : Yard) (slot : Nat) : Yard.Follows y (dealWithPick e y slot) := by
  cases ht : y.ticketAt slot with
  | none =>
    unfold dealWithPick
    simp only [ht]
    exact .refl y
  | some t =>
    rcases t.state.pick_cases with hs | hs | hs | hs
    · rw [dealWithPick_waiting e y slot t ht hs]
      refine follows_withdraw e y slot ((activeAt_iff _ _).2 ⟨t, ht, ?_⟩)
      rcases hs with hs | hs | hs <;> rw [hs] <;> rfl
    · rw [dealWithPick_lifting e y slot t ht hs]
      exact .of_census (census_updTicket _ _ _ fun _ _ => rfl)
    · rw [dealWithPick_lifted e y slot t ht hs]
      exact .of_census ((census_redirectOne _ _ _).trans (census_loseDest _ _))
    · rw [dealWithPick_stays e y slot t ht hs]
      exact .refl y

theorem follows_dropCurrentPick (e : Site) (y : Yard) (k : Nat) : Yard.Follows y (dropCurrentPick e y k) := by
  unfold dropCurrentPick
  split
  · exact (follows_dealWithPick e y _).then_census (census_updTruck _ _ _)
  · exact .of_census (census_updTruck _ _ _)

theorem follows_listingEnd (e : Site) (y : Yard) (h : Handle) : Yard.Follows y (listingEnd e y h) := by
  unfold listingEnd
  split
  · rename_i k _
    dsimp only
    generalize hy1 : (y.updPiece h.slot (fun p => { p with order := none })).updTruck k
      (fun t => { t with orderList := t.orderList.erase h, flagChanged := true }) = y1
    have hlist : Yard.Follows y y1 := by
      subst hy1
      exact .of_census ((census_updTruck _ _ _).trans (census_updPiece _ _ _ fun _ => rfl))
    split
    · exact (hlist.trans (follows_dropCurrentPick e y1 k)).then_census (census_updTruck _ _ _)
    · exact hlist
  · exact .refl y

/-- R16: a hold added. -/
theorem follows_addHold (e : Site) (y : Yard) (h : Handle) (has : Holds → Bool) (set : Holds → Holds) :
    Yard.Follows y (addHold e y h has set) := by
  unfold addHold
  split
  · split
    · exact .refl y
    · refine Yard.Follows.trans (.of_census ?_) (follows_listingEnd e _ h)
      exact census_updPiece _ _ _ fun _ => rfl
  · exact .refl y

end Sys2Proof.Machine
end

