-- ==== Sys2Proof/Proofs/CraneSteps.lean ====
section
/-! PROOF. What a crane report, a timeout and the plant stop do to the yard keeps the queue invariant and writes no mark,
class or generation (R128 to R131, R158 to R170). -/

namespace Sys2Proof.Machine

/-! ## The current ticket of a crane -/

/-- The current ticket of a crane stands in its slot. -/
theorem currentTicket_at {y : Yard} {k slot : Nat} {t : Ticket} (h : currentTicket y k = some (slot, t)) :
    y.ticketAt slot = some t := by
  unfold currentTicket at h
  split at h
  · rename_i hd _
    split at h
    · rename_i u hu
      obtain ⟨rfl, rfl⟩ := Prod.mk.injEq .. ▸ Option.some.inj h
      unfold Yard.ticket? at hu
      split at hu
      · exact hu
      · cases hu
    · cases h
  · cases h

@[simp] theorem census_clearStage (e : Site) (y : Yard) (k : Nat) : (clearStage e y k).census = y.census := rfl
@[simp] theorem census_freeCrane (e : Site) (y : Yard) (k : Nat) : (freeCrane e y k).census = y.census := rfl

/-! ## ARRIVED (R128, R131, R148, R150 to R152) -/

theorem follows_arriveBound (e : Site) (y : Yard) (k slot bay : Nat) (ha : y.activeAt slot = true) :
    Yard.Follows y (arriveBound e y k slot bay) := by
  refine (follows_finishTicket e y slot .done .done ha rfl).then_census ?_
  unfold arriveBound
  dsimp only
  rw [census_freeCrane, census_unbind, census_setClaim]

/-- An arrival that gives its ticket another active state and sends the next stage order. -/
theorem census_nextStage (e : Site) (y : Yard) (k slot : Nat) (f : Ticket → Ticket) (c : Option Interval)
    (kind : OrderKind) (arg : Nat) (ha : y.activeAt slot = true) (hf : ∀ t, (f t).state.isActive = true) :
    (sendStage e ((y.updTicket slot f).setClaim k c) k kind arg).census = y.census := by
  rw [census_sendStage, census_setClaim, census_updTicket_active y slot f ha hf]

theorem census_arriveLaden (e : Site) (y : Yard) (k slot bay : Nat) (t : Ticket) (ha : y.activeAt slot = true) :
    (arriveLaden e y k slot bay t).census = y.census := by
  unfold arriveLaden
  split
  · exact census_nextStage e y k slot _ _ _ _ ha fun _ => rfl
  · rfl

theorem follows_arrivedEffect (e : Site) (y : Yard) (k slot bay : Nat) (t : Ticket) (ha : y.activeAt slot = true) :
    Yard.Follows y (arrivedEffect e y k slot bay t) := by
  unfold arrivedEffect
  dsimp only
  generalize hy1 : y.updCrane k (fun c => { c with lastBay := bay }) = y1
  have h1 : y1.census = y.census := by subst hy1; exact census_updCrane _ _ _
  have ha1 := Yard.activeAt_of_census h1 ha
  split
  · exact .of_census ((census_arriveLaden e y1 k slot bay t ha1).trans h1)
  · split
    · exact (Yard.Follows.of_census h1).trans (follows_arriveBound e y1 k slot bay ha1)
    · exact .of_census ((census_nextStage e y1 k slot _ _ _ _ ha1 fun _ => rfl).trans h1)

/-! ## LIFTED (R129, R130) -/

theorem census_takeOnHook (y : Yard) (k slot : Nat) (p : Handle) (ha : y.activeAt slot = true) :
    (takeOnHook y k slot p).census = y.census := by
  unfold takeOnHook
  rw [census_updCrane, census_updPiece]
  · exact census_updTicket_active y slot _ ha fun _ => rfl
  · exact fun _ => rfl

@[simp] theorem census_giveUp (e : Site) (y : Yard) (h : Handle) (loc : Location) : (giveUp e y h loc).census = y.census := by
  cases loc <;> rfl

@[simp] theorem census_sendLaden (e : Site) (y : Yard) (k slot : Nat) (t : Ticket) (src : Location) :
    (sendLaden e y k slot t src).census = y.census := by
  unfold sendLaden
  split
  · dsimp only
    have h : (redirectAll e (loseDest y slot)).census = y.census := by rw [census_redirectAll, census_loseDest]
    split
    · exact h
    · exact h
  · split <;> rfl

theorem census_liftPassed (e : Site) (y : Yard) (k slot : Nat) (t : Ticket) (p : Handle) (src : Location)
    (ha : y.activeAt slot = true) : (liftPassed e y k slot t p src).census = y.census := by
  unfold liftPassed
  rw [census_sendLaden, census_giveUp, census_takeOnHook _ _ _ _ ha]

theorem follows_liftFailed (e : Site) (y : Yard) (k slot : Nat) (p : Handle) (src : Location) :
    Yard.Follows y (liftFailed e y k slot p src) := by
  unfold liftFailed
  dsimp only
  refine Yard.Follows.trans (.of_census ?_) (follows_addHold e _ p _ _)
  rw [census_sendStage, census_setClaim]
  exact census_updTicket _ _ _ fun _ _ => rfl

/-! ## LOWERED (R130, R131) -/

@[simp] theorem census_setDown (e : Site) (y : Yard) (h p : Handle) (t : Ticket) (d : Dest) :
    (setDown e y h p t d).census = y.census := by
  cases d with
  | stack s => exact census_updPiece _ _ _ fun _ => rfl
  | lane l => exact census_updPiece _ _ _ fun _ => rfl
  | truck k =>
    unfold setDown
    dsimp only
    generalize hy1 : y.updTruck k (fun r => { r with pieces := r.pieces ++ [p] }) = y1
    have h1 : y1.census = y.census := by subst hy1; exact census_updTruck _ _ _
    have hp := (census_updPiece y1 p.slot
      (fun r => { r with location := .truck k (y1.truck k).pieces.length }) fun _ => rfl).trans h1
    split
    · exact ((census_updTruck _ _ _).trans (census_updTruck _ _ _)).trans hp
    · exact hp
  | bay b => rfl

theorem follows_loweredEffect (e : Site) (y : Yard) (k slot : Nat) (t : Ticket) (ha : y.activeAt slot = true) :
    Yard.Follows y (loweredEffect e y k slot t) := by
  unfold loweredEffect
  split
  · split
    · rename_i p d _ _
      unfold lowerPiece
      dsimp only
      generalize hy2 : ((setDown e y (y.ticketHandle slot) p t d).updCrane k (fun c => { c with hook := none })).setClaim k
        (some (.single (destBay y d))) = y2
      have h2 : y2.census = y.census := by
        subst hy2
        rw [census_setClaim, census_updCrane, census_setDown]
      exact ((Yard.Follows.of_census h2).trans
        (follows_finishTicket e y2 slot .done .done (Yard.activeAt_of_census h2 ha) rfl)).then_census
        (census_freeCrane _ _ _)
    · exact .refl y
  · exact (follows_finishTicket e y slot .failed .weight ha rfl).then_census (census_freeCrane _ _ _)

/-! ## STOPPED, HOMED, faults and timeouts (R161 to R164, R167) -/

@[simp] theorem census_stoppedEffect (e : Site) (y : Yard) (k bay : Nat) : (stoppedEffect e y k bay).census = y.census := by
  unfold stoppedEffect
  dsimp only
  split <;> rfl

@[simp] theorem census_homedEffect (y : Yard) (k bay : Nat) : (homedEffect y k bay).census = y.census := by
  unfold homedEffect
  dsimp only
  split <;> rfl

/-- R163: the current ticket of a crane that faults goes back to READY or ends FAILED. -/
theorem follows_faultTicket (e : Site) (y : Yard) (k : Nat) : Yard.Follows y (faultTicket e y k) := by
  unfold faultTicket
  split
  · rename_i slot t ht
    have active : t.state.isActive = true → y.activeAt slot = true := fun h =>
      (activeAt_iff _ _).2 ⟨t, currentTicket_at ht, h⟩
    have failed : t.state.isActive = true → Yard.Follows y (finishTicket e y slot .failed .craneFault) := fun h =>
      follows_finishTicket e y slot _ _ (active h) rfl
    cases hs : t.state with
    | granted => exact .of_census (census_returnTicket e y slot (active (by rw [hs]; rfl)))
    | lifting | lifted | setting => exact failed (by rw [hs]; rfl)
    | pending | ready | done | failed | cancelled => exact .refl y
  · exact .refl y

theorem follows_faultReport (e : Site) (y : Yard) (k code bay : Nat) : Yard.Follows y (faultReport e y k code bay) :=
  (follows_faultTicket e y k).then_census (census_updCrane _ _ _)

theorem follows_timerExpiry (e : Site) (y : Yard) (k : Nat) : Yard.Follows y (timerExpiry e y k) := by
  unfold timerExpiry
  dsimp only
  split
  · exact .of_census rfl
  · exact (follows_faultTicket e y k).then_census (census_updCrane _ _ _)

/-! ## Plant stop (R169, R170) -/

@[simp] theorem census_stopUnlessAwaited (e : Site) (y : Yard) (k : Nat) :
    (stopUnlessAwaited e y k).census = y.census := by
  unfold stopUnlessAwaited
  split <;> rfl

theorem census_craneStop (e : Site) (y : Yard) (k : Nat) : (craneStop e y k).census = y.census := by
  unfold craneStop
  dsimp only
  split
  · rfl
  · split
    · rename_i slot t ht
      split
      · rename_i hg
        have hc : ∀ f g, (((stopUnlessAwaited e y k).updCrane k f).updCrane k g).census = y.census := fun f g => by
          rw [census_updCrane, census_updCrane, census_stopUnlessAwaited]
        have ha : y.activeAt slot = true := (activeAt_iff _ _).2 ⟨t, currentTicket_at ht, by rw [hg]; rfl⟩
        rw [census_returnTicket e _ slot (Yard.activeAt_of_census (hc _ _) ha), hc]
      · exact (census_updCrane _ _ _).trans (census_stopUnlessAwaited e y k)
    · exact (census_updCrane _ _ _).trans (census_stopUnlessAwaited e y k)
  all_goals rfl

@[simp] theorem census_cranesStop (e : Site) (y : Yard) : (cranesStop e y).census = y.census :=
  census_forEach _ (census_craneStop e) _ _

@[simp] theorem census_cranesResume (e : Site) (y : Yard) : (cranesResume e y).census = y.census := by
  refine census_forEach _ (fun y k => ?_) _ _
  unfold craneResume
  split <;> rfl

end Sys2Proof.Machine
end

