-- ==== Sys2Proof/Proofs/PieceTable.lean ====
section
/-! PROOF. The mark map and the class table against the live records, and the generations: what an allocation, a retirement
and a freed ticket slot do to their invariants (R3, R4, R6, R13, R114). -/

namespace Sys2Proof.Machine

/-- R1, R6, R13: the invariant of the piece table, read from the plant. -/
def Plant.pieceOk (p : Plant) : Prop :=
  (∀ m slot, (m, slot) ∈ p.markMap ↔ ∃ r, p.yard.pieceAt slot = some r ∧ r.mark = m)
    ∧ (p.markMap.map (fun e => e.1)).Nodup
    ∧ (∀ slot r, p.yard.pieceAt slot = some r → r.cls < 32 ∧ (p.cls r.cls).defined = true)
    ∧ (∀ c, c < 32 → (p.cls c).liveCount = p.yard.classCount c)
    ∧ ∀ c, c < 32 → (p.cls c).defined = false →
        (p.cls c).length = 0 ∧ (p.cls c).weight = 0 ∧ (p.cls c).threshold = 0 ∧ (p.cls c).tier = 0

/-- R1, R4, R113, R114: the ranges of the generations, read from the yard. -/
def Yard.genOk (y : Yard) : Prop :=
  (∀ slot, (y.pieceSlot slot).gen < 64) ∧ (y.pieceSlot 1023).gen ≠ 63 ∧ ∀ slot, (y.ticketSlot slot).gen < 64

theorem pieceInv_iff (s : State) : PieceInv s ↔ s.plant.pieceOk := Iff.rfl

theorem genInv_iff (s : State) : GenInv s ↔ s.plant.yard.genOk := Iff.rfl

/-! ## The invariants read from the census -/

/-- The mark and the class of a live record are read from its slot's entry. -/
theorem Yard.pieceAt_entry (y : Yard) (slot : Nat) :
    (y.pieceAt slot).map (fun r => (r.mark, r.cls)) = (getOr y.census.pieces slot (0, none)).2 :=
  congrArg Prod.snd (y.pieceSlot_entry slot)

/-- R13: the live records of a class are counted in the census. -/
theorem Yard.classCount_eq (y : Yard) (c : Nat) :
    y.classCount c = y.census.pieces.toList.countP (fun e => decide (e.2.map (fun r => r.2) = some c)) := by
  have h : y.census.pieces.toList = y.pieces.toList.map PieceSlot.entry := by
    simp [Yard.census, Vector.toList_map]
  rw [h, List.countP_map]
  simp [Yard.classCount, PieceSlot.entry, Function.comp_def, Option.map_map]

/-- The invariant of the piece table depends on the census, the mark map and the class table alone. -/
theorem Plant.pieceOk_of_census {p p' : Plant} (hc : p'.yard.census.pieces = p.yard.census.pieces)
    (hm : p'.markMap = p.markMap) (hk : p'.classes = p.classes) (h : p.pieceOk) : p'.pieceOk := by
  have hcls : ∀ c, p'.cls c = p.cls c := fun c => by unfold Plant.cls; rw [hk]
  have hat : ∀ slot, (p'.yard.pieceAt slot).map (fun r => (r.mark, r.cls))
      = (p.yard.pieceAt slot).map (fun r => (r.mark, r.cls)) := fun slot => by
    rw [Yard.pieceAt_entry, Yard.pieceAt_entry, hc]
  have live : ∀ slot r, p'.yard.pieceAt slot = some r →
      ∃ q, p.yard.pieceAt slot = some q ∧ q.mark = r.mark ∧ q.cls = r.cls := fun slot r hr => by
    have := hat slot
    rw [hr] at this
    obtain ⟨q, hq, he⟩ := Option.map_eq_some_iff.1 this.symm
    exact ⟨q, hq, congrArg Prod.fst he, congrArg Prod.snd he⟩
  have live' : ∀ slot q, p.yard.pieceAt slot = some q →
      ∃ r, p'.yard.pieceAt slot = some r ∧ r.mark = q.mark := fun slot q hq => by
    have := hat slot
    rw [hq] at this
    obtain ⟨r, hr, he⟩ := Option.map_eq_some_iff.1 this
    exact ⟨r, hr, congrArg Prod.fst he⟩
  obtain ⟨hmap, hnd, hdef, hcount, hzero⟩ := h
  refine ⟨fun m slot => ?_, by rwa [hm], fun slot r hr => ?_, fun c hlt => ?_, fun c hlt => ?_⟩
  · rw [hm, hmap]
    constructor
    · rintro ⟨q, hq, rfl⟩
      exact live' slot q hq
    · rintro ⟨r, hr, rfl⟩
      obtain ⟨q, hq, hmk, -⟩ := live slot r hr
      exact ⟨q, hq, hmk⟩
  · obtain ⟨q, hq, -, hck⟩ := live slot r hr
    rw [hcls, ← hck]
    exact hdef slot q hq
  · rw [hcls, hcount c hlt, Yard.classCount_eq, Yard.classCount_eq, hc]
  · rw [hcls]
    exact hzero c hlt

/-- The ranges of the generations depend on the generations alone. -/
theorem Yard.genOk_of_gens {y y' : Yard} (hp : y'.census.pieces = y.census.pieces)
    (ht : ∀ i, (y'.ticketSlot i).gen = (y.ticketSlot i).gen) (h : y.genOk) : y'.genOk := by
  have hg : ∀ i, (y'.pieceSlot i).gen = (y.pieceSlot i).gen := fun i => by
    have he : (y'.pieceSlot i).entry = (y.pieceSlot i).entry := by
      rw [Yard.pieceSlot_entry, Yard.pieceSlot_entry, hp]
    exact congrArg Prod.fst he
  obtain ⟨h1, h2, h3⟩ := h
  exact ⟨fun i => by rw [hg]; exact h1 i, by rwa [hg], fun i => by rw [ht]; exact h3 i⟩

/-! ## Changes of the plant that keep the three invariants -/

/-- A change of the plant that keeps the invariants of the move queue, the piece table and the generations. -/
structure Plant.KeepsTables (p p' : Plant) : Prop where
  queue  : p.yard.queueOk → p'.yard.queueOk
  pieces : p.pieceOk → p'.pieceOk
  gens   : p.yard.genOk → p'.yard.genOk

namespace Plant.KeepsTables

theorem refl (p : Plant) : Plant.KeepsTables p p := ⟨id, id, id⟩

theorem trans {p p' p'' : Plant} (h : Plant.KeepsTables p p') (k : Plant.KeepsTables p' p'') : Plant.KeepsTables p p'' :=
  ⟨fun a => k.queue (h.queue a), fun a => k.pieces (h.pieces a), fun a => k.gens (h.gens a)⟩

/-- A change of the yard by the move machinery, with the mark map and the class table as they are. -/
theorem of_follows {p p' : Plant} (h : Yard.Follows p.yard p'.yard) (hm : p'.markMap = p.markMap)
    (hk : p'.classes = p.classes) : Plant.KeepsTables p p' :=
  ⟨h.queue, Plant.pieceOk_of_census h.pieces hm hk, Yard.genOk_of_gens h.pieces h.gens⟩

theorem updYard {p : Plant} {f : Yard → Yard} (h : Yard.Follows p.yard (f p.yard)) :
    Plant.KeepsTables p (p.updYard f) := of_follows h rfl rfl

/-- What follows a change. -/
theorem settle {p p' : Plant} (s0 : Plant) (h : Plant.KeepsTables p p') : Plant.KeepsTables p (s0.settle p') :=
  h.trans (updYard (follows_settle _ _ _))

theorem settleClaim {p p' : Plant} (h : Plant.KeepsTables p p') : Plant.KeepsTables p p'.settleClaim :=
  h.trans (updYard (follows_settleClaim _ _))

theorem settleFault {p p' : Plant} (s0 : Plant) (k : Nat) (h : Plant.KeepsTables p p') :
    Plant.KeepsTables p (s0.settleFault p' k) := by
  unfold Plant.settleFault
  split
  · exact h.settleClaim
  · exact h.settle s0

/-- A walk of changes that each keep the invariants. -/
theorem forEach {α : Type} (f : Plant → α → Plant) (h : ∀ p a, Plant.KeepsTables p (f p a)) (xs : List α) (p : Plant) :
    Plant.KeepsTables p (Machine.forEach xs f p) := by
  unfold Machine.forEach
  induction xs generalizing p with
  | nil => exact refl p
  | cons x xs ih => exact (h p x).trans (ih (f p x))

end Plant.KeepsTables

/-! ## The mark map (R6) -/

theorem mem_markInsert (l : List (Nat × Nat)) (mark slot : Nat) (e : Nat × Nat) :
    e ∈ markInsert l mark slot ↔ e = (mark, slot) ∨ e ∈ l := by
  have hl : e ∈ l ↔ e ∈ l.takeWhile (fun e => decide (e.2 < slot)) ∨ e ∈ l.dropWhile (fun e => decide (e.2 < slot)) := by
    rw [← List.mem_append, List.takeWhile_append_dropWhile]
  unfold markInsert
  rw [List.mem_append, List.mem_cons, hl]
  tauto

theorem markInsert_nodup (l : List (Nat × Nat)) (mark slot : Nat) (h : (l.map (fun e => e.1)).Nodup)
    (hm : ∀ i, (mark, i) ∉ l) : ((markInsert l mark slot).map (fun e => e.1)).Nodup := by
  have hp : (markInsert l mark slot).Perm ((mark, slot) :: l) := by
    have h1 := List.perm_middle (a := (mark, slot)) (l₁ := l.takeWhile (fun e => decide (e.2 < slot)))
      (l₂ := l.dropWhile (fun e => decide (e.2 < slot)))
    rwa [List.takeWhile_append_dropWhile] at h1
  rw [(hp.map _).nodup_iff, List.map_cons, List.nodup_cons]
  refine ⟨fun hmem => ?_, h⟩
  obtain ⟨e, he, heq⟩ := List.mem_map.1 hmem
  exact hm e.2 (by rw [← show e.1 = mark from heq]; exact he)

/-- R6, R7: the map gives no slot exactly for a mark that it does not hold. -/
theorem markSlot_eq_none (l : List (Nat × Nat)) (mark : Nat) : markSlot l mark = none ↔ ∀ i, (mark, i) ∉ l := by
  simp only [markSlot, Option.map_eq_none_iff, List.find?_eq_none, decide_eq_true_eq]
  exact ⟨fun h i hi => h _ hi rfl, fun h e he hm => h e.2 (by rw [← hm]; exact he)⟩

/-- A map without a mark twice gives one slot for a mark. -/
theorem slot_unique {l : List (Nat × Nat)} (h : (l.map (fun e => e.1)).Nodup) {mark i j : Nat} (hi : (mark, i) ∈ l)
    (hj : (mark, j) ∈ l) : i = j := by
  have := List.inj_on_of_nodup_map h hi hj rfl
  exact congrArg Prod.snd this

/-! ## One piece slot written -/

/-- The pieces after one slot is written. -/
theorem pieceSlot_upd (y y' : Yard) (slot i : Nat) (f : PieceSlot → PieceSlot) (h : slot < 1024)
    (hy : y'.pieces = upd y.pieces slot f) : y'.pieceSlot i = if slot = i then f (y.pieceSlot i) else y.pieceSlot i := by
  unfold Yard.pieceSlot
  rw [hy, getOr_upd _ _ _ _ _ h]

/-- R13: the live records of a class after one slot is written: the slot's old record leaves, the new one enters. -/
theorem classCount_upd (y y' : Yard) (slot c : Nat) (f : PieceSlot → PieceSlot) (h : slot < 1024)
    (hy : y'.pieces = upd y.pieces slot f) :
    y'.classCount c + (if (y.pieceAt slot).map (fun r => r.cls) = some c then 1 else 0)
      = y.classCount c + (if (y'.pieceAt slot).map (fun r => r.cls) = some c then 1 else 0) := by
  have hs : y'.pieceAt slot = (f (y.pieces[slot])).piece := by
    unfold Yard.pieceAt
    rw [pieceSlot_upd y y' slot slot f h hy, if_pos rfl]
    unfold Yard.pieceSlot
    rw [getOr_lt _ _ _ h]
  have h0 : y.pieceAt slot = (y.pieces[slot]).piece := by
    unfold Yard.pieceAt Yard.pieceSlot
    rw [getOr_lt _ _ _ h]
  have hl : y'.pieces.toList = y.pieces.toList.set slot (f (y.pieces[slot])) := by
    rw [hy, upd, dif_pos h, Vector.toList_set]
  have hlen : slot < y.pieces.toList.length := by simpa using h
  have hget : y.pieces.toList[slot] = y.pieces[slot] := by simp
  have hcount := List.countP_set (p := fun ps : PieceSlot => decide (ps.piece.map (fun p => p.cls) = some c))
    (l := y.pieces.toList) (i := slot) (a := f (y.pieces[slot])) hlen
  rw [hget] at hcount
  have hpos : (y.pieces[slot]).piece.map (fun p => p.cls) = some c → 0 < y.classCount c := fun hp =>
    List.countP_pos_iff.2 ⟨y.pieces[slot], by rw [← hget]; exact List.getElem_mem _, by simpa using hp⟩
  unfold Yard.classCount at hpos ⊢
  rw [hs, h0, hl, hcount]
  by_cases ho : (y.pieces[slot]).piece.map (fun p => p.cls) = some c
  · have := hpos ho
    simp only [ho, decide_true, if_true]
    by_cases hn : (f (y.pieces[slot])).piece.map (fun p => p.cls) = some c
    · simp only [hn, decide_true, if_true]
      omega
    · simp only [hn, decide_false, if_false, Bool.false_eq_true]
      omega
  · simp only [ho, decide_false, if_false, Bool.false_eq_true]
    by_cases hn : (f (y.pieces[slot])).piece.map (fun p => p.cls) = some c
    · simp only [hn, decide_true, if_true]
      omega
    · simp only [hn, decide_false, if_false, Bool.false_eq_true]
      omega

/-- R13: a live record is one of its class. -/
theorem classCount_pos {y : Yard} {slot : Nat} {r : Piece} (h : y.pieceAt slot = some r) : 0 < y.classCount r.cls := by
  have hs := Yard.pieceAt_lt _ _ _ h
  unfold Yard.pieceAt Yard.pieceSlot at h
  rw [getOr_lt _ _ _ hs] at h
  exact List.countP_pos_iff.2 ⟨y.pieces[slot], by simp, by simp [h]⟩

/-- R1, R6, R13: the invariant of the piece table carries over where one piece slot is written, the map holds the slot's new
mark in place of its old one, and the classes count the change. -/
theorem Plant.pieceOk_of_slot {p p' : Plant} {slot : Nat} {f : PieceSlot → PieceSlot} (hslot : slot < 1024)
    (hy : p'.yard.pieces = upd p.yard.pieces slot f) (h : p.pieceOk)
    (hmap : ∀ m i, (m, i) ∈ p'.markMap
      ↔ (i ≠ slot ∧ (m, i) ∈ p.markMap) ∨ (i = slot ∧ ∃ r, p'.yard.pieceAt slot = some r ∧ r.mark = m))
    (hnd : (p'.markMap.map (fun e => e.1)).Nodup)
    (hnew : ∀ r, p'.yard.pieceAt slot = some r → r.cls < 32 ∧ (p.cls r.cls).defined = true)
    (hcls : ∀ c, p'.cls c = { p.cls c with liveCount := (p'.cls c).liveCount })
    (hcount : ∀ c, (p'.cls c).liveCount + (if (p.yard.pieceAt slot).map (fun r => r.cls) = some c then 1 else 0)
      = (p.cls c).liveCount + (if (p'.yard.pieceAt slot).map (fun r => r.cls) = some c then 1 else 0)) : p'.pieceOk := by
  obtain ⟨hmap0, -, hlive, hcount0, hzero⟩ := h
  have hat : ∀ i, i ≠ slot → p'.yard.pieceAt i = p.yard.pieceAt i := fun i hi => by
    unfold Yard.pieceAt
    rw [pieceSlot_upd _ _ slot i f hslot hy, if_neg (Ne.symm hi)]
  refine ⟨fun m i => ?_, hnd, fun i r hr => ?_, fun c hlt => ?_, fun c hlt => ?_⟩
  · rw [hmap, hmap0]
    by_cases hi : i = slot
    · simp [hi]
    · simp [hi, hat i hi]
  · rw [hcls]
    by_cases hi : i = slot
    · exact hnew r (hi ▸ hr)
    · exact hlive i r ((hat i hi).symm.trans hr)
  · have h1 := classCount_upd p.yard p'.yard slot c f hslot hy
    have h2 := hcount c
    have h3 := hcount0 c hlt
    omega
  · rw [hcls]
    exact hzero c hlt

end Sys2Proof.Machine
end

