-- ==== Sys2Proof/Proofs/Allocation.lean ====
section
/-! PROOF. An allocation, a retirement and a freed ticket slot keep the three invariants (R3, R4, R114). -/

namespace Sys2Proof.Machine

/-! ## Allocation (R3) -/

/-- R3: the lowest free piece slot is one of the 1024 and holds no record. -/
theorem Yard.freePieceSlot_free {y : Yard} {slot : Nat} (h : y.freePieceSlot = some slot) :
    slot < 1024 ∧ y.pieceAt slot = none := by
  obtain ⟨hlt, hnone, -⟩ := List.findIdx?_eq_some_iff_getElem.1 h
  have hs : slot < 1024 := by simpa using hlt
  refine ⟨hs, ?_⟩
  unfold Yard.pieceAt Yard.pieceSlot
  rw [getOr_lt _ _ _ hs]
  simpa using hnone

/-- R3: what an allocation in a free slot makes of the plant. -/
theorem allocate_eq (s : Plant) (p : Piece) (slot : Nat) (h : s.yard.freePieceSlot = some slot) :
    (allocate s p).2 = { s with
      markMap := markInsert s.markMap p.mark slot
      classes := upd s.classes p.cls (fun c => { c with liveCount := c.liveCount + 1 })
      yard := s.yard.putPiece slot p } := by
  unfold allocate
  simp only [h]
  rfl

theorem allocate_none (s : Plant) (p : Piece) (h : s.yard.freePieceSlot = none) : allocate s p = (none, s) := by
  unfold allocate
  simp only [h]

/-- R3, R13: an allocation counts its class. -/
theorem allocate_cls (s : Plant) (p : Piece) (slot c : Nat) (h : s.yard.freePieceSlot = some slot) (hc : p.cls < 32) :
    (allocate s p).2.cls c
      = if p.cls = c then { s.cls c with liveCount := (s.cls c).liveCount + 1 } else s.cls c := by
  rw [allocate_eq s p slot h]
  exact getOr_upd _ _ _ _ _ hc

/-- R13: an allocation defines no class and withdraws none. -/
theorem allocate_defined (s : Plant) (p : Piece) (c : Nat) (hc : p.cls < 32) :
    ((allocate s p).2.cls c).defined = (s.cls c).defined := by
  cases h : s.yard.freePieceSlot with
  | none => rw [allocate_none s p h]
  | some slot =>
    rw [allocate_cls s p slot c h hc]
    split <;> rfl

/-- R6: an allocation enters its own mark alone. -/
theorem allocate_marks (s : Plant) (p : Piece) (m i : Nat) (h : (m, i) ∈ (allocate s p).2.markMap) :
    m = p.mark ∨ (m, i) ∈ s.markMap := by
  cases hf : s.yard.freePieceSlot with
  | none =>
    rw [allocate_none s p hf] at h
    exact Or.inr h
  | some slot =>
    rw [allocate_eq s p slot hf] at h
    rcases (mem_markInsert _ _ _ _).1 h with h | h
    · exact Or.inl (congrArg Prod.fst h)
    · exact Or.inr h

/-- The records after one is put in a slot. -/
theorem pieceAt_putPiece (y : Yard) (slot i : Nat) (p : Piece) (h : slot < 1024) :
    (y.putPiece slot p).pieceAt i = if slot = i then some p else y.pieceAt i := by
  unfold Yard.pieceAt
  rw [pieceSlot_upd y _ slot i _ h (Yard.putPiece_pieces _ _ _)]
  split <;> rfl

theorem gen_putPiece (y : Yard) (slot i : Nat) (p : Piece) (h : slot < 1024) :
    ((y.putPiece slot p).pieceSlot i).gen = (y.pieceSlot i).gen := by
  rw [pieceSlot_upd y _ slot i _ h (Yard.putPiece_pieces _ _ _)]
  split <;> rfl

/-- R3, R6, R13: an allocation of a record with a mark that is not in the map and a defined class. -/
theorem keeps_allocate (s : Plant) (p : Piece) (hm : ∀ i, (p.mark, i) ∉ s.markMap)
    (hk : p.cls < 32 ∧ (s.cls p.cls).defined = true) : Plant.KeepsTables s (allocate s p).2 := by
  cases hf : s.yard.freePieceSlot with
  | none => rw [allocate_none s p hf]; exact .refl s
  | some slot =>
    obtain ⟨hslot, hfree⟩ := Yard.freePieceSlot_free hf
    have hcls := fun c => allocate_cls s p slot c hf hk.1
    generalize hq : (allocate s p).2 = q at hcls
    rw [allocate_eq s p slot hf] at hq
    have hy : q.yard = s.yard.putPiece slot p := by rw [← hq]
    have hmm : q.markMap = markInsert s.markMap p.mark slot := by rw [← hq]
    have hat : q.yard.pieceAt slot = some p := by rw [hy, pieceAt_putPiece _ _ _ _ hslot, if_pos rfl]
    have hgen := fun i => gen_putPiece s.yard slot i p hslot
    refine ⟨fun h => ?_, fun h => Plant.pieceOk_of_slot hslot (by rw [hy]; exact Yard.putPiece_pieces _ _ _) h
      (fun m i => ?_) ?_ (fun r hr => ?_) (fun c => ?_) (fun c => ?_), fun ⟨h1, h2, h3⟩ => ?_⟩
    · rw [hy]
      exact h
    · rw [hmm, mem_markInsert, hat, Prod.mk.injEq]
      have hnone : i = slot → (m, i) ∉ s.markMap := fun hi hmem => by
        obtain ⟨r, hr, -⟩ := (h.1 m i).1 hmem
        rw [hi, hfree] at hr
        cases hr
      by_cases hi : i = slot
      · have hno := hnone hi
        subst hi
        simp [hno, eq_comm]
      · simp [hi]
    · rw [hmm]
      exact markInsert_nodup _ _ _ h.2.1 hm
    · obtain rfl := Option.some.inj (hat.symm.trans hr)
      exact hk
    · rw [hcls]
      split <;> rfl
    · rw [hcls, hfree, hat]
      by_cases hc : p.cls = c <;> simp [hc]
    · rw [hy]
      exact ⟨fun i => by rw [hgen]; exact h1 i, by rwa [hgen], h3⟩

/-! ## Retirement (R4) -/

/-- R4: what a retirement makes of the plant. -/
theorem retire_eq (s : Plant) (h : Handle) (p : Piece) (hp : s.yard.pieceAt h.slot = some p) :
    retire s h = { s with
      markMap := markRemove s.markMap p.mark
      classes := upd s.classes p.cls (fun c => { c with liveCount := c.liveCount - 1 })
      yard := s.yard.clearPiece h.slot } := by
  unfold retire
  simp only [hp]
  rfl

/-- R4, R13: a retirement takes its record out of the count of its class. -/
theorem retire_cls (s : Plant) (h : Handle) (p : Piece) (c : Nat) (hp : s.yard.pieceAt h.slot = some p) (hc : p.cls < 32) :
    (retire s h).cls c
      = if p.cls = c then { s.cls c with liveCount := (s.cls c).liveCount - 1 } else s.cls c := by
  rw [retire_eq s h p hp]
  exact getOr_upd _ _ _ _ _ hc

/-- The pieces after a slot is cleared. -/
theorem pieceSlot_clearPiece (y : Yard) (slot i : Nat) (h : slot < 1024) :
    (y.clearPiece slot).pieceSlot i
      = if slot = i then ⟨nextGen slot (y.pieceSlot i).gen, none⟩ else y.pieceSlot i :=
  pieceSlot_upd y _ slot i _ h (Yard.clearPiece_pieces _ _)

/-- R4: generations stay in their range. -/
theorem nextGen_lt (slot gen : Nat) : nextGen slot gen < 64 := by
  unfold nextGen
  split <;> omega

/-- R4: slot 1023 never takes generation 63. -/
theorem nextGen_last (gen : Nat) (h : gen < 64) : nextGen 1023 gen ≠ 63 := by
  unfold nextGen
  split <;> omega

/-- R4, R6, R13: a retirement keeps the invariants, whatever the handle. -/
theorem keeps_retire (s : Plant) (h : Handle) : Plant.KeepsTables s (retire s h) := by
  cases hp : s.yard.pieceAt h.slot with
  | none =>
    unfold retire
    simp only [hp]
    exact .refl s
  | some p =>
    have hslot := Yard.pieceAt_lt _ _ _ hp
    have hcls := fun c hc => retire_cls s h p c hp hc
    generalize hq : retire s h = q at hcls
    rw [retire_eq s h p hp] at hq
    have hy : q.yard = s.yard.clearPiece h.slot := by rw [← hq]
    have hmm : q.markMap = markRemove s.markMap p.mark := by rw [← hq]
    have hps := fun i => pieceSlot_clearPiece s.yard h.slot i hslot
    have hat : q.yard.pieceAt h.slot = none := by
      unfold Yard.pieceAt
      rw [hy, hps, if_pos rfl]
    refine ⟨fun hk => ?_, fun hk => ?_, fun ⟨h1, h2, h3⟩ => ?_⟩
    · rw [hy]
      exact hk
    · have hk' := hk
      obtain ⟨hmap, hnd, hlive, hcount, -⟩ := hk'
      have hpc := (hlive _ p hp).1
      have hmine : (p.mark, h.slot) ∈ s.markMap := (hmap _ _).2 ⟨p, hp, rfl⟩
      have hpos : 0 < (s.cls p.cls).liveCount := by
        rw [hcount _ hpc]
        exact classCount_pos hp
      refine Plant.pieceOk_of_slot (p := s) hslot (by rw [hy]; exact Yard.clearPiece_pieces _ _) hk
        (fun m i => ?_) ?_ (fun r hr => ?_) (fun c => ?_) (fun c => ?_)
      · rw [hmm, hat, markRemove, List.mem_filter]
        have hiff : (m, i) ∈ s.markMap → (m ≠ p.mark ↔ i ≠ h.slot) := fun hmem => by
          obtain ⟨r, hr, rfl⟩ := (hmap _ _).1 hmem
          refine ⟨fun hne heq => hne ?_, fun hne heq => hne ?_⟩
          · rw [heq, hp] at hr
            rw [Option.some.inj hr]
          · rw [heq] at hmem
            exact slot_unique hnd hmem hmine
        simp only [decide_eq_true_eq, reduceCtorEq, false_and, exists_false, and_false, or_false]
        exact ⟨fun ⟨hmem, hne⟩ => ⟨(hiff hmem).1 hne, hmem⟩, fun ⟨hne, hmem⟩ => ⟨hmem, (hiff hmem).2 hne⟩⟩
      · rw [hmm]
        exact hnd.sublist (List.filter_sublist.map _)
      · rw [hat] at hr
        cases hr
      · rw [hcls c hpc]
        split <;> rfl
      · rw [hcls c hpc, hat, hp]
        by_cases hc : p.cls = c
        · subst hc
          simp
          omega
        · simp [hc]
    · rw [hy]
      refine ⟨fun i => ?_, ?_, h3⟩
      · rw [hps]
        split
        · exact nextGen_lt _ _
        · exact h1 i
      · rw [hps]
        split
        · rename_i heq
          rw [heq]
          exact nextGen_last _ (h1 _)
        · exact h2

/-! ## A freed ticket slot (R114) -/

theorem ticketSlot_freeTicket (y : Yard) (slot i : Nat) :
    (y.freeTicket slot).ticketSlot i
      = if slot = i then ⟨if i < 24 then ((y.ticketSlot i).gen + 1) % 64 else 0, none⟩ else y.ticketSlot i := by
  unfold Yard.ticketSlot
  rw [Yard.freeTicket_tickets]
  by_cases h : slot < 24
  · rw [getOr_upd _ _ _ _ _ h]
    split
    · subst slot; simp [h]
    · rfl
  · rw [upd_ge _ _ _ (Nat.not_lt.mp h)]
    split
    · subst slot
      rw [getOr_ge _ _ _ (Nat.not_lt.mp h), if_neg h]
    · rfl

/-- R114: a slot freed in a yard that has the queues and the other tickets of one that keeps the queue invariant. -/
theorem queueOk_freeTicket {y y' : Yard} {slot : Nat} (hm : y'.moveQueue = y.moveQueue) (hf : y'.finished = y.finished)
    (hs : ∀ i, i ≠ slot → (y'.ticketSlot i).entry = (y.ticketSlot i).entry) (h : y.queueOk) :
    (y'.freeTicket slot).queueOk := by
  obtain ⟨hnm, hnf, hused, hdone⟩ := h
  have hat : ∀ i, ((y'.freeTicket slot).ticketAt i).map (fun t => t.state.isActive)
      = if i = slot then none else (y.ticketAt i).map (fun t => t.state.isActive) := fun i => by
    rw [Yard.ticketAt_entry, Yard.ticketAt_entry, ticketSlot_freeTicket]
    by_cases hi : i = slot
    · simp [hi, TicketSlot.entry]
    · rw [if_neg (Ne.symm hi), if_neg hi, hs i hi]
  have hsome : ∀ i, ((y'.freeTicket slot).ticketAt i).isSome = true ↔ i ≠ slot ∧ (y.ticketAt i).isSome = true := fun i => by
    have := congrArg Option.isSome (hat i)
    rw [Option.isSome_map] at this
    rw [this]
    by_cases hi : i = slot <;> simp [hi]
  have hend : ∀ z : Yard, ∀ i, (∃ t, z.ticketAt i = some t ∧ t.state.isActive = false)
      ↔ (z.ticketAt i).map (fun t => t.state.isActive) = some false := fun z i => by
    rw [Option.map_eq_some_iff]
  refine ⟨?_, ?_, fun i => ?_, fun i => ?_⟩
  · rw [Yard.freeTicket_moveQueue, hm]
    exact hnm.filter _
  · rw [Yard.freeTicket_finished, hf]
    exact hnf.filter _
  · rw [Yard.freeTicket_moveQueue, hsome, ← hused, hm]
    simp [and_comm]
  · rw [Yard.freeTicket_finished, hend, hat, hf, List.mem_filter, hdone, hend]
    by_cases hi : i = slot <;> simp [hi]

/-- R114: freed slots keep their generations in range. -/
theorem genOk_freeTicket {y : Yard} (slot : Nat) (h : y.genOk) : (y.freeTicket slot).genOk := by
  obtain ⟨h1, h2, h3⟩ := h
  refine ⟨h1, h2, fun i => ?_⟩
  rw [ticketSlot_freeTicket]
  split
  · dsimp only
    split <;> omega
  · exact h3 i

/-- R135: a finished ticket reported and its slot freed. -/
theorem keeps_freeTicket (s : Plant) (slot : Nat) : Plant.KeepsTables s (s.updYard (fun y => y.freeTicket slot)) :=
  ⟨queueOk_freeTicket rfl rfl fun _ _ => rfl, Plant.pieceOk_of_census rfl rfl rfl, genOk_freeTicket slot⟩

/-- R133: a cancelled ticket leaves its slot. -/
theorem keeps_cancelTicket (s : Plant) (e : Site) (slot : Nat) :
    Plant.KeepsTables s (s.updYard (fun y => cancelTicket e y slot)) := by
  cases ht : s.yard.ticketAt slot with
  | none =>
    have h : cancelTicket e s.yard slot = s.yard := by
      unfold cancelTicket
      simp only [ht]
    exact .updYard (by rw [h]; exact .refl _)
  | some t =>
    generalize hy0 : (stopCraneOf e s.yard t).updTicket slot (fun u => { u with state := .cancelled, waits := .none }) = y0
    generalize hy1 : unbind (clearPieceTicket (releaseClaims e y0 (s.yard.ticketHandle slot) t (buriedIn s.yard slot)) t)
      (s.yard.ticketHandle slot) = y1
    have hc : cancelTicket e s.yard slot = y1.freeTicket slot := by
      unfold cancelTicket
      simp only [ht, hy0, hy1]
    have h1 : y1.census = y0.census := by
      rw [← hy1, census_unbind, census_clearPieceTicket, census_releaseClaims]
    have hstop := census_stopCraneOf e s.yard t
    have h0 : ∀ i, i ≠ slot → (y0.ticketSlot i).entry = (s.yard.ticketSlot i).entry := fun i hi => by
      have hne : y0.ticketSlot i = (stopCraneOf e s.yard t).ticketSlot i := by
        rw [← hy0]
        exact getOr_upd_ne _ _ _ _ _ (Ne.symm hi)
      rw [hne, Yard.ticketSlot_entry, Yard.ticketSlot_entry, hstop]
    have hgen : ∀ i, (y1.ticketSlot i).gen = (s.yard.ticketSlot i).gen := fun i => by
      have h2 := (Yard.Follows.of_census h1).gens i
      have h3 := (Yard.Follows.of_census hstop).gens i
      rw [h2, ← hy0, gen_updTicket, h3]
    have hp : y1.census.pieces = s.yard.census.pieces := by
      rw [h1, ← hy0, ← hstop]
      rfl
    have hm : y1.moveQueue = s.yard.moveQueue := by
      rw [show y1.moveQueue = y1.census.moveQueue from rfl, h1, ← hy0]
      exact congrArg Census.moveQueue hstop
    have hf : y1.finished = s.yard.finished := by
      rw [show y1.finished = y1.census.finished from rfl, h1, ← hy0]
      exact congrArg Census.finished hstop
    have hs : ∀ i, i ≠ slot → (y1.ticketSlot i).entry = (s.yard.ticketSlot i).entry := fun i hi => by
      rw [Yard.ticketSlot_entry, h1, ← Yard.ticketSlot_entry]
      exact h0 i hi
    have hyard : (s.updYard (fun y => cancelTicket e y slot)).yard = y1.freeTicket slot := hc
    refine ⟨fun hq => ?_, fun hk => Plant.pieceOk_of_census (p := s) ?_ rfl rfl hk, fun hg => ?_⟩
    · rw [hyard]
      exact queueOk_freeTicket hm hf hs hq
    · rw [hyard]
      exact hp
    · rw [hyard]
      exact genOk_freeTicket slot (Yard.genOk_of_gens hp hgen hg)

end Sys2Proof.Machine
end

