-- ==== Sys2Proof/Proofs/TableSteps.lean ====
section
/-! PROOF. Every step keeps the invariants of the move queue, the piece table and the generations: the beds, the yard links,
the works, each command of the Command Port, and the port itself. -/

namespace Sys2Proof.Machine

/-! ## Changes that the tables do not see -/

/-- What the invariants of the tables read of the plant. -/
def Plant.tables (p : Plant) : List (Nat × Nat) × Vector ClassEntry 32 × Census := (p.markMap, p.classes, p.yard.census)

theorem Plant.KeepsTables.of_tables {p p' : Plant} (h : p'.tables = p.tables) : Plant.KeepsTables p p' := by
  obtain ⟨hm, hk, hc⟩ : p'.markMap = p.markMap ∧ p'.classes = p.classes ∧ p'.yard.census = p.yard.census := by
    simpa [Plant.tables] using h
  exact .of_follows (.of_census hc) hm hk

/-- A walk of changes that the tables do not see. -/
theorem tables_forEach {α : Type} (f : Plant → α → Plant) (h : ∀ p a, (f p a).tables = p.tables) (xs : List α) (p : Plant) :
    (forEach xs f p).tables = p.tables := by
  unfold forEach
  induction xs generalizing p with
  | nil => rfl
  | cons x xs ih => rw [List.foldl_cons, ih, h]

theorem tables_updYard (p : Plant) (f : Yard → Yard) (h : (f p.yard).census = p.yard.census) :
    (p.updYard f).tables = p.tables := by
  simp [Plant.tables, h]

/-- A change of one bed's records is not seen. -/
theorem tables_of_onlyBed {b : Nat} {p p' : Plant} (h : Plant.onlyBed b p p') : p'.tables = p.tables := by
  obtain ⟨-, hk, hm, -, hy, -⟩ := h
  simp [Plant.tables, hk, hm, hy]

section
variable (p : Plant) (b : Nat)

@[simp] theorem tables_updBed (f : BedRecord → BedRecord) : (p.updBed b f).tables = p.tables := rfl
@[simp] theorem tables_updHeat (f : HeatRecord → HeatRecord) : (p.updHeat b f).tables = p.tables := rfl
@[simp] theorem tables_updIntake (f : IntakeRecord → IntakeRecord) : (p.updIntake b f).tables = p.tables := rfl
@[simp] theorem tables_updBedLine (f : BedLine → BedLine) : (p.updBedLine b f).tables = p.tables := rfl
@[simp] theorem tables_setBedState (st : BedState) : (p.setBedState b st).tables = p.tables := rfl
@[simp] theorem tables_latchBed (f : BedFlags → BedFlags) : (p.latchBed b f).tables = p.tables := rfl
@[simp] theorem tables_heatOff : (heatOff p b).tables = p.tables := rfl
@[simp] theorem tables_sendOrder : (sendOrder p b).tables = p.tables := tables_of_onlyBed (sendOrder_onlyBed p b)
@[simp] theorem tables_sendIfChanged : (sendIfChanged p b).tables = p.tables :=
  tables_of_onlyBed (sendIfChanged_onlyBed p b)
@[simp] theorem tables_forceOff : (forceOff p b).tables = p.tables := tables_sendIfChanged _ _
@[simp] theorem tables_liftFromBed (i : Nat) : (liftFromBed p b i).tables = p.tables := tables_sendIfChanged _ _
@[simp] theorem tables_bedMinuteDue : (bedMinuteDue p b).tables = p.tables := rfl
@[simp] theorem tables_openBed : (openBed p b).tables = p.tables := rfl

/-- R76: a CURE hold on every piece of a bed. -/
@[simp] theorem tables_holdCure : (holdCure p b).tables = p.tables := by
  refine tables_updYard _ _ (census_forEach _ (fun y h => ?_) _ _)
  exact census_updPiece _ _ _ fun _ => rfl

/-- R71, R72: a credit writes maturities. -/
@[simp] theorem tables_creditBed (t : Int) : (creditBed p b t).tables = p.tables := by
  unfold creditBed
  split
  · refine tables_updYard (p.updBed b _) _ (census_forEach _ (fun y h => ?_) _ _)
    exact census_updPiece _ _ _ fun _ => rfl
  · rfl

end

/-! ## Beds and samples -/

theorem tables_segmentEnds (p : Plant) (b : Nat) : (segmentEnds p b).tables = p.tables := by
  unfold segmentEnds
  dsimp only
  rw [tables_sendIfChanged]
  split <;> rfl

theorem tables_countSegment (p : Plant) (b : Nat) : (countSegment p b).tables = p.tables := by
  unfold countSegment
  split
  · exact tables_segmentEnds p b
  · rfl

/-- R48, R61: the timer event of a heat record. -/
theorem tables_heatTick (p : Plant) (b : Nat) : (heatTick p b).tables = p.tables := by
  unfold heatTick
  dsimp only
  split
  · rw [tables_countSegment, tables_sendIfChanged, tables_updHeat]
  · rw [tables_sendIfChanged, tables_updHeat]

theorem tables_gapExpiry (p : Plant) (b : Nat) : (gapExpiry p b).tables = p.tables := by
  unfold gapExpiry
  dsimp only
  split <;> rfl

theorem tables_lostExpiry (p : Plant) (b : Nat) (wasOk : Bool) : (lostExpiry p b wasOk).tables = p.tables := by
  unfold lostExpiry
  dsimp only
  split
  · rfl
  · rw [tables_holdCure, tables_forceOff, tables_latchBed, tables_updIntake]

/-- R78: the timer event of an intake record. -/
theorem tables_intakeTick (p : Plant) (b : Nat) : (intakeTick p b).tables = p.tables := by
  unfold intakeTick
  dsimp only
  split
  · rfl
  · split
    · rw [tables_lostExpiry, tables_updIntake]
    · split
      · rw [tables_gapExpiry, tables_updIntake]
      · rfl

theorem tables_overTemperature (p : Plant) (b : Nat) (t : Int) : (overTemperature p b t).tables = p.tables := by
  unfold overTemperature
  split
  · rw [tables_holdCure, tables_heatOff, tables_latchBed]
  · rfl

theorem tables_unitStatus (p : Plant) (b status : Nat) : (unitStatus p b status).tables = p.tables := by
  unfold unitStatus
  split <;> rfl

/-- R70: an accepted sample. -/
theorem tables_takeSample (p : Plant) (b seq : Nat) (t : Int) (status : Nat) :
    (takeSample p b seq t status).tables = p.tables := by
  unfold takeSample
  split
  · unfold sampleEffects
    dsimp only
    rw [tables_sendOrder, tables_unitStatus, tables_overTemperature, tables_creditBed, tables_updIntake]
  · rfl

theorem tables_takeBedBytes (p : Plant) (b : Nat) (bytes : List Byte) : (takeBedBytes p b bytes).tables = p.tables := by
  unfold takeBedBytes
  split
  · exact tables_takeSample _ _ _ _ _
  · rfl

/-! ## Crane reports (R158 to R164) -/

/-- R158: a report that does not fit latches PROTOCOL. -/
theorem keeps_notFitting (p : Plant) (k : Nat) : Plant.KeepsTables p (notFitting p k) := .of_tables rfl

/-- The current ticket of a crane in an active state. -/
theorem currentTicket_active {y : Yard} {k slot : Nat} {t : Ticket} (h : currentTicket y k = some (slot, t))
    (ha : t.state.isActive = true) : y.activeAt slot = true := (activeAt_iff _ _).2 ⟨t, currentTicket_at h, ha⟩

theorem arrivedFits_active {y : Yard} {k : Nat} {o : StageOrder} {t : Ticket} (h : arrivedFits y k o t = true) :
    t.state.isActive = true := by
  simp only [arrivedFits, Bool.and_eq_true, Bool.or_eq_true, decide_eq_true_eq] at h
  rcases h.1.2 with hs | hs <;> rw [hs] <;> rfl

theorem liftedFits_active {y : Yard} {k : Nat} {o : StageOrder} {t : Ticket} (h : liftedFits y k o t = true) :
    t.state.isActive = true := by
  simp only [liftedFits, Bool.and_eq_true, decide_eq_true_eq] at h
  rw [h.1.1.2]
  rfl

theorem loweredFits_active {y : Yard} {k : Nat} {o : StageOrder} {t : Ticket} (h : loweredFits y k o t = true) :
    t.state.isActive = true := by
  simp only [loweredFits, Bool.and_eq_true, Bool.or_eq_true, decide_eq_true_eq] at h
  rcases h.1.2 with hs | hs
  · rw [hs]; rfl
  · rw [hs.1]; rfl

theorem keeps_takeArrived (p : Plant) (k seq : Nat) : Plant.KeepsTables p (takeArrived p k seq) := by
  unfold takeArrived
  split
  · exact .refl p
  · split
    · exact .refl p
    · split
      · rename_i slot t ht
        split
        · rename_i hf
          exact .settle p (.updYard (follows_arrivedEffect _ _ _ _ _ _ (currentTicket_active ht (arrivedFits_active hf))))
        · exact keeps_notFitting p k
      · exact keeps_notFitting p k

/-- R129, R130: a good lift, and one that fails its weight check. -/
theorem keeps_liftedEffect (s : Plant) (k slot weight : Nat) (t : Ticket) (p : Handle) (src : Location)
    (ha : s.yard.activeAt slot = true) : Plant.KeepsTables s (liftedEffect s k slot weight t p src) := by
  unfold liftedEffect
  split
  · have hb : (emptyBed s src).tables = s.tables := by
      unfold emptyBed
      split
      · exact tables_liftFromBed _ _ _
      · rfl
    have hy : (emptyBed s src).yard.census = s.yard.census := congrArg (fun x => x.2.2) hb
    exact (Plant.KeepsTables.of_tables hb).trans
      (.updYard (.of_census (census_liftPassed _ _ _ _ _ _ _ (Yard.activeAt_of_census hy ha))))
  · exact .updYard (follows_liftFailed _ _ _ _ _ _)

theorem keeps_takeLifted (p : Plant) (k seq weight : Nat) : Plant.KeepsTables p (takeLifted p k seq weight) := by
  unfold takeLifted
  split
  · exact .refl p
  · split
    · exact .refl p
    · split
      · rename_i slot t ht
        split
        · rename_i hf
          split
          · exact .settle p (keeps_liftedEffect _ _ _ _ _ _ _ (currentTicket_active ht (liftedFits_active hf)))
          · exact keeps_notFitting p k
        · exact keeps_notFitting p k
      · exact keeps_notFitting p k

theorem keeps_takeLowered (p : Plant) (k seq : Nat) : Plant.KeepsTables p (takeLowered p k seq) := by
  unfold takeLowered
  split
  · exact .refl p
  · split
    · exact .refl p
    · split
      · rename_i slot t ht
        split
        · rename_i hf
          exact .settle p (.updYard (follows_loweredEffect _ _ _ _ _ (currentTicket_active ht (loweredFits_active hf))))
        · exact keeps_notFitting p k
      · exact keeps_notFitting p k

theorem keeps_takeStopped (p : Plant) (k seq bay : Nat) : Plant.KeepsTables p (takeStopped p k seq bay) := by
  unfold takeStopped
  split
  · exact .refl p
  · split
    · exact keeps_notFitting p k
    · split
      · exact .refl p
      · split
        · exact .settleClaim (.updYard (.of_census (census_stoppedEffect _ _ _ _)))
        · exact keeps_notFitting p k

theorem keeps_takeHomed (p : Plant) (k seq bay : Nat) : Plant.KeepsTables p (takeHomed p k seq bay) := by
  unfold takeHomed
  split
  · exact .refl p
  · split
    · exact keeps_notFitting p k
    · split
      · exact .refl p
      · split
        · exact .settleClaim (.updYard (.of_census (census_homedEffect _ _ _)))
        · exact keeps_notFitting p k

theorem keeps_takeFault (p : Plant) (k code bay : Nat) : Plant.KeepsTables p (takeFault p k code bay) := by
  unfold takeFault
  split
  · exact .refl p
  · split
    · exact keeps_notFitting p k
    · exact .settleFault p k (.updYard (follows_faultReport _ _ _ _ _))

theorem keeps_takeCraneBytes (p : Plant) (k : Nat) (bytes : List Byte) : Plant.KeepsTables p (takeCraneBytes p k bytes) := by
  unfold takeCraneBytes
  split
  · exact .refl p
  · split
    · exact .refl p
    · exact keeps_takeArrived _ _ _
    · exact keeps_takeLifted _ _ _ _
    · exact keeps_takeLowered _ _ _
    · exact keeps_takeStopped _ _ _ _
    · exact keeps_takeHomed _ _ _ _
    · exact keeps_takeFault _ _ _ _
    · split
      · split
        · exact keeps_notFitting p k
        · exact .refl p
      · exact keeps_notFitting p k

theorem keeps_craneExpires (p : Plant) (k : Nat) : Plant.KeepsTables p (craneExpires p k) := by
  have h : Plant.KeepsTables p (p.updYard (fun y => timerExpiry p.site y k)) := .updYard (follows_timerExpiry _ _ _)
  unfold craneExpires
  dsimp only
  split
  · exact h.settleClaim
  · exact h.settleFault p k

/-! ## Works clock, plant stop, settings (R192, R199, R201, R214, R215) -/

theorem keeps_takeEvent (p : Plant) (e : TimerEvent) : Plant.KeepsTables p (takeEvent p e) := by
  cases e with
  | heat b =>
    unfold takeEvent
    dsimp only
    split
    · exact .of_tables (tables_heatTick p b)
    · exact .refl p
  | intake b =>
    unfold takeEvent
    dsimp only
    split
    · exact .of_tables (tables_intakeTick p b)
    · exact .refl p
  | crane k =>
    show Plant.KeepsTables p (timerTick p k)
    rcases timerTick_cases p k with ⟨h, -⟩ | ⟨h, -⟩ | ⟨h, -⟩ <;> rw [h]
    · exact .refl p
    · exact keeps_craneExpires p k
    · exact .of_tables rfl

theorem keeps_takeDue (s : State) : Plant.KeepsTables s.plant (takeDue s).plant := by
  rcases takeDue_cases s with ⟨-, h⟩ | ⟨e, -, h⟩ <;> rw [h]
  · exact .refl _
  · exact keeps_takeEvent _ e

theorem keeps_takeDues (n : Nat) (s : State) : Plant.KeepsTables s.plant (takeDues n s).plant := by
  induction n generalizing s with
  | zero => exact .refl _
  | succ n ih => exact (keeps_takeDue s).trans (ih (takeDue s))

theorem tables_advance (p : Plant) : (advance p).tables = p.tables := by
  unfold advance
  refine (tables_updYard _ _ (census_forEach _ (fun _ _ => census_updCrane _ _ _) _ _)).trans ?_
  exact tables_forEach bedMinuteDue tables_bedMinuteDue _ _

theorem keeps_advanceClock (s : State) : Plant.KeepsTables s.plant (advanceClock s).plant := by
  unfold advanceClock
  split
  · exact .refl _
  · exact (keeps_takeDues _ s).trans (.of_tables (tables_advance _))

@[simp] theorem tables_setStop (stop : Bool) (p : Plant) : (setStop stop p).tables = p.tables := rfl

@[simp] theorem tables_cureStop (p : Plant) : (cureStop p).tables = p.tables := by
  unfold cureStop
  refine tables_forEach _ (fun q b => ?_) _ _
  exact tables_sendIfChanged _ _

@[simp] theorem tables_cureRelease (p : Plant) : (cureRelease p).tables = p.tables := by
  unfold cureRelease
  refine tables_forEach _ (fun q b => ?_) _ _
  exact tables_sendIfChanged _ _

theorem keeps_assertStop (p : Plant) : Plant.KeepsTables p (assertStop p) := by
  unfold assertStop
  split
  · exact .refl p
  · split
    · exact .of_tables (tables_setStop _ _)
    · have hc : (cureStop (setStop true p)).tables = p.tables := by rw [tables_cureStop, tables_setStop]
      dsimp only
      exact .settle _ ((Plant.KeepsTables.of_tables hc).trans (.updYard (.of_census (census_cranesStop _ _))))

theorem keeps_releaseStop (queueFirst : Bool) (p : Plant) : Plant.KeepsTables p (releaseStop queueFirst p) := by
  have hr : ∀ q, Plant.KeepsTables q (releaseCranes q) := fun q =>
    .settle q (.updYard (.of_census (census_cranesResume _ _)))
  unfold releaseStop
  split
  · exact .refl p
  · split
    · exact .of_tables (tables_setStop _ _)
    · have hc : Plant.KeepsTables p (cureRelease (setStop false p)) :=
        .of_tables (by rw [tables_cureRelease, tables_setStop])
      dsimp only
      split
      · exact (hc.settle _).trans (hr _)
      · exact hc.trans (hr _)

theorem keeps_writeSettings (st : Settings) (p : Plant) : Plant.KeepsTables p (writeSettings st p) :=
  .settle p (.of_tables rfl)

theorem keeps_resetSettings (p : Plant) : Plant.KeepsTables p (resetSettings p) := by
  unfold resetSettings
  split
  · exact .refl p
  · exact keeps_writeSettings _ p

end Sys2Proof.Machine
end

