-- ==== Sys2Proof/Proofs/CommandSteps.lean ====
section
/-! PROOF. Each command of the Command Port, and so each row of the table, keeps the invariants of the move queue, the piece
table and the generations. -/

namespace Sys2Proof.Machine

/-! ## Refusals -/

section
variable {s : Plant} {c : Prop} [Decidable c] {code : Code} {r : Reply × Plant}

/-- A check that refuses changes nothing. -/
theorem keeps_guard (h : ¬c → Plant.KeepsTables s r.2) : Plant.KeepsTables s (if c then refuse code s else r).2 := by
  split
  · exact .refl s
  · exact h ‹_›

/-- A check that refuses on its second branch changes nothing. -/
theorem keeps_unless (h : c → Plant.KeepsTables s r.2) : Plant.KeepsTables s (if c then r else refuse code s).2 := by
  split
  · exact h ‹_›
  · exact .refl s

/-- A check whose refusal carries fields changes nothing. -/
theorem keeps_guardWith {fields : List Byte} (h : ¬c → Plant.KeepsTables s r.2) :
    Plant.KeepsTables s (if c then refuseWith code fields s else r).2 := by
  split
  · exact .refl s
  · exact h ‹_›

/-- An acceptance keeps what its change keeps. -/
theorem keeps_accept {p : Plant} {fields : List Byte} (h : Plant.KeepsTables s p) :
    Plant.KeepsTables s (accept fields p).2 := h

/-- A negated check that did not refuse. -/
theorem check_passed {b : Bool} (h : ¬(!b) = true) : b = true := by simpa using h

end

/-! ## Pieces and classes (R14 to R20) -/

/-- R14: a class entry with no live record is written, and no record is of it. -/
theorem keeps_xDefineClass (c choice length weight threshold tier : Nat) (s : Plant) :
    Plant.KeepsTables s (xDefineClass c choice length weight threshold tier s).2 := by
  unfold xDefineClass
  refine keeps_guard fun hc => keeps_guard fun _ => keeps_guard fun _ => keeps_guard fun hlive => keeps_accept ?_
  have hc' : c < 32 := Nat.not_le.mp hc
  generalize hf : (fun _ : ClassEntry =>
    if choice = 1 then (⟨true, length, weight, threshold, tier, 0⟩ : ClassEntry) else .undefined) = f
  have hcls : ∀ i, (s.updClass c f).cls i = if c = i then f (s.cls i) else s.cls i := fun i => getOr_upd _ _ _ _ _ hc'
  have hzeroCount : ∀ e, (f e).liveCount = 0 := fun e => by rw [← hf]; dsimp only; split <;> rfl
  have hundef : ∀ e, (f e).defined = false →
      (f e).length = 0 ∧ (f e).weight = 0 ∧ (f e).threshold = 0 ∧ (f e).tier = 0 := fun e => by
    rw [← hf]
    dsimp only
    split
    · intro h; cases h
    · exact fun _ => ⟨rfl, rfl, rfl, rfl⟩
  refine ⟨id, fun ⟨hmap, hnd, hdef, hcount, hzero⟩ => ⟨hmap, hnd, fun i r hr => ?_, fun i hlt => ?_, fun i hlt => ?_⟩, id⟩
  · have hne : c ≠ r.cls := fun heq => by
      have hpos : 0 < s.yard.classCount r.cls := classCount_pos (y := s.yard) hr
      have h0 := hcount c hc'
      rw [heq] at h0 hlive
      omega
    show _ ∧ ((s.updClass c f).cls r.cls).defined = true
    rw [hcls, if_neg hne]
    exact hdef i r hr
  · show ((s.updClass c f).cls i).liveCount = s.yard.classCount i
    rw [hcls]
    split
    · rename_i heq
      subst heq
      have := hcount c hc'
      rw [hzeroCount]
      omega
    · exact hcount i hlt
  · show ((s.updClass c f).cls i).defined = false → ((s.updClass c f).cls i).length = 0
      ∧ ((s.updClass c f).cls i).weight = 0 ∧ ((s.updClass c f).cls i).threshold = 0 ∧ ((s.updClass c f).cls i).tier = 0
    rw [hcls]
    split
    · exact hundef _
    · exact hzero i hlt

theorem keeps_xHold (h : Handle) (value : Nat) (s : Plant) : Plant.KeepsTables s (xHold h value s).2 := by
  unfold xHold
  refine keeps_guard fun _ => ?_
  split
  · exact .refl s
  · refine keeps_guard fun _ => keeps_guard fun _ => keeps_guard fun _ => .settle s (.updYard ?_)
    split
    · exact follows_addHold _ _ _ _ _
    · exact follows_addHold _ _ _ _ _

theorem keeps_xReleaseHold (h : Handle) (value : Nat) (s : Plant) : Plant.KeepsTables s (xReleaseHold h value s).2 := by
  unfold xReleaseHold
  refine keeps_guard fun _ => ?_
  split
  · exact .refl s
  · split
    · exact .refl s
    · refine keeps_accept (.updYard (.of_census ?_))
      exact census_updPiece _ _ _ fun _ => rfl

theorem keeps_xScrapPiece (h : Handle) (s : Plant) : Plant.KeepsTables s (xScrapPiece h s).2 := by
  unfold xScrapPiece
  refine keeps_guard fun _ => ?_
  split
  · exact .refl s
  · rename_i p _
    have hfrom : ∀ e y, (scrapFrom e y h p.location).census = y.census := fun e y => by cases p.location <;> rfl
    exact keeps_guard fun _ => keeps_guard fun _ => keeps_guard fun _ =>
      .settle s (Plant.KeepsTables.trans (.updYard (.of_census (hfrom _ _))) (keeps_retire _ h))

/-! ## Beds (R28 to R43, R49 to R63) -/

/-- R32, R197: records allocated for bed positions, with marks that are not in the map and not twice in the list, and with
defined classes. -/
theorem keeps_fillPositions (bed maturity minute : Nat) : ∀ (rows : List (Nat × MarkWord × Holds)) (s : Plant),
    (∀ e ∈ rows, ∀ i, (e.2.1.number, i) ∉ s.markMap) → (rows.map (fun e => e.2.1.number)).Nodup →
    (∀ e ∈ rows, definedClass s e.2.1.cls = true) →
    Plant.KeepsTables s (forEach rows (fillPosition bed maturity minute) s)
  | [], s, _, _, _ => .refl s
  | e :: rows, s, hm, hn, hk => by
    rw [List.map_cons, List.nodup_cons] at hn
    have defined : ∀ t : Plant, ∀ c, definedClass t c = true ↔ c < 32 ∧ (t.cls c).defined = true := fun t c => by
      simp [definedClass]
    have hke := (defined s _).1 (hk e List.mem_cons_self)
    have hfill : Plant.KeepsTables s (fillPosition bed maturity minute s e) :=
      (keeps_allocate s (bedPiece bed e.1 e.2.1 e.2.2 maturity minute) (hm e List.mem_cons_self) hke).trans
        (.of_tables (tables_updBed _ _ _))
    refine hfill.trans (keeps_fillPositions bed maturity minute rows _ (fun f hf i hmem => ?_) hn.2 fun f hf => ?_)
    · rcases allocate_marks s _ _ _ hmem with heq | hold
      · exact hn.1 (List.mem_map.2 ⟨f, hf, heq⟩)
      · exact hm f (List.mem_cons_of_mem _ hf) i hold
    · obtain ⟨hlt, hd⟩ := (defined s _).1 (hk f (List.mem_cons_of_mem _ hf))
      exact (defined _ _).2 ⟨hlt, (allocate_defined s (bedPiece bed e.1 e.2.1 e.2.2 maturity minute) _ hke.1).trans hd⟩

theorem keeps_xCast (bed : Nat) (entries : List MarkWord) (s : Plant) : Plant.KeepsTables s (xCast bed entries s).2 := by
  unfold xCast
  refine keeps_guard fun _ => keeps_guard fun _ => keeps_guard fun _ => keeps_guard fun _ => keeps_guard fun _ =>
    keeps_guard fun hdef => keeps_guard fun _ => keeps_guard fun hfresh => ?_
  obtain ⟨hnone, hnd⟩ : (∀ m ∈ entries, (markSlot s.markMap m.number).isNone = true)
      ∧ (entries.map (fun m => m.number)).Nodup := by simpa [freshMarks] using check_passed hfresh
  have hdef := List.all_eq_true.1 (check_passed hdef)
  have hrow : ∀ e ∈ entries.zipIdx.map (fun e => (e.2, e.1, Holds.none)), e.2.1 ∈ entries := fun e he => by
    obtain ⟨x, hx, rfl⟩ := List.mem_map.1 he
    exact List.fst_mem_of_mem_zipIdx hx
  have hmarks : (entries.zipIdx.map (fun e => (e.2, e.1, Holds.none))).map (fun e => e.2.1.number)
      = entries.map (fun m => m.number) := by
    rw [List.map_map]
    conv_rhs => rw [← List.zipIdx_map_fst 0 entries, List.map_map]
    rfl
  have hfill := keeps_fillPositions bed 0 s.works.clock _ (s.updBed bed (fun b => { b with maturity := 0 }))
    (fun e he => (markSlot_eq_none _ _).1 (by simpa using hnone _ (hrow e he)))
    (by rw [hmarks]; exact hnd) (fun e he => hdef _ (hrow e he))
  exact keeps_accept <| ((Plant.KeepsTables.of_tables (tables_updBed _ _ _)).trans hfill).trans
    (.of_tables (by rw [tables_sendIfChanged, tables_setBedState]))

theorem keeps_scrapPosition (bed : Nat) (s : Plant) (i : Nat) : Plant.KeepsTables s (scrapPosition bed s i) := by
  unfold scrapPosition
  split
  · exact (Plant.KeepsTables.of_tables (tables_updBed _ _ _)).trans (keeps_retire _ _)
  · exact .refl s

theorem keeps_xScrapBed (bed : Nat) (s : Plant) : Plant.KeepsTables s (xScrapBed bed s).2 := by
  unfold xScrapBed
  refine keeps_guard fun _ => keeps_guard fun _ => keeps_guard fun _ => ?_
  split
  · exact .refl s
  · exact keeps_accept <| (Plant.KeepsTables.forEach _ (keeps_scrapPosition bed) _ s).trans
      (.of_tables (by rw [tables_forceOff, tables_updHeat, tables_setBedState]))

theorem keeps_xReleaseStrand (bed : Nat) (s : Plant) : Plant.KeepsTables s (xReleaseStrand bed s).2 := by
  unfold xReleaseStrand
  refine keeps_guard fun _ => keeps_guard fun _ => keeps_guard fun _ => keeps_guard fun _ => keeps_guard fun _ => ?_
  split
  · exact .refl s
  · split
    · exact .refl s
    · exact .settle s (.of_tables (by rw [tables_sendIfChanged, tables_updHeat, tables_setBedState]))

theorem keeps_xHeatMode (bed mode : Nat) (s : Plant) : Plant.KeepsTables s (xHeatMode bed mode s).2 := by
  unfold xHeatMode
  refine keeps_guard fun _ => keeps_guard fun _ => ?_
  split
  · exact .refl s
  · exact keeps_guard fun _ => keeps_guard fun _ => keeps_guard fun _ => keeps_guard fun _ =>
      .of_tables (by dsimp only [accept]; rw [tables_sendIfChanged, tables_updHeat])

/-! ## Tickets and orders (R117 to R120, R133, R149, R176 to R187) -/

/-- R117, R119, R126: an accepted move makes its ticket in a free slot. -/
theorem follows_acceptMove (e : Site) (y : Yard) (slot : Nat) (p : Handle) (loc : Location) (d : Dest) (level : Nat)
    (after dig : Bool) (hfree : y.freeTicketSlot = some slot) :
    Yard.Follows y (acceptMove e y slot p loc d level after dig) :=
  ((follows_makeTicket _ _ _ _ _ hfree rfl).trans (follows_digRound _ _ _)).then_census (census_refreshTicket _ _ _)

theorem keeps_xMove (h : Handle) (kind object level after dig : Nat) (s : Plant) :
    Plant.KeepsTables s (xMove h kind object level after dig s).2 := by
  unfold xMove
  refine keeps_guard fun _ => ?_
  split
  · exact .refl s
  · refine keeps_guard fun _ => ?_
    split
    · exact .refl s
    · rename_i slot hfree
      split
      · exact .refl s
      · refine keeps_guard fun _ => keeps_guard fun _ => keeps_guard fun _ => ?_
        split
        · exact .refl s
        · exact keeps_guard fun _ => .settle s (.updYard (follows_acceptMove _ _ _ _ _ _ _ _ _ hfree))

/-- R120: the tickets of STRIP BED are made one after another in free slots. -/
theorem follows_stripPositions (e : Site) (level : Nat) (after : Bool) : ∀ (list : List (Handle × Location)) (y y1 : Yard),
    stripPositions e level after list y = some y1 → Yard.Follows y y1
  | [], y, y1, h => by
    obtain rfl := Option.some.inj h
    exact .refl y
  | (p, loc) :: rest, y, y1, h => by
    unfold stripPositions at h
    split at h
    · rename_i d slot _ hfree
      exact (follows_acceptMove _ _ _ _ _ _ _ _ _ hfree).trans (follows_stripPositions e level after rest _ y1 h)
    · cases h

theorem keeps_xStripBed (bed level after : Nat) (s : Plant) : Plant.KeepsTables s (xStripBed bed level after s).2 := by
  unfold xStripBed
  refine keeps_guard fun _ => keeps_guard fun _ => keeps_guard fun _ => keeps_guard fun _ => keeps_guard fun _ => ?_
  refine keeps_guard fun _ => keeps_guard fun _ => ?_
  split
  · exact .refl s
  · rename_i y1 hy1
    exact .settle s (.updYard (follows_stripPositions _ _ _ _ _ _ hy1))

theorem keeps_xCancelMove (h : Handle) (s : Plant) : Plant.KeepsTables s (xCancelMove h s).2 := by
  unfold xCancelMove
  refine keeps_guard fun _ => ?_
  split
  · exact .refl s
  · exact keeps_guard fun _ => keeps_guard fun _ => keeps_guard fun _ => .settle s (keeps_cancelTicket s _ _)

theorem keeps_xParkCrane (crane bay level : Nat) (s : Plant) : Plant.KeepsTables s (xParkCrane crane bay level s).2 := by
  unfold xParkCrane
  refine keeps_guard fun _ => keeps_guard fun _ => keeps_guard fun _ => keeps_guard fun _ => ?_
  split
  · exact .refl s
  · rename_i slot hfree
    refine .settle s (.updYard ?_)
    exact (follows_placeTicket s.yard slot (.fresh .park none none (some (.bay bay)) level) hfree rfl).then_census
      (census_refreshTicket _ _ _)

/-- R12: the order field of each piece of a list written. -/
theorem census_listPieces (y : Yard) (hs : List Handle) (k : Option Nat) : (listPieces y hs k).census = y.census := by
  unfold listPieces
  refine census_forEach _ (fun y h => ?_) _ _
  exact census_updPiece _ _ _ fun _ => rfl

/-- R177, R178: pieces listed on a truck bay, and the pick creation that follows. -/
theorem follows_list (e : Site) (y : Yard) (k : Nat) (f : TruckRecord → TruckRecord) (hs : List Handle) :
    Yard.Follows y (createPick e (listPieces (y.updTruck k f) hs (some k)) k) :=
  (Yard.Follows.of_census ((census_listPieces _ _ _).trans (census_updTruck _ _ _))).trans (follows_createPick _ _ _)

theorem keeps_xOpenOrder (truck level dig : Nat) (pieces : List Handle) (s : Plant) :
    Plant.KeepsTables s (xOpenOrder truck level dig pieces s).2 := by
  unfold xOpenOrder
  refine keeps_guard fun _ => keeps_guard fun _ => keeps_guard fun _ => ?_
  split
  · exact .refl s
  · exact .settle s (.updYard (follows_list _ _ _ _ _))

theorem keeps_xAddToOrder (truck : Nat) (pieces : List Handle) (s : Plant) :
    Plant.KeepsTables s (xAddToOrder truck pieces s).2 := by
  unfold xAddToOrder
  refine keeps_guard fun _ => keeps_guard fun _ => keeps_guard fun _ => keeps_guard fun _ => ?_
  split
  · exact .refl s
  · exact .settle s (.updYard (follows_list _ _ _ _ _))

theorem keeps_xCancelOrder (truck : Nat) (s : Plant) : Plant.KeepsTables s (xCancelOrder truck s).2 := by
  unfold xCancelOrder
  refine keeps_guard fun _ => keeps_guard fun _ => keeps_guard fun _ => keeps_guard fun _ => .settle s (.updYard ?_)
  exact ((Yard.Follows.of_census (census_listPieces _ _ _)).trans (follows_dropCurrentPick _ _ _)).then_census
    (census_updTruck _ _ _)

theorem keeps_xShipOrder (truck : Nat) (s : Plant) : Plant.KeepsTables s (xShipOrder truck s).2 := by
  unfold xShipOrder
  refine keeps_guard fun _ => keeps_guard fun _ => keeps_guard fun _ => keeps_accept (.settle s ?_)
  exact (Plant.KeepsTables.forEach _ keeps_retire _ s).trans (.updYard (.of_census (census_updTruck _ _ _)))

/-! ## Works Control (R194, R196 to R198, R210) -/

/-- R194: the works opened. -/
theorem tables_openWorks (s : Plant) : (openWorks s).tables = s.tables := by
  have hbeds : ∀ p : Plant, (forEach (List.range 12) openBed p).tables = p.tables := fun p =>
    tables_forEach openBed tables_openBed _ p
  have hsend : ∀ p : Plant, (sendAllOrders p).tables = p.tables := fun p => tables_forEach sendOrder tables_sendOrder _ p
  unfold openWorks
  rw [hsend, hbeds]
  rfl

theorem keeps_xSense (s : Plant) : Plant.KeepsTables s (xSense s).2 := by
  unfold xSense
  split
  · exact .settle s (keeps_freeTicket s _)
  · split
    · exact .of_tables rfl
    · split
      · exact .of_tables rfl
      · split
        · exact .of_tables rfl
        · exact .refl s

/-- R196, check 12: the marks of the occupied entries stand once among them and not in the map. -/
theorem duplicateEntry_none {s : Plant} {entries : List MarkWord} (h : duplicateEntry s entries = none) :
    (∀ m ∈ entries, occupied m = true → markSlot s.markMap m.number = none)
      ∧ ((entries.filter occupied).map (fun m => m.number)).Nodup := by
  simp only [duplicateEntry, failingEntry, List.findIdx?_eq_none_iff, Bool.and_eq_false_imp, Bool.not_eq_false',
    Bool.and_eq_true, decide_eq_true_eq, Option.isNone_iff_eq_none] at h
  refine ⟨fun m hm ho => (h m hm ho).1, List.nodup_iff_count_le_one.2 fun a => ?_⟩
  by_cases ha : a ∈ (entries.filter occupied).map (fun m => m.number)
  · obtain ⟨m, hm, rfl⟩ := List.mem_map.1 ha
    obtain ⟨hmem, ho⟩ := List.mem_filter.1 hm
    exact (h m hmem ho).2.le
  · rw [List.count_eq_zero_of_not_mem ha]
    exact Nat.zero_le 1

theorem keeps_restoreBed (st : BedState) (bed maturity segment minutes : Nat) (holds : List Nat)
    (entries : List MarkWord) (s : Plant)
    (hk : failingEntry entries (fun m => markWithClass m && definedClass s m.cls) = none)
    (hd : duplicateEntry s entries = none) :
    Plant.KeepsTables s (restoreBed st bed maturity segment minutes holds entries s) := by
  obtain ⟨hnone, hnd⟩ := duplicateEntry_none hd
  simp only [failingEntry, List.findIdx?_eq_none_iff, Bool.and_eq_false_imp, Bool.not_eq_false', Bool.and_eq_true] at hk
  generalize hrows : (entries.zipIdx.filter (fun e => occupied e.1)).map
    (fun e => (e.2, e.1, holdsOf (holds.getD e.2 0))) = rows
  have hrow : ∀ e ∈ rows, e.2.1 ∈ entries ∧ occupied e.2.1 = true := fun e he => by
    rw [← hrows] at he
    obtain ⟨x, hx, rfl⟩ := List.mem_map.1 he
    obtain ⟨hmem, ho⟩ := List.mem_filter.1 hx
    exact ⟨List.fst_mem_of_mem_zipIdx hmem, ho⟩
  have hmarks : rows.map (fun e => e.2.1.number) = (entries.filter occupied).map (fun m => m.number) := by
    have hf : (entries.zipIdx.filter (fun e => occupied e.1)).map Prod.fst = entries.filter occupied := by
      conv_rhs => rw [← List.zipIdx_map_fst 0 entries]
      rw [List.filter_map]
      rfl
    rw [← hrows, ← hf, List.map_map, List.map_map]
    rfl
  have hfill := keeps_fillPositions bed maturity 0 rows
    (s.updBed bed (fun b => { b with state := st, maturity := maturity }))
    (fun e he => (markSlot_eq_none _ _).1 (hnone _ (hrow e he).1 (hrow e he).2))
    (by rw [hmarks]; exact hnd) (fun e he => (hk _ (hrow e he).1 (hrow e he).2).2)
  have hall := (Plant.KeepsTables.of_tables (tables_updBed s bed _)).trans hfill
  unfold restoreBed
  dsimp only
  rw [hrows]
  split
  · exact hall.trans (.of_tables (tables_updHeat _ _ _))
  · exact hall

theorem keeps_xRestoreBed (state bed maturity segment minutes : Nat) (holds : List Nat) (entries : List MarkWord)
    (s : Plant) : Plant.KeepsTables s (xRestoreBed state bed maturity segment minutes holds entries s).2 := by
  unfold xRestoreBed
  refine keeps_guard fun _ => keeps_guard fun _ => ?_
  split
  · exact .refl s
  · refine keeps_guard fun _ => keeps_guardWith fun _ => ?_
    split
    · exact .refl s
    · rename_i hk
      refine keeps_guard fun _ => keeps_guard fun _ => keeps_guard fun _ => ?_
      split
      · exact .refl s
      · refine keeps_guard fun _ => ?_
        split
        · exact .refl s
        · rename_i hd
          exact keeps_restoreBed _ _ _ _ _ _ _ _ hk hd

theorem keeps_xRestorePiece (m : MarkWord) (maturity holds kind object : Nat) (s : Plant) :
    Plant.KeepsTables s (xRestorePiece m maturity holds kind object s).2 := by
  unfold xRestorePiece
  refine keeps_guard fun _ => ?_
  split
  · exact .refl s
  · rename_i d _
    refine keeps_guard fun hok => ?_
    split
    · exact .refl s
    · refine keeps_guard fun _ => keeps_guard fun _ => keeps_guard fun hmark => ?_
      dsimp only
      generalize hp : restoredPiece m maturity holds (restoredAt s.yard d).1 = p
      have hmk : p.mark = m.number := by rw [← hp]; rfl
      have hpc : p.cls = m.cls := by rw [← hp]; rfl
      have hdef : m.cls < 32 ∧ (s.cls m.cls).defined = true := by
        simpa [definedClass] using check_passed fun h => hok (Or.inr (Or.inr h))
      have hnew : markSlot s.markMap m.number = none := by simpa using hmark
      have halloc : Plant.KeepsTables s (allocate s p).2 := keeps_allocate s p
        (by rw [hmk]; exact (markSlot_eq_none _ _).1 hnew) (by rw [hpc]; exact hdef)
      split
      · rename_i h s1 heq
        have hs1 : (allocate s p).2 = s1 := by rw [heq]
        rw [hs1] at halloc
        refine keeps_accept (halloc.trans (.updYard (.of_census ?_)))
        cases d <;> rfl
      · exact .refl s

/-! ## Commands that read, and commands that write one record after their checks -/

theorem keeps_xLookupMark (m : MarkWord) (s : Plant) : Plant.KeepsTables s (xLookupMark m s).2 := by
  unfold xLookupMark
  refine keeps_guard fun _ => ?_
  split <;> exact .refl s

theorem keeps_xReadPiece (h : Handle) (s : Plant) : Plant.KeepsTables s (xReadPiece h s).2 := by
  unfold xReadPiece
  split <;> exact .refl s

theorem keeps_xReadMove (h : Handle) (s : Plant) : Plant.KeepsTables s (xReadMove h s).2 := by
  unfold xReadMove
  split <;> exact .refl s

theorem keeps_xConfigureBed (bed bay positions setpoint : Nat) (s : Plant) :
    Plant.KeepsTables s (xConfigureBed bed bay positions setpoint s).2 := by
  unfold xConfigureBed
  exact keeps_guard fun _ => keeps_guard fun _ => keeps_guard fun _ => keeps_guard fun _ => keeps_guard fun _ =>
    keeps_accept (.of_tables (tables_updBed _ _ _))

theorem keeps_xPrepareBed (bed : Nat) (s : Plant) : Plant.KeepsTables s (xPrepareBed bed s).2 := by
  unfold xPrepareBed
  exact keeps_guard fun _ => keeps_guard fun _ => keeps_guard fun _ => keeps_guard fun _ =>
    keeps_accept (.of_tables (by rw [tables_sendIfChanged, tables_setBedState]))

theorem keeps_xAbandonBed (bed : Nat) (s : Plant) : Plant.KeepsTables s (xAbandonBed bed s).2 := by
  unfold xAbandonBed
  exact keeps_guard fun _ => keeps_guard fun _ => keeps_guard fun _ =>
    keeps_accept (.of_tables (by rw [tables_forceOff, tables_setBedState]))

theorem keeps_xStartCure (bed : Nat) (s : Plant) : Plant.KeepsTables s (xStartCure bed s).2 := by
  unfold xStartCure
  exact keeps_guard fun _ => keeps_guard fun _ => keeps_guard fun _ => keeps_guard fun _ =>
    keeps_accept (.of_tables (by rw [tables_sendIfChanged, tables_updHeat, tables_setBedState]))

theorem keeps_xBedPriority (bed level : Nat) (s : Plant) : Plant.KeepsTables s (xBedPriority bed level s).2 := by
  unfold xBedPriority
  exact keeps_guard fun _ => keeps_guard fun _ => keeps_guard fun _ =>
    keeps_accept (.settle s (.of_tables (tables_updBed _ _ _)))

theorem keeps_xLoadPlan (bed : Nat) (plan : List Segment) (s : Plant) : Plant.KeepsTables s (xLoadPlan bed plan s).2 := by
  unfold xLoadPlan
  exact keeps_guard fun _ => keeps_guard fun _ => keeps_guard fun _ => keeps_guard fun _ =>
    keeps_accept (.of_tables (tables_updHeat _ _ _))

theorem keeps_xSwapPlan (bed : Nat) (s : Plant) : Plant.KeepsTables s (xSwapPlan bed s).2 := by
  unfold xSwapPlan
  exact keeps_guard fun _ => keeps_guard fun _ => keeps_guard fun _ =>
    keeps_accept (.of_tables (by rw [tables_sendIfChanged, tables_updHeat]))

theorem keeps_xStopCure (bed : Nat) (s : Plant) : Plant.KeepsTables s (xStopCure bed s).2 := by
  unfold xStopCure
  exact keeps_guard fun _ => keeps_guard fun _ => keeps_guard fun _ =>
    keeps_accept (.of_tables (by rw [tables_forceOff, tables_updHeat]))

theorem keeps_xDefineStack (stack choice bay tiers load : Nat) (s : Plant) :
    Plant.KeepsTables s (xDefineStack stack choice bay tiers load s).2 := by
  unfold xDefineStack
  exact keeps_guard fun _ => keeps_guard fun _ => keeps_guard fun _ => keeps_guard fun _ =>
    keeps_accept (.settle s (.updYard (.of_census (census_updStack _ _ _))))

theorem keeps_xDefineLane (lane choice bay : Nat) (s : Plant) :
    Plant.KeepsTables s (xDefineLane lane choice bay s).2 := by
  unfold xDefineLane
  exact keeps_guard fun _ => keeps_guard fun _ => keeps_guard fun _ => keeps_guard fun _ =>
    keeps_accept (.settle s (.updYard (.of_census (census_updLane _ _ _))))

theorem keeps_xDrainLane (lane value : Nat) (s : Plant) : Plant.KeepsTables s (xDrainLane lane value s).2 := by
  unfold xDrainLane
  exact keeps_guard fun _ => keeps_guard fun _ => keeps_guard fun _ => keeps_guard fun _ =>
    keeps_accept (.settle s (.updYard (.of_census (census_updLane _ _ _))))

theorem keeps_xDefineTruckBay (truck choice bay : Nat) (s : Plant) :
    Plant.KeepsTables s (xDefineTruckBay truck choice bay s).2 := by
  unfold xDefineTruckBay
  exact keeps_guard fun _ => keeps_guard fun _ => keeps_guard fun _ => keeps_guard fun _ =>
    keeps_accept (.updYard (.of_census (census_updTruck _ _ _)))

theorem keeps_xConfigureCrane (crane bay : Nat) (s : Plant) : Plant.KeepsTables s (xConfigureCrane crane bay s).2 := by
  unfold xConfigureCrane
  exact keeps_guard fun _ => keeps_guard fun _ => keeps_guard fun _ => keeps_guard fun _ =>
    keeps_accept (.updYard (.of_census (census_updCrane _ _ _)))

@[simp] theorem census_startHoming (e : Site) (y : Yard) (k : Nat) : (startHoming e y k).census = y.census := by
  unfold startHoming
  rw [census_sendStage, census_setClaim, census_updCrane]

theorem keeps_xHomeCrane (crane : Nat) (s : Plant) : Plant.KeepsTables s (xHomeCrane crane s).2 := by
  unfold xHomeCrane
  exact keeps_guard fun _ => keeps_guard fun _ => keeps_guard fun _ => keeps_guard fun _ =>
    keeps_accept (.settle s (.updYard (.of_census (census_startHoming _ _ _))))

theorem keeps_xClearCrane (crane : Nat) (s : Plant) : Plant.KeepsTables s (xClearCrane crane s).2 := by
  unfold xClearCrane
  exact keeps_guard fun _ => keeps_guard fun _ => keeps_guard fun _ =>
    keeps_accept (.settleClaim (.updYard (.of_census rfl)))

theorem keeps_xOpenWorks (s : Plant) : Plant.KeepsTables s (xOpenWorks s).2 := by
  unfold xOpenWorks
  exact keeps_unless fun _ => keeps_accept (.of_tables (tables_openWorks s))

theorem keeps_xSettings (st : Settings) (s : Plant) : Plant.KeepsTables s (xSettings st s).2 := by
  unfold xSettings
  exact keeps_unless fun _ => keeps_accept (keeps_writeSettings st s)

theorem keeps_xLockSettings (value : Nat) (s : Plant) : Plant.KeepsTables s (xLockSettings value s).2 := by
  unfold xLockSettings
  exact keeps_unless fun _ => keeps_accept (.of_tables rfl)

theorem keeps_xOrderLevel (truck level : Nat) (s : Plant) : Plant.KeepsTables s (xOrderLevel truck level s).2 := by
  unfold xOrderLevel
  exact keeps_guard fun _ => keeps_guard fun _ => keeps_guard fun _ =>
    keeps_accept (.settle s (.updYard (.of_census (census_updTruck _ _ _))))

/-! ## The command that runs -/

theorem keeps_setStackState (st : StackState) (stack : Nat) (s : Plant) :
    Plant.KeepsTables s (setStackState st stack s).2 := by
  unfold setStackState
  exact keeps_guard fun _ => keeps_guard fun _ => keeps_guard fun _ => .settle s (.of_tables rfl)

/-- R206, R208: every command keeps the invariants of the tables. -/
theorem keeps_runCommand (c : Command) (s : Plant) : Plant.KeepsTables s (runCommand c s).2 := by
  cases c with
  | openWorks => exact keeps_xOpenWorks s
  | settings => exact keeps_xSettings _ s
  | lockSettings => exact keeps_xLockSettings _ s
  | sense => exact keeps_xSense s
  | restoreBed => exact keeps_xRestoreBed _ _ _ _ _ _ _ s
  | restorePiece => exact keeps_xRestorePiece _ _ _ _ _ s
  | defineClass => exact keeps_xDefineClass _ _ _ _ _ _ s
  | hold => exact keeps_xHold _ _ s
  | releaseHold => exact keeps_xReleaseHold _ _ s
  | scrapPiece => exact keeps_xScrapPiece _ s
  | cast => exact keeps_xCast _ _ s
  | releaseStrand => exact keeps_xReleaseStrand _ s
  | scrapBed => exact keeps_xScrapBed _ s
  | heatMode => exact keeps_xHeatMode _ _ s
  | move => exact keeps_xMove _ _ _ _ _ _ s
  | stripBed => exact keeps_xStripBed _ _ _ s
  | cancelMove => exact keeps_xCancelMove _ s
  | parkCrane => exact keeps_xParkCrane _ _ _ s
  | openOrder => exact keeps_xOpenOrder _ _ _ _ s
  | addToOrder => exact keeps_xAddToOrder _ _ s
  | cancelOrder => exact keeps_xCancelOrder _ s
  | shipOrder => exact keeps_xShipOrder _ s
  | closeStack => exact keeps_setStackState _ _ s
  | openStack => exact keeps_setStackState _ _ s
  -- the commands that read, and a FIND that is refused
  | readWorks | readSettings | find => exact .refl s
  | lookupMark => exact keeps_xLookupMark _ s
  | readPiece => exact keeps_xReadPiece _ s
  | readMove => exact keeps_xReadMove _ s
  | readClass | readBed | readPlan | readIntake | readStack | readLane | readCrane | readOrder =>
    exact keeps_guard fun _ => .refl s
  -- the commands that write one record after their checks
  | configureBed => exact keeps_xConfigureBed _ _ _ _ s
  | prepareBed => exact keeps_xPrepareBed _ s
  | abandonBed => exact keeps_xAbandonBed _ s
  | startCure => exact keeps_xStartCure _ s
  | bedPriority => exact keeps_xBedPriority _ _ s
  | loadPlan => exact keeps_xLoadPlan _ _ s
  | swapPlan => exact keeps_xSwapPlan _ s
  | stopCure => exact keeps_xStopCure _ s
  | defineStack => exact keeps_xDefineStack _ _ _ _ _ s
  | defineLane => exact keeps_xDefineLane _ _ _ s
  | drainLane => exact keeps_xDrainLane _ _ s
  | defineTruckBay => exact keeps_xDefineTruckBay _ _ _ s
  | configureCrane => exact keeps_xConfigureCrane _ _ s
  | homeCrane => exact keeps_xHomeCrane _ s
  | clearCrane => exact keeps_xClearCrane _ s
  | orderLevel => exact keeps_xOrderLevel _ _ s

end Sys2Proof.Machine
end

