-- ==== Sys2Proof/Proofs/Tables.lean ====
section
/-! PROOF. The Command Port, the rows of the table and the step: the invariants of the move queue, the piece table and the
generations hold at power-on and every step keeps them (R25, R137, R191). -/

namespace Sys2Proof.Machine

/-! ## The Command Port -/

/-- R206, R207: a start runs its command, or leaves the plant as it is. -/
theorem keeps_startEntry (s : State) (i : Nat) : Plant.KeepsTables s.plant (startEntry s i).plant := by
  unfold startEntry
  split
  · exact .refl _
  · split
    · exact .refl _
    · unfold startFind
      split <;> exact .refl _
    · exact keeps_runCommand _ _

theorem keeps_settlePort (n : Nat) (s : State) : Plant.KeepsTables s.plant (settlePort n s).plant := by
  induction n generalizing s with
  | zero => exact .refl _
  | succ n ih =>
    unfold settlePort
    dsimp only
    split
    · rename_i i _
      have hstart := keeps_startEntry { s with port := postAll 8 s.port } i
      exact hstart.trans (ih _)
    · exact .refl s.plant

/-- R206, R209: the port looks for postings and starts. -/
theorem keeps_runPort (s : State) (p : Port) : Plant.KeepsTables s.plant (State.runPort { s with port := p }).plant :=
  keeps_settlePort 9 { s with port := p }

theorem keeps_deliver (e : Entry) (s : State) : Plant.KeepsTables s.plant (deliver e s).plant := by
  unfold deliver
  split
  · exact .refl s.plant
  · exact keeps_runPort s _

theorem keeps_examineSlot (s : State) : Plant.KeepsTables s.plant (examineSlot s).plant := by
  unfold examineSlot
  split
  · exact .refl _
  · dsimp only
    split
    · unfold endScan
      exact keeps_runPort s _
    · exact .refl s.plant

theorem keeps_writeFrame (bytes : List Byte) (s : State) : Plant.KeepsTables s.plant (writeFrame bytes s).plant := by
  unfold writeFrame
  dsimp only
  split
  · exact keeps_deliver (entryOf bytes) (s.setOut (s.statusByte :: bytes.map (fun _ => 0)))
  · exact .refl s.plant

theorem keeps_readResult (clocked : Nat) (s : State) : Plant.KeepsTables s.plant (readResult clocked s).plant := by
  unfold readResult
  dsimp only
  split
  · split
    · exact keeps_runPort (s.setOut _) _
    · exact .refl s.plant
  · exact .refl s.plant

theorem keeps_bareTransfer (b : Byte) (s : State) : Plant.KeepsTables s.plant (bareTransfer b s).plant := by
  unfold bareTransfer
  split
  · exact keeps_writeFrame _ s
  · split
    · exact keeps_readResult 0 s
    · split <;> exact .refl s.plant

/-! ## Power-on (R25, R137, R191) -/

theorem getOr_replicate {α : Type} (n i : Nat) (d : α) : getOr (Vector.replicate n d) i d = d := by
  by_cases h : i < n
  · rw [getOr_lt _ _ _ h]
    simp
  · exact getOr_ge _ _ _ (Nat.not_lt.mp h)

theorem reset_pieceSlot (i : Nat) : Yard.reset.pieceSlot i = ⟨0, none⟩ := getOr_replicate _ _ _

theorem reset_ticketSlot (i : Nat) : Yard.reset.ticketSlot i = ⟨0, none⟩ := getOr_replicate _ _ _

theorem reset_pieceAt (i : Nat) : Yard.reset.pieceAt i = none := by unfold Yard.pieceAt; rw [reset_pieceSlot]

theorem reset_ticketAt (i : Nat) : Yard.reset.ticketAt i = none := by unfold Yard.ticketAt; rw [reset_ticketSlot]

theorem powerOn_cls (stop : Bool) (c : Nat) : (Plant.powerOn stop).cls c = .undefined := getOr_replicate _ _ _

theorem reset_queueOk : Yard.reset.queueOk :=
  ⟨List.nodup_nil, List.nodup_nil, fun i => by rw [reset_ticketAt]; simp [Yard.reset],
    fun i => by rw [reset_ticketAt]; simp [Yard.reset]⟩

theorem reset_genOk : Yard.reset.genOk :=
  ⟨fun i => by rw [reset_pieceSlot]; decide, by rw [reset_pieceSlot]; decide, fun i => by rw [reset_ticketSlot]; decide⟩

theorem powerOn_pieceOk (stop : Bool) : (Plant.powerOn stop).pieceOk := by
  have hcount : ∀ c, Yard.reset.classCount c = 0 := fun c => by
    unfold Yard.classCount
    rw [show Yard.reset.pieces = Vector.replicate 1024 ⟨0, none⟩ from rfl, Vector.toList_replicate, List.countP_replicate]
    exact if_neg (by simp)
  refine ⟨fun m i => ?_, List.nodup_nil, fun i r hr => ?_, fun c _ => ?_, fun c _ _ => ?_⟩
  · rw [show (Plant.powerOn stop).yard = Yard.reset from rfl, reset_pieceAt]
    simp [Plant.powerOn]
  · rw [show (Plant.powerOn stop).yard = Yard.reset from rfl, reset_pieceAt] at hr
    cases hr
  · rw [powerOn_cls, show (Plant.powerOn stop).yard = Yard.reset from rfl, hcount]
    rfl
  · rw [powerOn_cls]
    exact ⟨rfl, rfl, rfl, rfl⟩

theorem keeps_powerOn (p : Plant) (stop : Bool) : Plant.KeepsTables p (Plant.powerOn stop) :=
  ⟨fun _ => reset_queueOk, fun _ => powerOn_pieceOk stop, fun _ => reset_genOk⟩

/-! ## The rows -/

/-- A timer row takes the event of its record or does nothing. -/
theorem keeps_timerRow (s : State) (fires : Bool) {f : Plant → Plant} (h : Plant.KeepsTables s.plant (f s.plant)) :
    Plant.KeepsTables s.plant (s.timerRow fires f).plant := by
  rcases s.timerRow_cases fires f with ⟨heq, -⟩ | ⟨heq, -⟩ <;> rw [heq]
  · exact h
  · exact .refl _

/-- A transfer has no effect while the port reset line is held low (R214). -/
theorem keeps_unlessLow (low : Bool) {s t : State} (h : Plant.KeepsTables s.plant t.plant) :
    Plant.KeepsTables s.plant (if low then s else t).plant := by
  cases low
  · exact h
  · exact .refl _

/-- The plant after a row that answers a known state. -/
theorem keeps_next {s t t' : State} (h : Host.Outcome.next t' = (.next t : Host.Outcome State Fault Refusal))
    (k : Plant.KeepsTables s.plant t'.plant) : Plant.KeepsTables s.plant t.plant := by
  obtain rfl := Host.Outcome.next.inj h
  exact k

theorem keeps_command {i : Instr} {hd : Header} {c : Command} {s t : State} (hi : i.command? = some (hd, c))
    (h : exec i s = .next t) : Plant.KeepsTables s.plant t.plant := by
  rw [exec_command i hd c s hi] at h
  exact keeps_next h (keeps_deliver _ s)

/-- Every row of the table keeps the invariants of the tables. -/
theorem keeps_exec (i : Instr) (s t : State) (h : exec i s = .next t) : Plant.KeepsTables s.plant t.plant := by
  cases i with
  | powerOn stop => exact keeps_next h (keeps_powerOn s.plant stop)
  | portReset => exact keeps_next h (keeps_resetSettings s.plant)
  | plantStopAsserted => exact keeps_next h (keeps_assertStop s.plant)
  | plantStopReleased => exact keeps_next h (keeps_releaseStop _ s.plant)
  | worksClockAdvance => exact keeps_next h (keeps_advanceClock s)
  | transitionEnd b => exact keeps_next h (keeps_timerRow s _ (.of_tables (tables_heatTick _ _)))
  | segmentEnd b => exact keeps_next h (keeps_timerRow s _ (.of_tables (tables_heatTick _ _)))
  | gapExpiry b => exact keeps_next h (keeps_timerRow s _ (.of_tables (tables_intakeTick _ _)))
  | lostExpiry b => exact keeps_next h (keeps_timerRow s _ (.of_tables (tables_intakeTick _ _)))
  | stageTimeout k => exact keeps_next h (keeps_timerRow s _ (keeps_craneExpires _ _))
  | homingTimeout k => exact keeps_next h (keeps_timerRow s _ (keeps_craneExpires _ _))
  | sample b q x st => exact keeps_next h (.of_tables (tables_takeSample _ _ _ _ _))
  | bedLineMessageDropped b bs => exact keeps_next h (.of_tables (tables_takeBedBytes _ _ _))
  | heatOrderWrite b => exact keeps_next h (.of_tables (tables_updBedLine _ _ _))
  | craneOrderWrite k => exact keeps_next h (.of_tables (tables_updYard _ _ (census_updLink _ _ _)))
  | arrived k q => exact keeps_next h (keeps_takeArrived _ _ _)
  | lifted k q w => exact keeps_next h (keeps_takeLifted _ _ _ _)
  | lowered k q => exact keeps_next h (keeps_takeLowered _ _ _)
  | stopped k q bay => exact keeps_next h (keeps_takeStopped _ _ _ _)
  | homed k q bay => exact keeps_next h (keeps_takeHomed _ _ _ _)
  | fault k q c bay => exact keeps_next h (keeps_takeFault _ _ _ _)
  | craneMessageDropped k bs => exact keeps_next h (keeps_takeCraneBytes _ _ _)
  | writeFrame low bs => exact keeps_next h (keeps_unlessLow low (keeps_writeFrame bs s))
  | readResult low n => exact keeps_next h (keeps_unlessLow low (keeps_readResult n s))
  | readStatus low n => exact keeps_next h (keeps_unlessLow low (.refl _))
  | unknownTypeByte low b => exact keeps_next h (keeps_unlessLow low (keeps_bareTransfer b s))
  | invalidCommand hd c => exact keeps_next h (keeps_deliver _ s)
  | scanExamine => exact keeps_next h (keeps_examineSlot s)
  -- every other row is a command
  | _ => exact keeps_command rfl h

/-- Every step keeps the invariants of the tables. -/
theorem keeps_step (s t : State) (h : step s = .next t) : Plant.KeepsTables s.plant t.plant := by
  unfold step at h
  split at h
  · rename_i i rest _
    exact keeps_exec i { s with pending := rest } t h
  · refine keeps_next h ?_
    unfold idle
    split
    · exact .refl _
    · exact keeps_takeDue s

/-- Settles O60: each step is a change that keeps the invariants of the tables, by the operations it is made of. -/
theorem stepsKeepTheTables : Obligations.StepsKeepTheTables :=
  ⟨fun s t h => (keeps_step s t h).queue, fun s t h => (keeps_step s t h).pieces, fun s t h => (keeps_step s t h).gens⟩

end Sys2Proof.Machine
end

