-- ==== Sys2Proof/Proofs/PieceCommands.lean ====
section
/-! PROOF. The commands of the piece table that change a record or answer one: LOOKUP MARK (R7), DEFINE CLASS (R14), RELEASE
HOLD (R18) and SCRAP PIECE (R19, R20). -/

namespace Sys2Proof.Machine

/-! ## A command row that is refused or accepted -/

/-- At a ready port the row is refused where its block refuses. -/
theorem exec_refused {i : Instr} {hd : Header} {c : Command} {s : State} {code : Code} {fields : List Byte}
    (h : i.command? = some (hd, c)) (hs : s.ready) (hc : ∀ q, c ≠ .find q)
    (hr : runCommand c s.plant = refuseWith code fields s.plant) : exec i s = .next (s.refused hd c code fields) :=
  exec_of_run h hs hc hr

/-- At a ready port the row is accepted where its block accepts. -/
theorem exec_accepted {i : Instr} {hd : Header} {c : Command} {s : State} {fields : List Byte} {p : Plant}
    (h : i.command? = some (hd, c)) (hs : s.ready) (hc : ∀ q, c ≠ .find q)
    (hr : runCommand c s.plant = accept fields p) : exec i s = .next (s.accepted hd c fields p) :=
  exec_of_run h hs hc hr

/-- R2: a handle that is not stale names the live record of its slot, with the slot's generation. -/
theorem Yard.piece?_eq_some {y : Yard} {h : Handle} {p : Piece} :
    y.piece? h = some p ↔ (y.pieceSlot h.slot).gen = h.gen ∧ y.pieceAt h.slot = some p := by
  unfold Yard.piece? Yard.pieceAt
  split <;> simp_all

/-! ## Marks (R5, R7, R218) -/

/-- R218: the digits of a mark number, the first character first. -/
theorem markDigits_eq (k n : Nat) : markDigits k n = (List.range k).map (fun i => n / 38 ^ (k - 1 - i) % 38) := by
  induction k generalizing n with
  | zero => rfl
  | succ k ih =>
    rw [markDigits, ih, List.range_succ, List.map_append]
    congr 1
    · refine List.map_congr_left fun i hi => ?_
      have hik := List.mem_range.1 hi
      rw [Nat.div_div_eq_div_mul, ← Nat.pow_succ', show (k - 1 - i).succ = k + 1 - 1 - i by omega]
    · simp

/-- R5: spaces stand only at the right exactly where none but a space follows a space. -/
theorem paddedRight_iff (ds : List Nat) : paddedRight ds = true ↔ ds.Pairwise (fun a b => a = 0 → b = 0) := by
  induction ds with
  | nil => simp [paddedRight]
  | cons d ds ih =>
    rw [paddedRight, List.pairwise_cons]
    split
    · rename_i hd
      have hall : ds.all (· == 0) = true ↔ ∀ b ∈ ds, b = 0 := by simp
      have hrest : (∀ b ∈ ds, b = 0) → ds.Pairwise (fun a b => a = 0 → b = 0) := fun h =>
        List.pairwise_of_forall_mem_list fun a _ b hb _ => h b hb
      rw [hall]
      exact ⟨fun h => ⟨fun b hb _ => h b hb, hrest h⟩, fun h b hb => h.1 b hb hd⟩
    · rename_i hd
      rw [ih]
      exact ⟨fun h => ⟨fun b _ h0 => absurd h0 hd, h⟩, fun h => h.2⟩

/-- R5, R218: a mark word without a class carries a valid mark, digit by digit. -/
theorem markAlone_iff (m : MarkWord) (digit : Nat → Nat) (hd : ∀ i, digit i = m.number / 38 ^ (7 - i) % 38) :
    markAlone m = true ↔ m.cls = 0 ∧ m.bit42 = false ∧ m.number < 38 ^ 8 ∧ digit 0 ≠ 0
      ∧ ∀ i j, i < j → j < 8 → digit i = 0 → digit j = 0 := by
  have hdigits : markDigits 8 m.number = (List.range 8).map digit := by
    rw [markDigits_eq]
    exact List.map_congr_left fun i _ => (hd i).symm
  have hpad : paddedRight ((List.range 8).map digit) = true ↔ ∀ i j, i < j → j < 8 → digit i = 0 → digit j = 0 := by
    rw [paddedRight_iff, List.pairwise_iff_getElem]
    simp only [List.length_map, List.length_range, List.getElem_map, List.getElem_range]
    exact ⟨fun h i j hij hj => h i j (hij.trans hj) hj hij, fun h i j _ hj hij => h i j hij hj⟩
  have hhead : ((List.range 8).map digit).head? = some (digit 0) := rfl
  simp only [markAlone, markWithClass, validMark, hdigits, hhead, Bool.and_eq_true, Bool.not_eq_true', decide_eq_true_eq,
    ne_eq, Option.some.injEq, hpad, show (38 : Nat) ^ 8 = markCount by norm_num]
  tauto

/-- R6, R7: a map without a mark twice gives the slot that it holds for a mark. -/
theorem markSlot_of_mem {l : List (Nat × Nat)} {mark slot : Nat} (h : (mark, slot) ∈ l)
    (hnd : (l.map (fun e => e.1)).Nodup) : markSlot l mark = some slot := by
  cases hs : markSlot l mark with
  | none => exact absurd h ((markSlot_eq_none l mark).1 hs slot)
  | some i =>
    obtain ⟨e, he, rfl⟩ := Option.map_eq_some_iff.1 hs
    have hm : e.1 = mark := by simpa using List.find?_some he
    have hmem : (mark, e.2) ∈ l := hm ▸ List.mem_of_find?_eq_some he
    rw [slot_unique hnd hmem h]

/-- Settles O19: the mark is tested digit by digit, and the map then answers its one slot. -/
theorem lookupMarkAnswersTheHandle : Obligations.LookupMarkAnswersTheHandle := by
  intro hd m s digit valid hs hdigit hvalid
  rw [← markAlone_iff m digit hdigit] at hvalid
  have run : ∀ r, xLookupMark m s.plant = r → runCommand (.lookupMark m) s.plant = r := fun _ => id
  refine ⟨fun hn => exec_refused rfl hs (by simp) (run _ ?_), fun hv hnot => exec_refused rfl hs (by simp) (run _ ?_),
    fun hv slot hmem hnd => exec_accepted rfl hs (by simp) (run _ ?_)⟩
  · rw [hvalid, Bool.not_eq_true] at hn
    simp [xLookupMark, hn, refuse, refuseWith]
  · have hnone : markSlot s.plant.markMap m.number = none := (markSlot_eq_none _ _).2 fun i hi => hnot _ hi rfl
    simp [xLookupMark, hvalid.1 hv, hnone, refuse, refuseWith]
  · simp [xLookupMark, hvalid.1 hv, markSlot_of_mem hmem hnd, handleBytes, handleNum]

/-! ## Classes (R14) -/

/-- Settles O20: the checks of R14 in their order, and the one entry written. -/
theorem defineClassWritesTheEntry : Obligations.DefineClassWritesTheEntry := by
  intro hd c choice len wt thr tier s hs hchoice
  have hflag : ¬(!isFlag choice) = true := by simp [isFlag, hchoice]
  have run : ∀ r, xDefineClass c choice len wt thr tier s.plant = r →
      runCommand (.defineClass c choice len wt thr tier) s.plant = r := fun _ => id
  refine ⟨fun hbad => exec_refused rfl hs (by simp) (run _ ?_), fun hc hok => ?_⟩
  · unfold xDefineClass
    by_cases hc : 32 ≤ c
    · rw [if_pos hc]
      rfl
    · rw [if_neg hc, if_neg hflag, if_pos (hbad.resolve_left hc)]
      rfl
  · have hx : xDefineClass c choice len wt thr tier s.plant = if 0 < (s.plant.cls c).liveCount then refuse .inUse s.plant
        else accept [] (s.plant.updClass c (fun _ =>
          if choice = 1 then ⟨true, len, wt, thr, tier, 0⟩ else .undefined)) := by
      unfold xDefineClass
      rw [if_neg (Nat.not_le.mpr hc), if_neg hflag, if_neg fun h => h.2 (hok h.1)]
    refine ⟨fun hlive => exec_refused rfl hs (by simp) (run _ ?_), fun hlive =>
      ⟨_, exec_accepted rfl hs (by simp) (run _ (hx.trans (if_neg (by omega)))), ?_, ?_, ?_, rfl⟩⟩
    · rw [hx, if_pos hlive]
      rfl
    · rintro rfl
      rw [Plant.cls_updClass_same _ _ _ hc, if_pos rfl]
    · rintro rfl
      rw [Plant.cls_updClass_same _ _ _ hc]
      rfl
    · exact fun i hi => Plant.cls_updClass_ne _ _ _ _ (Ne.symm hi)

/-! ## Holds (R18) -/

/-- R18: the holds that a value names leave the set. -/
theorem releasedHolds_eq (v : Nat) (h : Holds) (hv : v = 1 ∨ v = 2 ∨ v = 4 ∨ v = 8 ∨ v = 15) :
    releasedHolds v h = some ⟨h.qc && decide (v ≠ 1 ∧ v ≠ 15), h.damage && decide (v ≠ 2 ∧ v ≠ 15),
      h.weight && decide (v ≠ 4 ∧ v ≠ 15), h.cure && decide (v ≠ 8 ∧ v ≠ 15)⟩ := by
  rcases hv with rfl | rfl | rfl | rfl | rfl <;> simp [releasedHolds, Holds.none]

/-- R18: any other value names no hold. -/
theorem releasedHolds_none (v : Nat) (h : Holds) (h1 : v ≠ 1) (h2 : v ≠ 2) (h4 : v ≠ 4) (h8 : v ≠ 8) (h15 : v ≠ 15) :
    releasedHolds v h = none := by
  simp [releasedHolds]

/-- A record changed through its handle is read through its handle. -/
theorem Yard.piece?_updPiece {y : Yard} {h : Handle} {p : Piece} (f : Piece → Piece) (hp : y.piece? h = some p) :
    (y.updPiece h.slot f).piece? h = some (f p) := by
  obtain ⟨hg, ha⟩ := Yard.piece?_eq_some.1 hp
  have hslot := Yard.pieceAt_lt _ _ _ ha
  refine Yard.piece?_eq_some.2 ⟨?_, ?_⟩
  · rw [pieceSlot_upd y _ h.slot h.slot _ hslot (Yard.updPiece_pieces _ _ _), if_pos rfl]
    exact hg
  · rw [Yard.pieceAt_updPiece_same _ _ _ hslot, ha]
    rfl

/-- The other slots are left as they are. -/
theorem Yard.pieceSlot_updPiece_ne (y : Yard) (slot i : Nat) (f : Piece → Piece) (h : i ≠ slot) :
    (y.updPiece slot f).pieceSlot i = y.pieceSlot i := getOr_upd_ne _ _ _ _ _ (Ne.symm h)

/-- Settles O22: the checks of R18 in their order; the one record is written. -/
theorem releaseHoldRemovesTheHold : Obligations.ReleaseHoldRemovesTheHold := by
  intro hd h v s hs
  have run : ∀ r, xReleaseHold h v s.plant = r → runCommand (.releaseHold h v) s.plant = r := fun _ => id
  refine ⟨fun hc => exec_refused rfl hs (by simp) (run _ ?_), fun ho => ⟨fun hp => exec_refused rfl hs (by simp) (run _ ?_),
    fun p hp => ⟨fun h1 h2 h4 h8 h15 => exec_refused rfl hs (by simp) (run _ ?_), fun hv => ?_⟩⟩⟩
  · simp [xReleaseHold, hc, refuse, refuseWith]
  · simp [xReleaseHold, ho, hp, refuse, refuseWith]
  · simp [xReleaseHold, ho, hp, releasedHolds_none v p.holds h1 h2 h4 h8 h15, refuse, refuseWith]
  · have hx : ∀ held, releasedHolds v p.holds = some held → xReleaseHold h v s.plant = accept []
        { s.plant with yard := s.plant.yard.updPiece h.slot (fun r => { r with holds := held }) } := fun held hh => by
      simp only [xReleaseHold, ho, hp, hh]
      rfl
    exact ⟨_, exec_accepted rfl hs (by simp) (run _ (hx _ (releasedHolds_eq v p.holds hv))), Yard.piece?_updPiece _ hp,
      fun i hi => Yard.pieceSlot_updPiece_ne _ _ _ _ hi, rfl⟩

/-! ## Scrapping (R19, R20, R4) -/

/-- R19, checks 5 to 7: the holders that give a piece up. -/
theorem scrapAllowed_iff (y : Yard) (h : Handle) (loc : Location) :
    scrapAllowed y h loc = true ↔ (∃ k, loc = .hook k) ∨ (∃ l, loc = .lane l)
      ∨ (∃ i tier, loc = .stack i tier ∧ (y.stack i).pieces.getLast? = some h ∧ (y.stack i).claims = [])
      ∨ ∃ k tier, loc = .truck k tier ∧ (y.truck k).pieces.getLast? = some h := by
  cases loc <;> simp [scrapAllowed]

section
variable (e : Site) (y : Yard) (h : Handle) (loc : Location)

/-- R20: the holder gives the piece up; no piece record, ticket, claim or link is written. -/
theorem scrapFrom_frame : (scrapFrom e y h loc).pieces = y.pieces ∧ (scrapFrom e y h loc).tickets = y.tickets
    ∧ (scrapFrom e y h loc).moveQueue = y.moveQueue ∧ (scrapFrom e y h loc).finished = y.finished
    ∧ (scrapFrom e y h loc).arbiter = y.arbiter ∧ (scrapFrom e y h loc).links = y.links := by
  cases loc <;> exact ⟨rfl, rfl, rfl, rfl, rfl, rfl⟩

/-- R20: a hook gives its load up. -/
theorem scrapFrom_crane (k : Nat) (hk : k < 3) :
    (scrapFrom e y h loc).crane k = if loc = .hook k then { y.crane k with hook := none } else y.crane k := by
  cases loc with
  | hook j =>
    by_cases hj : j = k
    · subst hj
      rw [if_pos rfl]
      exact Yard.crane_updCrane_same _ _ _ hk
    · rw [if_neg (by simpa using hj)]
      exact Yard.crane_updCrane_ne _ _ _ _ hj
  | bed | lane | stack | truck => rfl

/-- R20, R102: a lane gives the piece up and recomputes its demand level. -/
theorem scrapFrom_lane (l : Nat) (hl : l < 2) :
    (scrapFrom e y h loc).lane l = if loc = .lane l then { y.lane l with
        pieces := (y.lane l).pieces.erase h
        demand := demandLevel e.settings.t1 e.settings.t2 e.settings.t3 (y.lane l).drain ((y.lane l).pieces.erase h).length
          (y.lane l).demand }
      else y.lane l := by
  cases loc with
  | lane j =>
    by_cases hj : j = l
    · subst hj
      rw [if_pos rfl]
      exact Yard.lane_updLane_same _ _ _ hl
    · rw [if_neg (by simpa using hj)]
      exact Yard.lane_updLane_ne _ _ _ _ hj
  | bed | hook | stack | truck => rfl

/-- R20: a stack gives its top piece up. -/
theorem scrapFrom_stack (i : Nat) (hi : i < 40) :
    ((∃ tier, loc = .stack i tier) →
        (scrapFrom e y h loc).stack i = { y.stack i with pieces := (y.stack i).pieces.dropLast })
      ∧ ((∀ tier, loc ≠ .stack i tier) → (scrapFrom e y h loc).stack i = y.stack i) := by
  refine ⟨?_, fun hne => ?_⟩
  · rintro ⟨tier, rfl⟩
    exact Yard.stack_updStack_same _ _ _ hi
  · cases loc with
    | stack j tier =>
      refine Yard.stack_updStack_ne _ _ _ _ fun hj => hne tier ?_
      rw [hj]
    | bed | hook | lane | truck => rfl

/-- R20, R106: a truck gives its top piece up; an UNLOADING bay left empty becomes FREE. -/
theorem scrapFrom_truck (k : Nat) (hk : k < 4) :
    ((∃ tier, loc = .truck k tier) → (scrapFrom e y h loc).truck k = { y.truck k with
        pieces := (y.truck k).pieces.dropLast
        state := if (y.truck k).pieces.dropLast = [] ∧ (y.truck k).state = .unloading then .free else (y.truck k).state })
      ∧ ((∀ tier, loc ≠ .truck k tier) → (scrapFrom e y h loc).truck k = y.truck k) := by
  refine ⟨?_, fun hne => ?_⟩
  · rintro ⟨tier, rfl⟩
    exact Yard.truck_updTruck_same _ _ _ hk
  · cases loc with
    | truck j tier =>
      refine Yard.truck_updTruck_ne _ _ _ _ fun hj => hne tier ?_
      rw [hj]
    | bed | hook | lane | stack => rfl

end

/-- Settles O23: the checks of R19 in their order; then the holder gives the piece up and the record is retired. -/
theorem scrapPieceRetiresTheRecord : Obligations.ScrapPieceRetiresTheRecord := by
  intro hd h s hs ho
  have run : ∀ r, xScrapPiece h s.plant = r → runCommand (.scrapPiece h) s.plant = r := fun _ => id
  refine ⟨fun hp => exec_refused rfl hs (by simp) (run _ ?_), fun p hp =>
    ⟨fun ht => exec_refused rfl hs (by simp) (run _ ?_), fun ht hord => exec_refused rfl hs (by simp) (run _ ?_),
      fun ht hord allowed hall => ?_⟩⟩
  · simp [xScrapPiece, ho, hp, refuse, refuseWith]
  · simp [xScrapPiece, ho, hp, ht, refuse, refuseWith]
  · simp [xScrapPiece, ho, hp, ht, hord, refuse, refuseWith]
  · rw [← scrapAllowed_iff] at hall
    refine ⟨fun hn => exec_refused rfl hs (by simp) (run _ ?_), fun ha => ?_⟩
    · rw [hall, Bool.not_eq_true] at hn
      simp [xScrapPiece, ho, hp, ht, hord, hn, refuse, refuseWith]
    · obtain ⟨hgen, hat⟩ := Yard.piece?_eq_some.1 hp
      have hslot := Yard.pieceAt_lt _ _ _ hat
      generalize hy1 : scrapFrom s.plant.site s.plant.yard h p.location = y1
      obtain ⟨hpieces, htickets, hqueue, hfin, harb, hlinks⟩ := scrapFrom_frame s.plant.site s.plant.yard h p.location
      rw [hy1] at hpieces htickets hqueue hfin harb hlinks
      have hps : ∀ i, y1.pieceSlot i = s.plant.yard.pieceSlot i := fun i => by
        unfold Yard.pieceSlot
        rw [hpieces]
      have hat1 : y1.pieceAt h.slot = some p := by
        unfold Yard.pieceAt
        rw [hps]
        exact hat
      have hq := retire_eq { s.plant with yard := y1 } h p hat1
      have hclear := fun i => pieceSlot_clearPiece y1 h.slot i hslot
      have hx : xScrapPiece h s.plant
          = accept (handleBytes h) (s.plant.settle (retire { s.plant with yard := y1 } h)) := by
        simp only [xScrapPiece, ho, hp, ht, hord, hall.1 ha, Plant.updYard, hy1]
        rfl
      rw [hq] at hx
      refine ⟨_, exec_accepted rfl hs (by simp) (run _ hx), ?_, fun i hi => ?_, rfl, fun hc => getOr_upd_same _ _ _ _ hc,
        fun c hc => getOr_upd_ne _ _ _ _ _ (Ne.symm hc), rfl, rfl, rfl, rfl, rfl, htickets, hqueue, hfin, harb, hlinks,
        fun k hk => ?_, fun l hl => ?_, fun i hi => ?_, fun k hk => ?_⟩
      · refine (hclear h.slot).trans ?_
        rw [if_pos rfl, hps, hgen]
        rfl
      · exact (hclear i).trans ((if_neg (Ne.symm hi)).trans (hps i))
      · rw [← scrapFrom_crane s.plant.site s.plant.yard h p.location k hk, hy1]
        rfl
      · have := scrapFrom_lane s.plant.site s.plant.yard h p.location l hl
        rw [hy1] at this
        exact this
      · have := scrapFrom_stack s.plant.site s.plant.yard h p.location i hi
        rw [hy1] at this
        exact this
      · have := scrapFrom_truck s.plant.site s.plant.yard h p.location k hk
        rw [hy1] at this
        exact this

end Sys2Proof.Machine
end

