-- ==== Sys2Proof/Proofs/Reads.lean ====
section
/-! PROOF. The commands that read a record answer it whole, in the codes of R218 (R8, R15, R44, R65, R83, R97, R105, R136, R171,
R188, R195). -/

namespace Sys2Proof.Machine

/-! ## Result bytes (R218) -/

theorem byte1_eq (n : Nat) : byte1 n = [BitVec.ofNat 8 n] := rfl

theorem boolByte_eq (b : Bool) : boolByte b = [if b then 1#8 else 0#8] := by cases b <;> rfl

theorem Phase.byte_eq (p : Phase) : byte1 p.num = [if p = .opened then 1#8 else 0#8] := by cases p <;> rfl

/-- A vector's list holds its records in the order of their numbers. -/
theorem toList_eq_range_map {α : Type} {n : Nat} (v : Vector α n) (d : α) :
    v.toList = (List.range n).map (fun i => getOr v i d) := by
  refine List.ext_getElem (by simp) fun i h1 h2 => ?_
  have hi : i < n := by simpa using h1
  simp [getOr_lt _ _ _ hi]

/-- R44: the positions of a bed in their order. -/
theorem BedRecord.table_bytes (b : BedRecord) :
    b.table.toList.flatMap optHandleBytes = (List.range 8).flatMap (fun n => optHandleBytes (b.at n)) := by
  rw [toList_eq_range_map b.table none, List.flatMap_map]
  rfl

/-- R195: the live records are counted slot by slot. -/
theorem Yard.liveCount_eq (y : Yard) :
    y.liveCount = ((List.range 1024).filter (fun n => (y.pieceAt n).isSome)).length := by
  unfold Yard.liveCount
  rw [toList_eq_range_map y.pieces ⟨0, none⟩, List.countP_map, List.countP_eq_length_filter]
  rfl

/-- R8, R218: the location of a piece with its position, tier or place. -/
theorem place_bytes {y : Yard} {h : Handle} {loc : Location} {place : List Byte}
    (hbed : ∀ b n, loc = .bed b n → place = [0#8, BitVec.ofNat 8 b, BitVec.ofNat 8 n])
    (hhook : ∀ k, loc = .hook k → place = [1#8, BitVec.ofNat 8 k])
    (hlane : ∀ l, loc = .lane l → place = [2#8, BitVec.ofNat 8 l, BitVec.ofNat 8 ((y.lane l).pieces.idxOf h + 1)])
    (hstack : ∀ n tier, loc = .stack n tier → place = [3#8, BitVec.ofNat 8 n, BitVec.ofNat 8 tier])
    (htruck : ∀ n tier, loc = .truck n tier → place = [4#8, BitVec.ofNat 8 n, BitVec.ofNat 8 tier]) :
    locationBytes loc ++ placeBytes y h loc = place := by
  cases loc with
  | bed b n => rw [hbed b n rfl]; rfl
  | hook k => rw [hhook k rfl]; rfl
  | lane l => rw [hlane l rfl]; rfl
  | stack n tier => rw [hstack n tier rfl]; rfl
  | truck n tier => rw [htruck n tier rfl]; rfl

/-- R136, R218: the source of a ticket with its position or tier. -/
theorem source_bytes {loc : Option Location} {source : List Byte}
    (hbed : ∀ b n, loc = some (.bed b n) → source = [0#8, BitVec.ofNat 8 b, BitVec.ofNat 8 n])
    (hhook : ∀ k, loc = some (.hook k) → source = [1#8, BitVec.ofNat 8 k])
    (hlane : ∀ l, loc = some (.lane l) → source = [2#8, BitVec.ofNat 8 l])
    (hstack : ∀ n tier, loc = some (.stack n tier) → source = [3#8, BitVec.ofNat 8 n, BitVec.ofNat 8 tier])
    (htruck : ∀ n tier, loc = some (.truck n tier) → source = [4#8, BitVec.ofNat 8 n, BitVec.ofNat 8 tier])
    (hnone : loc = none → source = [Config.absentKind, 0xFF#8]) : sourceBytes loc = source := by
  cases loc with
  | none => rw [hnone rfl]; rfl
  | some loc =>
    cases loc with
    | bed b n => rw [hbed b n rfl]; rfl
    | hook k => rw [hhook k rfl]; rfl
    | lane l => rw [hlane l rfl]; rfl
    | stack n tier => rw [hstack n tier rfl]; rfl
    | truck n tier => rw [htruck n tier rfl]; rfl

/-- R136, R218: the destination of a ticket. -/
theorem dest_bytes {d : Option Dest} {dest : List Byte}
    (hstack : ∀ n, d = some (.stack n) → dest = [3#8, BitVec.ofNat 8 n])
    (hlane : ∀ l, d = some (.lane l) → dest = [2#8, BitVec.ofNat 8 l])
    (htruck : ∀ n, d = some (.truck n) → dest = [4#8, BitVec.ofNat 8 n])
    (hbay : ∀ bay, d = some (.bay bay) → dest = [6#8, BitVec.ofNat 8 bay])
    (hnone : d = none → dest = [Config.absentKind, 0xFF#8]) : destBytes d = dest := by
  cases d with
  | none => rw [hnone rfl]; rfl
  | some d =>
    cases d with
    | stack n => rw [hstack n rfl]; rfl
    | lane l => rw [hlane l rfl]; rfl
    | truck n => rw [htruck n rfl]; rfl
    | bay bay => rw [hbay bay rfl]; rfl

/-- R171: the claim of a crane, or an indication that it is empty. -/
theorem claim_bytes {c : Option Interval} {claim : List Byte}
    (hsome : ∀ b, c = some b → claim = [BitVec.ofNat 8 b.lo, BitVec.ofNat 8 b.hi])
    (hnone : c = none → claim = [0xFF#8, 0xFF#8]) : claimBytes c = claim := by
  cases c with
  | none => rw [hnone rfl]; rfl
  | some b => rw [hsome b rfl]; rfl

/-- R171: the stage order of a crane. -/
theorem stage_bytes {o : Option StageOrder} {stage : List Byte}
    (hsome : ∀ b, o = some b → stage = [BitVec.ofNat 8 b.kind.num, BitVec.ofNat 8 b.seq])
    (hnone : o = none → stage = [Config.absentKind, Config.absentSequence]) : stageBytes o = stage := by
  cases o with
  | none => rw [hnone rfl]; rfl
  | some b => rw [hsome b rfl]; rfl

/-- R171: the report timer of a crane. -/
theorem timer_bytes {t : Option Timer} {timer : Byte} (hsome : ∀ m, t = some m → timer = BitVec.ofNat 8 m.minutes)
    (hnone : t = none → timer = Config.stoppedTimer) : timerBytes t = [timer] := by
  cases t with
  | none => rw [hnone rfl]; rfl
  | some m => rw [hsome m rfl]; rfl

/-! ## The answers -/

/-- A read of a record in range answers its fields. -/
theorem exec_read {i : Instr} {hd : Header} {c : Command} {s : State} {n bound : Nat} {fields fields' : List Byte}
    (h : i.command? = some (hd, c)) (hs : s.ready) (hc : ∀ q, c ≠ .find q)
    (hr : runCommand c s.plant = if bound ≤ n then refuse .range s.plant else accept fields s.plant) (hn : n < bound)
    (hf : fields = fields') : exec i s = .next (s.accepted hd c fields' s.plant) := by
  rw [if_neg (Nat.not_le.mpr hn), hf] at hr
  exact exec_accepted h hs hc hr

/-- A read of a record out of range is refused. -/
theorem refuses_read {i : Instr} {hd : Header} {c : Command} {s : State} {n bound : Nat} {fields : List Byte}
    (h : i.command? = some (hd, c)) (hs : s.ready) (hc : ∀ q, c ≠ .find q)
    (hr : runCommand c s.plant = if bound ≤ n then refuse .range s.plant else accept fields s.plant) (hn : bound ≤ n) :
    refuses i s .range [] := by
  rw [if_pos hn] at hr
  exact refuses_of_run h hs hc hr

/-- Settles O53: each read is refused for a number out of range or a stale handle; else its fields are those listed. -/
theorem readsShowEveryRecord : Obligations.ReadsShowEveryRecord := by
  refine ⟨fun hd i s hs => ⟨?_, ?_, ?_, ?_, ?_, ?_, ?_, ?_⟩, fun hd i h s hs =>
    ⟨?_, ?_, ?_, ?_, ?_, ?_, ?_, ?_, ?_, ?_, ?_, ?_⟩⟩
  · exact refuses_read rfl hs (by simp) rfl
  · exact refuses_read rfl hs (by simp) rfl
  · exact refuses_read rfl hs (by simp) rfl
  · exact refuses_read rfl hs (by simp) rfl
  -- READ BED, READ STACK, READ LANE, READ ORDER
  · rintro hi b rfl
    refine exec_read rfl hs (by simp) rfl hi ?_
    rw [BedRecord.table_bytes]
    simp [byte1_eq]
  · rintro hi r proj rfl rfl
    refine exec_read rfl hs (by simp) rfl hi ?_
    simp [stackFields, byte1_eq, handlesBytes, claimListBytes, weightOf]
  · rintro hi l rfl
    refine exec_read rfl hs (by simp) rfl hi ?_
    simp [byte1_eq, handlesBytes]
  · rintro hi t rfl
    refine exec_read rfl hs (by simp) rfl hi ?_
    simp [byte1_eq, handlesBytes]
  · exact refuses_read rfl hs (by simp) rfl
  · exact fun hi => ⟨refuses_read rfl hs (by simp) rfl hi, refuses_read rfl hs (by simp) rfl hi⟩
  · exact refuses_read rfl hs (by simp) rfl
  · intro hp
    refine refuses_of_run (c := .readPiece h) rfl hs (by simp) ?_
    simp [runCommand, xReadPiece, hp, refuse]
  · intro ht
    refine refuses_of_run (c := .readMove h) rfl hs (by simp) ?_
    simp [runCommand, xReadMove, ht, refuse]
  -- READ PIECE
  · intro p place hp hbed hhook hlane hstack htruck
    refine exec_accepted (c := .readPiece h) rfl hs (by simp) ?_
    have hplace := place_bytes hbed hhook hlane hstack htruck
    simp only [runCommand, xReadPiece, hp, pieceFields, ← hplace]
    simp [handleBytes, handleNum, markBytes, byte1_eq, boolByte_eq, releasable]
  -- READ MOVE
  · intro t source dest ht hb hh hl hst htr hn dst dl dtr db dn
    refine exec_accepted (c := .readMove h) rfl hs (by simp) ?_
    simp only [runCommand, xReadMove, ht, ticketFields, source_bytes hb hh hl hst htr hn, dest_bytes dst dl dtr db dn]
    simp [byte1_eq, boolByte_eq]
  -- READ CLASS, READ PLAN, READ INTAKE
  · rintro hi c rfl
    refine exec_read rfl hs (by simp) rfl hi ?_
    simp [byte1_eq]
  · rintro hi r segment rfl hseg
    refine exec_read rfl hs (by simp) rfl hi ?_
    have hsegment : segmentBytes = segment := funext fun g => (hseg g).symm
    simp [planFields, byte1_eq, hsegment]
  · rintro hi r rfl
    refine exec_read rfl hs (by simp) rfl hi ?_
    simp [byte1_eq]
  -- READ CRANE
  · rintro hi c claim stage timer rfl hc hcn hst hstn htm htmn
    refine exec_read rfl hs (by simp) rfl hi ?_
    unfold craneFields
    rw [claim_bytes (c := (s.plant.yard.arb i).claim) hc hcn, stage_bytes hst hstn, timer_bytes htm htmn]
    simp [byte1_eq, boolByte_eq]
  -- READ WORKS
  · intro live hlive
    rw [← Yard.liveCount_eq] at hlive
    refine exec_accepted (c := .readWorks) rfl hs (by simp) ?_
    simp only [runCommand, xReadWorks, ← hlive, Phase.byte_eq]
    cases s.plant.works.stop <;> simp [byte1_eq]

end Sys2Proof.Machine
end

