-- ==== Sys2Proof/Proofs/Find.lean ====
section
/-! PROOF. FIND (R21 to R24): its start at the Command Port, an examination, and the tests of a record. -/

namespace Sys2Proof.Machine

/-! ## The start (R21, R206) -/

/-- R21: the parameters of a FIND are good exactly where each is in its range. -/
theorem findOk_iff (p : FindParams) : findOk p = true ↔
    p.start ≤ 1023 ∧ 1 ≤ p.mask ∧ p.mask ≤ 31 ∧ (p.cls ≤ 31 ∨ p.cls = 0xFF) ∧ p.holdTest ≤ 6 ∧ p.maturityTest ≤ 2
      ∧ p.orderTest ≤ 2 ∧ 1 ≤ p.maxResults ∧ p.maxResults ≤ 8 := by
  simp only [findOk, Bool.and_eq_true, Bool.or_eq_true, decide_eq_true_eq, and_assoc]

/-- A FIND alone in the queue is started as FINDs start. -/
theorem startEntry_find (s : State) (hd : Header) (p : FindParams) :
    startEntry { s with port := { s.port with commandQueue := [entryFor hd (.find p)] } } 0 =
      startFind { s with port := { s.port with commandQueue := [entryFor hd (.find p)] } } 0 p := rfl

/-- R21: a FIND with good parameters given to a ready port with a free scan unit: the unit is busy at the start slot. -/
theorem give_find_good (hd : Header) (p : FindParams) (s : State) (h : s.ready) (hscan : s.port.scan = none)
    (hp : findOk p = true) : give hd (.find p) s = { s with
      port := { s.port with
        commandQueue := [⟨hd.tag, 0x17, hd.after, some (.find p), .scanning⟩], scan := some ⟨p, p.start, []⟩ } } := by
  have hq := h.1
  unfold give deliver
  simp only [hq, List.length_nil, List.nil_append]
  rw [if_neg (by omega)]
  rw [runPort_starts _ 0 (by simp) (postOne_of_none _ (by simp [Entry.oldest, entryFor]))
      (by simp [findStart, entryFor, hscan]),
    startEntry_find, startFind, if_pos hp, runPort_rests _ (postOne_of_none _ (by simp [Entry.oldest, entryFor]))
      (by simp [findStart, entryFor])]
  simp [entryFor, commandCode]

/-- R21: a FIND with a parameter out of range given to a ready port is answered RANGE. -/
theorem give_find_bad (hd : Header) (p : FindParams) (s : State) (h : s.ready) (hscan : s.port.scan = none)
    (hp : findOk p ≠ true) : give hd (.find p) s = s.refused hd (.find p) .range [] := by
  have hq := h.1
  unfold give
  rw [deliver_ready _ _ _ (resultFrame hd.tag (commandCode (.find p)) ⟨.range, []⟩) h rfl (by simp [hscan])
    ((startEntry_find s hd p).trans (if_neg hp)) rfl h.2]
  simp only [State.refused, State.answered, complete]
  rw [← hq]

/-! ## The examination (R23, R24) -/

theorem Scan.ends_iff (sc : Scan) (found : List Handle) :
    sc.ends found = true ↔ sc.params.maxResults ≤ found.length ∨ 1023 ≤ sc.slot := by
  simp [Scan.ends]

/-- R23: an examination that does not end the scan takes the next slot. -/
theorem examineSlot_goes {s : State} {sc : Scan} (h : s.port.scan = some sc)
    (he : ¬sc.ends (sc.noted s.plant.yard) = true) : examineSlot s = { s with
      port := { s.port with scan := some { sc with slot := sc.slot + 1, found := sc.noted s.plant.yard } } } := by
  simp only [examineSlot, h]
  exact if_neg he

/-- R24: an examination that ends the scan completes the FIND. -/
theorem examineSlot_ends {s : State} {sc : Scan} (h : s.port.scan = some sc)
    (he : sc.ends (sc.noted s.plant.yard) = true) : examineSlot s = endScan s sc (sc.noted s.plant.yard) := by
  simp only [examineSlot, h]
  exact if_pos he

/-- R206: the completed entries are those with a rank. -/
theorem completedCount_eq (q : List Entry) : completedCount q = q.countP (fun f => f.rank?.isSome) := by
  refine List.countP_congr fun e _ => ?_
  simp only [Entry.rank?]
  cases e.state <;> simp

/-- A change of one member of a list sets it to the changed member. -/
theorem modify_at {α : Type} {l : List α} {i : Nat} {a : α} (h : l[i]? = some a) (f : α → α) :
    l.modify i f = l.set i (f a) := by
  simp [List.modify_eq_set_getElem?, h]

/-- R24: the FIND in progress completes as the youngest COMPLETED entry, and the port runs. -/
theorem endScan_eq {s : State} {sc : Scan} {found : List Handle} {i : Nat} {e : Entry}
    (hi : s.port.commandQueue[i]? = some e) (he : e.state = .scanning)
    (hfirst : ∀ j f, j < i → s.port.commandQueue[j]? = some f → f.state ≠ .scanning) :
    endScan s sc found = State.runPort { s with
      port := { s.port with
        scan := none
        commandQueue := s.port.commandQueue.set i { e with
          state := .completed (completedCount s.port.commandQueue)
            (resultFrame e.tag e.code ⟨.ok, findFields found sc.slot⟩) } } } := by
  obtain ⟨hlt, hget⟩ := List.getElem?_eq_some_iff.1 hi
  have hidx : s.port.commandQueue.findIdx (fun e => decide (e.state = .scanning)) = i := by
    rw [List.findIdx_eq hlt]
    refine ⟨by simp [hget, he], fun j hj => ?_⟩
    simpa using hfirst j _ hj (List.getElem?_eq_getElem (Nat.lt_trans hj hlt))
  simp only [endScan, hidx, complete, modify_at hi]

/-- A completed entry alone in the queue is posted where there is room, and the port rests. -/
theorem runPort_single (s : State) (e : Entry) (frame : List Byte) (hq : s.port.commandQueue = [e])
    (he : e.state = .completed 0 frame) (hr : s.port.resultQueue.length < 8) : s.runPort = { s with
      port := { s.port with commandQueue := [], resultQueue := s.port.resultQueue ++ [frame] } } :=
  settlePort_rests 8 s _ (postAll_single 7 _ e frame hq he hr) rfl

/-! ## The tests (R22) -/

theorem holdTestOk_iff (test : Nat) (h : Holds) (ht : test ≤ 6) : holdTestOk test h = true ↔
    (test = 1 → h = ⟨false, false, false, false⟩) ∧ (test = 2 → h ≠ ⟨false, false, false, false⟩)
      ∧ (test = 3 → h.qc = true) ∧ (test = 4 → h.damage = true) ∧ (test = 5 → h.weight = true)
      ∧ (test = 6 → h.cure = true) := by
  have hn : Holds.none = ⟨false, false, false, false⟩ := rfl
  interval_cases test <;> simp [holdTestOk, hn]

theorem maturityTestOk_iff (test v m : Nat) (ht : test ≤ 2) : maturityTestOk test v m = true ↔
    (test = 1 → v ≤ m) ∧ (test = 2 → m < v) := by
  interval_cases test <;> simp [maturityTestOk]

theorem orderTestOk_iff (test : Nat) (order : Option Nat) (ht : test ≤ 2) : orderTestOk test order = true ↔
    (test = 1 → order ≠ none) ∧ (test = 2 → order = none) := by
  interval_cases test <;> simp [orderTestOk, Option.isSome_iff_ne_none]

theorem matchesFind_iff (p : FindParams) (r : Piece) : matchesFind p r = true ↔
    p.mask.testBit r.location.kindBit = true ∧ (p.cls = 0xFF ∨ p.cls = r.cls) ∧ holdTestOk p.holdTest r.holds = true
      ∧ maturityTestOk p.maturityTest p.maturity r.maturity = true ∧ orderTestOk p.orderTest r.order = true := by
  simp only [matchesFind, Bool.and_eq_true, Bool.or_eq_true, decide_eq_true_eq, and_assoc]

/-- R22: a slot without a live record notes nothing. -/
theorem Scan.noted_none {sc : Scan} {y : Yard} (h : y.pieceAt sc.slot = none) : sc.noted y = sc.found := by
  simp [Scan.noted, h]

/-- R22: a live record is noted exactly where it matches. -/
theorem Scan.noted_some {sc : Scan} {y : Yard} {r : Piece} (h : y.pieceAt sc.slot = some r) : sc.noted y =
    if matchesFind sc.params r = true then sc.found ++ [⟨sc.slot, (y.pieceSlot sc.slot).gen⟩] else sc.found := by
  simp [Scan.noted, h]

/-- Settles O9, part by part: the start, the examination that goes on or ends, and the five tests. -/
theorem findScansSlotBySlot : Obligations.FindScansSlotBySlot := by
  refine ⟨⟨fun hd p s hs hscan => ⟨fun hp => ?_, fun hp => ?_⟩, fun s => ⟨fun h => ?_, fun sc h => ⟨?_, ?_, ?_⟩⟩⟩, ?_⟩
  · exact congrArg Host.Outcome.next (give_find_good hd p s hs hscan ((findOk_iff p).2 hp))
  · exact congrArg Host.Outcome.next (give_find_bad hd p s hs hscan (mt (findOk_iff p).1 hp))
  · show Host.Outcome.next (examineSlot s) = _
    simp only [examineSlot, h]
  · intro hlen hslot
    have he : ¬sc.ends (sc.noted s.plant.yard) = true := by
      rw [Scan.ends_iff]
      omega
    exact congrArg Host.Outcome.next (examineSlot_goes h he)
  · intro hends e hq hscanning hroom
    refine congrArg Host.Outcome.next ?_
    have hcount : completedCount s.port.commandQueue = 0 := by simp [hq, completedCount, hscanning]
    rw [examineSlot_ends h ((sc.ends_iff _).2 hends), endScan_eq (i := 0) (e := e) (by simp [hq]) hscanning (by simp), hcount]
    exact runPort_single _ _ _ (by simp [hq]; rfl) rfl hroom
  · rintro hends i e rank hi hscanning hfirst rfl
    refine congrArg Host.Outcome.next ?_
    rw [examineSlot_ends h ((sc.ends_iff _).2 hends), endScan_eq hi hscanning hfirst, completedCount_eq]
    rfl
  · intro sc y hhold hmat horder
    refine ⟨Scan.noted_none, fun r hr passes hpasses => ?_⟩
    have hmatch : matchesFind sc.params r = true ↔ passes := by
      rw [hpasses, matchesFind_iff, holdTestOk_iff _ _ hhold, maturityTestOk_iff _ _ _ hmat, orderTestOk_iff _ _ horder]
      simp only [and_assoc]
    rw [Scan.noted_some hr]
    exact ⟨fun hp => if_pos (hmatch.2 hp), fun hp => if_neg (mt hmatch.1 hp)⟩

end Sys2Proof.Machine
end

