-- ==== Sys2Proof/Proofs/Reset.lean ====
section
/-! PROOF. Right after power-on every invariant holds, and after a port reset that of the Command Port (R191, R214). -/

namespace Sys2Proof.Machine

/-! ## The records after power-on -/

theorem powerOn_bed (stop : Bool) (b : Nat) : (Plant.powerOn stop).bed b = .reset := getOr_replicate _ _ _

theorem powerOn_heat (stop : Bool) (b : Nat) : (Plant.powerOn stop).heat b = .reset := getOr_replicate _ _ _

theorem powerOn_bedLine (stop : Bool) (b : Nat) : (Plant.powerOn stop).bedLine b = .reset := getOr_replicate _ _ _

theorem powerOn_intake (stop : Bool) (b : Nat) : (Plant.powerOn stop).intakeOf b = .reset := getOr_replicate _ _ _

theorem reset_stack (i : Nat) : Yard.reset.stack i = .reset := getOr_replicate _ _ _

theorem reset_lane (l : Nat) : Yard.reset.lane l = .reset := getOr_replicate _ _ _

theorem reset_truck (k : Nat) : Yard.reset.truck k = .reset := getOr_replicate _ _ _

theorem reset_claim (k : Nat) : Yard.reset.claim k = none :=
  congrArg ArbiterRecord.claim (getOr_replicate 3 k (⟨none, none⟩ : ArbiterRecord))

/-- R168, R191: every crane stands as after power-on, with a home bay of its own. -/
theorem reset_crane (k : Nat) : ∃ home, Yard.reset.crane k = .reset home :=
  match k with
  | 0 => ⟨0, rfl⟩
  | 1 => ⟨32, rfl⟩
  | 2 => ⟨63, rfl⟩
  | _ + 3 => ⟨0, getOr_ge _ _ _ (by omega)⟩

theorem reset_current (k : Nat) : (Yard.reset.crane k).current = none := by
  obtain ⟨home, h⟩ := reset_crane k
  rw [h]
  rfl

theorem reset_currentTicket (k : Nat) : currentTicket Yard.reset k = none := by
  simp [currentTicket, reset_current]

/-! ## The invariants -/

/-- R205: an empty Command Port without a FIND. -/
theorem portInv_of_empty {s : State} (hq : s.port.commandQueue = []) (hr : s.port.resultQueue = [])
    (hs : s.port.scan = none) : PortInv s := by
  simp [PortInv, hq, hr, hs, completedCount, findStart]

theorem heatInv_reset (stop : Bool) (s : State) (hp : s.plant = Plant.powerOn stop) : HeatInv s := by
  refine ⟨by rw [hp]; rfl, fun b _ => ?_⟩
  rw [hp, powerOn_heat]
  simp [HeatRecord.lawful, HeatRecord.reset]

/-- R192: right after power-on no timer event is to be taken. -/
theorem dueEvents_powerOn (stop : Bool) : dueEvents (Plant.powerOn stop) = [] := by
  cases stop <;> rfl

theorem rangeInv_reset (stop : Bool) (s : State) (hp : s.plant = Plant.powerOn stop) : RangeInv s := by
  unfold RangeInv State.events
  rw [hp, show (Plant.powerOn stop).yard = Yard.reset from rfl]
  refine ⟨rfl, Nat.zero_le _, fun b => ?_, fun b => ?_, fun l => ?_, fun k => ?_, fun i t ht => ?_, fun k => ?_,
    fun _ => dueEvents_powerOn stop, by decide, by decide, by decide⟩
  · rw [powerOn_bed, powerOn_bedLine]
    decide
  · rw [powerOn_intake]
    decide
  · rw [reset_lane]
    decide
  · rw [reset_truck]
    decide
  · rw [reset_ticketAt] at ht
    cases ht
  · obtain ⟨home, h⟩ := reset_crane k
    rw [h]
    simp [CraneRecord.reset]

theorem reset_serves : Yard.reset.serves := by
  refine ⟨fun k h _ hc => ?_, fun i t ht => ?_, fun i t ht => ?_⟩
  · rw [reset_current] at hc
    cases hc
  · rw [reset_ticketAt] at ht
    cases ht
  · rw [reset_ticketAt] at ht
    cases ht

theorem reset_claimsOrdered : Yard.reset.claimsOrdered := by
  constructor <;> simp [reset_claim]

theorem reset_claimsApart : Yard.reset.claimsApart := by
  constructor <;> simp [reset_claim]

theorem reset_claimCovers (e : Site) (k : Nat) : Yard.reset.claimCovers e k := by
  obtain ⟨home, h⟩ := reset_crane k
  refine ⟨?_, fun i t ht => ?_⟩
  · rw [h]
    simp [CraneRecord.reset]
  · rw [reset_currentTicket] at ht
    cases ht

/-- R191: every invariant holds on the plant after power-on at an empty Command Port. -/
theorem lawful_of_powerOn (stop : Bool) (s : State) (hp : s.plant = Plant.powerOn stop) (hport : s.port = .reset) :
    s.lawful := by
  have hyard : s.plant.yard = Yard.reset := by rw [hp]; rfl
  have hdig : DigLockInv s := fun i => by rw [hyard, reset_stack]; rfl
  have hcrane : CraneInv s := fun k => by
    obtain ⟨home, h⟩ := reset_crane k
    rw [hyard, h]
    simp [CraneRecord.reset]
  have hqueue : QueueInv s := by rw [queueInv_iff, hyard]; exact reset_queueOk
  have hpiece : PieceInv s := by rw [pieceInv_iff, hp]; exact powerOn_pieceOk stop
  have hgen : GenInv s := by rw [genInv_iff, hyard]; exact reset_genOk
  have horders : s.plant.ordersSent := fun h => by rw [hp] at h; cases h
  refine ⟨portInv_of_empty (by rw [hport]; rfl) (by rw [hport]; rfl) (by rw [hport]; rfl), heatInv_reset stop s hp,
    rangeInv_reset stop s hp, hdig, hcrane, hqueue, hpiece, hgen, horders, ?_⟩
  rw [hyard]
  exact ⟨reset_serves, reset_claimsOrdered, reset_claimsApart, fun k _ => reset_claimCovers _ k⟩

/-- Settles O56: reset and power-on leave the plant of `Plant.powerOn` at an empty port; a port reset empties the port. -/
theorem resetMeetsTheInvariants : Obligations.ResetMeetsTheInvariants := by
  refine ⟨lawful_of_powerOn false _ rfl rfl, fun stop s t h => ?_, fun s t h => ?_⟩
  · obtain rfl := Host.Outcome.next.inj h
    exact lawful_of_powerOn stop _ rfl rfl
  · obtain rfl := Host.Outcome.next.inj h
    exact portInv_of_empty rfl rfl rfl

end Sys2Proof.Machine
end

