-- ==== Sys2Proof/Proofs/ClaimRelease.lean ====
section
/-! PROOF. What the removal of a claim may change (R91 to R93, R126), said once: the claims, the buried count and the dig lock
of its stack, and destinations of tickets, which become absent. -/

namespace Sys2Proof.Machine

/-- R126: a LIFT claim that a promotion may append is that of a PENDING or READY ticket. -/
def Yard.mayPromote (y : Yard) (c : Claim) : Prop :=
  ∃ i t, c = ⟨.lift, y.ticketHandle i⟩ ∧ y.ticketAt i = some t ∧ (t.state = .pending ∨ t.state = .ready)

/-- R94: a buried ticket is PENDING or READY, and the stack is its source's. -/
theorem buriedIn_some {y : Yard} {i s : Nat} (h : buriedIn y i = some s) :
    ∃ t, y.ticketAt i = some t ∧ (t.state = .pending ∨ t.state = .ready) ∧ ∃ tier, t.source = some (.stack s tier) := by
  unfold buriedIn at h
  split at h
  · rename_i t ht
    split at h
    · rename_i tier hsource
      split at h
      · rename_i hst
        obtain rfl := Option.some.inj h
        exact ⟨t, ht, hst.1, tier, hsource⟩
      · cases h
    · cases h
  · cases h

/-- R126: a ticket that is promoted is a buried one of the stack. -/
theorem promotable_buried {y : Yard} {s slot : Nat} (h : promotable y s = some slot) : buriedIn y slot = some s := by
  unfold promotable at h
  split at h
  · cases h
  · have hfound := List.find?_some h
    simp only [Bool.and_eq_true, decide_eq_true_eq] at hfound
    exact hfound.1

/-- From the yard `y` to `y'` claims of the stacks that `p` admits have left, with what follows from it. -/
structure Yard.Sheds (p : Nat → Prop) (y y' : Yard) : Prop where
  rest : { y' with stackRecs := y.stackRecs, tickets := y.tickets } = y
  gens : ∀ j, (y'.ticketSlot j).gen = (y.ticketSlot j).gen
  dests : ∀ j, y'.ticketAt j = y.ticketAt j ∨ y'.ticketAt j = (y.ticketAt j).map (fun t => { t with dest := none })
  others : ∀ s, ¬p s → y'.stack s = y.stack s
  fixed : ∀ s, (y'.stack s).fixed = (y.stack s).fixed
  claims : ∀ s c, ¬y.mayPromote c → (y'.stack s).claims.count c ≤ (y.stack s).claims.count c

namespace Yard.Sheds

variable {p : Nat → Prop} {y y' y'' : Yard}

theorem refl (p : Nat → Prop) (y : Yard) : Yard.Sheds p y y :=
  ⟨rfl, fun _ => rfl, fun _ => .inl rfl, fun _ _ => rfl, fun _ => rfl, fun _ _ _ => Nat.le_refl _⟩

theorem pieces (h : Yard.Sheds p y y') : y'.pieces = y.pieces := (congrArg Yard.pieces h.rest :)
theorem lanes (h : Yard.Sheds p y y') : y'.lanes = y.lanes := (congrArg Yard.lanes h.rest :)
theorem trucks (h : Yard.Sheds p y y') : y'.trucks = y.trucks := (congrArg Yard.trucks h.rest :)
theorem moveQueue (h : Yard.Sheds p y y') : y'.moveQueue = y.moveQueue := (congrArg Yard.moveQueue h.rest :)
theorem arbiter (h : Yard.Sheds p y y') : y'.arbiter = y.arbiter := (congrArg Yard.arbiter h.rest :)
theorem cranes (h : Yard.Sheds p y y') : y'.cranes = y.cranes := (congrArg Yard.cranes h.rest :)
theorem links (h : Yard.Sheds p y y') : y'.links = y.links := (congrArg Yard.links h.rest :)

theorem ticketHandle (h : Yard.Sheds p y y') (i : Nat) : y'.ticketHandle i = y.ticketHandle i :=
  congrArg (Handle.mk i) (h.gens i)

/-- A ticket keeps its state. -/
theorem ticketAt (h : Yard.Sheds p y y') {i : Nat} {t' : Ticket} (ht : y'.ticketAt i = some t') :
    ∃ t, y.ticketAt i = some t ∧ (t' = t ∨ t' = { t with dest := none }) := by
  rcases h.dests i with hi | hi <;> rw [ht] at hi
  · exact ⟨t', hi.symm, .inl rfl⟩
  · obtain ⟨t, hold, rfl⟩ := Option.map_eq_some_iff.1 hi.symm
    exact ⟨t, hold, .inr rfl⟩

theorem mayPromote (h : Yard.Sheds p y y') {c : Claim} (hc : y'.mayPromote c) : y.mayPromote c := by
  obtain ⟨i, t', rfl, ht', hst⟩ := hc
  obtain ⟨t, ht, hsame⟩ := h.ticketAt ht'
  have hstate : t'.state = t.state := by rcases hsame with rfl | rfl <;> rfl
  exact ⟨i, t, by rw [h.ticketHandle], ht, by rwa [← hstate]⟩

theorem trans (h : Yard.Sheds p y y') (k : Yard.Sheds p y' y'') : Yard.Sheds p y y'' where
  rest := by
    have hk := k.rest
    have hh := h.rest
    cases y; cases y'; cases y''
    simp_all
  gens j := (k.gens j).trans (h.gens j)
  dests j := by
    rcases k.dests j with hk | hk <;> rcases h.dests j with hh | hh <;> rw [hk, hh]
    · exact .inl rfl
    · exact .inr rfl
    · exact .inr rfl
    · exact .inr (by simp [Option.map_map, Function.comp_def])
  others s hs := (k.others s hs).trans (h.others s hs)
  fixed s := (k.fixed s).trans (h.fixed s)
  claims s c hc := Nat.le_trans (k.claims s c (mt h.mayPromote hc)) (h.claims s c hc)

/-- A change of one stack's claims, buried count and dig lock that adds no claim but by promotion. -/
theorem updStack (y : Yard) {s : Nat} (hs : p s) (f : StackRecord → StackRecord) (hf : ∀ r, (f r).fixed = r.fixed)
    (hc : ∀ c, ¬y.mayPromote c → (f (y.stack s)).claims.count c ≤ (y.stack s).claims.count c) :
    Yard.Sheds p y (y.updStack s f) := by
  have hstack : ∀ i, (y.updStack s f).stack i = if s = i ∧ s < 40 then f (y.stack i) else y.stack i := fun i => by
    by_cases hi : s = i
    · subst hi
      by_cases h40 : s < 40
      · rw [if_pos ⟨rfl, h40⟩, Yard.stack_updStack_same _ _ _ h40]
      · rw [if_neg (fun h => h40 h.2)]
        unfold Yard.stack
        rw [getOr_ge _ _ _ (Nat.not_lt.mp h40), getOr_ge _ _ _ (Nat.not_lt.mp h40)]
    · rw [if_neg (fun h => hi h.1), Yard.stack_updStack_ne _ _ _ _ hi]
  refine ⟨rfl, fun _ => rfl, fun _ => .inl rfl, fun i hi => ?_, fun i => ?_, fun i c h => ?_⟩
  · rw [hstack, if_neg]
    rintro ⟨rfl, -⟩
    exact hi hs
  · rw [hstack]
    split
    · exact hf _
    · rfl
  · rw [hstack]
    split
    · rename_i hi
      obtain ⟨rfl, -⟩ := hi
      exact hc c h
    · exact Nat.le_refl _

/-- A change of one stack's claims alone. -/
theorem setClaims (y : Yard) {s : Nat} (hs : p s) (cs : StackRecord → List Claim)
    (hc : ∀ c, ¬y.mayPromote c → (cs (y.stack s)).count c ≤ (y.stack s).claims.count c) :
    Yard.Sheds p y (y.updStack s (fun st => { st with claims := cs st })) :=
  updStack y hs _ (fun _ => rfl) hc

/-- R94: the buried count raised or lowered, and the dig lock with it. -/
theorem setBuried (y : Yard) {s : Nat} (hs : p s) (n : StackRecord → Nat) :
    Yard.Sheds p y (y.updStack s (fun st => Machine.setBuried (n st) st)) :=
  updStack y hs _ (fun _ => rfl) fun _ _ => Nat.le_refl _

/-- R93: a dropped claim takes a destination away or raises the buried count. -/
theorem dropClaim (y : Yard) {s : Nat} (hs : p s) (c : Claim) : Yard.Sheds p y (dropClaim s y c) := by
  cases hk : c.kind with
  | lift =>
    rw [show Machine.dropClaim s y c = raiseBuried y s by simp only [Machine.dropClaim, hk]]
    exact setBuried y hs _
  | place =>
    rw [show Machine.dropClaim s y c = y.updTicket c.ticket.slot (fun t => { t with dest := leaveStack s t.dest }) by
      simp only [Machine.dropClaim, hk]]
    refine ⟨rfl, fun j => gen_updTicket _ _ _ _, fun j => ?_, fun _ _ => rfl, fun _ => rfl, fun _ _ _ => Nat.le_refl _⟩
    rw [ticketAt_updTicket]
    split
    · cases ht : y.ticketAt j with
      | none => exact .inl rfl
      | some t =>
        simp only [Option.map_some, leaveStack]
        split
        · exact .inr rfl
        · exact .inl rfl
    · exact .inl rfl

/-- An appended claim is none of the others. -/
theorem count_append_other (cs : List Claim) {a c : Claim} (h : a ≠ c) : (cs ++ [a]).count c ≤ cs.count c := by
  simp [List.count_append, h]

theorem forEach {α : Type} (f : Yard → α → Yard) (h : ∀ y a, Yard.Sheds p y (f y a)) (xs : List α) (y : Yard) :
    Yard.Sheds p y (forEach xs f y) := by
  unfold Machine.forEach
  induction xs generalizing y with
  | nil => exact refl p y
  | cons x xs ih => exact (h y x).trans (ih _)

/-- R126: promotions append LIFT claims of PENDING and READY tickets. -/
theorem promoteUpTo (n : Nat) {s : Nat} (hs : p s) (y : Yard) : Yard.Sheds p y (promoteUpTo n s y) := by
  induction n generalizing y with
  | zero => exact refl p y
  | succ n ih =>
    unfold Machine.promoteUpTo
    split
    · split
      · rename_i slot hslot
        obtain ⟨t, ht, hst, -⟩ := buriedIn_some (promotable_buried hslot)
        have happend : Yard.Sheds p y (appendClaim y s ⟨.lift, y.ticketHandle slot⟩) := by
          refine setClaims y hs _ fun c hc => ?_
          exact count_append_other _ fun h => hc ⟨slot, t, h.symm, ht, hst⟩
        exact (happend.trans (setBuried _ hs _)).trans (ih _)
      · exact refl p y
    · exact refl p y

/-- R92: the walk keeps some of the claims, in order. -/
theorem repairWalk_sublist (e : Site) (y : Yard) (st : StackRecord) (proj : List Handle) (cs : List Claim) :
    (repairWalk e y st proj cs).1.Sublist cs := by
  induction cs generalizing proj with
  | nil => exact .refl _
  | cons c cs ih =>
    unfold repairWalk
    split
    · split
      · exact (ih _).cons_cons c
      · exact (ih _).cons c
    · split
      · split
        · exact (ih _).cons_cons c
        · exact (ih _).cons c
      · exact (ih _).cons c

/-- R92, R93: a claim list is repaired. -/
theorem repair (e : Site) (y : Yard) {s : Nat} (hs : p s) : Yard.Sheds p y (repair e y s) := by
  have hkept : Yard.Sheds p y (y.updStack s
      (fun r => { r with claims := (repairWalk e y (y.stack s) (y.stack s).pieces (y.stack s).claims).1 })) :=
    setClaims y hs _ fun c _ => (repairWalk_sublist e y _ _ _).count_le c
  exact hkept.trans (forEach _ (fun y c => dropClaim y hs c) _ _)

end Yard.Sheds

/-- The claim lists without one mention of a claim on a stack. -/
theorem stack_eraseClaim (y : Yard) (s : Nat) (c : Claim) :
    ((y.updStack s (fun st => { st with claims := st.claims.erase c })).stack s).claims = (y.stack s).claims.erase c := by
  by_cases h40 : s < 40
  · rw [Yard.stack_updStack_same _ _ _ h40]
  · unfold Yard.stack
    rw [getOr_ge _ _ _ (Nat.not_lt.mp h40), getOr_ge _ _ _ (Nat.not_lt.mp h40)]
    rfl

theorem sheds_eraseClaim {p : Nat → Prop} (y : Yard) {s : Nat} (hs : p s) (c : Claim) :
    Yard.Sheds p y (y.updStack s (fun st => { st with claims := st.claims.erase c })) :=
  .setClaims y hs _ fun _ _ => List.erase_sublist.count_le _

/-- R91 to R93, R126: a claim removed without completion. -/
theorem sheds_removeClaim {p : Nat → Prop} (e : Site) (y : Yard) {s : Nat} (hs : p s) (c : Claim) :
    Yard.Sheds p y (removeClaim e y s c) := by
  unfold removeClaim
  split
  · exact ((sheds_eraseClaim y hs c).trans (.repair e _ hs)).trans (.promoteUpTo 4 hs _)
  · exact .refl p y

/-- A claim held at most once, and not to be promoted, is gone once removed. -/
theorem removeClaim_gone (e : Site) (y : Yard) (s : Nat) (c : Claim) (h1 : (y.stack s).claims.count c ≤ 1)
    (hc : ¬y.mayPromote c) : ((removeClaim e y s c).stack s).claims.count c = 0 := by
  unfold removeClaim
  split
  · have herase := sheds_eraseClaim (p := fun _ => True) y (s := s) trivial c
    have hrest := (Yard.Sheds.repair (p := fun _ => True) e
      (y.updStack s (fun st => { st with claims := st.claims.erase c })) (s := s) trivial).trans
        (.promoteUpTo 4 (s := s) trivial _)
    have hle := hrest.claims s c (mt herase.mayPromote hc)
    rw [stack_eraseClaim, List.count_erase_self] at hle
    exact Nat.le_zero.1 (Nat.le_trans hle (by omega))
  · rename_i hnot
    exact List.count_eq_zero.2 (by simpa using hnot)

/-- A claim that the stack does not hold is not removed. -/
theorem removeClaim_absent (e : Site) (y : Yard) (s : Nat) (c : Claim) (h : c ∉ (y.stack s).claims) :
    removeClaim e y s c = y := by
  unfold removeClaim
  exact if_neg (by simpa using h)

/-! ## The claims of a ticket (R132) -/

section
variable (e : Site) (y : Yard) (h : Handle)

/-- The stacks whose claims a ticket can hold: that of its source and its destination. -/
def Ticket.names (t : Ticket) (s : Nat) : Prop := (∃ tier, t.source = some (.stack s tier)) ∨ t.dest = some (.stack s)

theorem sheds_releaseSource (t : Ticket) : Yard.Sheds t.names y (releaseSource e y h t.source) := by
  unfold releaseSource
  split
  · rename_i s tier hsource
    exact sheds_removeClaim e y (.inl ⟨tier, hsource⟩) _
  · exact .refl _ y

theorem sheds_releaseBuried (t : Ticket) (buried : Option Nat) (hb : ∀ s, buried = some s → t.names s) :
    Yard.Sheds t.names y (releaseBuried y buried) := by
  unfold releaseBuried
  split
  · exact .setBuried y (hb _ rfl) _
  · exact .refl _ y

end

end Sys2Proof.Machine
end

