-- ==== Sys2Proof/Proofs/TicketEnd.lean ====
section
/-! PROOF. The end of a ticket (R132, R134): what its stacks, its lane, its piece and the truck bays lose. -/

namespace Sys2Proof.Machine

/-! ## The claims on stacks and the reservation -/

/-- A destination as far as it is not a lane. -/
def notLane : Option Dest → Option Dest
  | some (.lane _) => none
  | d => d

/-- R132: the claims of a ticket on stacks, and its BURIED mark, removed. -/
def releaseStacks (e : Site) (y : Yard) (h : Handle) (t : Ticket) (buried : Option Nat) : Yard :=
  releaseDest e (releaseBuried (releaseSource e y h t.source) buried) h (notLane t.dest)

/-- R132: the reservation of a ticket whose destination is a lane removed. -/
def releaseLane (y : Yard) : Option Dest → Yard
  | some (.lane l) => unreserve y l
  | _ => y

/-- R132: the claims on stacks leave first, then the reservation. -/
theorem releaseClaims_split (e : Site) (y : Yard) (h : Handle) (t : Ticket) (buried : Option Nat) :
    releaseClaims e y h t buried = releaseLane (releaseStacks e y h t buried) t.dest := by
  rw [releaseClaims_eq]
  unfold releaseStacks
  match t.dest with
  | none => rfl
  | some (.stack _) => rfl
  | some (.lane _) => rfl
  | some (.truck _) => rfl
  | some (.bay _) => rfl

section
variable {e : Site} {y : Yard} {h : Handle} {t : Ticket} {buried : Option Nat}

theorem notLane_stack {d : Option Dest} {s : Nat} : notLane d = some (.stack s) ↔ d = some (.stack s) := by
  unfold notLane
  split <;> simp

theorem notLane_ne_lane (d : Option Dest) (l : Nat) : notLane d ≠ some (.lane l) := by
  unfold notLane
  split
  · simp
  · rename_i hd
    exact hd l

/-- R132: what follows the removal of the LIFT claim removes claims of the ticket's stacks. -/
theorem sheds_afterSource (y1 : Yard) (hb : ∀ s, buried = some s → t.names s) :
    Yard.Sheds t.names y1 (releaseDest e (releaseBuried y1 buried) h (notLane t.dest)) := by
  refine (sheds_releaseBuried y1 t buried hb).trans ?_
  unfold releaseDest
  split
  · rename_i s hdest
    exact sheds_removeClaim e _ (.inr (notLane_stack.1 hdest)) _
  · rename_i l hdest
    exact absurd hdest (notLane_ne_lane _ l)
  · exact .refl _ _

theorem sheds_releaseStacks (hb : ∀ s, buried = some s → t.names s) :
    Yard.Sheds t.names y (releaseStacks e y h t buried) :=
  (sheds_releaseSource e y h t).trans (sheds_afterSource _ hb)

/-- R132: the LIFT claim of the ticket is gone. -/
theorem releaseStacks_lift {s tier : Nat} (hs : t.source = some (.stack s tier)) (hb : ∀ i, buried = some i → t.names i)
    (h1 : (y.stack s).claims.count ⟨.lift, h⟩ ≤ 1) (hc : ¬y.mayPromote ⟨.lift, h⟩) :
    ⟨.lift, h⟩ ∉ ((releaseStacks e y h t buried).stack s).claims := by
  have hsource := sheds_releaseSource e y h t
  have hgone : ((releaseSource e y h t.source).stack s).claims.count ⟨.lift, h⟩ = 0 := by
    rw [hs]
    exact removeClaim_gone e y s _ h1 hc
  have hle := (sheds_afterSource (e := e) (h := h) (releaseSource e y h t.source) hb).claims s ⟨.lift, h⟩
    (mt hsource.mayPromote hc)
  rw [hgone] at hle
  exact List.count_eq_zero.1 (Nat.le_zero.1 hle)

/-- R132: the PLACE claim of the ticket is gone. -/
theorem releaseStacks_place {s : Nat} (hd : t.dest = some (.stack s)) (hb : ∀ i, buried = some i → t.names i)
    (h1 : (y.stack s).claims.count ⟨.place, h⟩ ≤ 1) :
    ⟨.place, h⟩ ∉ ((releaseStacks e y h t buried).stack s).claims := by
  have hnot : ∀ z : Yard, ¬z.mayPromote ⟨.place, h⟩ := by
    rintro z ⟨i, u, heq, -⟩
    cases heq
  have hle := ((sheds_releaseSource e y h t).trans (sheds_releaseBuried _ t buried hb)).claims s _ (hnot y)
  unfold releaseStacks
  rw [hd]
  exact List.count_eq_zero.1 (removeClaim_gone e _ s _ (Nat.le_trans hle h1) (hnot _))

/-- R94, R132: the BURIED mark of a ticket without a LIFT claim is taken from the count of its stack. -/
theorem releaseStacks_buried {s tier : Nat} (h40 : s < 40) (hs : t.source = some (.stack s tier))
    (hl : ⟨.lift, h⟩ ∉ (y.stack s).claims) (hd : t.dest ≠ some (.stack s)) :
    (releaseStacks e y h t (some s)).stack s = setBuried ((y.stack s).buried - 1) (y.stack s) := by
  have hsource : releaseSource e y h t.source = y := by
    rw [hs]
    exact removeClaim_absent e y s _ hl
  have hdest : ∀ z, Yard.stack (releaseDest e z h (notLane t.dest)) s = z.stack s := fun z => by
    unfold releaseDest
    split
    · rename_i i hi
      refine (sheds_removeClaim (p := fun j => j = i) e z rfl _).others s ?_
      rintro rfl
      exact hd (notLane_stack.1 hi)
    · rename_i l hi
      exact absurd hi (notLane_ne_lane _ l)
    · rfl
  unfold releaseStacks
  rw [hdest, hsource]
  exact Yard.stack_updStack_same _ _ _ h40

end

/-! ## Lanes and truck bays -/

theorem releaseLane_lane {y : Yard} {d : Option Dest} {l : Nat} (hd : d = some (.lane l)) (hl : l < 2) :
    (releaseLane y d).lane l = { y.lane l with reservations := (y.lane l).reservations - 1 } := by
  rw [hd]
  exact Yard.lane_updLane_same _ _ _ hl

theorem releaseLane_other {y : Yard} {d : Option Dest} {l : Nat} (hd : d ≠ some (.lane l)) :
    (releaseLane y d).lane l = y.lane l := by
  unfold releaseLane
  split
  · rename_i i
    refine Yard.lane_updLane_ne _ _ _ _ ?_
    rintro rfl
    exact hd rfl
  · rfl

/-- Nothing but the lanes changes. -/
theorem releaseLane_rest (y : Yard) (d : Option Dest) : ∃ lanes, releaseLane y d = { y with lanes := lanes } := by
  unfold releaseLane
  split
  · exact ⟨_, rfl⟩
  · exact ⟨y.lanes, rfl⟩

/-- Nothing but the truck bays changes. -/
theorem clearPick_rest (y : Yard) (h : Handle) : clearPick y h = { y with trucks := (clearPick y h).trucks } := rfl

/-- R181: a truck bay without the handle as its current pick. -/
def TruckRecord.withoutPick (h : Handle) (r : TruckRecord) : TruckRecord :=
  if r.currentPick = some h then { r with currentPick := none } else r

theorem truck_withoutPick (y : Yard) (h : Handle) (k n : Nat) :
    (y.updTruck k (.withoutPick h)).truck n = if k = n then (y.truck n).withoutPick h else y.truck n := by
  by_cases hk : k = n
  · subst hk
    by_cases h4 : k < 4
    · rw [if_pos rfl, Yard.truck_updTruck_same _ _ _ h4]
    · unfold Yard.truck
      rw [if_pos rfl, getOr_ge _ _ _ (Nat.not_lt.mp h4), getOr_ge _ _ _ (Nat.not_lt.mp h4)]
      rfl
  · rw [if_neg hk, Yard.truck_updTruck_ne _ _ _ _ hk]

/-- R181: the truck bay whose current pick is the handle loses it. -/
theorem clearPick_truck (y : Yard) (h : Handle) (n : Nat) : (clearPick y h).truck n =
    (y.truck n).withoutPick h := by
  have hpick : clearPick y h = forEach [0, 1, 2, 3] (fun y k => y.updTruck k (.withoutPick h)) y := rfl
  rw [hpick]
  simp only [forEach, List.foldl_cons, List.foldl_nil, truck_withoutPick]
  match n with
  | 0 => rfl
  | 1 => rfl
  | 2 => rfl
  | 3 => rfl
  | m + 4 =>
    have hm : y.truck (m + 4) = .reset := getOr_ge _ _ _ (by omega)
    rw [hm]
    rfl

/-- R11, R132: the piece of the ticket loses its ticket field. -/
theorem clearPieceTicket_slot (y : Yard) (t : Ticket) (j : Nat) (ht : ∃ q, t.piece = some q ∧ q.slot = j) :
    (clearPieceTicket y t).pieceSlot j
      = ⟨(y.pieceSlot j).gen, (y.pieceAt j).map (fun r => { r with ticket := none })⟩ := by
  obtain ⟨q, hq, rfl⟩ := ht
  unfold clearPieceTicket
  simp only [hq]
  by_cases hj : q.slot < 1024
  · exact getOr_upd_same _ _ _ _ hj
  · unfold Yard.pieceAt Yard.pieceSlot
    rw [getOr_ge _ _ _ (Nat.not_lt.mp hj), getOr_ge _ _ _ (Nat.not_lt.mp hj)]
    rfl

theorem clearPieceTicket_other (y : Yard) (t : Ticket) (j : Nat) (ht : ∀ q, t.piece = some q → q.slot ≠ j) :
    (clearPieceTicket y t).pieceSlot j = y.pieceSlot j := by
  unfold clearPieceTicket
  split
  · rename_i q hq
    exact getOr_upd_ne _ _ _ _ _ (ht q hq)
  · rfl

/-- Nothing but the pieces changes. -/
theorem clearPieceTicket_rest (y : Yard) (t : Ticket) : ∃ pieces, clearPieceTicket y t = { y with pieces := pieces } := by
  unfold clearPieceTicket
  split
  · exact ⟨_, rfl⟩
  · exact ⟨y.pieces, rfl⟩

/-- R132: a reservation and the mention of a ticket in its piece write lanes and pieces alone. -/
theorem unpiece_rest (y : Yard) (t : Ticket) :
    ∃ pieces lanes, clearPieceTicket (releaseLane y t.dest) t = { y with pieces := pieces, lanes := lanes } := by
  obtain ⟨lanes, hlanes⟩ := releaseLane_rest y t.dest
  obtain ⟨pieces, hpieces⟩ := clearPieceTicket_rest (releaseLane y t.dest) t
  exact ⟨pieces, lanes, by rw [hpieces, hlanes]⟩

/-! ## The end of a ticket (R132) -/

section
variable {e : Site} {y : Yard} {i : Nat} {t : Ticket} {st : TicketState} {outcome : TicketOutcome}

/-- The yard with a ticket's state and outcome written. -/
def Yard.endMark (y : Yard) (i : Nat) (st : TicketState) (outcome : TicketOutcome) : Yard :=
  y.updTicket i (fun u => { u with state := st, outcome := outcome, waits := .none })

/-- The claims on stacks of a ticket that ends removed. -/
def Yard.endStacks (e : Site) (y : Yard) (i : Nat) (t : Ticket) (st : TicketState) (outcome : TicketOutcome) : Yard :=
  releaseStacks e (y.endMark i st outcome) (y.ticketHandle i) t (buriedIn y i)

/-- R132: a ticket that does not end as DONE: its mark, its claims, its reservation, its piece, the current picks, the finished
list. -/
theorem finishTicket_eq (ht : y.ticketAt i = some t) (hst : st ≠ .done) : finishTicket e y i st outcome =
    { clearPick (clearPieceTicket (releaseLane (y.endStacks e i t st outcome) t.dest) t) (y.ticketHandle i) with
      finished := y.finished ++ [i] } := by
  have hfin : ∀ x : Yard, x.census = (y.endMark i st outcome).census → x.finished = y.finished := fun x hx => by
    rw [show x.finished = x.census.finished from rfl, hx]
    rfl
  unfold finishTicket
  simp only [ht, hst, if_false]
  rw [hfin _ (by rw [census_clearPick, census_clearPieceTicket, census_releaseClaims]; rfl), releaseClaims_split]
  rfl

/-- The stack in which a ticket is buried is its source's. -/
theorem buriedIn_names (ht : y.ticketAt i = some t) (s : Nat) (h : buriedIn y i = some s) : t.names s := by
  obtain ⟨u, hu, -, hsource⟩ := buriedIn_some h
  obtain rfl : t = u := Option.some.inj (ht.symm.trans hu)
  exact .inl hsource

theorem sheds_endStacks (ht : y.ticketAt i = some t) :
    Yard.Sheds t.names (y.endMark i st outcome) (y.endStacks e i t st outcome) :=
  sheds_releaseStacks (buriedIn_names ht)

/-- R132: what the end of a ticket does, the cranes, their links and the truck bays aside. -/
theorem ticketEnds_finishTicket (ht : y.ticketAt i = some t) (hst : st.isActive = false) (hdone : st ≠ .done) :
    y.ticketEnds i t st outcome (finishTicket e y i st outcome) := by
  rw [finishTicket_eq ht hdone]
  have hmark : ∀ j, (y.endMark i st outcome).ticketAt j = if i = j then
      some { t with state := st, outcome := outcome, waits := .none } else y.ticketAt j := fun j => by
    unfold Yard.endMark
    rw [ticketAt_updTicket]
    split
    · rename_i hij
      rw [← hij, ht]
      rfl
    · rfl
  have hnot : ¬(y.endMark i st outcome).mayPromote ⟨.lift, y.ticketHandle i⟩ := by
    rintro ⟨j, u, heq, hu, hwait⟩
    obtain rfl : i = j := congrArg (fun c => c.ticket.slot) heq
    rw [hmark, if_pos rfl] at hu
    obtain rfl := Option.some.inj hu
    rcases hwait with rfl | rfl <;> cases hst
  have hsheds := sheds_endStacks (e := e) (st := st) (outcome := outcome) ht
  have hb := buriedIn_names ht
  have hlift : ∀ s tier, t.source = some (.stack s tier) → (y.stack s).claims.count ⟨.lift, y.ticketHandle i⟩ ≤ 1 →
      ⟨.lift, y.ticketHandle i⟩ ∉ ((y.endStacks e i t st outcome).stack s).claims :=
    fun s tier hs h1 => releaseStacks_lift hs hb h1 hnot
  have hplace : ∀ s, t.dest = some (.stack s) → (y.stack s).claims.count ⟨.place, y.ticketHandle i⟩ ≤ 1 →
      ⟨.place, y.ticketHandle i⟩ ∉ ((y.endStacks e i t st outcome).stack s).claims :=
    fun s hd h1 => releaseStacks_place hd hb h1
  have hburied : ∀ s tier, t.source = some (.stack s tier) → s < 40 → t.state = .pending ∨ t.state = .ready →
      ⟨.lift, y.ticketHandle i⟩ ∉ (y.stack s).claims → t.dest ≠ some (.stack s) →
      (y.endStacks e i t st outcome).stack s = setBuried ((y.stack s).buried - 1) (y.stack s) := by
    intro s tier hs h40 hwait hl hd
    have hin : buriedIn y i = some s := by simp [buriedIn, ht, hs, hwait, holdsLift, hl]
    unfold Yard.endStacks
    rw [hin]
    exact releaseStacks_buried (y := y.endMark i st outcome) h40 hs hl hd
  generalize y.endStacks e i t st outcome = y2 at *
  have hpieces : ∀ j, (releaseLane y2 t.dest).pieceSlot j = y.pieceSlot j := fun j => by
    obtain ⟨lanes, hrest⟩ := releaseLane_rest y2 t.dest
    rw [hrest]
    exact congrArg (fun v => getOr v j (⟨0, none⟩ : PieceSlot)) hsheds.pieces
  have hlanes : ∀ l, y2.lane l = y.lane l := fun l =>
    congrArg (fun v => getOr v l LaneRecord.reset) hsheds.lanes
  have hpiece := clearPieceTicket_slot (releaseLane y2 t.dest) t
  have hother := clearPieceTicket_other (releaseLane y2 t.dest) t
  have hlane : ∀ l, (clearPieceTicket (releaseLane y2 t.dest) t).lane l = (releaseLane y2 t.dest).lane l := fun l => by
    obtain ⟨pieces, hrest⟩ := clearPieceTicket_rest (releaseLane y2 t.dest) t
    rw [hrest]
    rfl
  obtain ⟨pieces, lanes, hrest⟩ := unpiece_rest y2 t
  unfold Yard.pieceAt at *
  simp only [hpieces] at hpiece hother
  rw [clearPick_rest]
  generalize (clearPick _ _).trucks = trucks
  generalize clearPieceTicket (releaseLane y2 t.dest) t = y4 at *
  subst hrest
  refine ⟨?_, fun j => (hsheds.gens j).trans (gen_updTicket _ _ _ _), fun j hj => ?_, rfl,
    hsheds.moveQueue, hsheds.arbiter, hpiece, hother, hsheds.fixed,
    fun s hs hd => hsheds.others s ?_, hlift, fun s tier hs h40 hwait hl hd => ?_, hplace, fun l hd hl => ?_, fun l hd => ?_⟩
  · have hi := hsheds.dests i
    rw [hmark, if_pos rfl] at hi
    rcases hi with hi | hi
    · exact ⟨_, hi, rfl⟩
    · exact ⟨_, hi, rfl⟩
  · have hdests := hsheds.dests j
    rwa [hmark, if_neg (Ne.symm hj)] at hdests
  · rintro (⟨tier, h⟩ | h)
    · exact hs tier h
    · exact hd h
  · have hstack := hburied s tier hs h40 hwait hl hd
    refine ⟨congrArg StackRecord.buried hstack, (congrArg StackRecord.digLock hstack).trans ?_⟩
    exact decide_eq_decide.2 (by omega)
  · exact (hlane l).trans (by rw [releaseLane_lane hd hl, hlanes])
  · exact (hlane l).trans (by rw [releaseLane_other hd, hlanes])

/-- R132, R181: the end of a ticket leaves the cranes and their links, and takes the ticket from the current picks. -/
theorem finishTicket_frame (ht : y.ticketAt i = some t) (hdone : st ≠ .done) :
    (finishTicket e y i st outcome).cranes = y.cranes ∧ (finishTicket e y i st outcome).links = y.links
      ∧ ∀ n, (finishTicket e y i st outcome).truck n = (y.truck n).withoutPick (y.ticketHandle i) := by
  rw [finishTicket_eq ht hdone]
  have hsheds := sheds_endStacks (e := e) (st := st) (outcome := outcome) ht
  obtain ⟨pieces, lanes, hrest⟩ := unpiece_rest (y.endStacks e i t st outcome) t
  rw [hrest]
  refine ⟨hsheds.cranes, hsheds.links, fun n => ?_⟩
  have hpick := clearPick_truck { y.endStacks e i t st outcome with pieces := pieces, lanes := lanes } (y.ticketHandle i) n
  exact hpick.trans (congrArg (fun v => (getOr v n TruckRecord.reset).withoutPick (y.ticketHandle i)) hsheds.trucks)

end

end Sys2Proof.Machine
end

