-- ==== Sys2Proof/Proofs/PickLeft.lean ====
section
/-! PROOF. What becomes of the current pick of an order when its entry leaves the list (R183 to R185). -/

namespace Sys2Proof.Machine

/-! ## Withdrawal (R134, R161) -/

section
variable {e : Site} {y : Yard} {i : Nat} {t : Ticket}

/-- R161: a STOP writes the crane record and the link alone. -/
theorem stopCraneOf_rest (e : Site) (y : Yard) (t : Ticket) :
    stopCraneOf e y t = { y with cranes := (stopCraneOf e y t).cranes, links := (stopCraneOf e y t).links } := by
  unfold stopCraneOf
  split <;> rfl

/-- R161: a ticket that is not GRANTED to a crane stops none. -/
theorem stopCraneOf_none (h : t.state ≠ .granted ∨ t.crane = none) : stopCraneOf e y t = y := by
  unfold stopCraneOf
  split
  · rename_i k hst hk
    rcases h with h | h
    · exact absurd hst h
    · rw [hk] at h
      cases h
  · rfl

/-- R161: the crane of a GRANTED ticket is sent STOP. -/
theorem stopCraneOf_granted {k : Nat} (hst : t.state = .granted) (hk : t.crane = some k) :
    stopCraneOf e y t = sendStop e (y.updCrane k (fun c => { c with stage := none, current := none })) k := by
  simp only [stopCraneOf, hst, hk]

theorem withdraw_eq (ht : y.ticketAt i = some t) :
    withdraw e y i = finishTicket e (stopCraneOf e y t) i .cancelled .withdrawn := by
  simp only [withdraw, ht]

/-- R134: a withdrawn ticket ends. -/
theorem ticketEnds_withdraw (ht : y.ticketAt i = some t) : y.ticketEnds i t .cancelled .withdrawn (withdraw e y i) := by
  rw [withdraw_eq ht, stopCraneOf_rest]
  generalize (stopCraneOf e y t).cranes = cranes
  generalize (stopCraneOf e y t).links = links
  have hend := ticketEnds_finishTicket (e := e) (y := { y with cranes := cranes, links := links }) (st := .cancelled)
    (outcome := .withdrawn) ht rfl (by simp)
  exact hend

/-- R134, R161: the cranes and their links at a withdrawal are those of the STOP. -/
theorem withdraw_frame (ht : y.ticketAt i = some t) :
    (withdraw e y i).cranes = (stopCraneOf e y t).cranes ∧ (withdraw e y i).links = (stopCraneOf e y t).links
      ∧ ∀ n, (withdraw e y i).truck n = (y.truck n).withoutPick (y.ticketHandle i) := by
  rw [withdraw_eq ht, stopCraneOf_rest]
  generalize (stopCraneOf e y t).cranes = cranes
  generalize (stopCraneOf e y t).links = links
  exact finishTicket_frame (e := e) (y := { y with cranes := cranes, links := links }) (st := .cancelled)
    (outcome := .withdrawn) ht (by simp)

/-- R161: STOP to a crane that loses its current ticket: its record and its link. -/
theorem stopped_crane (e : Site) (y : Yard) (k : Nat) (hk : k < 3) (c : CraneRecord) (hc : c = y.crane k) :
    (sendStop e (y.updCrane k (fun c => { c with stage := none, current := none })) k).crane k = { c with
      stage := none
      current := none
      stopOrder := some c.nextSeq
      nextSeq := (c.nextSeq + 1) % 256
      timer := if c.halted then c.timer else some ⟨e.settings.stageTimeout, false⟩ } := by
  rw [sendStop_crane _ _ _ hk, Yard.crane_updCrane_same _ _ _ hk, ← hc]
  unfold CraneRecord.restart
  cases c.halted <;> rfl

theorem stopped_link (e : Site) (y : Yard) (k : Nat) (hk : k < 3) :
    (sendStop e (y.updCrane k (fun c => { c with stage := none, current := none })) k).link k
      = (y.link k).put (linkFrame 0x44 (y.crane k).nextSeq []) := by
  refine (Yard.link_updLink_same _ _ _ hk).trans ?_
  rw [Yard.crane_updCrane_same _ _ _ hk]
  rfl

theorem stopped_other (e : Site) (y : Yard) (k j : Nat) (hj : j ≠ k) :
    (sendStop e (y.updCrane k (fun c => { c with stage := none, current := none })) k).crane j = y.crane j
      ∧ (sendStop e (y.updCrane k (fun c => { c with stage := none, current := none })) k).link j = y.link j := by
  refine ⟨?_, Yard.link_updLink_ne _ _ _ _ hj.symm⟩
  rw [sendStop_crane_ne _ _ _ _ hj.symm, Yard.crane_updCrane_ne _ _ _ _ hj.symm]

/-! ## The laden search (R111, R185) -/

/-- R111: the crane and the stack that the laden search of a ticket finds. -/
def ladenTarget (e : Site) (y : Yard) (t : Ticket) : Option (Nat × Nat) :=
  match t.dest, t.piece, t.source, t.crane with
  | none, some p, some _, some k => (ladenStack e y k p).map (fun s => (k, s))
  | _, _, _, _ => none

/-- R111, R185: a LIFTED ticket is given the stack that the laden search finds. -/
theorem redirectOne_found {k s : Nat} (ht : y.ticketAt i = some t) (hst : t.state = .lifted)
    (hk : ladenTarget e y t = some (k, s)) : redirectOne e y i = giveLaden e y i k s := by
  unfold ladenTarget at hk
  split at hk
  · rename_i p src k' hdest hpiece hsource hcrane
    obtain ⟨s', hs, heq⟩ := Option.map_eq_some_iff.1 hk
    cases heq
    simp only [redirectOne, ht, hdest, hpiece, hsource, hcrane, hst, if_true, hs]
  · cases hk

/-- R111, R185: a LIFTED ticket for which there is no such stack stays as it is. -/
theorem redirectOne_stays (ht : y.ticketAt i = some t) (hst : t.state = .lifted) (hk : ladenTarget e y t = none) :
    redirectOne e y i = y := by
  unfold ladenTarget at hk
  simp only [redirectOne, ht, hst, if_true]
  split
  · split
    · split
      · simp_all
      · rfl
    · rfl
  · rfl

/-- R111: the search of a LIFTED ticket does not look at the truck bays. -/
theorem redirectOne_trucks (v : Vector TruckRecord 4) (ht : y.ticketAt i = some t) (hst : t.state = .lifted) :
    redirectOne e { y with trucks := v } i = { redirectOne e y i with trucks := v } := by
  have hsame : ladenTarget e { y with trucks := v } t = ladenTarget e y t := rfl
  cases hk : ladenTarget e y t with
  | none => rw [redirectOne_stays ht hst hk, redirectOne_stays (y := { y with trucks := v }) ht hst (hsame.trans hk)]
  | some found =>
    rw [redirectOne_found ht hst hk, redirectOne_found (y := { y with trucks := v }) ht hst (hsame.trans hk)]
    rfl

/-- R185: a LIFTED ticket that is searched for keeps its state; a destination given to it is a stack, with REDIRECTED. -/
theorem redirectOne_ticket (ht : y.ticketAt i = some t) (hst : t.state = .lifted) (hd : t.dest = none) :
    ∃ u, (redirectOne e y i).ticketAt i = some u ∧ u.state = .lifted
      ∧ (u.dest = none ∨ u.redirected = true ∧ ∃ s, u.dest = some (.stack s)) := by
  cases hk : ladenTarget e y t with
  | none => exact ⟨t, by rw [redirectOne_stays ht hst hk, ht], hst, .inl hd⟩
  | some found =>
    obtain ⟨k, s⟩ := found
    rw [redirectOne_found ht hst hk]
    have hgiven : (giveLaden e y i k s).ticketAt i = (y.updTicket i (fun u => { u with
        dest := some (.stack s), redirected := true, waits := { u.waits with redirect := false } })).ticketAt i := rfl
    rw [hgiven, ticketAt_updTicket, if_pos rfl, ht]
    exact ⟨_, rfl, hst, .inr ⟨rfl, s, rfl⟩⟩

/-- The search of a LIFTED ticket writes no piece, no truck bay and not the finished list. -/
theorem redirectOne_frame (ht : y.ticketAt i = some t) (hst : t.state = .lifted) :
    (redirectOne e y i).pieces = y.pieces ∧ (redirectOne e y i).trucks = y.trucks
      ∧ (redirectOne e y i).finished = y.finished := by
  cases hk : ladenTarget e y t with
  | none =>
    rw [redirectOne_stays ht hst hk]
    exact ⟨rfl, rfl, rfl⟩
  | some found =>
    rw [redirectOne_found ht hst hk]
    exact ⟨rfl, rfl, rfl⟩

/-! ## The current pick dealt with (R183) -/

/-- R185: a ticket that has lost its destination waits under REDIRECT. -/
theorem ticketAt_loseDest (ht : y.ticketAt i = some t) :
    (loseDest y i).ticketAt i = some { t with dest := none, waits := { t.waits with redirect := true } } := by
  unfold loseDest
  rw [ticketAt_updTicket, if_pos rfl, ht]
  rfl

theorem updTicket_slot (y : Yard) (i : Nat) (f : Ticket → Ticket) (h : i < 24) :
    (y.updTicket i f).ticketSlot i = ⟨(y.ticketSlot i).gen, (y.ticketAt i).map f⟩ := by
  unfold Yard.ticketSlot
  rw [Yard.updTicket_tickets, getOr_upd_same _ _ _ _ h]
  rfl

theorem updTicket_slot_ne (y : Yard) (i j : Nat) (f : Ticket → Ticket) (h : j ≠ i) :
    (y.updTicket i f).ticketSlot j = y.ticketSlot j := by
  unfold Yard.ticketSlot
  rw [Yard.updTicket_tickets, getOr_upd_ne _ _ _ _ _ h.symm]

/-- R183: the current pick is left by its state, the truck bays aside, whatever stands in them. -/
theorem pickLeft_dealWithPick (ht : y.ticketAt i = some t) (v w : Vector TruckRecord 4) :
    y.pickLeft e i t { dealWithPick e { y with trucks := v } i with trucks := w } := by
  have hlt := y.ticketAt_lt i t ht
  have hv : Yard.ticketAt { y with trucks := v } i = some t := ht
  refine ⟨fun hst => ?_, fun hst => ?_, fun hst => ?_, fun hst => ?_⟩
  · rw [dealWithPick_waiting e _ i t hv hst]
    have hends : Yard.ticketEnds y i t .cancelled .withdrawn (withdraw e { y with trucks := v } i) :=
      ticketEnds_withdraw (y := { y with trucks := v }) hv
    obtain ⟨hcranes, hlinks, -⟩ := withdraw_frame (e := e) hv
    refine ⟨hends, fun hnot => ?_, fun k c hgranted hk hk3 hc => ?_⟩
    · rw [stopCraneOf_none hnot] at hcranes hlinks
      exact ⟨hcranes, hlinks⟩
    · rw [stopCraneOf_granted hgranted hk] at hcranes hlinks
      have hcrane := fun j => congrArg (fun cs => getOr cs j (CraneRecord.reset 0)) hcranes
      have hlink := fun j => congrArg (fun ls => getOr ls j (⟨none, []⟩ : CraneLine)) hlinks
      refine ⟨(hcrane k).trans (stopped_crane e _ k hk3 c hc), (hlink k).trans ?_,
        fun j hj => ⟨(hcrane j).trans ?_, (hlink j).trans ?_⟩⟩
      · rw [hc]
        exact stopped_link e { y with trucks := v } k hk3
      · exact (stopped_other e { y with trucks := v } k j hj).1
      · exact (stopped_other e { y with trucks := v } k j hj).2
  · rw [dealWithPick_lifting e _ i t hv hst]
    refine ⟨?_, fun j hj => updTicket_slot_ne y i j _ hj, rfl⟩
    refine (ticketAt_updTicket y i i _).trans ?_
    rw [if_pos rfl, ht]
    rfl
  · rw [dealWithPick_lifted e _ i t hv hst]
    refine ⟨loseDest y i, ?_, fun j hj => updTicket_slot_ne y i j _ hj, rfl, ?_⟩
    · refine (updTicket_slot y i _ hlt).trans ?_
      rw [ht]
      rfl
    · have hladen := redirectOne_trucks (e := e) v (ticketAt_loseDest ht) hst
      obtain ⟨-, htrucks, -⟩ := redirectOne_frame (e := e) (ticketAt_loseDest ht) hst
      rw [show loseDest { y with trucks := v } i = { loseDest y i with trucks := v } from rfl, hladen]
      rw [show y.trucks = (redirectOne e (loseDest y i) i).trucks from htrucks.symm]
  · rw [dealWithPick_stays e _ i t hv hst]

end

end Sys2Proof.Machine
end

