-- ==== Sys2Proof/Proofs/HoldBars.lean ====
section
/-! PROOF. HOLD (R17): the piece leaves its order, and the current pick of the order is dealt with (R16, R182, R183). -/

namespace Sys2Proof.Machine

/-! ## The entry of a piece leaves the list (R183) -/

section
variable {e : Site} {y : Yard} {k i : Nat} {h : Handle}

/-- R183: a truck bay without the entry of a piece. -/
def TruckRecord.strike (h : Handle) (r : TruckRecord) : TruckRecord :=
  { r with orderList := r.orderList.erase h, flagChanged := true }

/-- R182: a truck bay after its completion test. -/
def TruckRecord.tested (r : TruckRecord) : TruckRecord :=
  if r.state = .opened ∧ r.orderList ≠ [] ∧ r.nextIndex = r.orderList.length then
    { r with state := .complete, flagComplete := true }
  else r

/-- R183: the entry at next index leaves the list. -/
def leaveNext (e : Site) (y : Yard) (k : Nat) (h : Handle) : Yard :=
  completionTest (dropCurrentPick e (y.updTruck k (.strike h)) k) k

/-- R183: an entry leaves the list. -/
def leaveList (e : Site) (y : Yard) (k : Nat) (h : Handle) : Yard :=
  if (y.truck k).orderList.idxOf h = (y.truck k).nextIndex then leaveNext e y k h else y.updTruck k (.strike h)

/-- R16: a hold added to an unlisted piece. -/
theorem addHold_unlisted {p : Piece} {has : Holds → Bool} {set : Holds → Holds} (hp : y.pieceAt h.slot = some p)
    (hhas : has p.holds = false) (ho : p.order = none) :
    addHold e y h has set = y.updPiece h.slot (fun r => { r with holds := set r.holds }) := by
  have hat := Yard.pieceAt_updPiece_same y h.slot (fun r => { r with holds := set r.holds }) (y.pieceAt_lt _ _ hp)
  simp [addHold, hp, hhas, listingEnd, hat, ho]

/-- R16, R183: a hold added to a listed piece ends its listing. -/
theorem addHold_listed {p : Piece} {has : Holds → Bool} {set : Holds → Holds} (hp : y.pieceAt h.slot = some p)
    (hhas : has p.holds = false) (ho : p.order = some k) :
    addHold e y h has set = leaveList e ((y.updPiece h.slot (fun r => { r with holds := set r.holds })).updPiece h.slot
      (fun r => { r with order := none })) k h := by
  have hat := Yard.pieceAt_updPiece_same y h.slot (fun r => { r with holds := set r.holds }) (y.pieceAt_lt _ _ hp)
  have hord : ((y.updPiece h.slot (fun r => { r with holds := set r.holds })).pieceAt h.slot).bind (fun r => r.order)
      = some k := by
    rw [hat, hp]
    exact ho
  simp only [addHold, hp, hhas, listingEnd, hord, decide_eq_true_eq]
  rfl

/-! ## The current pick -/

/-- The truck bays when a current pick is dealt with: one whose current pick it is may lose it. -/
theorem dealWithPick_truck (e : Site) (y : Yard) (i n : Nat) : (dealWithPick e y i).truck n = y.truck n
    ∨ (y.truck n).currentPick = some (y.ticketHandle i)
      ∧ (dealWithPick e y i).truck n = { y.truck n with currentPick := none } := by
  cases ht : y.ticketAt i with
  | none => exact .inl (by simp only [dealWithPick, ht])
  | some t =>
    rcases t.state.pick_cases with hst | hst | hst | hst
    · rw [dealWithPick_waiting e y i t ht hst]
      obtain ⟨-, -, htruck⟩ := withdraw_frame (e := e) ht
      rw [htruck]
      unfold TruckRecord.withoutPick
      split
      · rename_i hpick
        exact .inr ⟨hpick, rfl⟩
      · exact .inl rfl
    · rw [dealWithPick_lifting e y i t ht hst]
      exact .inl rfl
    · rw [dealWithPick_lifted e y i t ht hst]
      obtain ⟨-, htrucks, -⟩ := redirectOne_frame (e := e) (ticketAt_loseDest ht) hst
      exact .inl (congrArg (fun v => getOr v n TruckRecord.reset) htrucks)
    · exact .inl (by rw [dealWithPick_stays e y i t ht hst])

/-- The pieces when a current pick is dealt with: one may lose its ticket field. -/
theorem dealWithPick_piece (e : Site) (y : Yard) (i j : Nat) : (dealWithPick e y i).pieceSlot j = y.pieceSlot j
    ∨ (dealWithPick e y i).pieceSlot j = ⟨(y.pieceSlot j).gen, (y.pieceAt j).map (fun r => { r with ticket := none })⟩ := by
  cases ht : y.ticketAt i with
  | none => exact .inl (by simp only [dealWithPick, ht])
  | some t =>
    rcases t.state.pick_cases with hst | hst | hst | hst
    · rw [dealWithPick_waiting e y i t ht hst]
      obtain ⟨-, -, -, -, -, -, hpiece, hother, -⟩ := ticketEnds_withdraw (e := e) ht
      by_cases hj : ∃ q, t.piece = some q ∧ q.slot = j
      · exact .inr (hpiece j hj)
      · exact .inl (hother j fun q hq hqj => hj ⟨q, hq, hqj⟩)
    · rw [dealWithPick_lifting e y i t ht hst]
      exact .inl rfl
    · rw [dealWithPick_lifted e y i t ht hst]
      obtain ⟨hpieces, -⟩ := redirectOne_frame (e := e) (ticketAt_loseDest ht) hst
      exact .inl (congrArg (fun v => getOr v j (⟨0, none⟩ : PieceSlot)) hpieces)
    · exact .inl (by rw [dealWithPick_stays e y i t ht hst])

/-- R183: the current pick of a truck bay dealt with, before it leaves the bay. -/
def currentPickLeft (e : Site) (y : Yard) (k : Nat) : Yard :=
  match (y.truck k).currentPick with
  | some pick => dealWithPick e y pick.slot
  | none => y

/-- R183: beside the truck bays, the entry at next index leaves what the current pick leaves. -/
theorem leaveNext_rest (e : Site) (y : Yard) (k : Nat) (h : Handle) : leaveNext e y k h =
    { currentPickLeft e (y.updTruck k (.strike h)) k with trucks := (leaveNext e y k h).trucks } := rfl

theorem currentPickLeft_none (hk : k < 4) (hpick : (y.truck k).currentPick = none) :
    currentPickLeft e (y.updTruck k (.strike h)) k = y.updTruck k (.strike h) := by
  have hcur : ((y.updTruck k (.strike h)).truck k).currentPick = none := by
    rw [Yard.truck_updTruck_same _ _ _ hk]
    exact hpick
  simp only [currentPickLeft, hcur]

theorem currentPickLeft_some {pick : Handle} (hk : k < 4) (hpick : (y.truck k).currentPick = some pick) :
    currentPickLeft e (y.updTruck k (.strike h)) k = dealWithPick e (y.updTruck k (.strike h)) pick.slot := by
  have hcur : ((y.updTruck k (.strike h)).truck k).currentPick = some pick := by
    rw [Yard.truck_updTruck_same _ _ _ hk]
    exact hpick
  simp only [currentPickLeft, hcur]

/-- R183: an order without a current pick: nothing but the truck bays changes. -/
theorem leaveNext_none (hk : k < 4) (hpick : (y.truck k).currentPick = none) :
    { leaveNext e y k h with trucks := y.trucks } = y := by
  rw [leaveNext_rest, currentPickLeft_none hk hpick]
  rfl

/-- R183: the current pick of an order is left by its state. -/
theorem leaveNext_pickLeft {pick : Handle} {t : Ticket} (hk : k < 4) (hpick : (y.truck k).currentPick = some pick)
    (ht : y.ticketAt pick.slot = some t) : y.pickLeft e pick.slot t (leaveNext e y k h) := by
  rw [leaveNext_rest, currentPickLeft_some hk hpick]
  exact pickLeft_dealWithPick ht (y.updTruck k (.strike h)).trucks _

/-- R183: the truck bays when the current pick is dealt with. -/
theorem currentPickLeft_truck (e : Site) (y : Yard) (k n : Nat) : (currentPickLeft e y k).truck n = y.truck n
    ∨ ∃ pick, (y.truck k).currentPick = some pick ∧ (y.truck n).currentPick = some (y.ticketHandle pick.slot)
      ∧ (currentPickLeft e y k).truck n = { y.truck n with currentPick := none } := by
  unfold currentPickLeft
  split
  · rename_i pick hpick
    rcases dealWithPick_truck e y pick.slot n with hn | ⟨hn, hn'⟩
    · exact .inl hn
    · exact .inr ⟨pick, hpick, hn, hn'⟩
  · exact .inl rfl

/-- R182, R183: the truck bay of the order. -/
theorem leaveNext_truck (hk : k < 4) :
    (leaveNext e y k h).truck k = TruckRecord.tested { (y.truck k).strike h with currentPick := none } := by
  have hstrike : (y.updTruck k (.strike h)).truck k = (y.truck k).strike h := Yard.truck_updTruck_same _ _ _ hk
  have hleft : { (currentPickLeft e (y.updTruck k (.strike h)) k).truck k with currentPick := none }
      = { (y.truck k).strike h with currentPick := none } := by
    rcases currentPickLeft_truck e (y.updTruck k (.strike h)) k k with hn | ⟨pick, -, -, hn⟩ <;> rw [hn, hstrike]
  have hdrop : (dropCurrentPick e (y.updTruck k (.strike h)) k).truck k
      = { (currentPickLeft e (y.updTruck k (.strike h)) k).truck k with currentPick := none } :=
    Yard.truck_updTruck_same _ _ _ hk
  refine (Yard.truck_updTruck_same _ _ _ hk).trans ?_
  rw [hdrop, hleft]
  rfl

/-- R183: another truck bay is as it was, or its current pick was the one that ended. -/
theorem leaveNext_truck_ne {n : Nat} (hn : n ≠ k) (hk : k < 4) : (leaveNext e y k h).truck n = y.truck n
    ∨ ∃ pick, (y.truck k).currentPick = some pick ∧ (y.truck n).currentPick = some (y.ticketHandle pick.slot)
      ∧ (leaveNext e y k h).truck n = { y.truck n with currentPick := none } := by
  have hstrike : (y.updTruck k (.strike h)).truck k = (y.truck k).strike h := Yard.truck_updTruck_same _ _ _ hk
  have hother : (y.updTruck k (.strike h)).truck n = y.truck n := Yard.truck_updTruck_ne _ _ _ _ hn.symm
  have hleave : (leaveNext e y k h).truck n = (currentPickLeft e (y.updTruck k (.strike h)) k).truck n :=
    (Yard.truck_updTruck_ne _ _ _ _ hn.symm).trans (Yard.truck_updTruck_ne _ _ _ _ hn.symm)
  have hcases := currentPickLeft_truck e (y.updTruck k (.strike h)) k n
  rw [hother, hstrike] at hcases
  rw [hleave]
  exact hcases

theorem currentPickLeft_piece (e : Site) (y : Yard) (k j : Nat) : (currentPickLeft e y k).pieceSlot j = y.pieceSlot j
    ∨ (currentPickLeft e y k).pieceSlot j = ⟨(y.pieceSlot j).gen, (y.pieceAt j).map (fun r => { r with ticket := none })⟩ := by
  unfold currentPickLeft
  split
  · exact dealWithPick_piece e y _ j
  · exact .inl rfl

/-! ## The entry leaves, at next index or elsewhere -/

theorem leaveList_next (h1 : (y.truck k).orderList.idxOf h = (y.truck k).nextIndex) :
    leaveList e y k h = leaveNext e y k h := if_pos h1

theorem leaveList_other (h1 : (y.truck k).orderList.idxOf h ≠ (y.truck k).nextIndex) :
    leaveList e y k h = y.updTruck k (.strike h) := if_neg h1

/-- R132: a piece keeps its record but for its ticket field. -/
theorem leaveList_piece {p : Piece} {j : Nat} (hp : y.pieceAt j = some p) :
    ∃ t, (leaveList e y k h).pieceAt j = some { p with ticket := t } := by
  by_cases h1 : (y.truck k).orderList.idxOf h = (y.truck k).nextIndex
  · rw [leaveList_next h1]
    have hcases : (leaveNext e y k h).pieceSlot j = y.pieceSlot j ∨ (leaveNext e y k h).pieceSlot j
        = ⟨(y.pieceSlot j).gen, (y.pieceAt j).map (fun r => { r with ticket := none })⟩ :=
      currentPickLeft_piece e (y.updTruck k (.strike h)) k j
    unfold Yard.pieceAt at hp ⊢
    rcases hcases with hj | hj <;> rw [hj]
    · exact ⟨p.ticket, hp⟩
    · refine ⟨none, ?_⟩
      show (y.pieceSlot j).piece.map _ = _
      rw [hp]
      rfl
  · rw [leaveList_other h1]
    exact ⟨p.ticket, hp⟩

/-- R182: the completion test writes the state and the COMPLETE flag alone. -/
theorem TruckRecord.tested_fields (r : TruckRecord) : r.tested.orderList = r.orderList
    ∧ r.tested.flagChanged = r.flagChanged ∧ r.tested.nextIndex = r.nextIndex ∧ r.tested.pieces = r.pieces
    ∧ r.tested.currentPick = r.currentPick := by
  unfold TruckRecord.tested
  split <;> exact ⟨rfl, rfl, rfl, rfl, rfl⟩

/-- R183: the order of the bay loses the entry; its next index and the loaded pieces stay. -/
theorem leaveList_order (hk : k < 4) : ((leaveList e y k h).truck k).orderList = (y.truck k).orderList.erase h
    ∧ ((leaveList e y k h).truck k).flagChanged = true
    ∧ ((leaveList e y k h).truck k).nextIndex = (y.truck k).nextIndex
    ∧ ((leaveList e y k h).truck k).pieces = (y.truck k).pieces := by
  by_cases h1 : (y.truck k).orderList.idxOf h = (y.truck k).nextIndex
  · rw [leaveList_next h1, leaveNext_truck hk]
    obtain ⟨hlist, hflag, hnext, hpieces, -⟩ :=
      TruckRecord.tested_fields { (y.truck k).strike h with currentPick := none }
    exact ⟨hlist, hflag, hnext, hpieces⟩
  · rw [leaveList_other h1, Yard.truck_updTruck_same _ _ _ hk]
    exact ⟨rfl, rfl, rfl, rfl⟩

/-- R183: another truck bay is as it was, or its current pick was the one that ended. -/
theorem leaveList_truck_ne {n : Nat} (hn : n ≠ k) (hk : k < 4) : (leaveList e y k h).truck n = y.truck n
    ∨ ∃ pick, (y.truck k).currentPick = some pick ∧ (y.truck n).currentPick = some (y.ticketHandle pick.slot)
      ∧ (leaveList e y k h).truck n = { y.truck n with currentPick := none } := by
  by_cases h1 : (y.truck k).orderList.idxOf h = (y.truck k).nextIndex
  · rw [leaveList_next h1]
    exact leaveNext_truck_ne hn hk
  · rw [leaveList_other h1]
    exact .inl (Yard.truck_updTruck_ne _ _ _ _ hn.symm)

/-! ## The ticket of the current pick -/

/-- R134: a current pick that no crane has lifted from ends CANCELLED, with the outcome WITHDRAWN. -/
theorem pickLeft_waiting {t : Ticket} {y1 : Yard} (hleft : y.pickLeft e i t y1)
    (hst : t.state = .pending ∨ t.state = .ready ∨ t.state = .granted) : y1.finished = y.finished ++ [i]
      ∧ ∃ u, y1.ticketAt i = some u ∧ u.state = .cancelled ∧ u.outcome = .withdrawn := by
  obtain ⟨hwaiting, -⟩ := hleft
  obtain ⟨⟨⟨u, hu, heq⟩, -, -, hfin, -⟩, -⟩ := hwaiting hst
  exact ⟨hfin, u, hu, (congrArg Ticket.state heq :), (congrArg Ticket.outcome heq :)⟩

/-- R184: a current pick in LIFTING takes the hold-pending mark and does not end. -/
theorem pickLeft_lifting {t : Ticket} {y1 : Yard} (hleft : y.pickLeft e i t y1) (hst : t.state = .lifting) :
    y1.ticketAt i = some { t with holdPending := true } ∧ y1.finished = y.finished := by
  obtain ⟨-, hlifting, -⟩ := hleft
  obtain ⟨hticket, -, hrest⟩ := hlifting hst
  exact ⟨hticket, (congrArg Yard.finished hrest :)⟩

/-- R185: a current pick in LIFTED goes on without a destination or to a stack, and does not end. -/
theorem pickLeft_lifted {t : Ticket} {y1 : Yard} (hleft : y.pickLeft e i t y1) (hst : t.state = .lifted) :
    y1.finished = y.finished ∧ ∃ u, y1.ticketAt i = some u ∧ u.state = .lifted
      ∧ (u.dest = none ∨ u.redirected = true ∧ ∃ s, u.dest = some (.stack s)) := by
  obtain ⟨-, -, hlifted, -⟩ := hleft
  obtain ⟨y0, hslot, -, hrest, hone⟩ := hlifted hst
  have hticket : y0.ticketAt i = some { t with dest := none, waits := { t.waits with redirect := true } } :=
    congrArg TicketSlot.ticket hslot
  obtain ⟨-, -, hfin⟩ := redirectOne_frame (e := e) hticket hst
  obtain ⟨u, hu, hstate, hdest⟩ := redirectOne_ticket (e := e) hticket hst rfl
  refine ⟨?_, u, ?_, hstate, hdest⟩
  · calc y1.finished = (redirectOne e y0 i).finished := (congrArg Yard.finished hone :)
      _ = y0.finished := hfin
      _ = y.finished := (congrArg Yard.finished hrest :)
  · exact (congrArg (fun z : Yard => z.ticketAt i) hone :).trans hu

end

/-! ## HOLD (R17) -/

/-- R16, R17: the hold of value 1 or 2 is added as every hold is. -/
theorem added_hold (e : Site) (y : Yard) (h : Handle) (v : Nat) (hv : v = 1 ∨ v = 2) :
    ∃ (has : Holds → Bool) (set : Holds → Holds),
      (if v = 1 then addQc e y h else addDamage e y h) = addHold e y h has set
      ∧ (∀ hs, has hs = true ↔ v = 1 ∧ hs.qc = true ∨ v = 2 ∧ hs.damage = true)
      ∧ ∀ hs, set hs = { hs with qc := hs.qc || decide (v = 1), damage := hs.damage || decide (v = 2) } := by
  rcases hv with rfl | rfl
  · exact ⟨fun hs => hs.qc, fun hs => { hs with qc := true }, if_pos rfl, by simp, by simp⟩
  · exact ⟨fun hs => hs.damage, fun hs => { hs with damage := true }, if_neg (by decide), by simp, by simp⟩

/-- Two changes of one piece, on its slot and on the others. -/
theorem updPiece_twice {y : Yard} {h : Handle} {p : Piece} (f g : Piece → Piece) (hp : y.piece? h = some p) :
    ((y.updPiece h.slot f).updPiece h.slot g).pieceSlot h.slot = ⟨h.gen, some (g (f p))⟩ := by
  obtain ⟨hgen, hat⟩ := Yard.piece?_eq_some.1 (Yard.piece?_updPiece g (Yard.piece?_updPiece f hp))
  exact congrArg₂ PieceSlot.mk hgen hat

/-- Settles O21: the checks in their order, then the hold added, the entry struck and the current pick left by its state. -/
theorem holdBarsThePiece : Obligations.HoldBarsThePiece := by
  intro hd h v s hs hopen
  refine ⟨fun hstale => ?_, fun p hp => ⟨fun h1 h2 => ?_, fun hv => ⟨fun htruck => ?_, fun htruck hset => ?_,
    fun htruck hset => ?_⟩⟩⟩
  · exact exec_refused rfl hs (by simp) (by simp [runCommand, xHold, hopen, hstale, refuse, refuseWith])
  · exact exec_refused rfl hs (by simp) (by simp [runCommand, xHold, hopen, hp, h1, h2, refuse, refuseWith])
  · exact exec_refused rfl hs (by simp)
      (by rcases hv with rfl | rfl <;> simp [runCommand, xHold, hopen, hp, htruck, refuse, refuseWith])
  · exact exec_refused rfl hs (by simp)
      (by rcases hv with rfl | rfl <;> simp [runCommand, xHold, hopen, hp, htruck, hset, refuse, refuseWith])
  obtain ⟨has, set, hadd, hhas, hnew⟩ := added_hold s.plant.site s.plant.yard h v hv
  obtain ⟨hgen, hat⟩ := Yard.piece?_eq_some.1 hp
  refine ⟨addHold s.plant.site s.plant.yard h has set, ?_, fun hheld => ?_, fun hnot held hheld => ⟨fun ho => ?_,
    fun k ho hk => ?_⟩⟩
  · refine exec_accepted (c := .hold h v) rfl hs (by simp) ?_
    rw [← hadd]
    rcases hv with rfl | rfl <;> simp [runCommand, xHold, hopen, hp, htruck, hset] <;> rfl
  · rw [← hhas] at hheld
    simp [addHold, hat, hheld]
  all_goals
    have hfalse : has p.holds = false := by
      rw [← hhas] at hnot
      simpa using hnot
    rw [← hnew] at hheld
    subst hheld
  · rw [addHold_unlisted hat hfalse ho]
    refine ⟨?_, fun i hi => Yard.pieceSlot_updPiece_ne _ _ _ _ hi, rfl⟩
    rw [Yard.pieceAt_updPiece_same _ _ _ (Yard.pieceAt_lt _ _ _ hat), hat]
    rfl
  · rw [addHold_listed hat hfalse ho]
    have hslot := updPiece_twice (fun r => { r with holds := set r.holds }) (fun r => { r with order := none }) hp
    have hother : ∀ i, i ≠ h.slot → ((s.plant.yard.updPiece h.slot (fun r => { r with holds := set r.holds })).updPiece h.slot
        (fun r => { r with order := none })).pieceSlot i = s.plant.yard.pieceSlot i := fun i hi => by
      rw [Yard.pieceSlot_updPiece_ne _ _ _ _ hi, Yard.pieceSlot_updPiece_ne _ _ _ _ hi]
    generalize hya : (s.plant.yard.updPiece h.slot (fun r => { r with holds := set r.holds })).updPiece h.slot
      (fun r => { r with order := none }) = ya at *
    have hrest : { ya with pieces := s.plant.yard.pieces } = s.plant.yard := by rw [← hya]; rfl
    have htrucks : ∀ n, ya.truck n = s.plant.yard.truck n := fun n => by rw [← hya]; rfl
    have htickets : ya.tickets = s.plant.yard.tickets := by rw [← hya]; rfl
    have hfinished : ya.finished = s.plant.yard.finished := by rw [← hya]; rfl
    have horder := leaveList_order (e := s.plant.site) (y := ya) (h := h) hk
    rw [htrucks] at horder
    obtain ⟨hlist, hflag, hnext, hpieces⟩ := horder
    refine ⟨leaveList_piece (congrArg PieceSlot.piece hslot), hlist, hflag, hnext, hpieces,
      ⟨ya, hslot, hother, hrest, ?_⟩, ?_, ?_⟩
    · rintro t atNext done rfl hatNext hdone
      rw [← htrucks] at hatNext hdone
      refine ⟨fun hn => ?_, fun hn => ?_, fun hn => ?_, fun n hn => ?_⟩
      · rw [leaveList_other (mt hatNext.2 hn), Yard.truck_updTruck_same _ _ _ hk, htrucks]
        exact ⟨rfl, rfl⟩
      · rw [leaveList_next (hatNext.1 hn), leaveNext_truck hk, ← htrucks]
        exact ⟨fun hd => if_pos (hdone.1 hd), fun hd => if_neg (mt hdone.2 hd)⟩
      · rw [leaveList_next (hatNext.1 hn), ← htrucks]
        exact ⟨leaveNext_none hk, fun pick u hpick hu => leaveNext_pickLeft hk hpick hu⟩
      · rw [← htrucks n, ← htrucks k]
        rcases leaveList_truck_ne (e := s.plant.site) (y := ya) (h := h) hn hk with hsame | ⟨pick, hpick, hown, hsame⟩
        · rw [hsame]
          exact ⟨rfl, fun _ => rfl⟩
        · rw [hsame]
          exact ⟨rfl, fun hnone => absurd hown (hnone pick hpick)⟩
    · intro h1
      rw [← htrucks] at h1 ⊢
      rw [leaveList_other h1, Yard.truck_updTruck_same _ _ _ hk]
      exact ⟨htickets, hfinished, rfl⟩
    · intro h1
      rw [← htrucks] at h1 ⊢
      rw [leaveList_next h1, leaveNext_truck hk]
      obtain ⟨-, -, -, -, hpick⟩ := TruckRecord.tested_fields { (ya.truck k).strike h with currentPick := none }
      refine ⟨hpick, fun pick t hcur ht => ?_⟩
      have hleft := leaveNext_pickLeft (e := s.plant.site) (h := h) hk hcur
        ((congrArg (fun v => (getOr v pick.slot (⟨0, none⟩ : TicketSlot)).ticket) htickets).trans ht)
      rw [← hfinished]
      exact ⟨pickLeft_waiting hleft, pickLeft_lifting hleft, pickLeft_lifted hleft⟩

end Sys2Proof.Machine
end

