-- ==== Sys2Proof/Proofs/Sparing.lean ====
section
/-! PROOF. What the invariants of the ranges and of the work under way read of the yard, and the relation in which every
operation of the yard stands to it: the operation keeps the ranges, and it leaves the work of every crane but one and of every
ticket slot but one as it is. -/

namespace Sys2Proof.Machine

/-! ## Every record of a vector after a change of one -/

section
variable {α β : Type} {n : Nat}

/-- What holds of every record holds after a change of one that keeps it. -/
theorem forall_getOr_upd {P : α → Prop} (v : Vector α n) (i : Nat) (f : α → α) (d : α)
    (hf : P (getOr v i d) → P (f (getOr v i d))) (h : ∀ j, P (getOr v j d)) (j : Nat) : P (getOr (upd v i f) j d) := by
  by_cases hi : i < n
  · rw [getOr_upd _ _ _ _ _ hi]
    split
    · rename_i hij
      subst hij
      exact hf (h i)
    · exact h j
  · rw [upd_ge _ _ _ (Nat.not_lt.mp hi)]
    exact h j

/-- A projection that a change of one record does not see reads as before of every record. -/
theorem proj_getOr_upd (g : α → β) (v : Vector α n) (i : Nat) (f : α → α) (d : α)
    (hf : g (f (getOr v i d)) = g (getOr v i d))
    (j : Nat) :
    g (getOr (upd v i f) j d) = g (getOr v j d) := by
  by_cases hi : i < n
  · rw [getOr_upd _ _ _ _ _ hi]
    split
    · rename_i hij
      subst hij
      exact hf
    · rfl
  · rw [upd_ge _ _ _ (Nat.not_lt.mp hi)]

end

/-! ## The ranges of the yard's records -/

/-- R155, R162: the sequence number of a crane is a byte and its report timer, while it runs, has 1 to 60 minutes; `quiet` says
that no timer event is still to be taken. -/
def CraneRecord.inRange (quiet : Bool) (c : CraneRecord) : Prop :=
  c.nextSeq < 256 ∧ ∀ m, c.timer = some m → (1 ≤ m.minutes ∧ m.minutes ≤ 60) ∧ (quiet = true → m.due = false)

/-- R155, R156: a current ticket, a halt and a fault code each only in the states that have them. -/
def CraneRecord.lawful (c : CraneRecord) : Prop :=
  (c.current.isSome = true → c.state = .busy ∨ c.state = .stopped) ∧ (c.halted = true → c.state = .stopped)
    ∧ (c.faultCode ≠ .none → c.state = .faulted)

/-- R113: the levels of a ticket. -/
def Ticket.inRange (t : Ticket) : Prop := t.baseLevel < 4 ∧ t.level < 4

/-- R94: the dig lock of a stack is set exactly while its buried count is above 0. -/
def StackRecord.locked (r : StackRecord) : Prop := r.digLock = decide (0 < r.buried)

/-- R98, R113, R155, R168, R174: the records of the yard are in their ranges. -/
structure Yard.ranged (quiet : Bool) (y : Yard) : Prop where
  lanes   : ∀ l, (y.lane l).demand < 4
  trucks  : ∀ k, (y.truck k).level < 4
  tickets : ∀ slot t, y.ticketAt slot = some t → t.inRange
  cranes  : ∀ k, (y.crane k).inRange quiet
  homes   : (y.crane 0).homeBay < (y.crane 1).homeBay ∧ (y.crane 1).homeBay < (y.crane 2).homeBay
    ∧ (y.crane 2).homeBay < 64

/-- R26, R215: the settings and the turnover levels that the move machinery reads are in their ranges. -/
def Site.inRange (e : Site) : Prop := e.settings.ok = true ∧ ∀ b, (getOr e.beds b .reset).turnover < 4

theorem Site.stageTimeout_range {e : Site} (h : e.inRange) : 1 ≤ e.settings.stageTimeout ∧ e.settings.stageTimeout ≤ 60 := by
  have h1 := h.1
  simp only [Settings.ok, Bool.and_eq_true, decide_eq_true_eq] at h1
  omega

theorem Site.homeTimeout_range {e : Site} (h : e.inRange) : 1 ≤ e.settings.homeTimeout ∧ e.settings.homeTimeout ≤ 60 := by
  have h1 := h.1
  simp only [Settings.ok, Bool.and_eq_true, decide_eq_true_eq] at h1
  omega

/-- A change of the yard that keeps its records in range, its dig locks and its crane records. -/
structure Yard.Sound (e : Site) (y y' : Yard) : Prop where
  range  : e.inRange → ∀ quiet, y.ranged quiet → y'.ranged quiet
  locks  : (∀ i, (y.stack i).locked) → ∀ i, (y'.stack i).locked
  cranes : (∀ k, (y.crane k).lawful) → ∀ k, (y'.crane k).lawful

namespace Yard.Sound
variable {e : Site} {y y' y'' : Yard}

theorem refl (e : Site) (y : Yard) : Yard.Sound e y y := ⟨fun _ _ => id, id, id⟩

theorem trans (h : Yard.Sound e y y') (k : Yard.Sound e y' y'') : Yard.Sound e y y'' :=
  ⟨fun he q hq => k.range he q (h.range he q hq), fun hl => k.locks (h.locks hl), fun hc => k.cranes (h.cranes hc)⟩

end Yard.Sound

/-! ## The work under way -/

/-- What the agreement of cranes and tickets reads of a crane (R138, R143, R155): whether it is BUSY or STOPPED, its current
ticket and its stage order. -/
def CraneRecord.job (c : CraneRecord) : Bool × Option Handle × Option StageOrder :=
  (decide (c.state = .busy ∨ c.state = .stopped), c.current, c.stage)

/-- A ticket under way goes on as it was: at most it has lost its destination or taken a mark. -/
structure Ticket.Continues (t t' : Ticket) : Prop where
  state  : t'.state = t.state
  crane  : t'.crane = t.crane
  source : t'.source = t.source
  dest   : t'.dest = t.dest ∨ t'.dest = none
  weight : t.weightFailed = true → t'.weightFailed = true
  hold   : t.holdPending = true → t'.holdPending = true

theorem Ticket.Continues.refl (t : Ticket) : t.Continues t := ⟨rfl, rfl, rfl, .inl rfl, id, id⟩

theorem Ticket.Continues.trans {t t' t'' : Ticket} (h : t.Continues t') (k : t'.Continues t'') : t.Continues t'' where
  state := k.state.trans h.state
  crane := k.crane.trans h.crane
  source := k.source.trans h.source
  dest := k.dest.elim (fun hk => hk ▸ h.dest) .inr
  weight hw := k.weight (h.weight hw)
  hold hh := k.hold (h.hold hh)

/-- A ticket slot whose ticket under way, if it has one, goes on, and in which none gets under way. -/
structure SlotSpared (a b : Option Ticket) : Prop where
  kept  : ∀ t, a = some t → t.state.served = true → ∃ t', b = some t' ∧ t.Continues t'
  came  : ∀ t', b = some t' → t'.state.served = true → ∃ t, a = some t ∧ t.state.served = true
  shape : (∀ t, a = some t → t.shaped) → ∀ t', b = some t' → t'.shaped

theorem SlotSpared.refl (a : Option Ticket) : SlotSpared a a :=
  ⟨fun t ht _ => ⟨t, ht, .refl t⟩, fun t ht hs => ⟨t, ht, hs⟩, id⟩

theorem SlotSpared.trans {a b c : Option Ticket} (h : SlotSpared a b) (k : SlotSpared b c) : SlotSpared a c where
  kept t ht hs := by
    obtain ⟨u, hu, htu⟩ := h.kept t ht hs
    obtain ⟨v, hv, huv⟩ := k.kept u hu (by rw [htu.state]; exact hs)
    exact ⟨v, hv, htu.trans huv⟩
  came v hv hs := by
    obtain ⟨u, hu, hus⟩ := k.came v hv hs
    exact h.came u hu hus
  shape hs := k.shape (h.shape hs)

/-- A ticket changed so that it goes on, or stays out of the work under way. -/
structure Ticket.Spares (t t' : Ticket) : Prop where
  kept  : t.state.served = true → t.Continues t'
  came  : t'.state.served = true → t.state.served = true
  shape : t.shaped → t'.shaped

theorem SlotSpared.map {a : Option Ticket} {f : Ticket → Ticket} (h : ∀ t, a = some t → t.Spares (f t)) :
    SlotSpared a (a.map f) where
  kept t ht hs := ⟨f t, by rw [ht]; rfl, (h t ht).kept hs⟩
  came t' ht' hs := by
    obtain ⟨t, ht, rfl⟩ := Option.map_eq_some_iff.1 ht'
    exact ⟨t, ht, (h t ht).came hs⟩
  shape hall t' ht' := by
    obtain ⟨t, ht, rfl⟩ := Option.map_eq_some_iff.1 ht'
    exact (h t ht).shape (hall t ht)

/-- A change of a ticket that leaves what the agreement and the shape read of it. -/
theorem Ticket.Spares.of_eq {t t' : Ticket} (hst : t'.state = t.state) (hc : t'.crane = t.crane) (hk : t'.kind = t.kind)
    (hp : t'.piece = t.piece) (hs : t'.source = t.source) (hd : t'.dest = t.dest)
    (hw : t.weightFailed = true → t'.weightFailed = true) (hh : t.holdPending = true → t'.holdPending = true) :
    t.Spares t' where
  kept _ := ⟨hst, hc, hs, .inl hd, hw, hh⟩
  came h := by rwa [hst] at h
  shape h := by unfold Ticket.shaped at h ⊢; rwa [hk, hp, hs, hd, hst]

/-- A change of the yard that keeps the ranges and leaves the work of every crane but `k` and of every slot but `i` as it is:
the records and claims of those cranes, the tickets under way in those slots, and the bays of the holders (R139). -/
structure Yard.Spares (e : Site) (k i : Nat) (y y' : Yard) : Prop extends Yard.Sound e y y' where
  jobs   : ∀ j, j ≠ k → (y'.crane j).job = (y.crane j).job
  claims : ∀ j, j ≠ k → y'.claim j = y.claim j
  slots  : ∀ j, j ≠ i → SlotSpared (y.ticketAt j) (y'.ticketAt j)
  gens   : ∀ j, (y'.ticketSlot j).gen = (y.ticketSlot j).gen
  stackBays : ∀ s, (y'.stack s).bay = (y.stack s).bay
  laneBays  : ∀ l, (y'.lane l).bay = (y.lane l).bay
  truckBays : ∀ n, (y'.truck n).bay = (y.truck n).bay

namespace Yard.Spares
variable {e : Site} {k i : Nat} {y y' y'' : Yard}

theorem refl (e : Site) (k i : Nat) (y : Yard) : Yard.Spares e k i y y :=
  ⟨.refl e y, fun _ _ => rfl, fun _ _ => rfl, fun _ _ => .refl _, fun _ => rfl, fun _ => rfl, fun _ => rfl, fun _ => rfl⟩

theorem trans (h : Yard.Spares e k i y y') (h' : Yard.Spares e k i y' y'') : Yard.Spares e k i y y'' where
  toSound := h.toSound.trans h'.toSound
  jobs j hj := (h'.jobs j hj).trans (h.jobs j hj)
  claims j hj := (h'.claims j hj).trans (h.claims j hj)
  slots j hj := (h.slots j hj).trans (h'.slots j hj)
  gens j := (h'.gens j).trans (h.gens j)
  stackBays s := (h'.stackBays s).trans (h.stackBays s)
  laneBays l := (h'.laneBays l).trans (h.laneBays l)
  truckBays n := (h'.truckBays n).trans (h.truckBays n)

theorem forEach {α : Type} (f : Yard → α → Yard) (h : ∀ y a, Yard.Spares e k i y (f y a)) (xs : List α) (y : Yard) :
    Yard.Spares e k i y (Machine.forEach xs f y) := by
  unfold Machine.forEach
  induction xs generalizing y with
  | nil => exact refl e k i y
  | cons x xs ih => exact (h y x).trans (ih (f y x))

/-! ## The updates -/

/-- A change of a stack that leaves its bay, and its dig lock to its buried count. -/
theorem updStack (y : Yard) (s : Nat) (f : StackRecord → StackRecord) (hl : ∀ r, r.locked → (f r).locked)
    (hb : ∀ r, (f r).bay = r.bay) : Yard.Spares e k i y (y.updStack s f) where
  range _ _ h := ⟨h.lanes, h.trucks, h.tickets, h.cranes, h.homes⟩
  locks h := forall_getOr_upd (P := StackRecord.locked) y.stackRecs s f _ (hl _) h
  cranes h := h
  jobs _ _ := rfl
  claims _ _ := rfl
  slots _ _ := .refl _
  gens _ := rfl
  stackBays := proj_getOr_upd StackRecord.bay y.stackRecs s f _ (hb _)
  laneBays _ := rfl
  truckBays _ := rfl

/-- A change of a stack that writes neither its bay nor its buried count. -/
theorem updStack_rest (y : Yard) (s : Nat) (f : StackRecord → StackRecord)
    (h : ∀ r, ((f r).bay, (f r).digLock, (f r).buried) = (r.bay, r.digLock, r.buried)) :
    Yard.Spares e k i y (y.updStack s f) := by
  refine updStack y s f (fun r hr => ?_) fun r => ?_
  · simp only [Prod.mk.injEq] at h
    unfold StackRecord.locked at hr ⊢
    rw [(h r).2.1, (h r).2.2, hr]
  · exact congrArg Prod.fst (h r)

/-- A change of a lane that leaves its bay and keeps its demand level in range. -/
theorem updLane (y : Yard) (l : Nat) (f : LaneRecord → LaneRecord) (hd : ∀ r, r.demand < 4 → (f r).demand < 4)
    (hb : ∀ r, (f r).bay = r.bay) : Yard.Spares e k i y (y.updLane l f) where
  range _ _ h := ⟨forall_getOr_upd (P := fun r => r.demand < 4) y.lanes l f _ (hd _) h.lanes, h.trucks, h.tickets, h.cranes,
    h.homes⟩
  locks h := h
  cranes h := h
  jobs _ _ := rfl
  claims _ _ := rfl
  slots _ _ := .refl _
  gens _ := rfl
  stackBays _ := rfl
  laneBays := proj_getOr_upd LaneRecord.bay y.lanes l f _ (hb _)
  truckBays _ := rfl

/-- A change of a truck bay that leaves its bay and keeps its level in range. -/
theorem updTruck (y : Yard) (n : Nat) (f : TruckRecord → TruckRecord) (hl : ∀ r, r.level < 4 → (f r).level < 4)
    (hb : ∀ r, (f r).bay = r.bay) : Yard.Spares e k i y (y.updTruck n f) where
  range _ _ h := ⟨h.lanes, forall_getOr_upd (P := fun r => r.level < 4) y.trucks n f _ (hl _) h.trucks, h.tickets, h.cranes,
    h.homes⟩
  locks h := h
  cranes h := h
  jobs _ _ := rfl
  claims _ _ := rfl
  slots _ _ := .refl _
  gens _ := rfl
  stackBays _ := rfl
  laneBays _ := rfl
  truckBays := proj_getOr_upd TruckRecord.bay y.trucks n f _ (hb _)

/-- A change of a piece. -/
theorem updPiece (y : Yard) (p : Nat) (f : Piece → Piece) : Yard.Spares e k i y (y.updPiece p f) where
  range _ _ h := ⟨h.lanes, h.trucks, h.tickets, h.cranes, h.homes⟩
  locks h := h
  cranes h := h
  jobs _ _ := rfl
  claims _ _ := rfl
  slots _ _ := .refl _
  gens _ := rfl
  stackBays _ := rfl
  laneBays _ := rfl
  truckBays _ := rfl

/-- A change of the piece slots, the move queue, the finished list and the links. -/
theorem of_rest (y : Yard) (pieces : Vector PieceSlot 1024) (moveQueue finished : List Nat) (links : Vector CraneLine 3) :
    Yard.Spares e k i y { y with pieces := pieces, moveQueue := moveQueue, finished := finished, links := links } where
  range _ _ h := ⟨h.lanes, h.trucks, h.tickets, h.cranes, h.homes⟩
  locks h := h
  cranes h := h
  jobs _ _ := rfl
  claims _ _ := rfl
  slots _ _ := .refl _
  gens _ := rfl
  stackBays _ := rfl
  laneBays _ := rfl
  truckBays _ := rfl

/-- A change of what the arbiter holds for a crane that leaves its claim, or is of crane `k`. -/
theorem updArb (y : Yard) (n : Nat) (f : ArbiterRecord → ArbiterRecord) (hc : n = k ∨ ∀ a, (f a).claim = a.claim) :
    Yard.Spares e k i y (y.updArb n f) where
  range _ _ h := ⟨h.lanes, h.trucks, h.tickets, h.cranes, h.homes⟩
  locks h := h
  cranes h := h
  jobs _ _ := rfl
  claims j hj := by
    rcases hc with rfl | hc
    · exact congrArg ArbiterRecord.claim (Yard.arb_updArb_ne y n j f (Ne.symm hj))
    · exact proj_getOr_upd ArbiterRecord.claim y.arbiter n f _ (hc _) j
  slots _ _ := .refl _
  gens _ := rfl
  stackBays _ := rfl
  laneBays _ := rfl
  truckBays _ := rfl

theorem setClaim (y : Yard) (c : Option Interval) : Yard.Spares e k i y (y.setClaim k c) := updArb y k _ (.inl rfl)

/-- A change of a crane record that keeps the ranges, keeps it lawful and leaves its job, or is of crane `k`. -/
theorem updCrane_ranged (y : Yard) (n : Nat) (f : CraneRecord → CraneRecord)
    (hr : e.inRange → ∀ q, y.ranged q → (y.updCrane n f).ranged q)
    (hl : (y.crane n).lawful → (f (y.crane n)).lawful) (hj : n = k ∨ (f (y.crane n)).job = (y.crane n).job) :
    Yard.Spares e k i y (y.updCrane n f) where
  range := hr
  locks h := h
  cranes h := forall_getOr_upd (P := CraneRecord.lawful) y.cranes n f _ hl h
  jobs j hjk := by
    rcases hj with rfl | hj
    · rw [Yard.crane_updCrane_ne _ _ _ _ (Ne.symm hjk)]
    · exact proj_getOr_upd CraneRecord.job y.cranes n f _ hj j
  claims _ _ := rfl
  slots _ _ := .refl _
  gens _ := rfl
  stackBays _ := rfl
  laneBays _ := rfl
  truckBays _ := rfl

/-- A change of a crane record that leaves its home bay, keeps it in range and lawful and leaves its job, or is of crane
`k`. -/
theorem updCrane (y : Yard) (n : Nat) (f : CraneRecord → CraneRecord)
    (hr : e.inRange → ∀ q, (y.crane n).inRange q → (f (y.crane n)).inRange q)
    (hl : (y.crane n).lawful → (f (y.crane n)).lawful)
    (hh : ∀ c, (f c).homeBay = c.homeBay) (hj : n = k ∨ (f (y.crane n)).job = (y.crane n).job) :
    Yard.Spares e k i y (y.updCrane n f) := by
  refine updCrane_ranged y n f (fun he q h => ?_) hl hj
  refine ⟨h.lanes, h.trucks, h.tickets,
    forall_getOr_upd (P := CraneRecord.inRange q) y.cranes n f _ (hr he q) h.cranes, ?_⟩
  have hb : ∀ j, ((y.updCrane n f).crane j).homeBay = (y.crane j).homeBay :=
    proj_getOr_upd CraneRecord.homeBay y.cranes n f _ (hh _)
  rw [hb, hb, hb]
  exact h.homes

/-- A change of a ticket that keeps its levels in range and leaves it to its work, or is of slot `i`. -/
theorem updTicket (y : Yard) (n : Nat) (f : Ticket → Ticket)
    (hr : e.inRange → ∀ q, y.ranged q → ∀ t, y.ticketAt n = some t → (f t).inRange)
    (hs : n = i ∨ ∀ t, y.ticketAt n = some t → t.Spares (f t)) : Yard.Spares e k i y (y.updTicket n f) where
  range he q h := by
    refine ⟨h.lanes, h.trucks, fun j t ht => ?_, h.cranes, h.homes⟩
    rw [ticketAt_updTicket] at ht
    split at ht
    · rename_i hnj
      subst hnj
      obtain ⟨u, hu, rfl⟩ := Option.map_eq_some_iff.1 ht
      exact hr he q h u hu
    · exact h.tickets j t ht
  locks h := h
  cranes h := h
  jobs _ _ := rfl
  claims _ _ := rfl
  slots j hj := by
    rw [ticketAt_updTicket]
    split
    · rename_i hnj
      subst hnj
      rcases hs with rfl | hs
      · exact absurd rfl hj
      · exact .map hs
    · exact .refl _
  gens j := gen_updTicket y n j f
  stackBays _ := rfl
  laneBays _ := rfl
  truckBays _ := rfl

/-- A ticket placed in a free slot, in range, shaped, and not under way. -/
theorem placeTicket (y : Yard) (n : Nat) (t : Ticket) (hfree : y.freeTicketSlot = some n)
    (hr : e.inRange → ∀ q, y.ranged q → t.inRange) (hs : t.state.served = false) (hshape : t.shaped) :
    Yard.Spares e k i y (y.placeTicket n t) := by
  obtain ⟨hlt, hnone⟩ := Yard.freeTicketSlot_free hfree
  have hat := fun j => ticketAt_placeTicket y n j t hlt
  refine ⟨⟨fun he q h => ⟨h.lanes, h.trucks, fun j u hu => ?_, h.cranes, h.homes⟩, id, id⟩, fun _ _ => rfl, fun _ _ => rfl,
    fun j _ => ?_, fun j => ?_, fun _ => rfl, fun _ => rfl, fun _ => rfl⟩
  · rw [hat] at hu
    split at hu
    · obtain rfl := Option.some.inj hu
      exact hr he q h
    · exact h.tickets j u hu
  · rw [hat]
    split
    · rename_i hnj
      subst hnj
      rw [hnone]
      refine ⟨fun u hu => (by cases hu), fun u hu h => ?_, fun _ u hu => ?_⟩
      · obtain rfl := Option.some.inj hu
        rw [hs] at h
        cases h
      · obtain rfl := Option.some.inj hu
        exact hshape
    · exact .refl _
  · unfold Yard.ticketSlot
    rw [Yard.placeTicket_tickets, getOr_upd _ _ _ _ _ hlt]
    split <;> rfl

end Yard.Spares

end Sys2Proof.Machine
end

