-- ==== Sys2Proof/Proofs/SparingSteps.lean ====
section
/-! PROOF. The operations that touch no work under way, or that of one crane alone: orders on a crane link, claims on stacks,
wait reasons and levels, new tickets, dig rounds, pick creations, and the end of a ticket. -/

namespace Sys2Proof.Machine

/-! ## Orders on a crane link (R157) -/

/-- R157, R162: a report timer that is restarted runs within 1 to 60 minutes and its event is not due. -/
theorem CraneRecord.restart_inRange {q : Bool} {c : CraneRecord} {n : Nat} (hn : 1 ≤ n ∧ n ≤ 60) (h : c.inRange q) :
    (c.restart n).inRange q := by
  unfold CraneRecord.restart
  split
  · exact h
  · refine ⟨h.1, fun m hm => ?_⟩
    obtain rfl := Option.some.inj hm
    exact ⟨hn, fun _ => rfl⟩

theorem CraneRecord.restart_lawful {c : CraneRecord} (n : Nat) (h : c.lawful) : (c.restart n).lawful := by
  unfold CraneRecord.restart
  split <;> exact h

@[simp] theorem CraneRecord.restart_homeBay (c : CraneRecord) (n : Nat) : (c.restart n).homeBay = c.homeBay := by
  unfold CraneRecord.restart
  split <;> rfl

@[simp] theorem CraneRecord.restart_job (c : CraneRecord) (n : Nat) : (c.restart n).job = c.job := by
  unfold CraneRecord.restart
  split <;> rfl

/-- A crane whose timer has stopped is in range as before. -/
theorem CraneRecord.inRange_stopped {q : Bool} {c c' : CraneRecord} (h : c.inRange q) (hs : c'.nextSeq = c.nextSeq)
    (ht : c'.timer = none) : c'.inRange q :=
  ⟨by rw [hs]; exact h.1, fun m hm => by rw [ht] at hm; cases hm⟩

section
variable {e : Site} {k i : Nat}

theorem spares_sendFrame (y : Yard) (n kind : Nat) (payload : List Byte) :
    Yard.Spares e k i y (sendFrame y n kind payload) := by
  unfold sendFrame
  refine (Yard.Spares.of_rest y y.pieces y.moveQueue y.finished _).trans (Yard.Spares.updCrane _ n _ ?_ ?_ ?_ ?_)
  · exact fun _ q h => ⟨Nat.mod_lt _ (by decide), h.2⟩
  · exact id
  · exact fun _ => rfl
  · exact .inr rfl

/-- R157: a stage order sent to crane `k`. -/
theorem spares_sendStage (y : Yard) (kind : OrderKind) (arg : Nat) :
    Yard.Spares e k i y (sendStage e y k kind arg) := by
  unfold sendStage
  refine (spares_sendFrame y k _ _).trans (Yard.Spares.updCrane _ k _ (fun he q h => ?_) (fun h => ?_) (fun c => ?_) (.inl rfl))
  · refine CraneRecord.restart_inRange ?_ h
    split
    · exact Site.homeTimeout_range he
    · exact Site.stageTimeout_range he
  · exact CraneRecord.restart_lawful _ h
  · exact CraneRecord.restart_homeBay _ _

/-- R157: a STOP sent leaves the job of its crane. -/
theorem spares_sendStop (y : Yard) (n : Nat) : Yard.Spares e k i y (sendStop e y n) := by
  unfold sendStop
  refine (spares_sendFrame y n _ _).trans (Yard.Spares.updCrane _ n _ (fun he q h => ?_) (fun h => ?_) (fun c => ?_) (.inr ?_))
  · exact CraneRecord.restart_inRange (Site.stageTimeout_range he) h
  · exact CraneRecord.restart_lawful _ h
  · exact CraneRecord.restart_homeBay _ _
  · exact CraneRecord.restart_job _ _

/-! ## Claims on stacks and lanes (R90 to R94, R100, R126) -/

theorem setBuried_locked (n : Nat) (r : StackRecord) : (setBuried n r).locked := rfl

theorem spares_appendClaim (y : Yard) (s : Nat) (c : Claim) : Yard.Spares e k i y (appendClaim y s c) :=
  .updStack_rest _ _ _ fun _ => rfl

theorem spares_raiseBuried (y : Yard) (s : Nat) : Yard.Spares e k i y (raiseBuried y s) :=
  .updStack _ _ _ (fun _ _ => setBuried_locked _ _) fun _ => rfl

theorem spares_lowerBuried (y : Yard) (s : Nat) : Yard.Spares e k i y (lowerBuried y s) :=
  .updStack _ _ _ (fun _ _ => setBuried_locked _ _) fun _ => rfl

theorem spares_promoteUpTo (n s : Nat) (y : Yard) : Yard.Spares e k i y (promoteUpTo n s y) := by
  induction n generalizing y with
  | zero => exact .refl _ _ _ y
  | succ n ih =>
    unfold promoteUpTo
    split
    · split
      · exact ((spares_appendClaim _ _ _).trans (spares_lowerBuried _ _)).trans (ih _)
      · exact .refl _ _ _ y
    · exact .refl _ _ _ y

theorem spares_promote (s : Nat) (y : Yard) : Yard.Spares e k i y (promote s y) := spares_promoteUpTo _ _ _

theorem spares_promoteAll (y : Yard) : Yard.Spares e k i y (promoteAll y) := by
  refine .forEach _ (fun y s => ?_) _ _
  split
  · exact spares_promote s y
  · exact .refl _ _ _ y

theorem spares_appendLift (y : Yard) (s : Nat) (h : Handle) : Yard.Spares e k i y (appendLift y s h) :=
  (spares_appendClaim _ _ _).trans (spares_promote _ _)

/-- R93: a destination lost with its PLACE claim: only a stack is lost. -/
theorem leaveStack_cases (s : Nat) (d : Option Dest) :
    leaveStack s d = d ∨ leaveStack s d = none ∧ d = some (.stack s) := by
  unfold leaveStack
  split
  · exact .inr ⟨rfl, ‹_›⟩
  · exact .inl rfl

/-- R93: a ticket that loses its destination on a stack goes on. -/
theorem spares_leaveStack (s : Nat) (t : Ticket) : t.Spares { t with dest := leaveStack s t.dest } := by
  rcases leaveStack_cases s t.dest with h | ⟨h, hd⟩
  · rw [h]
    exact .of_eq rfl rfl rfl rfl rfl rfl id id
  · rw [h]
    refine ⟨fun _ => ⟨rfl, rfl, rfl, .inr rfl, id, id⟩, id, fun ⟨hbay, hrest⟩ => ⟨fun hk => ?_, hrest⟩⟩
    obtain ⟨-, -, ⟨bay, hb⟩, -⟩ := hbay hk
    rw [hd] at hb
    cases hb

theorem spares_dropClaim (s : Nat) (y : Yard) (c : Claim) : Yard.Spares e k i y (dropClaim s y c) := by
  unfold dropClaim
  split
  · exact spares_raiseBuried y s
  · exact .updTicket _ _ _ (fun _ _ h t ht => h.tickets _ t ht) (.inr fun t _ => spares_leaveStack s t)

theorem spares_removeClaim (y : Yard) (s : Nat) (c : Claim) : Yard.Spares e k i y (removeClaim e y s c) := by
  unfold removeClaim
  split
  · unfold repair
    refine Yard.Spares.trans ?_ (spares_promote _ _)
    refine Yard.Spares.trans ?_ (.forEach _ (spares_dropClaim s) _ _)
    refine Yard.Spares.trans ?_ (.updStack_rest _ s _ fun _ => rfl)
    exact .updStack_rest y s _ fun _ => rfl
  · exact .refl _ _ _ y

theorem spares_completeClaim (y : Yard) (s : Nat) (c : Claim) : Yard.Spares e k i y (completeClaim y s c) :=
  .updStack_rest _ _ _ fun _ => rfl

theorem spares_reserve (y : Yard) (l : Nat) : Yard.Spares e k i y (reserve y l) :=
  .updLane _ _ _ (fun _ h => h) fun _ => rfl

theorem spares_unreserve (y : Yard) (l : Nat) : Yard.Spares e k i y (unreserve y l) :=
  .updLane _ _ _ (fun _ h => h) fun _ => rfl

theorem spares_claimDest (y : Yard) (h : Handle) (d : Option Dest) : Yard.Spares e k i y (claimDest y h d) := by
  unfold claimDest
  split
  · exact spares_appendClaim _ _ _
  · exact spares_reserve _ _
  all_goals exact .refl _ _ _ y

theorem spares_setPieceTicket (y : Yard) (p : Handle) (h : Option Handle) : Yard.Spares e k i y (setPieceTicket y p h) :=
  .updPiece _ _ _

theorem spares_clearPieceTicket (y : Yard) (t : Ticket) : Yard.Spares e k i y (clearPieceTicket y t) := by
  unfold clearPieceTicket
  split
  · exact spares_setPieceTicket _ _ _
  · exact .refl _ _ _ y

theorem spares_clearPick (y : Yard) (h : Handle) : Yard.Spares e k i y (clearPick y h) := by
  refine .forEach _ (fun y n => .updTruck _ _ _ (fun r hr => ?_) fun r => ?_) _ _
  · split <;> exact hr
  · split <;> rfl

theorem spares_unbind (y : Yard) (h : Handle) : Yard.Spares e k i y (unbind y h) := by
  refine .forEach _ (fun y n => .updArb _ _ _ (.inr fun a => ?_)) _ _
  split <;> rfl

theorem spares_releaseClaims (y : Yard) (h : Handle) (t : Ticket) (buried : Option Nat) :
    Yard.Spares e k i y (releaseClaims e y h t buried) := by
  have hsource : Yard.Spares e k i y (releaseSource e y h t.source) := by
    unfold releaseSource
    split
    · exact spares_removeClaim _ _ _
    · exact .refl _ _ _ y
  have hburied : ∀ y1, Yard.Spares e k i y1 (releaseBuried y1 buried) := fun y1 => by
    unfold releaseBuried
    split
    · exact spares_lowerBuried _ _
    · exact .refl _ _ _ y1
  have hdest : ∀ y1, Yard.Spares e k i y1 (releaseDest e y1 h t.dest) := fun y1 => by
    unfold releaseDest
    split
    · exact spares_removeClaim _ _ _
    · exact spares_unreserve _ _
    · exact .refl _ _ _ y1
  rw [releaseClaims_eq]
  exact (hsource.trans (hburied _)).trans (hdest _)

/-! ## Lanes and trucks (R99, R101, R106, R182) -/

/-- R101: a demand level recomputed stays within 0 to 3. -/
theorem demandLevel_lt (t1 t2 t3 : Nat) (drain : Bool) (n level : Nat) (h : level < 4) :
    demandLevel t1 t2 t3 drain n level < 4 := by
  unfold demandLevel
  dsimp only
  split_ifs <;> omega

theorem LaneRecord.recompute_lt (st : Settings) (l : LaneRecord) (h : l.demand < 4) : (l.recompute st).demand < 4 :=
  demandLevel_lt _ _ _ _ _ _ h

theorem spares_setLanePieces (e' : Site) (y : Yard) (l : Nat) (f : List Handle → List Handle) :
    Yard.Spares e k i y (setLanePieces e' y l f) :=
  .updLane _ _ _ (fun r h => LaneRecord.recompute_lt e'.settings { r with pieces := f r.pieces } h) fun _ => rfl

theorem spares_recomputeLanes (e' : Site) (y : Yard) : Yard.Spares e k i y (recomputeLanes e' y) :=
  (Yard.Spares.updLane y 0 _ (fun _ h => LaneRecord.recompute_lt _ _ h) fun _ => rfl).trans
    (.updLane _ 1 _ (fun _ h => LaneRecord.recompute_lt _ _ h) fun _ => rfl)

theorem spares_popStack (y : Yard) (s : Nat) : Yard.Spares e k i y (popStack y s) := .updStack_rest _ _ _ fun _ => rfl

theorem spares_pushStack (y : Yard) (s : Nat) (p : Handle) : Yard.Spares e k i y (pushStack y s p) :=
  .updStack_rest _ _ _ fun _ => rfl

theorem spares_popTruck (y : Yard) (n : Nat) : Yard.Spares e k i y (popTruck y n) :=
  .updTruck _ _ _ (fun _ h => h) fun _ => rfl

theorem spares_completionTest (y : Yard) (n : Nat) : Yard.Spares e k i y (completionTest y n) := by
  refine .updTruck _ _ _ (fun r h => ?_) fun r => ?_
  · split <;> exact h
  · split <;> rfl

/-! ## Wait reasons and levels (R121 to R123) -/

/-- A PENDING or READY ticket is not under way. -/
theorem TicketState.waiting_not_served {st : TicketState} (h : st = .pending ∨ st = .ready) : st.served = false := by
  rcases h with rfl | rfl <;> rfl

/-- R113: the shape of a ticket whose state is not that of work under way is that of its other fields. -/
theorem Ticket.shaped.of_not_served {t t' : Ticket} (h : t.shaped) (hst : t'.state.served = false) (hk : t'.kind = t.kind)
    (hp : t'.piece = t.piece) (hs : t'.source = t.source) (hd : t'.dest = t.dest) : t'.shaped := by
  have hne : ∀ st : TicketState, st.served = true → t'.state ≠ st := fun st hserved he => by
    rw [he, hserved] at hst
    cases hst
  unfold Ticket.shaped
  rw [hk, hp, hs, hd]
  obtain ⟨hbay, hrest, -⟩ := h
  refine ⟨fun hkind => ?_, hrest, fun h => ?_⟩
  · obtain ⟨h1, h2, h3, -⟩ := hbay hkind
    exact ⟨h1, h2, h3, hne _ rfl, hne _ rfl, hne _ rfl⟩
  · rcases h with h | h
    · exact absurd h (hne _ rfl)
    · exact absurd h (hne _ rfl)

/-- A ticket whose state is not yet that of work under way, and stays so, keeping its kind, piece, source and destination. -/
theorem Ticket.Spares.of_waiting {t t' : Ticket} (hs : t.state.served = false)
    (hs' : t'.state = .pending ∨ t'.state = .ready) (hk : t'.kind = t.kind) (hp : t'.piece = t.piece)
    (hsrc : t'.source = t.source) (hd : t'.dest = t.dest) : t.Spares t' where
  kept h := by rw [hs] at h; cases h
  came h := by rw [TicketState.waiting_not_served hs'] at h; cases h
  shape h := h.of_not_served (TicketState.waiting_not_served hs') hk hp hsrc hd

theorem spares_refreshTicket (y : Yard) (n : Nat) : Yard.Spares e k i y (refreshTicket e y n) := by
  unfold refreshTicket
  split
  · rename_i t ht
    split
    · rename_i hw
      refine .updTicket _ _ _ (fun _ _ h u hu => h.tickets _ u hu) (.inr fun u hu => ?_)
      obtain rfl : t = u := Option.some.inj (ht.symm.trans hu)
      refine .of_waiting (TicketState.waiting_not_served hw) ?_ rfl rfl rfl rfl
      dsimp only
      split
      · exact .inr rfl
      · exact .inl rfl
    · exact .refl _ _ _ y
  · exact .refl _ _ _ y

theorem spares_refreshAll (y : Yard) : Yard.Spares e k i y (refreshAll e y) := .forEach _ (fun y n => spares_refreshTicket y n) _ _

/-- The ticket that a handle names stands in its slot. -/
theorem Yard.ticket?_eq_some {y : Yard} {h : Handle} {t : Ticket} :
    y.ticket? h = some t ↔ (y.ticketSlot h.slot).gen = h.gen ∧ y.ticketAt h.slot = some t := by
  unfold Yard.ticket? Yard.ticketAt
  split <;> simp_all

/-- R123: an effective level is one of the levels it is taken from. -/
theorem servedTicket_level_lt {q : Bool} {y : Yard} {n : Nat} {t u : Ticket} (h : y.ranged q)
    (hu : servedTicket y n t = some u) : u.level < 4 := by
  unfold servedTicket at hu
  split at hu
  · split at hu
    · exact (h.tickets _ u (Yard.ticket?_eq_some.1 hu).2).2
    · cases hu
  · cases hu

theorem ticketLevel_lt {q : Bool} {y : Yard} {n : Nat} {t : Ticket} (he : e.inRange) (h : y.ranged q)
    (ht : y.ticketAt n = some t) : ticketLevel e y n t < 4 := by
  obtain ⟨hb, hl⟩ := h.tickets n t ht
  unfold ticketLevel
  cases t.kind with
  | strip =>
    dsimp only
    split
    · exact max_lt hb (he.2 _)
    · exact hb
  | stow =>
    dsimp only
    split
    · exact max_lt hb (h.lanes _)
    · exact hb
  | pick =>
    dsimp only
    split
    · split
      · split
        · exact h.trucks _
        · exact hl
      · exact hl
    · exact hl
  | dig | yield =>
    dsimp only
    split
    · rename_i hu
      split
      · exact servedTicket_level_lt h hu
      · exact hl
    · exact hl
  | shift => exact hb
  | park => exact hb

theorem spares_refreshLevel (y : Yard) (n : Nat) : Yard.Spares e k i y (refreshLevel e y n) := by
  unfold refreshLevel
  split
  · rename_i t ht
    split
    · refine .updTicket _ _ _ (fun he q h u hu => ⟨(h.tickets _ u hu).1, ticketLevel_lt he h ht⟩) (.inr fun u _ => ?_)
      exact .of_eq rfl rfl rfl rfl rfl rfl id id
    · exact .refl _ _ _ y
  · exact .refl _ _ _ y

theorem spares_refreshLevels (y : Yard) : Yard.Spares e k i y (refreshLevels e y) :=
  .forEach _ (fun y n => spares_refreshLevel y n) _ _

/-! ## New tickets (R114, R119, R125, R180) -/

/-- R113: a ticket for a piece in the yard, as it is made. -/
theorem Ticket.shaped_fresh {t : Ticket} (hk : t.kind ≠ .yield ∧ t.kind ≠ .park) (hp : t.piece.isSome = true)
    (hs : t.source.isSome = true) (hst : t.state = .pending) : t.shaped := by
  refine ⟨fun h => ?_, fun _ _ => ⟨hp, hs⟩, fun h => ?_⟩
  · rcases h with h | h
    · exact absurd h hk.1
    · exact absurd h hk.2
  · rw [hst] at h
    rcases h with h | h <;> cases h

/-- R119: a ticket made for a piece. -/
theorem spares_makeTicket (y : Yard) (n : Nat) (p : Handle) (t : Ticket) (hfree : y.freeTicketSlot = some n)
    (hr : e.inRange → ∀ q, y.ranged q → t.inRange) (hk : t.kind ≠ .yield ∧ t.kind ≠ .park) (hp : t.piece.isSome = true)
    (hs : t.source.isSome = true) (hst : t.state = .pending) : Yard.Spares e k i y (makeTicket e y n p t) := by
  have hplaced : Yard.Spares e k i y (y.placeTicket n t) :=
    .placeTicket y n t hfree hr (by rw [hst]; rfl) (Ticket.shaped_fresh hk hp hs hst)
  unfold makeTicket
  dsimp only
  generalize (y.placeTicket n t).ticketHandle n = h
  have hdest := (hplaced.trans (spares_claimDest _ h t.dest)).trans (spares_setPieceTicket _ p (some h))
  refine Yard.Spares.trans ?_ ((spares_refreshLevel _ _).trans (spares_refreshTicket _ _))
  split
  · split
    · exact hdest.trans (spares_appendLift _ _ _)
    · exact hdest.trans (spares_raiseBuried _ _)
  · exact hdest

/-- R125: a DIG ticket, at the level of the ticket that it serves. -/
theorem spares_makeDig (y : Yard) (free slot : Nat) (c : Handle) (src : Location) (d : Nat) (t : Ticket)
    (hfree : y.freeTicketSlot = some free) (ht : y.ticketAt slot = some t) :
    Yard.Spares e k i y (makeDig e y free slot c src d t) := by
  have hlevel : ∀ q, y.ranged q → t.level < 4 := fun q h => (h.tickets slot t ht).2
  exact spares_makeTicket _ _ _ _ hfree (fun _ q h => ⟨hlevel q h, hlevel q h⟩)
    ⟨TicketKind.noConfusion, TicketKind.noConfusion⟩ rfl rfl rfl

theorem spares_digWalk (n s : Nat) (cs : List Handle) (y : Yard) : Yard.Spares e k i y (digWalk e n s cs y) := by
  induction cs generalizing y with
  | nil => exact .refl _ _ _ y
  | cons c cs ih =>
    unfold digWalk
    split
    · rename_i p t _ ht
      split
      · exact ih y
      · split
        · exact .refl _ _ _ y
        · rename_i free hfree
          split
          · exact .refl _ _ _ y
          · split
            · exact .refl _ _ _ y
            · exact (spares_makeDig _ _ _ _ _ _ _ hfree ht).trans (ih _)
    · exact .refl _ _ _ y

theorem spares_digRound (y : Yard) (n : Nat) : Yard.Spares e k i y (digRound e y n) := by
  unfold digRound
  split
  · split
    · exact spares_digWalk _ _ _ _
    · exact .refl _ _ _ y
  · exact .refl _ _ _ y

theorem spares_makePick (y : Yard) (n slot : Nat) (p : Handle) (src : Location) (hfree : y.freeTicketSlot = some slot) :
    Yard.Spares e k i y (makePick e y n slot p src) := by
  refine Yard.Spares.trans ?_ (.updTruck _ _ _ (fun _ h => h) fun _ => rfl)
  exact spares_makeTicket _ _ _ _ hfree (fun _ _ h => ⟨h.trucks n, h.trucks n⟩)
    ⟨TicketKind.noConfusion, TicketKind.noConfusion⟩ rfl rfl rfl

theorem spares_createPick (y : Yard) (n : Nat) : Yard.Spares e k i y (createPick e y n) := by
  unfold createPick
  dsimp only
  split
  · split
    · split
      · rename_i slot _ hfree
        have pick : ∀ p src, Yard.Spares e k i y (makePick e y n slot p src) := fun p src =>
          spares_makePick y n slot p src hfree
        split
        · exact .refl _ _ _ y
        · split
          · split
            · exact .refl _ _ _ y
            · exact ((pick _ _).trans (spares_digRound _ _)).trans (spares_refreshTicket _ _)
          · exact pick _ _
          · exact pick _ _
          · exact .refl _ _ _ y
          · exact .refl _ _ _ y
      · exact .refl _ _ _ y
    · exact .refl _ _ _ y
  · exact .refl _ _ _ y

/-- R117, R119, R126: an accepted move. -/
theorem spares_acceptMove (y : Yard) (slot : Nat) (p : Handle) (loc : Location) (d : Dest) (level : Nat) (after dig : Bool)
    (hfree : y.freeTicketSlot = some slot) (hl : level < 4) :
    Yard.Spares e k i y (acceptMove e y slot p loc d level after dig) := by
  have hkind : kindOf loc ≠ .yield ∧ kindOf loc ≠ .park := by
    cases loc <;> exact ⟨TicketKind.noConfusion, TicketKind.noConfusion⟩
  exact ((spares_makeTicket _ _ _ _ hfree (fun _ _ _ => ⟨hl, hl⟩) hkind rfl rfl rfl).trans (spares_digRound _ _)).trans
    (spares_refreshTicket _ _)

theorem spares_stripPositions (level : Nat) (after : Bool) (hl : level < 4) :
    ∀ (list : List (Handle × Location)) (y y1 : Yard), stripPositions e level after list y = some y1 → Yard.Spares e k i y y1
  | [], y, y1, h => by
    obtain rfl := Option.some.inj h
    exact .refl _ _ _ y
  | (p, loc) :: rest, y, y1, h => by
    unfold stripPositions at h
    split at h
    · rename_i d slot _ hfree
      exact (spares_acceptMove _ _ _ _ _ _ _ _ hfree hl).trans (spares_stripPositions level after hl rest _ y1 h)
    · cases h

/-- R113: a YIELD or PARK as it is made. -/
theorem Ticket.shaped_bay (kind : TicketKind) (bay base : Nat) (serves : Option Handle) (hk : kind = .yield ∨ kind = .park) :
    Ticket.shaped { Ticket.fresh kind none none (some (.bay bay)) base with serves := serves } := by
  refine ⟨fun _ => ⟨rfl, rfl, ⟨bay, rfl⟩, TicketState.noConfusion, TicketState.noConfusion, TicketState.noConfusion⟩,
    fun h1 h2 => ?_, fun h => ?_⟩
  · rcases hk with h | h
    · exact absurd h h1
    · exact absurd h h2
  · rcases h with h | h <;> cases h

theorem spares_makeYield (served : Handle) (level n : Nat) (iv : Interval) (y : Yard) (j : Nat)
    (hl : ∀ q, y.ranged q → level < 4) : Yard.Spares e k i y (makeYield e served level n iv y j) := by
  unfold makeYield
  split
  · rename_i free target hfree _
    refine Yard.Spares.trans ?_ (spares_refreshTicket _ _)
    refine Yard.Spares.trans ?_ (.updArb _ _ _ (.inr fun _ => rfl))
    exact .placeTicket y free _ hfree (fun _ q h => ⟨hl q h, hl q h⟩) rfl
      (Ticket.shaped_bay .yield target level (some served) (.inl rfl))
  · exact .refl _ _ _ y

theorem spares_makePark (y : Yard) (slot crane bay level : Nat) (hfree : y.freeTicketSlot = some slot) (hl : level < 4) :
    Yard.Spares e k i y (makePark e y slot crane bay level) := by
  refine Yard.Spares.trans ?_ (spares_refreshTicket _ _)
  refine Yard.Spares.trans ?_ (.updArb _ _ _ (.inr fun _ => rfl))
  exact .placeTicket y slot _ hfree (fun _ _ _ => ⟨hl, hl⟩) rfl (Ticket.shaped_bay .park bay level none (.inr rfl))

/-! ## The end of a ticket (R132) -/

/-- R132: what follows the mark of a ticket that ends touches no work under way. -/
theorem spares_endMark {y : Yard} {n : Nat} {t : Ticket} (ht : y.ticketAt n = some t) (st : TicketState)
    (outcome : TicketOutcome) : Yard.Spares e k i (y.endMark n st outcome) (finishTicket e y n st outcome) := by
  unfold finishTicket
  rw [ht]
  dsimp only
  unfold Yard.endMark
  generalize y.updTicket n (fun u => { u with state := st, outcome := outcome, waits := .none }) = y1
  have hclaims : Yard.Spares e k i y1 (if st = .done then y1 else releaseClaims e y1 (y.ticketHandle n) t (buriedIn y n)) := by
    split
    · exact .refl _ _ _ y1
    · exact spares_releaseClaims _ _ _ _
  generalize (if st = .done then y1 else releaseClaims e y1 (y.ticketHandle n) t (buriedIn y n)) = y2 at hclaims
  refine ((hclaims.trans (spares_clearPieceTicket _ t)).trans (spares_clearPick _ (y.ticketHandle n))).trans ?_
  exact Yard.Spares.of_rest _ _ _ _ _

/-- R132: the ticket in slot `i` finishes. -/
theorem spares_finishTicket (y : Yard) (st : TicketState) (outcome : TicketOutcome) :
    Yard.Spares e k i y (finishTicket e y i st outcome) := by
  cases ht : y.ticketAt i with
  | none =>
    unfold finishTicket
    rw [ht]
    exact .refl _ _ _ y
  | some t =>
    refine Yard.Spares.trans ?_ (spares_endMark ht st outcome)
    exact .updTicket y i _ (fun _ _ h u hu => h.tickets _ u hu) (.inl rfl)

/-- A slot whose ticket is not under way stays so where the slot is spared. -/
theorem Yard.Spares.idle_slot {y y' : Yard} {n : Nat} (h : Yard.Spares e k i y y') (hn : n ≠ i)
    (hy : ∀ u, y.ticketAt n = some u → u.state.served = false ∧ u.shaped) :
    ∀ u, y'.ticketAt n = some u → u.state.served = false ∧ u.shaped := by
  intro u hu
  refine ⟨Bool.eq_false_iff.2 fun hserved => ?_, (h.slots n hn).shape (fun v hv => (hy v hv).2) u hu⟩
  obtain ⟨v, hv, hvs⟩ := (h.slots n hn).came u hu hserved
  rw [(hy v hv).1] at hvs
  cases hvs

/-- R132: a ticket that has finished is no longer under way. -/
theorem finishTicket_idle {y : Yard} {t : Ticket} {st : TicketState} {outcome : TicketOutcome} (ht : y.ticketAt i = some t)
    (hst : st = .done ∨ st = .failed ∨ st = .cancelled) (hshape : t.shaped) :
    ∀ u, (finishTicket e y i st outcome).ticketAt i = some u → u.state.served = false ∧ u.shaped := by
  have hmark : (y.endMark i st outcome).ticketAt i = some { t with state := st, outcome := outcome, waits := .none } := by
    unfold Yard.endMark
    rw [Yard.ticketAt_updTicket_same _ _ _ (Yard.ticketAt_lt _ _ _ ht), ht]
    rfl
  have hserved : st.served = false := by rcases hst with rfl | rfl | rfl <;> rfl
  refine (spares_endMark (k := 3) (i := 24) ht st outcome).idle_slot (Nat.ne_of_lt (Yard.ticketAt_lt _ _ _ ht)) fun u hu => ?_
  obtain rfl := Option.some.inj (hmark.symm.trans hu)
  exact ⟨hserved, hshape.of_not_served hserved rfl rfl rfl rfl⟩

end

end Sys2Proof.Machine
end

