-- ==== Sys2Proof/Proofs/Agreement.lean ====
section
/-! PROOF. The agreement of cranes and tickets (R143, R155), and the claims that hold the bays of the work under way (R138,
R143, R151, R152): what a change that spares the work of every crane but one leaves of them, and what has to be shown of that
one crane and its ticket. -/

namespace Sys2Proof.Machine

/-! ## The agreement but for one crane and one slot -/

/-- The agreement of cranes and tickets, but for crane `k` and the ticket in slot `i`, which no other crane serves. -/
structure Yard.servesBut (y : Yard) (k i : Nat) : Prop where
  crane  : ∀ j h, j < 3 → j ≠ k → (y.crane j).current = some h →
    ((y.crane j).state = .busy ∨ (y.crane j).state = .stopped) ∧ h.slot ≠ i
      ∧ ∃ t, y.ticket? h = some t ∧ t.state.served = true ∧ t.crane = some j
  ticket : ∀ slot t, slot ≠ i → y.ticketAt slot = some t → t.state.served = true →
    ∃ j, j < 3 ∧ j ≠ k ∧ t.crane = some j ∧ (y.crane j).current = some (y.ticketHandle slot)
  shape  : ∀ slot t, slot ≠ i → y.ticketAt slot = some t → t.shaped

/-- A crane that has no ticket, or the one in the slot, and a slot that has no ticket under way, or the one of that crane. -/
theorem Yard.serves.but {y : Yard} (h : y.serves) {k i : Nat} (hk : ∀ g, (y.crane k).current = some g → g.slot = i)
    (hi : ∀ t, y.ticketAt i = some t → t.state.served = true → t.crane = some k) : y.servesBut k i := by
  obtain ⟨hcrane, hticket, hshape⟩ := h
  refine ⟨fun j g hj hjk hg => ?_, fun slot t hs ht hst => ?_, fun slot t _ => hshape slot t⟩
  · obtain ⟨hstate, t, ht, hserved, hc⟩ := hcrane j g hj hg
    refine ⟨hstate, fun hgi => hjk ?_, t, ht, hserved, hc⟩
    obtain ⟨-, hat⟩ := Yard.ticket?_eq_some.1 ht
    rw [hgi] at hat
    exact Option.some.inj (hc.symm.trans (hi t hat hserved))
  · obtain ⟨j, hj, hc, hcur⟩ := hticket slot t ht hst
    refine ⟨j, hj, fun hjk => hs ?_, hc, hcur⟩
    subst hjk
    exact hk _ hcur

/-- The agreement but for a crane that has no ticket and a ticket that is not under way is the whole agreement. -/
theorem Yard.servesBut.serves {y : Yard} {k i : Nat} (h : y.servesBut k i)
    (hk : ∀ g, k < 3 → (y.crane k).current = some g → ((y.crane k).state = .busy ∨ (y.crane k).state = .stopped)
      ∧ ∃ t, y.ticket? g = some t ∧ t.state.served = true ∧ t.crane = some k)
    (hi : ∀ t, y.ticketAt i = some t → t.state.served = true →
      k < 3 ∧ t.crane = some k ∧ (y.crane k).current = some (y.ticketHandle i))
    (hshape : ∀ t, y.ticketAt i = some t → t.shaped) : y.serves := by
  refine ⟨fun j g hj hg => ?_, fun slot t ht hst => ?_, fun slot t ht => ?_⟩
  · by_cases hjk : j = k
    · subst hjk
      exact hk g hj hg
    · obtain ⟨hstate, -, hrest⟩ := h.crane j g hj hjk hg
      exact ⟨hstate, hrest⟩
  · by_cases hs : slot = i
    · subst hs
      exact ⟨k, hi t ht hst⟩
    · obtain ⟨j, hj, -, hc, hcur⟩ := h.ticket slot t hs ht hst
      exact ⟨j, hj, hc, hcur⟩
  · by_cases hs : slot = i
    · subst hs
      exact hshape t ht
    · exact h.shape slot t hs ht

/-- A slot whose ticket is not under way may take the place of another such slot. -/
theorem Yard.servesBut.move {y : Yard} {k i n : Nat} (h : y.servesBut k i)
    (hi : ∀ t, y.ticketAt i = some t → t.state.served = false ∧ t.shaped)
    (hn : ∀ t, y.ticketAt n = some t → t.state.served = false) : y.servesBut k n := by
  refine ⟨fun j g hj hjk hg => ?_, fun slot t _ ht hst => ?_, fun slot t _ ht => ?_⟩
  · obtain ⟨hstate, -, t, ht, hserved, hc⟩ := h.crane j g hj hjk hg
    refine ⟨hstate, fun hgn => ?_, t, ht, hserved, hc⟩
    obtain ⟨-, hat⟩ := Yard.ticket?_eq_some.1 ht
    rw [hgn] at hat
    rw [hn t hat] at hserved
    cases hserved
  · by_cases hs : slot = i
    · subst hs
      rw [(hi t ht).1] at hst
      cases hst
    · exact h.ticket slot t hs ht hst
  · by_cases hs : slot = i
    · subst hs
      exact (hi t ht).2
    · exact h.shape slot t hs ht

theorem CraneRecord.job_eq {c c' : CraneRecord} (h : c'.job = c.job) :
    (c'.state = .busy ∨ c'.state = .stopped ↔ c.state = .busy ∨ c.state = .stopped) ∧ c'.current = c.current
      ∧ c'.stage = c.stage := by
  obtain ⟨hs, hc, hst⟩ := Prod.mk.injEq .. ▸ Prod.mk.injEq .. ▸ h
  exact ⟨decide_eq_decide.1 hs, hc, hst⟩

section
variable {e : Site} {k i : Nat} {y y' : Yard}

theorem Yard.Spares.ticketHandle (h : Yard.Spares e k i y y') (j : Nat) : y'.ticketHandle j = y.ticketHandle j := by
  unfold Yard.ticketHandle
  rw [h.gens]

/-- A ticket under way in another slot goes on under its handle. -/
theorem Yard.Spares.ticket? (h : Yard.Spares e k i y y') {g : Handle} {t : Ticket} (hg : g.slot ≠ i)
    (ht : y.ticket? g = some t) (hs : t.state.served = true) : ∃ t', y'.ticket? g = some t' ∧ t.Continues t' := by
  obtain ⟨hgen, hat⟩ := Yard.ticket?_eq_some.1 ht
  obtain ⟨t', ht', hc⟩ := (h.slots g.slot hg).kept t hat hs
  exact ⟨t', Yard.ticket?_eq_some.2 ⟨(h.gens _).trans hgen, ht'⟩, hc⟩

/-- A change that spares the work of the other cranes keeps the agreement but for the crane and the slot it touches. -/
theorem Yard.servesBut.spared (hs : y.servesBut k i) (h : Yard.Spares e k i y y') : y'.servesBut k i := by
  refine ⟨fun j g hj hjk hg => ?_, fun slot t' hsl ht' hst => ?_, fun slot t' hsl ht' => ?_⟩
  · obtain ⟨hstate, hcur, -⟩ := CraneRecord.job_eq (h.jobs j hjk)
    obtain ⟨hbusy, hgi, t, ht, hserved, hc⟩ := hs.crane j g hj hjk (hcur.symm.trans hg)
    obtain ⟨t', ht', hcont⟩ := h.ticket? hgi ht hserved
    exact ⟨by rwa [hstate], hgi, t', ht', by rwa [hcont.state], hcont.crane.trans hc⟩
  · obtain ⟨t, ht, hserved⟩ := (h.slots slot hsl).came t' ht' hst
    obtain ⟨u, hu, hcont⟩ := (h.slots slot hsl).kept t ht hserved
    obtain rfl := Option.some.inj (ht'.symm.trans hu)
    obtain ⟨j, hj, hjk, hc, hcur⟩ := hs.ticket slot t hsl ht hserved
    obtain ⟨-, hcur', -⟩ := CraneRecord.job_eq (h.jobs j hjk)
    exact ⟨j, hj, hjk, hcont.crane.trans hc, by rw [hcur', h.ticketHandle]; exact hcur⟩
  · exact (h.slots slot hsl).shape (fun t ht => hs.shape slot t hsl ht) t' ht'

/-! ## The claims that hold the bays of the work under way -/

/-- R139: the bays a ticket needs. -/
theorem mem_neededBays {t : Ticket} {b : Nat} : b ∈ neededBays e y t ↔
    (∃ src, t.source = some src ∧ (∀ n, src ≠ .hook n) ∧ b = sourceBay e y src)
      ∨ ∃ d, t.dest = some d ∧ b = destBay y d := by
  have hdest : b ∈ destBays y t ↔ ∃ d, t.dest = some d ∧ b = destBay y d := by
    unfold destBays
    split <;> simp_all
  unfold neededBays
  split
  · rw [hdest]
    simp_all
  · rename_i src hnot hsrc
    rw [List.mem_cons, hdest, hsrc]
    refine or_congr_left ⟨fun hb => ⟨src, rfl, hnot, hb⟩, ?_⟩
    rintro ⟨src', h, -, hb⟩
    obtain rfl := Option.some.inj h
    exact hb
  · rw [hdest]
    simp_all

theorem Yard.Spares.destBay (h : Yard.Spares e k i y y') (d : Dest) : destBay y' d = destBay y d := by
  cases d with
  | stack s => exact h.stackBays s
  | lane l => exact h.laneBays l
  | truck n => exact h.truckBays n
  | bay b => rfl

theorem Yard.Spares.sourceBay (h : Yard.Spares e k i y y') {src : Location} (hsrc : ∀ n, src ≠ .hook n) :
    sourceBay e y' src = sourceBay e y src := by
  cases src with
  | bed b n => rfl
  | hook n => exact absurd rfl (hsrc n)
  | lane l => exact h.laneBays l
  | stack s n => exact h.stackBays s
  | truck n m => exact h.truckBays n

/-- The current ticket of a crane, by its handle. -/
theorem currentTicket_eq_some {n slot : Nat} {t : Ticket} :
    currentTicket y n = some (slot, t) ↔ ∃ g, (y.crane n).current = some g ∧ y.ticket? g = some t ∧ g.slot = slot := by
  unfold currentTicket
  constructor
  · intro h
    split at h
    · rename_i g hg
      split at h
      · rename_i u hu
        obtain ⟨rfl, rfl⟩ := Prod.mk.injEq .. ▸ Option.some.inj h
        exact ⟨g, hg, hu, rfl⟩
      · cases h
    · cases h
  · rintro ⟨g, hg, ht, rfl⟩
    simp only [hg, ht]

/-- What a claim holds for the ticket of a crane, the stage order of the crane aside. -/
structure Ticket.heldBy (e : Site) (y : Yard) (t : Ticket) (c : Interval) : Prop where
  granted : t.state = .granted → ∀ b ∈ neededBays e y t, c.holds b = true
  lifting : t.state = .lifting → ∀ src, t.source = some src → c.holds (Machine.sourceBay e y src) = true
  laden   : (t.state = .lifting ∧ t.weightFailed = false ∧ t.holdPending = false) ∨ t.state = .lifted
      ∨ t.state = .setting →
    ∀ d, t.dest = some d → c.holds (Machine.destBay y d) = true

theorem Yard.claimCovers_iff (n : Nat) : y.claimCovers e n ↔
    ((y.crane n).state = .busy ∨ (y.crane n).state = .stopped → y.claim n ≠ none)
      ∧ ∀ slot t, currentTicket y n = some (slot, t) → ∃ c, y.claim n = some c
        ∧ (∀ o, (y.crane n).stage = some o → o.kind = .travel → c.holds o.arg = true) ∧ t.heldBy e y c := by
  refine and_congr_right fun _ => forall_congr' fun slot => forall_congr' fun t => imp_congr_right fun _ =>
    exists_congr fun c => and_congr_right fun _ => and_congr_right fun _ => ?_
  exact ⟨fun ⟨h1, h2, h3⟩ => ⟨h1, h2, h3⟩, fun h => ⟨h.granted, h.lifting, h.laden⟩⟩

/-- A ticket that goes on needs no further bay. -/
theorem Ticket.heldBy.continues {t t' : Ticket} {c : Interval} (h : t.heldBy e y c) (hsp : Yard.Spares e k i y y')
    (hshape : t.shaped) (ht : t.Continues t') : t'.heldBy e y' c := by
  have hd : ∀ d, t'.dest = some d → t.dest = some d := fun d hd => by
    rcases ht.dest with he | he
    · exact he ▸ hd
    · rw [he] at hd
      cases hd
  refine ⟨fun hst b hb => ?_, fun hst src hsrc => ?_, fun hst d hdest => ?_⟩
  · rw [ht.state] at hst
    refine h.granted hst b (mem_neededBays.2 ?_)
    rcases mem_neededBays.1 hb with ⟨src, hsrc, hnot, rfl⟩ | ⟨d, hdest, rfl⟩
    · exact .inl ⟨src, ht.source ▸ hsrc, hnot, hsp.sourceBay hnot⟩
    · exact .inr ⟨d, hd d hdest, hsp.destBay d⟩
  · rw [ht.state] at hst
    rw [ht.source] at hsrc
    rw [hsp.sourceBay fun n hn => hshape.2.2 (.inr hst) n (hn ▸ hsrc)]
    exact h.lifting hst src hsrc
  · rw [ht.state] at hst
    rw [hsp.destBay]
    refine h.laden (hst.imp_left fun ⟨h1, h2, h3⟩ => ⟨h1, ?_, ?_⟩) d (hd d hdest)
    · exact Bool.eq_false_iff.2 fun hw => by rw [ht.weight hw] at h2; cases h2
    · exact Bool.eq_false_iff.2 fun hw => by rw [ht.hold hw] at h3; cases h3

/-- The claim of another crane goes on holding the bays of its work. -/
theorem Yard.claimCovers.spared {j : Nat} (hc : y.claimCovers e j) (h : Yard.Spares e k i y y') (hs : y.servesBut k i)
    (hj : j < 3) (hjk : j ≠ k) : y'.claimCovers e j := by
  rw [Yard.claimCovers_iff] at hc ⊢
  obtain ⟨hstate, hcur, hstage⟩ := CraneRecord.job_eq (h.jobs j hjk)
  obtain ⟨hbusy, hheld⟩ := hc
  rw [hstate, hstage, h.claims j hjk]
  refine ⟨hbusy, fun slot t' ht' => ?_⟩
  obtain ⟨g, hg, hgt', rfl⟩ := currentTicket_eq_some.1 ht'
  rw [hcur] at hg
  obtain ⟨-, hgi, t, ht, hserved, -⟩ := hs.crane j g hj hjk hg
  obtain ⟨u, hu, hcont⟩ := h.ticket? hgi ht hserved
  obtain rfl := Option.some.inj (hgt'.symm.trans hu)
  obtain ⟨c, hcl, htravel, hheld⟩ := hheld g.slot t (currentTicket_eq_some.2 ⟨g, hg, ht, rfl⟩)
  exact ⟨c, hcl, htravel, hheld.continues h (hs.shape g.slot t hgi (Yard.ticket?_eq_some.1 ht).2) hcont⟩

/-- The claims of the three cranes hold the bays of their work. -/
def Yard.covered (e : Site) (y : Yard) : Prop := ∀ k, k < 3 → y.claimCovers e k

/-- The claims of all cranes hold the bays of their work when those of the others did and that of crane `k` does. -/
theorem Yard.covered.spared (hc : y.covered e) (h : Yard.Spares e k i y y') (hs : y.servesBut k i)
    (hk : k < 3 → y'.claimCovers e k) : y'.covered e := fun j hj => by
  by_cases hjk : j = k
  · subst hjk
    exact hk hj
  · exact (hc j hj).spared h hs hj hjk

end

/-! ## Numbers past the three cranes and the 24 slots -/

theorem Yard.crane_ge (y : Yard) {k : Nat} (h : 3 ≤ k) : y.crane k = .reset 0 := getOr_ge _ _ _ h

theorem Yard.claim_ge (y : Yard) {k : Nat} (h : 3 ≤ k) : y.claim k = none := by
  unfold Yard.claim Yard.arb
  rw [getOr_ge _ _ _ h]

theorem Yard.ticketAt_ge (y : Yard) {i : Nat} (h : 24 ≤ i) : y.ticketAt i = none := by
  unfold Yard.ticketAt Yard.ticketSlot
  rw [getOr_ge _ _ _ h]

/-- A crane and a slot that are not there leave the whole agreement. -/
theorem Yard.serves.but_none {y : Yard} (h : y.serves) : y.servesBut 3 24 := by
  refine h.but (fun g hg => ?_) fun t ht => ?_
  · rw [Yard.crane_ge y (Nat.le_refl 3)] at hg
    cases hg
  · rw [Yard.ticketAt_ge y (Nat.le_refl 24)] at ht
    cases ht

section
variable {e : Site} {y y' : Yard}

/-- A change that spares the work of every crane keeps the agreement. -/
theorem Yard.serves.spared (hs : y.serves) (h : Yard.Spares e 3 24 y y') : y'.serves := by
  refine (hs.but_none.spared h).serves (fun _ hk => absurd hk (Nat.lt_irrefl 3)) (fun t ht => ?_) fun t ht => ?_
  all_goals
    rw [Yard.ticketAt_ge y' (Nat.le_refl 24)] at ht
    cases ht

theorem Yard.Spares.claim_eq {i : Nat} (h : Yard.Spares e 3 i y y') (j : Nat) : y'.claim j = y.claim j := by
  by_cases hj : j = 3
  · subst hj
    rw [Yard.claim_ge y (Nat.le_refl 3), Yard.claim_ge y' (Nat.le_refl 3)]
  · exact h.claims j hj

/-! ## The changes that keep everything -/

/-- A change of the yard that keeps the ranges, the order of the claims, the agreement of cranes and tickets, and the claims
that hold the bays of the work under way. -/
structure Yard.Keeps (e : Site) (y y' : Yard) : Prop extends Yard.Sound e y y' where
  apart   : y.claimsApart → y'.claimsApart
  ordered : y.claimsOrdered → y'.claimsOrdered
  queue   : y.queueOk → y'.queueOk
  serves  : y.queueOk → y.serves → y'.serves
  covered : y.queueOk → y.serves → y.covered e → y'.covered e

theorem Yard.Keeps.refl (e : Site) (y : Yard) : Yard.Keeps e y y :=
  ⟨.refl e y, id, id, id, fun _ => id, fun _ _ => id⟩

theorem Yard.Keeps.trans {y'' : Yard} (h : Yard.Keeps e y y') (k : Yard.Keeps e y' y'') : Yard.Keeps e y y'' where
  toSound := h.toSound.trans k.toSound
  apart ha := k.apart (h.apart ha)
  ordered ho := k.ordered (h.ordered ho)
  queue hq := k.queue (h.queue hq)
  serves hq hs := k.serves (h.queue hq) (h.serves hq hs)
  covered hq hs hc := k.covered (h.queue hq) (h.serves hq hs) (h.covered hq hs hc)

/-- Claims that read as before are in the same order. -/
theorem Yard.claimsApart.of_eq (h : y.claimsApart) (he : ∀ j, y'.claim j = y.claim j) : y'.claimsApart := by
  unfold Yard.claimsApart at h ⊢
  simpa only [he] using h

theorem Yard.claimsOrdered.of_eq (h : y.claimsOrdered) (he : ∀ j, y'.claim j = y.claim j) : y'.claimsOrdered := by
  unfold Yard.claimsOrdered at h ⊢
  simpa only [he] using h

/-- A change that spares the work of every crane. -/
theorem Yard.Keeps.of_spares (h : Yard.Spares e 3 24 y y') (hq : y.queueOk → y'.queueOk) : Yard.Keeps e y y' where
  toSound := h.toSound
  apart ha := ha.of_eq h.claim_eq
  ordered ho := ho.of_eq h.claim_eq
  queue := hq
  serves _ hs := hs.spared h
  covered _ hs hc := hc.spared h hs.but_none fun hk => absurd hk (Nat.lt_irrefl 3)

/-- A change that spares the work of every crane and follows the queue. -/
theorem Yard.Keeps.of_follows (h : Yard.Spares e 3 24 y y') (hf : Yard.Follows y y') : Yard.Keeps e y y' :=
  .of_spares h hf.queue

theorem Yard.Keeps.forEach {α : Type} (f : Yard → α → Yard) (h : ∀ y a, Yard.Keeps e y (f y a)) (xs : List α) (y : Yard) :
    Yard.Keeps e y (Machine.forEach xs f y) := by
  unfold Machine.forEach
  induction xs generalizing y with
  | nil => exact refl e y
  | cons x xs ih => exact (h y x).trans (ih (f y x))

end

end Sys2Proof.Machine
end

