-- ==== Sys2Proof/Proofs/Granting.lean ====
section
/-! PROOF. The follow-up work of a change and the arbiter keep the ranges, the order of the claims, the agreement of cranes and
tickets, and the claims that hold the bays of the work under way (R111, R139 to R147, R180). -/

namespace Sys2Proof.Machine

/-! ## Claims in order (R138) -/

section
variable {y y' : Yard} {k : Nat} {i : Interval}

theorem Yard.claim_setClaim (y : Yard) (c : Option Interval) (j : Nat) (hk : k < 3) :
    (y.setClaim k c).claim j = if k = j then c else y.claim j := by
  split
  · rename_i h
    subst h
    exact Yard.claim_setClaim_same _ _ _ hk
  · rename_i h
    exact Yard.claim_setClaim_ne _ _ _ _ h

/-- R139: a span that a crane reaches meets no neighbour's claim. -/
theorem reaches_apart (h : reaches y k i = true) :
    (∀ j c, k = j + 1 → y.claim j = some c → c.hi < i.lo) ∧ ∀ c, y.claim (k + 1) = some c → i.hi < c.lo := by
  unfold reaches at h
  rw [Bool.and_eq_true] at h
  obtain ⟨hlow, hhigh⟩ := h
  constructor
  · rintro j c rfl hc
    simpa [hc] using hlow
  · intro c hc
    by_cases hk : k ≥ 2
    · rw [Yard.claim_ge y (by omega)] at hc
      cases hc
    · simpa [hk, hc] using hhigh

/-- R139: a claim written where the crane reaches keeps the neighbours' claims apart. -/
theorem Yard.claimsApart.setClaim (h : y.claimsApart) (hk : k < 3) (hi : i.lo ≤ i.hi) (hr : reaches y k i = true) :
    (y.setClaim k (some i)).claimsApart := by
  obtain ⟨hlow, hhigh⟩ := reaches_apart hr
  refine ⟨fun j c hc => ?_, fun j a b ha hb => ?_⟩
  · rw [Yard.claim_setClaim _ _ _ hk] at hc
    split at hc
    · obtain rfl := Option.some.inj hc
      exact hi
    · exact h.1 j c hc
  · rw [Yard.claim_setClaim _ _ _ hk] at ha hb
    split at ha
    · rename_i hkj
      obtain rfl := Option.some.inj ha
      rw [if_neg (by omega)] at hb
      subst hkj
      exact hhigh b hb
    · split at hb
      · rename_i hkj
        obtain rfl := Option.some.inj hb
        exact hlow j a hkj ha
      · exact h.2 j a b ha hb

/-- Where the middle crane has a claim, claims of neighbours that lie apart are all in crane order. -/
theorem Yard.claimsApart.ordered (h : y.claimsApart) (h1 : y.claim 1 ≠ none) : y.claimsOrdered := by
  refine ⟨h.1, fun j n a b hjn ha hb => ?_⟩
  have hn : n < 3 := by
    by_contra hn
    rw [Yard.claim_ge y (by omega)] at hb
    cases hb
  by_cases hnext : n = j + 1
  · subst hnext
    exact h.2 j a b ha hb
  · obtain ⟨rfl, rfl⟩ : j = 0 ∧ n = 2 := by omega
    obtain ⟨c, hc⟩ := Option.ne_none_iff_exists'.1 h1
    have h01 := h.2 0 a c ha hc
    have h12 := h.2 1 c b hc hb
    have h11 := h.1 1 c hc
    omega

/-- Each claim lies within the one that it follows. -/
def Yard.narrows (y y' : Yard) : Prop :=
  ∀ j c', y'.claim j = some c' → c'.lo ≤ c'.hi ∧ ∃ c, y.claim j = some c ∧ c.lo ≤ c'.lo ∧ c'.hi ≤ c.hi

/-- A claim of one crane that is emptied, or takes an interval within it, narrows the claims. -/
theorem Yard.narrows_setClaim {c' : Option Interval} (h : y.claimsApart ∨ y.claimsOrdered) (hk : k < 3)
    (hc : ∀ i, c' = some i → i.lo ≤ i.hi ∧ ∃ c, y.claim k = some c ∧ c.lo ≤ i.lo ∧ i.hi ≤ c.hi) :
    y.narrows (y.setClaim k c') := by
  intro j a ha
  rw [Yard.claim_setClaim _ _ _ hk] at ha
  split at ha
  · rename_i hkj
    subst hkj
    exact hc a ha
  · exact ⟨h.elim (fun h => h.1 j a ha) (fun h => h.1 j a ha), a, ha, Nat.le_refl _, Nat.le_refl _⟩

theorem Yard.narrows.apart (hn : y.narrows y') (h : y.claimsApart) : y'.claimsApart := by
  refine ⟨fun j c hc => (hn j c hc).1, fun j a b ha hb => ?_⟩
  obtain ⟨-, a0, ha0, -, ha1⟩ := hn j a ha
  obtain ⟨-, b0, hb0, hb1, -⟩ := hn (j + 1) b hb
  have := h.2 j a0 b0 ha0 hb0
  omega

theorem Yard.narrows.ordered (hn : y.narrows y') (h : y.claimsOrdered) : y'.claimsOrdered := by
  refine ⟨fun j c hc => (hn j c hc).1, fun j n a b hjn ha hb => ?_⟩
  obtain ⟨-, a0, ha0, -, ha1⟩ := hn j a ha
  obtain ⟨-, b0, hb0, hb1, -⟩ := hn n b hb
  have := h.2 j n a0 b0 hjn ha0 hb0
  omega

theorem Yard.claimsOrdered.apart (h : y.claimsOrdered) : y.claimsApart :=
  ⟨h.1, fun j a b ha hb => h.2 j (j + 1) a b (Nat.lt_succ_self j) ha hb⟩

end

/-! ## Intervals (R139) -/

theorem Interval.holds_iff {c : Interval} {b : Nat} : c.holds b = true ↔ c.lo ≤ b ∧ b ≤ c.hi := by
  simp [Interval.holds]

theorem Interval.holds_join (c : Interval) (b : Nat) : (c.join b).holds b = true := by
  rw [Interval.holds_iff]
  exact ⟨Nat.min_le_right _ _, Nat.le_max_right _ _⟩

theorem Interval.holds_join_of {c : Interval} {b : Nat} (a : Nat) (h : c.holds b = true) : (c.join a).holds b = true := by
  rw [Interval.holds_iff] at h ⊢
  exact ⟨(Nat.min_le_left _ _).trans h.1, h.2.trans (Nat.le_max_left _ _)⟩

theorem Interval.join_le {c : Interval} (a : Nat) (h : c.lo ≤ c.hi) : (c.join a).lo ≤ (c.join a).hi :=
  (Nat.min_le_left _ _).trans (h.trans (Nat.le_max_left _ _))

theorem Interval.holds_foldl_of {c : Interval} {b : Nat} (bs : List Nat) (h : c.holds b = true) :
    (bs.foldl Interval.join c).holds b = true := by
  induction bs generalizing c with
  | nil => exact h
  | cons a bs ih => exact ih (Interval.holds_join_of a h)

theorem Interval.foldl_le {c : Interval} (bs : List Nat) (h : c.lo ≤ c.hi) :
    (bs.foldl Interval.join c).lo ≤ (bs.foldl Interval.join c).hi := by
  induction bs generalizing c with
  | nil => exact h
  | cons a bs ih => exact ih (Interval.join_le a h)

/-- The smallest interval around a claim and some bays holds each of them. -/
theorem Interval.foldl_holds (c : Interval) {b : Nat} {bs : List Nat} (h : b ∈ bs) :
    (bs.foldl Interval.join c).holds b = true := by
  induction bs generalizing c with
  | nil => cases h
  | cons a bs ih =>
    rcases List.mem_cons.1 h with rfl | h
    · exact Interval.holds_foldl_of bs (c.holds_join b)
    · exact ih _ h

/-! ## One crane and its ticket -/

section
variable {e : Site} {k i : Nat} {y y' : Yard}

/-- A ticket under way, its crane, and the agreement of the others. -/
theorem Yard.serves.of_ticket (hs : y.serves) {t : Ticket} (ht : y.ticketAt i = some t) (hst : t.state.served = true)
    (hc : t.crane = some k) : k < 3 ∧ (y.crane k).current = some (y.ticketHandle i)
      ∧ ((y.crane k).state = .busy ∨ (y.crane k).state = .stopped) ∧ t.shaped ∧ y.servesBut k i := by
  obtain ⟨j, hj, hcj, hcur⟩ := hs.2.1 i t ht hst
  obtain rfl := Option.some.inj (hcj.symm.trans hc)
  refine ⟨hj, hcur, (hs.1 j _ hj hcur).1, hs.2.2 i t ht, hs.but (fun g hg => ?_) fun u hu _ => ?_⟩
  · obtain rfl := Option.some.inj (hcur.symm.trans hg)
    rfl
  · obtain rfl := Option.some.inj (ht.symm.trans hu)
    exact hc

/-- The current ticket of a crane. -/
theorem Yard.serves.of_current (hs : y.serves) (hk : k < 3) {t : Ticket} (h : currentTicket y k = some (i, t)) :
    t.state.served = true ∧ t.crane = some k ∧ y.ticketAt i = some t := by
  obtain ⟨g, hg, ht, rfl⟩ := currentTicket_eq_some.1 h
  obtain ⟨-, u, hu, hserved, hc⟩ := hs.1 k g hk hg
  obtain rfl := Option.some.inj (ht.symm.trans hu)
  exact ⟨hserved, hc, (Yard.ticket?_eq_some.1 ht).2⟩

/-- A crane and a ticket that are each other's complete the agreement. -/
theorem Yard.servesBut.serves_pair (h : y.servesBut k i) (hk : k < 3) (hcur : (y.crane k).current = some (y.ticketHandle i))
    (hbusy : (y.crane k).state = .busy ∨ (y.crane k).state = .stopped) {t : Ticket} (ht : y.ticketAt i = some t)
    (hst : t.state.served = true) (hc : t.crane = some k) (hshape : t.shaped) : y.serves := by
  refine h.serves (fun g _ hg => ?_) (fun u hu _ => ?_) fun u hu => ?_
  · obtain rfl := Option.some.inj (hcur.symm.trans hg)
    exact ⟨hbusy, t, Yard.ticket?_eq_some.2 ⟨rfl, ht⟩, hst, hc⟩
  all_goals obtain rfl := Option.some.inj (ht.symm.trans hu)
  · exact ⟨hk, hc, hcur⟩
  · exact hshape

/-- A crane without a ticket and a ticket not under way complete the agreement. -/
theorem Yard.servesBut.serves_idle (h : y.servesBut k i) (hcur : (y.crane k).current = none)
    (hi : ∀ t, y.ticketAt i = some t → t.state.served = false ∧ t.shaped) : y.serves := by
  refine h.serves (fun g _ hg => ?_) (fun t ht hst => ?_) fun t ht => (hi t ht).2
  · rw [hcur] at hg
    cases hg
  · rw [(hi t ht).1] at hst
    cases hst

theorem Yard.claimCovers_pair (hcur : (y.crane k).current = some (y.ticketHandle i)) {t : Ticket}
    (ht : y.ticketAt i = some t) {c : Interval} (hclaim : y.claim k = some c)
    (htravel : ∀ o, (y.crane k).stage = some o → o.kind = .travel → c.holds o.arg = true) (hheld : t.heldBy e y c) :
    y.claimCovers e k := by
  refine (Yard.claimCovers_iff k).2 ⟨fun _ h => ?_, fun slot u hu => ⟨c, hclaim, htravel, ?_⟩⟩
  · rw [hclaim] at h
    cases h
  · obtain ⟨g, hg, hgu, -⟩ := currentTicket_eq_some.1 hu
    obtain rfl := Option.some.inj (hcur.symm.trans hg)
    obtain rfl := Option.some.inj (ht.symm.trans (Yard.ticket?_eq_some.1 hgu).2)
    exact hheld

theorem Yard.claimCovers_idle (hcur : (y.crane k).current = none)
    (hbusy : (y.crane k).state = .busy ∨ (y.crane k).state = .stopped → y.claim k ≠ none) : y.claimCovers e k := by
  refine (Yard.claimCovers_iff k).2 ⟨hbusy, fun slot u hu => ?_⟩
  obtain ⟨g, hg, -⟩ := currentTicket_eq_some.1 hu
  rw [hcur] at hg
  cases hg

/-- What a stage order sent leaves of its crane's record. -/
theorem sendStage_job (kind : OrderKind) (arg : Nat) (hk : k < 3) :
    ((sendStage e y k kind arg).crane k).state = (y.crane k).state
      ∧ ((sendStage e y k kind arg).crane k).current = (y.crane k).current
      ∧ ((sendStage e y k kind arg).crane k).stage = some ⟨kind, (y.crane k).nextSeq, arg⟩ := by
  rw [sendStage_crane _ _ _ _ _ hk]
  unfold CraneRecord.restart
  split <;> exact ⟨rfl, rfl, rfl⟩

@[simp] theorem sendStage_claim (n : Nat) (kind : OrderKind) (arg j : Nat) :
    (sendStage e y n kind arg).claim j = y.claim j := rfl

@[simp] theorem sendStage_ticketAt (n : Nat) (kind : OrderKind) (arg j : Nat) :
    (sendStage e y n kind arg).ticketAt j = y.ticketAt j := rfl

/-! ## Redirect searches (R111, R153, R185) -/

theorem someClaimEmpty_false (h : ¬someClaimEmpty y = true) : ∀ n, n < 3 → y.claim n ≠ none := by
  simp only [someClaimEmpty, Bool.or_eq_true, Option.isNone_iff_eq_none, not_or] at h
  obtain ⟨⟨h0, h1⟩, h2⟩ := h
  intro n hn
  have : n = 0 ∨ n = 1 ∨ n = 2 := by omega
  rcases this with rfl | rfl | rfl <;> assumption

theorem nearestStack_ok {bay s : Nat} {ok : Nat → Bool} (h : nearestStack y bay ok = some s) : ok s = true := by
  unfold nearestStack at h
  have hfold : ∀ (l : List Nat) (best : Option Nat), (∀ b, best = some b → ok b = true) →
      ∀ b, l.foldl (fun best s =>
        if ok s then
          match best with
          | some b => if distance (y.stack s).bay bay < distance (y.stack b).bay bay then some s else some b
          | none => some s
        else best) best = some b → ok b = true := by
    intro l
    induction l with
    | nil => exact fun best hb => hb
    | cons x l ih =>
      intro best hb
      refine ih _ fun b hbest => ?_
      dsimp only at hbest
      split at hbest
      · rename_i hx
        split at hbest
        · split at hbest
          · obtain rfl := Option.some.inj hbest
            exact hx
          · exact hb b hbest
        · obtain rfl := Option.some.inj hbest
          exact hx
      · exact hb b hbest
  exact hfold _ none (fun b hb => by cases hb) s h

/-- R111: a stack found by the laden search. -/
theorem ladenStack_some {s : Nat} {p : Handle} (h : ladenStack e y k p = some s) :
    ∃ c, y.claim k = some c ∧ (∀ n, n < 3 → y.claim n ≠ none) ∧ reaches y k (c.join (y.stack s).bay) = true := by
  unfold ladenStack at h
  split at h
  · cases h
  · rename_i c hc
    split at h
    · cases h
    · rename_i hfull
      have hok := nearestStack_ok h
      simp only [Bool.and_eq_true] at hok
      exact ⟨c, hc, someClaimEmpty_false hfull, hok.2⟩

theorem spares_giveDest (slot : Nat) (d : Dest)
    (hs : slot = i ∨ ∀ t, y.ticketAt slot = some t →
      t.Spares { t with dest := some d, redirected := true, waits := { t.waits with redirect := false } }) :
    Yard.Spares e k i y (giveDest y slot d) := by
  unfold giveDest
  refine Yard.Spares.trans ?_ (spares_claimDest _ _ _)
  exact .updTicket _ _ _ (fun _ _ h t ht => h.tickets _ t ht) hs

theorem claim_giveDest (slot : Nat) (d : Dest) (j : Nat) : (giveDest y slot d).claim j = y.claim j := by
  unfold giveDest claimDest
  split <;> rfl

theorem crane_giveDest (slot : Nat) (d : Dest) (j : Nat) : (giveDest y slot d).crane j = y.crane j := by
  unfold giveDest claimDest
  split <;> rfl

theorem ticketAt_giveDest (slot : Nat) (d : Dest) {t : Ticket} (ht : y.ticketAt slot = some t) :
    (giveDest y slot d).ticketAt slot
      = some { t with dest := some d, redirected := true, waits := { t.waits with redirect := false } } := by
  have h := Yard.ticketAt_updTicket_same y slot
    (fun u => { u with dest := some d, redirected := true, waits := { u.waits with redirect := false } })
    (Yard.ticketAt_lt _ _ _ ht)
  rw [ht] at h
  unfold giveDest claimDest
  split <;> exact h

/-- R185, R153: a laden ticket redirected to a stack that its crane reaches. -/
theorem keeps_giveLaden {slot s : Nat} {t : Ticket} {p : Handle} (ht : y.ticketAt slot = some t) (hst : t.state = .lifted)
    (hc : t.crane = some k) (hs : ladenStack e y k p = some s) : Yard.Keeps e y (giveLaden e y slot k s) := by
  obtain ⟨c, hclaim, hfull, hreach⟩ := ladenStack_some hs
  have hk : k < 3 := by
    by_contra hk
    rw [Yard.claim_ge y (by omega)] at hclaim
    cases hclaim
  set bay := (y.stack s).bay with hbay
  have hspares : Yard.Spares e k slot y (giveLaden e y slot k s) := by
    unfold giveLaden
    dsimp only
    refine Yard.Spares.trans ?_ (spares_sendStage _ _ _)
    refine Yard.Spares.trans ?_ (.setClaim _ _)
    exact spares_giveDest _ _ (.inl rfl)
  have hclaims : ∀ j, (giveLaden e y slot k s).claim j = (y.setClaim k (some (c.join bay))).claim j := fun j => by
    unfold giveLaden
    dsimp only
    rw [sendStage_claim, Yard.claim_setClaim _ _ _ hk, Yard.claim_setClaim _ _ _ hk, claim_giveDest, claim_giveDest, hclaim]
    rfl
  have hticket : (giveLaden e y slot k s).ticketAt slot
      = some { t with dest := some (.stack s), redirected := true, waits := { t.waits with redirect := false } } :=
    ticketAt_giveDest slot (.stack s) ht
  have hcrane : ((giveLaden e y slot k s).crane k).state = (y.crane k).state
      ∧ ((giveLaden e y slot k s).crane k).current = (y.crane k).current
      ∧ ∃ q, ((giveLaden e y slot k s).crane k).stage = some ⟨.travel, q, bay⟩ := by
    unfold giveLaden
    obtain ⟨h1, h2, h3⟩ := sendStage_job (e := e)
      (y := (giveDest y slot (.stack s)).setClaim k (((giveDest y slot (.stack s)).claim k).map (fun c => c.join bay)))
      .travel bay hk
    have hy : ((giveDest y slot (.stack s)).setClaim k
        (((giveDest y slot (.stack s)).claim k).map (fun c => c.join bay))).crane k = y.crane k :=
      crane_giveDest slot (.stack s) k
    rw [hy] at h1 h2 h3
    exact ⟨h1, h2, _, h3⟩
  obtain ⟨hstate, hcur, q, hstage⟩ := hcrane
  have hapart : y.claimsApart → (giveLaden e y slot k s).claimsApart := fun ha =>
    (ha.setClaim hk (Interval.join_le _ (ha.1 k c hclaim)) hreach).of_eq hclaims
  refine ⟨hspares.toSound, hapart, fun ho => (hapart ho.apart).ordered ?_,
    (Yard.Follows.of_census (census_giveLaden e y slot k s)).queue, fun _ hserves => ?_, fun _ hserves hcov => ?_⟩
  · rw [hclaims, Yard.claim_setClaim _ _ _ hk]
    split
    · exact Option.some_ne_none _
    · exact hfull 1 (by decide)
  all_goals
    obtain ⟨-, hcurrent, hbusy, hshape, hbut⟩ := hserves.of_ticket ht (by rw [hst]; rfl) hc
    have hcurrent' : ((giveLaden e y slot k s).crane k).current = some ((giveLaden e y slot k s).ticketHandle slot) := by
      rw [hcur, hspares.ticketHandle, hcurrent]
  · refine (hbut.spared hspares).serves_pair hk hcurrent' (by rwa [hstate]) hticket (by rw [hst]; rfl) hc ?_
    refine ⟨fun hkind => absurd hst ?_, hshape.2.1, hshape.2.2⟩
    obtain ⟨-, -, -, -, hl, -⟩ := hshape.1 hkind
    exact hl
  · refine hcov.spared hspares hbut fun _ => ?_
    have hholds : (c.join bay).holds bay = true := c.holds_join bay
    refine Yard.claimCovers_pair hcurrent' hticket (c := c.join bay) ?_ (fun o ho _ => ?_)
      ⟨fun h => ?_, fun h => ?_, fun _ d hd => ?_⟩
    · rw [hclaims, Yard.claim_setClaim_same _ _ _ hk]
    · rw [hstage] at ho
      obtain rfl := Option.some.inj ho
      exact hholds
    · rw [hst] at h
      cases h
    · rw [hst] at h
      cases h
    · obtain rfl := Option.some.inj hd
      rw [hspares.destBay]
      exact hholds

/-- R111: an unladen search gives a waiting ticket its destination. -/
theorem keeps_giveDest {slot : Nat} {t : Ticket} {p : Handle} (d : Dest) (ht : y.ticketAt slot = some t)
    (hst : t.state = .pending ∨ t.state = .ready) (hp : t.piece = some p) : Yard.Keeps e y (giveDest y slot d) := by
  refine .of_follows (spares_giveDest _ _ (.inr fun u hu => ?_)) (.of_census (census_giveDest _ _ _))
  obtain rfl := Option.some.inj (ht.symm.trans hu)
  have hw := TicketState.waiting_not_served hst
  refine ⟨fun h => (by rw [hw] at h; cases h), id, fun ⟨hbay, hrest, hhook⟩ => ⟨fun hk => ?_, hrest, hhook⟩⟩
  obtain ⟨hnone, -⟩ := hbay hk
  rw [hp] at hnone
  cases hnone

theorem keeps_redirectOne (e : Site) (y : Yard) (slot : Nat) : Yard.Keeps e y (redirectOne e y slot) := by
  unfold redirectOne
  split
  · rename_i t ht
    split
    · rename_i p src _ hp _
      split
      · rename_i hst
        split
        · rename_i k hc
          split
          · rename_i s hs
            exact keeps_giveLaden ht hst hc hs
          · exact .refl e y
        · exact .refl e y
      · split
        · rename_i hst
          split
          · exact keeps_giveDest _ ht hst hp
          · exact .refl e y
        · exact .refl e y
    · exact .refl e y
  · exact .refl e y

theorem keeps_redirectAll (e : Site) (y : Yard) : Yard.Keeps e y (redirectAll e y) := .forEach _ (keeps_redirectOne e) _ _

/-! ## The follow-up work (R122, R123, R126, R180) -/

theorem keeps_createPick (e : Site) (y : Yard) (n : Nat) : Yard.Keeps e y (createPick e y n) :=
  .of_follows (spares_createPick y n) (follows_createPick e y n)

theorem keeps_digRound (e : Site) (y : Yard) (n : Nat) : Yard.Keeps e y (digRound e y n) :=
  .of_follows (spares_digRound y n) (follows_digRound e y n)

theorem keeps_waitingPass (e : Site) (y : Yard) : Yard.Keeps e y (waitingPass e y) :=
  ((keeps_redirectAll e y).trans (.forEach _ (keeps_createPick e) _ _)).trans (.forEach _ (keeps_digRound e) _ _)

theorem keeps_waitingWork (e : Site) (n : Nat) (y : Yard) : Yard.Keeps e y (waitingWork e n y) := by
  induction n generalizing y with
  | zero => exact .refl e y
  | succ n ih =>
    unfold waitingWork
    dsimp only
    split
    · exact keeps_waitingPass e y
    · exact (keeps_waitingPass e y).trans (ih _)

theorem keeps_refreshLevels (e : Site) (y : Yard) : Yard.Keeps e y (refreshLevels e y) :=
  .of_follows (spares_refreshLevels y) (.of_census (census_refreshLevels e y))

theorem keeps_refreshTicket (e : Site) (y : Yard) (n : Nat) : Yard.Keeps e y (refreshTicket e y n) :=
  .of_follows (spares_refreshTicket y n) (.of_census (census_refreshTicket e y n))

theorem keeps_refreshAll (e : Site) (y : Yard) : Yard.Keeps e y (refreshAll e y) := .forEach _ (keeps_refreshTicket e) _ _

theorem keeps_promoteAll (e : Site) (y : Yard) : Yard.Keeps e y (promoteAll y) :=
  .of_follows (spares_promoteAll y) (.of_census (census_promoteAll y))

theorem keeps_followUp (e : Site) (y : Yard) : Yard.Keeps e y (followUp e y) := by
  unfold followUp
  exact ((((keeps_promoteAll e y).trans (keeps_refreshLevels e _)).trans (keeps_waitingWork e _ _)).trans
    (keeps_refreshLevels e _)).trans (keeps_refreshAll e _)

end

end Sys2Proof.Machine
end

