-- ==== Sys2Proof/Proofs/Arbiting.lean ====
section
/-! PROOF. An evaluation of the arbiter keeps the ranges, the order of the claims, the agreement of cranes and tickets, and the
claims that hold the bays of the work under way (R138 to R147); so does all that follows a change of the yard (R141, R153). -/

namespace Sys2Proof.Machine

/-! ## READY tickets have a bay to go to (R121, R122) -/

/-- R121, REDIRECT: a READY ticket for a piece has a destination. -/
def Ticket.aimed (t : Ticket) : Prop := t.state = .ready → t.kind = .yield ∨ t.kind = .park ∨ t.dest.isSome = true

def Yard.aimed (y : Yard) : Prop := ∀ i t, y.ticketAt i = some t → t.aimed

section
variable {e : Site} {k i slot u : Nat} {t : Ticket} {y y' y'' : Yard}

theorem evalWaits_none (h : evalWaits e y slot t = .none) : t.kind = .yield ∨ t.kind = .park ∨ t.dest.isSome = true := by
  unfold evalWaits at h
  split at h
  · rename_i hk
    exact hk.elim .inl fun h => .inr (.inl h)
  · have hr : t.dest.isNone = false := congrArg Waits.redirect h
    exact .inr (.inr (by simpa using hr))

/-- R122: a ticket evaluated is READY only with a bay to go to. -/
theorem refreshTicket_aimed (e : Site) (y : Yard) (slot : Nat) :
    ∀ t, y.ticketAt slot = some t → ∃ t', (refreshTicket e y slot).ticketAt slot = some t' ∧ t'.aimed := by
  intro t ht
  by_cases hw : t.state = .pending ∨ t.state = .ready
  · refine ⟨_, refreshTicket_waiting e y slot t ht hw, fun hr => ?_⟩
    dsimp only at hr ⊢
    split at hr
    · exact evalWaits_none ‹_›
    · cases hr
  · refine ⟨t, by rw [refreshTicket_other e y slot t ht hw]; exact ht, fun hr => absurd (.inr hr) hw⟩

/-- Tickets that have a bay to go to keep one when a slot is evaluated. -/
theorem aimed_refreshTicket (h : ∀ t, i ≠ slot → y.ticketAt i = some t → t.aimed) :
    ∀ t, (refreshTicket e y slot).ticketAt i = some t → t.aimed := by
  intro t ht
  by_cases hi : i = slot
  · subst hi
    cases hu : y.ticketAt i with
    | none =>
      have hy : refreshTicket e y i = y := by
        unfold refreshTicket
        simp only [hu]
      rw [hy, hu] at ht
      cases ht
    | some u =>
      obtain ⟨t', ht', haimed⟩ := refreshTicket_aimed e y i u hu
      obtain rfl := Option.some.inj (ht.symm.trans ht')
      exact haimed
  · rw [refreshTicket_ne _ _ _ _ (Ne.symm hi)] at ht
    exact h t hi ht

theorem aimed_refreshEach (slots : List Nat) (y : Yard) (i : Nat)
    (h : i ∈ slots ∨ ∀ t, y.ticketAt i = some t → t.aimed) :
    ∀ t, (forEach slots (refreshTicket e) y).ticketAt i = some t → t.aimed := by
  induction slots generalizing y with
  | nil => exact h.resolve_left List.not_mem_nil
  | cons n slots ih =>
    refine ih (refreshTicket e y n) ?_
    by_cases hi : i = n
    · exact .inr (aimed_refreshTicket fun _ hn => absurd hi hn)
    · refine h.imp (fun hmem => (List.mem_cons.1 hmem).resolve_left hi) fun h => ?_
      exact aimed_refreshTicket fun t _ => h t

theorem aimed_refreshAll (hq : y.queueOk) : (refreshAll e y).aimed := by
  intro n t ht
  have hsame : (refreshAll e y).census = y.census := census_refreshAll e y
  obtain ⟨-, -, hused, -⟩ := (Yard.Follows.of_census hsame).queue hq
  have hmem : n ∈ (refreshAll e y).moveQueue := (hused n).2 (by rw [ht]; rfl)
  have hqueue : (refreshAll e y).moveQueue = y.moveQueue := congrArg Census.moveQueue hsame
  rw [hqueue] at hmem
  exact aimed_refreshEach _ y n (.inl hmem) t ht

/-- R122: after the follow-up work every READY ticket has a bay to go to. -/
theorem aimed_followUp (hq : y.queueOk) : (followUp e y).aimed := by
  unfold followUp
  refine aimed_refreshAll ?_
  exact ((((keeps_promoteAll e y).trans (keeps_refreshLevels e _)).trans (keeps_waitingWork e _ _)).trans
    (keeps_refreshLevels e _)).queue hq

/-! ## What the grants of an evaluation keep -/

/-- R140: no claim is empty. -/
def Yard.full (y : Yard) : Prop := ∀ n, n < 3 → y.claim n ≠ none

/-- A change of the yard by the arbiter, which runs only while no claim is empty. -/
structure Yard.Grants (e : Site) (y y' : Yard) : Prop extends Yard.Sound e y y' where
  full    : y.full → y'.full
  apart   : y.full → y.claimsApart → y'.claimsApart
  queue   : y.queueOk → y'.queueOk
  aimed   : y.aimed → y'.aimed
  serves  : y.serves → y'.serves
  covered : y.full → y.aimed → y.serves → y.covered e → y'.covered e

theorem Yard.Grants.refl (e : Site) (y : Yard) : Yard.Grants e y y :=
  ⟨.refl e y, id, fun _ => id, id, id, id, fun _ _ _ => id⟩

theorem Yard.Grants.trans (h : Yard.Grants e y y') (h' : Yard.Grants e y' y'') : Yard.Grants e y y'' where
  toSound := h.toSound.trans h'.toSound
  full hf := h'.full (h.full hf)
  apart hf ha := h'.apart (h.full hf) (h.apart hf ha)
  queue hq := h'.queue (h.queue hq)
  aimed ha := h'.aimed (h.aimed ha)
  serves hs := h'.serves (h.serves hs)
  covered hf ha hs hc := h'.covered (h.full hf) (h.aimed ha) (h.serves hs) (h.covered hf ha hs hc)

/-- A change that spares the work of every crane. -/
theorem Yard.Grants.of_spares (h : Yard.Spares e 3 24 y y') (hf : Yard.Follows y y') (ha : y.aimed → y'.aimed) :
    Yard.Grants e y y' where
  toSound := h.toSound
  full hfull n hn := by rw [h.claim_eq]; exact hfull n hn
  apart _ hapart := hapart.of_eq h.claim_eq
  queue := hf.queue
  aimed := ha
  serves hs := hs.spared h
  covered _ _ hs hc := hc.spared h hs.but_none fun hk => absurd hk (Nat.lt_irrefl 3)

/-! ## Grants (R127, R139, R143) -/

theorem Yard.Spares.neededBays_eq (h : Yard.Spares e k i y y') {t' : Ticket} (hs : t'.source = t.source)
    (hd : t'.dest = t.dest) : neededBays e y' t' = neededBays e y t := by
  have hdest : destBays y' t' = destBays y t := by
    unfold destBays
    rw [hd]
    split
    · rw [h.destBay]
    · rfl
  unfold neededBays
  rw [hdest, hs]
  split
  · rfl
  · rename_i src hnot _
    rw [h.sourceBay hnot]
  · rfl

/-- The reach of a crane and the span of its ticket read the claims and the bays alone. -/
theorem Yard.Spares.reachesTicket_eq (h : Yard.Spares e k i y y') (hc : ∀ j, y'.claim j = y.claim j) (n : Nat) (t : Ticket) :
    reachesTicket e y' n t = reachesTicket e y n t := by
  unfold reachesTicket span reaches
  simp only [hc, h.neededBays_eq rfl rfl]

theorem Ticket.fromHook_iff : t.fromHook = true ↔ ∃ j, t.source = some (.hook j) := by
  unfold Ticket.fromHook
  split <;> simp_all

theorem grant_claim (j : Nat) : (grant e y slot k t).claim j = (y.setClaim k (span e y k t)).claim j := rfl

theorem grant_ticketAt (ht : y.ticketAt slot = some t) : (grant e y slot k t).ticketAt slot
    = some { t with state := if t.fromHook then .lifted else .granted, crane := some k } := by
  have h := Yard.ticketAt_updTicket_same (y.setClaim k (span e y k t)) slot
    (fun u => { u with state := if t.fromHook then .lifted else .granted, crane := some k }) (Yard.ticketAt_lt _ _ _ ht)
  have hy : (y.setClaim k (span e y k t)).ticketAt slot = some t := ht
  rw [hy] at h
  exact h

theorem grant_crane (hk : k < 3) : ((grant e y slot k t).crane k).state = .busy
    ∧ ((grant e y slot k t).crane k).current = some (y.ticketHandle slot)
    ∧ ∃ q, ((grant e y slot k t).crane k).stage = some ⟨.travel, q, grantBay e y t⟩ := by
  unfold grant
  dsimp only
  obtain ⟨h1, h2, h3⟩ := sendStage_job (e := e)
    (y := (((y.setClaim k (span e y k t)).updTicket slot
      (fun u => { u with state := if t.fromHook then .lifted else .granted, crane := some k })).updCrane k
        (fun c => { c with state := .busy, current := some (y.ticketHandle slot) }))) .travel (grantBay e y t) hk
  rw [Yard.crane_updCrane_same _ _ _ hk] at h1 h2
  exact ⟨h1, h2, _, h3⟩

/-- R143: a grant touches the crane and the ticket alone. -/
theorem spares_grant (hstate : (y.crane k).state = .idle ∨ (y.crane k).state = .busy) :
    Yard.Spares e k slot y (grant e y slot k t) := by
  unfold grant
  dsimp only
  refine Yard.Spares.trans ?_ (spares_sendStage _ _ _)
  refine Yard.Spares.trans ?_ (.updCrane _ k _ (fun _ q h => h) (fun h => ?_) (fun _ => rfl) (.inl rfl))
  · refine Yard.Spares.trans (.setClaim y (span e y k t)) (.updTicket _ slot _ (fun _ q h u hu => ?_) (.inl rfl))
    exact h.tickets slot u hu
  · obtain ⟨-, hhalt, hfault⟩ := h
    refine ⟨fun _ => .inl rfl, fun hh => ?_, fun hf => ?_⟩
    · have hs : (y.crane k).state = .stopped := hhalt hh
      rcases hstate with h | h <;> rw [h] at hs <;> cases hs
    · have hs : (y.crane k).state = .faulted := hfault hf
      rcases hstate with h | h <;> rw [h] at hs <;> cases hs

theorem serves_grant (hk : k < 3) (hstate : (y.crane k).state = .idle ∨ (y.crane k).state = .busy)
    (ht : y.ticketAt slot = some t) (hshape : t.shaped) (h : y.servesBut k slot) : (grant e y slot k t).serves := by
  have hsp : Yard.Spares e k slot y (grant e y slot k t) := spares_grant hstate
  obtain ⟨hbusy, hcur, -⟩ := grant_crane (e := e) (y := y) (slot := slot) (t := t) hk
  refine (h.spared hsp).serves_pair hk (by rw [hsp.ticketHandle]; exact hcur) (.inl hbusy) (grant_ticketAt ht) ?_ rfl ?_
  · dsimp only
    split <;> rfl
  · obtain ⟨hbay, hrest, -⟩ := hshape
    refine ⟨fun hkind => ?_, hrest, fun hst j hj => ?_⟩
    · obtain ⟨hp, hs, hd, -⟩ := hbay hkind
      have hhook : ¬t.fromHook = true := by
        rw [Ticket.fromHook_iff, hs]
        rintro ⟨j, hj⟩
        cases hj
      refine ⟨hp, hs, hd, ?_⟩
      dsimp only
      rw [if_neg hhook]
      decide
    · have hhook : t.fromHook = true := Ticket.fromHook_iff.2 ⟨j, hj⟩
      dsimp only at hst
      rw [if_pos hhook] at hst
      rcases hst with h | h <;> cases h

/-- R139: a ticket that may be granted needs at least one bay, the one that its TRAVEL names. -/
theorem grantBay_mem (hshape : t.shaped) (haimed : t.aimed) (hr : t.state = .ready) :
    grantBay e y t ∈ neededBays e y t := by
  have hne : ∃ b, b ∈ neededBays e y t := by
    rcases haimed hr with h | h | h
    · obtain ⟨-, -, ⟨b, hb⟩, -⟩ := hshape.1 (.inl h)
      exact ⟨_, mem_neededBays.2 (.inr ⟨_, hb, rfl⟩)⟩
    · obtain ⟨-, -, ⟨b, hb⟩, -⟩ := hshape.1 (.inr h)
      exact ⟨_, mem_neededBays.2 (.inr ⟨_, hb, rfl⟩)⟩
    · obtain ⟨d, hd⟩ := Option.isSome_iff_exists.1 h
      exact ⟨_, mem_neededBays.2 (.inr ⟨d, hd, rfl⟩)⟩
  obtain ⟨b, hb⟩ := hne
  unfold grantBay
  cases hl : neededBays e y t with
  | nil =>
    rw [hl] at hb
    cases hb
  | cons a as => exact List.mem_cons_self

/-- R143: the claim of a grant is the span, which holds every bay that the ticket needs. -/
theorem claimCovers_grant {c : Interval} (hk : k < 3) (hstate : (y.crane k).state = .idle ∨ (y.crane k).state = .busy)
    (ht : y.ticketAt slot = some t) (hr : t.state = .ready) (hshape : t.shaped) (haimed : t.aimed)
    (hc : y.claim k = some c) : (grant e y slot k t).claimCovers e k := by
  have hsp : Yard.Spares e k slot y (grant e y slot k t) := spares_grant hstate
  obtain ⟨-, hcur, q, hstage⟩ := grant_crane (e := e) (y := y) (slot := slot) (t := t) hk
  have hspan : span e y k t = some ((neededBays e y t).foldl Interval.join c) := by
    unfold span
    rw [hc]
  refine Yard.claimCovers_pair (by rw [hsp.ticketHandle]; exact hcur) (grant_ticketAt ht)
    (c := (neededBays e y t).foldl Interval.join c) ?_ (fun o ho _ => ?_)
    ⟨fun _ b hb => ?_, fun h => ?_, fun _ d hd => ?_⟩
  · rw [grant_claim, Yard.claim_setClaim_same _ _ _ hk, hspan]
  · rw [hstage] at ho
    obtain rfl := Option.some.inj ho
    exact Interval.foldl_holds c (grantBay_mem hshape haimed hr)
  · exact Interval.foldl_holds c ((congrArg (b ∈ ·) (hsp.neededBays_eq rfl rfl)).mp hb)
  · dsimp only at h
    split at h <;> cases h
  · rw [hsp.destBay]
    exact Interval.foldl_holds c (mem_neededBays.2 (.inr ⟨d, hd, rfl⟩))

/-- Crane `k` made free for the ticket in a slot, from the yard `y` to `y'`: it is IDLE, or its ticket has gone back to READY
(R143, R145). -/
structure Yard.Frees (e : Site) (k slot : Nat) (t : Ticket) (y y' : Yard) : Prop extends Yard.Sound e y y' where
  claims : ∀ j, y'.claim j = y.claim j
  queue  : y.queueOk → y'.queueOk
  aimed  : y.aimed → y'.aimed
  serves : y.serves → y'.servesBut k slot ∧ t.shaped
  others : y.serves → y.covered e → ∀ j, j < 3 → j ≠ k → y'.claimCovers e j
  ticket : y'.ticketAt slot = some t
  state  : (y'.crane k).state = .idle ∨ (y'.crane k).state = .busy

theorem grants_grant (h : Yard.Frees e k slot t y y') (hk : k < 3) (hr : t.state = .ready)
    (hreach : reachesTicket e y' k t = true) : Yard.Grants e y (grant e y' slot k t) := by
  have hsp : Yard.Spares e k slot y' (grant e y' slot k t) := spares_grant h.state
  have hclaim : y.full → ∃ c, y'.claim k = some c := fun hf => by
    obtain ⟨c, hc⟩ := Option.ne_none_iff_exists'.1 (hf k hk)
    exact ⟨c, (h.claims k).trans hc⟩
  have hspan : ∀ c, y'.claim k = some c → span e y' k t = some ((neededBays e y' t).foldl Interval.join c) := fun c hc => by
    unfold span
    rw [hc]
  refine ⟨h.toSound.trans hsp.toSound, fun hf n hn => ?_, fun hf ha => ?_, fun hq => ?_, fun ha n v hv => ?_, fun hs => ?_,
    fun hf ha hs hc n hn => ?_⟩
  · obtain ⟨c, hc⟩ := hclaim hf
    rw [grant_claim, Yard.claim_setClaim _ _ _ hk, hspan c hc]
    split
    · exact Option.some_ne_none _
    · rw [h.claims]
      exact hf n hn
  · obtain ⟨c, hc⟩ := hclaim hf
    have hapart : y'.claimsApart := ha.of_eq h.claims
    refine Yard.claimsApart.of_eq (hapart.setClaim (i := (neededBays e y' t).foldl Interval.join c) hk
      (Interval.foldl_le _ (hapart.1 k c hc)) ?_) fun j => ?_
    · unfold reachesTicket at hreach
      rwa [hspan c hc] at hreach
    · rw [grant_claim, hspan c hc]
  · have hact : y'.activeAt slot = true := (activeAt_iff _ _).2 ⟨t, h.ticket, by rw [hr]; rfl⟩
    exact (Yard.Follows.of_census (census_grant e y' slot k t hact)).queue (h.queue hq)
  · by_cases hn : n = slot
    · subst hn
      rw [grant_ticketAt h.ticket] at hv
      obtain rfl := Option.some.inj hv
      intro hst
      dsimp only at hst
      split at hst <;> cases hst
    · refine h.aimed ha n v ?_
      rw [← hv]
      exact (Yard.ticketAt_updTicket_ne (y'.setClaim k (span e y' k t)) slot n _ (Ne.symm hn)).symm
  · obtain ⟨hbut, hshape⟩ := h.serves hs
    exact serves_grant hk h.state h.ticket hshape hbut
  · obtain ⟨hbut, hshape⟩ := h.serves hs
    by_cases hnk : n = k
    · subst hnk
      obtain ⟨c, hc⟩ := hclaim hf
      exact claimCovers_grant hk h.state h.ticket hr hshape (h.aimed ha slot t h.ticket) hc
    · exact (h.others hs hc n hn hnk).spared hsp hbut hn hnk

/-- R143: an IDLE crane is free. -/
theorem frees_idle (ht : y.ticketAt slot = some t) (hr : t.state = .ready) (hk : k < 3)
    (hstate : (y.crane k).state = .idle) : Yard.Frees e k slot t y y where
  toSound := .refl e y
  claims _ := rfl
  queue := id
  aimed := id
  serves hs := by
    refine ⟨hs.but (fun g hg => ?_) fun v hv hst => ?_, hs.2.2 slot t ht⟩
    · obtain ⟨hbusy, -⟩ := hs.1 k g hk hg
      rw [hstate] at hbusy
      rcases hbusy with h | h <;> cases h
    · obtain rfl := Option.some.inj (ht.symm.trans hv)
      rw [hr] at hst
      cases hst
  others _ hc j hj _ := hc j hj
  ticket := ht
  state := .inl hstate

/-! ## Preemptions (R122, R127, R145) -/

/-- R122: a ticket returned to READY leaves the work under way. -/
theorem spares_returnTicket (y : Yard) : Yard.Spares e k i y (returnTicket e y i) := by
  unfold returnTicket
  refine Yard.Spares.trans ?_ (spares_refreshTicket _ _)
  exact .updTicket y i _ (fun _ _ h u hu => h.tickets i u hu) (.inl rfl)

theorem returnTicket_ne (h : i ≠ slot) : (returnTicket e y i).ticketAt slot = y.ticketAt slot := by
  unfold returnTicket
  rw [refreshTicket_ne _ _ _ _ h, Yard.ticketAt_updTicket_ne _ _ _ _ h]

theorem refreshTicket_cranes (e : Site) (y : Yard) (n : Nat) : (refreshTicket e y n).cranes = y.cranes
    ∧ (refreshTicket e y n).arbiter = y.arbiter := by
  unfold refreshTicket
  split
  · split <;> exact ⟨rfl, rfl⟩
  · exact ⟨rfl, rfl⟩

theorem returnTicket_crane (j : Nat) : (returnTicket e y i).crane j = y.crane j := by
  unfold returnTicket Yard.crane
  rw [(refreshTicket_cranes _ _ _).1]
  rfl

theorem returnTicket_claim (j : Nat) : (returnTicket e y i).claim j = y.claim j := by
  unfold returnTicket Yard.claim Yard.arb
  rw [(refreshTicket_cranes _ _ _).2]
  rfl

/-- R122: a GRANTED ticket returned to READY waits, without a crane. -/
theorem returnTicket_waiting {v : Ticket} (hv : y.ticketAt i = some v) : ∃ w, (returnTicket e y i).ticketAt i = some w
    ∧ (w.state = .pending ∨ w.state = .ready) ∧ w.kind = v.kind ∧ w.piece = v.piece ∧ w.source = v.source
    ∧ w.dest = v.dest := by
  have hat : (y.updTicket i (fun u => { u with state := .ready, crane := none })).ticketAt i
      = some { v with state := .ready, crane := none } := by
    rw [Yard.ticketAt_updTicket_same _ _ _ (Yard.ticketAt_lt _ _ _ hv), hv]
    rfl
  refine ⟨_, refreshTicket_waiting e _ i _ hat (.inr rfl), ?_, rfl, rfl, rfl, rfl⟩
  dsimp only
  split
  · exact .inr rfl
  · exact .inl rfl

theorem aimed_returnTicket (h : y.aimed) : (returnTicket e y i).aimed := fun n v hv => by
  unfold returnTicket at hv
  refine aimed_refreshTicket (fun w hn hw => ?_) v hv
  rw [Yard.ticketAt_updTicket_ne _ _ _ _ (Ne.symm hn)] at hw
  exact h n w hw

/-- R144: a preempted ticket is the GRANTED one of its BUSY crane. -/
theorem preemptable_eq_some (h : preemptable y k t = some u) : (y.crane k).state = .busy
    ∧ ∃ g v, (y.crane k).current = some g ∧ g.slot = u ∧ y.ticketAt u = some v ∧ v.state = .granted := by
  unfold preemptable at h
  split at h
  · rename_i hbusy
    split at h
    · rename_i g hg
      split at h
      · rename_i v hv
        split at h
        · rename_i hgranted
          obtain rfl := Option.some.inj h
          exact ⟨hbusy, g, v, hg, rfl, (Yard.ticket?_eq_some.1 hv).2, hgranted.1⟩
        · cases h
      · cases h
    · cases h
  · cases h

/-- R145: a crane whose GRANTED ticket has gone back to READY is free. -/
theorem frees_preempted (ht : y.ticketAt slot = some t) (hr : t.state = .ready) (hk : k < 3)
    (hu : preemptable y k t = some u) : Yard.Frees e k slot t y (returnTicket e y u) := by
  obtain ⟨hbusy, g, v, hg, rfl, hv, hgranted⟩ := preemptable_eq_some hu
  have hsp : Yard.Spares e k g.slot y (returnTicket e y g.slot) := spares_returnTicket y
  have hne : g.slot ≠ slot := fun h => by
    rw [h, ht] at hv
    obtain rfl := Option.some.inj hv
    rw [hr] at hgranted
    cases hgranted
  have hbut : y.serves → y.servesBut k g.slot := fun hs => by
    refine hs.but (fun g' hg' => ?_) fun w hw _ => ?_
    · obtain rfl := Option.some.inj (hg.symm.trans hg')
      rfl
    · obtain ⟨-, x, hx, -, hc⟩ := hs.1 k g hk hg
      obtain rfl := Option.some.inj (hw.symm.trans (Yard.ticket?_eq_some.1 hx).2)
      exact hc
  have ht' : (returnTicket e y g.slot).ticketAt slot = some t := by rw [returnTicket_ne hne, ht]
  refine ⟨hsp.toSound, fun _ => returnTicket_claim _, fun hq => ?_, aimed_returnTicket, fun hs => ?_,
    fun hs hc j hj hjk => (hc j hj).spared hsp (hbut hs) hj hjk, ht', .inr (by rw [returnTicket_crane, hbusy])⟩
  · have hact : y.activeAt g.slot = true := (activeAt_iff _ _).2 ⟨v, hv, by rw [hgranted]; rfl⟩
    exact (Yard.Follows.of_census (census_returnTicket e y g.slot hact)).queue hq
  · refine ⟨((hbut hs).spared hsp).move (fun w hw => ?_) fun w hw => ?_, hs.2.2 slot t ht⟩
    · obtain ⟨x, hx, hst, hkind, hp, hsrc, hd⟩ := returnTicket_waiting (e := e) hv
      obtain rfl := Option.some.inj (hw.symm.trans hx)
      exact ⟨TicketState.waiting_not_served hst,
        (hs.2.2 _ v hv).of_not_served (TicketState.waiting_not_served hst) hkind hp hsrc hd⟩
    · obtain rfl := Option.some.inj (ht'.symm.trans hw)
      exact TicketState.waiting_not_served (.inr hr)

theorem grants_preempt (ht : y.ticketAt slot = some t) (hr : t.state = .ready) (hk : k < 3)
    (hreach : reachesTicket e y k t = true) : Yard.Grants e y (preempt e y slot k t) := by
  unfold preempt
  split
  · rename_i u hu
    have hsp : Yard.Spares e k u y (returnTicket e y u) := spares_returnTicket y
    refine grants_grant (frees_preempted ht hr hk hu) hk hr ?_
    rwa [hsp.reachesTicket_eq fun _ => returnTicket_claim _]
  · exact .refl e y

/-! ## Yields (R147) -/

theorem makeYield_ticketAt {served : Handle} {level j : Nat} {iv : Interval} (ht : y.ticketAt slot = some t) :
    (makeYield e served level k iv y j).ticketAt slot = some t := by
  unfold makeYield
  split
  · rename_i free target hfree _
    obtain ⟨hlt, hnone⟩ := Yard.freeTicketSlot_free hfree
    have hne : free ≠ slot := fun h => by
      rw [h, ht] at hnone
      cases hnone
    rw [refreshTicket_ne _ _ _ _ hne]
    refine (ticketAt_placeTicket y free slot _ hlt).trans ?_
    rw [if_neg hne, ht]
  · exact ht

theorem aimed_makeYield {served : Handle} {level j : Nat} {iv : Interval} (h : y.aimed) :
    (makeYield e served level k iv y j).aimed := by
  unfold makeYield
  split
  · rename_i free target hfree _
    obtain ⟨hlt, -⟩ := Yard.freeTicketSlot_free hfree
    refine fun n v hv => aimed_refreshTicket (fun w hn hw => ?_) v hv
    refine h n w ?_
    rw [← hw]
    refine Eq.symm ((ticketAt_placeTicket y free n _ hlt).trans ?_)
    rw [if_neg (Ne.symm hn)]
  · exact h

/-- R147: the YIELD tickets made for a READY ticket, at its level. -/
theorem grants_makeYields (ht : y.ticketAt slot = some t) : Yard.Grants e y (makeYields e y slot k t) := by
  unfold makeYields
  split
  · rename_i iv hiv
    clear hiv
    generalize y.ticketHandle slot = served
    generalize blockers y k iv = js
    unfold forEach
    induction js generalizing y with
    | nil => exact .refl e y
    | cons j js ih =>
      refine Yard.Grants.trans (.of_spares ?_ (follows_makeYield e _ _ _ _ y j) aimed_makeYield) (ih (makeYield_ticketAt ht))
      exact spares_makeYield _ _ _ _ y j fun q h => (h.tickets slot t ht).2
  · exact .refl e y

/-! ## Evaluations (R140, R141) -/

theorem mayServe_idle (h : mayServe y slot k t = true) : (y.crane k).state = .idle := by
  unfold mayServe at h
  rw [Bool.and_eq_true] at h
  simpa using h.1

theorem grants_examine (ht : y.ticketAt slot = some t) (hr : t.state = .ready) :
    Yard.Grants e y (examine e y slot).1 := by
  have three : ∀ n, n ∈ [0, 1, 2] → n < 3 := by decide
  unfold examine
  rw [ht]
  dsimp only
  split
  · rename_i n hn
    obtain ⟨hmem, hok⟩ := List.mem_filter.1 (leastBy_mem hn)
    rw [Bool.and_eq_true] at hok
    obtain ⟨hserve, hreach⟩ := hok
    exact grants_grant (frees_idle ht hr (three n hmem) (mayServe_idle hserve)) (three n hmem) hr hreach
  · split
    · split
      · rename_i n hn
        obtain ⟨hmem, hok⟩ := List.mem_filter.1 (leastBy_mem hn)
        rw [Bool.and_eq_true] at hok
        exact grants_preempt ht hr (three n hmem) hok.2
      · split
        · exact grants_makeYields ht
        · exact .refl e y
    · exact .refl e y

theorem grants_walk (n last : Nat) (y : Yard) : Yard.Grants e y (walk e n last y).1 := by
  induction n generalizing last y with
  | zero => exact .refl e y
  | succ n ih =>
    unfold walk
    split
    · exact .refl e y
    · rename_i slot hslot
      obtain ⟨t, ht, hr⟩ := nextReady_ready hslot
      exact (grants_examine ht hr).trans (ih _ _)

theorem grants_walks (n : Nat) (y : Yard) : Yard.Grants e y (walks e n y) := by
  induction n generalizing y with
  | zero => exact .refl e y
  | succ n ih =>
    unfold walks
    dsimp only
    split
    · exact (grants_walk _ _ y).trans (ih _)
    · exact grants_walk _ _ y

/-- R140: the arbiter runs only while no claim is empty. -/
theorem heldBack_false (h : ¬heldBack e y = true) : y.full := by
  unfold heldBack at h
  rw [Bool.or_eq_true, not_or] at h
  exact someClaimEmpty_false h.2

/-- R141: the follow-up work of a change, and an evaluation. -/
theorem keeps_settleClaim (e : Site) (y : Yard) : Yard.Keeps e y (settleClaim e y) := by
  have hfollow := keeps_followUp e y
  unfold settleClaim evaluate
  split
  · exact hfollow
  · rename_i hheld
    have hfull : (followUp e y).full := heldBack_false hheld
    have hgrants : Yard.Grants e (followUp e y) (walks e 32 (followUp e y)) := grants_walks 32 _
    refine ⟨hfollow.toSound.trans hgrants.toSound, fun ha => hgrants.apart hfull (hfollow.apart ha), fun ho => ?_,
      fun hq => hgrants.queue (hfollow.queue hq), fun hq hs => hgrants.serves (hfollow.serves hq hs), fun hq hs hc => ?_⟩
    · exact (hgrants.apart hfull (hfollow.ordered ho).apart).ordered (hgrants.full hfull 1 (by decide))
    · exact hgrants.covered hfull (aimed_followUp hq) (hfollow.serves hq hs) (hfollow.covered hq hs hc)

/-- R141: what follows a change within the same step. -/
theorem keeps_settle (e : Site) (y0 y1 : Yard) : Yard.Keeps e y1 (settle e y0 y1) := by
  unfold settle
  dsimp only
  split
  · exact keeps_settleClaim e y1
  · exact keeps_followUp e y1

end

end Sys2Proof.Machine
end

