-- ==== Sys2Proof/Proofs/Leaving.lean ====
section
/-! PROOF. What takes a crane's ticket away, or leaves it: withdrawals and cancels, the end of a listing, faults and timeouts,
homing and clearing, the plant stop and its release (R133, R134, R161 to R170, R183 to R186). -/

namespace Sys2Proof.Machine

section
variable {e : Site} {k i : Nat} {t : Ticket} {y y' : Yard}

theorem Yard.crane_lt (h : (y.crane k).state ≠ .unhomed) : k < 3 := by
  by_contra hk
  rw [Yard.crane_ge y (by omega)] at h
  exact h rfl

theorem Yard.current_lt {g : Handle} (h : (y.crane k).current = some g) : k < 3 := by
  by_contra hk
  rw [Yard.crane_ge y (by omega)] at h
  cases h

/-- A change that touches no crane but a fourth leaves the job of every crane. -/
theorem Yard.Spares.job_eq (h : Yard.Spares e 3 i y y') (j : Nat) : (y'.crane j).job = (y.crane j).job := by
  by_cases hj : j = 3
  · subst hj
    rw [Yard.crane_ge y (Nat.le_refl 3), Yard.crane_ge y' (Nat.le_refl 3)]
  · exact h.jobs j hj

theorem Yard.covered.claim (h : y.covered e) (hk : k < 3) (hb : (y.crane k).state = .busy ∨ (y.crane k).state = .stopped) :
    y.claim k ≠ none := (h k hk).1 hb

/-- R143, R155: a crane that is neither BUSY nor STOPPED has no ticket. -/
theorem Yard.serves.current_none (hs : y.serves) (hb : ¬((y.crane k).state = .busy ∨ (y.crane k).state = .stopped)) :
    (y.crane k).current = none := by
  cases hg : (y.crane k).current with
  | none => rfl
  | some g =>
    obtain ⟨hstate, -⟩ := hs.1 k g (Yard.current_lt hg) hg
    exact absurd hstate hb

/-- A crane that has no ticket, and no slot. -/
theorem Yard.serves.but_idle (hs : y.serves) (hc : (y.crane k).current = none) : y.servesBut k 24 := by
  refine hs.but (fun g hg => ?_) fun v hv => ?_
  · rw [hc] at hg
    cases hg
  · rw [Yard.ticketAt_ge y (Nat.le_refl 24)] at hv
    cases hv

/-! ## A crane left without a ticket -/

/-- A change after which crane `k` has no ticket and slot `i` none that is under way. -/
structure Yard.Idles (e : Site) (k i : Nat) (y y' : Yard) : Prop extends Yard.Spares e k i y y' where
  but     : y.serves → y.servesBut k i
  current : y.serves → (y'.crane k).current = none
  slot    : y.serves → ∀ t, y'.ticketAt i = some t → t.state.served = false ∧ t.shaped
  claim   : y.serves → y.covered e → k < 3 → (y'.crane k).state = .busy ∨ (y'.crane k).state = .stopped →
    y'.claim k ≠ none

theorem Yard.Idles.serves (h : Yard.Idles e k i y y') (hs : y.serves) : y'.serves :=
  ((h.but hs).spared h.toSpares).serves_idle (h.current hs) (h.slot hs)

theorem Yard.Idles.covered (h : Yard.Idles e k i y y') (hs : y.serves) (hc : y.covered e) : y'.covered e :=
  hc.spared h.toSpares (h.but hs) fun hk => Yard.claimCovers_idle (h.current hs) (h.claim hs hc hk)

/-- Claims that stay or are emptied. -/
theorem Yard.narrows_of_kept (h : y.claimsApart ∨ y.claimsOrdered) (hc : ∀ j, y'.claim j = y.claim j ∨ y'.claim j = none) :
    y.narrows y' := by
  intro j c hcl
  rcases hc j with he | he
  · rw [he] at hcl
    exact ⟨h.elim (fun h => h.1 j c hcl) (fun h => h.1 j c hcl), c, hcl, Nat.le_refl _, Nat.le_refl _⟩
  · rw [he] at hcl
    cases hcl

theorem Yard.Idles.keeps (h : Yard.Idles e k i y y') (hq : y.queueOk → y'.queueOk)
    (hc : ∀ j, y'.claim j = y.claim j ∨ y'.claim j = none) : Yard.Keeps e y y' where
  toSound := h.toSound
  apart ha := (Yard.narrows_of_kept (.inl ha) hc).apart ha
  ordered ho := (Yard.narrows_of_kept (.inr ho) hc).ordered ho
  queue := hq
  serves _ := h.serves
  covered _ := h.covered

/-- Slot 24 holds no ticket. -/
theorem Yard.no_slot (y : Yard) : ∀ t, y.ticketAt 24 = some t → t.state.served = false ∧ t.shaped := fun t ht => by
  rw [Yard.ticketAt_ge y (Nat.le_refl 24)] at ht
  cases ht

/-! ## Withdrawals and cancels (R133, R134, R161) -/

/-- A change of a ticket that no crane serves. -/
theorem idles_unserved (ht : y.ticketAt i = some t) (hw : y.serves → t.state.served = false)
    (hsp : Yard.Spares e 3 i y y') (hslot : t.shaped → ∀ u, y'.ticketAt i = some u → u.state.served = false ∧ u.shaped) :
    Yard.Idles e 3 i y y' where
  toSpares := hsp
  but hs := by
    refine hs.but (fun g hg => absurd (Yard.current_lt hg) (Nat.lt_irrefl 3)) fun v hv hst => ?_
    obtain rfl := Option.some.inj (ht.symm.trans hv)
    rw [hw hs] at hst
    cases hst
  current _ := by rw [Yard.crane_ge _ (Nat.le_refl 3)]; rfl
  slot hs := hslot (hs.2.2 i t ht)
  claim _ _ hk := absurd hk (Nat.lt_irrefl 3)

/-- R133, R134: a ticket that may still be given up is GRANTED to a crane, or no crane serves it. -/
theorem waiting_or_granted (ht : y.ticketAt i = some t) (hst : t.state = .pending ∨ t.state = .ready ∨ t.state = .granted) :
    (∃ k, t.state = .granted ∧ t.crane = some k)
      ∨ (t.state ≠ .granted ∨ t.crane = none) ∧ (y.serves → t.state.served = false) := by
  rcases hst with h | h | h
  · exact .inr ⟨.inl (by rw [h]; exact TicketState.noConfusion), fun _ => by rw [h]; rfl⟩
  · exact .inr ⟨.inl (by rw [h]; exact TicketState.noConfusion), fun _ => by rw [h]; rfl⟩
  · cases hc : t.crane with
    | some k => exact .inl ⟨k, h, rfl⟩
    | none =>
      refine .inr ⟨.inr rfl, fun hs => ?_⟩
      obtain ⟨k, -, hk, -⟩ := hs.2.1 i t ht (by rw [h]; rfl)
      rw [hc] at hk
      cases hk

/-- R161: the crane of a GRANTED ticket that is given up. -/
def Yard.stopsCrane (e : Site) (y : Yard) (k : Nat) : Yard :=
  sendStop e (y.updCrane k (fun c => { c with stage := none, current := none })) k

theorem spares_stopsCrane (y : Yard) : Yard.Spares e k i y (y.stopsCrane e k) := by
  unfold Yard.stopsCrane
  refine Yard.Spares.trans ?_ (spares_sendStop _ _)
  refine .updCrane y k _ (fun _ _ h => h) (fun h => ?_) (fun _ => rfl) (.inl rfl)
  obtain ⟨-, hhalt, hfault⟩ := h
  exact ⟨fun h => (by cases h), hhalt, hfault⟩

theorem stopsCrane_crane (hk : k < 3) : ((y.stopsCrane e k).crane k).current = none
    ∧ ((y.stopsCrane e k).crane k).state = (y.crane k).state := by
  unfold Yard.stopsCrane
  rw [stopped_crane e y k hk _ rfl]
  exact ⟨rfl, rfl⟩

/-- A STOP to the crane of a GRANTED ticket, and a change that ends the ticket and leaves the cranes. -/
theorem idles_stopsCrane (ht : y.ticketAt i = some t) (hst : t.state = .granted) (hc : t.crane = some k)
    (hsp : ∀ n, Yard.Spares e n i (y.stopsCrane e k) y')
    (hslot : t.shaped → ∀ u, y'.ticketAt i = some u → u.state.served = false ∧ u.shaped) : Yard.Idles e k i y y' := by
  have hserved : t.state.served = true := by rw [hst]; rfl
  obtain ⟨hstate, hcur, -⟩ := CraneRecord.job_eq ((hsp 3).job_eq k)
  refine ⟨(spares_stopsCrane y).trans (hsp k), fun hs => ?_, fun hs => ?_,
    fun hs => hslot (hs.2.2 i t ht), fun hs hcov hk hb => ?_⟩
  · obtain ⟨-, -, -, -, hbut⟩ := hs.of_ticket ht hserved hc
    exact hbut
  · obtain ⟨hk, -⟩ := hs.of_ticket ht hserved hc
    rw [hcur]
    exact (stopsCrane_crane hk).1
  · rw [(hsp 3).claim_eq]
    rw [hstate, (stopsCrane_crane hk).2] at hb
    exact hcov.claim hk hb

/-- R134: a withdrawal. -/
theorem keeps_withdraw (e : Site) (ht : y.ticketAt i = some t)
    (hst : t.state = .pending ∨ t.state = .ready ∨ t.state = .granted) : Yard.Keeps e y (withdraw e y i) := by
  have hact : y.activeAt i = true :=
    (activeAt_iff _ _).2 ⟨t, ht, by rcases hst with h | h | h <;> rw [h] <;> rfl⟩
  have hqueue := (follows_withdraw e y i hact).queue
  rw [withdraw_eq ht] at hqueue ⊢
  rcases waiting_or_granted ht hst with ⟨k, hgranted, hc⟩ | ⟨hnone, hw⟩
  · rw [stopCraneOf_granted hgranted hc] at hqueue ⊢
    have hsp : ∀ n, Yard.Spares e n i (y.stopsCrane e k) (finishTicket e (y.stopsCrane e k) i .cancelled .withdrawn) :=
      fun n => spares_finishTicket _ _ _
    have hidle : Yard.Idles e k i y (finishTicket e (y.stopsCrane e k) i .cancelled .withdrawn) :=
      idles_stopsCrane ht hgranted hc hsp fun hshape =>
        finishTicket_idle (y := y.stopsCrane e k) ht (.inr (.inr rfl)) hshape
    exact hidle.keeps hqueue fun j => .inl ((hsp 3).claim_eq j)
  · rw [stopCraneOf_none hnone] at hqueue ⊢
    have hidle : Yard.Idles e 3 i y (finishTicket e y i .cancelled .withdrawn) :=
      idles_unserved ht hw (spares_finishTicket y _ _) fun hshape => finishTicket_idle ht (.inr (.inr rfl)) hshape
    exact hidle.keeps hqueue fun j => .inl (hidle.toSpares.claim_eq j)

/-! ## A slot freed (R114, R133, R135) -/

theorem freeTicket_ticketAt (n j : Nat) : (y.freeTicket n).ticketAt j = if n = j then none else y.ticketAt j := by
  unfold Yard.ticketAt
  rw [ticketSlot_freeTicket]
  split <;> rfl

theorem freeTicket_ticket? {n : Nat} {g : Handle} (hg : g.slot ≠ n) : (y.freeTicket n).ticket? g = y.ticket? g := by
  unfold Yard.ticket?
  rw [ticketSlot_freeTicket, if_neg (Ne.symm hg)]

theorem sound_freeTicket (n : Nat) : Yard.Sound e y (y.freeTicket n) := by
  refine ⟨fun _ _ h => ⟨h.lanes, h.trucks, fun j u hu => ?_, h.cranes, h.homes⟩, id, id⟩
  rw [freeTicket_ticketAt] at hu
  split at hu
  · cases hu
  · exact h.tickets j u hu

/-- A slot whose ticket is not under way is the current ticket of no crane. -/
theorem Yard.serves.current_ne (hs : y.serves) {n j : Nat} (hn : ∀ u, y.ticketAt n = some u → u.state.served = false)
    {g : Handle} (hj : j < 3) (hg : (y.crane j).current = some g) : g.slot ≠ n := by
  rintro rfl
  obtain ⟨-, u, hu, hserved, -⟩ := hs.1 j g hj hg
  rw [hn u (Yard.ticket?_eq_some.1 hu).2] at hserved
  cases hserved

theorem serves_freeTicket {n : Nat} (hn : ∀ u, y.ticketAt n = some u → u.state.served = false) (hs : y.serves) :
    (y.freeTicket n).serves := by
  refine ⟨fun j g hj hg => ?_, fun j u hu hserved => ?_, fun j u hu => ?_⟩
  · obtain ⟨hstate, u, hu, hrest⟩ := hs.1 j g hj hg
    exact ⟨hstate, u, (freeTicket_ticket? (hs.current_ne hn hj hg)).trans hu, hrest⟩
  all_goals
    rw [freeTicket_ticketAt] at hu
    split at hu
    · cases hu
  · rename_i hne
    obtain ⟨k, hk, hc, hcur⟩ := hs.2.1 j u hu hserved
    refine ⟨k, hk, hc, hcur.trans ?_⟩
    unfold Yard.ticketHandle
    rw [ticketSlot_freeTicket, if_neg hne]
  · exact hs.2.2 j u hu

theorem covered_freeTicket {n : Nat} (hn : ∀ u, y.ticketAt n = some u → u.state.served = false) (hs : y.serves)
    (hc : y.covered e) : (y.freeTicket n).covered e := by
  intro j hj
  have hcur : currentTicket (y.freeTicket n) j = currentTicket y j := by
    unfold currentTicket
    rw [show (y.freeTicket n).crane j = y.crane j from rfl]
    split
    · rename_i g hg
      rw [freeTicket_ticket? (hs.current_ne hn hj hg)]
    · rfl
  obtain ⟨hbusy, hheld⟩ := hc j hj
  refine ⟨hbusy, fun slot u hu => ?_⟩
  rw [hcur] at hu
  exact hheld slot u hu

theorem TicketState.not_served_of_inactive {st : TicketState} (h : st.isActive = false) : st.served = false := by
  revert h
  cases st <;> decide

/-- R135: a slot freed whose ticket has finished. -/
theorem keeps_freeFinished {n : Nat} (hn : y.queueOk → ∀ u, y.ticketAt n = some u → u.state.isActive = false) :
    Yard.Keeps e y (y.freeTicket n) := by
  have hidle : y.queueOk → ∀ u, y.ticketAt n = some u → u.state.served = false := fun hq u hu =>
    TicketState.not_served_of_inactive (hn hq u hu)
  exact ⟨sound_freeTicket n, fun h => h, fun h => h, queueOk_freeTicket rfl rfl fun _ _ => rfl,
    fun hq => serves_freeTicket (hidle hq), fun hq => covered_freeTicket (hidle hq)⟩

/-- R133: the yard before the slot of a cancelled ticket is freed. -/
def Yard.cancelled (e : Site) (y y1 : Yard) (i : Nat) (t : Ticket) : Yard :=
  unbind (clearPieceTicket (releaseClaims e (y1.updTicket i (fun u => { u with state := .cancelled, waits := .none }))
    (y.ticketHandle i) t (buriedIn y i)) t) (y.ticketHandle i)

theorem cancelTicket_eq (ht : y.ticketAt i = some t) :
    cancelTicket e y i = (y.cancelled e (stopCraneOf e y t) i t).freeTicket i := by
  simp only [cancelTicket, ht]
  rfl

section
variable {y1 : Yard}

theorem spares_cancelMark (n m : Nat) : Yard.Spares e n m
    (y1.updTicket i (fun u => { u with state := .cancelled, waits := .none })) (y.cancelled e y1 i t) := by
  unfold Yard.cancelled
  exact ((spares_releaseClaims _ _ _ _).trans (spares_clearPieceTicket _ _)).trans (spares_unbind _ _)

theorem spares_cancelled (n : Nat) : Yard.Spares e n i y1 (y.cancelled e y1 i t) :=
  (Yard.Spares.updTicket y1 i (fun u => { u with state := .cancelled, waits := .none }) (fun _ _ h u hu => h.tickets i u hu)
    (.inl rfl)).trans (spares_cancelMark n i)

theorem cancelled_idle (ht : y1.ticketAt i = some t) (hshape : t.shaped) :
    ∀ u, (y.cancelled e y1 i t).ticketAt i = some u → u.state.served = false ∧ u.shaped := by
  refine (spares_cancelMark 3 24).idle_slot (Nat.ne_of_lt (Yard.ticketAt_lt _ _ _ ht)) fun u hu => ?_
  rw [Yard.ticketAt_updTicket_same _ _ _ (Yard.ticketAt_lt _ _ _ ht), ht] at hu
  obtain rfl := Option.some.inj hu
  exact ⟨rfl, hshape.of_not_served rfl rfl rfl rfl rfl⟩

end

/-- A change that ends a ticket, and then frees its slot. -/
theorem Yard.Idles.keeps_freed (h : Yard.Idles e k i y y') (hq : y.queueOk → (y'.freeTicket i).queueOk)
    (hc : ∀ j, y'.claim j = y.claim j) : Yard.Keeps e y (y'.freeTicket i) where
  toSound := h.toSound.trans (sound_freeTicket i)
  apart ha := ha.of_eq hc
  ordered ho := ho.of_eq hc
  queue := hq
  serves _ hs := serves_freeTicket (fun u hu => (h.slot hs u hu).1) (h.serves hs)
  covered _ hs hcov := covered_freeTicket (fun u hu => (h.slot hs u hu).1) (h.serves hs) (h.covered hs hcov)

/-- R133: a cancel. -/
theorem keeps_cancelWaiting (e : Site) (ht : y.ticketAt i = some t)
    (hst : t.state = .pending ∨ t.state = .ready ∨ t.state = .granted) : Yard.Keeps e y (cancelTicket e y i) := by
  have hqueue : y.queueOk → (cancelTicket e y i).queueOk :=
    (keeps_cancelTicket { Plant.powerOn false with yard := y } e i).queue
  rw [cancelTicket_eq ht] at hqueue ⊢
  rcases waiting_or_granted ht hst with ⟨k, hgranted, hc⟩ | ⟨hnone, hw⟩
  · rw [stopCraneOf_granted hgranted hc] at hqueue ⊢
    have hidle : Yard.Idles e k i y (y.cancelled e (y.stopsCrane e k) i t) :=
      idles_stopsCrane ht hgranted hc (fun n => spares_cancelled n) fun hshape => cancelled_idle ht hshape
    exact hidle.keeps_freed hqueue fun j => (spares_cancelled (e := e) (y1 := y.stopsCrane e k) 3).claim_eq j
  · rw [stopCraneOf_none hnone] at hqueue ⊢
    have hidle : Yard.Idles e 3 i y (y.cancelled e y i t) :=
      idles_unserved ht hw (spares_cancelled 3) fun hshape => cancelled_idle ht hshape
    exact hidle.keeps_freed hqueue fun j => hidle.toSpares.claim_eq j

/-! ## The end of a listing (R16, R183 to R186) -/

theorem spares_loseDest (ht : y.ticketAt i = some t) (hst : t.state = .lifted) (n m : Nat) :
    Yard.Spares e n m y (loseDest y i) := by
  refine .updTicket y i _ (fun _ _ h u hu => h.tickets i u hu) (.inr fun u hu => ?_)
  obtain rfl := Option.some.inj (ht.symm.trans hu)
  refine ⟨fun _ => ⟨rfl, rfl, rfl, .inr rfl, id, id⟩, id, fun ⟨hbay, hrest⟩ => ⟨fun hk => ?_, hrest⟩⟩
  obtain ⟨-, -, -, -, hl, -⟩ := hbay hk
  exact absurd hst hl

theorem keeps_dealWithPick (e : Site) (y : Yard) (n : Nat) : Yard.Keeps e y (dealWithPick e y n) := by
  cases ht : y.ticketAt n with
  | none =>
    unfold dealWithPick
    simp only [ht]
    exact .refl e y
  | some t =>
    rcases t.state.pick_cases with hs | hs | hs | hs
    · rw [dealWithPick_waiting e y n t ht hs]
      exact keeps_withdraw e ht hs
    · rw [dealWithPick_lifting e y n t ht hs]
      refine .of_follows (.updTicket y n _ (fun _ _ h u hu => h.tickets n u hu) (.inr fun u _ => ?_))
        (.of_census (census_updTicket _ _ _ fun _ _ => rfl))
      exact .of_eq rfl rfl rfl rfl rfl rfl id fun _ => rfl
    · rw [dealWithPick_lifted e y n t ht hs]
      exact (Yard.Keeps.of_follows (spares_loseDest ht hs 3 24) (.of_census (census_loseDest _ _))).trans
        (keeps_redirectOne e _ n)
    · rw [dealWithPick_stays e y n t ht hs]
      exact .refl e y

theorem keeps_dropCurrentPick (e : Site) (y : Yard) (n : Nat) : Yard.Keeps e y (dropCurrentPick e y n) := by
  have hdrop : ∀ z : Yard, Yard.Keeps e z (z.updTruck n (fun r => { r with currentPick := none })) := fun z =>
    .of_follows (.updTruck z n _ (fun _ h => h) fun _ => rfl) (.of_census (census_updTruck _ _ _))
  unfold dropCurrentPick
  split
  · exact (keeps_dealWithPick e y _).trans (hdrop _)
  · exact hdrop y

theorem keeps_completionTest (e : Site) (y : Yard) (n : Nat) : Yard.Keeps e y (completionTest y n) :=
  .of_follows (spares_completionTest y n) (.of_census (census_updTruck _ _ _))

theorem keeps_listingEnd (e : Site) (y : Yard) (h : Handle) : Yard.Keeps e y (listingEnd e y h) := by
  unfold listingEnd
  split
  · rename_i n _
    dsimp only
    have hlist : Yard.Keeps e y ((y.updPiece h.slot (fun p => { p with order := none })).updTruck n
        (fun r => { r with orderList := r.orderList.erase h, flagChanged := true })) := by
      refine .of_follows (Yard.Spares.trans (.updPiece y _ _) (.updTruck _ n _ (fun _ h => h) fun _ => rfl)) (.of_census ?_)
      exact (census_updTruck _ _ _).trans (census_updPiece _ _ _ fun _ => rfl)
    split
    · exact (hlist.trans (keeps_dropCurrentPick e _ n)).trans (keeps_completionTest e _ n)
    · exact hlist
  · exact .refl e y

/-- R16: a hold added. -/
theorem keeps_addHold (e : Site) (y : Yard) (h : Handle) (has : Holds → Bool) (set : Holds → Holds) :
    Yard.Keeps e y (addHold e y h has set) := by
  unfold addHold
  split
  · split
    · exact .refl e y
    · refine Yard.Keeps.trans (.of_follows (.updPiece y _ _) (.of_census ?_)) (keeps_listingEnd e _ h)
      exact census_updPiece _ _ _ fun _ => rfl
  · exact .refl e y

theorem spares_listPieces (y : Yard) (hs : List Handle) (n : Option Nat) (k i : Nat) :
    Yard.Spares e k i y (listPieces y hs n) := by
  refine .forEach _ (fun y h => ?_) _ _
  exact .updPiece _ _ _

/-- R186: an order cancelled. -/
theorem keeps_cancelOrder (e : Site) (y : Yard) (n : Nat) : Yard.Keeps e y (cancelOrder e y n) := by
  unfold cancelOrder
  dsimp only
  refine Yard.Keeps.trans ?_ (.of_follows (.updTruck _ n _ (fun _ h => h) fun _ => rfl) (.of_census (census_updTruck _ _ _)))
  refine Yard.Keeps.trans ?_ (keeps_dropCurrentPick e _ n)
  exact .of_follows (spares_listPieces y _ _ 3 24) (.of_census (census_listPieces _ _ _))

end

end Sys2Proof.Machine
end

