-- ==== Sys2Proof/Proofs/Halting.lean ====
section
/-! PROOF. Faults and timeouts, homing and clearing, the plant stop at the cranes and its release keep the ranges, the order of
the claims, the agreement of cranes and tickets, and the claims that hold the bays of the work under way (R162 to R170). -/

namespace Sys2Proof.Machine

section
variable {e : Site} {k i : Nat} {t : Ticket} {y y' : Yard}

/-! ## Faults and timeouts (R162 to R164) -/

/-- R163: the ticket of a crane that faults leaves the work under way. -/
theorem spares_faultTicket (e : Site) (y : Yard) (k : Nat) : ∃ i, (∀ n, Yard.Spares e n i y (faultTicket e y k))
    ∧ (y.serves → y.servesBut k i)
    ∧ (y.serves → ∀ u, (faultTicket e y k).ticketAt i = some u → u.state.served = false ∧ u.shaped) := by
  unfold faultTicket
  split
  · rename_i slot t ht
    have hat : y.ticketAt slot = some t := currentTicket_at ht
    have hbut : y.serves → y.servesBut k slot := fun hs => by
      obtain ⟨g, hg, -⟩ := currentTicket_eq_some.1 ht
      obtain ⟨hserved, hc, -⟩ := hs.of_current (Yard.current_lt hg) ht
      obtain ⟨-, -, -, -, hbut⟩ := hs.of_ticket hat hserved hc
      exact hbut
    have hsame : t.state.served = false → y.serves →
        ∀ u, y.ticketAt slot = some u → u.state.served = false ∧ u.shaped := fun hst hs u hu => by
      obtain rfl := Option.some.inj (hat.symm.trans hu)
      exact ⟨hst, hs.2.2 slot t hat⟩
    have hfail : y.serves → ∀ u, (finishTicket e y slot .failed .craneFault).ticketAt slot = some u →
        u.state.served = false ∧ u.shaped := fun hs => finishTicket_idle hat (.inr (.inl rfl)) (hs.2.2 slot t hat)
    refine ⟨slot, ?_⟩
    cases hst : t.state with
    | granted =>
      refine ⟨fun n => spares_returnTicket y, hbut, fun hs u hu => ?_⟩
      obtain ⟨v, hv, hwait, hkind, hp, hsrc, hd⟩ := returnTicket_waiting (e := e) hat
      obtain rfl := Option.some.inj (hu.symm.trans hv)
      have hserved := TicketState.waiting_not_served hwait
      exact ⟨hserved, (hs.2.2 slot t hat).of_not_served hserved hkind hp hsrc hd⟩
    | lifting | lifted | setting => exact ⟨fun n => spares_finishTicket y _ _, hbut, hfail⟩
    | pending | ready | done | failed | cancelled => exact ⟨fun n => .refl e n _ y, hbut, hsame (by rw [hst]; rfl)⟩
  · rename_i hnone
    refine ⟨24, fun n => .refl e n _ y, fun hs => hs.but_idle ?_, fun _ => y.no_slot⟩
    cases hg : (y.crane k).current with
    | none => rfl
    | some g =>
      obtain ⟨-, u, hu, -⟩ := hs.1 k g (Yard.current_lt hg) hg
      rw [currentTicket_eq_some.2 ⟨g, hg, hu, rfl⟩] at hnone
      cases hnone

/-- R163, R164: a crane that faults. -/
theorem keeps_fault (e : Site) (y : Yard) (k : Nat) {f : CraneRecord → CraneRecord}
    (hf : ∀ c, ((f c).state, (f c).current, (f c).halted, (f c).timer) = (.faulted, none, false, none))
    (hkept : ∀ c, ((f c).homeBay, (f c).nextSeq) = (c.homeBay, c.nextSeq)) :
    Yard.Keeps e y ((faultTicket e y k).updCrane k f) := by
  simp only [Prod.mk.injEq] at hf hkept
  obtain ⟨i, hsp, hbut, hslot⟩ := spares_faultTicket e y k
  have hcrane : ∀ n, Yard.Spares e k n (faultTicket e y k) ((faultTicket e y k).updCrane k f) := fun n =>
    .updCrane _ k f (fun _ q h => CraneRecord.inRange_stopped h (hkept _).2 (hf _).2.2.2)
      (fun _ => ⟨fun h => (by rw [(hf _).2.1] at h; cases h), fun h => (by rw [(hf _).2.2.1] at h; cases h), fun _ => (hf _).1⟩)
      (fun c => (hkept c).1) (.inl rfl)
  have hidle : Yard.Idles e k i y ((faultTicket e y k).updCrane k f) := by
    refine ⟨(hsp k).trans (hcrane i), hbut, fun _ => ?_, hslot, fun _ _ hk hb => ?_⟩
    · by_cases hk : k < 3
      · rw [Yard.crane_updCrane_same _ _ _ hk, (hf _).2.1]
      · rw [Yard.crane_ge _ (Nat.not_lt.mp hk)]
        rfl
    · rw [Yard.crane_updCrane_same _ _ _ hk, (hf _).1] at hb
      rcases hb with h | h <;> cases h
  refine hidle.keeps (fun hq => ?_) fun j => .inl ((hsp 3).claim_eq j)
  exact ((follows_faultTicket e y k).then_census (census_updCrane _ _ _)).queue hq

theorem keeps_stageTimeout (e : Site) (y : Yard) (k : Nat) : Yard.Keeps e y (stageTimeout e y k) :=
  keeps_fault e y k (fun _ => rfl) fun _ => rfl

theorem keeps_faultReport (e : Site) (y : Yard) (k code bay : Nat) : Yard.Keeps e y (faultReport e y k code bay) :=
  keeps_fault e y k (fun _ => rfl) fun _ => rfl

/-! ## Homing and clearing (R166, R167) -/

/-- A crane at no work whose claim is emptied. -/
theorem keeps_offDuty (hq : y'.census = y.census) (hsp : Yard.Spares e k 24 y y')
    (hb : ¬((y.crane k).state = .busy ∨ (y.crane k).state = .stopped))
    {st : CraneState} (hst : (y'.crane k).state = st) (hb' : ¬(st = .busy ∨ st = .stopped))
    (hcur : (y'.crane k).current = (y.crane k).current) (hc : y'.claim k = y.claim k ∨ y'.claim k = none) :
    Yard.Keeps e y y' := by
  have hidle : Yard.Idles e k 24 y y' := by
    refine ⟨hsp, fun hs => hs.but_idle (hs.current_none hb), fun hs => ?_,
      fun _ => y'.no_slot, fun _ _ _ h => absurd (hst ▸ h) hb'⟩
    rw [hcur]
    exact hs.current_none hb
  refine hidle.keeps (Yard.Follows.of_census hq).queue fun j => ?_
  by_cases hj : j = k
  · rw [hj]
    exact hc
  · exact .inl (hsp.claims j hj)

/-- R155: a crane at no work stays lawful when it is given another such state. -/
theorem CraneRecord.lawful_offDuty {c c' : CraneRecord} (h : c.lawful) (hb : ¬(c.state = .busy ∨ c.state = .stopped))
    (hcur : c'.current = c.current) (hh : c'.halted = c.halted) (hf : c'.faultCode ≠ .none → c'.state = .faulted) :
    c'.lawful := by
  obtain ⟨hc, hhalt, -⟩ := h
  refine ⟨fun h => ?_, fun h => ?_, hf⟩
  · rw [hcur] at h
    exact absurd (hc h) hb
  · rw [hh] at h
    exact absurd (.inr (hhalt h)) hb

theorem keeps_startHoming (e : Site) (hk : k < 3) (hst : (y.crane k).state = .unhomed ∨ (y.crane k).state = .faulted) :
    Yard.Keeps e y (startHoming e y k) := by
  have hb : ¬((y.crane k).state = .busy ∨ (y.crane k).state = .stopped) := by
    rcases hst with h | h <;> rw [h] <;> decide
  unfold startHoming
  obtain ⟨hstate, hcur, -⟩ := sendStage_job (e := e) (y := (y.updCrane k (fun c =>
    { c with state := .homing, faultCode := .none, stopOrder := none })).setClaim k none) .home 0 hk
  have hhome : ((y.updCrane k (fun c =>
    { c with state := .homing, faultCode := .none, stopOrder := none })).setClaim k none).crane k
      = { y.crane k with state := .homing, faultCode := .none, stopOrder := none } := Yard.crane_updCrane_same _ _ _ hk
  rw [hhome] at hstate hcur
  refine keeps_offDuty (st := .homing) (by rw [census_sendStage, census_setClaim, census_updCrane]) ?_ hb hstate (by decide) hcur
    (.inr ?_)
  · refine Yard.Spares.trans ?_ (spares_sendStage _ _ _)
    refine Yard.Spares.trans ?_ (.setClaim _ _)
    exact .updCrane y k _ (fun _ _ h => h) (fun h => CraneRecord.lawful_offDuty h hb rfl rfl fun hf => absurd rfl hf) (fun _ => rfl)
      (.inl rfl)
  · rw [sendStage_claim]
    exact Yard.claim_setClaim_same _ _ _ hk

/-- R166: an accepted CLEAR CRANE. -/
theorem keeps_clearCrane (e : Site) (hk : k < 3) (hst : (y.crane k).state = .faulted) :
    Yard.Keeps e y ((y.updCrane k (fun c => { c with state := .unhomed, faultCode := .none, controller := 0 })).setClaim k
      none) := by
  have hb : ¬((y.crane k).state = .busy ∨ (y.crane k).state = .stopped) := by rw [hst]; decide
  have hcrane : ((y.updCrane k (fun c => { c with state := .unhomed, faultCode := .none, controller := 0 })).setClaim k
      none).crane k = { y.crane k with state := .unhomed, faultCode := .none, controller := 0 } :=
    Yard.crane_updCrane_same _ _ _ hk
  refine keeps_offDuty (st := .unhomed) rfl ?_ hb (congrArg CraneRecord.state hcrane :) (by decide)
    (congrArg CraneRecord.current hcrane :) (.inr (Yard.claim_setClaim_same _ _ _ hk))
  refine Yard.Spares.trans ?_ (.setClaim _ _)
  exact .updCrane y k _ (fun _ _ h => h) (fun h => CraneRecord.lawful_offDuty h hb rfl rfl fun hf => absurd rfl hf) (fun _ => rfl)
    (.inl rfl)

/-- R167: the crane record after a homing failure. -/
theorem spares_homingFailure (code : FaultCode) (hb : ¬((y.crane k).state = .busy ∨ (y.crane k).state = .stopped)) :
    Yard.Spares e k i y (homingFailure y k code) := by
  unfold homingFailure
  refine Yard.Spares.trans ?_ (.setClaim _ _)
  exact .updCrane y k _ (fun _ _ h => CraneRecord.inRange_stopped h rfl rfl)
    (fun h => CraneRecord.lawful_offDuty h hb rfl rfl fun _ => rfl)
    (fun _ => rfl) (.inl rfl)

theorem homingFailure_crane (code : FaultCode) (hk : k < 3) : ((homingFailure y k code).crane k).state = .faulted
    ∧ ((homingFailure y k code).crane k).current = (y.crane k).current ∧ (homingFailure y k code).claim k = none := by
  have hcrane : (homingFailure y k code).crane k = CraneRecord.latchFault { y.crane k with
    state := .faulted, faultCode := code, stage := none, stopOrder := none, timer := none } :=
    Yard.crane_updCrane_same _ _ _ hk
  rw [hcrane]
  exact ⟨rfl, rfl, Yard.claim_setClaim_same _ _ _ hk⟩

theorem keeps_homingFailure (e : Site) (code : FaultCode) (hk : k < 3)
    (hb : ¬((y.crane k).state = .busy ∨ (y.crane k).state = .stopped)) : Yard.Keeps e y (homingFailure y k code) := by
  obtain ⟨hstate, hcur, hclaim⟩ := homingFailure_crane (y := y) code hk
  exact keeps_offDuty rfl (spares_homingFailure code hb) hb hstate (by decide) hcur (.inr hclaim)

/-- R162: the expiry of a report timer. -/
theorem keeps_timerExpiry (e : Site) (y : Yard) (k : Nat) : Yard.Keeps e y (timerExpiry e y k) := by
  unfold timerExpiry
  dsimp only
  split
  · rename_i h
    obtain ⟨-, hst⟩ := h
    exact keeps_homingFailure e _ (Yard.crane_lt (by rw [hst]; exact CraneState.noConfusion)) (by rw [hst]; decide)
  · exact keeps_stageTimeout e y k

/-- R162: a minute taken off a report timer that does not expire by it. -/
theorem keeps_countMinute (e : Site) (h : ∀ m, (y.crane k).timer = some m → 1 < m.minutes) :
    Yard.Keeps e y (countMinute y k) := by
  refine .of_follows (.updCrane y k _ (fun _ q hr => ⟨hr.1, fun m hm => ?_⟩) id (fun _ => rfl) (.inr rfl))
    (.of_census (census_updCrane _ _ _))
  obtain ⟨m0, hm0, rfl⟩ := Option.map_eq_some_iff.1 hm
  have h1 := h m0 hm0
  obtain ⟨⟨-, h60⟩, -⟩ := hr.2 m0 hm0
  dsimp only
  exact ⟨⟨by omega, by omega⟩, fun _ => rfl⟩

/-! ## Plant stop (R169, R170) -/

/-- R169: STOP sent, unless one is awaited, leaves the state of the crane. -/
theorem spares_stopUnlessAwaited (y : Yard) (n : Nat) : Yard.Spares e k i y (stopUnlessAwaited e y n) := by
  unfold stopUnlessAwaited
  split
  · exact .refl e k i y
  · exact spares_sendStop y n

theorem sendStop_state (hk : k < 3) : ((sendStop e y k).crane k).state = (y.crane k).state := by
  rw [sendStop_crane _ _ _ hk]
  unfold CraneRecord.restart
  split <;> rfl

theorem stopUnlessAwaited_state (hk : k < 3) : ((stopUnlessAwaited e y k).crane k).state = (y.crane k).state := by
  unfold stopUnlessAwaited
  split
  · rfl
  · exact sendStop_state hk

/-- R169: the crane STOPPED, with its ticket or without. -/
theorem spares_craneStopped (hst : (y.crane k).state = .busy) (n m : Nat) :
    Yard.Spares e n m y ((stopUnlessAwaited e y k).updCrane k (fun c => { c with state := .stopped })) := by
  have hk : k < 3 := Yard.crane_lt (by rw [hst]; exact CraneState.noConfusion)
  have hbusy : ((stopUnlessAwaited e y k).crane k).state = .busy := (stopUnlessAwaited_state hk).trans hst
  refine (spares_stopUnlessAwaited y k).trans (.updCrane _ k _ (fun _ _ h => h) (fun ⟨_, hhalt, hfault⟩ => ?_) (fun _ => rfl)
    (.inr ?_))
  · refine ⟨fun _ => .inr rfl, fun _ => rfl, fun h => ?_⟩
    rw [hfault h] at hbusy
    cases hbusy
  · unfold CraneRecord.job
    rw [hbusy]
    rfl

theorem stopUnlessAwaited_ticketAt (n j : Nat) : (stopUnlessAwaited e y n).ticketAt j = y.ticketAt j := by
  unfold stopUnlessAwaited
  split <;> rfl

/-- R169: the yard after the assertion at a crane whose ticket goes back to READY. -/
def Yard.returned (e : Site) (y : Yard) (k i : Nat) : Yard :=
  returnTicket e (((stopUnlessAwaited e y k).updCrane k (fun c => { c with state := .stopped })).updCrane k
    (fun c => { c with current := none, stage := none })) i

theorem keeps_returned (e : Site) (hst : (y.crane k).state = .busy) (ht : currentTicket y k = some (i, t))
    (hg : t.state = .granted) : Yard.Keeps e y (y.returned e k i) := by
  have hk : k < 3 := Yard.crane_lt (by rw [hst]; exact CraneState.noConfusion)
  have hat : y.ticketAt i = some t := currentTicket_at ht
  have hsp : Yard.Spares e k i y (y.returned e k i) := by
    refine Yard.Spares.trans ?_ (spares_returnTicket _)
    refine (spares_craneStopped hst k i).trans (.updCrane _ k _ (fun _ _ h => h) (fun h => ?_) (fun _ => rfl) (.inl rfl))
    obtain ⟨-, hhalt, hfault⟩ := h
    exact ⟨fun h => (by cases h), hhalt, hfault⟩
  have hclaim : ∀ j, (y.returned e k i).claim j = y.claim j := fun j => by
    have hstop : Yard.Spares e 3 24 y (stopUnlessAwaited e y k) := spares_stopUnlessAwaited y k
    exact (returnTicket_claim j).trans (hstop.claim_eq j)
  have hidle : Yard.Idles e k i y (y.returned e k i) := by
    refine ⟨hsp, fun hs => ?_, fun _ => ?_, fun hs u hu => ?_, fun _ hcov hk _ => ?_⟩
    · obtain ⟨hserved, hc, -⟩ := hs.of_current hk ht
      obtain ⟨-, -, -, -, hbut⟩ := hs.of_ticket hat hserved hc
      exact hbut
    · unfold Yard.returned
      rw [returnTicket_crane, Yard.crane_updCrane_same _ _ _ hk]
    · obtain ⟨v, hv, hwait, hkind, hp, hsrc, hd⟩ := returnTicket_waiting (e := e)
        (y := ((stopUnlessAwaited e y k).updCrane k (fun c => { c with state := .stopped })).updCrane k
          (fun c => { c with current := none, stage := none }))
        ((stopUnlessAwaited_ticketAt k i).trans hat)
      obtain rfl := Option.some.inj (hu.symm.trans hv)
      have hserved := TicketState.waiting_not_served hwait
      exact ⟨hserved, (hs.2.2 i t hat).of_not_served hserved hkind hp hsrc hd⟩
    · rw [hclaim]
      exact hcov.claim hk (.inl hst)
  refine hidle.keeps ?_ fun j => .inl (hclaim j)
  refine (Yard.Follows.of_census ?_).queue
  have hc : ∀ f g, (((stopUnlessAwaited e y k).updCrane k f).updCrane k g).census = y.census := fun f g => by
    rw [census_updCrane, census_updCrane, census_stopUnlessAwaited]
  have ha : y.activeAt i = true := currentTicket_active ht (by rw [hg]; rfl)
  exact (census_returnTicket e _ i (Yard.activeAt_of_census (hc _ _) ha)).trans (hc _ _)

theorem keeps_craneStop (e : Site) (y : Yard) (k : Nat) : Yard.Keeps e y (craneStop e y k) := by
  unfold craneStop
  dsimp only
  split
  · rename_i hst
    have hk : k < 3 := Yard.crane_lt (by rw [hst]; exact CraneState.noConfusion)
    have hb : ¬((y.crane k).state = .busy ∨ (y.crane k).state = .stopped) := by rw [hst]; decide
    have hcrane := Yard.crane_updCrane_same y k (fun c => { c with state := .unhomed, stage := none }) hk
    have hstop : Yard.Spares e 3 24 (y.updCrane k (fun c => { c with state := .unhomed, stage := none }))
        (sendStop e (y.updCrane k (fun c => { c with state := .unhomed, stage := none })) k) := spares_sendStop _ k
    obtain ⟨-, hcur, -⟩ := CraneRecord.job_eq (hstop.job_eq k)
    refine keeps_offDuty (st := .unhomed) rfl ?_ hb ((sendStop_state hk).trans (congrArg CraneRecord.state hcrane :))
      (by decide) (hcur.trans (congrArg CraneRecord.current hcrane :)) (.inl rfl)
    refine Yard.Spares.trans ?_ (spares_sendStop _ k)
    refine .updCrane y k _ (fun _ _ h => h) (fun h => CraneRecord.lawful_offDuty h hb rfl rfl fun hf => ?_) (fun _ => rfl)
      (.inl rfl)
    obtain ⟨-, -, hfault⟩ := h
    have hfaulted := hfault hf
    rw [hst] at hfaulted
    cases hfaulted
  · rename_i hst
    have hstopped : Yard.Keeps e y ((stopUnlessAwaited e y k).updCrane k (fun c => { c with state := .stopped })) := by
      refine .of_follows (spares_craneStopped hst 3 24) (.of_census ?_)
      rw [census_updCrane, census_stopUnlessAwaited]
    split
    · rename_i ht
      split
      · rename_i hg
        exact keeps_returned e hst ht hg
      · exact hstopped
    · exact hstopped
  all_goals exact .refl e y

theorem keeps_cranesStop (e : Site) (y : Yard) : Yard.Keeps e y (cranesStop e y) := .forEach _ (keeps_craneStop e) _ _

section
variable {c : CraneRecord} {n : Nat}

theorem CraneRecord.resume_homeBay : (c.resume n).homeBay = c.homeBay := by
  unfold CraneRecord.resume CraneRecord.restart
  split_ifs <;> rfl

theorem CraneRecord.resume_inRange {q : Bool} (hn : 1 ≤ n ∧ n ≤ 60) (h : c.inRange q) : (c.resume n).inRange q := by
  unfold CraneRecord.resume
  dsimp only
  split
  · split
    · exact CraneRecord.restart_inRange hn h
    · exact h
  · split <;> exact h

/-- R170: a STOPPED crane with a ticket is BUSY again; without one it is IDLE, or waits for the report on its STOP. -/
theorem CraneRecord.resume_cases (h : c.state = .stopped) :
    (∃ g, c.current = some g) ∧ (c.resume n).job = c.job ∧ (c.resume n).state = .busy ∧ (c.resume n).halted = false
      ∧ (c.resume n).faultCode = c.faultCode
    ∨ c.current = none ∧ (c.resume n = c ∨ c.resume n = { c with state := .idle, halted := false }) := by
  unfold CraneRecord.resume
  cases hc : c.current with
  | some g =>
    left
    refine ⟨⟨g, rfl⟩, ?_⟩
    simp only [Option.isSome_some, if_true]
    unfold CraneRecord.job CraneRecord.restart
    split_ifs <;> simp_all
  | none =>
    right
    rw [if_neg (by simp)]
    refine ⟨rfl, ?_⟩
    split
    · exact .inr rfl
    · exact .inl rfl

theorem CraneRecord.resume_lawful (hst : c.state = .stopped) (h : c.lawful) : (c.resume n).lawful := by
  obtain ⟨hcur, hhalt, hfault⟩ := h
  have hnone : c.faultCode ≠ .none → False := fun hf => by
    have hs := hfault hf
    rw [hst] at hs
    cases hs
  rcases CraneRecord.resume_cases (n := n) hst with ⟨-, -, hbusy, hh, hf⟩ | ⟨hc, he | he⟩
  · refine ⟨fun _ => .inl hbusy, fun h => ?_, fun h => absurd (hf ▸ h) hnone⟩
    rw [hh] at h
    cases h
  · rw [he]
    exact ⟨hcur, hhalt, hfault⟩
  · rw [he]
    refine ⟨fun h => ?_, fun h => (by cases h), fun h => absurd h hnone⟩
    dsimp only at h
    rw [hc] at h
    cases h

end

/-- R170: the release at one crane. -/
theorem keeps_craneResume (e : Site) (y : Yard) (k : Nat) : Yard.Keeps e y (craneResume e y k) := by
  unfold craneResume
  split
  · rename_i hst
    have hk : k < 3 := Yard.crane_lt (by rw [hst]; exact CraneState.noConfusion)
    have hframe : Yard.Spares e 3 24 y (sendResume y k) := spares_sendFrame y k _ _
    have hstate : ((sendResume y k).crane k).state = .stopped := by
      unfold sendResume
      rw [sendFrame_crane _ _ _ _ hk]
      exact hst
    obtain ⟨-, hcur, -⟩ := CraneRecord.job_eq (hframe.job_eq k)
    have hsp : ∀ n m, n = k ∨ (((sendResume y k).crane k).resume e.settings.stageTimeout).job =
      ((sendResume y k).crane k).job →
        Yard.Spares e n m y ((sendResume y k).updCrane k (CraneRecord.resume e.settings.stageTimeout)) := fun n m hj => by
      refine (spares_sendFrame y k _ _).trans (.updCrane _ k _ (fun he q h => ?_) (fun h => ?_) (fun _ => ?_) (hj.imp Eq.symm id))
      · exact CraneRecord.resume_inRange (Site.stageTimeout_range he) h
      · exact CraneRecord.resume_lawful hstate h
      · exact CraneRecord.resume_homeBay
    have hcrane := Yard.crane_updCrane_same (sendResume y k) k (CraneRecord.resume e.settings.stageTimeout) hk
    rcases CraneRecord.resume_cases (n := e.settings.stageTimeout) hstate with ⟨-, hjob, -⟩ | ⟨hnone, hres⟩
    · exact .of_follows (hsp 3 24 (.inr hjob)) (.of_census rfl)
    · have hidle : Yard.Idles e k 24 y ((sendResume y k).updCrane k (CraneRecord.resume e.settings.stageTimeout)) := by
        refine ⟨hsp k 24 (.inl rfl), fun hs => hs.but_idle (hcur ▸ hnone), fun _ => ?_, fun _ => Yard.no_slot _,
          fun _ hcov hk _ => hcov.claim hk (.inr hst)⟩
        rw [hcrane]
        rcases hres with h | h <;> rw [h] <;> exact hnone
      exact hidle.keeps (Yard.Follows.of_census rfl).queue fun j => .inl rfl
  · exact .refl e y

theorem keeps_cranesResume (e : Site) (y : Yard) : Yard.Keeps e y (cranesResume e y) := .forEach _ (keeps_craneResume e) _ _

end

end Sys2Proof.Machine
end

