-- ==== Sys2Proof/Proofs/Reporting.lean ====
section
/-! PROOF. Crane reports: the claims shrink to bays that they hold, and the ticket goes on or ends (R128 to R131, R148 to R153,
R161, R167). -/

namespace Sys2Proof.Machine

section
variable {e : Site} {k i : Nat} {t t' : Ticket} {y y' y'' : Yard}

/-! ## What a report keeps -/

/-- A report on the work of a crane: the claims stay in order where each holds the bays that its report shrinks it to. -/
structure Yard.Reports (e : Site) (y y' : Yard) : Prop extends Yard.Sound e y y' where
  apart   : y.covered e → y.claimsApart → y'.claimsApart
  ordered : y.covered e → y.claim 1 ≠ none → y.claimsOrdered → y'.claimsOrdered
  queue   : y.queueOk → y'.queueOk
  serves  : y.queueOk → y.serves → y'.serves
  covered : y.queueOk → y.serves → y.covered e → y'.covered e

theorem Yard.Keeps.reports (h : Yard.Keeps e y y') : Yard.Reports e y y' :=
  ⟨h.toSound, fun _ => h.apart, fun _ _ => h.ordered, h.queue, h.serves, h.covered⟩

theorem Yard.Reports.refl (e : Site) (y : Yard) : Yard.Reports e y y := (Yard.Keeps.refl e y).reports

theorem Yard.Reports.keeps (h : Yard.Reports e y y') (h' : Yard.Keeps e y' y'') : Yard.Reports e y y'' where
  toSound := h.toSound.trans h'.toSound
  apart hc ha := h'.apart (h.apart hc ha)
  ordered hc h1 ho := h'.ordered (h.ordered hc h1 ho)
  queue hq := h'.queue (h.queue hq)
  serves hq hs := h'.serves (h.queue hq) (h.serves hq hs)
  covered hq hs hc := h'.covered (h.queue hq) (h.serves hq hs) (h.covered hq hs hc)

theorem Yard.Idles.reports (h : Yard.Idles e k i y y') (hq : y.queueOk → y'.queueOk)
    (hn : y.covered e → y.claimsApart ∨ y.claimsOrdered → y.narrows y') : Yard.Reports e y y' where
  toSound := h.toSound
  apart hc ha := (hn hc (.inl ha)).apart ha
  ordered hc _ ho := (hn hc (.inr ho)).ordered ho
  queue := hq
  serves _ := h.serves
  covered _ := h.covered

/-- A change after which crane `k` serves the ticket in slot `i` as before, and its claim holds the bays that are needed. -/
structure Yard.GoesOn (e : Site) (k i : Nat) (t t' : Ticket) (y y' : Yard) : Prop extends Yard.Spares e k i y y' where
  old     : y.ticketAt i = some t ∧ t.state.served = true ∧ (y.serves → t.crane = some k)
  new     : y'.ticketAt i = some t' ∧ t'.state.served = true ∧ t'.crane = t.crane
  shape   : t.shaped → t'.shaped
  busy    : (y.crane k).state = .busy ∨ (y.crane k).state = .stopped →
    (y'.crane k).state = .busy ∨ (y'.crane k).state = .stopped
  current : (y'.crane k).current = (y.crane k).current
  claim   : y.serves → y.covered e → k < 3 → ∃ c, y'.claim k = some c
    ∧ (∀ o, (y'.crane k).stage = some o → o.kind = .travel → c.holds o.arg = true) ∧ t'.heldBy e y' c

theorem Yard.GoesOn.serves (h : Yard.GoesOn e k i t t' y y') (hs : y.serves) : y'.serves := by
  obtain ⟨hat, hserved, hc⟩ := h.old
  obtain ⟨hat', hserved', hc'⟩ := h.new
  obtain ⟨hk, hcur, hbusy, hshape, hbut⟩ := hs.of_ticket hat hserved (hc hs)
  refine (hbut.spared h.toSpares).serves_pair hk ?_ (h.busy hbusy) hat' hserved' (hc'.trans (hc hs)) (h.shape hshape)
  rw [h.current, h.ticketHandle, hcur]

theorem Yard.GoesOn.covered (h : Yard.GoesOn e k i t t' y y') (hs : y.serves) (hcov : y.covered e) : y'.covered e := by
  obtain ⟨hat, hserved, hc⟩ := h.old
  obtain ⟨hk, hcur, -, -, hbut⟩ := hs.of_ticket hat hserved (hc hs)
  refine hcov.spared h.toSpares hbut fun _ => ?_
  obtain ⟨c, hclaim, htravel, hheld⟩ := h.claim hs hcov hk
  exact Yard.claimCovers_pair (by rw [h.current, h.ticketHandle, hcur]) h.new.1 hclaim htravel hheld

theorem Yard.GoesOn.reports (h : Yard.GoesOn e k i t t' y y') (hq : y.queueOk → y'.queueOk)
    (hn : y.covered e → y.claimsApart ∨ y.claimsOrdered → y.narrows y') : Yard.Reports e y y' where
  toSound := h.toSound
  apart hc ha := (hn hc (.inl ha)).apart ha
  ordered hc _ ho := (hn hc (.inr ho)).ordered ho
  queue := hq
  serves _ := h.serves
  covered _ := h.covered

/-! ## Claims that shrink (R151 to R153) -/

theorem Interval.single_holds (b : Nat) : (Interval.single b).holds b = true :=
  Interval.holds_iff.2 ⟨Nat.le_refl b, Nat.le_refl b⟩

/-- A claim shrunk to a bay that it holds. -/
theorem Yard.narrows_single {c : Interval} {b : Nat} (h : y.claimsApart ∨ y.claimsOrdered) (hk : k < 3)
    (hc : y.claim k = some c) (hb : c.holds b = true)
    (hcl : ∀ j, y'.claim j = (y.setClaim k (some (.single b))).claim j) : y.narrows y' := by
  have hn : y.narrows (y.setClaim k (some (.single b))) := Yard.narrows_setClaim h hk fun a ha => by
    obtain rfl := Option.some.inj ha
    obtain ⟨hlo, hhi⟩ := Interval.holds_iff.1 hb
    exact ⟨Nat.le_refl b, c, hc, hlo, hhi⟩
  intro j a ha
  rw [hcl] at ha
  exact hn j a ha

theorem Interval.foldl_within {c d : Interval} {bs : List Nat} (hlo : d.lo ≤ c.lo) (hhi : c.hi ≤ d.hi)
    (hb : ∀ b ∈ bs, d.holds b = true) : d.lo ≤ (bs.foldl Interval.join c).lo ∧ (bs.foldl Interval.join c).hi ≤ d.hi := by
  induction bs generalizing c with
  | nil => exact ⟨hlo, hhi⟩
  | cons b bs ih =>
    obtain ⟨hbl, hbh⟩ := Interval.holds_iff.1 (hb b List.mem_cons_self)
    exact ih (Nat.le_min.2 ⟨hlo, hbl⟩) (Nat.max_le.2 ⟨hhi, hbh⟩) fun a ha => hb a (List.mem_cons_of_mem _ ha)

/-- The smallest interval around some bays lies within any that holds them, and holds each of them. -/
theorem hull_eq_some {bs : List Nat} {c : Interval} (h : hull bs = some c) :
    c.lo ≤ c.hi ∧ (∀ d : Interval, (∀ b ∈ bs, d.holds b = true) → d.lo ≤ c.lo ∧ c.hi ≤ d.hi)
      ∧ ∀ b ∈ bs, c.holds b = true := by
  cases bs with
  | nil => cases h
  | cons a as =>
    obtain rfl := Option.some.inj h
    refine ⟨Interval.foldl_le as (Nat.le_refl a), fun d hd => ?_, fun b hb => ?_⟩
    · obtain ⟨hlo, hhi⟩ := Interval.holds_iff.1 (hd a List.mem_cons_self)
      exact Interval.foldl_within hlo hhi fun b hb => hd b (List.mem_cons_of_mem _ hb)
    · rcases List.mem_cons.1 hb with rfl | hb
      · exact Interval.holds_foldl_of as (Interval.single_holds b)
      · exact Interval.foldl_holds _ hb

/-- What the claim of a crane holds for its current ticket. -/
theorem Yard.covered.held (hc : y.covered e) (ht : currentTicket y k = some (i, t)) : ∃ c, y.claim k = some c
    ∧ (∀ o, (y.crane k).stage = some o → o.kind = .travel → c.holds o.arg = true) ∧ t.heldBy e y c := by
  obtain ⟨g, hg, -⟩ := currentTicket_eq_some.1 ht
  exact ((Yard.claimCovers_iff k).1 (hc k (Yard.current_lt hg))).2 i t ht

theorem currentTicket_lt (ht : currentTicket y k = some (i, t)) : k < 3 := by
  obtain ⟨g, hg, -⟩ := currentTicket_eq_some.1 ht
  exact Yard.current_lt hg

/-! ## Stage orders after a report -/

/-- The next stage of a ticket: its state written, the claim shrunk, an order sent (R128, R131, R151, R152). -/
def Yard.nextStage (e : Site) (y : Yard) (k i : Nat) (f : Ticket → Ticket) (c : Option Interval) (kind : OrderKind)
    (arg : Nat) : Yard := sendStage e ((y.updTicket i f).setClaim k c) k kind arg

section
variable {f : Ticket → Ticket} {c : Option Interval} {kind : OrderKind} {arg : Nat}

theorem nextStage_claim (j : Nat) : (y.nextStage e k i f c kind arg).claim j = (y.setClaim k c).claim j := rfl

theorem nextStage_ticketAt (ht : y.ticketAt i = some t) : (y.nextStage e k i f c kind arg).ticketAt i = some (f t) := by
  refine (Yard.ticketAt_updTicket_same y i f (Yard.ticketAt_lt _ _ _ ht)).trans ?_
  rw [ht]
  rfl

theorem spares_nextStage (hf : ∀ u, ((f u).baseLevel, (f u).level) = (u.baseLevel, u.level)) :
    Yard.Spares e k i y (y.nextStage e k i f c kind arg) := by
  unfold Yard.nextStage
  refine Yard.Spares.trans ?_ (spares_sendStage _ _ _)
  refine Yard.Spares.trans (.updTicket y i f (fun _ q h u hu => ?_) (.inl rfl)) (.setClaim _ _)
  obtain ⟨hbase, hlevel⟩ := Prod.mk.injEq .. ▸ hf u
  have hr := h.tickets i u hu
  unfold Ticket.inRange at hr ⊢
  rwa [hbase, hlevel]

/-- The crane goes on with its ticket to the next stage, which is no TRAVEL; `y'` is the yard with the bay of the report
written. -/
theorem goesOn_nextStage (hy : ∀ n m, Yard.Spares e n m y y') (hat' : y'.ticketAt i = y.ticketAt i)
    (ht : currentTicket y k = some (i, t)) (hst : t.state.served = true)
    (hf : ∀ u, ((f u).baseLevel, (f u).level) = (u.baseLevel, u.level)) (hst' : (f t).state.served = true)
    (hcrane : (f t).crane = t.crane) (hshape : t.shaped → (f t).shaped) (hkind : kind ≠ .travel)
    (hclaim : y.serves → y.covered e → ∃ a, c = some a ∧ (f t).heldBy e y a) :
    Yard.GoesOn e k i t (f t) y (y'.nextStage e k i f c kind arg) := by
  have hk := currentTicket_lt ht
  have hat := currentTicket_at ht
  obtain ⟨hbusy, hcur, -⟩ := CraneRecord.job_eq ((hy 3 24).job_eq k)
  obtain ⟨hstate', hcur', hstage⟩ := sendStage_job (e := e) (y := (y'.updTicket i f).setClaim k c) kind arg hk
  have hsp : Yard.Spares e k i y (y'.nextStage e k i f c kind arg) := (hy k i).trans (spares_nextStage hf)
  refine ⟨hsp, ⟨hat, hst, fun hs => (hs.of_current hk ht).2.1⟩,
    ⟨nextStage_ticketAt (hat'.trans hat), hst', hcrane⟩, hshape,
    fun hb => ?_, hcur'.trans hcur, fun hs hcov _ => ?_⟩
  · unfold Yard.nextStage
    rw [hstate']
    exact hbusy.2 hb
  · obtain ⟨a, ha, hheld⟩ := hclaim hs hcov
    refine ⟨a, ?_, fun o ho htravel => ?_, hheld.continues hsp (hshape (hs.2.2 i t hat)) (.refl _)⟩
    · rw [nextStage_claim, Yard.claim_setClaim_same _ _ _ hk, ha]
    · unfold Yard.nextStage at ho
      rw [hstage] at ho
      obtain rfl := Option.some.inj ho
      exact absurd htravel hkind

end

end

end Sys2Proof.Machine
end

