-- ==== Sys2Proof/Proofs/CraneReports.lean ====
section
/-! PROOF. ARRIVED, LIFTED, LOWERED, STOPPED and HOMED: the effect of each keeps the ranges, and under the claims that hold the
bays of the work, the order of the claims; and the agreement of cranes and tickets with those claims (R128 to R131, R148 to R153,
R161, R167). -/

namespace Sys2Proof.Machine

section
variable {e : Site} {k i : Nat} {t : Ticket} {y y' : Yard}

/-! ## A stage order answered (R159, R160) -/

theorem spares_clearStage (y : Yard) : Yard.Spares e k i y (clearStage e y k) := by
  refine .updCrane y k _ (fun he q h => ?_) (fun h => ?_) (fun c => ?_) (.inl rfl)
  · split
    · exact CraneRecord.restart_inRange (Site.stageTimeout_range he) h
    · exact CraneRecord.inRange_stopped h rfl rfl
  · split
    · exact CraneRecord.restart_lawful _ h
    · exact h
  · split
    · exact CraneRecord.restart_homeBay _ _
    · rfl

theorem clearStage_crane (hk : k < 3) : ((clearStage e y k).crane k).state = (y.crane k).state
    ∧ ((clearStage e y k).crane k).current = (y.crane k).current ∧ ((clearStage e y k).crane k).stage = none := by
  unfold clearStage
  rw [Yard.crane_updCrane_same _ _ _ hk]
  unfold CraneRecord.restart
  split_ifs <;> exact ⟨rfl, rfl, rfl⟩

/-- R160: a crane that has a ticket, and so is BUSY or STOPPED, left without it. -/
theorem spares_freeCrane (hcur : (y.crane k).current.isSome = true) : Yard.Spares e k i y (freeCrane e y k) := by
  unfold freeCrane
  have hk : k < 3 := by
    obtain ⟨g, hg⟩ := Option.isSome_iff_exists.1 hcur
    exact Yard.current_lt hg
  refine (spares_clearStage y).trans (.updCrane _ k _ (fun _ q h => ?_) (fun h => ?_) (fun c => ?_) (.inl rfl))
  · split
    · exact h
    · exact CraneRecord.inRange_stopped h rfl rfl
  · obtain ⟨hc, hhalt, hfault⟩ := h
    have hbusy := hc (by rw [(clearStage_crane hk).2.1]; exact hcur)
    split
    · exact ⟨fun h => (by cases h), hhalt, hfault⟩
    · rename_i hst
      refine ⟨fun h => (by cases h), fun h => absurd (hhalt h) hst, fun h => ?_⟩
      rw [hfault h] at hbusy
      rcases hbusy with h | h <;> cases h
  · split <;> rfl

theorem freeCrane_current (hk : k < 3) : ((freeCrane e y k).crane k).current = none := by
  unfold freeCrane
  rw [Yard.crane_updCrane_same _ _ _ hk]
  split <;> rfl

/-- A report that ends the ticket of a crane. -/
theorem idles_freeCrane (ht : currentTicket y k = some (i, t)) (hsp : Yard.Spares e k i y y')
    (hcur : (y'.crane k).current = (y.crane k).current)
    (hslot : t.shaped → ∀ u, y'.ticketAt i = some u → u.state.served = false ∧ u.shaped)
    (hclaim : y.covered e → y'.claim k ≠ none) : Yard.Idles e k i y (freeCrane e y' k) := by
  have hk := currentTicket_lt ht
  have hsome : (y'.crane k).current.isSome = true := by
    obtain ⟨g, hg, -⟩ := currentTicket_eq_some.1 ht
    rw [hcur, hg]
    rfl
  have hfree : ∀ n, Yard.Spares e k n y' (freeCrane e y' k) := fun n => spares_freeCrane hsome
  refine ⟨hsp.trans (hfree i), fun hs => ?_, fun _ => freeCrane_current hk, fun hs => ?_, fun _ hcov _ _ => hclaim hcov⟩
  · obtain ⟨hserved, hc, hat⟩ := hs.of_current hk ht
    obtain ⟨-, -, -, -, hbut⟩ := hs.of_ticket hat hserved hc
    exact hbut
  · have hat := currentTicket_at ht
    exact (hfree 24).idle_slot (Nat.ne_of_lt (Yard.ticketAt_lt _ _ _ hat)) (hslot (hs.2.2 i t hat))

/-! ## ARRIVED (R128, R131, R148, R150 to R152) -/

/-- R161: the bay of a report written. -/
theorem spares_lastBay (y : Yard) (k bay n m : Nat) :
    Yard.Spares e n m y (y.updCrane k (fun c => { c with lastBay := bay })) :=
  .updCrane y k _ (fun _ _ h => h) id (fun _ => rfl) (.inr rfl)

theorem arrivedFits_iff {o : StageOrder} (h : arrivedFits y k o t = true) :
    o.kind = .travel ∧ (t.state = .granted ∨ t.state = .lifted) := by
  unfold arrivedFits at h
  simp only [Bool.and_eq_true, Bool.or_eq_true, decide_eq_true_eq] at h
  exact h.1

/-- R148, R150: the arrival that ends a YIELD or PARK. -/
theorem reports_arriveBound {o : StageOrder} (ht : currentTicket y k = some (i, t)) (ho : (y.crane k).stage = some o)
    (hkind : o.kind = .travel) (hy : ∀ n m, Yard.Spares e n m y y') (hat' : y'.ticketAt i = y.ticketAt i)
    (hq : y.queueOk → (arriveBound e y' k i o.arg).queueOk) : Yard.Reports e y (arriveBound e y' k i o.arg) := by
  have hk := currentTicket_lt ht
  have hat := currentTicket_at ht
  have hfinish : ∀ n, Yard.Spares e n i y' (finishTicket e y' i .done .done) := fun n => spares_finishTicket _ _ _
  have hunbind : ∀ (z : Yard) n m, Yard.Spares e n m z (unbind z (y'.ticketHandle i)) := fun z n m => spares_unbind _ _
  have hclaims : ∀ j, (arriveBound e y' k i o.arg).claim j = (y.setClaim k (some (.single o.arg))).claim j := fun j => by
    have hun := (hunbind ((finishTicket e y' i .done .done).setClaim k (some (.single o.arg))) 3 24).claim_eq j
    refine hun.trans ?_
    rw [Yard.claim_setClaim _ _ _ hk, Yard.claim_setClaim _ _ _ hk, (hfinish 3).claim_eq, (hy 3 24).claim_eq]
  unfold arriveBound at hclaims hq ⊢
  dsimp only at hclaims hq ⊢
  have hidle := idles_freeCrane (e := e) ht (y' := unbind ((finishTicket e y' i .done .done).setClaim k (some (.single o.arg)))
    (y'.ticketHandle i)) ?_ ?_ ?_ ?_
  · refine hidle.reports hq fun hcov h => ?_
    obtain ⟨c, hc, htravel, -⟩ := hcov.held ht
    exact Yard.narrows_single h hk hc (htravel o ho hkind) hclaims
  · exact (((hy k i).trans (hfinish k)).trans (.setClaim _ _)).trans (hunbind _ k i)
  · obtain ⟨-, h1, -⟩ := CraneRecord.job_eq ((hy 3 24).job_eq k)
    obtain ⟨-, h2, -⟩ := CraneRecord.job_eq ((hfinish 3).job_eq k)
    obtain ⟨-, h3, -⟩ := CraneRecord.job_eq
      ((hunbind ((finishTicket e y' i .done .done).setClaim k (some (.single o.arg))) 3 24).job_eq k)
    exact h3.trans (h2.trans h1)
  · exact fun hshape => (hunbind _ 3 24).idle_slot (Nat.ne_of_lt (Yard.ticketAt_lt _ _ _ hat))
      (finishTicket_idle (hat'.trans hat) (.inl rfl) hshape)
  · intro _
    have := hclaims k
    rw [Yard.claim_setClaim_same _ _ _ hk] at this
    exact fun h => absurd (this.symm.trans h) (Option.some_ne_none _)

/-- R128, R151: the arrival at the source. -/
theorem reports_arriveSource (ht : currentTicket y k = some (i, t)) (hst : t.state = .granted)
    (hkind : ¬(t.kind = .yield ∨ t.kind = .park)) (hy : ∀ n m, Yard.Spares e n m y y')
    (hat' : y'.ticketAt i = y.ticketAt i) (hq : y.queueOk → (arriveSource e y' k i t).queueOk) :
    Yard.Reports e y (arriveSource e y' k i t) := by
  have hk := currentTicket_lt ht
  have hneeded : neededBays e y' t = neededBays e y t := (hy 3 24).neededBays_eq rfl rfl
  have hgoes : Yard.GoesOn e k i t { t with state := .lifting } y (arriveSource e y' k i t) := by
    refine goesOn_nextStage (f := fun u => { u with state := .lifting }) hy hat' ht (by rw [hst]; rfl) (fun _ => rfl) rfl rfl
      (fun ⟨_, hrest, hhook⟩ => ⟨fun h => absurd h hkind, hrest, fun _ => hhook (.inl hst)⟩) OrderKind.noConfusion
      fun hs hcov => ?_
    obtain ⟨-, hrest, hhook⟩ := hs.2.2 i t (currentTicket_at ht)
    rw [not_or] at hkind
    obtain ⟨src, hsrc⟩ := Option.isSome_iff_exists.1 (hrest hkind.1 hkind.2).2
    have hmem : sourceBay e y src ∈ neededBays e y t :=
      mem_neededBays.2 (.inl ⟨src, hsrc, fun n hn => hhook (.inl hst) n (hn ▸ hsrc), rfl⟩)
    unfold travelInterval
    rw [hneeded]
    cases hl : hull (neededBays e y t) with
    | none =>
      cases hb : neededBays e y t with
      | nil =>
        rw [hb] at hmem
        cases hmem
      | cons b bs =>
        rw [hb] at hl
        cases hl
    | some a =>
      obtain ⟨-, -, hall⟩ := hull_eq_some hl
      refine ⟨a, rfl, fun h => (by cases h), fun _ src' hsrc' => ?_,
        fun _ d hd => hall _ (mem_neededBays.2 (.inr ⟨d, hd, rfl⟩))⟩
      obtain rfl := Option.some.inj (hsrc.symm.trans hsrc')
      exact hall _ hmem
  refine hgoes.reports hq fun hcov h => ?_
  obtain ⟨c, hc, -, hheld⟩ := hcov.held ht
  have hn : y.narrows (y.setClaim k (travelInterval e y' t)) := Yard.narrows_setClaim h hk fun a ha => by
    unfold travelInterval at ha
    rw [hneeded] at ha
    obtain ⟨hle, hwithin, -⟩ := hull_eq_some ha
    obtain ⟨hlo, hhi⟩ := hwithin c (hheld.granted hst)
    exact ⟨hle, c, hc, hlo, hhi⟩
  intro j a ha
  refine hn j a ?_
  rw [← ha]
  have hclaim : (arriveSource e y' k i t).claim j = (y'.setClaim k (travelInterval e y' t)).claim j := rfl
  rw [hclaim, Yard.claim_setClaim _ _ _ hk, Yard.claim_setClaim _ _ _ hk, (hy 3 24).claim_eq]

/-- R131, R152: the arrival of a laden crane. -/
theorem reports_arriveLaden {o : StageOrder} (ht : currentTicket y k = some (i, t)) (ho : (y.crane k).stage = some o)
    (hkind : o.kind = .travel) (hst : t.state = .lifted) (hy : ∀ n m, Yard.Spares e n m y y')
    (hat' : y'.ticketAt i = y.ticketAt i) (hq : y.queueOk → (arriveLaden e y' k i o.arg t).queueOk) :
    Yard.Reports e y (arriveLaden e y' k i o.arg t) := by
  have hk := currentTicket_lt ht
  have hat := currentTicket_at ht
  have hserved : t.state.served = true := by rw [hst]; rfl
  have hset : ∀ (c : Option Interval) j, (y'.setClaim k c).claim j = (y.setClaim k c).claim j := fun c j => by
    rw [Yard.claim_setClaim _ _ _ hk, Yard.claim_setClaim _ _ _ hk, (hy 3 24).claim_eq]
  unfold arriveLaden at hq ⊢
  split
  · rename_i d hd
    rw [hd] at hq
    have hbay := (hy 3 24).destBay d
    have hgoes : Yard.GoesOn e k i t { t with state := .setting } y
        (y'.nextStage e k i (fun u => { u with state := .setting }) (some (.single (destBay y' d))) .lower 0) := by
      refine goesOn_nextStage (f := fun u => { u with state := .setting }) hy hat' ht hserved (fun _ => rfl) rfl rfl
        (fun ⟨hb, hrest, _⟩ => ⟨fun h => ?_, hrest, fun h => (by rcases h with h | h <;> cases h)⟩) OrderKind.noConfusion
        fun hs hcov => ⟨_, rfl, fun h => (by cases h), fun h => (by cases h), fun _ d' hd' => ?_⟩
      · obtain ⟨-, -, -, -, hl, -⟩ := hb h
        exact absurd hst hl
      · obtain rfl := Option.some.inj (hd.symm.trans hd')
        rw [hbay]
        exact Interval.single_holds _
    refine hgoes.reports hq fun hcov h => ?_
    obtain ⟨c, hc, -, hheld⟩ := hcov.held ht
    exact Yard.narrows_single h hk hc (hbay ▸ hheld.laden (.inr (.inl hst)) d hd) fun j => hset _ j
  · rename_i hd
    rw [hd] at hq
    obtain ⟨hstate, hcur, hstage⟩ := clearStage_crane (e := e) (y := y'.setClaim k (some (.single o.arg))) hk
    obtain ⟨hb, hcur', -⟩ := CraneRecord.job_eq ((hy 3 24).job_eq k)
    have hgoes : Yard.GoesOn e k i t t y (clearStage e (y'.setClaim k (some (.single o.arg))) k) := by
      refine ⟨((hy k i).trans (.setClaim _ _)).trans (spares_clearStage _),
        ⟨hat, hserved, fun hs => (hs.of_current hk ht).2.1⟩, ⟨hat'.trans hat, hserved, rfl⟩, id, fun h => ?_,
        hcur.trans hcur', fun hs hcov _ => ⟨_, Yard.claim_setClaim_same _ _ _ hk, fun o' ho' => ?_, fun h => ?_, fun h => ?_,
          fun _ d hd' => ?_⟩⟩
      · rw [hstate]
        exact hb.2 h
      · rw [hstage] at ho'
        cases ho'
      · rw [hst] at h
        cases h
      · rw [hst] at h
        cases h
      · rw [hd] at hd'
        cases hd'
    refine hgoes.reports hq fun hcov h => ?_
    obtain ⟨c, hc, htravel, -⟩ := hcov.held ht
    exact Yard.narrows_single h hk hc (htravel o ho hkind) fun j => hset _ j

/-- R159: a fitting ARRIVED. -/
theorem reports_arrivedEffect {o : StageOrder} (ht : currentTicket y k = some (i, t)) (ho : (y.crane k).stage = some o)
    (hfits : arrivedFits y k o t = true) : Yard.Reports e y (arrivedEffect e y k i o.arg t) := by
  obtain ⟨hkind, hst⟩ := arrivedFits_iff hfits
  have hq := (follows_arrivedEffect e y k i o.arg t (currentTicket_active ht (arrivedFits_active hfits))).queue
  have hy : ∀ n m, Yard.Spares e n m y (y.updCrane k (fun c => { c with lastBay := o.arg })) := spares_lastBay y k o.arg
  unfold arrivedEffect at hq ⊢
  dsimp only at hq ⊢
  split
  · rename_i hl
    rw [if_pos hl] at hq
    exact reports_arriveLaden ht ho hkind hl hy rfl hq
  · rename_i hl
    rw [if_neg hl] at hq
    split
    · rename_i hbound
      rw [if_pos hbound] at hq
      exact reports_arriveBound ht ho hkind hy rfl hq
    · rename_i hbound
      rw [if_neg hbound] at hq
      exact reports_arriveSource ht (hst.resolve_right hl) hbound hy rfl hq

end

end Sys2Proof.Machine
end

