-- ==== Sys2Proof/Proofs/LiftReports.lean ====
section
/-! PROOF. LIFTED, LOWERED, STOPPED and HOMED: what each effect keeps (R129 to R131, R151 to R153, R161, R167, R184). -/

namespace Sys2Proof.Machine

section
variable {e : Site} {k i : Nat} {t : Ticket} {y y' : Yard}

/-! ## What the redirect searches leave (R111) -/

/-- The redirect searches leave each ticket's state and crane. -/
theorem redirectOne_ticketAt (n : Nat) (ht : y.ticketAt i = some t) :
    ∃ u, (redirectOne e y n).ticketAt i = some u ∧ u.state = t.state ∧ u.crane = t.crane := by
  have hgive : ∀ d, ∃ u, (giveDest y n d).ticketAt i = some u ∧ u.state = t.state ∧ u.crane = t.crane := fun d => by
    have hat : (giveDest y n d).ticketAt i = (y.updTicket n (fun u =>
        { u with dest := some d, redirected := true, waits := { u.waits with redirect := false } })).ticketAt i := by
      unfold giveDest claimDest
      split <;> rfl
    rw [hat, ticketAt_updTicket, ht]
    split <;> exact ⟨_, rfl, rfl, rfl⟩
  have hsame : ∃ u, y.ticketAt i = some u ∧ u.state = t.state ∧ u.crane = t.crane := ⟨t, ht, rfl, rfl⟩
  unfold redirectOne
  split
  · split
    · split
      · split
        · split
          · exact hgive _
          · exact hsame
        · exact hsame
      · split
        · split
          · exact hgive _
          · exact hsame
        · exact hsame
    · exact hsame
  · exact hsame

theorem redirectEach_ticketAt (slots : List Nat) (ht : y.ticketAt i = some t) :
    ∃ u, (forEach slots (redirectOne e) y).ticketAt i = some u ∧ u.state = t.state ∧ u.crane = t.crane := by
  induction slots generalizing y t with
  | nil => exact ⟨t, ht, rfl, rfl⟩
  | cons n slots ih =>
    obtain ⟨u, hu, hst, hc⟩ := redirectOne_ticketAt (e := e) n ht
    obtain ⟨v, hv, hst', hc'⟩ := ih hu
    exact ⟨v, hv, hst'.trans hst, hc'.trans hc⟩

/-- Each claim contains the one that it follows. -/
def Yard.widens (y y' : Yard) : Prop :=
  ∀ j c, y.claim j = some c → ∃ c', y'.claim j = some c' ∧ c'.lo ≤ c.lo ∧ c.hi ≤ c'.hi

theorem Yard.widens_of_eq (h : ∀ j, y'.claim j = y.claim j) : y.widens y' := fun j c hc =>
  ⟨c, (h j).trans hc, Nat.le_refl _, Nat.le_refl _⟩

theorem Yard.widens.holds {c : Interval} {b : Nat} (h : y.widens y') (hc : y.claim k = some c) (hb : c.holds b = true) :
    ∃ c', y'.claim k = some c' ∧ c'.holds b = true := by
  obtain ⟨c', hc', hlo, hhi⟩ := h k c hc
  obtain ⟨hbl, hbh⟩ := Interval.holds_iff.1 hb
  exact ⟨c', hc', Interval.holds_iff.2 ⟨hlo.trans hbl, hbh.trans hhi⟩⟩

theorem widens_giveLaden (n s : Nat) : y.widens (giveLaden e y n k s) := by
  intro j c hc
  have hclaim : (giveLaden e y n k s).claim j = ((giveDest y n (.stack s)).setClaim k
    (((giveDest y n (.stack s)).claim k).map (fun a => a.join (y.stack s).bay))).claim j := rfl
  by_cases hk : k < 3
  · rw [hclaim, Yard.claim_setClaim _ _ _ hk, claim_giveDest, claim_giveDest]
    split
    · rename_i hkj
      subst hkj
      rw [hc]
      exact ⟨_, rfl, Nat.min_le_left _ _, Nat.le_max_left _ _⟩
    · exact ⟨c, hc, Nat.le_refl _, Nat.le_refl _⟩
  · have hne : k ≠ j := fun h => by
      rw [← h, Yard.claim_ge y (Nat.not_lt.mp hk)] at hc
      cases hc
    rw [hclaim, Yard.claim_setClaim_ne _ _ _ _ hne, claim_giveDest]
    exact ⟨c, hc, Nat.le_refl _, Nat.le_refl _⟩

theorem widens_redirectOne (n : Nat) : y.widens (redirectOne e y n) := by
  have hsame : y.widens y := Yard.widens_of_eq fun _ => rfl
  unfold redirectOne
  split
  · split
    · split
      · split
        · split
          · exact widens_giveLaden _ _
          · exact hsame
        · exact hsame
      · split
        · split
          · exact Yard.widens_of_eq (claim_giveDest _ _)
          · exact hsame
        · exact hsame
    · exact hsame
  · exact hsame

theorem widens_redirectEach (slots : List Nat) (y : Yard) : y.widens (forEach slots (redirectOne e) y) := by
  induction slots generalizing y with
  | nil => exact Yard.widens_of_eq fun _ => rfl
  | cons n slots ih =>
    intro j c hc
    obtain ⟨c1, hc1, hlo1, hhi1⟩ := widens_redirectOne (e := e) n j c hc
    obtain ⟨c2, hc2, hlo2, hhi2⟩ := ih (redirectOne e y n) j c1 hc1
    exact ⟨c2, hc2, hlo2.trans hlo1, hhi1.trans hhi2⟩

/-! ## LIFTED (R129, R130, R153, R184) -/

theorem liftedFits_iff {o : StageOrder} (h : liftedFits y k o t = true) :
    o.kind = .lift ∧ t.state = .lifting ∧ t.weightFailed = false := by
  unfold liftedFits at h
  simp only [Bool.and_eq_true, decide_eq_true_eq, Bool.not_eq_true'] at h
  exact ⟨h.1.1.1, h.1.1.2, h.1.2⟩

/-- R130, R151: a lift with the weight check failed. -/
theorem reports_liftFailed {p : Handle} {src : Location} (ht : currentTicket y k = some (i, t)) (hst : t.state = .lifting)
    (hsrc : t.source = some src) : Yard.Reports e y (liftFailed e y k i p src) := by
  have hk := currentTicket_lt ht
  have hgoes : Yard.GoesOn e k i t { t with weightFailed := true } y
      (y.nextStage e k i (fun u => { u with weightFailed := true }) (some (.single (sourceBay e y src))) .lower 0) := by
    refine goesOn_nextStage (f := fun u => { u with weightFailed := true }) (fun n m => .refl e n m y) rfl ht
      (by rw [hst]; rfl) (fun _ => rfl) (by dsimp only; rw [hst]; rfl) rfl id OrderKind.noConfusion
      fun hs hcov => ⟨_, rfl, fun h => ?_, fun _ src' hsrc' => ?_, fun h => ?_⟩
    · rw [hst] at h
      cases h
    · obtain rfl := Option.some.inj (hsrc.symm.trans hsrc')
      exact Interval.single_holds _
    · rcases h with ⟨-, h, -⟩ | h | h
      · cases h
      all_goals
        rw [hst] at h
        cases h
  have hcensus : (y.nextStage e k i (fun u => { u with weightFailed := true }) (some (.single (sourceBay e y src))) .lower
      0).census = y.census := by
    unfold Yard.nextStage
    rw [census_sendStage, census_setClaim]
    exact census_updTicket _ _ _ fun _ _ => rfl
  have hrep := hgoes.reports (Yard.Follows.of_census hcensus).queue fun hcov h => by
    obtain ⟨c, hc, -, hheld⟩ := hcov.held ht
    exact Yard.narrows_single h hk hc (hheld.lifting hst src hsrc) (nextStage_claim (y := y))
  exact hrep.keeps (keeps_addHold e _ p (fun s => s.weight) (fun s => { s with weight := true }))

/-- R129: the yard after the piece has left its holder for the hook. -/
def Yard.hooked (e : Site) (y : Yard) (k i : Nat) (p : Handle) (src : Location) : Yard :=
  giveUp e (takeOnHook y k i p) (y.ticketHandle i) src

section
variable {p : Handle} {src : Location}

theorem spares_hooked : Yard.Spares e k i y (y.hooked e k i p src) := by
  have hhook : Yard.Spares e k i y (takeOnHook y k i p) := by
    unfold takeOnHook
    refine Yard.Spares.trans ?_ (.updCrane _ k _ (fun _ _ h => h) id (fun _ => rfl) (.inl rfl))
    refine Yard.Spares.trans ?_ (.updPiece _ _ _)
    exact .updTicket y i _ (fun _ _ h u hu => h.tickets i u hu) (.inl rfl)
  refine hhook.trans ?_
  cases src with
  | stack s tier => exact (spares_popStack _ s).trans (spares_completeClaim _ s _)
  | lane l => exact spares_setLanePieces e _ l _
  | truck n tier => exact spares_popTruck _ n
  | bed b n => exact .refl _ _ _ _
  | hook n => exact .refl _ _ _ _

theorem hooked_rest (j : Nat) : (y.hooked e k i p src).claim j = y.claim j
    ∧ (y.hooked e k i p src).ticketAt j = (y.updTicket i (fun u => { u with state := .lifted })).ticketAt j
    ∧ (y.hooked e k i p src).crane j = (y.updCrane k (fun c => { c with hook := some p })).crane j := by
  cases src <;> exact ⟨rfl, rfl, rfl⟩

theorem hooked_ticket (ht : y.ticketAt i = some t) :
    (y.hooked e k i p src).ticketAt i = some { t with state := .lifted } := by
  rw [(hooked_rest i).2.1, Yard.ticketAt_updTicket_same _ _ _ (Yard.ticketAt_lt _ _ _ ht), ht]
  rfl

theorem hooked_crane (hk : k < 3) : (y.hooked e k i p src).crane k = { y.crane k with hook := some p } := by
  rw [(hooked_rest k).2.2, Yard.crane_updCrane_same _ _ _ hk]

theorem hooked_sourceBay : sourceBay e (y.hooked e k i p src) src = sourceBay e y src := by
  have hsp : Yard.Spares e k i y (y.hooked e k i p src) := spares_hooked
  cases src with
  | hook n => exact proj_getOr_upd CraneRecord.lastBay y.cranes k (fun c => { c with hook := some p }) _ rfl n
  | bed b n => rfl
  | lane l => exact hsp.laneBays l
  | stack s n => exact hsp.stackBays s
  | truck n m => exact hsp.truckBays n

/-- A ticket LIFTED keeps its shape. -/
theorem Ticket.shaped.lifted {d : Option Dest} {w : Waits} (h : t.shaped) (hst : t.state = .lifting) :
    Ticket.shaped { t with state := .lifted, dest := d, waits := w } := by
  obtain ⟨hbay, hrest, -⟩ := h
  refine ⟨fun hk => ?_, hrest, fun h => (by rcases h with h | h <;> cases h)⟩
  obtain ⟨-, -, -, hl, -⟩ := hbay hk
  exact absurd hst hl

/-- R129: a good lift to the destination, or to wait for one. -/
theorem reports_sendDest (ht : currentTicket y k = some (i, t)) (hst : t.state = .lifting) (hw : t.weightFailed = false)
    (hh : t.holdPending = false) (hq : y.queueOk → (sendLaden e (y.hooked e k i p src) k i t src).queueOk) :
    Yard.Reports e y (sendLaden e (y.hooked e k i p src) k i t src) := by
  have hk := currentTicket_lt ht
  have hat := currentTicket_at ht
  have hcrane := hooked_crane (e := e) (y := y) (i := i) (p := p) (src := src) hk
  have hsp : Yard.Spares e k i y (y.hooked e k i p src) := spares_hooked
  have hold : y.ticketAt i = some t ∧ t.state.served = true ∧ (y.serves → t.crane = some k) :=
    ⟨hat, by rw [hst]; rfl, fun hs => (hs.of_current hk ht).2.1⟩
  have hkept : ∀ z : Yard, (∀ j, z.claim j = (y.hooked e k i p src).claim j) → y.covered e →
      y.claimsApart ∨ y.claimsOrdered → y.narrows z := fun z hz _ h =>
    Yard.narrows_of_kept h fun j => .inl ((hz j).trans (hooked_rest j).1)
  unfold sendLaden at hq ⊢
  rw [hh] at hq ⊢
  rw [if_neg Bool.false_ne_true] at hq ⊢
  split
  · rename_i d hd
    rw [hd] at hq
    obtain ⟨hstate, hcur, hstage⟩ := sendStage_job (e := e) (y := y.hooked e k i p src) .travel
      (destBay (y.hooked e k i p src) d) hk
    rw [hcrane] at hstate hcur
    have hall : Yard.Spares e k i y (sendStage e (y.hooked e k i p src) k .travel (destBay (y.hooked e k i p src) d)) :=
      hsp.trans (spares_sendStage _ _ _)
    have hgoes : Yard.GoesOn e k i t { t with state := .lifted } y
        (sendStage e (y.hooked e k i p src) k .travel (destBay (y.hooked e k i p src) d)) := by
      refine ⟨hall, hold, ⟨hooked_ticket hat, rfl, rfl⟩, fun h => h.lifted hst, fun h => (by rwa [hstate]), hcur,
        fun _ hcov _ => ?_⟩
      obtain ⟨c, hc, -, hheld⟩ := hcov.held ht
      have hbay : c.holds (destBay y d) = true := hheld.laden (.inl ⟨hst, hw, hh⟩) d hd
      refine ⟨c, (hooked_rest k).1.trans hc, fun o ho _ => ?_, fun h => (by cases h), fun h => (by cases h), fun _ d' hd' => ?_⟩
      · rw [hstage] at ho
        obtain rfl := Option.some.inj ho
        dsimp only
        rwa [hsp.destBay]
      · obtain rfl := Option.some.inj (hd.symm.trans hd')
        rwa [hall.destBay]
    exact hgoes.reports hq (hkept _ fun _ => rfl)
  · rename_i hd
    rw [hd] at hq
    obtain ⟨hstate, hcur, hstage⟩ := clearStage_crane (e := e) (y := y.hooked e k i p src) hk
    rw [hcrane] at hstate hcur
    have hgoes : Yard.GoesOn e k i t { t with state := .lifted } y (clearStage e (y.hooked e k i p src) k) := by
      refine ⟨hsp.trans (spares_clearStage _), hold, ⟨hooked_ticket hat, rfl, rfl⟩, fun h => h.lifted hst,
        fun h => (by rwa [hstate]), hcur, fun _ hcov _ => ?_⟩
      obtain ⟨c, hc, -, -⟩ := hcov.held ht
      refine ⟨c, (hooked_rest k).1.trans hc, fun o ho => ?_, fun h => (by cases h), fun h => (by cases h), fun _ d' hd' => ?_⟩
      · rw [hstage] at ho
        cases ho
      · rw [hd] at hd'
        cases hd'
    exact hgoes.reports hq (hkept _ fun _ => rfl)

end

end

end Sys2Proof.Machine
end

