-- ==== Sys2Proof/Proofs/LowerReports.lean ====
section
/-! PROOF. A lift with the hold-pending mark, LOWERED, STOPPED and HOMED (R129 to R131, R151 to R153, R161, R167, R184). -/

namespace Sys2Proof.Machine

section
variable {e : Site} {k i : Nat} {t : Ticket} {y y' : Yard} {p : Handle} {src : Location}

/-! ## A lift with the hold-pending mark (R184, R185) -/

/-- R184: the piece is on the hook and its ticket has lost its destination. -/
def Yard.unaimed (e : Site) (y : Yard) (k i : Nat) (p : Handle) (src : Location) : Yard := loseDest (y.hooked e k i p src) i

theorem unaimed_claim (j : Nat) : (y.unaimed e k i p src).claim j = y.claim j := (hooked_rest j).1

/-- R184: the ticket as it waits for the laden search. -/
def Ticket.unaimed (t : Ticket) : Ticket :=
  { t with state := .lifted, dest := none, waits := { t.waits with redirect := true } }

theorem unaimed_ticket (ht : y.ticketAt i = some t) : (y.unaimed e k i p src).ticketAt i = some t.unaimed :=
  ticketAt_loseDest (hooked_ticket ht)

theorem goesOn_unaimed {o : StageOrder} (ht : currentTicket y k = some (i, t)) (hst : t.state = .lifting)
    (ho : (y.crane k).stage = some o) (hkind : o.kind = .lift) :
    Yard.GoesOn e k i t t.unaimed y (y.unaimed e k i p src) := by
  have hk := currentTicket_lt ht
  have hat := currentTicket_at ht
  have hcrane : (y.unaimed e k i p src).crane k = { y.crane k with hook := some p } := hooked_crane hk
  have hlose : Yard.Spares e k i (y.hooked e k i p src) (y.unaimed e k i p src) :=
    .updTicket _ i _ (fun _ _ h u hu => h.tickets i u hu) (.inl rfl)
  refine ⟨spares_hooked.trans hlose, ⟨hat, by rw [hst]; rfl, fun hs => (hs.of_current hk ht).2.1⟩,
    ⟨unaimed_ticket hat, rfl, rfl⟩, fun h => h.lifted hst, fun h => (by rwa [hcrane]), by rw [hcrane], fun _ hcov _ => ?_⟩
  obtain ⟨c, hc, -, -⟩ := hcov.held ht
  refine ⟨c, (unaimed_claim k).trans hc, fun o' ho' htravel => ?_, fun h => (by cases h), fun h => (by cases h),
    fun _ d hd => (by cases hd)⟩
  rw [hcrane] at ho'
  obtain rfl := Option.some.inj (ho.symm.trans ho')
  rw [hkind] at htravel
  cases htravel

/-- A laden crane that waits for a destination, its claim shrunk to a bay. -/
theorem goesOn_waits {u : Ticket} (b : Nat) (hk : k < 3) (hu : y.ticketAt i = some u) (hst : u.state = .lifted)
    (hd : u.dest = none) (hc : y.serves → u.crane = some k) :
    Yard.GoesOn e k i u u y (clearStage e (y.setClaim k (some (.single b))) k) := by
  obtain ⟨hstate, hcur, hstage⟩ := clearStage_crane (e := e) (y := y.setClaim k (some (.single b))) hk
  refine ⟨Yard.Spares.trans (.setClaim _ _) (spares_clearStage _), ⟨hu, by rw [hst]; rfl, hc⟩,
    ⟨hu, by rw [hst]; rfl, rfl⟩, id, fun h => (by rw [hstate]; exact h), hcur, fun _ _ _ =>
      ⟨_, Yard.claim_setClaim_same _ _ _ hk, fun o ho => ?_, fun h => ?_, fun h => ?_, fun _ d hd' => ?_⟩⟩
  · rw [hstage] at ho
    cases ho
  · rw [hst] at h
    cases h
  · rw [hst] at h
    cases h
  · rw [hd] at hd'
    cases hd'

/-- R184: a good lift of a PICK whose entry has left its list. -/
theorem reports_sendHeld {o : StageOrder} (ht : currentTicket y k = some (i, t)) (hst : t.state = .lifting)
    (hsrc : t.source = some src) (ho : (y.crane k).stage = some o) (hkind : o.kind = .lift) (hh : t.holdPending = true)
    (hq : y.queueOk → (sendLaden e (y.hooked e k i p src) k i t src).queueOk) :
    Yard.Reports e y (sendLaden e (y.hooked e k i p src) k i t src) := by
  have hk := currentTicket_lt ht
  have hat := currentTicket_at ht
  have hgoes : Yard.GoesOn e k i t t.unaimed y (y.unaimed e k i p src) := goesOn_unaimed ht hst ho hkind
  have hsame : ∀ j, (y.unaimed e k i p src).claim j = y.claim j := unaimed_claim
  have hqueue : y.queueOk → (y.unaimed e k i p src).queueOk := by
    refine (Yard.Follows.of_census ?_).queue
    have hact : y.activeAt i = true := currentTicket_active ht (by rw [hst]; rfl)
    unfold Yard.unaimed Yard.hooked
    rw [census_loseDest, census_giveUp, census_takeOnHook _ _ _ _ hact]
  have hfirst : Yard.Keeps e y (y.unaimed e k i p src) :=
    ⟨hgoes.toSound, fun ha => ha.of_eq hsame, fun ho => ho.of_eq hsame, hqueue, fun _ => hgoes.serves, fun _ => hgoes.covered⟩
  have hsearch : Yard.Keeps e y (redirectAll e (y.unaimed e k i p src)) := hfirst.trans (keeps_redirectAll e _)
  obtain ⟨u, hu, hustate, hucrane⟩ := redirectEach_ticketAt (e := e) (y.unaimed e k i p src).moveQueue
    (unaimed_ticket (e := e) (k := k) (p := p) (src := src) hat)
  have hwidens : (y.unaimed e k i p src).widens (redirectAll e (y.unaimed e k i p src)) := widens_redirectEach _ _
  have hu' : (redirectAll e (y.unaimed e k i p src)).ticketAt i = some u := hu
  unfold sendLaden at hq ⊢
  rw [if_pos hh] at hq ⊢
  rw [show redirectAll e (loseDest (y.hooked e k i p src) i) = redirectAll e (y.unaimed e k i p src) from rfl] at hq ⊢
  dsimp only at hq ⊢
  generalize redirectAll e (y.unaimed e k i p src) = z at *
  rw [hu'] at hq ⊢
  split
  · exact hsearch.reports
  · rename_i hd
    have hdest : u.dest = none := hd
    rw [show (some u).bind (fun u => u.dest) = none from hd] at hq
    have hbay : sourceBay e (y.hooked e k i p src) src = sourceBay e y src := hooked_sourceBay
    rw [hbay] at hq ⊢
    have hwaits : y.serves →
        Yard.GoesOn e k i u u z (clearStage e (z.setClaim k (some (.single (sourceBay e y src)))) k) := fun hs =>
      goesOn_waits _ hk hu' hustate hdest fun _ => hucrane.trans (hs.of_current hk ht).2.1
    have hsound : Yard.Spares e k i z (clearStage e (z.setClaim k (some (.single (sourceBay e y src)))) k) :=
      Yard.Spares.trans (.setClaim _ _) (spares_clearStage _)
    have hnarrows : y.covered e → z.claimsApart ∨ z.claimsOrdered →
        z.narrows (clearStage e (z.setClaim k (some (.single (sourceBay e y src)))) k) := fun hcov h => by
      obtain ⟨c, hc, -, hheld⟩ := hcov.held ht
      obtain ⟨c', hc', hholds⟩ := hwidens.holds ((hsame k).trans hc) (hheld.lifting hst src hsrc)
      exact Yard.narrows_single h hk hc' hholds fun _ => rfl
    exact ⟨hsearch.toSound.trans hsound.toSound, fun hcov ha => (hnarrows hcov (.inl (hsearch.apart ha))).apart (hsearch.apart ha),
      fun hcov _ ho => (hnarrows hcov (.inr (hsearch.ordered ho))).ordered (hsearch.ordered ho), hq,
      fun hq hs => (hwaits hs).serves (hsearch.serves hq hs),
      fun hq hs hcov => (hwaits hs).covered (hsearch.serves hq hs) (hsearch.covered hq hs hcov)⟩

/-- R129: a good lift. -/
theorem reports_liftPassed {o : StageOrder} (ht : currentTicket y k = some (i, t)) (ho : (y.crane k).stage = some o)
    (hfits : liftedFits y k o t = true) (hsrc : t.source = some src) :
    Yard.Reports e y (liftPassed e y k i t p src) := by
  obtain ⟨hkind, hst, hw⟩ := liftedFits_iff hfits
  have hact : y.activeAt i = true := currentTicket_active ht (liftedFits_active hfits)
  have hq : y.queueOk → (liftPassed e y k i t p src).queueOk :=
    (Yard.Follows.of_census (census_liftPassed e y k i t p src hact)).queue
  cases hh : t.holdPending with
  | false => exact reports_sendDest ht hst hw hh hq
  | true => exact reports_sendHeld ht hst hsrc ho hkind hh hq

/-! ## LOWERED (R130, R131) -/

theorem spares_setDown (h p : Handle) (t : Ticket) (d : Dest) (n m : Nat) : Yard.Spares e n m y (setDown e y h p t d) := by
  cases d with
  | stack s => exact ((spares_pushStack y s p).trans (spares_completeClaim _ s _)).trans (.updPiece _ _ _)
  | lane l => exact ((spares_setLanePieces e y l _).trans (spares_unreserve _ l)).trans (.updPiece _ _ _)
  | bay b => exact .refl e n m y
  | truck s =>
    unfold setDown
    dsimp only
    have hput : ∀ f : Piece → Piece,
        Yard.Spares e n m y ((y.updTruck s (fun r => { r with pieces := r.pieces ++ [p] })).updPiece p.slot f) := fun f =>
      Yard.Spares.trans (.updTruck y s (fun r => { r with pieces := r.pieces ++ [p] }) (fun _ h => h) fun _ => rfl)
        (.updPiece _ _ f)
    split
    · refine Yard.Spares.trans ?_ (spares_completionTest _ s)
      exact (hput _).trans (.updTruck _ s _ (fun _ h => h) fun _ => rfl)
    · exact hput _

theorem setDown_ticketAt (h p : Handle) (t : Ticket) (d : Dest) (j : Nat) :
    (setDown e y h p t d).ticketAt j = y.ticketAt j := by
  cases d with
  | truck s =>
    unfold setDown
    dsimp only
    split <;> rfl
  | _ => rfl

theorem loweredFits_iff {o : StageOrder} (h : loweredFits y k o t = true) :
    t.state = .setting ∨ t.state = .lifting ∧ t.weightFailed = true := by
  unfold loweredFits at h
  simp only [Bool.and_eq_true, Bool.or_eq_true, decide_eq_true_eq] at h
  exact h.1.2

/-- R131, R152: a set-down. -/
theorem reports_lowerPiece {d : Dest} (ht : currentTicket y k = some (i, t)) (hst : t.state = .setting)
    (hd : t.dest = some d) (hq : y.queueOk → (lowerPiece e y k i t p d).queueOk) :
    Yard.Reports e y (lowerPiece e y k i t p d) := by
  have hk := currentTicket_lt ht
  have hat := currentTicket_at ht
  unfold lowerPiece at hq ⊢
  dsimp only at hq ⊢
  have hdown : ∀ n m, Yard.Spares e n m y (setDown e y (y.ticketHandle i) p t d) := spares_setDown _ p t d
  have hdownAt : (setDown e y (y.ticketHandle i) p t d).ticketAt i = y.ticketAt i := setDown_ticketAt _ p t d i
  generalize setDown e y (y.ticketHandle i) p t d = z at *
  have hunhook : ∀ n m, Yard.Spares e n m z (z.updCrane k (fun c => { c with hook := none })) := fun n m =>
    .updCrane z k _ (fun _ _ h => h) id (fun _ => rfl) (.inr rfl)
  generalize hz2 : (z.updCrane k (fun c => { c with hook := none })).setClaim k (some (.single (destBay y d))) = z2 at *
  have hfinish : ∀ n, Yard.Spares e n i z2 (finishTicket e z2 i .done .done) := fun n => spares_finishTicket _ _ _
  have hclaim : ∀ j, (finishTicket e z2 i .done .done).claim j = (y.setClaim k (some (.single (destBay y d)))).claim j :=
    fun j => by
      rw [(hfinish 3).claim_eq, ← hz2, Yard.claim_setClaim _ _ _ hk, Yard.claim_setClaim _ _ _ hk, (hunhook 3 24).claim_eq,
        (hdown 3 24).claim_eq]
  have hidle : Yard.Idles e k i y (freeCrane e (finishTicket e z2 i .done .done) k) := by
    refine idles_freeCrane ht ?_ ?_ (fun hshape => finishTicket_idle (t := t) ?_ (.inl rfl) hshape) fun _ => ?_
    · refine Yard.Spares.trans ?_ (hfinish k)
      rw [← hz2]
      exact ((hdown k i).trans (hunhook k i)).trans (.setClaim _ _)
    · obtain ⟨-, h1, -⟩ := CraneRecord.job_eq ((hdown 3 24).job_eq k)
      obtain ⟨-, h2, -⟩ := CraneRecord.job_eq ((hunhook 3 24).job_eq k)
      obtain ⟨-, h3, -⟩ := CraneRecord.job_eq ((hfinish 3).job_eq k)
      rw [h3, ← hz2]
      exact h2.trans h1
    · rw [← hz2]
      exact hdownAt.trans hat
    · rw [hclaim, Yard.claim_setClaim_same _ _ _ hk]
      exact Option.some_ne_none _
  refine hidle.reports hq fun hcov h => ?_
  obtain ⟨c, hc, -, hheld⟩ := hcov.held ht
  exact Yard.narrows_single h hk hc (hheld.laden (.inr (.inr hst)) d hd) hclaim

/-- R159: a fitting LOWERED. -/
theorem reports_loweredEffect {o : StageOrder} (ht : currentTicket y k = some (i, t)) (hfits : loweredFits y k o t = true) :
    Yard.Reports e y (loweredEffect e y k i t) := by
  have hk := currentTicket_lt ht
  have hat := currentTicket_at ht
  have hq := (follows_loweredEffect e y k i t (currentTicket_active ht (loweredFits_active hfits))).queue
  unfold loweredEffect at hq ⊢
  split
  · rename_i hst
    rw [if_pos hst] at hq
    split
    · rename_i p d hp hd
      rw [hp, hd] at hq
      exact reports_lowerPiece ht hst hd hq
    · exact .refl e y
  · rename_i hst
    rw [if_neg hst] at hq
    have hfinish : ∀ n, Yard.Spares e n i y (finishTicket e y i .failed .weight) := fun n => spares_finishTicket _ _ _
    have hidle : Yard.Idles e k i y (freeCrane e (finishTicket e y i .failed .weight) k) := by
      refine idles_freeCrane ht (hfinish k) ?_ (fun hshape => finishTicket_idle hat (.inr (.inl rfl)) hshape) fun hcov => ?_
      · exact (CraneRecord.job_eq ((hfinish 3).job_eq k)).2.1
      · obtain ⟨c, hc, -⟩ := hcov.held ht
        rw [(hfinish 3).claim_eq, hc]
        exact Option.some_ne_none _
    exact (hidle.keeps hq fun j => .inl ((hfinish 3).claim_eq j)).reports

/-! ## STOPPED (R161, R169, R170) -/

/-- R161, R169: a crane without a ticket whose claim shrinks to the bay where it stopped. -/
theorem reports_halted {f : CraneRecord → CraneRecord} {bay : Nat} (hk : k < 3)
    (hb : (y.crane k).state = .busy ∨ (y.crane k).state = .stopped) (hcur : (y.crane k).current = none)
    (hfit : stoppedFits y k bay = true)
    (hf : ∀ c, ((f c).current, (f c).homeBay, (f c).nextSeq) = (c.current, c.homeBay, c.nextSeq))
    (htimer : (f (y.crane k)).timer = none) (hl : (y.crane k).lawful → (f (y.crane k)).lawful)
    (hy' : y' = (y.updCrane k f).setClaim k (some (.single bay))) : Yard.Reports e y y' := by
  simp only [Prod.mk.injEq] at hf
  have hsp : Yard.Spares e k 24 y y' := by
    rw [hy']
    refine Yard.Spares.trans (.updCrane y k f (fun _ q h => ?_) hl (fun c => (hf c).2.1) (.inl rfl)) (.setClaim _ _)
    exact CraneRecord.inRange_stopped h (hf _).2.2 htimer
  have hclaim : y'.claim k = some (.single bay) := by
    rw [hy']
    exact Yard.claim_setClaim_same _ _ _ hk
  have hidle : Yard.Idles e k 24 y y' := by
    refine ⟨hsp, fun hs => hs.but_idle hcur, fun _ => ?_, fun _ => y'.no_slot, fun _ _ _ _ => ?_⟩
    · rw [hy']
      refine (congrArg CraneRecord.current (Yard.crane_updCrane_same y k f hk)).trans ?_
      rw [(hf _).1, hcur]
    · rw [hclaim]
      exact Option.some_ne_none _
  refine hidle.reports (fun hq => ?_) fun hcov h => ?_
  · rw [hy']
    exact (Yard.Follows.of_census rfl).queue hq
  · obtain ⟨c, hc⟩ := Option.ne_none_iff_exists'.1 (hcov.claim hk hb)
    refine Yard.narrows_single h hk hc ?_ fun j => by rw [hy']; rfl
    unfold stoppedFits at hfit
    rwa [hc] at hfit

theorem upd_upd {α : Type} {n : Nat} (v : Vector α n) (j : Nat) (f g : α → α) :
    upd (upd v j f) j g = upd v j (fun a => g (f a)) := by
  unfold upd
  split
  · simp
  · rfl

theorem updCrane_updCrane (f g : CraneRecord → CraneRecord) :
    (y.updCrane k f).updCrane k g = y.updCrane k (fun c => g (f c)) := by
  unfold Yard.updCrane
  rw [upd_upd]

/-- R161: the crane record at a STOPPED report. -/
def CraneRecord.reported (bay : Nat) (c : CraneRecord) : CraneRecord :=
  { c with lastBay := bay, stopOrder := none, timer := none }

theorem spares_reported (y : Yard) (k bay n m : Nat) :
    Yard.Spares e n m y (y.updCrane k (CraneRecord.reported bay)) :=
  .updCrane y k _ (fun _ _ h => CraneRecord.inRange_stopped h rfl rfl) id (fun _ => rfl) (.inr rfl)

/-- A BUSY crane has no halt and no fault code (R155). -/
theorem CraneRecord.lawful.busy {c : CraneRecord} (h : c.lawful) (hb : c.state = .busy) :
    c.halted = false ∧ c.faultCode = .none := by
  obtain ⟨-, hhalt, hfault⟩ := h
  refine ⟨Bool.eq_false_iff.2 fun hh => ?_, ?_⟩
  · have hs := hhalt hh
    rw [hb] at hs
    cases hs
  · by_contra hf
    have hs := hfault hf
    rw [hb] at hs
    cases hs

/-- A STOPPED crane has no fault code (R155). -/
theorem CraneRecord.lawful.stopped {c : CraneRecord} (h : c.lawful) (hb : c.state = .stopped) : c.faultCode = .none := by
  obtain ⟨-, -, hfault⟩ := h
  by_contra hf
  have hs := hfault hf
  rw [hb] at hs
  cases hs

/-- R159: a fitting STOPPED. -/
theorem reports_stoppedEffect (e : Site) {bay : Nat} (hk : k < 3) (hfit : stoppedFits y k bay = true) :
    Yard.Reports e y (stoppedEffect e y k bay) := by
  have hnone : (y.crane k).current = none → (y.crane k).current.isSome = true → False := fun h => by
    rw [h]
    exact Bool.false_ne_true
  have hcrane : (y.updCrane k (CraneRecord.reported bay)).crane k = (y.crane k).reported bay :=
    Yard.crane_updCrane_same _ _ _ hk
  have hsame : ∀ f : CraneRecord → CraneRecord,
      Yard.Spares e 3 24 (y.updCrane k (CraneRecord.reported bay)) ((y.updCrane k (CraneRecord.reported bay)).updCrane k f) →
      Yard.Reports e y ((y.updCrane k (CraneRecord.reported bay)).updCrane k f) := fun f hf =>
    (Yard.Keeps.of_follows ((spares_reported y k bay 3 24).trans hf) (.of_census rfl)).reports
  unfold stoppedEffect
  dsimp only
  rw [show y.updCrane k (fun c => { c with lastBay := bay, stopOrder := none, timer := none })
    = y.updCrane k (CraneRecord.reported bay) from rfl]
  split
  · rename_i hst hcur
    refine reports_halted (f := fun c => { c.reported bay with state := .idle }) hk (.inl hst) hcur hfit (fun _ => rfl) rfl
      (fun h => ?_) (by rw [updCrane_updCrane])
    obtain ⟨hhalt, hfault⟩ := h.busy hst
    have hrun : (y.crane k).halted = true → False := by rw [hhalt]; exact Bool.false_ne_true
    exact ⟨fun h => (hnone hcur h).elim, fun h => (hrun h).elim, fun h => absurd hfault h⟩
  · refine hsame _ (.updCrane _ k _ (fun he q h => ?_) (fun h => ?_) (fun c => ?_) (.inr ?_))
    · split
      · exact CraneRecord.restart_inRange (Site.stageTimeout_range he) h
      · exact h
    · split
      · exact CraneRecord.restart_lawful _ h
      · exact h
    · split
      · exact CraneRecord.restart_homeBay _ _
      · rfl
    · split
      · exact CraneRecord.restart_job _ _
      · rfl
  · rename_i hst hcur
    refine reports_halted (f := fun c => if e.stop then { c.reported bay with halted := true }
      else { c.reported bay with state := .idle, halted := false }) hk (.inr hst) hcur hfit (fun c => ?_) ?_
      (fun h => ?_) (by rw [updCrane_updCrane])
    · split <;> rfl
    · split <;> rfl
    · have hfault := h.stopped hst
      split
      · exact ⟨fun _ => .inr hst, fun _ => hst, fun h => absurd hfault h⟩
      · exact ⟨fun h => (hnone hcur h).elim, fun h => (by cases h), fun h => absurd hfault h⟩
  · rename_i hst _
    have hst' : ((y.updCrane k (CraneRecord.reported bay)).crane k).state = .stopped := by
      rw [hcrane]
      exact hst
    refine hsame _ (.updCrane _ k _ (fun _ _ h => h) (fun h => ?_) (fun _ => rfl) (.inr rfl))
    exact ⟨fun _ => .inr hst', fun _ => hst', fun hf => absurd (h.stopped hst') hf⟩
  · exact (Yard.Keeps.of_follows (spares_reported y k bay 3 24) (.of_census rfl)).reports

/-! ## HOMED (R167) -/

/-- R159: a fitting HOMED. -/
theorem reports_homedEffect (e : Site) {bay : Nat} (hst : (y.crane k).state = .homing) :
    Yard.Reports e y (homedEffect y k bay) := by
  have hk : k < 3 := Yard.crane_lt (by rw [hst]; exact CraneState.noConfusion)
  have hb : ¬((y.crane k).state = .busy ∨ (y.crane k).state = .stopped) := by rw [hst]; decide
  have hy : Yard.Keeps e y (y.updCrane k (fun c => { c with lastBay := bay })) :=
    .of_follows (spares_lastBay y k bay 3 24) (.of_census rfl)
  unfold homedEffect
  dsimp only
  split
  · refine (hy.trans (keeps_homingFailure e _ hk ?_)).reports
    rw [Yard.crane_updCrane_same _ _ _ hk]
    exact hb
  · rename_i hok
    rw [not_or, Bool.not_eq_true, Bool.not_eq_false'] at hok
    obtain ⟨-, hreach⟩ := hok
    rw [updCrane_updCrane]
    generalize hy' : (y.updCrane k (fun c =>
        { { c with lastBay := bay } with state := .idle, stage := none, timer := none })).setClaim
      k (some (.single bay)) = y'
    have hsp : Yard.Spares e k 24 y y' := by
      rw [← hy']
      refine Yard.Spares.trans ?_ (.setClaim _ _)
      refine .updCrane y k _ (fun _ _ h => CraneRecord.inRange_stopped h rfl rfl) (fun h => ?_) (fun _ => rfl) (.inl rfl)
      refine CraneRecord.lawful_offDuty h hb rfl rfl fun hf => ?_
      obtain ⟨-, -, hfault⟩ := h
      have hs := hfault hf
      rw [hst] at hs
      cases hs
    have hcrane : y'.crane k = { y.crane k with lastBay := bay, state := .idle, stage := none, timer := none } := by
      rw [← hy']
      exact Yard.crane_updCrane_same _ _ _ hk
    have hidle : Yard.Idles e k 24 y y' := by
      refine ⟨hsp, fun hs => hs.but_idle (hs.current_none hb), fun hs => ?_, fun _ => y'.no_slot, fun _ _ _ h => ?_⟩
      · rw [hcrane]
        exact hs.current_none hb
      · rw [hcrane] at h
        rcases h with h | h <;> cases h
    have hapart : y.claimsApart → y'.claimsApart := fun ha =>
      (ha.setClaim hk (Nat.le_refl bay) hreach).of_eq fun j => by rw [← hy']; rfl
    refine ⟨hsp.toSound, fun _ => hapart, fun _ h1 ho => (hapart ho.apart).ordered ?_, fun hq => ?_, fun _ => hidle.serves,
      fun _ => hidle.covered⟩
    · have hclaim : y'.claim 1 = (y.setClaim k (some (.single bay))).claim 1 := by rw [← hy']; rfl
      rw [hclaim, Yard.claim_setClaim _ _ _ hk]
      split
      · exact Option.some_ne_none _
      · exact h1
    · rw [← hy']
      exact (Yard.Follows.of_census rfl).queue hq

end

end Sys2Proof.Machine
end

