-- ==== Sys2Proof/Proofs/Upholding.lean ====
section
/-! PROOF. What the invariants of the ranges and of the work under way read of the plant, and the changes of the plant that keep
them: those of the beds, the samples, the settings and the Command Port. -/

namespace Sys2Proof.Machine

/-! ## The ranges of the plant -/

/-- R26: the positions of a bed and its turnover level. -/
def BedRecord.inRange (r : BedRecord) : Prop := (1 ≤ r.positions ∧ r.positions ≤ 8) ∧ r.turnover < 4

/-- R67: the gap count of a bed; `quiet` says that no timer event is still to be taken. -/
def IntakeRecord.inRange (quiet : Bool) (r : IntakeRecord) : Prop :=
  (r.gapCount ≤ 90 ∧ (r.state ≠ .lost → r.gapCount < 90)) ∧ (quiet = true → r.due = false)

/-- The counters and levels of the plant are in their ranges; `quiet` says that no timer event is still to be taken. -/
structure Plant.ranged (quiet : Bool) (p : Plant) : Prop where
  settings : p.works.settings.ok = true
  clock    : p.works.clock ≤ maxU32
  beds     : ∀ b, (p.bed b).inRange
  lines    : ∀ b, (p.bedLine b).heatCount < 256
  intakes  : ∀ b, (p.intakeOf b).inRange quiet
  heats    : ∀ b, quiet = true → (p.heat b).due = false
  yard     : p.yard.ranged quiet

theorem Plant.ranged.site {q : Bool} {p : Plant} (h : p.ranged q) : p.site.inRange :=
  ⟨h.settings, fun b => (h.beds b).2⟩

theorem dueEvents_eq_nil (p : Plant) : dueEvents p = []
    ↔ (∀ b, (p.heat b).due = false) ∧ (∀ b, (p.intakeOf b).due = false) ∧ ∀ k, timerWaits p.yard k = false := by
  constructor
  · intro h
    have hnot : ∀ e, e ∉ dueEvents p := fun e he => by rw [h] at he; cases he
    refine ⟨fun b => ?_, fun b => ?_, fun k => ?_⟩
    · by_cases hb : b < 12
      · exact Bool.eq_false_iff.2 fun hd => hnot _ ((heat_mem_dueEvents p b).2 ⟨hb, hd⟩)
      · rw [show p.heat b = .reset from getOr_ge _ _ _ (Nat.not_lt.mp hb)]
        rfl
    · by_cases hb : b < 12
      · exact Bool.eq_false_iff.2 fun hd => hnot _ ((intake_mem_dueEvents p b).2 ⟨hb, hd⟩)
      · rw [show p.intakeOf b = .reset from getOr_ge _ _ _ (Nat.not_lt.mp hb)]
        rfl
    · by_cases hk : k < 3
      · exact Bool.eq_false_iff.2 fun hd => hnot _ ((crane_mem_dueEvents p k).2 ⟨hk, hd⟩)
      · unfold timerWaits
        rw [Yard.crane_ge _ (Nat.not_lt.mp hk)]
        rfl
  · intro ⟨hh, hi, hk⟩
    refine List.eq_nil_iff_forall_not_mem.2 fun e he => ?_
    cases e with
    | heat b => exact absurd ((heat_mem_dueEvents p b).1 he).2 (by simp [hh])
    | intake b => exact absurd ((intake_mem_dueEvents p b).1 he).2 (by simp [hi])
    | crane k => exact absurd ((crane_mem_dueEvents p k).1 he).2 (by simp [hk])

theorem timerWaits_eq_false (y : Yard) (k : Nat) :
    timerWaits y k = false ↔ ∀ m, (y.crane k).timer = some m → m.due = false := by
  unfold timerWaits
  cases (y.crane k).timer with
  | none => simp
  | some m => simp

theorem rangeInv_iff (s : State) : RangeInv s ↔ s.plant.ranged s.plant.isClosed := by
  unfold RangeInv State.events
  rw [dueEvents_eq_nil]
  simp only [timerWaits_eq_false]
  constructor
  · intro ⟨hset, hclock, hbeds, hgaps, hlanes, htrucks, htickets, hcranes, hquiet, h01, h12, h2⟩
    exact ⟨hset, hclock, fun b => ⟨⟨(hbeds b).1, (hbeds b).2.1⟩, (hbeds b).2.2.1⟩, fun b => (hbeds b).2.2.2,
      fun b => ⟨hgaps b, fun hq => (hquiet hq).2.1 b⟩, fun b hq => (hquiet hq).1 b,
      ⟨hlanes, htrucks, htickets, fun k => ⟨(hcranes k).1,
          fun m hm => ⟨(hcranes k).2 m hm, fun hq => (hquiet hq).2.2 k m hm⟩⟩,
        h01, h12, h2⟩⟩
  · intro h
    exact ⟨h.settings, h.clock, fun b => ⟨(h.beds b).1.1, (h.beds b).1.2, (h.beds b).2, h.lines b⟩, fun b => (h.intakes b).1,
      h.yard.lanes, h.yard.trucks, h.yard.tickets, fun k => ⟨(h.yard.cranes k).1, fun m hm => ((h.yard.cranes k).2 m hm).1⟩,
      fun hq => ⟨fun b => h.heats b hq, fun b => (h.intakes b).2 hq, fun k m hm => ((h.yard.cranes k).2 m hm).2 hq⟩,
      h.yard.homes⟩

/-! ## The claims that hold the bays of the work under way read the bays of the beds alone -/

theorem neededBays_site {e e' : Site} (h : ∀ b, (getOr e'.beds b .reset).bay = (getOr e.beds b .reset).bay) (y : Yard)
    (t : Ticket) : neededBays e' y t = neededBays e y t := by
  have hsrc : ∀ src, sourceBay e' y src = sourceBay e y src := fun src => by
    cases src with
    | bed b n => exact h b
    | _ => rfl
  unfold neededBays
  split <;> simp only [hsrc]

theorem Yard.covered.site {e e' : Site} {y : Yard} (hc : y.covered e)
    (h : ∀ b, (getOr e'.beds b .reset).bay = (getOr e.beds b .reset).bay) : y.covered e' := by
  have hsrc : ∀ src, sourceBay e' y src = sourceBay e y src := fun src => by
    cases src with
    | bed b n => exact h b
    | _ => rfl
  intro k hk
  have hk := hc k hk
  unfold Yard.claimCovers at hk ⊢
  simpa only [neededBays_site h, hsrc] using hk

/-! ## The changes that keep everything -/

/-- A change of the plant that keeps the ranges, the order of the claims and the agreement of cranes and tickets, and, where
`ok` holds, the claims that hold the bays of the work under way. -/
structure Plant.Upholds (ok : Prop) (p p' : Plant) : Prop where
  range   : p.ranged p.isClosed → p'.ranged p'.isClosed
  locks   : (∀ i, (p.yard.stack i).locked) → ∀ i, (p'.yard.stack i).locked
  cranes  : (∀ k, (p.yard.crane k).lawful) → ∀ k, (p'.yard.crane k).lawful
  apart   : p.yard.claimsApart → p'.yard.claimsApart
  ordered : p.yard.claimsOrdered → p'.yard.claimsOrdered
  queue   : p.yard.queueOk → p'.yard.queueOk
  serves  : p.yard.queueOk → p.yard.serves → p'.yard.serves
  covered : ok → p.yard.queueOk → p.yard.serves → p.yard.covered p.site → p'.yard.covered p'.site
  opened  : p.isClosed = false → p'.isClosed = false

namespace Plant.Upholds
variable {ok : Prop} {p p' p'' : Plant}

theorem refl (p : Plant) : Plant.Upholds ok p p := ⟨id, id, id, id, id, id, fun _ => id, fun _ _ _ => id, id⟩

theorem trans (h : Plant.Upholds ok p p') (k : Plant.Upholds ok p' p'') : Plant.Upholds ok p p'' where
  range hr := k.range (h.range hr)
  locks hl := k.locks (h.locks hl)
  cranes hc := k.cranes (h.cranes hc)
  apart ha := k.apart (h.apart ha)
  ordered ho := k.ordered (h.ordered ho)
  queue hq := k.queue (h.queue hq)
  serves hq hs := k.serves (h.queue hq) (h.serves hq hs)
  covered hok hq hs hc := k.covered hok (h.queue hq) (h.serves hq hs) (h.covered hok hq hs hc)
  opened ho := k.opened (h.opened ho)

theorem weaken {ok' : Prop} (h : Plant.Upholds ok p p') (hok : ok' → ok) : Plant.Upholds ok' p p' :=
  { h with covered := fun k => h.covered (hok k) }

theorem forEach {α : Type} (f : Plant → α → Plant) (h : ∀ p a, Plant.Upholds ok p (f p a)) (xs : List α) (p : Plant) :
    Plant.Upholds ok p (Machine.forEach xs f p) := by
  unfold Machine.forEach
  induction xs generalizing p with
  | nil => exact refl p
  | cons x xs ih => exact (h p x).trans (ih (f p x))

/-! ## The updates -/

/-- A change outside the yard that leaves the bays of the beds. -/
theorem of_yard (hy : p'.yard = p.yard) (hb : ∀ b, (p'.bed b).bay = (p.bed b).bay)
    (ho : p.isClosed = false → p'.isClosed = false) (hr : p.ranged p.isClosed → p'.ranged p'.isClosed) :
    Plant.Upholds ok p p' where
  range := hr
  locks := by rw [hy]; exact id
  cranes := by rw [hy]; exact id
  apart := by rw [hy]; exact id
  ordered := by rw [hy]; exact id
  queue := by rw [hy]; exact id
  serves _ := by rw [hy]; exact id
  covered _ _ _ hc := by rw [hy]; exact hc.site hb
  opened := ho

/-- A change of the yard alone. -/
theorem updYard {f : Yard → Yard} (h : Yard.Keeps p.site p.yard (f p.yard)) : Plant.Upholds ok p (p.updYard f) where
  range hr := ⟨hr.settings, hr.clock, hr.beds, hr.lines, hr.intakes, hr.heats, h.range hr.site _ hr.yard⟩
  locks := h.locks
  cranes := h.cranes
  apart := h.apart
  ordered := h.ordered
  queue := h.queue
  serves := h.serves
  covered _ := h.covered
  opened ho := ho

/-- A change of a bed that leaves its bay and keeps its positions and its turnover level in range. -/
theorem updBed (p : Plant) (b : Nat) (f : BedRecord → BedRecord) (hb : ∀ r, (f r).bay = r.bay)
    (hr : ∀ r, r.inRange → (f r).inRange) : Plant.Upholds ok p (p.updBed b f) :=
  .of_yard rfl (proj_getOr_upd BedRecord.bay p.beds b f _ (hb _)) id fun h =>
    ⟨h.settings, h.clock, forall_getOr_upd (P := BedRecord.inRange) p.beds b f _ (hr _) h.beds, h.lines, h.intakes, h.heats,
      h.yard⟩

/-- A change of a bed that leaves its bay, its positions and its turnover level. -/
theorem updBed_rest (p : Plant) (b : Nat) (f : BedRecord → BedRecord)
    (h : ∀ r, ((f r).bay, (f r).positions, (f r).turnover) = (r.bay, r.positions, r.turnover)) :
    Plant.Upholds ok p (p.updBed b f) := by
  simp only [Prod.mk.injEq] at h
  refine updBed p b f (fun r => (h r).1) fun r hr => ?_
  unfold BedRecord.inRange at hr ⊢
  rwa [(h r).2.1, (h r).2.2]

/-- A change of a heat record that makes no timer event due. -/
theorem updHeat (p : Plant) (b : Nat) (f : HeatRecord → HeatRecord) (h : ∀ r, r.due = false → (f r).due = false) :
    Plant.Upholds ok p (p.updHeat b f) :=
  .of_yard rfl (fun _ => rfl) id fun hr =>
    ⟨hr.settings, hr.clock, hr.beds, hr.lines, hr.intakes,
      forall_getOr_upd (P := fun r : HeatRecord => p.isClosed = true → r.due = false) p.cure b f _
        (fun hd hq => h _ (hd hq)) hr.heats,
      hr.yard⟩

/-- A change of an intake record that keeps its gap count in range and makes no timer event due. -/
theorem updIntake (p : Plant) (b : Nat) (f : IntakeRecord → IntakeRecord)
    (h : p.works.settings.ok = true → ∀ q, (p.intakeOf b).inRange q → (f (p.intakeOf b)).inRange q) :
    Plant.Upholds ok p (p.updIntake b f) :=
  .of_yard rfl (fun _ => rfl) id fun hr =>
    ⟨hr.settings, hr.clock, hr.beds, hr.lines,
      forall_getOr_upd (P := IntakeRecord.inRange p.isClosed) p.intake b f _ (h hr.settings _) hr.intakes, hr.heats,
      hr.yard⟩

/-- A change of a bed line that keeps its heat count a byte. -/
theorem updBedLine (p : Plant) (b : Nat) (f : BedLine → BedLine) (h : ∀ l, l.heatCount < 256 → (f l).heatCount < 256) :
    Plant.Upholds ok p (p.updBedLine b f) :=
  .of_yard rfl (fun _ => rfl) id fun hr =>
    ⟨hr.settings, hr.clock, hr.beds, forall_getOr_upd (P := fun l => l.heatCount < 256) p.bedLines b f _ (h _) hr.lines,
      hr.intakes, hr.heats, hr.yard⟩

/-- A change of the mark map and the class table. -/
theorem of_index (p : Plant) (classes : Vector ClassEntry 32) (markMap : List (Nat × Nat)) :
    Plant.Upholds ok p { p with classes := classes, markMap := markMap } :=
  .of_yard rfl (fun _ => rfl) id fun hr => ⟨hr.settings, hr.clock, hr.beds, hr.lines, hr.intakes, hr.heats, hr.yard⟩

/-- A change of the works record that stays in its phase. -/
theorem of_works (p : Plant) (w : Works) (hph : w.phase = p.works.phase)
    (hs : w.settings.ok = true ∨ w.settings = p.works.settings)
    (hc : p.works.clock ≤ maxU32 → w.clock ≤ maxU32) : Plant.Upholds ok p { p with works := w } := by
  have hcl : ({ p with works := w } : Plant).isClosed = p.isClosed := by
    unfold Plant.isClosed
    rw [hph]
  refine .of_yard rfl (fun _ => rfl) (fun ho => hcl.trans ho) fun hr => ?_
  rw [hcl]
  refine ⟨hs.elim id fun h => ?_, hc hr.clock, hr.beds, hr.lines, hr.intakes, hr.heats, hr.yard⟩
  show w.settings.ok = true
  rw [h]
  exact hr.settings

/-! ## The work that follows -/

theorem settle (s0 : Plant) (h : Plant.Upholds ok p p') : Plant.Upholds ok p (s0.settle p') :=
  h.trans (.updYard (keeps_settle _ _ _))

theorem settleClaim (h : Plant.Upholds ok p p') : Plant.Upholds ok p p'.settleClaim :=
  h.trans (.updYard (keeps_settleClaim _ _))

theorem settleFault (s0 : Plant) (k : Nat) (h : Plant.Upholds ok p p') : Plant.Upholds ok p (s0.settleFault p' k) := by
  unfold Plant.settleFault
  split
  · exact h.settleClaim
  · exact h.settle s0

/-- A change of the yard that spares the work of every crane and follows the queue. -/
theorem of_spares {f : Yard → Yard} (h : Yard.Spares p.site 3 24 p.yard (f p.yard))
    (hq : p.yard.queueOk → (f p.yard).queueOk) : Plant.Upholds ok p (p.updYard f) := .updYard (.of_spares h hq)

end Plant.Upholds

end Sys2Proof.Machine
end

