-- ==== Sys2Proof/Proofs/UpholdingBeds.lean ====
section
/-! PROOF. The beds, the samples, the works clock, the plant stop line and the settings keep the ranges and the work under way. -/

namespace Sys2Proof.Machine

/-! ## The timer event of a heat record is gone once it is taken -/

section
variable {h : HeatRecord}

theorem HeatRecord.due_begin (n : Nat) (hd : h.due = false) : (h.begin n).due = false := by
  unfold HeatRecord.begin
  cases h.requested
  · exact hd
  · rfl
  · rfl

theorem HeatRecord.due_request (stop : Bool) (n : Nat) (m : HeatMode) (hd : h.due = false) :
    (h.request stop n m).due = false := by
  unfold HeatRecord.request
  split
  · exact hd
  · split
    · exact hd
    · split
      · exact hd
      · exact HeatRecord.due_begin n hd

theorem HeatRecord.due_endSegment (hd : h.due = false) : h.endSegment.due = false := by
  unfold HeatRecord.endSegment
  split
  · exact hd
  · split <;> exact hd

theorem HeatRecord.due_endRunning (hd : h.due = false) : h.endRunning.due = false := by
  unfold HeatRecord.endRunning
  split <;> exact hd

theorem HeatRecord.due_swap (curing : Bool) (hd : h.due = false) : (h.swap curing).due = false := by
  unfold HeatRecord.swap
  cases h.plan
  case complete => cases curing <;> exact hd
  all_goals exact hd

theorem HeatRecord.due_startCure (hd : h.due = false) : h.startCure.due = false := by
  unfold HeatRecord.startCure
  split <;> exact hd

theorem HeatRecord.due_restore (segment minutes : Nat) (hd : h.due = false) : (h.restore segment minutes).due = false := by
  unfold HeatRecord.restore
  split <;> exact hd

theorem HeatRecord.due_openWorks (curing : Bool) (hd : h.due = false) : (h.openWorks curing).due = false := by
  unfold HeatRecord.openWorks
  split <;> exact hd

end

/-! ## Heat orders (R55, R56, R219) -/

theorem BedLine.heatCount_write (l : BedLine) (o : HeatOrder) (h : l.heatCount < 256) : (l.write o).heatCount < 256 := by
  unfold BedLine.write
  dsimp only
  split
  · exact h
  · exact Nat.mod_lt _ (by decide)

theorem BedLine.heatCount_put (l : BedLine) (o : HeatOrder) (h : l.heatCount < 256) : (l.put o).heatCount < 256 := by
  unfold BedLine.put
  split
  · exact BedLine.heatCount_write l o h
  · exact h

theorem BedLine.heatCount_release (l : BedLine) (h : l.heatCount < 256) : l.release.heatCount < 256 := by
  unfold BedLine.release
  split
  · exact BedLine.heatCount_write _ _ h
  · exact h

section
variable {ok : Prop} (p : Plant) (b : Nat)

theorem upholds_sendOrder : Plant.Upholds ok p (sendOrder p b) := by
  unfold sendOrder
  split
  · exact .refl p
  · exact (Plant.Upholds.updBedLine p b _ fun l => BedLine.heatCount_put l _).trans (.updHeat _ b _ fun _ => id)

theorem upholds_sendIfChanged : Plant.Upholds ok p (sendIfChanged p b) := by
  unfold sendIfChanged
  split
  · exact .refl p
  · exact upholds_sendOrder p b

theorem upholds_heatOff : Plant.Upholds ok p (heatOff p b) := .updHeat p b _ fun _ => id

theorem upholds_forceOff : Plant.Upholds ok p (forceOff p b) := (upholds_heatOff p b).trans (upholds_sendIfChanged _ b)

theorem upholds_latchBed (f : BedFlags → BedFlags) : Plant.Upholds ok p (p.latchBed b f) := .updBed_rest p b _ fun _ => rfl

theorem upholds_setBedState (st : BedState) : Plant.Upholds ok p (p.setBedState b st) := .updBed_rest p b _ fun _ => rfl

/-- Changes of some pieces, one after another. -/
theorem upholds_updPieces (f : Piece → Piece) (hf : ∀ r, ((f r).mark, (f r).cls) = (r.mark, r.cls)) (hs : List Handle) :
    Plant.Upholds ok p (p.updYard (forEach hs (fun y h => y.updPiece h.slot f))) := by
  refine .of_spares (.forEach _ (fun y h => .updPiece y h.slot f) hs _) ?_
  have hc : (forEach hs (fun y h => y.updPiece h.slot f) p.yard).census = p.yard.census :=
    census_forEach _ (fun y h => census_updPiece y _ _ hf) _ _
  exact (Yard.Follows.of_census hc).queue

/-- R76: a CURE hold on every piece of a bed. -/
theorem upholds_holdCure : Plant.Upholds ok p (holdCure p b) := by
  unfold holdCure
  exact upholds_updPieces p _ (by exact fun _ => rfl) _

/-- R71, R72: a credit writes maturities. -/
theorem upholds_creditBed (t : Int) : Plant.Upholds ok p (creditBed p b t) := by
  unfold creditBed
  split
  · dsimp only
    refine Plant.Upholds.trans ?_ (upholds_updPieces _ _ (by exact fun _ => rfl) _)
    exact .updBed_rest p b _ fun _ => rfl
  · exact .refl p

theorem upholds_liftFromBed (i : Nat) : Plant.Upholds ok p (liftFromBed p b i) := by
  refine Plant.Upholds.trans ?_ (upholds_sendIfChanged _ b)
  exact .updBed_rest p b _ fun _ => rfl

/-! ## The timer events of a bed (R48, R61, R78) -/

theorem upholds_segmentEnds : Plant.Upholds ok p (segmentEnds p b) := by
  have hend : Plant.Upholds ok p (p.updHeat b HeatRecord.endSegment) := .updHeat p b _ fun _ => HeatRecord.due_endSegment
  unfold segmentEnds
  dsimp only
  refine Plant.Upholds.trans ?_ (upholds_sendIfChanged _ b)
  split
  · exact hend.trans (upholds_latchBed _ b _)
  · exact hend

theorem upholds_countSegment : Plant.Upholds ok p (countSegment p b) := by
  unfold countSegment
  split
  · exact upholds_segmentEnds p b
  · exact .updHeat p b _ fun _ => id

theorem upholds_heatTick : Plant.Upholds ok p (heatTick p b) := by
  have htick : Plant.Upholds ok p (sendIfChanged (p.updHeat b (fun h => { h.tickTransition with due := false })) b) :=
    (Plant.Upholds.updHeat p b _ fun _ _ => rfl).trans (upholds_sendIfChanged _ b)
  unfold heatTick
  dsimp only
  split
  · exact htick.trans (upholds_countSegment _ b)
  · exact htick

variable {p b} in
/-- R80: a LOST expiry, after a change that the write of the state LOST completes. -/
theorem upholds_lostExpiry {s : Plant} (wasOk : Bool)
    (h : Plant.Upholds ok p (s.updIntake b (fun r => { r with state := .lost }))) :
    Plant.Upholds ok p (lostExpiry s b wasOk) := by
  unfold lostExpiry
  dsimp only
  split
  · exact h
  · exact ((h.trans (upholds_latchBed _ b _)).trans (upholds_forceOff _ b)).trans (upholds_holdCure _ b)

theorem upholds_gapExpiry (h : (p.intakeOf b).state ≠ .lost) : Plant.Upholds ok p (gapExpiry p b) := by
  have hgap : Plant.Upholds ok p (p.updIntake b (fun r => { r with state := .gap })) :=
    .updIntake p b _ fun _ _ hr => ⟨⟨hr.1.1, fun _ => hr.1.2 h⟩, hr.2⟩
  unfold gapExpiry
  dsimp only
  split
  · exact hgap
  · exact hgap.trans (upholds_latchBed _ b _)

theorem Plant.updIntake_updIntake (f g : IntakeRecord → IntakeRecord) :
    (p.updIntake b f).updIntake b g = p.updIntake b (fun r => g (f r)) := by
  unfold Plant.updIntake
  rw [upd_upd]

theorem Settings.period_le {st : Settings} (h : st.ok = true) : st.period ≤ 15 := by
  simp only [Settings.ok, Bool.and_eq_true, decide_eq_true_eq] at h
  omega

/-- R78: below six sampling periods the gap count goes on; there the state becomes LOST with it. -/
theorem upholds_intakeTick : Plant.Upholds ok p (intakeTick p b) := by
  unfold intakeTick
  dsimp only
  split
  · exact .updIntake p b _ fun _ _ hr => ⟨hr.1, fun _ => rfl⟩
  · rename_i hlost
    split
    · refine upholds_lostExpiry _ ?_
      rw [Plant.updIntake_updIntake]
      refine .updIntake p b _ fun _ _ hr => ⟨⟨?_, fun h => absurd rfl h⟩, fun _ => rfl⟩
      have := hr.1.2 hlost
      dsimp only
      omega
    · rename_i hperiod
      have hcount : Plant.Upholds ok p
          (p.updIntake b (fun r => { r with gapCount := (p.intakeOf b).gapCount + 1, due := false })) := by
        refine .updIntake p b _ fun hset _ hr => ?_
        have hp := Settings.period_le hset
        have hlt : (p.intakeOf b).gapCount + 1 < 90 := by omega
        exact ⟨⟨Nat.le_of_lt hlt, fun _ => hlt⟩, fun _ => rfl⟩
      split
      · refine hcount.trans (upholds_gapExpiry _ b ?_)
        have hst := proj_getOr_upd IntakeRecord.state p.intake b
          (fun r => { r with gapCount := (p.intakeOf b).gapCount + 1, due := false }) .reset rfl b
        exact fun h => hlost (hst.symm.trans h)
      · exact hcount

/-! ## Samples (R70, R75, R77) -/

theorem upholds_overTemperature (t : Int) : Plant.Upholds ok p (overTemperature p b t) := by
  unfold overTemperature
  split
  · exact ((upholds_latchBed p b _).trans (upholds_heatOff _ b)).trans (upholds_holdCure _ b)
  · exact .refl p

theorem upholds_unitStatus (status : Nat) : Plant.Upholds ok p (unitStatus p b status) := by
  have hfault : ∀ v, Plant.Upholds ok p (p.updIntake b (fun r => { r with unitFault := v })) := fun _ =>
    .updIntake p b _ fun _ _ => id
  unfold unitStatus
  split
  · exact ((hfault true).trans (upholds_latchBed _ b _)).trans (upholds_heatOff _ b)
  · exact hfault false

theorem upholds_takeSample (seq : Nat) (t : Int) (status : Nat) : Plant.Upholds ok p (takeSample p b seq t status) := by
  unfold takeSample
  split
  · unfold sampleEffects
    dsimp only
    refine Plant.Upholds.trans ?_ (upholds_sendOrder _ b)
    refine Plant.Upholds.trans ?_ (upholds_unitStatus _ b status)
    refine Plant.Upholds.trans ?_ (upholds_overTemperature _ b t)
    refine Plant.Upholds.trans ?_ (upholds_creditBed _ b t)
    exact .updIntake p b _ fun _ _ hr => ⟨⟨Nat.zero_le 90, fun _ => (by decide : (0 : Nat) < 90)⟩, hr.2⟩
  · exact .refl p

theorem upholds_takeBedBytes (bytes : List Byte) : Plant.Upholds ok p (takeBedBytes p b bytes) := by
  unfold takeBedBytes
  split
  · exact upholds_takeSample p b _ _ _
  · exact .refl p

/-! ## The works clock (R192) -/

/-- R162, R192: an expiry of the report timer. -/
theorem upholds_craneExpires (k : Nat) : Plant.Upholds ok p (craneExpires p k) := by
  have h : Plant.Upholds ok p (p.updYard (fun y => timerExpiry p.site y k)) := .updYard (keeps_timerExpiry _ _ _)
  unfold craneExpires
  dsimp only
  split
  · exact h.settleClaim
  · exact h.settleFault p k

/-- R162: a timer that does not expire has more than one minute remaining. -/
theorem upholds_timerTick (ho : p.isClosed = false) (k : Nat) : Plant.Upholds ok p (timerTick p k) := by
  rcases timerTick_cases p k with ⟨h, -⟩ | ⟨h, -⟩ | ⟨h, hdue⟩ <;> rw [h]
  · exact .refl p
  · exact upholds_craneExpires p k
  · refine .updYard (keeps_countMinute _ fun m hm => ?_)
    unfold timerDue at hdue
    simpa [ho, hm] using hdue.2

theorem upholds_takeEvent (ho : p.isClosed = false) (e : TimerEvent) : Plant.Upholds ok p (takeEvent p e) := by
  unfold takeEvent
  cases e with
  | heat b =>
    dsimp only
    split
    · exact upholds_heatTick p b
    · exact .refl p
  | intake b =>
    dsimp only
    split
    · exact upholds_intakeTick p b
    · exact .refl p
  | crane k => exact upholds_timerTick p ho k

theorem upholds_takeDue (s : State) (ho : s.plant.isClosed = false) : Plant.Upholds ok s.plant (takeDue s).plant := by
  rcases takeDue_cases s with ⟨-, h⟩ | ⟨e, -, h⟩ <;> rw [h]
  · exact .refl _
  · exact upholds_takeEvent _ ho e

theorem upholds_takeDues (n : Nat) (s : State) (ho : s.plant.isClosed = false) :
    Plant.Upholds ok s.plant (takeDues n s).plant := by
  induction n generalizing s with
  | zero => exact .refl _
  | succ n ih =>
    have h : Plant.Upholds ok s.plant (takeDue s).plant := upholds_takeDue s ho
    exact h.trans (ih (takeDue s) (h.opened ho))

/-- R192: the events of the new minute become due, which CLOSED alone does not allow. -/
theorem upholds_bedMinuteDue (ho : p.isClosed = false) : Plant.Upholds ok p (bedMinuteDue p b) := by
  refine .of_yard rfl (fun _ => rfl) id fun h => ?_
  have hquiet : ¬p.isClosed = true := by rw [ho]; exact Bool.false_ne_true
  exact ⟨h.settings, h.clock, h.beds, h.lines,
    forall_getOr_upd (P := IntakeRecord.inRange p.isClosed) p.intake b _ _ (fun hr => ⟨hr.1, fun hq => absurd hq hquiet⟩)
      h.intakes,
    fun _ hq => absurd hq hquiet, h.yard⟩

/-- A change of the yard that keeps the ranges for a reason of the plant's own: for the rest it is judged at a site with a
sampling period of 0, at which no range is asked for. -/
theorem Plant.Upholds.updYard_ranged {f : Yard → Yard} (hr : p.ranged p.isClosed → (f p.yard).ranged p.isClosed)
    (h : ∀ e : Site, ¬e.inRange → Yard.Keeps e p.yard (f p.yard)) : Plant.Upholds ok p (p.updYard f) := by
  have hk := h { p.site with settings := { Settings.default with period := 0 } } fun he =>
    absurd (show (({ Settings.default with period := 0 } : Settings).ok = true) from he.1) (by decide)
  exact ⟨fun hp => ⟨hp.settings, hp.clock, hp.beds, hp.lines, hp.intakes, hp.heats, hr hp⟩, hk.locks, hk.cranes, hk.apart,
    hk.ordered, hk.queue, hk.serves,
    fun _ hq hs hc => (hk.covered hq hs (hc.site fun _ => rfl)).site fun _ => rfl, id⟩

theorem upholds_minuteDue (ho : p.isClosed = false) (k : Nat) : Plant.Upholds ok p (p.updYard (fun y => minuteDue y k)) := by
  refine .updYard_ranged p (fun hp => ?_) fun e he => ?_
  · have h := hp.yard
    have hquiet : ¬p.isClosed = true := by rw [ho]; exact Bool.false_ne_true
    have hhome : ∀ j, ((minuteDue p.yard k).crane j).homeBay = (p.yard.crane j).homeBay :=
      proj_getOr_upd CraneRecord.homeBay p.yard.cranes k _ _ rfl
    refine ⟨h.lanes, h.trucks, h.tickets,
      forall_getOr_upd (P := CraneRecord.inRange p.isClosed) p.yard.cranes k _ _
        (fun hr => ⟨hr.1, fun m hm => ?_⟩) h.cranes, ?_⟩
    · obtain ⟨m0, hm0, rfl⟩ := Option.map_eq_some_iff.1 hm
      exact ⟨(hr.2 m0 hm0).1, fun hq => absurd hq hquiet⟩
    · rw [hhome, hhome, hhome]
      exact h.homes
  · exact .of_follows (.updCrane _ k _ (fun hi => absurd hi he) (fun h => h) (fun _ => rfl) (.inr rfl))
      (.of_census (census_updCrane _ _ _))

theorem Plant.Upholds.forEach_open {α : Type} (f : Plant → α → Plant)
    (h : ∀ p a, p.isClosed = false → Plant.Upholds ok p (f p a)) (xs : List α) (ho : p.isClosed = false) :
    Plant.Upholds ok p (Machine.forEach xs f p) := by
  unfold Machine.forEach
  induction xs generalizing p with
  | nil => exact refl p
  | cons x xs ih => exact (h p x ho).trans (ih (f p x) ((h p x ho).opened ho))

theorem forEach_updYard {α : Type} (f : Yard → α → Yard) (xs : List α) :
    p.updYard (fun y => forEach xs f y) = forEach xs (fun s a => s.updYard (fun y => f y a)) p := by
  unfold forEach
  induction xs generalizing p with
  | nil => rfl
  | cons x xs ih => exact ih (p.updYard (fun y => f y x))

theorem upholds_clockTick : Plant.Upholds ok p (clockTick p) :=
  .of_works p _ rfl (.inr rfl) fun _ => Nat.min_le_left _ _

theorem upholds_advance (ho : p.isClosed = false) : Plant.Upholds ok p (advance p) := by
  unfold advance
  rw [forEach_updYard]
  have hclock : Plant.Upholds ok p (clockTick p) := upholds_clockTick p
  have hbeds : Plant.Upholds ok p (forEach (List.range 12) bedMinuteDue (clockTick p)) :=
    hclock.trans (.forEach_open _ _ (fun q b hq => upholds_bedMinuteDue q b hq) _ (hclock.opened ho))
  exact hbeds.trans (.forEach_open _ _ (fun q k hq => upholds_minuteDue q hq k) _ (hbeds.opened ho))

theorem upholds_advanceClock (s : State) : Plant.Upholds ok s.plant (advanceClock s).plant := by
  unfold advanceClock
  split
  · exact .refl _
  · rename_i hc
    have ho : s.plant.isClosed = false := Bool.eq_false_iff.2 hc
    have hdues : Plant.Upholds ok s.plant (takeDues s.events.length s).plant := upholds_takeDues _ s ho
    exact hdues.trans (upholds_advance _ (hdues.opened ho))

/-! ## The plant stop line and the settings (R199, R201, R214, R215) -/

theorem upholds_setStop (stop : Bool) : Plant.Upholds ok p (setStop stop p) := .of_works p _ rfl (.inr rfl) id

theorem upholds_cureStop : Plant.Upholds ok p (cureStop p) := by
  unfold cureStop
  refine .forEach _ (fun q b => ?_) _ p
  refine Plant.Upholds.trans ?_ (upholds_sendIfChanged _ b)
  exact .updHeat q b _ fun _ => id

theorem upholds_cureRelease : Plant.Upholds ok p (cureRelease p) := by
  unfold cureRelease
  refine .forEach _ (fun q b => ?_) _ p
  refine Plant.Upholds.trans ?_ (upholds_sendIfChanged _ b)
  exact .updHeat q b _ fun _ => HeatRecord.due_begin _

theorem upholds_assertStop : Plant.Upholds ok p (assertStop p) := by
  unfold assertStop
  split
  · exact .refl p
  · split
    · exact upholds_setStop p true
    · dsimp only
      exact .settle _ (((upholds_setStop p true).trans (upholds_cureStop _)).trans (.updYard (keeps_cranesStop _ _)))

theorem upholds_releaseCranes : Plant.Upholds ok p (releaseCranes p) := .settle p (.updYard (keeps_cranesResume _ _))

theorem upholds_releaseStop (queueFirst : Bool) : Plant.Upholds ok p (releaseStop queueFirst p) := by
  unfold releaseStop
  split
  · exact .refl p
  · split
    · exact upholds_setStop p false
    · have hcure : Plant.Upholds ok p (cureRelease (setStop false p)) := (upholds_setStop p false).trans (upholds_cureRelease _)
      dsimp only
      split
      · exact (hcure.settle _).trans (upholds_releaseCranes _)
      · exact hcure.trans (upholds_releaseCranes _)

theorem upholds_writeSettings {st : Settings} (h : st.ok = true) : Plant.Upholds ok p (writeSettings st p) := by
  have hset : Plant.Upholds ok p { p with works := { p.works with settings := st } } := .of_works p _ rfl (.inl h) id
  unfold writeSettings
  exact .settle p (hset.trans (.of_spares (spares_recomputeLanes _ _) id))

theorem upholds_resetSettings : Plant.Upholds ok p (resetSettings p) := by
  unfold resetSettings
  split
  · exact .refl p
  · exact upholds_writeSettings p (by decide)

end

end Sys2Proof.Machine
end

