-- ==== Sys2Proof/Proofs/UpholdingCommands.lean ====
section
/-! PROOF. Each command of the Command Port keeps the ranges and the work under way; one that writes the bay of an object keeps
the claims holding their bays where no ticket under way names the object (R28, R95, R104, R107). -/

namespace Sys2Proof.Machine

/-! ## Refusals -/

section
variable {ok : Prop} {s : Plant} {c : Prop} [Decidable c] {code : Code} {fields : List Byte} {r : Reply × Plant}

/-- A check that refuses changes nothing. -/
theorem upholds_guard (h : ¬c → Plant.Upholds ok s r.2) : Plant.Upholds ok s (if c then refuse code s else r).2 := by
  split
  · exact .refl s
  · exact h ‹_›

/-- A check that refuses on its second branch changes nothing. -/
theorem upholds_unless (h : c → Plant.Upholds ok s r.2) : Plant.Upholds ok s (if c then r else refuse code s).2 := by
  split
  · exact h ‹_›
  · exact .refl s

/-- A check whose refusal carries fields changes nothing. -/
theorem upholds_guardWith (h : ¬c → Plant.Upholds ok s r.2) :
    Plant.Upholds ok s (if c then refuseWith code fields s else r).2 := by
  split
  · exact .refl s
  · exact h ‹_›

/-- An acceptance keeps what its change keeps. -/
theorem upholds_accept {p : Plant} (h : Plant.Upholds ok s p) : Plant.Upholds ok s (accept fields p).2 := h

end

/-! ## Commands that write a bay (R28, R95, R104, R107) -/

/-- The bays of the source and the destination of a ticket read at two plants as the same. -/
def Ticket.sameBays (t : Ticket) (p p' : Plant) : Prop :=
  (∀ src, t.source = some src → sourceBay p'.site p'.yard src = sourceBay p.site p.yard src)
    ∧ ∀ d, t.dest = some d → destBay p'.yard d = destBay p.yard d

theorem Ticket.heldBy.sameBays {t : Ticket} {p p' : Plant} {c : Interval} (h : t.heldBy p.site p.yard c)
    (hb : t.sameBays p p') : t.heldBy p'.site p'.yard c := by
  obtain ⟨hsrc, hdest⟩ := hb
  refine ⟨fun hst b hmem => h.granted hst b (mem_neededBays.2 ?_), fun hst src hs => ?_, fun hst d hd => ?_⟩
  · exact (mem_neededBays.1 hmem).imp (fun ⟨src, hs, hnot, he⟩ => ⟨src, hs, hnot, hsrc src hs ▸ he⟩)
      fun ⟨d, hd, he⟩ => ⟨d, hd, hdest d hd ▸ he⟩
  · rw [hsrc src hs]
    exact h.lifting hst src hs
  · rw [hdest d hd]
    exact h.laden hst d hd

/-- A change of beds, stacks, lanes and truck bays: the claims go on holding the bays of the work under way where each ticket
under way finds its bays as they were. -/
theorem upholds_holders {ok : Prop} (p : Plant) (beds : Vector BedRecord 12) (stackRecs : Vector StackRecord 40)
    (lanes : Vector LaneRecord 2) (trucks : Vector TruckRecord 4) {p' : Plant}
    (hp : p' = { p with beds := beds, yard := { p.yard with stackRecs := stackRecs, lanes := lanes, trucks := trucks } })
    (hr : p.ranged p.isClosed → p'.ranged p'.isClosed)
    (hl : (∀ i, (p.yard.stack i).locked) → ∀ i, (p'.yard.stack i).locked)
    (hb : ok → ∀ slot t, p.yard.ticketAt slot = some t → t.state.served = true → t.sameBays p p') :
    Plant.Upholds ok p p' := by
  subst hp
  refine ⟨hr, hl, id, id, id, id, fun _ => id, fun hok _ hs hc k hk => ?_, id⟩
  have hck := hc k hk
  rw [Yard.claimCovers_iff] at hck ⊢
  refine ⟨hck.1, fun slot t ht => ?_⟩
  obtain ⟨hserved, -, hat⟩ := hs.of_current hk ht
  obtain ⟨c, hclaim, htravel, hheld⟩ := hck.2 slot t ht
  exact ⟨c, hclaim, htravel, hheld.sameBays (hb hok slot t hat hserved)⟩

/-- No ticket under way names the object whose bay the command writes. -/
def Plant.freeFor (p : Plant) (c : Command) : Prop :=
  ∀ slot u, p.yard.ticketAt slot = some u → u.state.served = true → ¬writesBayOf u c

theorem upholds_xConfigureBed (bed bay positions setpoint : Nat) (s : Plant) :
    Plant.Upholds (s.freeFor (.configureBed bed bay positions setpoint)) s (xConfigureBed bed bay positions setpoint s).2 := by
  unfold xConfigureBed
  refine upholds_guard fun _ => upholds_guard fun _ => upholds_guard fun hpos => upholds_guard fun _ => upholds_guard fun _ =>
    upholds_accept ?_
  refine upholds_holders s _ _ _ _ rfl (fun h => ?_) id fun hok slot t hat hserved => ⟨fun src hsrc => ?_, fun _ _ => rfl⟩
  · refine ⟨h.settings, h.clock, forall_getOr_upd (P := BedRecord.inRange) s.beds bed _ _ (fun hr => ⟨?_, hr.2⟩) h.beds,
      h.lines, h.intakes, h.heats, h.yard⟩
    dsimp only
    omega
  · cases src with
    | bed b n =>
      have hne : bed ≠ b := fun heq => hok slot t hat hserved ⟨n, heq ▸ hsrc⟩
      exact congrArg BedRecord.bay (getOr_upd_ne _ _ _ _ _ hne)
    | _ => rfl

theorem StackRecord.locked_define (choice bay tiers load : Nat) (r : StackRecord) (h : r.locked) :
    (r.define choice bay tiers load).locked := by
  unfold StackRecord.define
  split <;> exact h

theorem upholds_xDefineStack (stack choice bay tiers load : Nat) (s : Plant) :
    Plant.Upholds (s.freeFor (.defineStack stack choice bay tiers load)) s (xDefineStack stack choice bay tiers load s).2 := by
  unfold xDefineStack
  refine upholds_guard fun _ => upholds_guard fun _ => upholds_guard fun _ => upholds_guard fun _ =>
    upholds_accept (.settle s ?_)
  refine upholds_holders s _ _ _ _ rfl (fun h => ?_) (fun h => ?_) fun hok slot t hat hserved => ?_
  · exact ⟨h.settings, h.clock, h.beds, h.lines, h.intakes, h.heats,
      ⟨h.yard.lanes, h.yard.trucks, h.yard.tickets, h.yard.cranes, h.yard.homes⟩⟩
  · exact forall_getOr_upd (P := StackRecord.locked) s.yard.stackRecs stack _ _ (StackRecord.locked_define _ _ _ _ _) h
  · have hbay : ∀ i, stack ≠ i → ((s.yard.updStack stack (StackRecord.define choice bay tiers load)).stack i).bay
        = (s.yard.stack i).bay := fun i hne => congrArg StackRecord.bay (getOr_upd_ne _ _ _ _ _ hne)
    refine ⟨fun src hsrc => ?_, fun d hd => ?_⟩
    · cases src with
      | stack i tier => exact hbay i fun heq => hok slot t hat hserved (.inl ⟨tier, heq ▸ hsrc⟩)
      | _ => rfl
    · cases d with
      | stack i => exact hbay i fun heq => hok slot t hat hserved (.inr (heq ▸ hd))
      | _ => rfl

theorem upholds_xDefineLane (lane choice bay : Nat) (s : Plant) :
    Plant.Upholds (s.freeFor (.defineLane lane choice bay)) s (xDefineLane lane choice bay s).2 := by
  unfold xDefineLane
  refine upholds_guard fun _ => upholds_guard fun _ => upholds_guard fun _ => upholds_guard fun _ =>
    upholds_accept (.settle s ?_)
  refine upholds_holders s _ _ _ _ rfl (fun h => ?_) id fun hok slot t hat hserved => ?_
  · exact ⟨h.settings, h.clock, h.beds, h.lines, h.intakes, h.heats,
      ⟨forall_getOr_upd (P := fun r : LaneRecord => r.demand < 4) s.yard.lanes lane _ _
          (fun _ => (by decide : (0 : Nat) < 4)) h.yard.lanes,
        h.yard.trucks, h.yard.tickets, h.yard.cranes, h.yard.homes⟩⟩
  · have hbay : ∀ i, lane ≠ i → ((s.yard.updLane lane (LaneRecord.define choice bay)).lane i).bay = (s.yard.lane i).bay :=
      fun i hne => congrArg LaneRecord.bay (getOr_upd_ne _ _ _ _ _ hne)
    refine ⟨fun src hsrc => ?_, fun d hd => ?_⟩
    · cases src with
      | lane i => exact hbay i fun heq => hok slot t hat hserved (.inl (heq ▸ hsrc))
      | _ => rfl
    · cases d with
      | lane i => exact hbay i fun heq => hok slot t hat hserved (.inr (heq ▸ hd))
      | _ => rfl

theorem upholds_xDefineTruckBay (truck choice bay : Nat) (s : Plant) :
    Plant.Upholds (s.freeFor (.defineTruckBay truck choice bay)) s (xDefineTruckBay truck choice bay s).2 := by
  unfold xDefineTruckBay
  refine upholds_guard fun _ => upholds_guard fun _ => upholds_guard fun _ => upholds_guard fun _ => upholds_accept ?_
  refine upholds_holders s _ _ _ _ rfl (fun h => ?_) id fun hok slot t hat hserved => ?_
  · exact ⟨h.settings, h.clock, h.beds, h.lines, h.intakes, h.heats,
      ⟨h.yard.lanes, forall_getOr_upd (P := fun r : TruckRecord => r.level < 4) s.yard.trucks truck _ _ id h.yard.trucks,
        h.yard.tickets, h.yard.cranes, h.yard.homes⟩⟩
  · have hbay : ∀ i, truck ≠ i → ((s.yard.updTruck truck (fun r =>
        { r with defined := decide (choice = 1), bay := if choice = 1 then bay else 0 })).truck i).bay = (s.yard.truck i).bay :=
      fun i hne => congrArg TruckRecord.bay (getOr_upd_ne _ _ _ _ _ hne)
    refine ⟨fun src hsrc => ?_, fun d hd => ?_⟩
    · cases src with
      | truck i tier => exact hbay i fun heq => hok slot t hat hserved (.inl ⟨tier, heq ▸ hsrc⟩)
      | _ => rfl
    · cases d with
      | truck i => exact hbay i fun heq => hok slot t hat hserved (.inr (heq ▸ hd))
      | _ => rfl

/-! ## Pieces (R17 to R20) -/

section
variable {ok : Prop}

theorem upholds_xDefineClass (c choice length weight threshold tier : Nat) (s : Plant) :
    Plant.Upholds ok s (xDefineClass c choice length weight threshold tier s).2 := by
  unfold xDefineClass
  exact upholds_guard fun _ => upholds_guard fun _ => upholds_guard fun _ => upholds_guard fun _ =>
    upholds_accept (.of_index s _ _)

theorem upholds_xHold (h : Handle) (value : Nat) (s : Plant) : Plant.Upholds ok s (xHold h value s).2 := by
  unfold xHold
  refine upholds_guard fun _ => ?_
  split
  · exact .refl s
  · refine upholds_guard fun _ => upholds_guard fun _ => upholds_guard fun _ => upholds_accept (.settle s (.updYard ?_))
    split
    · exact keeps_addHold _ _ _ _ _
    · exact keeps_addHold _ _ _ _ _

theorem upholds_xReleaseHold (h : Handle) (value : Nat) (s : Plant) : Plant.Upholds ok s (xReleaseHold h value s).2 := by
  unfold xReleaseHold
  refine upholds_guard fun _ => ?_
  split
  · exact .refl s
  · split
    · exact .refl s
    · refine upholds_accept (.of_spares (.updPiece _ _ _) ?_)
      exact (Yard.Follows.of_census (census_updPiece s.yard h.slot _ (by exact fun _ => rfl))).queue

/-- R4: a record retired. -/
theorem upholds_retire (s : Plant) (h : Handle) : Plant.Upholds ok s (retire s h) := by
  unfold retire
  split
  · exact (Plant.Upholds.of_index s _ _).trans (.of_spares (.of_rest _ _ _ _ _) id)
  · exact .refl s

/-- R3: a record allocated. -/
theorem upholds_allocate (s : Plant) (p : Piece) : Plant.Upholds ok s (allocate s p).2 := by
  unfold allocate
  split
  · dsimp only
    refine Plant.Upholds.trans ?_ (.of_spares (.of_rest _ _ _ _ _) id)
    exact .of_index s _ _
  · exact .refl s

/-- R20: the piece taken out of its holder. -/
theorem spares_scrapFrom (e : Site) (y : Yard) (h : Handle) (loc : Location) : Yard.Spares e 3 24 y (scrapFrom e y h loc) := by
  unfold scrapFrom
  cases loc with
  | bed b i => exact .refl e 3 24 y
  | hook k => exact .updCrane y k _ (fun _ _ h => h) (fun h => h) (fun _ => rfl) (.inr rfl)
  | lane l => exact spares_setLanePieces _ _ _ _
  | stack i tier => exact spares_popStack _ _
  | truck t tier => exact spares_popTruck _ _

theorem queueOk_scrapFrom {e : Site} {y : Yard} (h : Handle) (loc : Location) (hq : y.queueOk) :
    (scrapFrom e y h loc).queueOk := by
  have hc : (scrapFrom e y h loc).census = y.census := by cases loc <;> rfl
  exact (Yard.Follows.of_census hc).queue hq

theorem upholds_xScrapPiece (h : Handle) (s : Plant) : Plant.Upholds ok s (xScrapPiece h s).2 := by
  unfold xScrapPiece
  refine upholds_guard fun _ => ?_
  split
  · exact .refl s
  · refine upholds_guard fun _ => upholds_guard fun _ => upholds_guard fun _ => upholds_accept (.settle s ?_)
    refine Plant.Upholds.trans ?_ (upholds_retire _ h)
    exact .of_spares (spares_scrapFrom _ _ _ _) (queueOk_scrapFrom _ _)

/-! ## Beds and plans (R29 to R43, R49 to R63) -/

theorem upholds_xPrepareBed (bed : Nat) (s : Plant) : Plant.Upholds ok s (xPrepareBed bed s).2 := by
  unfold xPrepareBed
  exact upholds_guard fun _ => upholds_guard fun _ => upholds_guard fun _ => upholds_guard fun _ =>
    upholds_accept ((upholds_setBedState s bed _).trans (upholds_sendIfChanged _ bed))

theorem upholds_xAbandonBed (bed : Nat) (s : Plant) : Plant.Upholds ok s (xAbandonBed bed s).2 := by
  unfold xAbandonBed
  exact upholds_guard fun _ => upholds_guard fun _ => upholds_guard fun _ =>
    upholds_accept ((upholds_setBedState s bed _).trans (upholds_forceOff _ bed))

theorem upholds_xStartCure (bed : Nat) (s : Plant) : Plant.Upholds ok s (xStartCure bed s).2 := by
  unfold xStartCure
  refine upholds_guard fun _ => upholds_guard fun _ => upholds_guard fun _ => upholds_guard fun _ => upholds_accept ?_
  refine Plant.Upholds.trans ?_ (upholds_sendIfChanged _ bed)
  exact (upholds_setBedState s bed _).trans (.updHeat _ bed _ fun _ => HeatRecord.due_startCure)

/-- R32, R197: records allocated for bed positions. -/
theorem upholds_fillPositions (bed maturity minute : Nat) (rows : List (Nat × MarkWord × Holds)) (s : Plant) :
    Plant.Upholds ok s (forEach rows (fillPosition bed maturity minute) s) := by
  refine .forEach _ (fun q e => ?_) rows s
  unfold fillPosition
  exact (upholds_allocate q (bedPiece bed e.1 e.2.1 e.2.2 maturity minute)).trans
    (.updBed_rest _ bed (setPosition e.1 _) fun _ => rfl)

theorem upholds_xCast (bed : Nat) (entries : List MarkWord) (s : Plant) : Plant.Upholds ok s (xCast bed entries s).2 := by
  unfold xCast
  refine upholds_guard fun _ => upholds_guard fun _ => upholds_guard fun _ => upholds_guard fun _ => upholds_guard fun _ =>
    upholds_guard fun _ => upholds_guard fun _ => upholds_guard fun _ => upholds_accept ?_
  refine Plant.Upholds.trans ?_ (upholds_sendIfChanged _ bed)
  refine Plant.Upholds.trans ?_ (upholds_setBedState _ bed _)
  refine Plant.Upholds.trans ?_ (upholds_fillPositions _ _ _ _ _)
  exact .updBed_rest s bed _ fun _ => rfl

theorem upholds_scrapPosition (bed : Nat) (s : Plant) (i : Nat) : Plant.Upholds ok s (scrapPosition bed s i) := by
  unfold scrapPosition
  split
  · refine Plant.Upholds.trans ?_ (upholds_retire _ _)
    exact .updBed_rest s bed _ fun _ => rfl
  · exact .refl s

theorem upholds_xScrapBed (bed : Nat) (s : Plant) : Plant.Upholds ok s (xScrapBed bed s).2 := by
  unfold xScrapBed
  refine upholds_guard fun _ => upholds_guard fun _ => upholds_guard fun _ => ?_
  split
  · exact .refl s
  · refine upholds_accept ?_
    refine Plant.Upholds.trans ?_ (upholds_forceOff _ bed)
    refine Plant.Upholds.trans ?_ (.updHeat _ bed _ fun _ => HeatRecord.due_endRunning)
    exact (Plant.Upholds.forEach _ (upholds_scrapPosition bed) _ s).trans (upholds_setBedState _ bed _)

theorem upholds_xReleaseStrand (bed : Nat) (s : Plant) : Plant.Upholds ok s (xReleaseStrand bed s).2 := by
  unfold xReleaseStrand
  refine upholds_guard fun _ => upholds_guard fun _ => upholds_guard fun _ => upholds_guard fun _ => upholds_guard fun _ => ?_
  split
  · exact .refl s
  · split
    · exact .refl s
    · refine upholds_accept (.settle s ?_)
      refine Plant.Upholds.trans ?_ (upholds_sendIfChanged _ bed)
      exact (upholds_setBedState s bed _).trans
        (.updHeat _ bed (fun h => { h with requested := .off }.endRunning) fun h hd =>
          HeatRecord.due_endRunning (h := { h with requested := .off }) hd)

theorem upholds_xBedPriority (bed level : Nat) (s : Plant) : Plant.Upholds ok s (xBedPriority bed level s).2 := by
  unfold xBedPriority
  refine upholds_guard fun _ => upholds_guard fun _ => upholds_guard fun hl => upholds_accept (.settle s ?_)
  exact .updBed s bed _ (fun _ => rfl) fun _ hr => ⟨hr.1, Nat.not_le.mp hl⟩

theorem upholds_xHeatMode (bed mode : Nat) (s : Plant) : Plant.Upholds ok s (xHeatMode bed mode s).2 := by
  unfold xHeatMode
  refine upholds_guard fun _ => upholds_guard fun _ => ?_
  split
  · exact .refl s
  · refine upholds_guard fun _ => upholds_guard fun _ => upholds_guard fun _ => upholds_guard fun _ => upholds_accept ?_
    refine Plant.Upholds.trans ?_ (upholds_sendIfChanged _ bed)
    exact .updHeat s bed _ fun _ => HeatRecord.due_request _ _ _

theorem upholds_xLoadPlan (bed : Nat) (plan : List Segment) (s : Plant) : Plant.Upholds ok s (xLoadPlan bed plan s).2 := by
  unfold xLoadPlan
  exact upholds_guard fun _ => upholds_guard fun _ => upholds_guard fun _ => upholds_guard fun _ =>
    upholds_accept (.updHeat s bed _ fun _ => id)

theorem upholds_xSwapPlan (bed : Nat) (s : Plant) : Plant.Upholds ok s (xSwapPlan bed s).2 := by
  unfold xSwapPlan
  refine upholds_guard fun _ => upholds_guard fun _ => upholds_guard fun _ => upholds_accept ?_
  refine Plant.Upholds.trans ?_ (upholds_sendIfChanged _ bed)
  exact .updHeat s bed _ fun _ => HeatRecord.due_swap _

theorem upholds_xStopCure (bed : Nat) (s : Plant) : Plant.Upholds ok s (xStopCure bed s).2 := by
  unfold xStopCure
  refine upholds_guard fun _ => upholds_guard fun _ => upholds_guard fun _ => upholds_accept ?_
  refine Plant.Upholds.trans ?_ (upholds_forceOff _ bed)
  exact .updHeat s bed _ fun _ => id

/-! ## Stacks and lanes (R96, R103) -/

theorem upholds_setStackState (st : StackState) (stack : Nat) (s : Plant) :
    Plant.Upholds ok s (setStackState st stack s).2 := by
  unfold setStackState
  exact upholds_guard fun _ => upholds_guard fun _ => upholds_guard fun _ => upholds_accept
    (.settle s (.of_spares (.updStack_rest _ _ _ fun _ => rfl) id))

theorem upholds_xDrainLane (lane value : Nat) (s : Plant) : Plant.Upholds ok s (xDrainLane lane value s).2 := by
  unfold xDrainLane
  exact upholds_guard fun _ => upholds_guard fun _ => upholds_guard fun _ => upholds_guard fun _ => upholds_accept
    (.settle s (.of_spares (.updLane _ _ _ (fun _ h => LaneRecord.recompute_lt _ _ h) fun _ => rfl) id))

/-! ## Tickets (R117 to R120, R133, R149) -/

theorem upholds_xMove (h : Handle) (kind object level after dig : Nat) (s : Plant) :
    Plant.Upholds ok s (xMove h kind object level after dig s).2 := by
  unfold xMove
  refine upholds_guard fun _ => ?_
  split
  · exact .refl s
  · refine upholds_guard fun _ => ?_
    split
    · exact .refl s
    · rename_i slot hfree
      split
      · exact .refl s
      · refine upholds_guard fun hlevel => upholds_guard fun _ => upholds_guard fun _ => ?_
        split
        · exact .refl s
        · refine upholds_guard fun _ => upholds_accept (.settle s (.updYard ?_))
          exact .of_follows (spares_acceptMove _ _ _ _ _ _ _ _ hfree (Nat.not_le.mp fun h => hlevel (.inl h)))
            (follows_acceptMove _ _ _ _ _ _ _ _ _ hfree)

theorem upholds_xStripBed (bed level after : Nat) (s : Plant) : Plant.Upholds ok s (xStripBed bed level after s).2 := by
  unfold xStripBed
  refine upholds_guard fun _ => upholds_guard fun _ => upholds_guard fun hlevel => upholds_guard fun _ =>
    upholds_guard fun _ => upholds_guard fun _ => upholds_guard fun _ => ?_
  split
  · exact .refl s
  · rename_i y1 hy1
    refine upholds_accept (.settle s (.updYard ?_))
    exact .of_follows (spares_stripPositions _ _ (Nat.not_le.mp hlevel) _ _ _ hy1) (follows_stripPositions _ _ _ _ _ _ hy1)

theorem upholds_xCancelMove (h : Handle) (s : Plant) : Plant.Upholds ok s (xCancelMove h s).2 := by
  unfold xCancelMove
  refine upholds_guard fun _ => ?_
  split
  · exact .refl s
  · rename_i t ht
    refine upholds_guard fun _ => upholds_guard fun hmove => upholds_guard fun hend => upholds_accept (.settle s (.updYard ?_))
    refine keeps_cancelWaiting _ (Yard.ticket?_eq_some.1 ht).2 ?_
    cases hst : t.state <;> simp_all

theorem upholds_xParkCrane (crane bay level : Nat) (s : Plant) : Plant.Upholds ok s (xParkCrane crane bay level s).2 := by
  unfold xParkCrane
  refine upholds_guard fun _ => upholds_guard fun hrange => upholds_guard fun _ => upholds_guard fun _ => ?_
  split
  · exact .refl s
  · rename_i slot hfree
    refine upholds_accept (.settle s (.updYard ?_))
    refine .of_follows (spares_makePark _ _ _ _ _ hfree (Nat.not_le.mp fun h => hrange (.inr (.inr h)))) ?_
    exact (follows_placeTicket s.yard slot (.fresh .park none none (some (.bay bay)) level) hfree rfl).then_census
      (census_refreshTicket _ _ _)

/-! ## Dispatch orders (R176 to R187) -/

/-- R177, R178: pieces listed on a truck bay whose level stays in range, and the pick creation that follows. -/
theorem keeps_list (e : Site) (y : Yard) (n : Nat) (f : TruckRecord → TruckRecord) (hs : List Handle)
    (hl : ∀ r, r.level < 4 → (f r).level < 4) (hb : ∀ r, (f r).bay = r.bay) :
    Yard.Keeps e y (createPick e (listPieces (y.updTruck n f) hs (some n)) n) := by
  refine Yard.Keeps.trans ?_ (keeps_createPick e _ n)
  refine .of_follows ?_ (.of_census ((census_listPieces _ _ _).trans (census_updTruck _ _ _)))
  exact (Yard.Spares.updTruck y n f hl hb).trans (spares_listPieces _ _ _ _ _)

theorem upholds_xOpenOrder (truck level dig : Nat) (pieces : List Handle) (s : Plant) :
    Plant.Upholds ok s (xOpenOrder truck level dig pieces s).2 := by
  unfold xOpenOrder
  refine upholds_guard fun _ => upholds_guard fun hrange => upholds_guard fun _ => ?_
  split
  · exact .refl s
  · refine upholds_accept (.settle s (.updYard ?_))
    exact keeps_list _ _ _ _ _ (fun _ _ => Nat.not_le.mp fun h => hrange (.inr (.inl h))) fun _ => rfl

theorem upholds_xAddToOrder (truck : Nat) (pieces : List Handle) (s : Plant) :
    Plant.Upholds ok s (xAddToOrder truck pieces s).2 := by
  unfold xAddToOrder
  refine upholds_guard fun _ => upholds_guard fun _ => upholds_guard fun _ => upholds_guard fun _ => ?_
  split
  · exact .refl s
  · exact upholds_accept (.settle s (.updYard (keeps_list _ _ _ _ _ (fun _ h => h) fun _ => rfl)))

theorem upholds_xOrderLevel (truck level : Nat) (s : Plant) : Plant.Upholds ok s (xOrderLevel truck level s).2 := by
  unfold xOrderLevel
  refine upholds_guard fun _ => upholds_guard fun hrange => upholds_guard fun _ => upholds_accept (.settle s ?_)
  exact .of_spares (.updTruck _ truck _ (fun _ _ => Nat.not_le.mp fun h => hrange (.inr h)) fun _ => rfl) id

theorem upholds_xCancelOrder (truck : Nat) (s : Plant) : Plant.Upholds ok s (xCancelOrder truck s).2 := by
  unfold xCancelOrder
  exact upholds_guard fun _ => upholds_guard fun _ => upholds_guard fun _ => upholds_guard fun _ =>
    upholds_accept (.settle s (.updYard (keeps_cancelOrder _ _ _)))

theorem upholds_xShipOrder (truck : Nat) (s : Plant) : Plant.Upholds ok s (xShipOrder truck s).2 := by
  unfold xShipOrder
  refine upholds_guard fun _ => upholds_guard fun _ => upholds_guard fun _ => upholds_accept (.settle s ?_)
  exact (Plant.Upholds.forEach _ upholds_retire _ s).trans (.of_spares (.updTruck _ truck _ (fun _ h => h) fun _ => rfl) id)

/-! ## Cranes (R166 to R168) -/

/-- R168: the home bays stay in crane order. -/
theorem upholds_xConfigureCrane (crane bay : Nat) (s : Plant) : Plant.Upholds ok s (xConfigureCrane crane bay s).2 := by
  unfold xConfigureCrane
  refine upholds_guard fun hcrane => upholds_guard fun hbay => upholds_guard fun horder => upholds_guard fun _ =>
    upholds_accept ?_
  refine .updYard_ranged s (fun hp => ?_) fun e he => ?_
  · have h := hp.yard
    have hhome : ∀ j, ((s.yard.updCrane crane (fun c => { c with homeBay := bay })).crane j).homeBay
        = if j = crane then bay else (s.yard.crane j).homeBay := fun j => by
      refine (congrArg CraneRecord.homeBay (getOr_upd _ _ _ _ _ (Nat.not_le.mp hcrane))).trans ?_
      by_cases hj : crane = j
      · rw [if_pos hj, if_pos hj.symm]
      · rw [if_neg hj, if_neg (Ne.symm hj)]
        rfl
    refine ⟨h.lanes, h.trucks, h.tickets,
      forall_getOr_upd (P := CraneRecord.inRange s.isClosed) s.yard.cranes crane _ _ id h.cranes, ?_⟩
    obtain ⟨h01, h12⟩ := Decidable.not_not.mp horder
    rw [hhome, hhome, hhome]
    refine ⟨h01, h12, ?_⟩
    split
    · exact Nat.not_le.mp hbay
    · exact h.homes.2.2
  · exact .of_follows (.updCrane_ranged _ crane _ (fun hi => absurd hi he) (fun h => h) (.inr rfl))
      (.of_census (census_updCrane _ _ _))

theorem upholds_xHomeCrane (crane : Nat) (s : Plant) : Plant.Upholds ok s (xHomeCrane crane s).2 := by
  unfold xHomeCrane
  refine upholds_guard fun _ => upholds_guard fun hcrane => upholds_guard fun _ => upholds_guard fun hst =>
    upholds_accept (.settle s (.updYard ?_))
  refine keeps_startHoming _ (Nat.not_le.mp hcrane) ?_
  by_contra h
  exact hst (not_or.mp h)

theorem upholds_xClearCrane (crane : Nat) (s : Plant) : Plant.Upholds ok s (xClearCrane crane s).2 := by
  unfold xClearCrane
  exact upholds_guard fun _ => upholds_guard fun hcrane => upholds_guard fun hst =>
    upholds_accept (.settleClaim (.updYard (keeps_clearCrane _ (Nat.not_le.mp hcrane) (Decidable.not_not.mp hst))))

/-! ## Works Control (R194, R196 to R198, R210) -/

/-- R194: the works opened: the clock starts and the timer events may become due. -/
theorem upholds_openWorks (s : Plant) (hc : s.isClosed = true) : Plant.Upholds ok s (openWorks s) := by
  unfold openWorks
  refine Plant.Upholds.trans ?_ (.forEach _ upholds_sendOrder _ _)
  refine Plant.Upholds.trans ?_ (.forEach _ (fun p b => ?_) _ _)
  · refine .of_yard rfl (fun _ => rfl) (fun _ => rfl) fun h => ?_
    rw [hc] at h
    exact ⟨h.settings, Nat.zero_le _, h.beds, h.lines, fun b => ⟨(h.intakes b).1, fun hq => (by cases hq)⟩,
      fun b hq => (by cases hq), ⟨h.yard.lanes, h.yard.trucks, h.yard.tickets,
        fun k => ⟨(h.yard.cranes k).1,
          fun m hm => ⟨((h.yard.cranes k).2 m hm).1, fun hq => (by cases hq)⟩⟩, h.yard.homes⟩⟩
  · unfold openBed
    refine Plant.Upholds.trans (.updIntake p b _ fun _ _ hr => ?_) (.updHeat _ b _ fun _ => HeatRecord.due_openWorks _)
    exact ⟨⟨Nat.zero_le 90, fun _ => (by decide : (0 : Nat) < 90)⟩, hr.2⟩

theorem upholds_xOpenWorks (s : Plant) : Plant.Upholds ok s (xOpenWorks s).2 := by
  unfold xOpenWorks
  exact upholds_unless fun hc => upholds_accept (upholds_openWorks s hc)

theorem upholds_xSettings (st : Settings) (s : Plant) : Plant.Upholds ok s (xSettings st s).2 := by
  unfold xSettings
  exact upholds_unless fun hset => upholds_accept (upholds_writeSettings s hset)

theorem upholds_xLockSettings (value : Nat) (s : Plant) : Plant.Upholds ok s (xLockSettings value s).2 := by
  unfold xLockSettings
  exact upholds_unless fun _ => upholds_accept (.of_works s _ rfl (.inr rfl) id)

/-- R210: the ticket that SENSE reports is a finished one. -/
theorem upholds_xSense (s : Plant) : Plant.Upholds ok s (xSense s).2 := by
  unfold xSense
  split
  · rename_i slot rest hfin
    refine upholds_accept (.settle s (.updYard (keeps_freeFinished fun hq u hu => ?_)))
    have hmem : slot ∈ s.yard.finished := by
      rw [hfin]
      exact List.mem_cons_self
    obtain ⟨t, ht, hact⟩ := (hq.2.2.2 slot).1 hmem
    obtain rfl := Option.some.inj (ht.symm.trans hu)
    exact hact
  · split
    · exact upholds_accept (upholds_latchBed s _ _)
    · split
      · exact upholds_accept (.of_spares (.updCrane _ _ _ (fun _ _ h => h) (fun h => h) (fun _ => rfl) (.inr rfl)) id)
      · split
        · exact upholds_accept (.of_spares (.updTruck _ _ _ (fun _ h => h) fun _ => rfl) id)
        · exact .refl s

theorem upholds_restoreBed (st : BedState) (bed maturity segment minutes : Nat) (holds : List Nat) (entries : List MarkWord)
    (s : Plant) : Plant.Upholds ok s (restoreBed st bed maturity segment minutes holds entries s) := by
  have hbed : Plant.Upholds ok s (s.updBed bed (fun b => { b with state := st, maturity := maturity })) :=
    .updBed_rest s bed _ fun _ => rfl
  unfold restoreBed
  dsimp only
  split
  · exact (hbed.trans (upholds_fillPositions _ _ _ _ _)).trans (.updHeat _ bed _ fun _ => HeatRecord.due_restore _ _)
  · exact hbed.trans (upholds_fillPositions _ _ _ _ _)

theorem upholds_xRestoreBed (state bed maturity segment minutes : Nat) (holds : List Nat) (entries : List MarkWord)
    (s : Plant) : Plant.Upholds ok s (xRestoreBed state bed maturity segment minutes holds entries s).2 := by
  unfold xRestoreBed
  refine upholds_guard fun _ => upholds_guard fun _ => ?_
  split
  · exact .refl s
  · refine upholds_guard fun _ => upholds_guardWith fun _ => ?_
    split
    · exact .refl s
    · refine upholds_guard fun _ => upholds_guard fun _ => upholds_guard fun _ => ?_
      split
      · exact .refl s
      · refine upholds_guard fun _ => ?_
        split
        · exact .refl s
        · exact upholds_accept (upholds_restoreBed _ _ _ _ _ _ _ s)

/-- R198: a restored piece put in its holder. -/
theorem spares_restoreInto (e e' : Site) (y : Yard) (h : Handle) (d : Dest) : Yard.Spares e 3 24 y (restoreInto e' y h d) := by
  unfold restoreInto
  cases d with
  | lane l => exact spares_setLanePieces _ _ _ _
  | stack i => exact spares_pushStack _ _ _
  | truck t => exact .refl e 3 24 y
  | bay b => exact .refl e 3 24 y

theorem upholds_xRestorePiece (m : MarkWord) (maturity holds kind object : Nat) (s : Plant) :
    Plant.Upholds ok s (xRestorePiece m maturity holds kind object s).2 := by
  unfold xRestorePiece
  refine upholds_guard fun _ => ?_
  split
  · exact .refl s
  · rename_i d _
    refine upholds_guard fun _ => ?_
    split
    · exact .refl s
    · refine upholds_guard fun _ => upholds_guard fun _ => upholds_guard fun _ => ?_
      dsimp only
      split
      · rename_i h s1 heq
        have hs1 : Plant.Upholds ok s s1 := by
          rw [← show (allocate s _).2 = s1 from congrArg Prod.snd heq]
          exact upholds_allocate s _
        refine upholds_accept (hs1.trans (.of_spares (spares_restoreInto _ _ _ _ _) fun hq => ?_))
        have hc : (restoreInto s1.site s1.yard h d).census = s1.yard.census := by cases d <;> rfl
        exact (Yard.Follows.of_census hc).queue hq
      · exact .refl s

/-! ## Commands that read -/

theorem upholds_xLookupMark (m : MarkWord) (s : Plant) : Plant.Upholds ok s (xLookupMark m s).2 := by
  unfold xLookupMark
  refine upholds_guard fun _ => ?_
  split <;> exact .refl s

theorem upholds_xReadPiece (h : Handle) (s : Plant) : Plant.Upholds ok s (xReadPiece h s).2 := by
  unfold xReadPiece
  split <;> exact .refl s

theorem upholds_xReadMove (h : Handle) (s : Plant) : Plant.Upholds ok s (xReadMove h s).2 := by
  unfold xReadMove
  split <;> exact .refl s

end

/-- R206, R208: every command keeps the ranges and the work under way; one that writes the bay of an object keeps the claims
holding their bays where no ticket under way names the object. -/
theorem upholds_runCommand (c : Command) (s : Plant) : Plant.Upholds (s.freeFor c) s (runCommand c s).2 := by
  cases c with
  -- the commands that write a bay
  | configureBed => exact upholds_xConfigureBed _ _ _ _ s
  | defineStack => exact upholds_xDefineStack _ _ _ _ _ s
  | defineLane => exact upholds_xDefineLane _ _ _ s
  | defineTruckBay => exact upholds_xDefineTruckBay _ _ _ s
  -- the commands that read, and a FIND that is refused
  | readWorks | readSettings | find => exact .refl s
  | lookupMark => exact upholds_xLookupMark _ s
  | readPiece => exact upholds_xReadPiece _ s
  | readMove => exact upholds_xReadMove _ s
  | readClass | readBed | readPlan | readIntake | readStack | readLane | readCrane | readOrder =>
    exact upholds_guard fun _ => .refl s
  -- the others
  | openWorks => exact upholds_xOpenWorks s
  | settings => exact upholds_xSettings _ s
  | lockSettings => exact upholds_xLockSettings _ s
  | sense => exact upholds_xSense s
  | restoreBed => exact upholds_xRestoreBed _ _ _ _ _ _ _ s
  | restorePiece => exact upholds_xRestorePiece _ _ _ _ _ s
  | defineClass => exact upholds_xDefineClass _ _ _ _ _ _ s
  | hold => exact upholds_xHold _ _ s
  | releaseHold => exact upholds_xReleaseHold _ _ s
  | scrapPiece => exact upholds_xScrapPiece _ s
  | prepareBed => exact upholds_xPrepareBed _ s
  | abandonBed => exact upholds_xAbandonBed _ s
  | cast => exact upholds_xCast _ _ s
  | startCure => exact upholds_xStartCure _ s
  | releaseStrand => exact upholds_xReleaseStrand _ s
  | scrapBed => exact upholds_xScrapBed _ s
  | bedPriority => exact upholds_xBedPriority _ _ s
  | heatMode => exact upholds_xHeatMode _ _ s
  | loadPlan => exact upholds_xLoadPlan _ _ s
  | swapPlan => exact upholds_xSwapPlan _ s
  | stopCure => exact upholds_xStopCure _ s
  | closeStack => exact upholds_setStackState _ _ s
  | openStack => exact upholds_setStackState _ _ s
  | drainLane => exact upholds_xDrainLane _ _ s
  | move => exact upholds_xMove _ _ _ _ _ _ s
  | stripBed => exact upholds_xStripBed _ _ _ s
  | cancelMove => exact upholds_xCancelMove _ s
  | parkCrane => exact upholds_xParkCrane _ _ _ s
  | configureCrane => exact upholds_xConfigureCrane _ _ s
  | homeCrane => exact upholds_xHomeCrane _ s
  | clearCrane => exact upholds_xClearCrane _ s
  | openOrder => exact upholds_xOpenOrder _ _ _ _ s
  | addToOrder => exact upholds_xAddToOrder _ _ s
  | orderLevel => exact upholds_xOrderLevel _ _ s
  | cancelOrder => exact upholds_xCancelOrder _ s
  | shipOrder => exact upholds_xShipOrder _ s

end Sys2Proof.Machine
end

