-- ==== Sys2Proof/Proofs/UpholdingPort.lean ====
section
/-! PROOF. The Command Port runs entries of its queue, and none that was not there: where none of them writes a bay, its work
keeps the claims holding the bays of the work under way (R205 to R209). -/

namespace Sys2Proof.Machine

/-! ## Entries that write no bay -/

/-- The command of the entry, if it has one, writes no bay that a ticket can name. -/
def Entry.bayless (e : Entry) : Prop := ∀ c, e.cmd = some c → ∀ u, ¬writesBayOf u c

/-- No entry of the command queue writes a bay. -/
def Port.bayless (p : Port) : Prop := ∀ e ∈ p.commandQueue, e.bayless

theorem Entry.bayless.of_cmd {e e' : Entry} (h : e.bayless) (hc : e'.cmd = e.cmd) : e'.bayless := by
  unfold Entry.bayless
  rwa [hc]

theorem Port.bayless_modify {q : List Entry} (i : Nat) (f : Entry → Entry) (hf : ∀ e, (f e).cmd = e.cmd)
    (h : ∀ e ∈ q, e.bayless) : ∀ e ∈ q.modify i f, e.bayless := by
  intro e he
  obtain ⟨j, hj, rfl⟩ := List.mem_iff_getElem.1 he
  rw [List.getElem_modify]
  rw [List.length_modify] at hj
  split
  · exact (h _ (List.getElem_mem hj)).of_cmd (hf _)
  · exact h _ (List.getElem_mem hj)

theorem Port.bayless_complete {p : Port} (i : Nat) (r : Reply) (h : p.bayless) : (complete p i r).bayless :=
  Port.bayless_modify i _ (fun _ => rfl) h

theorem Entry.cmd_advance (e : Entry) : e.advance.cmd = e.cmd := by
  unfold Entry.advance
  split <;> rfl

theorem Port.bayless_postOne {p : Port} (h : p.bayless) : (postOne p).bayless := by
  unfold postOne
  split
  · split
    · intro e he
      obtain ⟨e0, he0, rfl⟩ := List.mem_map.1 he
      exact (h e0 (List.mem_of_mem_filter he0)).of_cmd e0.cmd_advance
    · exact h
  · exact h

theorem Port.bayless_postAll (n : Nat) {p : Port} (h : p.bayless) : (postAll n p).bayless := by
  induction n generalizing p with
  | zero => exact h
  | succ n ih => exact ih (Port.bayless_postOne h)

theorem bayless_startEntry {s : State} (i : Nat) (h : s.port.bayless) : (startEntry s i).port.bayless := by
  unfold startEntry
  split
  · exact h
  · split
    · exact Port.bayless_complete i _ h
    · unfold startFind
      split
      · exact Port.bayless_modify i _ (fun _ => rfl) h
      · exact Port.bayless_complete i _ h
    · exact Port.bayless_complete i _ h

/-! ## What the port keeps -/

section
variable {ok : Prop}

theorem upholds_startEntry (s : State) (i : Nat) (h : ok → s.port.bayless) :
    Plant.Upholds ok s.plant (startEntry s i).plant := by
  unfold startEntry
  split
  · exact .refl _
  · rename_i e he
    split
    · exact .refl _
    · unfold startFind
      split <;> exact .refl _
    · rename_i c _ hc
      have hfree : ok → s.plant.freeFor c := fun hok => by
        intro slot u _ _
        exact h hok e (List.mem_of_getElem? he) c hc u
      exact (upholds_runCommand c s.plant).weaken hfree

theorem upholds_settlePort (n : Nat) (s : State) (h : ok → s.port.bayless) :
    Plant.Upholds ok s.plant (settlePort n s).plant := by
  induction n generalizing s with
  | zero => exact .refl _
  | succ n ih =>
    unfold settlePort
    dsimp only
    have hpost : ok → (postAll 8 s.port).bayless := fun hok => Port.bayless_postAll 8 (h hok)
    generalize postAll 8 s.port = p at hpost ⊢
    split
    · rename_i i _
      have hstart : Plant.Upholds ok s.plant (startEntry { s with port := p } i).plant :=
        upholds_startEntry { s with port := p } i hpost
      exact hstart.trans (ih _ fun hok => bayless_startEntry i (hpost hok))
    · exact .refl s.plant

theorem upholds_runPort (s : State) (p : Port) (h : ok → p.bayless) :
    Plant.Upholds ok s.plant (State.runPort { s with port := p }).plant := upholds_settlePort 9 { s with port := p } h

theorem upholds_deliver (e : Entry) (s : State) (h : ok → s.port.bayless) (he : ok → e.bayless) :
    Plant.Upholds ok s.plant (deliver e s).plant := by
  unfold deliver
  split
  · exact .refl s.plant
  · refine upholds_runPort s _ fun hok e' he' => ?_
    rcases List.mem_append.1 he' with hm | hm
    · exact h hok e' hm
    · obtain rfl := List.mem_singleton.1 hm
      exact he hok

theorem upholds_examineSlot (s : State) (h : ok → s.port.bayless) : Plant.Upholds ok s.plant (examineSlot s).plant := by
  unfold examineSlot
  split
  · exact .refl _
  · dsimp only
    split
    · unfold endScan
      exact upholds_runPort s _ fun hok => Port.bayless_complete (p := { s.port with scan := none }) _ _ (h hok)
    · exact .refl s.plant

theorem upholds_writeFrame (bytes : List Byte) (s : State) (h : ok → s.port.bayless) (he : ok → (entryOf bytes).bayless) :
    Plant.Upholds ok s.plant (writeFrame bytes s).plant := by
  unfold writeFrame
  dsimp only
  split
  · exact upholds_deliver (entryOf bytes) (s.setOut (s.statusByte :: bytes.map (fun _ => 0))) h he
  · exact .refl s.plant

theorem upholds_readResult (clocked : Nat) (s : State) (h : ok → s.port.bayless) :
    Plant.Upholds ok s.plant (readResult clocked s).plant := by
  unfold readResult
  dsimp only
  split
  · split
    · exact upholds_runPort (s.setOut _) _ h
    · exact .refl s.plant
  · exact .refl s.plant

theorem upholds_bareTransfer (b : Byte) (s : State) (h : ok → s.port.bayless) :
    Plant.Upholds ok s.plant (bareTransfer b s).plant := by
  unfold bareTransfer
  split
  · exact upholds_writeFrame [] s h fun _ c hc => (by cases hc)
  · split
    · exact upholds_readResult 0 s h
    · split <;> exact .refl s.plant

end

end Sys2Proof.Machine
end

