-- ==== Sys2Proof/Proofs/Advancing.lean ====
section
/-! PROOF. Crane reports, power-on, and the rows of the table: every step keeps the ranges, the order of the claims and the work
under way (R25, R67, R113, R138, R143, R151 to R155, R168, R191). -/

namespace Sys2Proof.Machine

/-! ## What a step keeps -/

/-- A change of the plant that keeps what `Plant.Upholds` says, the order of the claims in a state in which each claim holds the
bays to which a report on the crane's work can shrink it. -/
structure Plant.Advances (ok : Prop) (p p' : Plant) : Prop where
  range   : p.ranged p.isClosed → p'.ranged p'.isClosed
  locks   : (∀ i, (p.yard.stack i).locked) → ∀ i, (p'.yard.stack i).locked
  cranes  : (∀ k, (p.yard.crane k).lawful) → ∀ k, (p'.yard.crane k).lawful
  apart   : p.yard.covered p.site → p.yard.claimsApart → p'.yard.claimsApart
  ordered : p.yard.covered p.site → p.yard.claim 1 ≠ none → p.yard.claimsOrdered → p'.yard.claimsOrdered
  queue   : p.yard.queueOk → p'.yard.queueOk
  serves  : p.yard.queueOk → p.yard.serves → p'.yard.serves
  covered : ok → p.yard.queueOk → p.yard.serves → p.yard.covered p.site → p'.yard.covered p'.site

section
variable {ok : Prop} {p p' p'' : Plant}

theorem Plant.Upholds.advances (h : Plant.Upholds ok p p') : Plant.Advances ok p p' :=
  ⟨h.range, h.locks, h.cranes, fun _ => h.apart, fun _ _ => h.ordered, h.queue, h.serves, h.covered⟩

theorem Plant.Advances.refl (p : Plant) : Plant.Advances ok p p := (Plant.Upholds.refl p).advances

theorem Plant.Advances.upholds (h : Plant.Advances ok p p') (k : Plant.Upholds ok p' p'') : Plant.Advances ok p p'' where
  range hr := k.range (h.range hr)
  locks hl := k.locks (h.locks hl)
  cranes hc := k.cranes (h.cranes hc)
  apart hc ha := k.apart (h.apart hc ha)
  ordered hc h1 ho := k.ordered (h.ordered hc h1 ho)
  queue hq := k.queue (h.queue hq)
  serves hq hs := k.serves (h.queue hq) (h.serves hq hs)
  covered hok hq hs hc := k.covered hok (h.queue hq) (h.serves hq hs) (h.covered hok hq hs hc)

theorem Plant.Advances.settle (s0 : Plant) (h : Plant.Advances ok p p') : Plant.Advances ok p (s0.settle p') :=
  h.upholds (.updYard (keeps_settle _ _ _))

theorem Plant.Advances.settleClaim (h : Plant.Advances ok p p') : Plant.Advances ok p p'.settleClaim :=
  h.upholds (.updYard (keeps_settleClaim _ _))

/-- A report on the work of a crane, with a change of the beds that leaves the yard and the bays as they are. -/
theorem Plant.Advances.of_reports {f : Yard → Yard} (hp : Plant.Upholds ok p p') (hy : p'.yard = p.yard)
    (hb : ∀ b, (p'.bed b).bay = (p.bed b).bay) (h : Yard.Reports p.site p.yard (f p.yard)) :
    Plant.Advances ok p (p'.updYard f) := by
  rw [← hy] at h
  refine ⟨fun hr => ?_, by rw [← hy]; exact h.locks, by rw [← hy]; exact h.cranes, by rw [← hy]; exact h.apart,
    by rw [← hy]; exact h.ordered, by rw [← hy]; exact h.queue, by rw [← hy]; exact h.serves, fun _ hq hs hc => ?_⟩
  · have hr' := hp.range hr
    exact ⟨hr'.settings, hr'.clock, hr'.beds, hr'.lines, hr'.intakes, hr'.heats, h.range hr.site _ hr'.yard⟩
  · rw [← hy] at hq hs hc
    exact (h.covered hq hs hc).site hb

theorem Plant.Advances.updYard {f : Yard → Yard} (h : Yard.Reports p.site p.yard (f p.yard)) :
    Plant.Advances ok p (p.updYard f) := .of_reports (.refl p) rfl (fun _ => rfl) h

end

/-! ## Crane reports (R158 to R164) -/

section
variable {ok : Prop} (p : Plant) (k : Nat)

/-- R158: a report that does not fit latches PROTOCOL. -/
theorem upholds_notFitting : Plant.Upholds ok p (notFitting p k) :=
  .of_spares (.updCrane p.yard k CraneRecord.latchProtocol (fun _ _ h => h) (fun h => h) (fun _ => rfl) (.inr rfl)) id

theorem matchStage_eq_some {y : Yard} {seq : Nat} {o : StageOrder} (h : matchStage y k seq = some o) :
    (y.crane k).stage = some o := by
  unfold matchStage at h
  split at h
  · split at h
    · obtain rfl := Option.some.inj h
      assumption
    · cases h
  · cases h

theorem advances_takeArrived (seq : Nat) : Plant.Advances ok p (takeArrived p k seq) := by
  unfold takeArrived
  split
  · exact .refl p
  · split
    · exact .refl p
    · rename_i o ho
      split
      · rename_i slot t ht
        split
        · rename_i hfits
          exact .settle p (.updYard (reports_arrivedEffect ht (matchStage_eq_some k ho) hfits))
        · exact (upholds_notFitting p k).advances
      · exact (upholds_notFitting p k).advances

/-- R36: a lift from a bed changes nothing of the yard and no bay. -/
theorem emptyBed_rest (src : Location) :
    Plant.Upholds ok p (emptyBed p src) ∧ (emptyBed p src).yard = p.yard
      ∧ ∀ b, ((emptyBed p src).bed b).bay = (p.bed b).bay := by
  unfold emptyBed
  split
  · rename_i b i _
    refine ⟨upholds_liftFromBed p b i, (sendIfChanged_onlyBed _ b).2.2.2.2.1, fun j => ?_⟩
    unfold Plant.bed liftFromBed
    rw [sendIfChanged_beds]
    exact proj_getOr_upd BedRecord.bay p.beds b _ _ rfl j
  · exact ⟨.refl p, rfl, fun _ => rfl⟩

variable {p k} in
/-- R129, R130: a good lift, and one that fails its weight check. -/
theorem advances_liftedEffect {slot weight : Nat} {t : Ticket} {pc : Handle} {src : Location} {o : StageOrder}
    (ht : currentTicket p.yard k = some (slot, t)) (ho : (p.yard.crane k).stage = some o)
    (hfits : liftedFits p.yard k o t = true) (hsrc : t.source = some src) :
    Plant.Advances ok p (liftedEffect p k slot weight t pc src) := by
  unfold liftedEffect
  split
  · obtain ⟨hempty, hyard, hbay⟩ := emptyBed_rest (ok := ok) p src
    exact .of_reports hempty hyard hbay (reports_liftPassed ht ho hfits hsrc)
  · exact .updYard (reports_liftFailed ht (liftedFits_iff hfits).2.1 hsrc)

theorem advances_takeLifted (seq weight : Nat) : Plant.Advances ok p (takeLifted p k seq weight) := by
  unfold takeLifted
  split
  · exact .refl p
  · split
    · exact .refl p
    · rename_i o ho
      split
      · rename_i slot t ht
        split
        · rename_i hfits
          split
          · rename_i hsrc
            exact .settle p (advances_liftedEffect ht (matchStage_eq_some k ho) hfits hsrc)
          · exact (upholds_notFitting p k).advances
        · exact (upholds_notFitting p k).advances
      · exact (upholds_notFitting p k).advances

theorem advances_takeLowered (seq : Nat) : Plant.Advances ok p (takeLowered p k seq) := by
  unfold takeLowered
  split
  · exact .refl p
  · split
    · exact .refl p
    · split
      · rename_i slot t ht
        split
        · rename_i hfits
          exact .settle p (.updYard (reports_loweredEffect ht hfits))
        · exact (upholds_notFitting p k).advances
      · exact (upholds_notFitting p k).advances

/-- R158: a STOPPED with the sequence number of the crane's stop order comes from one of the three cranes. -/
theorem advances_takeStopped (seq bay : Nat) : Plant.Advances ok p (takeStopped p k seq bay) := by
  unfold takeStopped
  split
  · exact .refl p
  · split
    · exact (upholds_notFitting p k).advances
    · split
      · exact .refl p
      · rename_i hstop
        have hk : k < 3 := by
          by_contra hk
          rw [Yard.crane_ge _ (Nat.not_lt.mp hk)] at hstop
          exact hstop (Option.some_ne_none seq).symm
        split
        · rename_i hfits
          exact .settleClaim (.updYard (reports_stoppedEffect _ hk hfits))
        · exact (upholds_notFitting p k).advances

theorem advances_takeHomed (seq bay : Nat) : Plant.Advances ok p (takeHomed p k seq bay) := by
  unfold takeHomed
  split
  · exact .refl p
  · split
    · exact (upholds_notFitting p k).advances
    · split
      · exact .refl p
      · split
        · rename_i hfits
          have hst : (p.yard.crane k).state = .homing := by
            simp only [homedFits, Bool.and_eq_true, decide_eq_true_eq] at hfits
            exact hfits.2
          exact .settleClaim (.updYard (reports_homedEffect _ hst))
        · exact (upholds_notFitting p k).advances

theorem upholds_takeFault (code bay : Nat) : Plant.Upholds ok p (takeFault p k code bay) := by
  unfold takeFault
  split
  · exact .refl p
  · split
    · exact upholds_notFitting p k
    · exact .settleFault p k (.updYard (keeps_faultReport _ _ _ _ _))

theorem advances_takeCraneBytes (bytes : List Byte) : Plant.Advances ok p (takeCraneBytes p k bytes) := by
  unfold takeCraneBytes
  split
  · exact .refl p
  · split
    · exact .refl p
    · exact advances_takeArrived _ _ _
    · exact advances_takeLifted _ _ _ _
    · exact advances_takeLowered _ _ _
    · exact advances_takeStopped _ _ _ _
    · exact advances_takeHomed _ _ _ _
    · exact (upholds_takeFault _ _ _ _).advances
    · split
      · split
        · exact (upholds_notFitting p k).advances
        · exact .refl p
      · exact (upholds_notFitting p k).advances

/-- R157: the crane link goes on to its next frame. -/
theorem upholds_releaseLink (f : CraneLine → CraneLine) : Plant.Upholds ok p (p.updYard (fun y => y.updLink k f)) :=
  .of_spares (.of_rest _ _ _ _ _) id

end

/-! ## The rows (R25, R191) -/

/-- R25, R191: power-on leaves a plant in which everything holds. -/
theorem advances_powerOn {ok : Prop} (p : Plant) (stop : Bool) : Plant.Advances ok p (Plant.powerOn stop) := by
  obtain ⟨-, -, hrange, hdig, hcrane, hqueue, -, -, -, hserves, hordered, hapart, hcovers⟩ :=
    lawful_of_powerOn stop { State.reset with plant := Plant.powerOn stop, port := .reset } rfl rfl
  exact ⟨fun _ => (rangeInv_iff _).1 hrange, fun _ => hdig, fun _ => hcrane, fun _ _ => hapart, fun _ _ _ => hordered,
    fun _ => hqueue, fun _ _ => hserves, fun _ _ _ _ => hcovers⟩

/-- No command that may start with this row at the front writes a bay. -/
def State.bayless (s : State) (i : Instr) : Prop := s.port.bayless ∧ ∀ c, commandOf i = some c → ∀ u, ¬writesBayOf u c

section
variable {ok : Prop} {s t : State}

theorem Plant.Advances.next {t' : State} (h : Host.Outcome.next t' = (.next t : Host.Outcome State Fault Refusal))
    (k : Plant.Advances ok s.plant t'.plant) : Plant.Advances ok s.plant t.plant := by
  obtain rfl := Host.Outcome.next.inj h
  exact k

theorem Plant.Upholds.next {t' : State} (h : Host.Outcome.next t' = (.next t : Host.Outcome State Fault Refusal))
    (k : Plant.Upholds ok s.plant t'.plant) : Plant.Advances ok s.plant t.plant := by
  obtain rfl := Host.Outcome.next.inj h
  exact k.advances

/-- A timer row takes the event of its record or does nothing. -/
theorem upholds_timerRow (fires : Bool) {f : Plant → Plant} (h : Plant.Upholds ok s.plant (f s.plant)) :
    Plant.Upholds ok s.plant (s.timerRow fires f).plant := by
  rcases s.timerRow_cases fires f with ⟨heq, -⟩ | ⟨heq, -⟩ <;> rw [heq]
  · exact h
  · exact .refl _

/-- A transfer has no effect while the port reset line is held low (R214). -/
theorem upholds_unlessLow (low : Bool) (h : Plant.Upholds ok s.plant t.plant) :
    Plant.Upholds ok s.plant (if low then s else t).plant := by
  cases low
  · exact h
  · exact .refl _

theorem advances_command {i : Instr} {hd : Header} {c : Command} (hi : i.command? = some (hd, c))
    (hcmd : ∀ low bs, i ≠ .writeFrame low bs) (h : exec i s = .next t) : Plant.Advances (s.bayless i) s.plant t.plant := by
  have hof : commandOf i = some c := by
    unfold commandOf
    split
    · exact absurd rfl (hcmd _ _)
    · rw [hi]
      rfl
  rw [exec_command i hd c s hi] at h
  refine Plant.Upholds.next h (upholds_deliver (entryFor hd c) s (fun hok => hok.1) fun hok c' hc' => ?_)
  obtain rfl := Option.some.inj hc'
  exact hok.2 c hof

/-- Every row of the table. -/
theorem advances_exec (i : Instr) (s t : State) (h : exec i s = .next t) :
    Plant.Advances (s.bayless i) s.plant t.plant := by
  cases i with
  | powerOn stop => exact .next h (advances_powerOn s.plant stop)
  | portReset => exact Plant.Upholds.next h (upholds_resetSettings s.plant)
  | plantStopAsserted => exact Plant.Upholds.next h (upholds_assertStop s.plant)
  | plantStopReleased => exact Plant.Upholds.next h (upholds_releaseStop s.plant _)
  | worksClockAdvance => exact Plant.Upholds.next h (upholds_advanceClock s)
  | transitionEnd b => exact Plant.Upholds.next h (upholds_timerRow _ (upholds_heatTick _ _))
  | segmentEnd b => exact Plant.Upholds.next h (upholds_timerRow _ (upholds_heatTick _ _))
  | gapExpiry b => exact Plant.Upholds.next h (upholds_timerRow _ (upholds_intakeTick _ _))
  | lostExpiry b => exact Plant.Upholds.next h (upholds_timerRow _ (upholds_intakeTick _ _))
  | stageTimeout k => exact Plant.Upholds.next h (upholds_timerRow _ (upholds_craneExpires _ _))
  | homingTimeout k => exact Plant.Upholds.next h (upholds_timerRow _ (upholds_craneExpires _ _))
  | sample b q x st => exact Plant.Upholds.next h (upholds_takeSample _ _ _ _ _)
  | bedLineMessageDropped b bs => exact Plant.Upholds.next h (upholds_takeBedBytes _ _ _)
  | heatOrderWrite b => exact Plant.Upholds.next h (.updBedLine _ _ _ BedLine.heatCount_release)
  | craneOrderWrite k => exact Plant.Upholds.next h (upholds_releaseLink _ _ _)
  | arrived k q => exact .next h (advances_takeArrived _ _ _)
  | lifted k q w => exact .next h (advances_takeLifted _ _ _ _)
  | lowered k q => exact .next h (advances_takeLowered _ _ _)
  | stopped k q bay => exact .next h (advances_takeStopped _ _ _ _)
  | homed k q bay => exact .next h (advances_takeHomed _ _ _ _)
  | fault k q c bay => exact Plant.Upholds.next h (upholds_takeFault _ _ _ _)
  | craneMessageDropped k bs => exact .next h (advances_takeCraneBytes _ _ _)
  | writeFrame low bs =>
    exact Plant.Upholds.next h (upholds_unlessLow low (upholds_writeFrame bs s (fun hok => hok.1) fun hok => hok.2))
  | readResult low n => exact Plant.Upholds.next h (upholds_unlessLow low (upholds_readResult n s fun hok => hok.1))
  | readStatus low n => exact Plant.Upholds.next h (upholds_unlessLow low (.refl _))
  | unknownTypeByte low b => exact Plant.Upholds.next h (upholds_unlessLow low (upholds_bareTransfer b s fun hok => hok.1))
  | invalidCommand hd c =>
    exact Plant.Upholds.next h (upholds_deliver _ s (fun hok => hok.1) fun _ _ hc => (by cases hc))
  | scanExamine => exact Plant.Upholds.next h (upholds_examineSlot s fun hok => hok.1)
  -- every other row is a command
  | _ => exact advances_command rfl (fun _ _ => Instr.noConfusion) h

/-- Every step: the row at the front of those that wait, or the taking of a due timer event. -/
theorem advances_step (s t : State) (h : step s = .next t) :
    Plant.Advances (∀ c, s.mayStart c → ∀ u, ¬writesBayOf u c) s.plant t.plant := by
  have hport : (∀ c, s.mayStart c → ∀ u, ¬writesBayOf u c) → s.port.bayless := fun hok e he c hc =>
    hok c (.inr ⟨e, he, hc⟩)
  unfold step at h
  split at h
  · rename_i i rest hpend
    have hexec := advances_exec i { s with pending := rest } t h
    exact { hexec with covered := fun hok => hexec.covered ⟨hport hok, fun c hc => hok c (.inl ⟨i, rest, hpend, hc⟩)⟩ }
  · refine Plant.Upholds.next h ?_
    unfold idle
    split
    · exact .refl _
    · rename_i ho
      exact upholds_takeDue s (Bool.eq_false_iff.2 ho)

/-- At a ready port a command that no ticket under way stands against. -/
theorem upholds_ready {i : Instr} {hd : Header} {c : Command} (hi : i.command? = some (hd, c)) (hs : s.ready)
    (h : exec i s = .next t) : Plant.Upholds (s.plant.freeFor c) s.plant t.plant := by
  rw [exec_command i hd c s hi] at h
  obtain rfl := Host.Outcome.next.inj h
  by_cases hfind : ∃ q, c = .find q
  · obtain ⟨q, rfl⟩ := hfind
    refine upholds_deliver _ s (fun _ e he => ?_) fun _ c' hc' => ?_
    · rw [hs.1] at he
      cases he
    · obtain rfl := Option.some.inj hc'
      exact fun _ => id
  · rw [give_ready hd c s hs fun q hq => hfind ⟨q, hq⟩]
    exact upholds_runCommand c s.plant

end

/-- Settles O59: each step is a change that keeps the ranges, the order of the claims and the work under way, by the operations
it is made of. -/
theorem stepsKeepTheRanges : Obligations.StepsKeepTheRanges := by
  refine ⟨fun s t h hr => ?_, fun s t h => (advances_step s t h).locks, fun s t h => (advances_step s t h).cranes,
    fun s t h hc => ⟨(advances_step s t h).apart hc, fun ho h1 => (advances_step s t h).ordered hc h1 ho⟩,
    fun s t h => (advances_step s t h).serves, fun s t h hq hs hok => (advances_step s t h).covered hok hq hs,
    fun i hd c s t hi hs h hq hsv hok => (upholds_ready hi hs h).covered hok hq hsv⟩
  exact (rangeInv_iff t).2 ((advances_step s t h).range ((rangeInv_iff s).1 hr))

end Sys2Proof.Machine
end

