-- ==== Sys2Proof/Proofs/BedCycle.lean ====
section
/-! PROOF. CONFIGURE BED (R28), the bed cycle (R29, R30, R33, R60) and RELEASE STRAND with BED PRIORITY (R34, R35, R43). -/

namespace Sys2Proof.Machine

/-! ## CONFIGURE BED (R28) -/

theorem xConfigureBed_range {b bay pos sp : Nat} (s : Plant)
    (h : ¬(b < 12 ∧ bay < 64 ∧ 1 ≤ pos ∧ pos ≤ 8 ∧ sp ≤ 190)) :
    xConfigureBed b bay pos sp s = refuse .range s := by
  unfold xConfigureBed
  split
  · rfl
  · split
    · rfl
    · split
      · rfl
      · rw [if_pos (by omega)]

theorem xConfigureBed_inRange {b bay pos sp : Nat} (s : Plant) (h : b < 12 ∧ bay < 64 ∧ 1 ≤ pos ∧ pos ≤ 8 ∧ sp ≤ 190) :
    xConfigureBed b bay pos sp s = if (s.bed b).state ≠ .vacant then refuse .state s
      else accept [] (s.updBed b (fun r => { r with configured := true, bay := bay, positions := pos, holdSetpoint := sp })) := by
  obtain ⟨hb, hbay, hlo, hhi, hsp⟩ := h
  unfold xConfigureBed
  rw [if_neg (by omega), if_neg (by omega), if_neg (by omega), if_neg (by omega)]

/-- Settles O24: the ranges, then the state; and the one record written. -/
theorem configureBedWritesTheRecord : Obligations.ConfigureBedWritesTheRecord := by
  intro hd b bay pos sp s hs
  refine ⟨fun hbad => exec_refused rfl hs (by simp) (xConfigureBed_range s.plant hbad),
    fun hok => ⟨fun hst => ?_, fun hst => ?_⟩⟩
  · exact exec_refused rfl hs (by simp) ((xConfigureBed_inRange s.plant hok).trans (if_pos hst))
  · refine ⟨_, exec_accepted rfl hs (by simp)
      ((xConfigureBed_inRange s.plant hok).trans (if_neg (not_not.mpr hst))), ?_, ?_, rfl⟩
    · exact Plant.bed_updBed_same _ _ _ hok.1
    · exact fun i hi => Plant.bed_updBed_ne _ _ _ _ (Ne.symm hi)

/-! ## A bed command that changes one bed and sends its order -/

/-- R56: a change of one bed's records, with the order sent if it changed. -/
theorem bedBecomes_sendIfChanged {b : Nat} {s p : Plant} {bed : BedRecord} {h : HeatRecord} (hb : b < 12)
    (ho : s.isClosed = false) (honly : Plant.onlyBed b s p) (hbed : p.bed b = bed) (hheat : p.heat b = h)
    (hline : p.bedLine b = s.bedLine b) : Plant.bedBecomes b bed h s (sendIfChanged p b) := by
  have hopen : p.isClosed = false := by
    rw [← ho]
    exact congrArg (fun w : Works => decide (w.phase = .closed)) honly.1
  refine ⟨Plant.onlyBed_trans honly (sendIfChanged_onlyBed p b), ?_, ?_, ?_⟩
  · rw [← hbed]
    exact congrArg (getOr · b .reset) (sendIfChanged_beds p b)
  · rw [sendIfChanged_heat p b hb hopen, hbed, hheat]
  · rw [sendIfChanged_bedLine p b hb hopen, hbed, hheat, hline]

/-- A bed state written, a heat record changed, and the order sent if it changed. -/
theorem bedBecomes_cycle {b : Nat} {s : Plant} (st : BedState) (f : HeatRecord → HeatRecord) (hb : b < 12)
    (ho : s.isClosed = false) :
    Plant.bedBecomes b { s.bed b with state := st } (f (s.heat b)) s (sendIfChanged ((s.setBedState b st).updHeat b f) b) :=
  bedBecomes_sendIfChanged hb ho (Plant.onlyBed_trans (Plant.onlyBed_updBed b s _) (Plant.onlyBed_updHeat b _ f))
    (Plant.bed_updBed_same _ _ _ hb) (Plant.heat_updHeat_same _ _ _ hb) rfl

/-! ## PREPARE BED, ABANDON BED and START CURE (R29, R30, R33, R60) -/

section
variable {s : Plant} {b : Nat}

theorem xPrepareBed_open (ho : s.isClosed = false) (hb : b < 12) : xPrepareBed b s
    = if (s.bed b).configured = true ∧ (s.bed b).state = .vacant then accept [] (sendIfChanged (s.setBedState b .set) b)
      else refuse .state s := by
  unfold xPrepareBed
  rw [if_neg (by simp [ho]), if_neg (Nat.not_le.mpr hb)]
  cases hc : (s.bed b).configured <;> by_cases hv : (s.bed b).state = .vacant <;> simp [hv]

theorem xAbandonBed_open (ho : s.isClosed = false) (hb : b < 12) : xAbandonBed b s
    = if (s.bed b).state = .set then accept [] (forceOff (s.setBedState b .vacant) b) else refuse .state s := by
  unfold xAbandonBed
  rw [if_neg (by simp [ho]), if_neg (Nat.not_le.mpr hb), ite_not]

theorem xStartCure_open (ho : s.isClosed = false) (hb : b < 12) : xStartCure b s
    = if (s.bed b).state ≠ .cast ∨ (s.heat b).run = [] ∧ (s.heat b).next = [] then refuse .state s
      else accept [] (sendIfChanged ((s.setBedState b .curing).updHeat b HeatRecord.startCure) b) := by
  unfold xStartCure
  rw [if_neg (by simp [ho]), if_neg (Nat.not_le.mpr hb)]
  by_cases hst : (s.bed b).state = .cast <;> simp [hst]

/-- R60: the plan in RUN, or the one promoted into an empty RUN, is set RUNNING at its first segment. -/
theorem HeatRecord.startCure_run {h : HeatRecord} (hr : h.run ≠ []) : h.startCure
    = { h with plan := .running, segIndex := 0, segMinutes := (h.run[0]?.map Segment.duration).getD 0, swapPending := false } := by
  unfold HeatRecord.startCure
  rw [if_neg hr]
  rfl

theorem HeatRecord.startCure_next {h : HeatRecord} (hr : h.run = []) : h.startCure
    = { h with
        run := h.next, next := [], plan := .running, segIndex := 0
        segMinutes := (h.next[0]?.map Segment.duration).getD 0, swapPending := false } := by
  unfold HeatRecord.startCure
  rw [if_pos hr]
  rfl

theorem bed_range (ho : s.isClosed = false) (hb : 12 ≤ b) :
    xPrepareBed b s = refuse .range s ∧ xAbandonBed b s = refuse .range s ∧ xStartCure b s = refuse .range s := by
  simp [xPrepareBed, xAbandonBed, xStartCure, ho, hb]

end

/-- Settles O25: each command by its equation in OPEN, and the change of its one bed. -/
theorem bedCycleCommandsMoveTheBed : Obligations.BedCycleCommandsMoveTheBed := by
  intro hd b s hs ho
  refine ⟨fun hb => ?_, fun hb => ?_⟩
  · obtain ⟨hprepare, habandon, hstart⟩ := bed_range ho hb
    exact ⟨exec_refused rfl hs (by simp) hprepare, exec_refused rfl hs (by simp) habandon, exec_refused rfl hs (by simp) hstart⟩
  · have hprepare := xPrepareBed_open ho hb
    have habandon := xAbandonBed_open ho hb
    have hstart := xStartCure_open ho hb
    refine ⟨fun hbad => exec_refused rfl hs (by simp) (hprepare.trans (if_neg hbad)), fun hconf hst => ?_,
      fun hst => exec_refused rfl hs (by simp) (habandon.trans (if_neg hst)), fun hst => ?_,
      fun hbad => exec_refused rfl hs (by simp) (hstart.trans (if_pos hbad)),
      fun hst plan hplan => ⟨fun hrun => ?_, fun hrun hnext => ?_⟩⟩
    · exact ⟨_, exec_accepted rfl hs (by simp) (hprepare.trans (if_pos ⟨hconf, hst⟩)),
        bedBecomes_sendIfChanged hb ho (Plant.onlyBed_updBed b _ _) (Plant.bed_updBed_same _ _ _ hb) rfl rfl⟩
    · exact ⟨_, exec_accepted rfl hs (by simp) (habandon.trans (if_pos hst)),
        bedBecomes_cycle .vacant HeatRecord.turnOff hb ho⟩
    · subst hrun
      have hcycle := bedBecomes_cycle .curing HeatRecord.startCure hb ho
      rw [HeatRecord.startCure_run hplan] at hcycle
      exact ⟨_, exec_accepted rfl hs (by simp) (hstart.trans (if_neg (by simp [hst, hplan]))), hcycle⟩
    · have hcycle := bedBecomes_cycle .curing HeatRecord.startCure hb ho
      rw [HeatRecord.startCure_next hrun, hnext] at hcycle
      exact ⟨_, exec_accepted rfl hs (by simp) (hstart.trans (if_neg (by simp [hst, hnext, hplan]))), hcycle⟩

end Sys2Proof.Machine
end

