-- ==== Sys2Proof/Proofs/StrandRelease.lean ====
section
/-! PROOF. RELEASE STRAND and BED PRIORITY (R34, R35, R43): the checks find the lowest position whose piece stands against them. -/

namespace Sys2Proof.Machine

/-! ## The lowest position whose piece satisfies a test -/

section
variable {s : Plant} {b : Nat} {ok : Piece → Bool}

theorem positionsWhere_eq : positionsWhere s b (fun _ p => ok p) = (List.range 8).filter (fun i => (s.pieceOn b i).any ok) := by
  unfold positionsWhere Plant.pieceOn
  refine List.filter_congr fun i _ => ?_
  cases (s.bed b).at i with
  | none => rfl
  | some h => cases hp : s.yard.pieceAt h.slot <;> simp [hp]

theorem positionsWhere_head_eq_some {i : Nat} {q : Piece} (hi : i < 8) (hq : s.pieceOn b i = some q) (hok : ok q = true)
    (hlow : ∀ j r, j < i → s.pieceOn b j = some r → ok r = false) :
    (positionsWhere s b (fun _ p => ok p)).head? = some i := by
  rw [positionsWhere_eq, List.head?_filter, List.find?_range_eq_some]
  refine ⟨by rw [hq]; exact hok, List.mem_range.2 hi, fun j hj => ?_⟩
  cases hr : s.pieceOn b j with
  | none => rfl
  | some r => simp [hlow j r hj hr]

theorem positionsWhere_head_eq_none (h : ∀ i q, i < 8 → s.pieceOn b i = some q → ok q = false) :
    (positionsWhere s b (fun _ p => ok p)).head? = none := by
  rw [positionsWhere_eq, List.head?_filter, List.find?_eq_none]
  intro i hi
  cases hr : s.pieceOn b i with
  | none => exact Bool.false_ne_true
  | some r => simp [h i r (List.mem_range.1 hi) hr]

end

/-! ## RELEASE STRAND (R34, R35) -/

section
variable {s : Plant} {b : Nat}

theorem xReleaseStrand_state (ho : s.isClosed = false) (hb : b < 12)
    (h : (s.bed b).state ≠ .curing ∨ (s.heat b).running ≠ .off) : xReleaseStrand b s = refuse .state s := by
  unfold xReleaseStrand
  rw [if_neg (by simp [ho]), if_neg (Nat.not_le.mpr hb)]
  split
  · rfl
  · rename_i hst
    rw [if_pos (h.resolve_left hst)]

section
variable (ho : s.isClosed = false) (hb : b < 12) (hst : (s.bed b).state = .curing) (hr : (s.heat b).running = .off)
include ho hb hst hr

theorem xReleaseStrand_busy (htr : (s.heat b).transition ≠ .none) : xReleaseStrand b s = refuse .busy s := by
  unfold xReleaseStrand
  rw [if_neg (by simp [ho]), if_neg (Nat.not_le.mpr hb), if_neg (not_not.mpr hst), if_neg (not_not.mpr hr), if_pos htr]

variable (htr : (s.heat b).transition = .none)
include htr

theorem xReleaseStrand_held {i : Nat} (hheld : (positionsWhere s b (fun _ p => p.holds.cure)).head? = some i) :
    xReleaseStrand b s = refuseWith .held (byte1 i) s := by
  unfold xReleaseStrand
  rw [if_neg (by simp [ho]), if_neg (Nat.not_le.mpr hb), if_neg (not_not.mpr hst), if_neg (not_not.mpr hr),
    if_neg (not_not.mpr htr), hheld]

variable (hfree : (positionsWhere s b (fun _ p => p.holds.cure)).head? = none)
include hfree

theorem xReleaseStrand_immature {i : Nat} (hmat : (positionsWhere s b (fun _ p => !releasable s p)).head? = some i) :
    xReleaseStrand b s = refuseWith .immature (immatureFields s b i) s := by
  unfold xReleaseStrand
  rw [if_neg (by simp [ho]), if_neg (Nat.not_le.mpr hb), if_neg (not_not.mpr hst), if_neg (not_not.mpr hr),
    if_neg (not_not.mpr htr), hfree, hmat]

theorem xReleaseStrand_accepted (hmat : (positionsWhere s b (fun _ p => !releasable s p)).head? = none) :
    xReleaseStrand b s = accept [] (s.settle (sendIfChanged
      ((s.setBedState b .released).updHeat b (fun h => { h with requested := .off }.endRunning)) b)) := by
  unfold xReleaseStrand
  rw [if_neg (by simp [ho]), if_neg (Nat.not_le.mpr hb), if_neg (not_not.mpr hst), if_neg (not_not.mpr hr),
    if_neg (not_not.mpr htr), hfree, hmat]

end

theorem HeatRecord.endRunning_running {h : HeatRecord} (hp : h.plan = .running) :
    h.endRunning = { h with plan := .complete, swapPending := false } := if_pos hp

theorem HeatRecord.endRunning_other {h : HeatRecord} (hp : h.plan ≠ .running) : h.endRunning = h := if_neg hp

theorem immatureFields_eq {i : Nat} {q : Piece} (hq : s.pieceOn b i = some q) : immatureFields s b i
    = BitVec.ofNat 8 i :: (beBytes 4 q.maturity ++ beBytes 4 (s.cls q.cls).threshold) := by
  unfold immatureFields
  rw [hq]
  simp [byte1_eq]

theorem releasable_false {q : Piece} : (!releasable s q) = true ↔ q.maturity < (s.cls q.cls).threshold := by
  simp [releasable]

end

/-- Settles O27: the checks in their order, each by the lowest position that stands against it, then the change of the one bed;
and the one field of BED PRIORITY. -/
theorem releaseStrandFreesTheBed : Obligations.ReleaseStrandFreesTheBed := by
  refine ⟨fun hd b level s hs ho hb => ⟨?_, ?_⟩,
    fun hd b level s hs ho hb => ⟨fun hbad => ?_, fun hst hr => ?_, fun hl => ?_, fun hl => ?_⟩⟩
  · exact refuses_of_run rfl hs (by simp) (by simp [runCommand, xReleaseStrand, ho, hb, refuse])
  · exact refuses_of_run rfl hs (by simp) (by simp [runCommand, xBedPriority, ho, hb, refuse])
  · exact exec_refused rfl hs (by simp) (xReleaseStrand_state ho hb hbad)
  · refine ⟨fun htr => exec_refused rfl hs (by simp) (xReleaseStrand_busy ho hb hst hr htr),
      fun htr => ⟨fun i q hi hq hcure hlow => ?_, fun hcure => ⟨fun i q hi hq hmat hlow => ?_, fun hmat => ?_⟩⟩⟩
    · have hheld := positionsWhere_head_eq_some (ok := fun p => p.holds.cure) hi hq hcure hlow
      exact exec_refused rfl hs (by simp) (xReleaseStrand_held ho hb hst hr htr hheld)
    · have hfree := positionsWhere_head_eq_none (ok := fun p => p.holds.cure) hcure
      have hfirst := positionsWhere_head_eq_some (ok := fun p => !releasable s.plant p) hi hq (releasable_false.2 hmat)
        fun j r hj hr => by simp [releasable, hlow j r hj hr]
      rw [← immatureFields_eq hq]
      exact exec_refused rfl hs (by simp) (xReleaseStrand_immature ho hb hst hr htr hfree hfirst)
    · have hfree := positionsWhere_head_eq_none (ok := fun p => p.holds.cure) hcure
      have hmature := positionsWhere_head_eq_none (s := s.plant) (b := b) (ok := fun p => !releasable s.plant p)
        fun i q hi hq => by simp [releasable, hmat i q hi hq]
      have hcycle := bedBecomes_cycle .released (fun h => { h with requested := .off }.endRunning) hb ho
      refine ⟨_, exec_accepted rfl hs (by simp) (xReleaseStrand_accepted ho hb hst hr htr hfree hmature),
        fun hplan => ?_, fun hplan => ?_⟩
      · rw [HeatRecord.endRunning_running (h := { s.plant.heat b with requested := .off }) hplan] at hcycle
        exact hcycle
      · rw [HeatRecord.endRunning_other (h := { s.plant.heat b with requested := .off }) hplan] at hcycle
        exact hcycle
  · exact exec_refused rfl hs (by simp) (by simp [runCommand, xBedPriority, ho, hl, refuse, refuseWith])
  · refine ⟨s.plant.updBed b (fun r => { r with turnover := level }), exec_accepted rfl hs (by simp) ?_,
      Plant.bed_updBed_same _ _ _ hb, fun i hi => Plant.bed_updBed_ne _ _ _ _ (Ne.symm hi), rfl⟩
    simp [runCommand, xBedPriority, ho, Nat.not_le.mpr hb, Nat.not_le.mpr hl]

end Sys2Proof.Machine
end

