-- ==== Sys2Proof/Proofs/BedScrap.lean ====
section
/-! PROOF. SCRAP BED (R39, R40): the records of the used positions are retired one after another (R4), which is the retirement
of a list of handles and the emptying of those positions; the bed is then VACANT and its heat forced OFF (R53). -/

namespace Sys2Proof.Machine

/-! ## One retirement (R4) -/

section
variable (s : Plant) (h : Handle)

theorem retire_none (hp : s.yard.pieceAt h.slot = none) : retire s h = s := by
  unfold retire
  simp only [hp]

/-- R4: a retirement writes the mark map, the class table and the piece slots. -/
theorem retire_rest : ∃ (markMap : List (Nat × Nat)) (classes : Vector ClassEntry 32) (pieces : Vector PieceSlot 1024),
    retire s h = { s with markMap := markMap, classes := classes, yard := { s.yard with pieces := pieces } } := by
  cases hp : s.yard.pieceAt h.slot with
  | none => exact ⟨_, _, _, retire_none s h hp⟩
  | some q => exact ⟨_, _, _, retire_eq s h q hp⟩

theorem retire_updBed (b : Nat) (f : BedRecord → BedRecord) : retire (s.updBed b f) h = (retire s h).updBed b f := by
  cases hp : s.yard.pieceAt h.slot with
  | none => rw [retire_none s h hp, retire_none (s.updBed b f) h hp]
  | some q => rw [retire_eq s h q hp, retire_eq (s.updBed b f) h q hp]; rfl

theorem retire_pieceSlot (slot : Nat) : (retire s h).yard.pieceSlot slot
    = if h.slot = slot ∧ (s.yard.pieceAt slot).isSome = true then ⟨nextGen slot (s.yard.pieceSlot slot).gen, none⟩
      else s.yard.pieceSlot slot := by
  cases hp : s.yard.pieceAt h.slot with
  | none =>
    rw [retire_none s h hp, if_neg]
    rintro ⟨rfl, hlive⟩
    rw [hp] at hlive
    cases hlive
  | some q =>
    rw [retire_eq s h q hp, pieceSlot_clearPiece _ _ _ (Yard.pieceAt_lt _ _ _ hp)]
    by_cases heq : h.slot = slot
    · subst heq
      simp [hp]
    · simp [heq]

theorem retire_pieceAt (slot : Nat) :
    (retire s h).yard.pieceAt slot = if h.slot = slot then none else s.yard.pieceAt slot := by
  have hat : (retire s h).yard.pieceAt slot = ((retire s h).yard.pieceSlot slot).piece := rfl
  rw [hat, retire_pieceSlot]
  by_cases heq : h.slot = slot
  · rw [if_pos heq]
    split
    · rfl
    · rename_i hnot
      exact Option.not_isSome_iff_eq_none.1 fun hlive => hnot ⟨heq, hlive⟩
  · rw [if_neg heq, if_neg (fun hand => heq hand.1)]
    rfl

/-- R4, R6: the mark of the retired record leaves the mark map. -/
theorem retire_markMap : (retire s h).markMap
    = s.markMap.filter (fun e => (s.yard.pieceAt h.slot).all (fun q => decide (q.mark ≠ e.1))) := by
  cases hp : s.yard.pieceAt h.slot with
  | none => simp [retire_none s h hp]
  | some q =>
    rw [retire_eq s h q hp]
    exact List.filter_congr fun e _ => by simp [eq_comm]

/-- R4, R13: the retired record leaves the live count of its class; a number past the table names no class. -/
theorem retire_liveCount (c : Nat) : (retire s h).cls c = { s.cls c with
    liveCount := (s.cls c).liveCount - if (s.yard.pieceAt h.slot).any (fun q => decide (q.cls = c)) then 1 else 0 } := by
  cases hp : s.yard.pieceAt h.slot with
  | none => rw [retire_none s h hp]; rfl
  | some q =>
    have hcls : (retire s h).cls c
        = getOr (upd s.classes q.cls (fun e => { e with liveCount := e.liveCount - 1 })) c .undefined := by
      rw [retire_eq s h q hp]
      rfl
    by_cases hc : q.cls = c
    · subst hc
      by_cases hlt : q.cls < 32
      · rw [hcls, getOr_upd_same _ _ _ _ hlt]
        simp [Plant.cls]
      · rw [hcls, upd_ge _ _ _ (Nat.not_lt.mp hlt)]
        unfold Plant.cls
        rw [getOr_ge _ _ _ (Nat.not_lt.mp hlt)]
        simp [ClassEntry.undefined]
    · rw [hcls, getOr_upd_ne _ _ _ _ _ hc]
      simp [hc, Plant.cls]

end

/-! ## A list of records retired -/

theorem retireAll_cons (s : Plant) (h : Handle) (hs : List Handle) : retireAll s (h :: hs) = retireAll (retire s h) hs := rfl

theorem retireAll_append_one (s : Plant) (hs : List Handle) (h : Handle) :
    retireAll s (hs ++ [h]) = retire (retireAll s hs) h := by
  unfold retireAll forEach
  rw [List.foldl_append]
  rfl

theorem retireAll_rest (hs : List Handle) (s : Plant) :
    ∃ (markMap : List (Nat × Nat)) (classes : Vector ClassEntry 32) (pieces : Vector PieceSlot 1024),
      retireAll s hs = { s with markMap := markMap, classes := classes, yard := { s.yard with pieces := pieces } } := by
  induction hs generalizing s with
  | nil => exact ⟨_, _, _, rfl⟩
  | cons h hs ih =>
    obtain ⟨m, c, v, hone⟩ := retire_rest s h
    obtain ⟨m', c', v', hall⟩ := ih (retire s h)
    exact ⟨m', c', v', by rw [retireAll_cons, hall, hone]⟩

theorem retireAll_pieceSlot (hs : List Handle) (s : Plant) (slot : Nat) : (retireAll s hs).yard.pieceSlot slot
    = if (∃ h ∈ hs, h.slot = slot) ∧ (s.yard.pieceAt slot).isSome = true
      then ⟨nextGen slot (s.yard.pieceSlot slot).gen, none⟩ else s.yard.pieceSlot slot := by
  induction hs generalizing s with
  | nil =>
    rw [if_neg (by simp)]
    rfl
  | cons h hs ih =>
    rw [retireAll_cons, ih, retire_pieceAt, retire_pieceSlot]
    by_cases heq : h.slot = slot
    · by_cases hlive : (s.yard.pieceAt slot).isSome = true <;> simp [heq, hlive]
    · simp [heq]

theorem retireAll_markMap (hs : List Handle) (s : Plant) : (retireAll s hs).markMap
    = s.markMap.filter (fun e => hs.all (fun h => (s.yard.pieceAt h.slot).all (fun q => decide (q.mark ≠ e.1)))) := by
  induction hs generalizing s with
  | nil => simp [retireAll, forEach]
  | cons h hs ih =>
    rw [retireAll_cons, ih, retire_markMap, List.filter_filter]
    refine List.filter_congr fun e _ => ?_
    rw [List.all_cons, Bool.and_comm]
    cases hfirst : (s.yard.pieceAt h.slot).all (fun q => decide (q.mark ≠ e.1)) with
    | false => rfl
    | true =>
      refine congrArg (true && ·) (List.all_congr rfl fun g => ?_)
      rw [retire_pieceAt]
      split
      · rename_i heq
        rw [← heq, hfirst]
        rfl
      · rfl

theorem retireAll_liveCount (hs : List Handle) (s : Plant) (hnd : (hs.map (fun h => h.slot)).Nodup) (c : Nat) :
    (retireAll s hs).cls c = { s.cls c with
      liveCount := (s.cls c).liveCount
        - hs.countP (fun h => (s.yard.pieceAt h.slot).any (fun q => decide (q.cls = c))) } := by
  induction hs generalizing s with
  | nil => rfl
  | cons h hs ih =>
    rw [List.map_cons, List.nodup_cons] at hnd
    have hsame : hs.countP (fun g => ((retire s h).yard.pieceAt g.slot).any (fun q => decide (q.cls = c)))
        = hs.countP (fun g => (s.yard.pieceAt g.slot).any (fun q => decide (q.cls = c))) := by
      refine List.countP_congr fun g hg => ?_
      have hne : h.slot ≠ g.slot := fun heq => hnd.1 (heq ▸ List.mem_map_of_mem (f := fun h : Handle => h.slot) hg)
      rw [retire_pieceAt, if_neg hne]
    rw [retireAll_cons, ih _ hnd.2, hsame, retire_liveCount, List.countP_cons, Nat.sub_sub, Nat.add_comm]

/-- R6: the mark of a retired record is in the map no more. -/
theorem markSlot_retireAll {hs : List Handle} {s : Plant} {h : Handle} {q : Piece} (hh : h ∈ hs)
    (hq : s.yard.pieceAt h.slot = some q) : markSlot (retireAll s hs).markMap q.mark = none := by
  rw [markSlot_eq_none, retireAll_markMap]
  intro i hi
  have hall := List.all_eq_true.1 (List.mem_filter.1 hi).2 h hh
  rw [hq] at hall
  simp at hall

/-! ## The positions emptied (R40) -/

/-- R40: the positions below `n` emptied. -/
def emptied (n : Nat) (r : BedRecord) : BedRecord := forEach (List.range n) (fun r i => setPosition i none r) r

theorem emptied_succ (n : Nat) (r : BedRecord) : emptied (n + 1) r = setPosition n none (emptied n r) := by
  unfold emptied forEach
  rw [List.range_succ, List.foldl_append]
  rfl

theorem setPosition_rest (i : Nat) (h : Option Handle) (r : BedRecord) :
    { setPosition i h r with table := r.table } = r := rfl

theorem setPosition_at (i j : Nat) (h : Option Handle) (r : BedRecord) (hi : i < 8) :
    (setPosition i h r).at j = if i = j then h else r.at j := getOr_upd _ _ _ _ _ hi

/-- An empty position emptied again. -/
theorem setPosition_none {i : Nat} {r : BedRecord} (h : r.at i = none) : setPosition i none r = r := by
  have ht : upd r.table i (fun _ => none) = r.table := by
    by_cases hi : i < 8
    · unfold BedRecord.at at h
      rw [getOr_lt _ _ _ hi] at h
      unfold upd
      rw [dif_pos hi, ← h, Vector.set_getElem_self]
    · exact upd_ge _ _ _ (Nat.not_lt.mp hi)
  unfold setPosition
  rw [ht]

theorem emptied_at {n : Nat} (r : BedRecord) (hn : n ≤ 8) (i : Nat) : (emptied n r).at i = if i < n then none else r.at i := by
  induction n with
  | zero => rfl
  | succ n ih =>
    rw [emptied_succ, setPosition_at _ _ _ _ hn, ih (Nat.le_of_succ_le hn)]
    by_cases heq : n = i
    · rw [if_pos heq, if_pos (by omega)]
    · rw [if_neg heq]
      by_cases hlt : i < n
      · rw [if_pos hlt, if_pos (by omega)]
      · rw [if_neg hlt, if_neg (by omega)]

theorem emptied_rest (n : Nat) (r : BedRecord) : { emptied n r with table := r.table } = r := by
  induction n with
  | zero => rfl
  | succ n ih =>
    rw [emptied_succ]
    exact ih

/-- The handles on the positions below `n` of a bed. -/
def BedRecord.firstHandles (r : BedRecord) (n : Nat) : List Handle := (r.table.toList.take n).filterMap id

theorem BedRecord.firstHandles_succ (r : BedRecord) (n : Nat) :
    r.firstHandles (n + 1) = r.firstHandles n ++ (r.at n).toList := by
  have hat : r.at n = (r.table.toList[n]?).getD none := by simp [BedRecord.at, getOr]
  unfold BedRecord.firstHandles
  rw [List.take_add_one, List.filterMap_append, hat]
  cases r.table.toList[n]? with
  | none => rfl
  | some o => cases o <;> rfl

theorem BedRecord.mem_firstHandles (r : BedRecord) (n : Nat) (h : Handle) :
    h ∈ r.firstHandles n ↔ ∃ i, i < n ∧ r.at i = some h := by
  induction n with
  | zero => simp [BedRecord.firstHandles]
  | succ n ih =>
    rw [BedRecord.firstHandles_succ, List.mem_append, ih, Option.mem_toList]
    constructor
    · rintro (⟨i, hi, hat⟩ | hat)
      · exact ⟨i, Nat.lt_succ_of_lt hi, hat⟩
      · exact ⟨n, Nat.lt_succ_self n, hat⟩
    · rintro ⟨i, hi, hat⟩
      rcases Nat.lt_succ_iff_lt_or_eq.1 hi with hlt | rfl
      · exact .inl ⟨i, hlt, hat⟩
      · exact .inr hat

/-- Changes that agree on the record that they change. -/
theorem Plant.updBed_congr (s : Plant) {b : Nat} {f g : BedRecord → BedRecord} (hb : b < 12)
    (h : f (s.bed b) = g (s.bed b)) : s.updBed b f = s.updBed b g := by
  unfold Plant.bed at h
  rw [getOr_lt _ _ _ hb] at h
  unfold Plant.updBed upd
  rw [dif_pos hb, dif_pos hb, h]

theorem Plant.updBed_updBed (s : Plant) (b : Nat) (f g : BedRecord → BedRecord) :
    (s.updBed b f).updBed b g = s.updBed b (fun r => g (f r)) := by
  unfold Plant.updBed
  rw [upd_upd]

/-- R40: the positions below `n` scrapped, in increasing order. -/
theorem scrapPositions_eq (s : Plant) {b : Nat} (hb : b < 12) {n : Nat} (hn : n ≤ 8) :
    forEach (List.range n) (scrapPosition b) s = (retireAll s ((s.bed b).firstHandles n)).updBed b (emptied n) := by
  induction n with
  | zero => exact (congrArg (fun v => { s with beds := v }) (upd_id s.beds b (emptied 0) fun _ => rfl)).symm
  | succ n ih =>
    have hbed : (retireAll s ((s.bed b).firstHandles n)).bed b = s.bed b := by
      obtain ⟨m, c, v, hall⟩ := retireAll_rest ((s.bed b).firstHandles n) s
      rw [hall]
      rfl
    have hat : (((retireAll s ((s.bed b).firstHandles n)).updBed b (emptied n)).bed b).at n = (s.bed b).at n := by
      rw [Plant.bed_updBed_same _ _ _ hb, hbed, emptied_at _ (Nat.le_of_succ_le hn), if_neg (Nat.lt_irrefl n)]
    have hlast : forEach (List.range (n + 1)) (scrapPosition b) s
        = scrapPosition b (forEach (List.range n) (scrapPosition b) s) n := by
      unfold forEach
      rw [List.range_succ, List.foldl_append]
      rfl
    rw [hlast, ih (Nat.le_of_succ_le hn), BedRecord.firstHandles_succ]
    unfold scrapPosition
    rw [hat]
    cases hpos : (s.bed b).at n with
    | none =>
      rw [Option.toList_none, List.append_nil]
      refine Plant.updBed_congr _ hb ?_
      rw [hbed, emptied_succ, setPosition_none]
      rw [emptied_at _ (Nat.le_of_succ_le hn), if_neg (Nat.lt_irrefl n), hpos]
    | some h =>
      dsimp only
      rw [Option.toList_some, retireAll_append_one, Plant.updBed_updBed, retire_updBed]
      refine Plant.updBed_congr _ hb ?_
      rw [emptied_succ]

/-! ## SCRAP BED (R39, R40) -/

section
variable {s : Plant} {b : Nat} (ho : s.isClosed = false) (hb : b < 12)
include ho hb

theorem xScrapBed_state (hcast : (s.bed b).state ≠ .cast) (hcuring : (s.bed b).state ≠ .curing) :
    xScrapBed b s = refuse .state s := by
  unfold xScrapBed
  rw [if_neg (by simp [ho]), if_neg (Nat.not_le.mpr hb), if_pos ⟨hcast, hcuring⟩]

variable (hst : (s.bed b).state = .cast ∨ (s.bed b).state = .curing)
include hst

theorem xScrapBed_inMove {i : Nat} (hmove : (positionsWhere s b (fun _ p => p.ticket.isSome)).head? = some i) :
    xScrapBed b s = refuseWith .inMove (inMoveFields s b i) s := by
  unfold xScrapBed
  rw [if_neg (by simp [ho]), if_neg (Nat.not_le.mpr hb), if_neg (by tauto), hmove]

theorem xScrapBed_accepted (hfree : (positionsWhere s b (fun _ p => p.ticket.isSome)).head? = none) :
    xScrapBed b s = accept (byte1 (s.bed b).occupants.length)
      (forceOff (((forEach (List.range (s.bed b).positions) (scrapPosition b) s).setBedState b .vacant).updHeat b
        HeatRecord.endRunning) b) := by
  unfold xScrapBed
  rw [if_neg (by simp [ho]), if_neg (Nat.not_le.mpr hb), if_neg (by tauto), hfree]

end

theorem inMoveFields_eq {s : Plant} {b i : Nat} {q : Piece} {t : Handle} (hq : s.pieceOn b i = some q)
    (ht : q.ticket = some t) : inMoveFields s b i = BitVec.ofNat 8 i :: beBytes 2 (t.gen * 1024 + t.slot) := by
  unfold inMoveFields
  rw [hq, Option.bind_some, ht]
  rfl

theorem HeatRecord.endRunning_eq (h : HeatRecord) : h.endRunning = { h with
    plan := if h.plan = .running then .complete else h.plan
    swapPending := if h.plan = .running then false else h.swapPending } := by
  unfold HeatRecord.endRunning
  split <;> rfl

/-- R53, R55: a heat record turned off forms the order OFF at 0.0 °C. -/
theorem formOrder_turnOff (r : BedRecord) (h : HeatRecord) : formOrder r h.turnOff = ⟨.off, 0⟩ := rfl

/-- R40: the bed after an accepted SCRAP BED, beside the plant in which its records are retired. -/
theorem scrapBed_becomes {s : Plant} {b : Nat} (ho : s.isClosed = false) (hb : b < 12) (hn : (s.bed b).positions ≤ 8) :
    Plant.bedBecomes b { emptied (s.bed b).positions (s.bed b) with state := .vacant } (s.heat b).endRunning.turnOff
      (retireAll s ((s.bed b).firstHandles (s.bed b).positions))
      (forceOff (((forEach (List.range (s.bed b).positions) (scrapPosition b) s).setBedState b .vacant).updHeat b
        HeatRecord.endRunning) b) := by
  rw [scrapPositions_eq s hb hn]
  obtain ⟨m, c, v, hall⟩ := retireAll_rest ((s.bed b).firstHandles (s.bed b).positions) s
  rw [hall]
  generalize ht : ({ s with markMap := m, classes := c, yard := { s.yard with pieces := v } } : Plant) = t
  have hbed : t.bed b = s.bed b := by rw [← ht]; rfl
  have hheat : t.heat b = s.heat b := by rw [← ht]; rfl
  have hopen : t.isClosed = false := by rw [← ht]; exact ho
  refine bedBecomes_sendIfChanged hb hopen ?_ ?_ ?_ rfl
  · exact Plant.onlyBed_trans (Plant.onlyBed_trans (Plant.onlyBed_trans (Plant.onlyBed_updBed b t _)
      (Plant.onlyBed_updBed b _ _)) (Plant.onlyBed_updHeat b _ _)) (Plant.onlyBed_updHeat b _ _)
  · rw [← hbed]
    refine (Plant.bed_updBed_same _ _ _ hb).trans ?_
    rw [Plant.bed_updBed_same _ _ _ hb]
  · refine (Plant.heat_updHeat_same _ _ _ hb).trans ?_
    rw [Plant.heat_updHeat_same _ _ _ hb, ← hheat]
    rfl

/-- Settles O28: the lowest position with a ticket refuses; else the first records are retired and the one bed emptied. -/
theorem scrapBedRetiresThePour : Obligations.ScrapBedRetiresThePour := by
  refine ⟨fun hd b s hs ho hb => ?_, fun hd b s hs ho hb hn => ⟨fun hcast hcuring => ?_,
    fun hst => ⟨fun i q t hi hq ht hlow => ?_, fun hfree => ?_⟩⟩⟩
  · exact refuses_of_run rfl hs (by simp) (by simp [runCommand, xScrapBed, ho, hb, refuse])
  · exact exec_refused rfl hs (by simp) (xScrapBed_state ho hb hcast hcuring)
  · have hmove := positionsWhere_head_eq_some (ok := fun p => p.ticket.isSome) hi hq (by rw [ht]; rfl)
      fun j r hj hr => by rw [hlow j r hj hr]; rfl
    rw [← inMoveFields_eq hq ht]
    exact exec_refused rfl hs (by simp) (xScrapBed_inMove ho hb hst hmove)
  · have hnone := positionsWhere_head_eq_none (s := s.plant) (b := b) (ok := fun p => p.ticket.isSome)
      fun i q hi hq => by rw [hfree i q hi hq]; rfl
    refine ⟨_, exec_accepted rfl hs (by simp) (xScrapBed_accepted ho hb hst hnone), ?_⟩
    have hbecomes := scrapBed_becomes ho hb hn
    obtain ⟨m, c, v, hall⟩ := retireAll_rest ((s.plant.bed b).firstHandles (s.plant.bed b).positions) s.plant
    generalize forceOff (((forEach (List.range (s.plant.bed b).positions) (scrapPosition b) s.plant).setBedState b
      .vacant).updHeat b HeatRecord.endRunning) b = p at hbecomes ⊢
    obtain ⟨⟨hworks, hclasses, hmarks, hintake, hyard, hothers⟩, hbed, hheat, hline⟩ := hbecomes
    have hrest := emptied_rest (s.plant.bed b).positions (s.plant.bed b)
    have hmem := (s.plant.bed b).mem_firstHandles (s.plant.bed b).positions
    have hslots : ∀ slot, p.yard.pieceSlot slot = _ := fun slot =>
      (congrArg (·.pieceSlot slot) hyard).trans (retireAll_pieceSlot _ _ slot)
    refine ⟨by rw [hbed], fun i hi => ?_, ?_,
      ?_, ?_, ⟨_, ?_, rfl⟩, ?_, fun i hi => ?_, ?_, fun gone hgone => ⟨?_, fun hnd c => ?_⟩,
      fun slot q hq => ⟨fun ⟨i, h, hi, hat, hslot⟩ => ⟨?_, ?_⟩, fun hnot => ?_⟩, fun i hi => ?_, ?_, ?_, ?_⟩
    · rw [hbed]
      exact (emptied_at _ hn i).trans (if_pos hi)
    · rw [hbed]
      exact (congrArg BedRecord.maturity hrest :)
    · rw [hbed]
      exact (congrArg BedRecord.flags hrest :)
    · rw [hbed]
      exact (congrArg BedRecord.turnover hrest :)
    · rw [hheat, formOrder_turnOff, HeatRecord.endRunning_eq]
      rfl
    · rw [hbed]
      exact congrArg (fun r : BedRecord => { r with state := .vacant }) hrest
    · rw [hbed]
      exact (emptied_at _ hn i).trans (if_neg (Nat.not_lt.mpr hi))
    · rw [hline, formOrder_turnOff, HeatRecord.endRunning_eq, hall]
      exact if_congr eq_comm rfl rfl
    · rw [hmarks, hgone]
      exact retireAll_markMap _ _
    · obtain rfl : gone = (s.plant.bed b).firstHandles (s.plant.bed b).positions := hgone
      have hcls : p.cls c = (retireAll s.plant ((s.plant.bed b).firstHandles (s.plant.bed b).positions)).cls c := by
        unfold Plant.cls
        rw [hclasses]
      exact hcls.trans (retireAll_liveCount _ _ hnd c)
    · rw [hslots, if_pos ⟨⟨h, (hmem h).2 ⟨i, hi, hat⟩, hslot⟩, by rw [hq]; rfl⟩]
      rfl
    · rw [hmarks]
      exact markSlot_retireAll ((hmem h).2 ⟨i, hi, hat⟩) (hslot ▸ hq)
    · rw [hslots, if_neg]
      rintro ⟨⟨h, hh, hslot⟩, -⟩
      obtain ⟨i, hi, hat⟩ := (hmem h).1 hh
      exact hnot i h hi hat hslot
    · rw [hall] at hothers
      exact hothers i hi
    · rw [hyard, hall]
    · rw [hworks, hall]
    · rw [hintake, hall]

end Sys2Proof.Machine
end

