-- ==== Sys2Proof/Proofs/BedCasting.lean ====
section
/-! PROOF. CAST (R31, R32): the records of the positions are allocated one after another, each in the lowest free slot (R3),
which is the allocation of a list of records and the writing of the positions. -/

namespace Sys2Proof.Machine

/-! ## One allocation (R3) -/

/-- R3: no slot below the lowest free one is free. -/
theorem Yard.freePieceSlot_lowest {y : Yard} {slot i : Nat} (h : y.freePieceSlot = some slot) (hi : i < slot) :
    y.pieceAt i ≠ none := by
  obtain ⟨hlt, -, hlow⟩ := List.findIdx?_eq_some_iff_getElem.1 h
  have hs : i < 1024 := hi.trans (by simpa using hlt)
  have hat := hlow i hi
  unfold Yard.pieceAt Yard.pieceSlot
  rw [getOr_lt _ _ _ hs]
  intro hnone
  simp [hnone] at hat

theorem Yard.freePieceSlot_of_count {y : Yard} (h : 0 < y.freePieceCount) : ∃ slot, y.freePieceSlot = some slot := by
  obtain ⟨ps, hmem, hnone⟩ := List.countP_pos_iff.1 h
  refine Option.ne_none_iff_exists'.1 fun hf => ?_
  have hall := List.findIdx?_eq_none_iff.1 hf ps hmem
  rw [hnone] at hall
  cases hall

/-- R3: a record put in a free slot takes one of the free slots. -/
theorem Yard.freePieceCount_putPiece {y : Yard} {slot : Nat} (p : Piece) (h : y.freePieceSlot = some slot) :
    (y.putPiece slot p).freePieceCount = y.freePieceCount - 1 := by
  obtain ⟨hs, hfree⟩ := Yard.freePieceSlot_free h
  unfold Yard.pieceAt Yard.pieceSlot at hfree
  rw [getOr_lt _ _ _ hs] at hfree
  unfold Yard.freePieceCount Yard.putPiece upd
  dsimp only
  rw [dif_pos hs, Vector.toList_set, List.countP_set (by simpa using hs)]
  simp [hfree]

theorem allocate_updBed (s : Plant) (p : Piece) (b : Nat) (f : BedRecord → BedRecord) :
    allocate (s.updBed b f) p = ((allocate s p).1, (allocate s p).2.updBed b f) := by
  unfold allocate
  rw [Plant.updBed_yard]
  cases s.yard.freePieceSlot <;> rfl

theorem allocate_handle {s : Plant} (p : Piece) {slot : Nat} (h : s.yard.freePieceSlot = some slot) :
    (allocate s p).1 = some ⟨slot, (s.yard.pieceSlot slot).gen⟩ := by
  unfold allocate
  simp only [h]

theorem pieceSlot_putPiece (y : Yard) (slot i : Nat) (p : Piece) (h : slot < 1024) :
    (y.putPiece slot p).pieceSlot i = if slot = i then ⟨(y.pieceSlot i).gen, some p⟩ else y.pieceSlot i :=
  pieceSlot_upd y _ slot i _ h (Yard.putPiece_pieces _ _ _)

/-! ## A list of records allocated -/

/-- R3: records allocated one after another, with their handles. -/
def allocateAll : List Piece → Plant → List (Option Handle) × Plant
  | [], s => ([], s)
  | p :: ps, s => ((allocate s p).1 :: (allocateAll ps (allocate s p).2).1, (allocateAll ps (allocate s p).2).2)

/-- R3, R6, R13: the records `ps` stand in the slots of `hs`, each the lowest that was free in its turn, their marks in the map
and counted in their classes; nothing else has changed. -/
structure Allotted (s : Plant) (ps : List Piece) (hs : List Handle) (t : Plant) : Prop where
  rest   : ∃ (markMap : List (Nat × Nat)) (classes : Vector ClassEntry 32) (pieces : Vector PieceSlot 1024),
    t = { s with markMap := markMap, classes := classes, yard := { s.yard with pieces := pieces } }
  length : hs.length = ps.length
  free   : ∀ h ∈ hs, s.yard.pieceAt h.slot = none ∧ h.gen = (s.yard.pieceSlot h.slot).gen
  lowest : ∀ (i : Nat) (h : Handle) (slot : Nat), hs[i]? = some h → slot < h.slot → s.yard.pieceAt slot = none →
    ∃ (j : Nat) (g : Handle), j < i ∧ hs[j]? = some g ∧ g.slot = slot
  filled : ∀ (i : Nat) (h : Handle) (p : Piece), hs[i]? = some h → ps[i]? = some p → t.yard.pieceAt h.slot = some p
  others : ∀ slot, (∀ h ∈ hs, h.slot ≠ slot) → t.yard.pieceSlot slot = s.yard.pieceSlot slot
  marks  : ∀ m slot, (m, slot) ∈ t.markMap ↔ (m, slot) ∈ s.markMap
    ∨ ∃ (i : Nat) (p : Piece) (h : Handle), ps[i]? = some p ∧ hs[i]? = some h ∧ m = p.mark ∧ slot = h.slot
  counts : ∀ c, t.cls c = { s.cls c with liveCount := (s.cls c).liveCount + ps.countP (fun p => decide (p.cls = c)) }

theorem Allotted.nil (s : Plant) : Allotted s [] [] s where
  rest := ⟨_, _, _, rfl⟩
  length := rfl
  free _ h := by cases h
  lowest _ _ _ h := by cases h
  filled _ _ _ h := by cases h
  others _ _ := rfl
  marks _ _ := by simp
  counts _ := rfl

theorem Allotted.cons {s t : Plant} {p : Piece} {ps : List Piece} {hs : List Handle} {slot : Nat}
    (hslot : s.yard.freePieceSlot = some slot) (hp : p.cls < 32) (h : Allotted (allocate s p).2 ps hs t) :
    Allotted s (p :: ps) (⟨slot, (s.yard.pieceSlot slot).gen⟩ :: hs) t := by
  obtain ⟨hlt, hfree⟩ := Yard.freePieceSlot_free hslot
  have heq := allocate_eq s p slot hslot
  have hyard : (allocate s p).2.yard = s.yard.putPiece slot p := by rw [heq]
  have hat := fun i => pieceAt_putPiece s.yard slot i p hlt
  have hps := fun i => pieceSlot_putPiece s.yard slot i p hlt
  rw [← hyard] at hat hps
  have hne : ∀ g ∈ hs, slot ≠ g.slot := fun g hg heq => by
    have hg := (h.free g hg).1
    rw [hat, if_pos heq] at hg
    cases hg
  have hsame : ∀ i, (∀ g ∈ hs, g.slot ≠ i) → t.yard.pieceAt i = (allocate s p).2.yard.pieceAt i := fun i hi =>
    congrArg PieceSlot.piece (h.others i hi)
  obtain ⟨m, c, v, hrest⟩ := h.rest
  refine ⟨⟨m, c, v, by rw [hrest, heq]; rfl⟩, congrArg Nat.succ h.length, fun g hg => ?_, fun i g low hg hl hf => ?_,
    fun i g q hg hq => ?_, fun i hi => ?_, fun mk i => ?_, fun k => ?_⟩
  · rcases List.mem_cons.1 hg with rfl | hg
    · exact ⟨hfree, rfl⟩
    · have hfree' := h.free g hg
      rw [hat, hps, if_neg (hne g hg), if_neg (hne g hg)] at hfree'
      exact hfree'
  · cases i with
    | zero =>
      obtain rfl := Option.some.inj hg
      exact absurd hf (Yard.freePieceSlot_lowest hslot hl)
    | succ i =>
      by_cases heq : slot = low
      · exact ⟨0, _, Nat.succ_pos i, rfl, heq⟩
      · obtain ⟨j, g', hj, hg', hs'⟩ := h.lowest i g low hg hl (by rw [hat, if_neg heq]; exact hf)
        exact ⟨j + 1, g', Nat.succ_lt_succ hj, hg', hs'⟩
  · cases i with
    | zero =>
      obtain rfl := Option.some.inj hg
      obtain rfl := Option.some.inj hq
      rw [hsame _ fun g hg => (hne g hg).symm, hat, if_pos rfl]
    | succ i => exact h.filled i g q hg hq
  · rw [h.others i fun g hg => hi g (List.mem_cons_of_mem _ hg), hps, if_neg (hi _ List.mem_cons_self)]
  · rw [h.marks, heq, mem_markInsert, Prod.mk.injEq]
    constructor
    · rintro ((⟨rfl, rfl⟩ | hold) | ⟨j, q, g, hq, hg, hm, hs⟩)
      · exact .inr ⟨0, p, _, rfl, rfl, rfl, rfl⟩
      · exact .inl hold
      · exact .inr ⟨j + 1, q, g, hq, hg, hm, hs⟩
    · rintro (hold | ⟨j, q, g, hq, hg, hm, hs⟩)
      · exact .inl (.inr hold)
      · cases j with
        | zero =>
          obtain rfl := Option.some.inj hg
          obtain rfl := Option.some.inj hq
          exact .inl (.inl ⟨hm, hs⟩)
        | succ j => exact .inr ⟨j, q, g, hq, hg, hm, hs⟩
  · rw [h.counts, allocate_cls s p slot k hslot hp, List.countP_cons]
    by_cases hk : p.cls = k
    · simp [hk, Nat.add_assoc, Nat.add_comm, Nat.add_left_comm]
    · simp [hk]

/-- R3: with a free slot for each record, each record has a handle. -/
theorem allotted_allocateAll (ps : List Piece) (s : Plant) (hcount : ps.length ≤ s.yard.freePieceCount)
    (hcls : ∀ p ∈ ps, p.cls < 32) :
    ∃ hs : List Handle, (allocateAll ps s).1 = hs.map some ∧ Allotted s ps hs (allocateAll ps s).2 := by
  induction ps generalizing s with
  | nil => exact ⟨[], rfl, .nil s⟩
  | cons p ps ih =>
    rw [List.length_cons] at hcount
    obtain ⟨slot, hslot⟩ := Yard.freePieceSlot_of_count (Nat.lt_of_lt_of_le (Nat.succ_pos _) hcount)
    have hleft : ps.length ≤ (allocate s p).2.yard.freePieceCount := by
      rw [allocate_eq s p slot hslot, Yard.freePieceCount_putPiece p hslot]
      omega
    obtain ⟨hs, hhandles, hall⟩ := ih (allocate s p).2 hleft fun q hq => hcls q (List.mem_cons_of_mem _ hq)
    refine ⟨⟨slot, (s.yard.pieceSlot slot).gen⟩ :: hs, ?_, .cons hslot (hcls p List.mem_cons_self) hall⟩
    unfold allocateAll
    rw [allocate_handle p hslot, hhandles, List.map_cons]

/-- R6: a mark that is in no other entry of the list is found at its record's slot. -/
theorem Allotted.markSlot {s t : Plant} {ps : List Piece} {hs : List Handle} (h : Allotted s ps hs t)
    (hnew : ∀ p ∈ ps, Machine.markSlot s.markMap p.mark = none) (hnd : (ps.map (fun p => p.mark)).Nodup) {i : Nat} {p : Piece}
    {g : Handle} (hp : ps[i]? = some p) (hg : hs[i]? = some g) : Machine.markSlot t.markMap p.mark = some g.slot := by
  have hmine : (p.mark, g.slot) ∈ t.markMap := (h.marks _ _).2 (.inr ⟨i, p, g, hp, hg, rfl, rfl⟩)
  cases hfound : Machine.markSlot t.markMap p.mark with
  | none => exact absurd hmine ((markSlot_eq_none _ _).1 hfound _)
  | some slot =>
    obtain ⟨e, he, rfl⟩ := Option.map_eq_some_iff.1 hfound
    have hmark : e.1 = p.mark := by simpa using List.find?_some he
    rcases (h.marks e.1 e.2).1 (List.mem_of_find?_eq_some he) with hold | ⟨j, q, g', hq, hg', hm, hs'⟩
    · exact absurd (hmark ▸ hold) ((markSlot_eq_none _ _).1 (hnew p (List.mem_of_getElem? hp)) _)
    · have hij : j = i := by
        have hlt : j < (ps.map (fun p => p.mark)).length := by
          rw [List.length_map]
          exact (List.getElem?_eq_some_iff.1 hq).1
        refine (List.getElem?_inj hlt hnd).1 ?_
        rw [List.getElem?_map, List.getElem?_map, hq, hp, Option.map_some, Option.map_some, ← hm, hmark]
      subst hij
      rw [hs', Option.some.inj (hg'.symm.trans hg)]

/-! ## The positions written (R32) -/

/-- Positions written with a handle each. -/
def placed (positions : List Nat) (hs : List (Option Handle)) (r : BedRecord) : BedRecord :=
  forEach (positions.zip hs) (fun r e => setPosition e.1 e.2 r) r

theorem placed_cons (i : Nat) (is : List Nat) (h : Option Handle) (hs : List (Option Handle)) (r : BedRecord) :
    placed (i :: is) (h :: hs) r = placed is hs (setPosition i h r) := rfl

theorem placed_rest (is : List Nat) (hs : List (Option Handle)) (r : BedRecord) :
    { placed is hs r with table := r.table } = r := by
  unfold placed forEach
  generalize is.zip hs = es
  suffices h : ∀ q : BedRecord, { q with table := r.table } = r →
      { es.foldl (fun r e => setPosition e.1 e.2 r) q with table := r.table } = r from h r rfl
  induction es with
  | nil => exact fun _ => id
  | cons e es ih => exact fun q hq => ih (setPosition e.1 e.2 q) hq

theorem placed_at_other {i : Nat} {is : List Nat} (hs : List (Option Handle)) (r : BedRecord) (hi : i ∉ is) :
    (placed is hs r).at i = r.at i := by
  induction is generalizing hs r with
  | nil => rfl
  | cons j is ih =>
    cases hs with
    | nil => rfl
    | cons h hs =>
      rw [placed_cons, ih hs _ fun hm => hi (List.mem_cons_of_mem _ hm)]
      exact getOr_upd_ne _ _ _ _ _ fun heq => hi (heq ▸ List.mem_cons_self)

theorem placed_at {is : List Nat} {hs : List (Option Handle)} {j i : Nat} {h : Option Handle} (r : BedRecord) (hnd : is.Nodup)
    (hlt : i < 8) (hi : is[j]? = some i) (hh : hs[j]? = some h) : (placed is hs r).at i = h := by
  induction is generalizing hs j r with
  | nil => cases hi
  | cons k is ih =>
    rw [List.nodup_cons] at hnd
    cases hs with
    | nil => cases hh
    | cons g hs =>
      rw [placed_cons]
      cases j with
      | zero =>
        obtain rfl := Option.some.inj hi
        obtain rfl := Option.some.inj hh
        rw [placed_at_other hs _ hnd.1, setPosition_at _ _ _ _ hlt, if_pos rfl]
      | succ j => exact ih _ hnd.2 hi hh

/-- The record of a row of CAST or RESTORE BED (R32, R197). -/
def rowPiece (bed maturity minute : Nat) (e : Nat × MarkWord × Holds) : Piece :=
  bedPiece bed e.1 e.2.1 e.2.2 maturity minute

theorem allocateAll_updBed (ps : List Piece) (s : Plant) (b : Nat) (f : BedRecord → BedRecord) :
    allocateAll ps (s.updBed b f) = ((allocateAll ps s).1, (allocateAll ps s).2.updBed b f) := by
  induction ps generalizing s with
  | nil => rfl
  | cons p ps ih =>
    unfold allocateAll
    rw [allocate_updBed]
    dsimp only
    rw [ih]

/-- R32, R197: the rows filled: their records allocated, and their positions written. -/
theorem fillPositions_eq (bed maturity minute : Nat) (rows : List (Nat × MarkWord × Holds)) (s : Plant) :
    forEach rows (fillPosition bed maturity minute) s
      = (allocateAll (rows.map (rowPiece bed maturity minute)) s).2.updBed bed
          (placed (rows.map Prod.fst) (allocateAll (rows.map (rowPiece bed maturity minute)) s).1) := by
  induction rows generalizing s with
  | nil => exact (congrArg (fun v => { s with beds := v }) (upd_id s.beds bed (placed [] []) fun _ => rfl)).symm
  | cons e rows ih =>
    refine (ih (fillPosition bed maturity minute s e)).trans ?_
    have hfill : fillPosition bed maturity minute s e
        = (allocate s (rowPiece bed maturity minute e)).2.updBed bed
          (setPosition e.1 (allocate s (rowPiece bed maturity minute e)).1) := rfl
    rw [hfill, allocateAll_updBed, Plant.updBed_updBed]
    rfl

/-! ## The records of a pour (R32) -/

/-- R32: the records that CAST makes, in position order. -/
def castPieces (bed minute : Nat) (entries : List MarkWord) : List Piece :=
  entries.zipIdx.map (fun e => bedPiece bed e.2 e.1 .none 0 minute)

theorem castPieces_getElem? (bed minute : Nat) (entries : List MarkWord) (i : Nat) :
    (castPieces bed minute entries)[i]? = entries[i]?.map (fun m => bedPiece bed i m .none 0 minute) := by
  unfold castPieces
  rw [List.getElem?_map, List.getElem?_zipIdx, Option.map_map, Nat.zero_add]
  rfl

/-- What a record takes from its entry stands in the list as in the entries. -/
theorem map_castPieces {α : Type} {f : Piece → α} {g : MarkWord → α} (bed minute : Nat) (entries : List MarkWord)
    (h : ∀ i m, f (bedPiece bed i m .none 0 minute) = g m) : (castPieces bed minute entries).map f = entries.map g := by
  refine List.ext_getElem? fun i => ?_
  rw [List.getElem?_map, List.getElem?_map, castPieces_getElem?, Option.map_map]
  exact congrArg (fun k => entries[i]?.map k) (funext (h i))

theorem length_castPieces (bed minute : Nat) (entries : List MarkWord) :
    (castPieces bed minute entries).length = entries.length := by
  unfold castPieces
  rw [List.length_map, List.length_zipIdx]

theorem countP_castPieces (bed minute : Nat) (entries : List MarkWord) (c : Nat) :
    (castPieces bed minute entries).countP (fun p => decide (p.cls = c)) = entries.countP (fun m => decide (m.cls = c)) := by
  have h := congrArg (List.countP (fun n => decide (n = c)))
    (map_castPieces (f := fun p : Piece => p.cls) (g := fun m : MarkWord => m.cls) bed minute entries fun _ _ => rfl)
  rwa [List.countP_map, List.countP_map] at h

/-! ## CAST (R31, R32) -/

theorem definedClass_iff (s : Plant) (c : Nat) : definedClass s c = true ↔ c < 32 ∧ (s.cls c).defined = true := by
  simp [definedClass]

theorem freshMarks_iff (s : Plant) (entries : List MarkWord) : freshMarks s (entries.map (fun m => m.number)) = true
    ↔ (∀ m ∈ entries, markSlot s.markMap m.number = none) ∧ (entries.map (fun m => m.number)).Nodup := by
  simp [freshMarks]

/-- R31: the checks of the entries. -/
theorem entries_pass {s : Plant} {entries : List MarkWord} (hmarks : ∀ m ∈ entries, markWithClass m = true)
    (hdef : ∀ m ∈ entries, m.cls < 32 ∧ (s.cls m.cls).defined = true) :
    entries.all markWithClass = true ∧ entries.all (fun m => definedClass s m.cls) = true :=
  ⟨List.all_eq_true.2 hmarks, List.all_eq_true.2 fun m hm => (definedClass_iff s m.cls).2 (hdef m hm)⟩

/-- R32: the plant after an accepted CAST. -/
def Plant.poured (s : Plant) (b : Nat) (entries : List MarkWord) : Plant :=
  sendIfChanged ((forEach (entries.zipIdx.map (fun e => (e.2, e.1, Holds.none))) (fillPosition b 0 s.works.clock)
    (s.updBed b (fun r => { r with maturity := 0 }))).setBedState b .cast) b

section
variable {s : Plant} {b : Nat} {entries : List MarkWord} (ho : s.isClosed = false) (hb : b < 12)
include ho hb

theorem xCast_state (hst : (s.bed b).state ≠ .set) : xCast b entries s = refuse .state s := by
  unfold xCast
  rw [if_neg (by simp [ho]), if_neg (Nat.not_le.mpr hb), if_pos hst]

variable (hst : (s.bed b).state = .set)
include hst

theorem xCast_range (h : ¬(entries.length = (s.bed b).positions ∧ (∀ m ∈ entries, markWithClass m = true)
    ∧ ∀ m ∈ entries, m.cls < 32 ∧ (s.cls m.cls).defined = true)) : xCast b entries s = refuse .range s := by
  unfold xCast
  rw [if_neg (by simp [ho]), if_neg (Nat.not_le.mpr hb), if_neg (not_not.mpr hst)]
  split
  · rfl
  · rename_i hlen
    split
    · rfl
    · rename_i hmarks
      rw [if_pos]
      refine Bool.not_eq_true' _ ▸ Bool.eq_false_iff.2 fun hdef => h ⟨not_not.mp hlen, ?_, fun m hm => ?_⟩
      · simpa using hmarks
      · exact (definedClass_iff s m.cls).1 (List.all_eq_true.1 hdef m hm)

variable (hlen : entries.length = (s.bed b).positions) (hmarks : ∀ m ∈ entries, markWithClass m = true)
  (hdef : ∀ m ∈ entries, m.cls < 32 ∧ (s.cls m.cls).defined = true)
include hlen hmarks hdef

theorem xCast_noSlot (hfull : s.yard.freePieceCount < (s.bed b).positions) : xCast b entries s = refuse .noSlot s := by
  unfold xCast
  rw [if_neg (by simp [ho]), if_neg (Nat.not_le.mpr hb), if_neg (not_not.mpr hst), if_neg (not_not.mpr hlen),
    if_neg (by simp [entries_pass hmarks hdef]), if_neg (by simp [entries_pass hmarks hdef]), if_pos hfull]

variable (hfree : (s.bed b).positions ≤ s.yard.freePieceCount)
include hfree

theorem xCast_duplicate (hdup : (∃ m ∈ entries, markSlot s.markMap m.number ≠ none)
    ∨ ¬(entries.map (fun m => m.number)).Nodup) :
    xCast b entries s = refuse .duplicate s := by
  have hstale : freshMarks s (entries.map (fun m => m.number)) = false := by
    rw [Bool.eq_false_iff, ne_eq, freshMarks_iff]
    rintro ⟨hnew, hnd⟩
    rcases hdup with ⟨m, hm, hmark⟩ | hdup
    · exact hmark (hnew m hm)
    · exact hdup hnd
  unfold xCast
  rw [if_neg (by simp [ho]), if_neg (Nat.not_le.mpr hb), if_neg (not_not.mpr hst), if_neg (not_not.mpr hlen),
    if_neg (by simp [entries_pass hmarks hdef]), if_neg (by simp [entries_pass hmarks hdef]), if_neg (Nat.not_lt.mpr hfree),
    if_pos (by rw [hstale]; rfl)]

theorem xCast_accepted (hnew : ∀ m ∈ entries, markSlot s.markMap m.number = none)
    (hnd : (entries.map (fun m => m.number)).Nodup) :
    xCast b entries s = accept (bedHandles (s.poured b entries) b) (s.poured b entries) := by
  unfold xCast
  rw [if_neg (by simp [ho]), if_neg (Nat.not_le.mpr hb), if_neg (not_not.mpr hst), if_neg (not_not.mpr hlen),
    if_neg (by simp [entries_pass hmarks hdef]), if_neg (by simp [entries_pass hmarks hdef]), if_neg (Nat.not_lt.mpr hfree),
    if_neg (by simp [(freshMarks_iff s entries).2 ⟨hnew, hnd⟩])]
  rfl

end

/-- R32: the bed after an accepted CAST, beside the plant in which its records are allocated. -/
theorem cast_becomes {s : Plant} {b : Nat} {entries : List MarkWord} (ho : s.isClosed = false) (hb : b < 12)
    (hcls : ∀ m ∈ entries, m.cls < 32) (hfree : entries.length ≤ s.yard.freePieceCount) :
    ∃ hs t, Allotted s (castPieces b s.works.clock entries) hs t
      ∧ Plant.bedBecomes b
        { placed (List.range entries.length) (hs.map some) { s.bed b with maturity := 0 } with state := .cast } (s.heat b) t
        (s.poured b entries) := by
  obtain ⟨hs, hhandles, hall⟩ := allotted_allocateAll (castPieces b s.works.clock entries) s
    (by rw [length_castPieces]; exact hfree) fun p hp => by
      obtain ⟨e, he, rfl⟩ := List.mem_map.1 hp
      exact hcls _ (List.fst_mem_of_mem_zipIdx he)
  have hpieces : (entries.zipIdx.map (fun e => (e.2, e.1, Holds.none))).map (rowPiece b 0 s.works.clock)
      = castPieces b s.works.clock entries := by
    rw [List.map_map]
    rfl
  have hpositions : (entries.zipIdx.map (fun e => (e.2, e.1, Holds.none))).map Prod.fst = List.range entries.length := by
    rw [List.map_map, List.range_eq_range', ← List.zipIdx_map_snd 0 entries]
    rfl
  refine ⟨hs, (allocateAll (castPieces b s.works.clock entries) s).2, hall, ?_⟩
  unfold Plant.poured
  rw [fillPositions_eq, hpieces, hpositions, allocateAll_updBed, hhandles]
  obtain ⟨m, c, v, hrest⟩ := hall.rest
  generalize (allocateAll (castPieces b s.works.clock entries) s).2 = t at hrest ⊢
  have hbed : t.bed b = s.bed b := by rw [hrest]; rfl
  have hheat : t.heat b = s.heat b := by rw [hrest]; rfl
  have hopen : t.isClosed = false := by rw [hrest]; exact ho
  refine bedBecomes_sendIfChanged hb hopen ?_ ?_ hheat rfl
  · exact Plant.onlyBed_trans (Plant.onlyBed_trans (Plant.onlyBed_updBed b t _) (Plant.onlyBed_updBed b _ _))
      (Plant.onlyBed_updBed b _ _)
  · refine (Plant.bed_updBed_same _ _ _ hb).trans ?_
    rw [Plant.bed_updBed_same _ _ _ hb, Plant.bed_updBed_same _ _ _ hb, hbed]

/-! ## What the pour is (R32) -/

theorem placed_handles_at {hs : List Handle} {n i : Nat} (r : BedRecord) (hn : n ≤ 8) (hsize : hs.length = n) (hi : i < n) :
    (placed (List.range n) (hs.map some) r).at i = hs[i]? := by
  have hget : hs[i]? = some (hs[i]'(hsize ▸ hi)) := List.getElem?_eq_getElem _
  refine placed_at (j := i) (h := hs[i]?) _ List.nodup_range (Nat.lt_of_lt_of_le hi hn) (List.getElem?_range hi) ?_
  rw [List.getElem?_map, hget]
  rfl

section
variable {s t : Plant} {b minute : Nat} {entries : List MarkWord} {hs : List Handle}
  (hall : Allotted s (castPieces b minute entries) hs t)
include hall

theorem Allotted.size : hs.length = entries.length := hall.length.trans (length_castPieces _ _ _)

theorem Allotted.handle_of_entry {i : Nat} {m : MarkWord} (hm : entries[i]? = some m) :
    i < entries.length ∧ ∃ h, hs[i]? = some h ∧ (castPieces b minute entries)[i]? = some (bedPiece b i m .none 0 minute) := by
  have hi : i < entries.length := (List.getElem?_eq_some_iff.1 hm).1
  refine ⟨hi, _, List.getElem?_eq_getElem (hall.size ▸ hi), ?_⟩
  rw [castPieces_getElem?, hm]
  rfl

theorem Allotted.entry_of_handle {i : Nat} {h : Handle} (hh : hs[i]? = some h) :
    i < entries.length ∧ ∃ m, entries[i]? = some m
      ∧ (castPieces b minute entries)[i]? = some (bedPiece b i m .none 0 minute) := by
  have hi : i < entries.length := hall.size ▸ (List.getElem?_eq_some_iff.1 hh).1
  have hm : entries[i]? = some entries[i] := List.getElem?_eq_getElem hi
  obtain ⟨-, -, -, hpiece⟩ := hall.handle_of_entry hm
  exact ⟨hi, _, hm, hpiece⟩

/-- R32: the record of an entry, found by its mark. -/
theorem Allotted.pour_entry (hnew : ∀ m ∈ entries, Machine.markSlot s.markMap m.number = none)
    (hnd : (entries.map (fun m => m.number)).Nodup) {i : Nat} {m : MarkWord} (hm : entries[i]? = some m) :
    ∃ h, hs[i]? = some h ∧ s.yard.pieceAt h.slot = none ∧ h.gen = (s.yard.pieceSlot h.slot).gen
      ∧ Machine.markSlot t.markMap m.number = some h.slot ∧ t.yard.pieceAt h.slot = some (bedPiece b i m .none 0 minute) := by
  obtain ⟨-, h, hh, hpiece⟩ := hall.handle_of_entry hm
  obtain ⟨hfree, hgen⟩ := hall.free h (List.mem_of_getElem? hh)
  refine ⟨h, hh, hfree, hgen, hall.markSlot (fun q hq => ?_) ?_ hpiece hh, hall.filled i h _ hh hpiece⟩
  · obtain ⟨e, he, rfl⟩ := List.mem_map.1 hq
    exact hnew _ (List.fst_mem_of_mem_zipIdx he)
  · rw [map_castPieces (g := fun m : MarkWord => m.number) _ _ _ fun _ _ => rfl]
    exact hnd

/-- R6, R32: the marks of the entries are in the map, beside those that were. -/
theorem Allotted.pour_marks (mark slot : Nat) : (mark, slot) ∈ t.markMap ↔ (mark, slot) ∈ s.markMap
    ∨ ∃ (i : Nat) (m : MarkWord) (h : Handle), entries[i]? = some m ∧ hs[i]? = some h
      ∧ mark = m.number ∧ slot = h.slot := by
  rw [hall.marks]
  refine or_congr_right ⟨?_, ?_⟩
  · rintro ⟨i, q, h, hq, hh, rfl, rfl⟩
    obtain ⟨-, m, hm, hpiece⟩ := hall.entry_of_handle hh
    obtain rfl := Option.some.inj (hpiece.symm.trans hq)
    exact ⟨i, m, h, hm, hh, rfl, rfl⟩
  · rintro ⟨i, m, h, hm, hh, rfl, rfl⟩
    obtain ⟨-, -, -, hpiece⟩ := hall.handle_of_entry hm
    exact ⟨i, _, h, hpiece, hh, rfl, rfl⟩

end

/-- Settles O26: the checks in their order; then the records allocated and the positions written. -/
theorem castFillsTheBed : Obligations.CastFillsTheBed := by
  refine ⟨fun hd b entries s hs ho hb hst hlen hn hok hfree hnew hnd => ?_, fun hd b entries s row hs ho hrow => ?_⟩
  · have hdef := fun m hm => (hok m hm).2
    have hrun := xCast_accepted ho hb hst hlen (fun m hm => (hok m hm).1) hdef hfree hnew hnd
    obtain ⟨handles, t, hall, hbecomes⟩ := cast_becomes (s := s.plant) ho hb (fun m hm => (hdef m hm).1) (hlen ▸ hfree)
    generalize s.plant.poured b entries = p at hrun hbecomes
    obtain ⟨mm, cc, v, hrest⟩ := hall.rest
    obtain ⟨⟨hworks, hclasses, hmap, hintake, hyard, hothers⟩, hbed, hheat, hline⟩ := hbecomes
    have hrecord := placed_rest (List.range entries.length) (handles.map some) { s.plant.bed b with maturity := 0 }
    have hat : ∀ i, i < entries.length → (p.bed b).at i = handles[i]? := fun i hi => by
      rw [hbed]
      exact placed_handles_at _ (by omega) hall.size hi
    have hpos : (p.bed b).positions = (s.plant.bed b).positions := by
      rw [hbed]
      exact (congrArg BedRecord.positions hrecord :)
    have hcls : ∀ c, p.cls c = t.cls c := fun c => by
      unfold Plant.cls
      rw [hclasses]
    rw [bedHandles, hpos] at hrun
    refine ⟨p, exec_accepted rfl hs (by simp) hrun, ?_, fun i m hm => ?_, fun i hi => ?_,
      fun i h slot hi hh hlow hf => ?_, fun slot hslot => ?_, ?_, fun mark slot => ?_, fun c => ?_, ?_, ?_, fun i hi => ?_, ?_, ?_⟩
    · rw [hbed]
      exact congrArg (fun r : BedRecord => { r with state := .cast, table := (s.plant.bed b).table }) hrecord
    · rw [hmap, hyard, hat i (hall.handle_of_entry hm).1]
      exact hall.pour_entry hnew hnd hm
    · rw [hbed]
      exact placed_at_other _ _ fun hmem => absurd (List.mem_range.1 hmem) (Nat.not_lt.mpr hi)
    · obtain ⟨j, g, hj, hg, hslot⟩ := hall.lowest i h slot ((hat i hi).symm.trans hh) hlow hf
      exact ⟨j, g, hj, (hat j (hj.trans hi)).trans hg, hslot⟩
    · rw [hyard]
      refine hall.others slot fun h hh => ?_
      obtain ⟨i, hget⟩ := List.mem_iff_getElem?.1 hh
      have hi := (hall.entry_of_handle hget).1
      exact hslot i h hi ((hat i hi).trans hget)
    · rw [hyard, hrest]
    · rw [hmap, hall.pour_marks]
      refine or_congr_right (exists_congr fun i => exists_congr fun m => exists_congr fun h => and_congr_right fun hm => ?_)
      rw [hat i (hall.handle_of_entry hm).1]
    · rw [hcls, hall.counts, countP_castPieces]
    · rw [hheat, hbed]
    · rw [hline, hbed, hrest]
      rfl
    · rw [hrest] at hothers
      exact hothers i hi
    · rw [hworks, hrest]
    · rw [hintake, hrest]
  · subst hrow
    refine ⟨fun hb => refuses_of_run rfl hs (by simp) (by simp [runCommand, xCast, ho, hb, refuse]), fun hb =>
      ⟨fun hst => refuses_of_run rfl hs (by simp) (xCast_state ho hb hst), fun hst =>
        ⟨fun hbad => refuses_of_run rfl hs (by simp) (xCast_range ho hb hst hbad), fun hlen hmarks hdef =>
          ⟨fun hfull => refuses_of_run rfl hs (by simp) (xCast_noSlot ho hb hst hlen hmarks hdef hfull), fun hfree hdup =>
            refuses_of_run rfl hs (by simp) (xCast_duplicate ho hb hst hlen hmarks hdef hfree hdup)⟩⟩⟩⟩

end Sys2Proof.Machine
end

