-- ==== Sys2Proof/Proofs/HeatFrame.lean ====
section
/-! PROOF. What the invariants of the heat read of the plant, the changes that leave it as it is or differ at one bed, and what
an order sent and a walk over the beds do to it (R47, R55, R56). -/

namespace Sys2Proof.Machine

/-! ## What the invariants of the heat read -/

/-- R55: what a heat order takes from a bed record. -/
def BedRecord.heating (r : BedRecord) : BedState × Nat := (r.state, r.holdSetpoint)

/-- What the invariants of the heat read of one bed. -/
def Plant.heatAt (p : Plant) (b : Nat) : (BedState × Nat) × HeatRecord := ((p.bed b).heating, p.heat b)

/-- What the invariants of the heat read of the works. -/
def Plant.heatRule (p : Plant) : Bool × Bool × Settings := (p.isClosed, p.works.stop, p.works.settings)

/-- R47, R64, R215: the heat invariant, read from the plant. -/
def Plant.heatLawful (p : Plant) : Prop :=
  p.works.settings.ok = true ∧ ∀ b, b < 12 → (p.heat b).lawful p.isClosed p.works.stop

theorem heatInv_iff (s : State) : HeatInv s ↔ s.plant.heatLawful := Iff.rfl

/-- R56: the last order of the bed is the order that its records form. -/
def Plant.orderStands (p : Plant) (b : Nat) : Prop := formOrder (p.bed b) (p.heat b) = (p.heat b).lastOrder

/-- R55: a heat order takes no other field of the bed record. -/
theorem formOrder_heating {r r' : BedRecord} (h : r'.heating = r.heating) (x : HeatRecord) :
    formOrder r' x = formOrder r x := by
  obtain ⟨hstate, hset⟩ := Prod.mk.inj h
  unfold formOrder orderSetpoint
  rw [hstate, hset]

theorem Plant.orderStands_of_heatAt {p q : Plant} {b : Nat} (h : q.heatAt b = p.heatAt b) (ho : p.orderStands b) :
    q.orderStands b := by
  obtain ⟨hbed, hheat⟩ := Prod.mk.inj h
  unfold Plant.orderStands
  rw [formOrder_heating hbed, hheat]
  exact ho

theorem Plant.heat_of_heatAt {p q : Plant} {b : Nat} (h : q.heatAt b = p.heatAt b) : q.heat b = p.heat b :=
  (Prod.mk.inj h).2

section
variable {p q : Plant} (h : q.heatRule = p.heatRule)
include h

theorem Plant.isClosed_of_heatRule : q.isClosed = p.isClosed := (Prod.mk.inj h).1

theorem Plant.stop_of_heatRule : q.works.stop = p.works.stop := (Prod.mk.inj (Prod.mk.inj h).2).1

theorem Plant.settings_of_heatRule : q.works.settings = p.works.settings := (Prod.mk.inj (Prod.mk.inj h).2).2

end

/-! ## The changes that the heat does not see, or sees at one bed -/

/-- What the invariants of the heat read differs at bed `b` at most. -/
structure Plant.HeatsBut (b : Nat) (p q : Plant) : Prop where
  rule  : q.heatRule = p.heatRule
  other : ∀ i, i ≠ b → q.heatAt i = p.heatAt i

/-- What the invariants of the heat read is as it was. -/
structure Plant.SameHeat (p q : Plant) : Prop where
  rule : q.heatRule = p.heatRule
  all  : ∀ i, q.heatAt i = p.heatAt i

namespace Plant.SameHeat
variable {p q r : Plant}

theorem refl (p : Plant) : Plant.SameHeat p p := ⟨rfl, fun _ => rfl⟩

theorem trans (h : Plant.SameHeat p q) (k : Plant.SameHeat q r) : Plant.SameHeat p r :=
  ⟨k.rule.trans h.rule, fun i => (k.all i).trans (h.all i)⟩

theorem but (h : Plant.SameHeat p q) (b : Nat) : Plant.HeatsBut b p q := ⟨h.rule, fun i _ => h.all i⟩

theorem updYard (p : Plant) (f : Yard → Yard) : Plant.SameHeat p (p.updYard f) := ⟨rfl, fun _ => rfl⟩

theorem updIntake (p : Plant) (b : Nat) (f : IntakeRecord → IntakeRecord) : Plant.SameHeat p (p.updIntake b f) :=
  ⟨rfl, fun _ => rfl⟩

/-- A change of a bed record that leaves its state and its hold setpoint. -/
theorem updBed (p : Plant) (b : Nat) (f : BedRecord → BedRecord) (h : (f (p.bed b)).heating = (p.bed b).heating) :
    Plant.SameHeat p (p.updBed b f) :=
  ⟨rfl, fun i => Prod.ext (proj_getOr_upd BedRecord.heating p.beds b f _ h i) rfl⟩

theorem latchBed (p : Plant) (b : Nat) (f : BedFlags → BedFlags) : Plant.SameHeat p (p.latchBed b f) := updBed p b _ rfl

theorem forEach {α : Type} {f : Plant → α → Plant} (h : ∀ p a, Plant.SameHeat p (f p a)) (xs : List α) (p : Plant) :
    Plant.SameHeat p (Machine.forEach xs f p) := by
  unfold Machine.forEach
  induction xs generalizing p with
  | nil => exact refl p
  | cons x xs ih => exact (h p x).trans (ih (f p x))

/-! The work that follows a change is yard work (R153). -/

theorem settle (s0 : Plant) (h : Plant.SameHeat p q) : Plant.SameHeat p (s0.settle q) := h.trans (.updYard q _)

theorem settleClaim (h : Plant.SameHeat p q) : Plant.SameHeat p q.settleClaim := h.trans (.updYard q _)

theorem settleFault (s0 : Plant) (k : Nat) (h : Plant.SameHeat p q) : Plant.SameHeat p (s0.settleFault q k) := by
  unfold Plant.settleFault
  split
  · exact h.settleClaim
  · exact h.settle s0

end Plant.SameHeat

namespace Plant.HeatsBut
variable {b : Nat} {p q r : Plant}

theorem trans (h : Plant.HeatsBut b p q) (k : Plant.HeatsBut b q r) : Plant.HeatsBut b p r :=
  ⟨k.rule.trans h.rule, fun i hi => (k.other i hi).trans (h.other i hi)⟩

/-- A change of one bed alone. -/
theorem of_onlyBed (h : Plant.onlyBed b p q) : Plant.HeatsBut b p q := by
  obtain ⟨hworks, -, -, -, -, hother⟩ := h
  refine ⟨?_, fun i hi => ?_⟩
  · unfold Plant.heatRule Plant.isClosed
    rw [hworks]
  · obtain ⟨hbed, hheat, -⟩ := hother i hi
    unfold Plant.heatAt
    rw [hbed, hheat]

theorem updHeat (h : Plant.HeatsBut b p q) (f : HeatRecord → HeatRecord) : Plant.HeatsBut b p (q.updHeat b f) :=
  h.trans (of_onlyBed (Plant.onlyBed_updHeat b q f))

theorem updBed (h : Plant.HeatsBut b p q) (f : BedRecord → BedRecord) : Plant.HeatsBut b p (q.updBed b f) :=
  h.trans (of_onlyBed (Plant.onlyBed_updBed b q f))

end Plant.HeatsBut

/-- What the invariants of the heat read differs at bed `b` at most, whose heat record stays lawful. -/
structure Plant.HeatsAt (b : Nat) (p q : Plant) : Prop extends Plant.HeatsBut b p q where
  lawful : b < 12 → ∀ closed stop, (p.heat b).lawful closed stop → (q.heat b).lawful closed stop

namespace Plant.HeatsAt
variable {b : Nat} {p q r : Plant}

theorem of_same (h : Plant.SameHeat p q) (b : Nat) : Plant.HeatsAt b p q :=
  ⟨h.but b, fun _ _ _ hl => by rw [Plant.heat_of_heatAt (h.all b)]; exact hl⟩

theorem refl (b : Nat) (p : Plant) : Plant.HeatsAt b p p := of_same (.refl p) b

theorem trans (h : Plant.HeatsAt b p q) (k : Plant.HeatsAt b q r) : Plant.HeatsAt b p r :=
  ⟨h.toHeatsBut.trans k.toHeatsBut, fun hb c s hl => k.lawful hb c s (h.lawful hb c s hl)⟩

theorem updBed (h : Plant.HeatsAt b p q) (f : BedRecord → BedRecord) : Plant.HeatsAt b p (q.updBed b f) :=
  ⟨h.toHeatsBut.updBed f, h.lawful⟩

theorem updHeat (h : Plant.HeatsAt b p q) (f : HeatRecord → HeatRecord)
    (hf : ∀ (closed stop : Bool) (x : HeatRecord), x.lawful closed stop → (f x).lawful closed stop) :
    Plant.HeatsAt b p (q.updHeat b f) := by
  refine ⟨h.toHeatsBut.updHeat f, fun hb c s hl => ?_⟩
  rw [Plant.heat_updHeat_same _ _ _ hb]
  exact hf c s _ (h.lawful hb c s hl)

end Plant.HeatsAt

/-! ## An order sent (R56) -/

/-- R56: what the sending of the order of bed `b`, changed or not, makes of the plant `q`: nothing but the last order of the bed
is written, which in OPEN is then the order that its records form. -/
structure Plant.Sends (b : Nat) (q t : Plant) : Prop where
  but    : Plant.HeatsBut b q t
  heat   : ∃ o, t.heat b = { q.heat b with lastOrder := o }
  stands : b < 12 → q.isClosed = false → t.orderStands b

/-- R47: the last order is no part of a heat record's laws. -/
theorem HeatRecord.lawful_lastOrder {closed stop : Bool} {h : HeatRecord} (o : HeatOrder) (hl : h.lawful closed stop) :
    HeatRecord.lawful closed stop { h with lastOrder := o } := hl

/-- R55: the last order is no part of what an order is formed of. -/
theorem formOrder_lastOrder (r : BedRecord) (h : HeatRecord) (o : HeatOrder) :
    formOrder r { h with lastOrder := o } = formOrder r h := rfl

/-- What sends the order in OPEN, writes nothing in CLOSED, and no bed record in either, sends the order. -/
theorem Plant.Sends.of_opened {b : Nat} {q t : Plant} (honly : Plant.onlyBed b q t) (hbeds : t.beds = q.beds)
    (hclosed : q.isClosed = true → ∃ o, t.heat b = { q.heat b with lastOrder := o })
    (hopen : b < 12 → q.isClosed = false →
      t.heat b = { q.heat b with lastOrder := formOrder (q.bed b) (q.heat b) }) : Plant.Sends b q t := by
  refine ⟨.of_onlyBed honly, ?_, fun hb ho => ?_⟩
  · by_cases hc : q.isClosed = true
    · exact hclosed hc
    · by_cases hb : b < 12
      · exact ⟨_, hopen hb (Bool.eq_false_iff.2 hc)⟩
      · refine ⟨(q.heat b).lastOrder, ?_⟩
        unfold Plant.heat
        rw [getOr_ge _ _ _ (Nat.not_lt.mp hb), getOr_ge _ _ _ (Nat.not_lt.mp hb)]
  · unfold Plant.orderStands
    rw [hopen hb ho, formOrder_lastOrder, show t.bed b = q.bed b from congrArg (getOr · b BedRecord.reset) hbeds]

theorem sendOrder_closed {q : Plant} (b : Nat) (hc : q.isClosed = true) : sendOrder q b = q := by
  unfold sendOrder
  rw [if_pos hc]

theorem sends_sendOrder (q : Plant) (b : Nat) : Plant.Sends b q (sendOrder q b) :=
  .of_opened (sendOrder_onlyBed q b) (sendOrder_beds q b) (fun hc => ⟨_, by rw [sendOrder_closed b hc]⟩)
    (sendOrder_heat q b)

theorem sends_sendIfChanged (q : Plant) (b : Nat) : Plant.Sends b q (sendIfChanged q b) := by
  refine .of_opened (sendIfChanged_onlyBed q b) (sendIfChanged_beds q b) (fun hc => ⟨(q.heat b).lastOrder, ?_⟩)
    (sendIfChanged_heat q b)
  unfold sendIfChanged
  split
  · rfl
  · rw [sendOrder_closed b hc]

/-! ## What a step keeps -/

/-- A change of the plant that keeps the heat records lawful and the heat orders sent. -/
structure Plant.KeepsHeat (p q : Plant) : Prop where
  lawful : p.heatLawful → q.heatLawful
  orders : p.ordersSent → q.ordersSent

namespace Plant.KeepsHeat
variable {b : Nat} {p q r t : Plant}

theorem refl (p : Plant) : Plant.KeepsHeat p p := ⟨id, id⟩

theorem trans (h : Plant.KeepsHeat p q) (k : Plant.KeepsHeat q r) : Plant.KeepsHeat p r :=
  ⟨fun hp => k.lawful (h.lawful hp), fun hp => k.orders (h.orders hp)⟩

theorem forEach {α : Type} {f : Plant → α → Plant} (h : ∀ p a, Plant.KeepsHeat p (f p a)) (xs : List α) (p : Plant) :
    Plant.KeepsHeat p (Machine.forEach xs f p) := by
  unfold Machine.forEach
  induction xs generalizing p with
  | nil => exact refl p
  | cons x xs ih => exact (h p x).trans (ih (f p x))

/-- A change at one bed keeps what it keeps there. -/
theorem of_but (hq : Plant.HeatsBut b p q)
    (hl : b < 12 → p.heatLawful → (q.heat b).lawful p.isClosed p.works.stop)
    (ho : b < 12 → p.isClosed = false → p.orderStands b → q.orderStands b) : Plant.KeepsHeat p q where
  lawful hp := by
    refine ⟨by rw [Plant.settings_of_heatRule hq.rule]; exact hp.1, fun i hi => ?_⟩
    rw [Plant.isClosed_of_heatRule hq.rule, Plant.stop_of_heatRule hq.rule]
    by_cases hib : i = b
    · subst hib
      exact hl hi hp
    · rw [Plant.heat_of_heatAt (hq.other i hib)]
      exact hp.2 i hi
  orders hp hopen i hi := by
    rw [Plant.isClosed_of_heatRule hq.rule] at hopen
    by_cases hib : i = b
    · subst hib
      exact ho hi hopen (hp hopen i hi)
    · exact Plant.orderStands_of_heatAt (hq.other i hib) (hp hopen i hi)

theorem of_same (h : Plant.SameHeat p q) : Plant.KeepsHeat p q := by
  refine .of_but (h.but 0) (fun h0 hp => ?_) fun _ _ => Plant.orderStands_of_heatAt (h.all 0)
  rw [Plant.heat_of_heatAt (h.all 0)]
  exact hp.2 0 h0

/-- R56: a change at one bed, with the order of that bed sent, keeps the records lawful where the bed's own is. -/
theorem sent (hq : Plant.HeatsBut b p q)
    (hl : b < 12 → p.heatLawful → (q.heat b).lawful p.isClosed p.works.stop) (ht : Plant.Sends b q t) :
    Plant.KeepsHeat p t := by
  refine .of_but (hq.trans ht.but) (fun hb hp => ?_) fun hb hopen _ => ht.stands hb ?_
  · obtain ⟨o, ho⟩ := ht.heat
    rw [ho]
    exact HeatRecord.lawful_lastOrder o (hl hb hp)
  · rw [Plant.isClosed_of_heatRule hq.rule, hopen]

/-- R56: a change that keeps the laws of the one bed's heat record, with the order of that bed sent. -/
theorem sent_at (hq : Plant.HeatsAt b p q) (ht : Plant.Sends b q t) : Plant.KeepsHeat p t :=
  .sent hq.toHeatsBut (fun hb hp => hq.lawful hb _ _ (hp.2 b hb)) ht

/-- A change of a heat record that no order is formed of and no law reads. -/
theorem updHeat (p : Plant) (b : Nat) (f : HeatRecord → HeatRecord)
    (hl : ∀ (closed stop : Bool) (h : HeatRecord), h.lawful closed stop → (f h).lawful closed stop)
    (ho : ∀ r h, formOrder r (f h) = formOrder r h) (hlast : ∀ h, (f h).lastOrder = h.lastOrder) :
    Plant.KeepsHeat p (p.updHeat b f) := by
  refine .of_but (.of_onlyBed (Plant.onlyBed_updHeat b p f)) (fun hb hp => ?_) fun hb _ hs => ?_
  · rw [Plant.heat_updHeat_same _ _ _ hb]
    exact hl _ _ _ (hp.2 b hb)
  · unfold Plant.orderStands
    rw [Plant.heat_updHeat_same _ _ _ hb, ho, hlast]
    exact hs

theorem settle (s0 : Plant) (h : Plant.KeepsHeat p q) : Plant.KeepsHeat p (s0.settle q) :=
  h.trans (.of_same (.settle s0 (.refl q)))

end Plant.KeepsHeat

/-! ## A walk over the beds -/

/-- What a walk makes of one bed, the steps of which each change their own bed: its step was taken at a plant that agreed with
the first one there. -/
theorem heatAt_walk {f : Plant → Nat → Plant} (hf : ∀ q b, Plant.HeatsBut b q (f q b)) (xs : List Nat) (hnd : xs.Nodup)
    (p : Plant) : (forEach xs f p).heatRule = p.heatRule
      ∧ ∀ i, (i ∉ xs → (forEach xs f p).heatAt i = p.heatAt i)
        ∧ (i ∈ xs → ∃ q, q.heatRule = p.heatRule ∧ q.heatAt i = p.heatAt i
          ∧ (forEach xs f p).heatAt i = (f q i).heatAt i) := by
  unfold forEach
  induction xs generalizing p with
  | nil => exact ⟨rfl, fun i => ⟨fun _ => rfl, fun hi => absurd hi List.not_mem_nil⟩⟩
  | cons b xs ih =>
    obtain ⟨hb, hxs⟩ := List.nodup_cons.1 hnd
    obtain ⟨hrule, hwalk⟩ := ih hxs (f p b)
    have hstep := hf p b
    refine ⟨hrule.trans hstep.rule, fun i => ⟨fun hi => ?_, fun hi => ?_⟩⟩
    · obtain ⟨hib, hixs⟩ := not_or.1 (List.mem_cons.not.1 hi)
      exact ((hwalk i).1 hixs).trans (hstep.other i hib)
    · by_cases hib : i = b
      · subst hib
        exact ⟨p, rfl, rfl, (hwalk i).1 hb⟩
      · obtain ⟨q, hq, hat, hlast⟩ := (hwalk i).2 ((List.mem_cons.1 hi).resolve_left hib)
        exact ⟨q, hq.trans hstep.rule, hat.trans (hstep.other i hib), hlast⟩

section
variable {f : Plant → Nat → Plant} (hf : ∀ q b, Plant.HeatsBut b q (f q b)) (p : Plant)
include hf

theorem heatRule_walk : (forEach (List.range 12) f p).heatRule = p.heatRule := (heatAt_walk hf _ List.nodup_range p).1

/-- What each step makes of its own heat record, the walk over the twelve beds makes of all. -/
theorem heat_walk {P Q : HeatRecord → Prop}
    (hstep : ∀ q i, i < 12 → q.heatRule = p.heatRule → P (q.heat i) → Q ((f q i).heat i))
    (hp : ∀ i, i < 12 → P (p.heat i)) (i : Nat) (hi : i < 12) : Q ((forEach (List.range 12) f p).heat i) := by
  obtain ⟨q, hrule, hat, hlast⟩ := ((heatAt_walk hf _ List.nodup_range p).2 i).2 (List.mem_range.2 hi)
  rw [Plant.heat_of_heatAt hlast]
  refine hstep q i hi hrule ?_
  rw [Plant.heat_of_heatAt hat]
  exact hp i hi

/-- R56: a walk each step of which sends the order of its bed sends all orders. -/
theorem ordersSent_walk (hstep : ∀ q i, i < 12 → q.isClosed = false → (f q i).orderStands i) :
    (forEach (List.range 12) f p).ordersSent := by
  intro hopen i hi
  obtain ⟨q, hrule, -, hlast⟩ := ((heatAt_walk hf _ List.nodup_range p).2 i).2 (List.mem_range.2 hi)
  refine Plant.orderStands_of_heatAt hlast (hstep q i hi ?_)
  rw [Plant.isClosed_of_heatRule hrule, ← Plant.isClosed_of_heatRule (heatRule_walk hf p), hopen]

end

end Sys2Proof.Machine
end


-- ==== Sys2Proof/Proofs/HeatSteps.lean ====
section
/-! PROOF. The heat records under their own operations (R47 to R63), and the works clock, the samples, the plant stop line and the
settings: each keeps the heat records lawful and the heat orders sent. -/

namespace Sys2Proof.Machine

/-! ## The laws of a heat record, in two parts -/

/-- R47, clauses 1 to 3, and R64: the modes and the transition of a heat record. -/
def HeatRecord.modesLawful (closed stop : Bool) (h : HeatRecord) : Prop :=
  (h.transition = .none ↔ h.minutes = 0)
    ∧ (h.transition ≠ .none → h.running = .off)
    ∧ (h.transition = .purge → h.requested = .steam)
    ∧ (h.transition = .settle → h.requested = .mat)
    ∧ (h.transition = .none → stop = false → h.running = h.requested)
    ∧ (stop = true → h.running = .off ∧ h.transition = .none)
    ∧ (closed = true → h.requested = .off ∧ h.running = .off ∧ h.transition = .none)

/-- R47, clause 4: a swap is pending only while the plan runs. -/
def HeatRecord.planLawful (h : HeatRecord) : Prop := h.swapPending = true → h.plan = .running

theorem HeatRecord.lawful_iff {closed stop : Bool} {h : HeatRecord} :
    h.lawful closed stop ↔ h.modesLawful closed stop ∧ h.planLawful :=
  ⟨fun ⟨h1, h2, h3, h4, h5, h6, h7, h8⟩ => ⟨⟨h1, h2, h3, h4, h5, h6, h8⟩, h7⟩,
    fun ⟨⟨h1, h2, h3, h4, h5, h6, h8⟩, h7⟩ => ⟨h1, h2, h3, h4, h5, h6, h7, h8⟩⟩

section
variable {closed stop : Bool} {h : HeatRecord}

/-- R50, R53: a record turned off is lawful in every phase. -/
theorem HeatRecord.modesLawful_turnOff : h.turnOff.modesLawful closed stop := by
  simp [HeatRecord.modesLawful, HeatRecord.turnOff]

theorem HeatRecord.lawful_turnOff (hl : h.lawful closed stop) : h.turnOff.lawful closed stop :=
  HeatRecord.lawful_iff.2 ⟨HeatRecord.modesLawful_turnOff, (HeatRecord.lawful_iff.1 hl).2⟩

/-- R54: a record at the assertion of the plant stop. -/
theorem HeatRecord.lawful_stop (hl : h.lawful false stop) : h.stop.lawful false true :=
  HeatRecord.lawful_iff.2 ⟨by simp [HeatRecord.modesLawful, HeatRecord.stop], (HeatRecord.lawful_iff.1 hl).2⟩

theorem Settings.purge_ne_zero {st : Settings} (h : st.ok = true) : st.purge ≠ 0 := by
  simp only [Settings.ok, Bool.and_eq_true, Bool.or_eq_true, decide_eq_true_eq] at h
  omega

/-- R48, R50: a transition begun runs toward the requested mode; a request of OFF finds no heat and no transition. -/
theorem HeatRecord.lawful_begin {purge : Nat} (hpurge : purge ≠ 0)
    (hoff : h.requested = .off → h.running = .off ∧ h.transition = .none ∧ h.minutes = 0) (hp : h.planLawful) :
    (h.begin purge).lawful false false := by
  refine HeatRecord.lawful_iff.2 ?_
  unfold HeatRecord.begin
  cases hreq : h.requested with
  | off =>
    obtain ⟨hrun, htr, hmin⟩ := hoff hreq
    exact ⟨by simp [HeatRecord.modesLawful, hrun, htr, hmin, hreq], hp⟩
  | steam => exact ⟨by simp [HeatRecord.modesLawful, hpurge], hp⟩
  | mat => exact ⟨by simp [HeatRecord.modesLawful], hp⟩

/-- R54: the release of the plant stop begins the transition to the requested mode. -/
theorem HeatRecord.lawful_release {purge : Nat} (hpurge : purge ≠ 0) (hl : h.lawful false true) :
    (h.begin purge).lawful false false := by
  obtain ⟨⟨hmin, -, -, -, -, hstop, -⟩, hp⟩ := HeatRecord.lawful_iff.1 hl
  obtain ⟨hrun, htr⟩ := hstop rfl
  exact HeatRecord.lawful_begin hpurge (fun _ => ⟨hrun, htr, hmin.1 htr⟩) hp

/-- R50, R51: a request accepted outside a transition; OFF is accepted in one too. -/
theorem HeatRecord.lawful_request {purge : Nat} {m : HeatMode} (hpurge : purge ≠ 0)
    (hfree : m ≠ .off → h.transition = .none) (hl : h.lawful false stop) : (h.request stop purge m).lawful false stop := by
  obtain ⟨⟨hmin, -, -, -, -, hstop, -⟩, hp⟩ := HeatRecord.lawful_iff.1 hl
  unfold HeatRecord.request
  split
  · exact HeatRecord.lawful_turnOff hl
  · rename_i hm
    have htr := hfree hm
    split
    · exact hl
    · cases stop with
      | true =>
        obtain ⟨hrun, -⟩ := hstop rfl
        exact HeatRecord.lawful_iff.2 ⟨by simp [HeatRecord.modesLawful, hrun, htr, hmin.1 htr], hp⟩
      | false =>
        exact HeatRecord.lawful_begin (h := { h with requested := m }) hpurge (fun hreq => absurd hreq hm) hp

/-- R48: a timer event without a transition. -/
theorem HeatRecord.tickTransition_none (htr : h.transition = .none) : h.tickTransition = h := by
  unfold HeatRecord.tickTransition
  rw [htr]

/-- R48: a timer event in a transition, PURGE and SETTLE alike. -/
theorem HeatRecord.tickTransition_counts (htr : h.transition ≠ .none) : h.tickTransition
    = if h.minutes ≤ 1 then { h with transition := .none, minutes := 0, running := h.requested }
      else { h with minutes := h.minutes - 1 } := by
  unfold HeatRecord.tickTransition
  cases ht : h.transition with
  | none => exact absurd ht htr
  | purge => rfl
  | settle => rfl

/-- R48: the transition's part of a timer event, which ends in the requested mode. -/
theorem HeatRecord.lawful_tickTransition (hl : h.lawful closed stop) :
    HeatRecord.lawful closed stop { h.tickTransition with due := false } := by
  obtain ⟨⟨hmin, hrun, hpurge, hsettle, hmode, hstop, hclosed⟩, hp⟩ := HeatRecord.lawful_iff.1 hl
  by_cases htr : h.transition = .none
  · rw [HeatRecord.tickTransition_none htr]
    exact hl
  · have hns : ¬stop = true := fun hs => htr (hstop hs).2
    have hnc : ¬closed = true := fun hc => htr (hclosed hc).2.2
    refine HeatRecord.lawful_iff.2 ?_
    rw [HeatRecord.tickTransition_counts htr]
    split
    · exact ⟨by simp [HeatRecord.modesLawful, hns, hnc], hp⟩
    · exact ⟨⟨iff_of_false htr (by dsimp only; omega), hrun, hpurge, hsettle, hmode, hstop, hclosed⟩, hp⟩

/-- R62, R63: the end of a segment leaves no swap pending; at the last one the heat is OFF. -/
theorem HeatRecord.lawful_endSegment (hl : h.lawful closed stop) : h.endSegment.lawful closed stop := by
  obtain ⟨hm, hp⟩ := HeatRecord.lawful_iff.1 hl
  unfold HeatRecord.endSegment
  split
  · exact HeatRecord.lawful_iff.2 ⟨hm, fun _ => rfl⟩
  · rename_i hswap
    split
    · exact HeatRecord.lawful_iff.2 ⟨HeatRecord.modesLawful_turnOff, fun hs => absurd hs hswap⟩
    · exact HeatRecord.lawful_iff.2 ⟨hm, hp⟩

theorem HeatRecord.lawful_endRunning (hl : h.lawful closed stop) : h.endRunning.lawful closed stop := by
  obtain ⟨hm, hp⟩ := HeatRecord.lawful_iff.1 hl
  unfold HeatRecord.endRunning
  split
  · exact HeatRecord.lawful_iff.2 ⟨hm, fun hs => absurd hs Bool.false_ne_true⟩
  · exact hl

/-- R63: STOP CURE completes the plan. -/
theorem HeatRecord.lawful_complete (hl : h.lawful closed stop) :
    HeatRecord.lawful closed stop { h with plan := .complete, swapPending := false } :=
  HeatRecord.lawful_iff.2 ⟨(HeatRecord.lawful_iff.1 hl).1, fun hs => absurd hs Bool.false_ne_true⟩

/-- R35: a request withdrawn where no heat runs and no transition does. -/
theorem HeatRecord.lawful_unrequested (hrun : h.running = .off) (htr : h.transition = .none) (hl : h.lawful closed stop) :
    HeatRecord.lawful closed stop { h with requested := .off } := by
  obtain ⟨⟨hmin, -⟩, hp⟩ := HeatRecord.lawful_iff.1 hl
  exact HeatRecord.lawful_iff.2 ⟨by simp [HeatRecord.modesLawful, hrun, htr, hmin.1 htr], hp⟩

/-- R59: SWAP PLAN while the plan runs marks the swap. -/
theorem HeatRecord.swap_running (curing : Bool) (hplan : h.plan = .running) :
    h.swap curing = { h with swapPending := true } := by
  unfold HeatRecord.swap
  rw [hplan]

/-- R59: SWAP PLAN loads NEXT where no plan runs and the bed is not curing after a complete one. -/
theorem HeatRecord.swap_loads {curing : Bool} (hplan : h.plan ≠ .running) (hidle : h.plan = .complete → curing = false) :
    h.swap curing = { h with run := h.next, next := [], plan := .loaded } := by
  unfold HeatRecord.swap
  cases hp : h.plan with
  | running => exact absurd hp hplan
  | complete => rw [hidle hp]; rfl
  | none => rfl
  | loaded => rfl

/-- R59: SWAP PLAN starts NEXT where the plan of a curing bed is complete. -/
theorem HeatRecord.swap_starts (hplan : h.plan = .complete) : h.swap true = h.promote.start := by
  unfold HeatRecord.swap
  rw [hplan]
  rfl

theorem HeatRecord.lawful_swap (curing : Bool) (hl : h.lawful closed stop) : (h.swap curing).lawful closed stop := by
  obtain ⟨hm, hp⟩ := HeatRecord.lawful_iff.1 hl
  by_cases hrun : h.plan = .running
  · rw [HeatRecord.swap_running curing hrun]
    exact HeatRecord.lawful_iff.2 ⟨hm, fun _ => hrun⟩
  · by_cases hidle : h.plan = .complete → curing = false
    · rw [HeatRecord.swap_loads hrun hidle]
      exact HeatRecord.lawful_iff.2 ⟨hm, fun hs => absurd (hp hs) hrun⟩
    · obtain ⟨hdone, hcuring⟩ := Classical.not_imp.1 hidle
      rw [Bool.not_eq_false] at hcuring
      rw [hcuring, HeatRecord.swap_starts hdone]
      exact HeatRecord.lawful_iff.2 ⟨hm, fun _ => rfl⟩

theorem HeatRecord.lawful_startCure (hl : h.lawful closed stop) : h.startCure.lawful closed stop := by
  obtain ⟨hm, hp⟩ := HeatRecord.lawful_iff.1 hl
  unfold HeatRecord.startCure
  split <;> exact HeatRecord.lawful_iff.2 ⟨hm, fun _ => rfl⟩

theorem HeatRecord.lawful_restore (segment minutes : Nat) (hl : h.lawful closed stop) :
    (h.restore segment minutes).lawful closed stop := by
  obtain ⟨hm, -⟩ := HeatRecord.lawful_iff.1 hl
  unfold HeatRecord.restore
  split <;> exact HeatRecord.lawful_iff.2 ⟨hm, fun hs => absurd hs Bool.false_ne_true⟩

/-- R64, R194: at OPEN WORKS no heat is requested or run, so the record is lawful in OPEN. -/
theorem HeatRecord.lawful_openWorks (curing : Bool) (hl : h.lawful true stop) : (h.openWorks curing).lawful false stop := by
  obtain ⟨⟨hmin, -, -, -, -, -, hclosed⟩, hp⟩ := HeatRecord.lawful_iff.1 hl
  obtain ⟨hreq, hrun, htr⟩ := hclosed rfl
  have hm : h.modesLawful false stop := by simp [HeatRecord.modesLawful, hreq, hrun, htr, hmin.1 htr]
  unfold HeatRecord.openWorks
  split
  · exact HeatRecord.lawful_iff.2 ⟨hm, fun _ => rfl⟩
  · exact HeatRecord.lawful_iff.2 ⟨hm, hp⟩

end

/-! ## Forced OFF, and the timer event of a heat record (R48, R53, R61 to R63) -/

section
variable (p : Plant) (b : Nat)

/-- R53: a forced OFF of the heat record alone. -/
theorem Plant.HeatsAt.heatOff {b : Nat} {p q : Plant} (h : Plant.HeatsAt b p q) : Plant.HeatsAt b p (heatOff q b) :=
  h.updHeat _ fun _ _ _ => HeatRecord.lawful_turnOff

/-- R53, R56: a forced OFF after a change of the bed, with the order sent if it changed. -/
theorem Plant.HeatsAt.forceOff {b : Nat} {p q : Plant} (h : Plant.HeatsAt b p q) : Plant.KeepsHeat p (forceOff q b) :=
  .sent_at h.heatOff (sends_sendIfChanged _ b)

theorem keepsHeat_segmentEnds : Plant.KeepsHeat p (segmentEnds p b) := by
  have hend : Plant.HeatsAt b p (p.updHeat b HeatRecord.endSegment) :=
    (Plant.HeatsAt.refl b p).updHeat _ fun _ _ _ => HeatRecord.lawful_endSegment
  unfold segmentEnds
  dsimp only
  split
  · exact .sent_at (hend.trans (.of_same (.latchBed _ b _) b)) (sends_sendIfChanged _ b)
  · exact .sent_at hend (sends_sendIfChanged _ b)

theorem keepsHeat_countSegment : Plant.KeepsHeat p (countSegment p b) := by
  unfold countSegment
  split
  · exact keepsHeat_segmentEnds p b
  · exact .updHeat p b _ (fun _ _ _ hl => hl) (fun _ _ => rfl) fun _ => rfl

theorem keepsHeat_heatTick : Plant.KeepsHeat p (heatTick p b) := by
  have htick : Plant.KeepsHeat p (sendIfChanged (p.updHeat b (fun h => { h.tickTransition with due := false })) b) :=
    .sent_at ((Plant.HeatsAt.refl b p).updHeat _ fun _ _ _ => HeatRecord.lawful_tickTransition) (sends_sendIfChanged _ b)
  unfold heatTick
  dsimp only
  split
  · exact htick.trans (keepsHeat_countSegment _ b)
  · exact htick

/-! ## Samples, gaps and losses (R70, R71, R75 to R80) -/

/-- R76: a CURE hold on every piece of a bed. -/
theorem sameHeat_holdCure : Plant.SameHeat p (holdCure p b) := .updYard p _

/-- R71, R72: a credit writes maturities. -/
theorem sameHeat_creditBed (t : Int) : Plant.SameHeat p (creditBed p b t) := by
  unfold creditBed
  split
  · exact (Plant.SameHeat.updBed p b _ rfl).trans (.updYard _ _)
  · exact .refl p

/-- R79: a GAP expiry latches a flag at most. -/
theorem sameHeat_gapExpiry : Plant.SameHeat p (gapExpiry p b) := by
  have hgap : Plant.SameHeat p (p.updIntake b (fun r => { r with state := .gap })) := .updIntake p b _
  unfold gapExpiry
  dsimp only
  split
  · exact hgap
  · exact hgap.trans (.latchBed _ b _)

/-- R80: a LOST expiry forces the heat of a bed in use OFF. -/
theorem keepsHeat_lostExpiry (wasOk : Bool) : Plant.KeepsHeat p (lostExpiry p b wasOk) := by
  have hlost : Plant.SameHeat p (p.updIntake b (fun r => { r with state := .lost })) := .updIntake p b _
  unfold lostExpiry
  dsimp only
  split
  · exact .of_same hlost
  · refine Plant.KeepsHeat.trans ?_ (.of_same (sameHeat_holdCure _ b))
    exact (Plant.HeatsAt.of_same (hlost.trans (.latchBed _ b _)) b).forceOff

theorem keepsHeat_intakeTick : Plant.KeepsHeat p (intakeTick p b) := by
  unfold intakeTick
  dsimp only
  split
  · exact .of_same (.updIntake p b _)
  · have hcount : Plant.SameHeat p
        (p.updIntake b (fun r => { r with gapCount := (p.intakeOf b).gapCount + 1, due := false })) := .updIntake p b _
    split
    · exact (Plant.KeepsHeat.of_same hcount).trans (keepsHeat_lostExpiry _ b _)
    · split
      · exact .of_same (hcount.trans (sameHeat_gapExpiry _ b))
      · exact .of_same hcount

/-- R75: the over-temperature test turns the heat off at most; the sample's repeat sends the order. -/
theorem heatsAt_overTemperature (t : Int) : Plant.HeatsAt b p (overTemperature p b t) := by
  unfold overTemperature
  split
  · exact (Plant.HeatsAt.of_same (.latchBed p b _) b).heatOff.trans (.of_same (sameHeat_holdCure _ b) b)
  · exact .refl b p

/-- R77: the unit status turns the heat off at most; the sample's repeat sends the order. -/
theorem heatsAt_unitStatus (status : Nat) : Plant.HeatsAt b p (unitStatus p b status) := by
  have hfault : ∀ v, Plant.SameHeat p (p.updIntake b (fun r => { r with unitFault := v })) := fun _ => .updIntake p b _
  unfold unitStatus
  split
  · exact (Plant.HeatsAt.of_same ((hfault true).trans (.latchBed _ b _)) b).heatOff
  · exact .of_same (hfault false) b

theorem keepsHeat_takeSample (seq : Nat) (t : Int) (status : Nat) : Plant.KeepsHeat p (takeSample p b seq t status) := by
  unfold takeSample
  split
  · have hsampled := (Plant.SameHeat.updIntake p b (IntakeRecord.sampled seq t p.works.clock)).trans (sameHeat_creditBed _ b t)
    have htested := (Plant.HeatsAt.of_same hsampled b).trans (heatsAt_overTemperature _ b t)
    exact .sent_at (htested.trans (heatsAt_unitStatus _ b status)) (sends_sendOrder _ b)
  · exact .refl p

theorem keepsHeat_takeBedBytes (bytes : List Byte) : Plant.KeepsHeat p (takeBedBytes p b bytes) := by
  unfold takeBedBytes
  split
  · exact keepsHeat_takeSample p b _ _ _
  · exact .refl p

/-! ## The works clock (R192) -/

/-- R162: what follows the expiry of a report timer is yard work. -/
theorem sameHeat_craneExpires (k : Nat) : Plant.SameHeat p (craneExpires p k) := by
  have hexpiry : Plant.SameHeat p (p.updYard (fun y => timerExpiry p.site y k)) := .updYard p _
  unfold craneExpires
  dsimp only
  split
  · exact hexpiry.settleClaim
  · exact hexpiry.settleFault p k

theorem sameHeat_timerTick (k : Nat) : Plant.SameHeat p (timerTick p k) := by
  rcases timerTick_cases p k with ⟨h, -⟩ | ⟨h, -⟩ | ⟨h, -⟩ <;> rw [h]
  · exact .refl p
  · exact sameHeat_craneExpires p k
  · exact .updYard p _

theorem keepsHeat_takeEvent (e : TimerEvent) : Plant.KeepsHeat p (takeEvent p e) := by
  unfold takeEvent
  cases e with
  | heat b =>
    dsimp only
    split
    · exact keepsHeat_heatTick p b
    · exact .refl p
  | intake b =>
    dsimp only
    split
    · exact keepsHeat_intakeTick p b
    · exact .refl p
  | crane k => exact .of_same (sameHeat_timerTick p k)

theorem keepsHeat_takeDue (s : State) : Plant.KeepsHeat s.plant (takeDue s).plant := by
  rcases takeDue_cases s with ⟨-, h⟩ | ⟨e, -, h⟩ <;> rw [h]
  · exact .refl _
  · exact keepsHeat_takeEvent _ e

/-- R192: an advance makes timer events due, which no order is formed of and no law reads. -/
theorem keepsHeat_bedMinuteDue : Plant.KeepsHeat p (bedMinuteDue p b) :=
  (Plant.KeepsHeat.updHeat p b (fun h => { h with due := true }) (fun _ _ _ hl => hl) (fun _ _ => rfl) fun _ => rfl).trans
    (.of_same (.updIntake _ b _))

theorem keepsHeat_advance : Plant.KeepsHeat p (advance p) := by
  have hclock : Plant.SameHeat p (clockTick p) := ⟨rfl, fun _ => rfl⟩
  have hbeds := (Plant.KeepsHeat.of_same hclock).trans (.forEach keepsHeat_bedMinuteDue (List.range 12) _)
  exact hbeds.trans (.of_same (.updYard _ _))

theorem keepsHeat_advanceClock (s : State) : Plant.KeepsHeat s.plant (advanceClock s).plant := by
  unfold advanceClock
  split
  · exact .refl _
  · refine Plant.KeepsHeat.trans ?_ (keepsHeat_advance _)
    exact takeDues_keeps (P := fun t => Plant.KeepsHeat s.plant t.plant) (fun t ht => ht.trans (keepsHeat_takeDue t)) _ s
      (.refl _)

/-! ## The plant stop line and the settings (R54, R199, R201, R214, R215) -/

/-- R54: a walk over the beds that changes each heat record and sends the order of its bed if it changed. -/
def heatWalk (f : Plant → HeatRecord → HeatRecord) (p : Plant) : Plant :=
  forEach (List.range 12) (fun q b => sendIfChanged (q.updHeat b (f q)) b) p

theorem cureStop_eq : cureStop p = heatWalk (fun _ => HeatRecord.stop) p := rfl

theorem cureRelease_eq : cureRelease p = heatWalk (fun q h => h.begin q.works.settings.purge) p := rfl

/-- A step of the walk changes its own bed. -/
theorem heatsBut_heatStep (f : Plant → HeatRecord → HeatRecord) :
    Plant.HeatsBut b p (sendIfChanged (p.updHeat b (f p)) b) :=
  .trans (.updHeat ((Plant.SameHeat.refl p).but b) _) (sends_sendIfChanged _ b).but

/-- The walk from a plant `q` that differs from `p` in its works record alone: what makes each lawful record of `p` lawful under
the works record of `q` keeps the records lawful; and all orders are sent. -/
theorem keepsHeat_heatWalk {q : Plant} {f : Plant → HeatRecord → HeatRecord} (hcure : ∀ i, q.heat i = p.heat i)
    (hset : q.works.settings = p.works.settings)
    (hf : p.works.settings.ok = true → ∀ r h, r.heatRule = q.heatRule → HeatRecord.lawful p.isClosed p.works.stop h →
      (f r h).lawful q.isClosed q.works.stop) : Plant.KeepsHeat p (heatWalk f q) where
  lawful hp := by
    have hrule : (heatWalk f q).heatRule = q.heatRule := heatRule_walk (fun r b => heatsBut_heatStep r b f) q
    unfold Plant.heatLawful
    rw [Plant.isClosed_of_heatRule hrule, Plant.stop_of_heatRule hrule, Plant.settings_of_heatRule hrule, hset]
    refine ⟨hp.1, heat_walk (fun r b => heatsBut_heatStep r b f) q (P := HeatRecord.lawful p.isClosed p.works.stop)
      (fun r i hi hr hl => ?_) fun i hi => by rw [hcure]; exact hp.2 i hi⟩
    obtain ⟨o, ho⟩ := (sends_sendIfChanged (r.updHeat i (f r)) i).heat
    rw [ho, Plant.heat_updHeat_same _ _ _ hi]
    exact HeatRecord.lawful_lastOrder o (hf hp.1 r _ hr hl)
  orders _ := ordersSent_walk (fun r b => heatsBut_heatStep r b f) q
    fun r i hi ho => (sends_sendIfChanged (r.updHeat i (f r)) i).stands hi ho

/-- R199: in CLOSED no heat runs, whatever the plant stop state. -/
theorem HeatRecord.lawful_closed {h : HeatRecord} {stop : Bool} (stop' : Bool) (hl : h.lawful true stop) :
    h.lawful true stop' := by
  obtain ⟨⟨hmin, hrun, hpurge, hsettle, -, -, hclosed⟩, hp⟩ := HeatRecord.lawful_iff.1 hl
  obtain ⟨hreq, hoff, htr⟩ := hclosed rfl
  exact HeatRecord.lawful_iff.2
    ⟨⟨hmin, hrun, hpurge, hsettle, fun _ _ => hoff.trans hreq.symm, fun _ => ⟨hoff, htr⟩, hclosed⟩, hp⟩

theorem keepsHeat_setStop_closed (stop : Bool) (hc : p.isClosed = true) : Plant.KeepsHeat p (setStop stop p) where
  lawful hp := by
    have hstill : (setStop stop p).isClosed = true := hc
    refine ⟨hp.1, fun b hb => ?_⟩
    have hl := hp.2 b hb
    rw [hc] at hl
    rw [hstill]
    exact HeatRecord.lawful_closed _ hl
  orders ho := ho

theorem keepsHeat_assertStop : Plant.KeepsHeat p (assertStop p) := by
  unfold assertStop
  split
  · exact .refl p
  · split
    · rename_i hc
      exact keepsHeat_setStop_closed p true hc
    · rename_i hc
      have ho : p.isClosed = false := Bool.eq_false_iff.2 hc
      have hstop : Plant.KeepsHeat p (cureStop (setStop true p)) := by
        rw [cureStop_eq]
        refine keepsHeat_heatWalk p (fun _ => rfl) rfl fun _ _ h _ hl => ?_
        rw [ho] at hl
        rw [show (setStop true p).isClosed = false from ho]
        exact HeatRecord.lawful_stop hl
      exact .settle _ (hstop.trans (.of_same (.updYard _ _)))

theorem keepsHeat_releaseStop (queueFirst : Bool) : Plant.KeepsHeat p (releaseStop queueFirst p) := by
  have hcranes : ∀ q, Plant.SameHeat q (releaseCranes q) := fun q => .settle q (.updYard q _)
  unfold releaseStop
  split
  · exact .refl p
  · rename_i hstop
    split
    · rename_i hc
      exact keepsHeat_setStop_closed p false hc
    · rename_i hc
      have ho : p.isClosed = false := Bool.eq_false_iff.2 hc
      have hrelease : Plant.KeepsHeat p (cureRelease (setStop false p)) := by
        rw [cureRelease_eq]
        refine keepsHeat_heatWalk p (fun _ => rfl) rfl fun hok r h hr hl => ?_
        rw [ho, show p.works.stop = true by simpa using hstop] at hl
        rw [show (setStop false p).isClosed = false from ho, Plant.settings_of_heatRule hr]
        exact HeatRecord.lawful_release (Settings.purge_ne_zero hok) hl
      dsimp only
      split
      · exact hrelease.trans (.of_same ((Plant.SameHeat.settle _ (.refl _)).trans (hcranes _)))
      · exact hrelease.trans (.of_same (hcranes _))

theorem keepsHeat_writeSettings {st : Settings} (h : st.ok = true) : Plant.KeepsHeat p (writeSettings st p) := by
  have hset : Plant.KeepsHeat p { p with works := { p.works with settings := st } } := ⟨fun hp => ⟨h, hp.2⟩, id⟩
  exact .settle p (hset.trans (.of_same (.updYard _ _)))

theorem keepsHeat_resetSettings : Plant.KeepsHeat p (resetSettings p) := by
  unfold resetSettings
  split
  · exact .refl p
  · exact keepsHeat_writeSettings p (by decide)

end

end Sys2Proof.Machine
end


-- ==== Sys2Proof/Proofs/HeatCommands.lean ====
section
/-! PROOF. Each command of the Command Port keeps the heat records lawful and the heat orders sent. -/

namespace Sys2Proof.Machine

/-! ## Checks -/

section
variable {s : Plant} {c : Prop} [Decidable c] {code : Code} {fields : List Byte} {r : Reply × Plant}

/-- A check that refuses changes nothing. -/
theorem keepsHeat_guard (h : ¬c → Plant.KeepsHeat s r.2) : Plant.KeepsHeat s (if c then refuse code s else r).2 := by
  split
  · exact .refl s
  · exact h ‹_›

/-- A check that refuses on its second branch changes nothing. -/
theorem keepsHeat_unless (h : c → Plant.KeepsHeat s r.2) : Plant.KeepsHeat s (if c then r else refuse code s).2 := by
  split
  · exact h ‹_›
  · exact .refl s

/-- A check whose refusal carries fields changes nothing. -/
theorem keepsHeat_guardWith (h : Plant.KeepsHeat s r.2) :
    Plant.KeepsHeat s (if c then refuseWith code fields s else r).2 := by
  split
  · exact .refl s
  · exact h

/-- An acceptance keeps what its change keeps. -/
theorem keepsHeat_accept {p : Plant} (h : Plant.KeepsHeat s p) : Plant.KeepsHeat s (accept fields p).2 := h

theorem Plant.SameHeat.accept {p : Plant} (h : Plant.SameHeat s p) : Plant.SameHeat s (Machine.accept fields p).2 := h

/-- A check before work that the heat does not see. -/
theorem Plant.SameHeat.guard (h : Plant.SameHeat s r.2) : Plant.SameHeat s (if c then refuse code s else r).2 := by
  split
  · exact .refl s
  · exact h

end

/-! ## Commands of the yard, which the heat does not see -/

section
variable (s : Plant)

/-- A change of the yard, with the work that follows it. -/
theorem Plant.SameHeat.yardWork (f : Yard → Yard) : Plant.SameHeat s (s.settle (s.updYard f)) := .settle s (.updYard s f)

theorem sameHeat_xDefineStack (stack choice bay tiers load : Nat) :
    Plant.SameHeat s (xDefineStack stack choice bay tiers load s).2 := by
  unfold xDefineStack
  exact .guard (.guard (.guard (.guard (.accept (.yardWork s _)))))

theorem sameHeat_setStackState (st : StackState) (stack : Nat) : Plant.SameHeat s (setStackState st stack s).2 := by
  unfold setStackState
  exact .guard (.guard (.guard (.accept (.yardWork s _))))

theorem sameHeat_xDefineLane (lane choice bay : Nat) : Plant.SameHeat s (xDefineLane lane choice bay s).2 := by
  unfold xDefineLane
  exact .guard (.guard (.guard (.guard (.accept (.yardWork s _)))))

theorem sameHeat_xDrainLane (lane value : Nat) : Plant.SameHeat s (xDrainLane lane value s).2 := by
  unfold xDrainLane
  exact .guard (.guard (.guard (.guard (.accept (.yardWork s _)))))

theorem sameHeat_xDefineTruckBay (truck choice bay : Nat) : Plant.SameHeat s (xDefineTruckBay truck choice bay s).2 := by
  unfold xDefineTruckBay
  exact .guard (.guard (.guard (.guard (.accept (.updYard s _)))))

theorem sameHeat_xMove (h : Handle) (kind object level after dig : Nat) :
    Plant.SameHeat s (xMove h kind object level after dig s).2 := by
  unfold xMove
  refine .guard ?_
  split
  · exact .refl s
  · refine .guard ?_
    split
    · exact .refl s
    · split
      · exact .refl s
      · refine .guard (.guard (.guard ?_))
        split
        · exact .refl s
        · exact .guard (.accept (.yardWork s _))

theorem sameHeat_xStripBed (bed level after : Nat) : Plant.SameHeat s (xStripBed bed level after s).2 := by
  unfold xStripBed
  refine .guard (.guard (.guard (.guard (.guard (.guard (.guard ?_))))))
  split
  · exact .refl s
  · exact .accept (.yardWork s _)

theorem sameHeat_xCancelMove (h : Handle) : Plant.SameHeat s (xCancelMove h s).2 := by
  unfold xCancelMove
  refine .guard ?_
  split
  · exact .refl s
  · exact .guard (.guard (.guard (.accept (.yardWork s _))))

theorem sameHeat_xReadMove (h : Handle) : Plant.SameHeat s (xReadMove h s).2 := by
  unfold xReadMove
  split <;> exact .refl s

theorem sameHeat_xParkCrane (crane bay level : Nat) : Plant.SameHeat s (xParkCrane crane bay level s).2 := by
  unfold xParkCrane
  refine .guard (.guard (.guard (.guard ?_)))
  split
  · exact .refl s
  · exact .accept (.yardWork s _)

theorem sameHeat_xConfigureCrane (crane bay : Nat) : Plant.SameHeat s (xConfigureCrane crane bay s).2 := by
  unfold xConfigureCrane
  exact .guard (.guard (.guard (.guard (.accept (.updYard s _)))))

theorem sameHeat_xHomeCrane (crane : Nat) : Plant.SameHeat s (xHomeCrane crane s).2 := by
  unfold xHomeCrane
  exact .guard (.guard (.guard (.guard (.accept (.yardWork s _)))))

theorem sameHeat_xClearCrane (crane : Nat) : Plant.SameHeat s (xClearCrane crane s).2 := by
  unfold xClearCrane
  exact .guard (.guard (.guard (.accept (.settleClaim (.updYard s _)))))

theorem sameHeat_xOpenOrder (truck level dig : Nat) (pieces : List Handle) :
    Plant.SameHeat s (xOpenOrder truck level dig pieces s).2 := by
  unfold xOpenOrder
  refine .guard (.guard (.guard ?_))
  split
  · exact .refl s
  · exact .accept (.yardWork s _)

theorem sameHeat_xAddToOrder (truck : Nat) (pieces : List Handle) : Plant.SameHeat s (xAddToOrder truck pieces s).2 := by
  unfold xAddToOrder
  refine .guard (.guard (.guard (.guard ?_)))
  split
  · exact .refl s
  · exact .accept (.yardWork s _)

theorem sameHeat_xOrderLevel (truck level : Nat) : Plant.SameHeat s (xOrderLevel truck level s).2 := by
  unfold xOrderLevel
  exact .guard (.guard (.guard (.accept (.yardWork s _))))

theorem sameHeat_xCancelOrder (truck : Nat) : Plant.SameHeat s (xCancelOrder truck s).2 := by
  unfold xCancelOrder
  exact .guard (.guard (.guard (.guard (.accept (.yardWork s _)))))

/-! ## Commands of the piece table (R3, R4, R14 to R20) -/

/-- R4: a retirement writes the mark map, the class table and a piece slot. -/
theorem sameHeat_retire (h : Handle) : Plant.SameHeat s (retire s h) := by
  obtain ⟨m, c, v, heq⟩ := retire_rest s h
  rw [heq]
  exact ⟨rfl, fun _ => rfl⟩

/-- R3: an allocation writes the mark map, the class table and a piece slot. -/
theorem sameHeat_allocate (r : Piece) : Plant.SameHeat s (allocate s r).2 := by
  unfold allocate
  split
  · exact ⟨rfl, fun _ => rfl⟩
  · exact .refl s

theorem sameHeat_xShipOrder (truck : Nat) : Plant.SameHeat s (xShipOrder truck s).2 := by
  unfold xShipOrder
  exact .guard (.guard (.guard (.accept (.settle s ((Plant.SameHeat.forEach sameHeat_retire _ s).trans (.updYard _ _))))))

theorem sameHeat_xLookupMark (m : MarkWord) : Plant.SameHeat s (xLookupMark m s).2 := by
  unfold xLookupMark
  refine .guard ?_
  split <;> exact .refl s

theorem sameHeat_xReadPiece (h : Handle) : Plant.SameHeat s (xReadPiece h s).2 := by
  unfold xReadPiece
  split <;> exact .refl s

theorem sameHeat_xDefineClass (c choice length weight threshold tier : Nat) :
    Plant.SameHeat s (xDefineClass c choice length weight threshold tier s).2 := by
  unfold xDefineClass
  exact .guard (.guard (.guard (.guard (.accept ⟨rfl, fun _ => rfl⟩))))

theorem sameHeat_xHold (h : Handle) (value : Nat) : Plant.SameHeat s (xHold h value s).2 := by
  unfold xHold
  refine .guard ?_
  split
  · exact .refl s
  · exact .guard (.guard (.guard (.accept (.yardWork s _))))

theorem sameHeat_xReleaseHold (h : Handle) (value : Nat) : Plant.SameHeat s (xReleaseHold h value s).2 := by
  unfold xReleaseHold
  refine .guard ?_
  split
  · exact .refl s
  · split
    · exact .refl s
    · exact .accept (.updYard s _)

theorem sameHeat_xScrapPiece (h : Handle) : Plant.SameHeat s (xScrapPiece h s).2 := by
  unfold xScrapPiece
  refine .guard ?_
  split
  · exact .refl s
  · exact .guard (.guard (.guard (.accept (.settle s ((Plant.SameHeat.updYard s _).trans (sameHeat_retire _ h))))))

/-! ## The Bed Unit (R28 to R43) -/

/-- R55: a VACANT bed has the order OFF at 0.0 °C. -/
theorem formOrder_vacant {r : BedRecord} (h : r.state = .vacant) (x : HeatRecord) : formOrder r x = .off := by
  unfold formOrder orderSetpoint
  rw [h]
  cases orderMode x <;> rfl

/-- R28: the hold setpoint of a VACANT bed is no part of its order. -/
theorem keepsHeat_xConfigureBed (bed bay positions setpoint : Nat) :
    Plant.KeepsHeat s (xConfigureBed bed bay positions setpoint s).2 := by
  unfold xConfigureBed
  refine keepsHeat_guard fun _ => keepsHeat_guard fun _ => keepsHeat_guard fun _ => keepsHeat_guard fun _ =>
    keepsHeat_guard fun hst => keepsHeat_accept ?_
  have hvacant : (s.bed bed).state = .vacant := Decidable.not_not.1 hst
  refine .of_but (.of_onlyBed (Plant.onlyBed_updBed bed s _)) (fun hb hp => hp.2 bed hb) fun hb _ hs => ?_
  unfold Plant.orderStands at hs ⊢
  rw [formOrder_vacant hvacant] at hs
  refine (formOrder_vacant ?_ _).trans hs
  rw [Plant.bed_updBed_same _ _ _ hb]
  exact hvacant

theorem Plant.HeatsAt.setBedState {b : Nat} {p q : Plant} (h : Plant.HeatsAt b p q) (st : BedState) :
    Plant.HeatsAt b p (q.setBedState b st) := h.updBed _

/-- R56: a change of one bed, with the order sent if it changed. -/
theorem Plant.HeatsAt.sentIfChanged {b : Nat} {p q : Plant} (h : Plant.HeatsAt b p q) :
    Plant.KeepsHeat p (sendIfChanged q b) := .sent_at h (sends_sendIfChanged q b)

theorem keepsHeat_xPrepareBed (bed : Nat) : Plant.KeepsHeat s (xPrepareBed bed s).2 := by
  unfold xPrepareBed
  exact keepsHeat_guard fun _ => keepsHeat_guard fun _ => keepsHeat_guard fun _ => keepsHeat_guard fun _ =>
    keepsHeat_accept ((Plant.HeatsAt.refl bed s).setBedState _).sentIfChanged

theorem keepsHeat_xAbandonBed (bed : Nat) : Plant.KeepsHeat s (xAbandonBed bed s).2 := by
  unfold xAbandonBed
  exact keepsHeat_guard fun _ => keepsHeat_guard fun _ => keepsHeat_guard fun _ =>
    keepsHeat_accept ((Plant.HeatsAt.refl bed s).setBedState _).forceOff

theorem keepsHeat_xStartCure (bed : Nat) : Plant.KeepsHeat s (xStartCure bed s).2 := by
  unfold xStartCure
  exact keepsHeat_guard fun _ => keepsHeat_guard fun _ => keepsHeat_guard fun _ => keepsHeat_guard fun _ =>
    keepsHeat_accept
      (((Plant.HeatsAt.refl bed s).setBedState _).updHeat _ fun _ _ _ => HeatRecord.lawful_startCure).sentIfChanged

/-- R32, R197: records allocated for bed positions. -/
theorem sameHeat_fillPositions (bed maturity minute : Nat) (rows : List (Nat × MarkWord × Holds)) :
    Plant.SameHeat s (forEach rows (fillPosition bed maturity minute) s) :=
  .forEach (fun q _ => (sameHeat_allocate q _).trans (.updBed _ bed _ rfl)) rows s

theorem keepsHeat_xCast (bed : Nat) (entries : List MarkWord) : Plant.KeepsHeat s (xCast bed entries s).2 := by
  unfold xCast
  refine keepsHeat_guard fun _ => keepsHeat_guard fun _ => keepsHeat_guard fun _ => keepsHeat_guard fun _ =>
    keepsHeat_guard fun _ => keepsHeat_guard fun _ => keepsHeat_guard fun _ => keepsHeat_guard fun _ => ?_
  have hfilled := (Plant.SameHeat.updBed s bed (fun b => { b with maturity := 0 }) rfl).trans
    (sameHeat_fillPositions _ bed 0 s.works.clock (entries.zipIdx.map (fun e => (e.2, e.1, Holds.none))))
  exact keepsHeat_accept ((Plant.HeatsAt.of_same hfilled bed).setBedState _).sentIfChanged

theorem sameHeat_scrapPosition (bed i : Nat) : Plant.SameHeat s (scrapPosition bed s i) := by
  unfold scrapPosition
  split
  · exact (Plant.SameHeat.updBed s bed _ rfl).trans (sameHeat_retire _ _)
  · exact .refl s

theorem keepsHeat_xScrapBed (bed : Nat) : Plant.KeepsHeat s (xScrapBed bed s).2 := by
  unfold xScrapBed
  refine keepsHeat_guard fun _ => keepsHeat_guard fun _ => keepsHeat_guard fun _ => ?_
  split
  · exact .refl s
  · have hscrapped := Plant.SameHeat.forEach (fun q i => sameHeat_scrapPosition q bed i) (List.range (s.bed bed).positions) s
    exact keepsHeat_accept (((Plant.HeatsAt.of_same hscrapped bed).setBedState _).updHeat _
      fun _ _ _ => HeatRecord.lawful_endRunning).forceOff

/-- R34, R35: the heat of a released bed runs no more, and no transition does, so no request is lost by writing OFF. -/
theorem keepsHeat_xReleaseStrand (bed : Nat) : Plant.KeepsHeat s (xReleaseStrand bed s).2 := by
  unfold xReleaseStrand
  refine keepsHeat_guard fun _ => keepsHeat_guard fun _ => keepsHeat_guard fun _ => keepsHeat_guard fun hrun =>
    keepsHeat_guard fun htr => ?_
  split
  · exact .refl s
  · split
    · exact .refl s
    · have hbut := (((Plant.HeatsAt.refl bed s).setBedState .released).toHeatsBut).updHeat
        (fun h => { h with requested := .off }.endRunning)
      refine keepsHeat_accept (.settle s (.sent hbut (fun hb hp => ?_) (sends_sendIfChanged _ bed)))
      rw [Plant.heat_updHeat_same _ _ _ hb]
      have hoff : (s.heat bed).running = .off := Decidable.not_not.1 hrun
      have hnone : (s.heat bed).transition = .none := Decidable.not_not.1 htr
      exact HeatRecord.lawful_endRunning (HeatRecord.lawful_unrequested hoff hnone (hp.2 bed hb))

theorem keepsHeat_xBedPriority (bed level : Nat) : Plant.KeepsHeat s (xBedPriority bed level s).2 := by
  unfold xBedPriority
  exact keepsHeat_guard fun _ => keepsHeat_guard fun _ => keepsHeat_guard fun _ =>
    keepsHeat_accept (.of_same (.settle s (.updBed s bed _ rfl)))

/-! ## Cure Control (R49 to R63) -/

theorem keepsHeat_xHeatMode (bed mode : Nat) : Plant.KeepsHeat s (xHeatMode bed mode s).2 := by
  unfold xHeatMode
  refine keepsHeat_guard fun hc => keepsHeat_guard fun _ => ?_
  split
  · exact .refl s
  · refine keepsHeat_guard fun _ => keepsHeat_guard fun _ => keepsHeat_guard fun _ => keepsHeat_guard fun hbusy => ?_
    refine keepsHeat_accept (.sent (.updHeat ((Plant.SameHeat.refl s).but bed) _) (fun hb hp => ?_) (sends_sendIfChanged _ bed))
    rw [Plant.heat_updHeat_same _ _ _ hb]
    have hl := hp.2 bed hb
    rw [Bool.eq_false_iff.2 hc] at hl ⊢
    exact HeatRecord.lawful_request (Settings.purge_ne_zero hp.1)
      (fun hm => Decidable.not_not.1 fun htr => hbusy ⟨hm, htr⟩) hl

theorem keepsHeat_xLoadPlan (bed : Nat) (plan : List Segment) : Plant.KeepsHeat s (xLoadPlan bed plan s).2 := by
  unfold xLoadPlan
  exact keepsHeat_guard fun _ => keepsHeat_guard fun _ => keepsHeat_guard fun _ => keepsHeat_guard fun _ =>
    keepsHeat_accept (.updHeat s bed _ (fun _ _ _ hl => hl) (fun _ _ => rfl) fun _ => rfl)

theorem keepsHeat_xSwapPlan (bed : Nat) : Plant.KeepsHeat s (xSwapPlan bed s).2 := by
  unfold xSwapPlan
  exact keepsHeat_guard fun _ => keepsHeat_guard fun _ => keepsHeat_guard fun _ =>
    keepsHeat_accept ((Plant.HeatsAt.refl bed s).updHeat _ fun _ _ _ => HeatRecord.lawful_swap _).sentIfChanged

theorem keepsHeat_xStopCure (bed : Nat) : Plant.KeepsHeat s (xStopCure bed s).2 := by
  unfold xStopCure
  exact keepsHeat_guard fun _ => keepsHeat_guard fun _ => keepsHeat_guard fun _ =>
    keepsHeat_accept ((Plant.HeatsAt.refl bed s).updHeat _ fun _ _ _ => HeatRecord.lawful_complete).forceOff

/-! ## Works Control (R194, R196 to R198, R210, R215) -/

/-- R64, R194: the plan of one bed at OPEN WORKS. -/
theorem heatsBut_openBed (b : Nat) : Plant.HeatsBut b s (openBed s b) :=
  .updHeat ((Plant.SameHeat.updIntake s b _).but b) _

/-- R194: the works record written by OPEN WORKS. -/
def Plant.opened (s : Plant) : Plant := { s with works := { s.works with phase := .opened, clock := 0 } }

/-- R64, R194: the plans at OPEN WORKS. -/
def openedBeds (s : Plant) : Plant := forEach (List.range 12) openBed s.opened

theorem openWorks_eq : openWorks s = forEach (List.range 12) sendOrder (openedBeds s) := rfl

theorem heatRule_openedBeds : (openedBeds s).heatRule = (false, s.works.stop, s.works.settings) :=
  heatRule_walk heatsBut_openBed s.opened

/-- R64, R194: OPEN WORKS finds no heat requested or run. -/
theorem lawful_openedBeds (hc : s.isClosed = true) (hp : s.heatLawful) (i : Nat) (hi : i < 12) :
    ((openedBeds s).heat i).lawful false s.works.stop := by
  refine heat_walk heatsBut_openBed s.opened (P := HeatRecord.lawful true s.works.stop)
    (Q := HeatRecord.lawful false s.works.stop) (fun q b hb _ hl => ?_) (fun b hb => ?_) i hi
  · unfold openBed
    rw [Plant.heat_updHeat_same _ _ _ hb]
    exact HeatRecord.lawful_openWorks _ hl
  · have hl := hp.2 b hb
    rw [hc] at hl
    exact hl

/-- R194: OPEN WORKS sends every order. -/
theorem keepsHeat_openWorks (hc : s.isClosed = true) : Plant.KeepsHeat s (openWorks s) := by
  have hsend : ∀ q b, Plant.HeatsBut b q (sendOrder q b) := fun q b => (sends_sendOrder q b).but
  rw [openWorks_eq]
  refine ⟨fun hp => ?_, fun _ => ordersSent_walk hsend _ fun q i hi => (sends_sendOrder q i).stands hi⟩
  obtain ⟨hopen, hrest⟩ := Prod.mk.inj ((heatRule_walk hsend _).trans (heatRule_openedBeds s))
  obtain ⟨hstop, hset⟩ := Prod.mk.inj hrest
  unfold Plant.heatLawful
  rw [hopen, hstop, hset]
  refine ⟨hp.1, heat_walk hsend _ (fun q i _ _ hl => ?_) (lawful_openedBeds s hc hp)⟩
  obtain ⟨o, ho⟩ := (sends_sendOrder q i).heat
  rw [ho]
  exact HeatRecord.lawful_lastOrder o hl

theorem keepsHeat_xOpenWorks : Plant.KeepsHeat s (xOpenWorks s).2 := by
  unfold xOpenWorks
  exact keepsHeat_unless fun hc => keepsHeat_accept (keepsHeat_openWorks s hc)

theorem keepsHeat_xSettings (st : Settings) : Plant.KeepsHeat s (xSettings st s).2 := by
  unfold xSettings
  exact keepsHeat_unless fun hset => keepsHeat_accept (keepsHeat_writeSettings s hset)

theorem keepsHeat_xLockSettings (value : Nat) : Plant.KeepsHeat s (xLockSettings value s).2 := by
  unfold xLockSettings
  exact keepsHeat_unless fun _ => keepsHeat_accept (.of_same ⟨rfl, fun _ => rfl⟩)

/-- R210: SENSE clears flags and frees a ticket. -/
theorem sameHeat_xSense : Plant.SameHeat s (xSense s).2 := by
  unfold xSense
  split
  · exact .accept (.yardWork s _)
  · split
    · exact .accept (.latchBed s _ _)
    · split
      · exact .accept (.updYard s _)
      · split
        · exact .accept (.updYard s _)
        · exact .refl s

/-- R197: an accepted RESTORE BED writes one bed and, where it is CURING, its plan. -/
theorem heatsAt_restoreBed (st : BedState) (bed maturity segment minutes : Nat) (holds : List Nat) (entries : List MarkWord) :
    Plant.HeatsAt bed s (restoreBed st bed maturity segment minutes holds entries s) := by
  have hfilled : ∀ rows, Plant.HeatsAt bed s (forEach rows (fillPosition bed maturity 0)
      (s.updBed bed (fun b => { b with state := st, maturity := maturity }))) := fun rows =>
    ((Plant.HeatsAt.refl bed s).updBed _).trans (.of_same (sameHeat_fillPositions _ _ _ _ rows) bed)
  unfold restoreBed
  dsimp only
  split
  · exact (hfilled _).updHeat _ fun _ _ _ => HeatRecord.lawful_restore segment minutes
  · exact hfilled _

/-- R64: no order is sent in CLOSED, so none has to stand. -/
theorem Plant.HeatsAt.keepsHeat_closed {b : Nat} {p q : Plant} (h : Plant.HeatsAt b p q) (hc : p.isClosed = true) :
    Plant.KeepsHeat p q :=
  .of_but h.toHeatsBut (fun hb hp => h.lawful hb _ _ (hp.2 b hb)) fun _ ho => absurd (hc.symm.trans ho) (by decide)

theorem keepsHeat_xRestoreBed (state bed maturity segment minutes : Nat) (holds : List Nat) (entries : List MarkWord) :
    Plant.KeepsHeat s (xRestoreBed state bed maturity segment minutes holds entries s).2 := by
  unfold xRestoreBed
  refine keepsHeat_guard fun hopen => keepsHeat_guard fun _ => ?_
  have hc : s.isClosed = true := by simpa using hopen
  split
  · exact .refl s
  · refine keepsHeat_guard fun _ => keepsHeat_guardWith ?_
    split
    · exact .refl s
    · refine keepsHeat_guard fun _ => keepsHeat_guard fun _ => keepsHeat_guard fun _ => ?_
      split
      · exact .refl s
      · refine keepsHeat_guard fun _ => ?_
        split
        · exact .refl s
        · exact keepsHeat_accept ((heatsAt_restoreBed s _ bed maturity segment minutes holds entries).keepsHeat_closed hc)

theorem sameHeat_xRestorePiece (m : MarkWord) (maturity holds kind object : Nat) :
    Plant.SameHeat s (xRestorePiece m maturity holds kind object s).2 := by
  unfold xRestorePiece
  refine .guard ?_
  split
  · exact .refl s
  · refine .guard ?_
    split
    · exact .refl s
    · refine .guard (.guard (.guard ?_))
      dsimp only
      split
      · rename_i h s1 heq
        have hs1 : Plant.SameHeat s s1 := by
          rw [← show (allocate s _).2 = s1 from congrArg Prod.snd heq]
          exact sameHeat_allocate s _
        exact .accept (hs1.trans (.updYard _ _))
      · exact .refl s

end

/-- R206, R208: every command keeps the heat records lawful and the heat orders sent. -/
theorem keepsHeat_runCommand (c : Command) (s : Plant) : Plant.KeepsHeat s (runCommand c s).2 := by
  cases c with
  -- the commands that write a bed, a heat record or the works record
  | openWorks => exact keepsHeat_xOpenWorks s
  | settings => exact keepsHeat_xSettings s _
  | lockSettings => exact keepsHeat_xLockSettings s _
  | restoreBed => exact keepsHeat_xRestoreBed s _ _ _ _ _ _ _
  | configureBed => exact keepsHeat_xConfigureBed s _ _ _ _
  | prepareBed => exact keepsHeat_xPrepareBed s _
  | abandonBed => exact keepsHeat_xAbandonBed s _
  | cast => exact keepsHeat_xCast s _ _
  | startCure => exact keepsHeat_xStartCure s _
  | releaseStrand => exact keepsHeat_xReleaseStrand s _
  | scrapBed => exact keepsHeat_xScrapBed s _
  | bedPriority => exact keepsHeat_xBedPriority s _ _
  | heatMode => exact keepsHeat_xHeatMode s _ _
  | loadPlan => exact keepsHeat_xLoadPlan s _ _
  | swapPlan => exact keepsHeat_xSwapPlan s _
  | stopCure => exact keepsHeat_xStopCure s _
  -- the commands that read, and a FIND that is refused
  | readWorks | readSettings | find => exact .refl s
  | readClass | readBed | readPlan | readIntake | readStack | readLane | readCrane | readOrder =>
    exact keepsHeat_guard fun _ => .refl s
  | lookupMark => exact .of_same (sameHeat_xLookupMark s _)
  | readPiece => exact .of_same (sameHeat_xReadPiece s _)
  | readMove => exact .of_same (sameHeat_xReadMove s _)
  -- the commands of the piece table and the yard
  | sense => exact .of_same (sameHeat_xSense s)
  | restorePiece => exact .of_same (sameHeat_xRestorePiece s _ _ _ _ _)
  | defineClass => exact .of_same (sameHeat_xDefineClass s _ _ _ _ _ _)
  | hold => exact .of_same (sameHeat_xHold s _ _)
  | releaseHold => exact .of_same (sameHeat_xReleaseHold s _ _)
  | scrapPiece => exact .of_same (sameHeat_xScrapPiece s _)
  | defineStack => exact .of_same (sameHeat_xDefineStack s _ _ _ _ _)
  | closeStack => exact .of_same (sameHeat_setStackState s _ _)
  | openStack => exact .of_same (sameHeat_setStackState s _ _)
  | defineLane => exact .of_same (sameHeat_xDefineLane s _ _ _)
  | drainLane => exact .of_same (sameHeat_xDrainLane s _ _)
  | defineTruckBay => exact .of_same (sameHeat_xDefineTruckBay s _ _ _)
  | move => exact .of_same (sameHeat_xMove s _ _ _ _ _ _)
  | stripBed => exact .of_same (sameHeat_xStripBed s _ _ _)
  | cancelMove => exact .of_same (sameHeat_xCancelMove s _)
  | parkCrane => exact .of_same (sameHeat_xParkCrane s _ _ _)
  | configureCrane => exact .of_same (sameHeat_xConfigureCrane s _ _)
  | homeCrane => exact .of_same (sameHeat_xHomeCrane s _)
  | clearCrane => exact .of_same (sameHeat_xClearCrane s _)
  | openOrder => exact .of_same (sameHeat_xOpenOrder s _ _ _ _)
  | addToOrder => exact .of_same (sameHeat_xAddToOrder s _ _)
  | orderLevel => exact .of_same (sameHeat_xOrderLevel s _ _)
  | cancelOrder => exact .of_same (sameHeat_xCancelOrder s _)
  | shipOrder => exact .of_same (sameHeat_xShipOrder s _)

end Sys2Proof.Machine
end


-- ==== Sys2Proof/Proofs/HeatInvariant.lean ====
section
/-! PROOF. The Command Port, the crane reports, the rows of the table and the step: every step keeps the heat records lawful and
the heat orders sent (R47, R56, R64, R194, R215). -/

namespace Sys2Proof.Machine

/-! ## What the Command Port can do to the plant (R205 to R209) -/

/-- The plant `q` comes of `p` by commands run whole, one after another. -/
def Plant.Runs : Plant → Plant → Prop := Relation.ReflTransGen (fun p q => ∃ c, q = (runCommand c p).2)

theorem Plant.Runs.refl (p : Plant) : Plant.Runs p p := Relation.ReflTransGen.refl

theorem Plant.Runs.trans {p q r : Plant} (h : Plant.Runs p q) (k : Plant.Runs q r) : Plant.Runs p r :=
  Relation.ReflTransGen.trans h k

/-- R206, R207: a start runs its command, or leaves the plant as it is. -/
theorem runs_startEntry (s : State) (i : Nat) : Plant.Runs s.plant (startEntry s i).plant := by
  unfold startEntry
  split
  · exact .refl _
  · split
    · exact .refl _
    · unfold startFind
      split <;> exact .refl _
    · exact Relation.ReflTransGen.single ⟨_, rfl⟩

theorem runs_settlePort (n : Nat) (s : State) : Plant.Runs s.plant (settlePort n s).plant := by
  induction n generalizing s with
  | zero => exact .refl _
  | succ n ih =>
    unfold settlePort
    dsimp only
    split
    · rename_i i _
      have hstart := runs_startEntry { s with port := postAll 8 s.port } i
      exact hstart.trans (ih _)
    · exact .refl s.plant

/-- R206, R209: the port looks for postings and starts. -/
theorem runs_runPort (s : State) (p : Port) : Plant.Runs s.plant (State.runPort { s with port := p }).plant :=
  runs_settlePort 9 { s with port := p }

theorem runs_deliver (e : Entry) (s : State) : Plant.Runs s.plant (deliver e s).plant := by
  unfold deliver
  split
  · exact .refl s.plant
  · exact runs_runPort s _

theorem runs_examineSlot (s : State) : Plant.Runs s.plant (examineSlot s).plant := by
  unfold examineSlot
  split
  · exact .refl _
  · dsimp only
    split
    · unfold endScan
      exact runs_runPort s _
    · exact .refl s.plant

theorem runs_writeFrame (bytes : List Byte) (s : State) : Plant.Runs s.plant (writeFrame bytes s).plant := by
  unfold writeFrame
  dsimp only
  split
  · exact runs_deliver (entryOf bytes) (s.setOut (s.statusByte :: bytes.map (fun _ => 0)))
  · exact .refl s.plant

theorem runs_readResult (clocked : Nat) (s : State) : Plant.Runs s.plant (readResult clocked s).plant := by
  unfold readResult
  dsimp only
  split
  · split
    · exact runs_runPort (s.setOut _) _
    · exact .refl s.plant
  · exact .refl s.plant

theorem runs_bareTransfer (b : Byte) (s : State) : Plant.Runs s.plant (bareTransfer b s).plant := by
  unfold bareTransfer
  split
  · exact runs_writeFrame [] s
  · split
    · exact runs_readResult 0 s
    · split <;> exact .refl s.plant

/-- A transfer has no effect while the port reset line is held low (R214). -/
theorem runs_unlessLow (low : Bool) {s t : State} (h : Plant.Runs s.plant t.plant) :
    Plant.Runs s.plant (if low then s else t).plant := by
  cases low
  · exact h
  · exact .refl _

/-- What every command keeps of the heat, the Command Port keeps. -/
theorem Plant.Runs.keepsHeat {p q : Plant} (h : Plant.Runs p q) : Plant.KeepsHeat p q := by
  induction h with
  | refl => exact .refl p
  | tail _ hstep ih =>
    obtain ⟨c, rfl⟩ := hstep
    exact ih.trans (keepsHeat_runCommand c _)

/-! ## Crane reports (R158 to R164) -/

section
variable (p : Plant) (k : Nat)

/-- R158: a report that does not fit latches PROTOCOL. -/
theorem sameHeat_notFitting : Plant.SameHeat p (notFitting p k) := .updYard p _

theorem sameHeat_takeArrived (seq : Nat) : Plant.SameHeat p (takeArrived p k seq) := by
  unfold takeArrived
  split
  · exact .refl p
  · split
    · exact .refl p
    · split
      · split
        · exact .yardWork p _
        · exact sameHeat_notFitting p k
      · exact sameHeat_notFitting p k

/-- R36, R56: a lift from a bed may change the state of the bed, and with it the order. -/
theorem keepsHeat_emptyBed (src : Location) : Plant.KeepsHeat p (emptyBed p src) := by
  unfold emptyBed
  split
  · exact ((Plant.HeatsAt.refl _ p).updBed _).sentIfChanged
  · exact .refl p

theorem keepsHeat_liftedEffect (slot weight : Nat) (t : Ticket) (h : Handle) (src : Location) :
    Plant.KeepsHeat p (liftedEffect p k slot weight t h src) := by
  unfold liftedEffect
  split
  · exact (keepsHeat_emptyBed p src).trans (.of_same (.updYard _ _))
  · exact .of_same (.updYard p _)

theorem keepsHeat_takeLifted (seq weight : Nat) : Plant.KeepsHeat p (takeLifted p k seq weight) := by
  have hunfit := Plant.KeepsHeat.of_same (sameHeat_notFitting p k)
  unfold takeLifted
  split
  · exact .refl p
  · split
    · exact .refl p
    · split
      · split
        · split
          · exact .settle p (keepsHeat_liftedEffect p k _ weight _ _ _)
          · exact hunfit
        · exact hunfit
      · exact hunfit

theorem sameHeat_takeLowered (seq : Nat) : Plant.SameHeat p (takeLowered p k seq) := by
  unfold takeLowered
  split
  · exact .refl p
  · split
    · exact .refl p
    · split
      · split
        · exact .yardWork p _
        · exact sameHeat_notFitting p k
      · exact sameHeat_notFitting p k

theorem sameHeat_takeStopped (seq bay : Nat) : Plant.SameHeat p (takeStopped p k seq bay) := by
  unfold takeStopped
  split
  · exact .refl p
  · split
    · exact sameHeat_notFitting p k
    · split
      · exact .refl p
      · split
        · exact .settleClaim (.updYard p _)
        · exact sameHeat_notFitting p k

theorem sameHeat_takeHomed (seq bay : Nat) : Plant.SameHeat p (takeHomed p k seq bay) := by
  unfold takeHomed
  split
  · exact .refl p
  · split
    · exact sameHeat_notFitting p k
    · split
      · exact .refl p
      · split
        · exact .settleClaim (.updYard p _)
        · exact sameHeat_notFitting p k

theorem sameHeat_takeFault (code bay : Nat) : Plant.SameHeat p (takeFault p k code bay) := by
  unfold takeFault
  split
  · exact .refl p
  · split
    · exact sameHeat_notFitting p k
    · exact .settleFault p k (.updYard p _)

theorem keepsHeat_takeCraneBytes (bytes : List Byte) : Plant.KeepsHeat p (takeCraneBytes p k bytes) := by
  unfold takeCraneBytes
  split
  · exact .refl p
  · split
    · exact .refl p
    · exact .of_same (sameHeat_takeArrived p k _)
    · exact keepsHeat_takeLifted p k _ _
    · exact .of_same (sameHeat_takeLowered p k _)
    · exact .of_same (sameHeat_takeStopped p k _ _)
    · exact .of_same (sameHeat_takeHomed p k _ _)
    · exact .of_same (sameHeat_takeFault p k _ _)
    · have hunfit := Plant.KeepsHeat.of_same (sameHeat_notFitting p k)
      split
      · split
        · exact hunfit
        · exact .refl p
      · exact hunfit

end

/-! ## The rows -/

/-- R25, R191: power-on leaves lawful heat records, in CLOSED. -/
theorem keepsHeat_powerOn (p : Plant) (stop : Bool) : Plant.KeepsHeat p (Plant.powerOn stop) :=
  ⟨fun _ => heatInv_reset stop { State.reset with plant := Plant.powerOn stop } rfl, fun _ hopen => (by cases hopen)⟩

section
variable {s t : State}

/-- A timer row takes the event of its record or does nothing. -/
theorem keepsHeat_timerRow (fires : Bool) {f : Plant → Plant} (h : Plant.KeepsHeat s.plant (f s.plant)) :
    Plant.KeepsHeat s.plant (s.timerRow fires f).plant := by
  rcases s.timerRow_cases fires f with ⟨heq, -⟩ | ⟨heq, -⟩ <;> rw [heq]
  · exact h
  · exact .refl _

/-- The plant after a row that answers a known state. -/
theorem Plant.KeepsHeat.next {t' : State} (h : Host.Outcome.next t' = (.next t : Host.Outcome State Fault Refusal))
    (k : Plant.KeepsHeat s.plant t'.plant) : Plant.KeepsHeat s.plant t.plant := by
  obtain rfl := Host.Outcome.next.inj h
  exact k

theorem keepsHeat_command {i : Instr} {hd : Header} {c : Command} (hi : i.command? = some (hd, c))
    (h : exec i s = .next t) : Plant.KeepsHeat s.plant t.plant := by
  rw [exec_command i hd c s hi] at h
  exact .next h (runs_deliver _ s).keepsHeat

end

/-- Every row of the table keeps the heat records lawful and the heat orders sent. -/
theorem keepsHeat_exec (i : Instr) (s t : State) (h : exec i s = .next t) : Plant.KeepsHeat s.plant t.plant := by
  cases i with
  | powerOn stop => exact .next h (keepsHeat_powerOn s.plant stop)
  | portReset => exact .next h (keepsHeat_resetSettings s.plant)
  | plantStopAsserted => exact .next h (keepsHeat_assertStop s.plant)
  | plantStopReleased => exact .next h (keepsHeat_releaseStop s.plant _)
  | worksClockAdvance => exact .next h (keepsHeat_advanceClock s)
  | transitionEnd b => exact .next h (keepsHeat_timerRow _ (keepsHeat_heatTick _ _))
  | segmentEnd b => exact .next h (keepsHeat_timerRow _ (keepsHeat_heatTick _ _))
  | gapExpiry b => exact .next h (keepsHeat_timerRow _ (keepsHeat_intakeTick _ _))
  | lostExpiry b => exact .next h (keepsHeat_timerRow _ (keepsHeat_intakeTick _ _))
  | stageTimeout k => exact .next h (keepsHeat_timerRow _ (.of_same (sameHeat_craneExpires _ _)))
  | homingTimeout k => exact .next h (keepsHeat_timerRow _ (.of_same (sameHeat_craneExpires _ _)))
  | sample b q x st => exact .next h (keepsHeat_takeSample _ _ _ _ _)
  | bedLineMessageDropped b bs => exact .next h (keepsHeat_takeBedBytes _ _ _)
  | heatOrderWrite b => exact .next h (.of_same ⟨rfl, fun _ => rfl⟩)
  | craneOrderWrite k => exact .next h (.of_same ⟨rfl, fun _ => rfl⟩)
  | arrived k q => exact .next h (.of_same (sameHeat_takeArrived _ _ _))
  | lifted k q w => exact .next h (keepsHeat_takeLifted _ _ _ _)
  | lowered k q => exact .next h (.of_same (sameHeat_takeLowered _ _ _))
  | stopped k q bay => exact .next h (.of_same (sameHeat_takeStopped _ _ _ _))
  | homed k q bay => exact .next h (.of_same (sameHeat_takeHomed _ _ _ _))
  | fault k q c bay => exact .next h (.of_same (sameHeat_takeFault _ _ _ _))
  | craneMessageDropped k bs => exact .next h (keepsHeat_takeCraneBytes _ _ _)
  | writeFrame low bs => exact .next h (runs_unlessLow low (runs_writeFrame bs s)).keepsHeat
  | readResult low n => exact .next h (runs_unlessLow low (runs_readResult n s)).keepsHeat
  | readStatus low n => exact .next h (runs_unlessLow (t := Machine.readStatus n s) low (.refl s.plant)).keepsHeat
  | unknownTypeByte low b => exact .next h (runs_unlessLow low (runs_bareTransfer b s)).keepsHeat
  | invalidCommand hd c => exact .next h (runs_deliver _ s).keepsHeat
  | scanExamine => exact .next h (runs_examineSlot s).keepsHeat
  -- every other row is a command
  | _ => exact keepsHeat_command rfl h

/-- Every step: the row at the front of those that wait, or the taking of a due timer event. -/
theorem keepsHeat_step (s t : State) (h : step s = .next t) : Plant.KeepsHeat s.plant t.plant := by
  unfold step at h
  split at h
  · rename_i i rest _
    exact keepsHeat_exec i { s with pending := rest } t h
  · refine .next h ?_
    unfold idle
    split
    · exact .refl _
    · exact keepsHeat_takeDue s

/-- Settles O58: each step is a change that keeps the heat records lawful and the orders sent, by the operations it is made of;
the phase has two values. -/
theorem stepsKeepTheHeat : Obligations.StepsKeepTheHeat := by
  refine ⟨fun s t h hs => (heatInv_iff t).2 ((keepsHeat_step s t h).lawful ((heatInv_iff s).1 hs)),
    fun s t h => (keepsHeat_step s t h).orders, fun s => ?_⟩
  have hphase : s.plant.isClosed = false ↔ s.plant.works.phase = .opened := by
    unfold Plant.isClosed
    cases s.plant.works.phase <;> decide
  unfold Plant.ordersSent
  rw [hphase]
  exact forall_congr' fun _ => forall_congr' fun b => forall_congr' fun _ => eq_comm

end Sys2Proof.Machine
end


-- ==== Sys2Proof/Proofs/CureControl.lean ====
section
/-! PROOF. Cure Control: the order that a bed's records form (R55), HEAT MODE (R49 to R51), LOAD PLAN (R57), SWAP PLAN and STOP
CURE (R58, R59, R63), and the timer events of a heat record (R48, R61 to R63). -/

namespace Sys2Proof.Machine

/-! ## The heat order of a bed (R55) -/

section
variable {b : BedRecord} {h : HeatRecord} {word : ModeWord} {setpoint : Nat}

/-- R55: the running mode or the transition gives the word. -/
theorem orderMode_eq_some : orderMode h = some word
    ↔ h.running = .off ∧ h.transition = .purge ∧ word = .purge
      ∨ h.running = .off ∧ h.transition = .settle ∧ word = .settle
      ∨ h.running = .steam ∧ h.transition = .none ∧ word = .steam
      ∨ h.running = .mat ∧ h.transition = .none ∧ word = .mat := by
  unfold orderMode
  cases h.running <;> cases h.transition <;> simp [eq_comm]

/-- R55: the bed state, or the current segment of the running plan, gives the setpoint. -/
theorem orderSetpoint_eq_some : orderSetpoint b h = some setpoint
    ↔ (b.state = .set ∨ b.state = .cast) ∧ setpoint = b.holdSetpoint
      ∨ b.state = .curing ∧ h.plan = .running ∧ ∃ g, h.run[h.segIndex]? = some g ∧ setpoint = g.setpoint := by
  unfold orderSetpoint
  cases b.state with
  | set | cast => simp [eq_comm]
  | curing =>
    by_cases hplan : h.plan = .running
    · simp [hplan, eq_comm]
    · simp [hplan]
  | vacant | released | stripping => simp

theorem formOrder_eq (hm : orderMode h = some word) (hs : orderSetpoint b h = some setpoint) :
    formOrder b h = ⟨word, setpoint⟩ := by
  unfold formOrder
  rw [hm, hs]

/-- R55: an order without a word or without a setpoint is OFF at 0.0 °C. -/
theorem formOrder_off (hn : orderMode h = none ∨ orderSetpoint b h = none) : formOrder b h = ⟨.off, 0⟩ := by
  unfold formOrder
  rcases hn with hn | hn <;> rw [hn]
  · rfl
  · cases orderMode h <;> rfl

/-- R55: the word of a running mode or of a transition is not OFF. -/
theorem orderMode_ne_off (hm : orderMode h = some word) : word ≠ .off := by
  rintro rfl
  simpa using orderMode_eq_some.1 hm

end

/-- Settles O29: an order has a word and a setpoint of the table, or is OFF at 0.0 °C for want of one of them. -/
theorem heatOrderFollowsTheTable : Obligations.HeatOrderFollowsTheTable := by
  intro b h word setpoint row hrow
  refine ⟨fun hr => ?_, ?_⟩
  · obtain ⟨hm, hs⟩ := hrow.1 hr
    exact formOrder_eq (orderMode_eq_some.2 hm) (orderSetpoint_eq_some.2 hs)
  · cases hm : orderMode h with
    | none => exact .inl (formOrder_off (.inl hm))
    | some w =>
      cases hs : orderSetpoint b h with
      | none => exact .inl (formOrder_off (.inr hs))
      | some sp =>
        exact .inr ⟨w, sp, orderMode_ne_off hm, formOrder_eq hm hs, orderMode_eq_some.1 hm, orderSetpoint_eq_some.1 hs⟩

/-! ## LOAD PLAN (R57) -/

/-- R57: the plan that a LOAD PLAN carries is within its ranges. -/
def planOk (plan : List Segment) : Prop :=
  1 ≤ plan.length ∧ plan.length ≤ 8 ∧ (∀ g ∈ plan, g.setpoint ≤ 190) ∧ ∀ g ∈ plan, 1 ≤ g.duration ∧ g.duration ≤ 1440

theorem xLoadPlan_range {b : Nat} {plan : List Segment} (s : Plant) (h : ¬(b < 12 ∧ planOk plan)) :
    xLoadPlan b plan s = refuse .range s := by
  unfold xLoadPlan
  split
  · rfl
  · rename_i hb
    split
    · rfl
    · rename_i hlen
      split
      · rfl
      · rename_i hset
        refine if_pos ?_
        rw [Bool.not_eq_true', Bool.eq_false_iff]
        refine fun hdur => h ⟨Nat.not_le.mp hb, ?_⟩
        obtain ⟨hne, hmax⟩ := not_or.1 hlen
        exact ⟨List.length_pos_iff.2 hne, Nat.not_lt.mp hmax, by simpa [setpointOk] using hset,
          by simpa [durationOk] using hdur⟩

theorem xLoadPlan_inRange {b : Nat} {plan : List Segment} (s : Plant) (hb : b < 12) (h : planOk plan) :
    xLoadPlan b plan s = accept [] (s.updHeat b (fun h => { h with next := plan })) := by
  obtain ⟨hmin, hmax, hset, hdur⟩ := h
  have hne : plan ≠ [] := List.length_pos_iff.1 hmin
  unfold xLoadPlan
  rw [if_neg (Nat.not_le.mpr hb), if_neg (by simp [hne, hmax]), if_neg (by simpa [setpointOk] using hset),
    if_neg (by simpa [durationOk] using hdur)]

/-- Settles O31: the ranges; and the one field written. -/
theorem loadPlanWritesNext : Obligations.LoadPlanWritesNext := by
  intro hd b plan s hs
  refine ⟨fun hbad => exec_refused rfl hs (by simp) (xLoadPlan_range s.plant hbad), fun ⟨hb, hok⟩ => ?_⟩
  exact ⟨_, exec_accepted rfl hs (by simp) (xLoadPlan_inRange s.plant hb hok), Plant.heat_updHeat_same _ _ _ hb,
    fun i hi => Plant.heat_updHeat_ne _ _ _ _ (Ne.symm hi), rfl⟩

/-! ## A heat record changed by a command or a timer event -/

/-- R56: a change of one heat record, with the order sent if it changed. -/
theorem bedBecomes_updHeat {b : Nat} {s : Plant} (f : HeatRecord → HeatRecord) (hb : b < 12) (ho : s.isClosed = false) :
    Plant.bedBecomes b (s.bed b) (f (s.heat b)) s (sendIfChanged (s.updHeat b f) b) :=
  bedBecomes_sendIfChanged hb ho (Plant.onlyBed_updHeat b s f) rfl (Plant.heat_updHeat_same _ _ _ hb) rfl

/-- R56: the heat record of the bed is the one given, but for the last order. -/
theorem Plant.bedBecomes.heat {b : Nat} {bed : BedRecord} {h : HeatRecord} {s t : Plant} (k : Plant.bedBecomes b bed h s t) :
    t.heat b = { h with lastOrder := formOrder bed h } := k.2.2.1

/-! ## HEAT MODE (R49 to R51) -/

theorem heatModeOf_none {n : Nat} (hn : 2 < n) : heatModeOf n = none := by
  unfold heatModeOf
  split
  · omega
  · omega
  · omega
  · rfl

/-- R49: the number of a mode is 0 for OFF alone. -/
theorem heatModeOf_some {n : Nat} (hn : n ≤ 2) : ∃ m, heatModeOf n = some m ∧ (m ≠ .off ↔ n ≠ 0) := by
  match n, hn with
  | 0, _ => exact ⟨.off, rfl, by decide⟩
  | 1, _ => exact ⟨.steam, rfl, by decide⟩
  | 2, _ => exact ⟨.mat, rfl, by decide⟩

section
variable {s : Plant} {b n : Nat} {m : HeatMode}

theorem xHeatMode_range (ho : s.isClosed = false) (h : 12 ≤ b ∨ 2 < n) : xHeatMode b n s = refuse .range s := by
  unfold xHeatMode
  rw [if_neg (by simp [ho])]
  split
  · rfl
  · rename_i hb
    rw [heatModeOf_none (h.resolve_left hb)]

/-- R49: the bed takes a heat mode at all: it is SET, CAST or CURING. -/
def BedRecord.heatable (r : BedRecord) : Prop := r.state = .set ∨ r.state = .cast ∨ r.state = .curing

/-- R49: what stands against a mode other than OFF: a unit fault, or a CURING bed without a running plan. -/
def Plant.heatBarred (s : Plant) (b : Nat) : Prop :=
  (s.intakeOf b).unitFault = true ∨ (s.bed b).state = .curing ∧ (s.heat b).plan ≠ .running

/-- R50, R51: the plant after an accepted HEAT MODE. -/
def heatModeAccepted (s : Plant) (b : Nat) (m : HeatMode) : Plant :=
  sendIfChanged (s.updHeat b (fun h => h.request s.works.stop s.works.settings.purge m)) b

section
variable (ho : s.isClosed = false) (hb : b < 12) (hm : heatModeOf n = some m)
include ho hb hm

theorem xHeatMode_state (h : ¬(s.bed b).heatable ∨ m ≠ .off ∧ s.heatBarred b) : xHeatMode b n s = refuse .state s := by
  unfold xHeatMode
  rw [if_neg (by simp [ho]), if_neg (Nat.not_le.mpr hb), hm]
  dsimp only
  split
  · rfl
  · rename_i hst
    have hheat : (s.bed b).heatable := by
      unfold BedRecord.heatable
      tauto
    obtain ⟨hon, hbar⟩ := h.resolve_left (not_not.mpr hheat)
    split
    · rfl
    · rename_i hfault
      exact if_pos ⟨hon, hbar.resolve_left fun hf => hfault ⟨hon, hf⟩⟩

variable (hheat : (s.bed b).heatable) (hfree : m ≠ .off → ¬s.heatBarred b)
include hheat hfree

/-- R49: past the checks of the bed, a transition stands against a mode other than OFF. -/
theorem xHeatMode_passed : xHeatMode b n s = if m ≠ .off ∧ (s.heat b).transition ≠ .none then refuse .busy s
    else accept (heatFields ((heatModeAccepted s b m).heat b)) (heatModeAccepted s b m) := by
  unfold BedRecord.heatable at hheat
  have hbar := fun hon => not_or.1 (hfree hon)
  unfold xHeatMode
  rw [if_neg (by simp [ho]), if_neg (Nat.not_le.mpr hb), hm]
  dsimp only
  rw [if_neg (by tauto), if_neg fun h => (hbar h.1).1 h.2, if_neg fun h => (hbar h.1).2 h.2]
  rfl

end

/-- R50, R51: an accepted HEAT MODE changes the one heat record. -/
theorem heatModeAccepted_becomes (m : HeatMode) (hb : b < 12) (ho : s.isClosed = false) : Plant.bedBecomes b (s.bed b)
    ((s.heat b).request s.works.stop s.works.settings.purge m) s (heatModeAccepted s b m) := bedBecomes_updHeat _ hb ho

/-- R49: the result does not show the last order. -/
theorem heatFields_eq (h : HeatRecord) (o : HeatOrder) : heatFields { h with lastOrder := o }
    = [BitVec.ofNat 8 h.requested.num, BitVec.ofNat 8 h.running.num, BitVec.ofNat 8 h.transition.num,
      BitVec.ofNat 8 h.minutes] := rfl

end

section
variable {h : HeatRecord} {stop : Bool} {purge : Nat} {m : HeatMode}

theorem HeatRecord.request_off : h.request stop purge .off = h.turnOff := if_pos rfl

/-- R51: the requested mode requested again changes nothing. -/
theorem HeatRecord.request_same (hon : m ≠ .off) (hr : h.requested = m) : h.request stop purge m = h :=
  (if_neg hon).trans (if_pos hr)

/-- R51: under the plant stop the request is recorded alone. -/
theorem HeatRecord.request_stopped (hon : m ≠ .off) (hr : h.requested ≠ m) :
    h.request true purge m = { h with requested := m } := (if_neg hon).trans (if_neg hr)

/-- R50: a new request begins its transition. -/
theorem HeatRecord.request_begins (hon : m ≠ .off) (hr : h.requested ≠ m) :
    h.request false purge m = HeatRecord.begin { h with requested := m } purge := (if_neg hon).trans (if_neg hr)

end

/-- Settles O30: the checks in their order, then the change of the one bed by the request. -/
theorem heatModeTakesTheRequest : Obligations.HeatModeTakesTheRequest := by
  intro hd b n s hs ho
  refine ⟨fun hbad => exec_refused rfl hs (by simp) (xHeatMode_range ho hbad), fun hb hn => ?_⟩
  obtain ⟨m, hm, hon⟩ := heatModeOf_some hn
  refine ⟨fun hset hcast hcuring => ?_, fun hheat => ⟨fun hn0 hbar => ?_, fun hn0 hunit hplan htr => ?_,
    fun hn0 hunit hplan htr m' hm' => ?_, fun hn0 => ?_⟩⟩
  · refine exec_refused rfl hs (by simp) (xHeatMode_state ho hb hm (.inl ?_))
    rintro (h | h | h)
    · exact hset h
    · exact hcast h
    · exact hcuring h
  · exact exec_refused rfl hs (by simp) (xHeatMode_state ho hb hm (.inr ⟨hon.2 hn0, hbar⟩))
  · have hfree : ¬s.plant.heatBarred b := not_or.2 ⟨by simp [hunit], fun h => h.2 (hplan h.1)⟩
    exact exec_refused rfl hs (by simp)
      ((xHeatMode_passed ho hb hm hheat fun _ => hfree).trans (if_pos ⟨hon.2 hn0, htr⟩))
  · have hfree : ¬s.plant.heatBarred b := not_or.2 ⟨by simp [hunit], fun h => h.2 (hplan h.1)⟩
    have hmm : m = m' := by
      rcases hm' with ⟨rfl, rfl⟩ | ⟨rfl, rfl⟩ <;> exact (Option.some.inj hm).symm
    subst hmm
    have hon := hon.2 hn0
    have hbecomes := heatModeAccepted_becomes m hb ho
    have hrun := (xHeatMode_passed ho hb hm hheat fun _ => hfree).trans (if_neg fun h => h.2 htr)
    rw [hbecomes.heat, heatFields_eq] at hrun
    refine ⟨_, _, exec_accepted rfl hs (by simp) hrun, hbecomes, HeatRecord.request_same hon, fun hr hstop => ?_,
      fun hr hstop => ?_⟩
    · rw [hstop]
      exact HeatRecord.request_stopped hon hr
    · rw [hstop, HeatRecord.request_begins hon hr]
      exact ⟨fun h => by rw [h]; rfl, fun h => by rw [h]; rfl⟩
  · subst hn0
    obtain rfl : HeatMode.off = m := Option.some.inj hm
    have hbecomes := heatModeAccepted_becomes .off hb ho
    have hrun := (xHeatMode_passed ho hb hm hheat fun h => absurd rfl h).trans (if_neg fun h => h.1 rfl)
    rw [hbecomes.heat, heatFields_eq, HeatRecord.request_off] at hrun
    rw [HeatRecord.request_off] at hbecomes
    exact ⟨_, _, exec_accepted rfl hs (by simp) hrun, rfl, hbecomes⟩

/-! ## SWAP PLAN and STOP CURE (R58, R59, R63) -/

section
variable {s : Plant} {b : Nat}

theorem plan_range (ho : s.isClosed = false) (hb : 12 ≤ b) :
    xSwapPlan b s = refuse .range s ∧ xStopCure b s = refuse .range s := by
  simp [xSwapPlan, xStopCure, ho, hb]

/-- R59: the plant after an accepted SWAP PLAN. -/
def swapPlanAccepted (s : Plant) (b : Nat) : Plant :=
  sendIfChanged (s.updHeat b (fun h => h.swap (decide ((s.bed b).state = .curing)))) b

theorem xSwapPlan_open (ho : s.isClosed = false) (hb : b < 12) : xSwapPlan b s
    = if (s.heat b).next = [] then refuse .state s
      else accept
        (byte1 ((swapPlanAccepted s b).heat b).plan.num ++ boolByte ((swapPlanAccepted s b).heat b).swapPending)
        (swapPlanAccepted s b) := by
  unfold xSwapPlan
  rw [if_neg (by simp [ho]), if_neg (Nat.not_le.mpr hb)]
  rfl

/-- R59: an accepted SWAP PLAN changes the one heat record. -/
theorem swapPlanAccepted_becomes (hb : b < 12) (ho : s.isClosed = false) : Plant.bedBecomes b (s.bed b)
    ((s.heat b).swap (decide ((s.bed b).state = .curing))) s (swapPlanAccepted s b) := bedBecomes_updHeat _ hb ho

/-- R63: the heat record after an accepted STOP CURE. -/
def HeatRecord.stopCure (h : HeatRecord) : HeatRecord := { h with plan := .complete, swapPending := false }.turnOff

theorem Plant.updHeat_updHeat (s : Plant) (b : Nat) (f g : HeatRecord → HeatRecord) :
    (s.updHeat b f).updHeat b g = s.updHeat b (fun h => g (f h)) := by
  unfold Plant.updHeat
  rw [upd_upd]

theorem xStopCure_open (ho : s.isClosed = false) (hb : b < 12) : xStopCure b s
    = if (s.bed b).state ≠ .curing then refuse .state s
      else accept [] (sendIfChanged (s.updHeat b HeatRecord.stopCure) b) := by
  unfold xStopCure forceOff heatOff
  rw [if_neg (by simp [ho]), if_neg (Nat.not_le.mpr hb), Plant.updHeat_updHeat]
  rfl

end

/-- Settles O32: each command by its equation in OPEN, and the change of its one bed by the plan state. -/
theorem planCommandsMoveThePlan : Obligations.PlanCommandsMoveThePlan := by
  intro hd b s hs ho
  refine ⟨fun hb => ?_, fun hb => ?_⟩
  · obtain ⟨hswap, hstop⟩ := plan_range ho hb
    exact ⟨exec_refused rfl hs (by simp) hswap, exec_refused rfl hs (by simp) hstop⟩
  · have hswap := xSwapPlan_open ho hb
    have hstop := xStopCure_open ho hb
    have hbecomes := swapPlanAccepted_becomes hb ho
    refine ⟨fun hnext => exec_refused rfl hs (by simp) (hswap.trans (if_pos hnext)), fun hnext => ?_,
      fun hst => exec_refused rfl hs (by simp) (hstop.trans (if_pos hst)), fun hst => ?_⟩
    · rw [if_neg hnext, hbecomes.heat, boolByte_eq] at hswap
      refine ⟨_, (s.plant.heat b).swap (decide ((s.plant.bed b).state = .curing)), exec_accepted rfl hs (by simp) hswap,
        hbecomes, HeatRecord.swap_running _, fun hplan hst => ?_, fun hplan hst => ?_⟩
      · exact HeatRecord.swap_loads hplan fun _ => decide_eq_false hst
      · rw [decide_eq_true hst]
        exact HeatRecord.swap_starts hplan
    · exact ⟨_, exec_accepted rfl hs (by simp) (hstop.trans (if_neg (not_not.mpr hst))),
        bedBecomes_updHeat HeatRecord.stopCure hb ho⟩

/-! ## TRANSITION_END and SEGMENT_END (R48, R61 to R63) -/

section
variable {s : Plant} {b : Nat}

theorem transitionDue_iff (ho : s.isClosed = false) :
    transitionDue s b = true ↔ (s.heat b).transition ≠ .none ∧ (s.heat b).minutes ≤ 1 := by
  simp [transitionDue, ho]

theorem segmentCounts_iff {stop : Bool} {r : BedRecord} {h : HeatRecord} :
    segmentCounts stop r h = true ↔ r.state = .curing ∧ h.plan = .running ∧ h.running ≠ .off ∧ stop = false := by
  simp [segmentCounts, and_assoc]

theorem segmentDue_iff (ho : s.isClosed = false) : segmentDue s b = true
    ↔ ((s.bed b).state = .curing ∧ (s.heat b).plan = .running ∧ (s.heat b).running ≠ .off ∧ s.works.stop = false)
      ∧ (s.heat b).segMinutes ≤ 1 := by
  simp [segmentDue, ho, segmentCounts_iff]

/-- R48, R61: with running OFF the segment timer does not count, so the timer event is the transition's alone. -/
theorem heatTick_transition (hrun : (s.heat b).running = .off) :
    heatTick s b = sendIfChanged (s.updHeat b (fun h => { h.tickTransition with due := false })) b := by
  unfold heatTick
  refine if_neg fun h => ?_
  exact (segmentCounts_iff.1 h).2.2.1 hrun

/-- R48: a due transition end starts the requested mode. -/
theorem HeatRecord.tickTransition_ends {h : HeatRecord} (htr : h.transition ≠ .none) (hmin : h.minutes ≤ 1) :
    h.tickTransition = { h with transition := .none, minutes := 0, running := h.requested } :=
  (HeatRecord.tickTransition_counts htr).trans (if_pos hmin)

/-- R62, R63: the end of a segment in the heat record, and PLAN-DONE at the end of the plan. -/
theorem segmentEnds_becomes {s p : Plant} (hb : b < 12) (ho : s.isClosed = false) (honly : Plant.onlyBed b s p)
    (hbed : p.bed b = s.bed b) (hline : p.bedLine b = s.bedLine b) : Plant.bedBecomes b
      (if (p.heat b).lastSegmentEnds then { s.bed b with flags := { (s.bed b).flags with planDone := true } } else s.bed b)
      (p.heat b).endSegment s (segmentEnds p b) := by
  have hend : Plant.onlyBed b s (p.updHeat b HeatRecord.endSegment) :=
    Plant.onlyBed_trans honly (Plant.onlyBed_updHeat b p _)
  have hheat := Plant.heat_updHeat_same p b HeatRecord.endSegment hb
  unfold segmentEnds
  dsimp only
  split
  · refine bedBecomes_sendIfChanged hb ho (Plant.onlyBed_trans hend (Plant.onlyBed_updBed b _ _)) ?_ hheat hline
    rw [← hbed]
    exact Plant.bed_updBed_same _ _ _ hb
  · exact bedBecomes_sendIfChanged hb ho hend hbed hheat hline

/-- R61: a due segment end without a transition: the order stands, so the event ends the segment and does nothing else. -/
theorem heatTick_segment (hb : b < 12) (hlast : formOrder (s.bed b) (s.heat b) = (s.heat b).lastOrder)
    (hcounts : segmentCounts s.works.stop (s.bed b) (s.heat b) = true) (hmin : (s.heat b).segMinutes ≤ 1)
    (htr : (s.heat b).transition = .none) : heatTick s b
      = segmentEnds (s.updHeat b (fun h => { h.tickTransition with due := false })) b := by
  have hheat := Plant.heat_updHeat_same s b (fun h => { h.tickTransition with due := false }) hb
  rw [HeatRecord.tickTransition_none htr] at hheat
  have hstands : sendIfChanged (s.updHeat b (fun h => { h.tickTransition with due := false })) b
      = s.updHeat b (fun h => { h.tickTransition with due := false }) := by
    unfold sendIfChanged
    rw [hheat]
    exact if_pos hlast
  unfold heatTick countSegment
  dsimp only
  rw [if_pos hcounts, hstands, if_pos]
  rw [hheat]
  exact hmin

end

section
variable {h : HeatRecord}

theorem HeatRecord.endSegment_swap (hplan : h.plan = .running) (hs : h.swapPending = true) : h.endSegment
    = { h with
        run := h.next, next := [], segIndex := 0, swapPending := false
        segMinutes := (h.next[0]?.map Segment.duration).getD 0 } := by
  have hstart : h.endSegment = { h.promote with swapPending := false }.start := if_pos hs
  rw [hstart]
  simp [HeatRecord.start, HeatRecord.promote, HeatRecord.durationOf, hplan]

theorem HeatRecord.lastSegmentEnds_iff :
    h.lastSegmentEnds = true ↔ h.swapPending = false ∧ h.run.length ≤ h.segIndex + 1 := by
  simp [HeatRecord.lastSegmentEnds]

theorem HeatRecord.endSegment_last (hs : h.swapPending = false) (hlen : h.run.length ≤ h.segIndex + 1) :
    h.endSegment = { h with plan := .complete, segMinutes := 0 }.turnOff := by
  unfold HeatRecord.endSegment
  rw [if_neg (by simp [hs]), if_pos (HeatRecord.lastSegmentEnds_iff.2 ⟨hs, hlen⟩)]

theorem HeatRecord.endSegment_next (hs : h.swapPending = false) (hlen : h.segIndex + 1 < h.run.length) :
    h.endSegment = { h with segIndex := h.segIndex + 1, segMinutes := h.durationOf (h.segIndex + 1) } := by
  unfold HeatRecord.endSegment
  rw [if_neg (by simp [hs]), if_neg fun hl => absurd (HeatRecord.lastSegmentEnds_iff.1 hl).2 (Nat.not_le.mpr hlen)]

end

/-- A timer row whose event is due takes it; another does nothing (log 5). -/
theorem State.timerRow_fires {s : State} {fires : Bool} {f : Plant → Plant} (h : fires = true) :
    s.timerRow fires f = { s with plant := f s.plant } := if_pos h

theorem State.timerRow_rests {s : State} {fires : Bool} {f : Plant → Plant} (h : ¬fires = true) :
    s.timerRow fires f = s := if_neg h

/-- Settles O33: a row whose event is not due rests; a due one is the transition's event or the segment's end. -/
theorem heatTimersEndTransitionsAndSegments : Obligations.HeatTimersEndTransitionsAndSegments := by
  intro b s ho hlast
  have hb : b.val < 12 := b.isLt
  refine ⟨fun hrest => ?_, fun htr hmin hrun => ?_, fun hrest => ?_, fun hst hplan hrun hstop hmin htr => ?_⟩
  · refine congrArg Host.Outcome.next (State.timerRow_rests fun hdue => ?_)
    obtain ⟨htr, hmin⟩ := (transitionDue_iff ho).1 hdue
    exact hrest.elim htr (Nat.not_lt.mpr hmin)
  · refine ⟨_, congrArg Host.Outcome.next (State.timerRow_fires ((transitionDue_iff ho).2 ⟨htr, hmin⟩)), ?_⟩
    have hbecomes := bedBecomes_updHeat (s := s.plant) (fun h => { h.tickTransition with due := false }) hb ho
    rw [HeatRecord.tickTransition_ends htr hmin] at hbecomes
    rw [heatTick_transition hrun]
    exact hbecomes
  · refine congrArg Host.Outcome.next (State.timerRow_rests fun hdue => hrest ?_)
    obtain ⟨⟨hst, hplan, hrun, hstop⟩, hmin⟩ := (segmentDue_iff ho).1 hdue
    exact ⟨hst, hplan, hrun, hstop, hmin⟩
  · have hcounts := segmentCounts_iff.2 ⟨hst, hplan, hrun, hstop⟩
    have hdue := (segmentDue_iff ho).2 ⟨⟨hst, hplan, hrun, hstop⟩, hmin⟩
    refine ⟨_, congrArg Host.Outcome.next (State.timerRow_fires hdue), ?_⟩
    have hbecomes := segmentEnds_becomes (s := s.plant) hb ho
      (Plant.onlyBed_updHeat b s.plant (fun h => { h.tickTransition with due := false })) rfl rfl
    rw [Plant.heat_updHeat_same _ _ _ hb, HeatRecord.tickTransition_none htr] at hbecomes
    have hlastEnds := HeatRecord.lastSegmentEnds_iff (h := { s.plant.heat b with due := false })
    rw [heatTick_segment hb hlast hcounts hmin htr]
    generalize segmentEnds _ _ = p at hbecomes
    refine ⟨fun hswap => ?_, fun hswap hlen => ?_, fun hswap hlen => ?_⟩
    · rw [HeatRecord.endSegment_swap (h := { s.plant.heat b with due := false }) hplan hswap,
        if_neg fun hl => absurd (hswap.symm.trans (hlastEnds.1 hl).1) (by decide)] at hbecomes
      exact hbecomes
    · rw [HeatRecord.endSegment_next (h := { s.plant.heat b with due := false }) hswap hlen,
        if_neg fun hl => absurd (hlastEnds.1 hl).2 (Nat.not_le.mpr hlen)] at hbecomes
      exact hbecomes
    · rw [HeatRecord.endSegment_last (h := { s.plant.heat b with due := false }) hswap hlen,
        if_pos (hlastEnds.2 ⟨hswap, hlen⟩)] at hbecomes
      exact hbecomes

end Sys2Proof.Machine
end


-- ==== Sys2Proof/Proofs/SampleIntake.lean ====
section
/-! PROOF. Sample Intake: what an event of one bed writes in the records of that bed and in the pieces on it, and with it the GAP
and LOST expiries (R76, R78 to R80) and an accepted SAMPLE (R67 to R77). -/

namespace Sys2Proof.Machine

/-! ## The pieces on a bed (R71, R76) -/

/-- A position of the bed holds the handle of the piece slot. -/
def BedRecord.carries (r : BedRecord) (slot : Nat) : Prop := ∃ i h, i < 8 ∧ r.at i = some h ∧ h.slot = slot

theorem BedRecord.not_carries {r : BedRecord} {slot : Nat} (h : ∀ i k, i < 8 → r.at i = some k → k.slot ≠ slot) :
    ¬r.carries slot := fun ⟨i, k, hi, hat, hslot⟩ => h i k hi hat hslot

theorem BedRecord.carries_of_table {r r' : BedRecord} (h : r'.table = r.table) (slot : Nat) :
    r'.carries slot ↔ r.carries slot := by
  unfold BedRecord.carries BedRecord.at
  rw [h]

/-- The pieces of a bed are those on its eight positions. -/
theorem BedRecord.carries_iff (r : BedRecord) (slot : Nat) : r.carries slot ↔ ∃ h ∈ r.occupants, h.slot = slot := by
  have hall : r.occupants = r.firstHandles 8 := by
    unfold BedRecord.occupants BedRecord.firstHandles
    rw [List.take_of_length_le (by simp)]
  rw [hall]
  constructor
  · rintro ⟨i, h, hi, hat, hslot⟩
    exact ⟨h, (r.mem_firstHandles 8 h).2 ⟨i, hi, hat⟩, hslot⟩
  · rintro ⟨h, hmem, hslot⟩
    obtain ⟨i, hi, hat⟩ := (r.mem_firstHandles 8 h).1 hmem
    exact ⟨i, h, hi, hat, hslot⟩

/-- One change made to the pieces that handles name, one after another. -/
def updPieces (hs : List Handle) (f : Piece → Piece) (y : Yard) : Yard := forEach hs (fun y h => y.updPiece h.slot f) y

theorem Yard.pieceAt_updPiece_self (y : Yard) (i : Nat) (f : Piece → Piece) :
    (y.updPiece i f).pieceAt i = (y.pieceAt i).map f := by
  by_cases hi : i < 1024
  · exact Yard.pieceAt_updPiece_same y i f hi
  · unfold Yard.pieceAt Yard.pieceSlot
    rw [getOr_ge _ _ _ (Nat.not_lt.mp hi), getOr_ge _ _ _ (Nat.not_lt.mp hi)]
    rfl

section
variable {f : Piece → Piece} {slot : Nat}

theorem pieceAt_updPieces_off (hs : List Handle) (y : Yard) (h : ¬∃ k ∈ hs, k.slot = slot) :
    (updPieces hs f y).pieceAt slot = y.pieceAt slot := by
  induction hs generalizing y with
  | nil => rfl
  | cons k hs ih =>
    rw [List.exists_mem_cons_iff, not_or] at h
    obtain ⟨hk, hrest⟩ := h
    exact (ih _ hrest).trans (Yard.pieceAt_updPiece_ne y k.slot slot f hk)

/-- A handle that comes twice changes its piece once more, so the change is one that made twice is made once. -/
theorem pieceAt_updPieces_on (hf : ∀ p, f (f p) = f p) (hs : List Handle) (y : Yard) (h : ∃ k ∈ hs, k.slot = slot) :
    (updPieces hs f y).pieceAt slot = (y.pieceAt slot).map f := by
  induction hs generalizing y with
  | nil => simp at h
  | cons k hs ih =>
    have hstep : updPieces (k :: hs) f y = updPieces hs f (y.updPiece k.slot f) := rfl
    rw [hstep]
    by_cases hk : k.slot = slot
    · have hhead : (y.updPiece k.slot f).pieceAt slot = (y.pieceAt slot).map f := by
        rw [hk]
        exact Yard.pieceAt_updPiece_self y slot f
      by_cases hrest : ∃ k ∈ hs, k.slot = slot
      · rw [ih _ hrest, hhead, Option.map_map, show f ∘ f = f from funext hf]
      · rw [pieceAt_updPieces_off hs _ hrest, hhead]
    · have hrest := (List.exists_mem_cons_iff ..).1 h |>.resolve_left hk
      rw [ih _ hrest, Yard.pieceAt_updPiece_ne y k.slot slot f hk]

end

theorem updPieces_rest (hs : List Handle) (f : Piece → Piece) (y : Yard) (ps : Vector PieceSlot 1024) :
    { updPieces hs f y with pieces := ps } = { y with pieces := ps } := by
  induction hs generalizing y with
  | nil => rfl
  | cons k hs ih => exact ih (y.updPiece k.slot f)

/-! ## An event of one bed -/

/-- What an event of a bed makes of the four records of the bed and of the pieces on it. -/
structure BedEdit where
  bed    : BedRecord → BedRecord := id
  heat   : HeatRecord → HeatRecord := id
  intake : IntakeRecord → IntakeRecord := id
  line   : BedLine → BedLine := id
  piece  : Piece → Piece := id

/-- One edit after another. -/
def BedEdit.followedBy (e e' : BedEdit) : BedEdit where
  bed := e'.bed ∘ e.bed
  heat := e'.heat ∘ e.heat
  intake := e'.intake ∘ e.intake
  line := e'.line ∘ e.line
  piece := e'.piece ∘ e.piece

/-- The plants differ by the edit of bed `b` and of the pieces on it, and by nothing else. -/
structure Plant.Edits (b : Nat) (e : BedEdit) (s t : Plant) : Prop where
  bed     : t.bed b = e.bed (s.bed b)
  heat    : t.heat b = e.heat (s.heat b)
  intake  : t.intakeOf b = e.intake (s.intakeOf b)
  line    : t.bedLine b = e.line (s.bedLine b)
  table   : (t.bed b).table = (s.bed b).table
  onBed   : ∀ slot, (s.bed b).carries slot → t.yard.pieceAt slot = (s.yard.pieceAt slot).map e.piece
  offBed  : ∀ slot, ¬(s.bed b).carries slot → t.yard.pieceAt slot = s.yard.pieceAt slot
  others  : ∀ i, i ≠ b → t.bed i = s.bed i ∧ t.heat i = s.heat i ∧ t.bedLine i = s.bedLine i ∧ t.intakeOf i = s.intakeOf i
  yard    : { t.yard with pieces := s.yard.pieces } = s.yard
  works   : t.works = s.works
  classes : t.classes = s.classes
  markMap : t.markMap = s.markMap

namespace Plant.Edits
variable {b : Nat} {e e' : BedEdit} {s t u : Plant}

/-- The yard as it was. -/
theorem of_yard (hyard : t.yard = s.yard) (hpiece : e.piece = id) (hbed : t.bed b = e.bed (s.bed b))
    (htable : (e.bed (s.bed b)).table = (s.bed b).table) (hheat : t.heat b = e.heat (s.heat b))
    (hintake : t.intakeOf b = e.intake (s.intakeOf b)) (hline : t.bedLine b = e.line (s.bedLine b))
    (hothers : ∀ i, i ≠ b →
      t.bed i = s.bed i ∧ t.heat i = s.heat i ∧ t.bedLine i = s.bedLine i ∧ t.intakeOf i = s.intakeOf i)
    (hworks : t.works = s.works) (hclasses : t.classes = s.classes) (hmarks : t.markMap = s.markMap) :
    Plant.Edits b e s t where
  bed := hbed
  heat := hheat
  intake := hintake
  line := hline
  table := hbed ▸ htable
  onBed slot _ := by rw [hyard, hpiece, Option.map_id_fun, id]
  offBed slot _ := by rw [hyard]
  others := hothers
  yard := by rw [hyard]
  works := hworks
  classes := hclasses
  markMap := hmarks

/-- An edit that finds nothing to change. -/
theorem same (hbed : e.bed (s.bed b) = s.bed b) (hheat : e.heat (s.heat b) = s.heat b)
    (hintake : e.intake (s.intakeOf b) = s.intakeOf b) (hline : e.line (s.bedLine b) = s.bedLine b)
    (hpiece : e.piece = id) : Plant.Edits b e s s :=
  .of_yard rfl hpiece hbed.symm (by rw [hbed]) hheat.symm hintake.symm hline.symm (fun _ _ => ⟨rfl, rfl, rfl, rfl⟩) rfl rfl rfl

theorem trans (h : Plant.Edits b e s t) (k : Plant.Edits b e' t u) : Plant.Edits b (e.followedBy e') s u where
  bed := by rw [k.bed, h.bed]; rfl
  heat := by rw [k.heat, h.heat]; rfl
  intake := by rw [k.intake, h.intake]; rfl
  line := by rw [k.line, h.line]; rfl
  table := k.table.trans h.table
  onBed slot hslot := by
    rw [k.onBed slot ((BedRecord.carries_of_table h.table slot).2 hslot), h.onBed slot hslot, Option.map_map]
    rfl
  offBed slot hslot :=
    (k.offBed slot (mt (BedRecord.carries_of_table h.table slot).1 hslot)).trans (h.offBed slot hslot)
  others i hi := by
    obtain ⟨hbed, hheat, hline, hintake⟩ := h.others i hi
    obtain ⟨kbed, kheat, kline, kintake⟩ := k.others i hi
    exact ⟨kbed.trans hbed, kheat.trans hheat, kline.trans hline, kintake.trans hintake⟩
  yard := (congrArg (fun y : Yard => { y with pieces := s.yard.pieces }) k.yard).trans h.yard
  works := k.works.trans h.works
  classes := k.classes.trans h.classes
  markMap := k.markMap.trans h.markMap

/-- A change of one bed that writes neither its bed record nor its intake record. -/
theorem of_onlyBed {f : HeatRecord → HeatRecord} {g : BedLine → BedLine} (h : Plant.onlyBed b s t) (hbeds : t.beds = s.beds)
    (hheat : t.heat b = f (s.heat b)) (hline : t.bedLine b = g (s.bedLine b)) :
    Plant.Edits b { heat := f, line := g } s t := by
  obtain ⟨hworks, hclasses, hmarks, hintake, hyard, hothers⟩ := h
  have hin : ∀ i, t.intakeOf i = s.intakeOf i := fun i => congrArg (getOr · i IntakeRecord.reset) hintake
  refine .of_yard hyard rfl (congrArg (getOr · b BedRecord.reset) hbeds) rfl hheat (hin b) hline (fun i hi => ?_) hworks hclasses
    hmarks
  obtain ⟨hbed, hheat, hline⟩ := hothers i hi
  exact ⟨hbed, hheat, hline, hin i⟩

/-- R71, R76: a change, made twice as once, of the pieces on the bed. -/
theorem updOccupants (s : Plant) {f : Piece → Piece} (hf : ∀ p, f (f p) = f p) :
    Plant.Edits b { piece := f } s (s.updYard (updPieces (s.bed b).occupants f)) where
  bed := rfl
  heat := rfl
  intake := rfl
  line := rfl
  table := rfl
  onBed slot h := pieceAt_updPieces_on hf _ s.yard (((s.bed b).carries_iff slot).1 h)
  offBed slot h := pieceAt_updPieces_off _ s.yard (mt ((s.bed b).carries_iff slot).2 h)
  others _ _ := ⟨rfl, rfl, rfl, rfl⟩
  yard := updPieces_rest _ f s.yard s.yard.pieces
  works := rfl
  classes := rfl
  markMap := rfl

variable (hb : b < 12)
include hb

theorem updIntake (s : Plant) (f : IntakeRecord → IntakeRecord) : Plant.Edits b { intake := f } s (s.updIntake b f) :=
  .of_yard rfl rfl rfl rfl rfl (Plant.intakeOf_updIntake_same s b f hb) rfl
    (fun i hi => ⟨rfl, rfl, rfl, Plant.intakeOf_updIntake_ne s b i f (Ne.symm hi)⟩) rfl rfl rfl

theorem updBed (s : Plant) (f : BedRecord → BedRecord) (hf : (f (s.bed b)).table = (s.bed b).table) :
    Plant.Edits b { bed := f } s (s.updBed b f) :=
  .of_yard rfl rfl (Plant.bed_updBed_same s b f hb) hf rfl rfl rfl
    (fun i hi => ⟨Plant.bed_updBed_ne s b i f (Ne.symm hi), rfl, rfl, rfl⟩) rfl rfl rfl

theorem latchBed (s : Plant) (f : BedFlags → BedFlags) :
    Plant.Edits b { bed := fun r => { r with flags := f r.flags } } s (s.latchBed b f) := .updBed hb s _ rfl

theorem heatOff (s : Plant) : Plant.Edits b { heat := HeatRecord.turnOff } s (Machine.heatOff s b) :=
  .of_onlyBed (g := id) (Plant.onlyBed_updHeat b s _) rfl (Plant.heat_updHeat_same s b _ hb) rfl

end Plant.Edits

/-! ## What the effects of the intake edit (R53, R56, R71, R75 to R77) -/

/-- R10: a maturity offered twice is offered once. -/
theorem offer_twice (m : Nat) (p : Piece) : offer m (offer m p) = offer m p :=
  congrArg (fun k => { p with maturity := k }) (Nat.max_eq_left (Nat.le_max_right _ _))

/-- R76: a CURE hold gained. -/
def Piece.cureHeld (p : Piece) : Piece := { p with holds := { p.holds with cure := true } }

section
variable {b : Nat} (hb : b < 12) (s : Plant)

/-- R76: every piece on a position of the bed gains a CURE hold. -/
theorem holdCure_edits : Plant.Edits b { piece := Piece.cureHeld } s (holdCure s b) :=
  .updOccupants s fun _ => rfl

include hb

/-- R56: the order of the bed sent, changed or not. -/
theorem sendOrder_edits (ho : s.isClosed = false) : Plant.Edits b
    { heat := fun h => { h with lastOrder := formOrder (s.bed b) (s.heat b) }
      line := fun l => l.put (formOrder (s.bed b) (s.heat b)) } s (sendOrder s b) := by
  have hline : (sendOrder s b).bedLine b = (s.bedLine b).put (formOrder (s.bed b) (s.heat b)) := by
    unfold sendOrder
    rw [if_neg (by simp [ho])]
    exact Plant.bedLine_updBedLine_same s b _ hb
  exact .of_onlyBed (g := fun l => l.put _) (sendOrder_onlyBed s b) (sendOrder_beds s b) (sendOrder_heat s b hb ho) hline

/-- R53, R56: a forced OFF, with the OFF order sent where it is not the last one. -/
theorem forceOff_edits (ho : s.isClosed = false) : Plant.Edits b
    { heat := fun h => { h.turnOff with lastOrder := ⟨.off, 0⟩ }
      line := fun l => if (s.heat b).lastOrder = ⟨.off, 0⟩ then l else l.put ⟨.off, 0⟩ } s (forceOff s b) := by
  obtain ⟨honly, -, hheat, hline⟩ := bedBecomes_updHeat HeatRecord.turnOff hb ho
  rw [formOrder_turnOff] at hheat hline
  rw [show (s.heat b).turnOff.lastOrder = (s.heat b).lastOrder from rfl] at hline
  simp only [eq_comm (a := HeatOrder.mk .off 0)] at hline
  exact .of_onlyBed (f := fun h => { h.turnOff with lastOrder := ⟨.off, 0⟩ })
    (g := fun l => if (s.heat b).lastOrder = ⟨.off, 0⟩ then l else l.put ⟨.off, 0⟩) honly
    (sendIfChanged_beds _ b) hheat hline

/-- R71: the maturity of the bed once a sample is credited. -/
def Plant.credited (s : Plant) (b : Nat) (t : Int) : Nat :=
  creditedMaturity (s.bed b).maturity (credit t s.works.settings.period)

/-- R71, R72: a bed that earns the credit takes it and offers its maturity to the pieces on it. -/
theorem creditBed_edits {earns : Bool} (t : Int) (hearns : earns = (s.bed b).state.credited) : Plant.Edits b
    { bed := fun r => { r with maturity := if earns then s.credited b t else r.maturity }
      piece := fun p => { p with maturity := if earns then max p.maturity (s.credited b t) else p.maturity } }
    s (creditBed s b t) := by
  unfold creditBed
  rw [← hearns]
  cases earns with
  | true =>
    exact (Plant.Edits.updOccupants s (offer_twice (s.credited b t))).trans
      (.updBed hb _ (fun r => { r with maturity := s.credited b t }) rfl)
  | false => exact .same rfl rfl rfl rfl rfl

/-- R75: a sample above the limit latches OVER-TEMP, forces the heat OFF and holds the pieces. -/
theorem overTemperature_edits {hot : Bool} {t : Int} (hhot : hot = true ↔ (s.works.settings.maxTemp : Int) < t) :
    Plant.Edits b
      { bed := fun r => { r with flags := { r.flags with overTemp := r.flags.overTemp || hot } }
        heat := fun h => if hot then h.turnOff else h
        piece := fun p => { p with holds := { p.holds with cure := p.holds.cure || hot } } } s (overTemperature s b t) := by
  unfold overTemperature
  cases hot with
  | true =>
    rw [if_pos (hhot.1 rfl)]
    simp only [Bool.or_true, if_true]
    exact ((Plant.Edits.latchBed hb s BedFlags.latchOverTemp).trans (.heatOff hb _)).trans (holdCure_edits _)
  | false =>
    rw [if_neg fun h => Bool.false_ne_true (hhot.2 h)]
    simp only [Bool.or_false]
    exact .same rfl rfl rfl rfl rfl

/-- R77: the unit-fault condition follows the unit status; a FAULT latches UNIT-FAULT and forces the heat OFF. -/
theorem unitStatus_edits (status : Nat) : Plant.Edits b
    { bed := fun r => { r with flags := { r.flags with unitFault := r.flags.unitFault || decide (status = 1) } }
      heat := fun h => if status = 1 then h.turnOff else h
      intake := fun r => { r with unitFault := decide (status = 1) } } s (unitStatus s b status) := by
  unfold unitStatus
  by_cases hst : status = 1
  · simp only [hst, if_true, decide_true, Bool.or_true]
    exact ((Plant.Edits.updIntake hb s _).trans (.latchBed hb _ BedFlags.latchUnitFault)).trans (.heatOff hb _)
  · simp only [hst, if_false, decide_false, Bool.or_false]
    exact .updIntake hb s _

end

/-! ## GAP and LOST expiries (R78 to R80) -/

section
variable {s : Plant} {b : Nat}

theorem gapDue_iff (ho : s.isClosed = false) : gapDue s b = true ↔ (s.intakeOf b).state = .ok
    ∧ 2 * s.works.settings.period ≤ (s.intakeOf b).gapCount + 1
    ∧ (s.intakeOf b).gapCount + 1 < 6 * s.works.settings.period := by
  simp [gapDue, ho, and_assoc]

theorem lostDue_iff (ho : s.isClosed = false) : lostDue s b = true
    ↔ (s.intakeOf b).state ≠ .lost ∧ 6 * s.works.settings.period ≤ (s.intakeOf b).gapCount + 1 := by
  simp [lostDue, ho]

/-- R78: the gap count of a timer event, and the event taken. -/
def intakeCounted (s : Plant) (b : Nat) : Plant :=
  s.updIntake b (fun r => { r with gapCount := (s.intakeOf b).gapCount + 1, due := false })

theorem intakeTick_gap (hst : (s.intakeOf b).state = .ok) (hlo : 2 * s.works.settings.period ≤ (s.intakeOf b).gapCount + 1)
    (hhi : (s.intakeOf b).gapCount + 1 < 6 * s.works.settings.period) :
    intakeTick s b = gapExpiry (intakeCounted s b) b := by
  unfold intakeTick
  dsimp only
  rw [if_neg (by simp [hst]), if_neg (Nat.not_le.mpr hhi), if_pos ⟨hlo, hst⟩]
  rfl

theorem intakeTick_lost (hst : (s.intakeOf b).state ≠ .lost)
    (hcount : 6 * s.works.settings.period ≤ (s.intakeOf b).gapCount + 1) :
    intakeTick s b = lostExpiry (intakeCounted s b) b (decide ((s.intakeOf b).state = .ok)) := by
  unfold intakeTick
  dsimp only
  rw [if_neg hst, if_pos hcount]
  rfl

theorem gapExpiry_vacant (hv : (s.bed b).state = .vacant) :
    gapExpiry s b = s.updIntake b (fun r => { r with state := .gap }) := if_pos hv

theorem gapExpiry_inUse (hv : (s.bed b).state ≠ .vacant) :
    gapExpiry s b = (s.updIntake b (fun r => { r with state := .gap })).latchBed b BedFlags.latchGap := if_neg hv

theorem lostExpiry_vacant {wasOk : Bool} (hv : (s.bed b).state = .vacant) :
    lostExpiry s b wasOk = s.updIntake b (fun r => { r with state := .lost }) := if_pos hv

/-- R79: a GAP expiry reaches no record but the intake record and the flags of its bed. -/
theorem gapExpiry_rest (s : Plant) (b : Nat) :
    { gapExpiry s b with beds := s.beds, intake := s.intake } = s := by
  by_cases hv : (s.bed b).state = .vacant
  · rw [gapExpiry_vacant hv]
    rfl
  · rw [gapExpiry_inUse hv]
    rfl

/-- R80: the flags after a LOST expiry. -/
theorem lostFlags_eq (wasOk : Bool) (f : BedFlags) :
    (if wasOk then f.latchGap.latchLost else f.latchLost) = { f with lost := true, gap := f.gap || wasOk } := by
  cases wasOk <;> simp [BedFlags.latchGap, BedFlags.latchLost]

variable (hb : b < 12)
include hb

/-- R80: a LOST expiry on a bed in use. -/
theorem lostExpiry_edits {wasOk : Bool} (ho : s.isClosed = false) (hv : (s.bed b).state ≠ .vacant) : Plant.Edits b
    { bed := fun r => { r with flags := { r.flags with lost := true, gap := r.flags.gap || wasOk } }
      heat := fun h => { h.turnOff with lastOrder := ⟨.off, 0⟩ }
      intake := fun r => { r with state := .lost }
      line := fun l => if (s.heat b).lastOrder = ⟨.off, 0⟩ then l else l.put ⟨.off, 0⟩
      piece := Piece.cureHeld } s (lostExpiry s b wasOk) := by
  unfold lostExpiry
  dsimp only
  rw [if_neg hv]
  simp only [lostFlags_eq]
  have hlatched := (Plant.Edits.updIntake hb s (fun r => { r with state := .lost })).trans
    (.latchBed hb _ fun f => { f with lost := true, gap := f.gap || wasOk })
  exact (hlatched.trans (forceOff_edits hb _ ho)).trans (holdCure_edits _)

/-- R79: a GAP expiry writes the sample state, and the flag of a bed in use. -/
theorem gapExpiry_edits (s : Plant) : Plant.Edits b
    { bed := fun r => { r with flags := { r.flags with gap := r.flags.gap || decide ((s.bed b).state ≠ .vacant) } }
      intake := fun r => { r with state := .gap } } s (gapExpiry s b) := by
  have hgap := Plant.Edits.updIntake hb s (fun r => { r with state := .gap })
  by_cases hv : (s.bed b).state = .vacant
  · rw [gapExpiry_vacant hv]
    simp only [hv, ne_eq, not_true_eq_false, decide_false, Bool.or_false]
    exact hgap
  · rw [gapExpiry_inUse hv]
    simp only [hv, ne_eq, not_false_eq_true, decide_true, Bool.or_true]
    exact hgap.trans (.latchBed hb _ BedFlags.latchGap)

end

/-- R76: the pieces on the bed take the edit, and the others none. -/
theorem Plant.Edits.pieces {b : Nat} {e : BedEdit} {s t : Plant} (h : Plant.Edits b e s t) (slot : Nat) (q : Piece)
    (hq : s.yard.pieceAt slot = some q) :
    ((∃ i k, i < 8 ∧ (s.bed b).at i = some k ∧ k.slot = slot) → t.yard.pieceAt slot = some (e.piece q))
      ∧ ((∀ i k, i < 8 → (s.bed b).at i = some k → k.slot ≠ slot) → t.yard.pieceAt slot = some q) := by
  refine ⟨fun hon => ?_, fun hoff => (h.offBed slot (BedRecord.not_carries hoff)).trans hq⟩
  rw [h.onBed slot hon, hq]
  rfl

/-- Settles O34: a row whose event is not due rests; a due one counts the minute and makes the expiry's edit. -/
theorem expiriesFollowTheGapCount : Obligations.ExpiriesFollowTheGapCount := by
  intro b s ho
  have hb : b.val < 12 := b.isLt
  have hcounted : Plant.Edits b _ s.plant (intakeCounted s.plant b) := .updIntake hb s.plant _
  refine ⟨fun hrest => ?_, fun hst hlo hhi => ?_, fun hrest => ?_, fun hst hcount => ?_⟩
  · refine congrArg Host.Outcome.next (State.timerRow_rests fun hdue => ?_)
    obtain ⟨hst, hlo, hhi⟩ := (gapDue_iff ho).1 hdue
    rcases hrest with hne | hbelow | habove
    · exact hne hst
    · exact Nat.not_lt.mpr hlo hbelow
    · exact Nat.not_le.mpr hhi habove
  · have hedits := hcounted.trans (gapExpiry_edits hb _)
    rw [← intakeTick_gap hst hlo hhi] at hedits
    have hbed : (intakeTick s.plant b).bed b = { s.plant.bed b with
        flags := { (s.plant.bed b).flags with
          gap := (s.plant.bed b).flags.gap || decide ((s.plant.bed b).state ≠ .vacant) } } := hedits.bed
    refine ⟨_, congrArg Host.Outcome.next (State.timerRow_fires ((gapDue_iff ho).2 ⟨hst, hlo, hhi⟩)), hedits.intake,
      fun hv => ?_, fun hv => ?_, fun i hi => ?_, ?_⟩
    · rw [hbed, decide_eq_false (not_not.mpr hv), Bool.or_false]
    · rw [hbed, decide_eq_true hv, Bool.or_true]
    · obtain ⟨hbed, -, -, hintake⟩ := hedits.others i (Fin.val_ne_of_ne hi)
      exact ⟨hbed, hintake⟩
    · rw [intakeTick_gap hst hlo hhi]
      exact congrArg (fun p : Plant => { p with intake := s.plant.intake }) (gapExpiry_rest (intakeCounted s.plant b) b)
  · refine congrArg Host.Outcome.next (State.timerRow_rests fun hdue => ?_)
    obtain ⟨hst, hcount⟩ := (lostDue_iff ho).1 hdue
    exact hrest.elim hst (Nat.not_lt.mpr hcount)
  · refine ⟨_, congrArg Host.Outcome.next (State.timerRow_fires ((lostDue_iff ho).2 ⟨hst, hcount⟩)), ?_⟩
    rw [intakeTick_lost hst hcount]
    by_cases hv : (s.plant.bed b).state = .vacant
    · rw [lostExpiry_vacant (s := intakeCounted s.plant b) hv]
      have hedits := hcounted.trans (.updIntake hb _ fun r => { r with state := .lost })
      refine ⟨hedits.intake, fun _ => ⟨rfl, rfl, rfl, rfl⟩, fun h => absurd hv h, fun i hi => ?_, rfl, rfl, rfl, rfl⟩
      obtain ⟨hbed, hheat, hline, hintake⟩ := hedits.others i (Fin.val_ne_of_ne hi)
      exact ⟨hbed, hintake, hheat, hline⟩
    · have hedits := hcounted.trans (lostExpiry_edits (wasOk := decide ((s.plant.intakeOf b).state = .ok)) hb ho hv)
      refine ⟨hedits.intake, fun h => absurd h hv, fun _ => ⟨hedits.bed, hedits.heat, hedits.line, hedits.pieces⟩,
        fun i hi => ?_, hedits.yard, hedits.works, hedits.classes, hedits.markMap⟩
      obtain ⟨hbed, hheat, hline, hintake⟩ := hedits.others i (Fin.val_ne_of_ne hi)
      exact ⟨hbed, hintake, hheat, hline⟩

/-! ## An accepted SAMPLE (R67 to R77) -/

/-- R71: the bed states in which a sample earns its credit. -/
theorem BedState.credited_iff (st : BedState) :
    st.credited = true ↔ st = .cast ∨ st = .curing ∨ st = .released ∨ st = .stripping := by
  cases st <;> simp [BedState.credited]

/-- R68, R69: what an OPEN works accepts. -/
theorem sampleAccepted_iff {s : Plant} {b seq status : Nat} {t : Int} (ho : s.isClosed = false) :
    sampleAccepted s b seq t status = true
      ↔ -80 ≤ t ∧ t ≤ 190 ∧ status ≤ 1 ∧ (s.intakeOf b).lastSeq ≠ some seq := by
  simp [sampleAccepted, ho, and_assoc]

/-- R70: the edits of an accepted sample before its order is sent. -/
def sampleEdit (s : Plant) (b seq : Nat) (t : Int) (status : Nat) (hot earns : Bool) : BedEdit where
  bed r :=
    { r with
      maturity := if earns then s.credited b t else r.maturity
      flags :=
        { r.flags with
          overTemp := r.flags.overTemp || hot
          unitFault := r.flags.unitFault || decide (status = 1) } }
  heat h := if hot = true ∨ status = 1 then h.turnOff else h
  intake r := { r.sampled seq t s.works.clock with unitFault := decide (status = 1) }
  piece p :=
    { p with
      maturity := if earns then max p.maturity (s.credited b t) else p.maturity
      holds := { p.holds with cure := p.holds.cure || hot } }

/-- R75, R77: a heat forced OFF by both causes is forced OFF once. -/
theorem turnOff_causes (hot fault : Prop) [Decidable hot] [Decidable fault] (h : HeatRecord) :
    (if fault then (if hot then h.turnOff else h).turnOff else if hot then h.turnOff else h)
      = if hot ∨ fault then h.turnOff else h := by
  by_cases hhot : hot
  · simp only [hhot, if_true, true_or]
    exact ite_self _
  · simp only [hhot, if_false, false_or]

/-- R70: the accepted sample before its order is sent. -/
def sampled (s : Plant) (b seq : Nat) (t : Int) (status : Nat) : Plant :=
  unitStatus (overTemperature (creditBed (s.updIntake b (IntakeRecord.sampled seq t s.works.clock)) b t) b t) b status

section
variable {s : Plant} {b seq status : Nat} {t : Int}

/-- R70: the accepted sample with its order sent. -/
theorem takeSample_accepted (h : sampleAccepted s b seq t status = true) :
    takeSample s b seq t status = sendOrder (sampled s b seq t status) b := if_pos h

/-- R68, R69: a dropped message. -/
theorem takeSample_dropped (h : ¬sampleAccepted s b seq t status = true) : takeSample s b seq t status = s := if_neg h

variable {hot earns : Bool} (hb : b < 12) (hhot : hot = true ↔ (s.works.settings.maxTemp : Int) < t)
  (hearns : earns = (s.bed b).state.credited)
include hb hhot hearns

theorem sampled_edits (seq status : Nat) :
    Plant.Edits b (sampleEdit s b seq t status hot earns) s (sampled s b seq t status) := by
  have htaken := Plant.Edits.updIntake hb s (IntakeRecord.sampled seq t s.works.clock)
  have hcredited := htaken.trans (creditBed_edits hb _ t hearns)
  rw [← hcredited.works] at hhot
  have htested := (hcredited.trans (overTemperature_edits hb _ hhot)).trans (unitStatus_edits hb _ status)
  exact { htested with heat := htested.heat.trans (turnOff_causes _ _ _) }

/-- R70: an accepted sample makes the edits of its effects, and the order that the bed then forms is sent. -/
theorem takeSample_edits {h : HeatRecord} (ho : s.isClosed = false) (haccepted : sampleAccepted s b seq t status = true)
    (hh : h = (sampleEdit s b seq t status hot earns).heat (s.heat b)) : Plant.Edits b
      ((sampleEdit s b seq t status hot earns).followedBy
        { heat := fun h' => { h' with lastOrder := formOrder (s.bed b) h }
          line := fun l => l.put (formOrder (s.bed b) h) }) s (takeSample s b seq t status) := by
  have hedits := sampled_edits hb hhot hearns seq status
  have hopen : (sampled s b seq t status).isClosed = false :=
    (congrArg (fun w : Works => decide (w.phase = .closed)) hedits.works).trans ho
  have horder : formOrder ((sampled s b seq t status).bed b) ((sampled s b seq t status).heat b)
      = formOrder (s.bed b) h := by
    rw [hedits.bed, hedits.heat, hh]
    exact formOrder_heating rfl _
  rw [takeSample_accepted haccepted, ← horder]
  exact hedits.trans (sendOrder_edits hb _ hopen)

end

/-- Settles O35: a dropped message does nothing; an accepted one makes the edits of its effects and sends the order of the bed. -/
theorem samplesCreditMaturity : Obligations.SamplesCreditMaturity := by
  intro b q t status s ho
  have hb : b.val < 12 := b.isLt
  refine ⟨fun hbad => ?_, fun hlo hhi hstatus hseq hot earns h hhot hearns hh => ?_⟩
  · exact congrArg (fun p => Host.Outcome.next { s with plant := p })
      (takeSample_dropped (mt (sampleAccepted_iff ho).1 hbad))
  · have haccepted := (sampleAccepted_iff ho).2 ⟨hlo, hhi, hstatus, hseq⟩
    have hcredited : earns = (s.plant.bed b).state.credited :=
      Bool.eq_iff_iff.2 (hearns.trans (BedState.credited_iff _).symm)
    have hedits := takeSample_edits hb hhot hcredited ho haccepted hh
    have hheat : (takeSample s.plant b q t status).heat b = { h with lastOrder := formOrder (s.plant.bed b) h } := by
      rw [hedits.heat, hh]
      rfl
    refine ⟨_, rfl, hedits.intake, hedits.bed, hheat, hedits.line, fun slot r hr => ?_,
      fun i hi => hedits.others i (Fin.val_ne_of_ne hi), hedits.yard, hedits.works, hedits.classes, hedits.markMap⟩
    have hpieces := hedits.pieces slot r hr
    cases earns with
    | true =>
      have hmaturity : ((takeSample s.plant b q t status).bed b).maturity = s.plant.credited b t := by
        rw [hedits.bed]
        rfl
      rw [hmaturity]
      exact hpieces
    | false => exact hpieces

end Sys2Proof.Machine
end

