-- ==== Sys2Proof/Proofs/StockMap.lean ====
section
/-! PROOF. The Stock Map: the demand level of a lane (R101), the placement test (R89), and the commands that write a stack, a
lane or a truck bay (R95, R96, R103, R104, R107). -/

namespace Sys2Proof.Machine

/-! ## The demand level (R101) -/

/-- R101: the level after its three steps, each step given by its conditions. -/
theorem demandLevel_of_steps {t1 t2 t3 n level l1 a b l2 : Nat} (drain : Bool) (h3 : n ≥ t3 → l1 = 3)
    (h2 : n < t3 → n ≥ t2 → level < 2 → l1 = 2)
    (h1 : n < t3 → ¬(n ≥ t2 ∧ level < 2) → n ≥ t1 → level < 1 → l1 = 1)
    (h0 : n < t3 → ¬(n ≥ t2 ∧ level < 2) → ¬(n ≥ t1 ∧ level < 1) → l1 = level)
    (ha : l1 = 3 ∧ n < t2 → a = 2) (ha' : ¬(l1 = 3 ∧ n < t2) → a = l1)
    (hb : a = 2 ∧ n < t1 → b = 1) (hb' : ¬(a = 2 ∧ n < t1) → b = a)
    (hl : b = 1 ∧ n = 0 → l2 = 0) (hl' : ¬(b = 1 ∧ n = 0) → l2 = b) :
    demandLevel t1 t2 t3 drain n level = if drain = true ∧ n ≥ 1 ∧ l2 = 0 then 1 else l2 := by
  have hrise : l1 = if n ≥ t3 then 3 else if n ≥ t2 ∧ level < 2 then 2 else if n ≥ t1 ∧ level < 1 then 1 else level := by
    split_ifs with c3 c2 c1
    · exact h3 c3
    · exact h2 (Nat.lt_of_not_ge c3) c2.1 c2.2
    · exact h1 (Nat.lt_of_not_ge c3) c2 c1.1 c1.2
    · exact h0 (Nat.lt_of_not_ge c3) c2 c1
  have hfall2 : a = if l1 = 3 ∧ n < t2 then 2 else l1 := by
    split_ifs with c
    · exact ha c
    · exact ha' c
  have hfall1 : b = if a = 2 ∧ n < t1 then 1 else a := by
    split_ifs with c
    · exact hb c
    · exact hb' c
  have hfall0 : l2 = if b = 1 ∧ n = 0 then 0 else b := by
    split_ifs with c
    · exact hl c
    · exact hl' c
  rw [hrise] at hfall2
  rw [hfall2] at hfall1
  rw [hfall1] at hfall0
  rw [hfall0]
  rfl

/-- Settles O37: the three steps of R101, and from them the hysteresis of thresholds in order. -/
theorem demandLevelRisesAndFalls : Obligations.DemandLevelRisesAndFalls := by
  refine ⟨fun t1 t2 t3 drain n level l1 a b l2 h3 h2 h1 h0 ha ha' hb hb' hl hl' => ?_,
    fun t1 t2 t3 drain n h1 h12 h23 => ⟨fun _ => ?_, fun _ _ => ?_, fun _ _ => ?_, fun level _ => ?_, fun _ => ?_⟩,
    fun st l => rfl⟩
  · rw [demandLevel_of_steps drain h3 h2 h1 h0 ha ha' hb hb' hl hl']
    exact ⟨fun hd hn h => if_pos ⟨hd, hn, h⟩, fun h => if_neg h⟩
  · refine (demandLevel_of_steps (l1 := 3) (a := 3) (b := 3) (l2 := 3) drain ?_ ?_ ?_ ?_ ?_ ?_ ?_ ?_ ?_ ?_).trans
      (if_neg (by omega)) <;> (intros; omega)
  · refine (demandLevel_of_steps (l1 := 2) (a := 2) (b := 2) (l2 := 2) drain ?_ ?_ ?_ ?_ ?_ ?_ ?_ ?_ ?_ ?_).trans
      (if_neg (by omega)) <;> (intros; omega)
  · refine (demandLevel_of_steps (l1 := 1) (a := 1) (b := 1) (l2 := 1) drain ?_ ?_ ?_ ?_ ?_ ?_ ?_ ?_ ?_ ?_).trans
      (if_neg (by omega)) <;> (intros; omega)
  · refine (demandLevel_of_steps (l1 := level) (a := min level 2) (b := min level 1) (l2 := 0) false
      ?_ ?_ ?_ ?_ ?_ ?_ ?_ ?_ ?_ ?_).trans
      (if_neg (by simp)) <;> (intros; omega)
  · refine (demandLevel_of_steps (l1 := 0) (a := 0) (b := 0) (l2 := 0) false ?_ ?_ ?_ ?_ ?_ ?_ ?_ ?_ ?_ ?_).trans
      (if_neg (by simp)) <;> (intros; omega)

/-! ## The placement test (R89) -/

/-- R89, conditions 3 to 6: a piece fits against a projection. -/
theorem fit_iff {e : Site} {y : Yard} {st : StackRecord} {proj : List Handle} {p : Handle} :
    fit e y st proj p = true ↔ proj.length < st.tiers ∧ proj.length + 1 ≤ (classOf e y p).tier
      ∧ (∀ top, proj.getLast? = some top → (classOf e y p).length ≤ (classOf e y top).length)
      ∧ (proj.map (fun h => (classOf e y h).weight)).sum + (classOf e y p).weight ≤ st.limit := by
  unfold fit fitClass weightOf
  simp only [Bool.and_eq_true, decide_eq_true_eq, and_assoc]
  refine and_congr_right fun _ => and_congr_right fun _ => and_congr_left fun _ => ?_
  cases proj.getLast? <;> simp

/-- Settles O38: STATE, FULL and PLACEMENT in their order, PLACEMENT exactly where one of the four conditions of a fit fails. -/
theorem placementTestTakesItsConditionsInOrder : Obligations.PlacementTestTakesItsConditionsInOrder := by
  intro e y i p
  unfold placement placementClass
  dsimp only
  refine ⟨fun h => if_pos h, fun ho hd => ?_⟩
  have hstate : ¬((y.stack i).state ≠ .opened ∨ (y.stack i).digLock = true) := by simp [ho, hd]
  rw [if_neg hstate]
  refine ⟨fun hfull => if_pos hfull, fun hroom => ?_⟩
  rw [if_neg (Nat.not_le.mpr hroom), show fitClass e y (y.stack i) (projection y i) (classOf e y p)
    = fit e y (y.stack i) (projection y i) p from rfl]
  refine ⟨fun hbad => if_neg fun hfit => ?_, fun h1 h2 h3 h4 => if_pos (fit_iff.2 ⟨h1, h2, h3, h4⟩)⟩
  obtain ⟨h1, h2, h3, h4⟩ := fit_iff.1 hfit
  rcases hbad with h | h | ⟨top, htop, h⟩ | h
  · omega
  · omega
  · exact absurd (h3 top htop) (Nat.not_le.mpr h)
  · omega

/-! ## The commands that write a stack (R95, R96) -/

section
variable {hd : Header} {s : State} {i : Nat}

/-- The yard with one stack record changed: that record, and nothing else. -/
theorem Yard.updStack_frame (y : Yard) (f : StackRecord → StackRecord) (hi : i < 40) :
    (y.updStack i f).stack i = f (y.stack i) ∧ (∀ j, j ≠ i → (y.updStack i f).stack j = y.stack j)
      ∧ { y.updStack i f with stackRecs := y.stackRecs } = y :=
  ⟨Yard.stack_updStack_same _ _ _ hi, fun _ hj => Yard.stack_updStack_ne _ _ _ _ (Ne.symm hj), rfl⟩

/-- The yard with one lane record changed: that record, and nothing else. -/
theorem Yard.updLane_frame (y : Yard) (f : LaneRecord → LaneRecord) (hi : i < 2) :
    (y.updLane i f).lane i = f (y.lane i) ∧ (∀ j, j ≠ i → (y.updLane i f).lane j = y.lane j)
      ∧ { y.updLane i f with lanes := y.lanes } = y :=
  ⟨Yard.lane_updLane_same _ _ _ hi, fun _ hj => Yard.lane_updLane_ne _ _ _ _ (Ne.symm hj), rfl⟩

/-- The yard with one truck bay record changed: that record, and nothing else. -/
theorem Yard.updTruck_frame (y : Yard) (f : TruckRecord → TruckRecord) (hi : i < 4) :
    (y.updTruck i f).truck i = f (y.truck i) ∧ (∀ j, j ≠ i → (y.updTruck i f).truck j = y.truck j)
      ∧ { y.updTruck i f with trucks := y.trucks } = y :=
  ⟨Yard.truck_updTruck_same _ _ _ hi, fun _ hj => Yard.truck_updTruck_ne _ _ _ _ (Ne.symm hj), rfl⟩

theorem isFlag_iff {n : Nat} : isFlag n = true ↔ n < 2 := by
  unfold isFlag
  rw [decide_eq_true_eq]
  omega

/-- R95: the range check of DEFINE STACK. -/
theorem xDefineStack_range {ch bay tiers load : Nat} {p : Plant}
    (h : ¬(i < 40 ∧ (ch = 1 → bay < 64 ∧ 1 ≤ tiers ∧ tiers ≤ 8 ∧ 1 ≤ load ∧ load ≤ 4000))) :
    xDefineStack i ch bay tiers load p = refuse .range p := by
  unfold xDefineStack
  split_ifs <;> first | rfl | exact absurd ⟨by omega, by omega⟩ h

/-- R95: DEFINE STACK past its range check. -/
theorem xDefineStack_inRange {ch bay tiers load : Nat} {p : Plant} (hi : i < 40) (hch : ch ≤ 1)
    (h : ch = 1 → bay < 64 ∧ 1 ≤ tiers ∧ tiers ≤ 8 ∧ 1 ≤ load ∧ load ≤ 4000) :
    xDefineStack i ch bay tiers load p
      = if (p.yard.stack i).pieces ≠ [] ∨ (p.yard.stack i).claims ≠ [] then refuse .inUse p
        else accept [] (p.settle { p with yard := p.yard.updStack i (StackRecord.define ch bay tiers load) }) := by
  unfold xDefineStack
  rw [if_neg (Nat.not_le.mpr hi), if_neg (by simp [isFlag, hch]), if_neg fun hbad => hbad.2 (h hbad.1)]
  rfl

/-- R96: CLOSE STACK and OPEN STACK in OPEN. -/
theorem setStackState_open {st : StackState} {p : Plant} (ho : p.isClosed = false) :
    setStackState st i p = if 40 ≤ i then refuse .range p
      else if (p.yard.stack i).state = .undefined then refuse .state p
      else accept [] (p.settle { p with yard := p.yard.updStack i (fun r => { r with state := st }) }) := by
  unfold setStackState
  rw [if_neg (by simp [ho])]
  rfl

/-! ## The commands that write a lane (R103, R104) -/

theorem xDefineLane_range {ch bay : Nat} {p : Plant} (h : ¬(i < 2 ∧ (ch = 1 → bay < 64))) :
    xDefineLane i ch bay p = refuse .range p := by
  unfold xDefineLane
  split_ifs <;> first | rfl | exact absurd ⟨by omega, by omega⟩ h

theorem xDefineLane_inRange {ch bay : Nat} {p : Plant} (hi : i < 2) (hch : ch ≤ 1) (h : ch = 1 → bay < 64) :
    xDefineLane i ch bay p = if (p.yard.lane i).pieces ≠ [] ∨ 0 < (p.yard.lane i).reservations then refuse .inUse p
      else accept [] (p.settle { p with yard := p.yard.updLane i (LaneRecord.define ch bay) }) := by
  unfold xDefineLane
  rw [if_neg (Nat.not_le.mpr hi), if_neg (by simp [isFlag, hch]), if_neg fun hbad => Nat.not_le.mpr (h hbad.1) hbad.2]
  rfl

/-- R103: DRAIN LANE in OPEN. -/
theorem xDrainLane_open {v : Nat} {p : Plant} (ho : p.isClosed = false) :
    xDrainLane i v p = if 2 ≤ i ∨ 2 ≤ v then refuse .range p
      else if (p.yard.lane i).defined = false then refuse .state p
      else accept [] (p.settle { p with
        yard := p.yard.updLane i (fun l => { l with drain := decide (v = 1) }.recompute p.works.settings) }) := by
  have hflag : isFlag v = decide (v < 2) := Bool.eq_iff_iff.2 (isFlag_iff.trans (decide_eq_true_iff).symm)
  unfold xDrainLane
  rw [if_neg (by simp [ho]), hflag]
  by_cases hi : 2 ≤ i
  · simp [hi]
  · by_cases hv : 2 ≤ v
    · simp [hv, Nat.not_lt.mpr hv]
    · simp [hi, hv, Nat.not_le.mp hv]
      rfl

/-- Settles O39: each command is its checks in order, then the change of its one record with the follow-up work. -/
theorem stockCommandsWriteTheirRecords : Obligations.StockCommandsWriteTheirRecords := by
  intro hd i ch bay tiers load v s hs hch
  have stack : ∀ r, xDefineStack i ch bay tiers load s.plant = r →
      runCommand (.defineStack i ch bay tiers load) s.plant = r := fun _ => id
  have lane : ∀ r, xDefineLane i ch bay s.plant = r → runCommand (.defineLane i ch bay) s.plant = r := fun _ => id
  have close : ∀ r, setStackState .closed i s.plant = r → runCommand (.closeStack i) s.plant = r := fun _ => id
  have open' : ∀ r, setStackState .opened i s.plant = r → runCommand (.openStack i) s.plant = r := fun _ => id
  have drain : ∀ r, xDrainLane i v s.plant = r → runCommand (.drainLane i v) s.plant = r := fun _ => id
  refine ⟨fun hbad => exec_refused rfl hs (by simp) (stack _ (xDefineStack_range hbad)), fun hi hok => ?_,
    fun hbad => exec_refused rfl hs (by simp) (lane _ (xDefineLane_range hbad)), fun hi hok => ?_, fun ho => ?_⟩
  · have hx := xDefineStack_inRange (p := s.plant) hi hch hok
    refine ⟨fun huse => exec_refused rfl hs (by simp) (stack _ (hx.trans (if_pos huse))), fun hp hc => ?_⟩
    obtain ⟨hsame, hother, hrest⟩ := s.plant.yard.updStack_frame (StackRecord.define ch bay tiers load) hi
    refine ⟨_, exec_accepted rfl hs (by simp) (stack _ (hx.trans (if_neg (by simp [hp, hc])))), ?_, ?_, hother, hrest⟩
    all_goals
      rintro rfl
      exact hsame
  · have hx := xDefineLane_inRange (p := s.plant) hi hch hok
    refine ⟨fun huse => exec_refused rfl hs (by simp) (lane _ (hx.trans (if_pos huse))), fun hp hr => ?_⟩
    obtain ⟨hsame, hother, hrest⟩ := s.plant.yard.updLane_frame (LaneRecord.define ch bay) hi
    refine ⟨_, exec_accepted rfl hs (by simp) (lane _ (hx.trans (if_neg (by simp [hp, hr])))), ?_, hother, hrest⟩
    rw [hsame]
    unfold LaneRecord.define
    rw [hp, hr]
  · have hc := setStackState_open (i := i) (st := .closed) ho
    have hopen := setStackState_open (i := i) (st := .opened) ho
    have hdrain := xDrainLane_open (i := i) (v := v) ho
    refine ⟨fun hi => ?_, fun hi hu => ?_, fun hi hu => ?_, fun hbad => ?_, fun hi hv hu => ?_, fun hi hv hdef => ?_⟩
    · rw [if_pos hi] at hc hopen
      exact ⟨exec_refused rfl hs (by simp) (close _ hc), exec_refused rfl hs (by simp) (open' _ hopen)⟩
    · rw [if_neg (Nat.not_le.mpr hi), if_pos hu] at hc hopen
      exact ⟨exec_refused rfl hs (by simp) (close _ hc), exec_refused rfl hs (by simp) (open' _ hopen)⟩
    · rw [if_neg (Nat.not_le.mpr hi), if_neg hu] at hc hopen
      exact ⟨⟨_, exec_accepted rfl hs (by simp) (close _ hc), s.plant.yard.updStack_frame _ hi⟩,
        ⟨_, exec_accepted rfl hs (by simp) (open' _ hopen), s.plant.yard.updStack_frame _ hi⟩⟩
    · exact exec_refused rfl hs (by simp) (drain _ (hdrain.trans (if_pos hbad)))
    · rw [if_neg (by omega), if_pos hu] at hdrain
      exact exec_refused rfl hs (by simp) (drain _ hdrain)
    · rw [if_neg (by omega), if_neg (by simp [hdef])] at hdrain
      exact ⟨_, exec_accepted rfl hs (by simp) (drain _ hdrain), s.plant.yard.updLane_frame _ hi⟩

/-! ## DEFINE TRUCK BAY (R107) -/

/-- Settles O40: the checks of R107 in order, and the two fields written. -/
theorem defineTruckBayWritesTheRecord : Obligations.DefineTruckBayWritesTheRecord := by
  intro hd k ch bay s hs hch
  have run : ∀ r, xDefineTruckBay k ch bay s.plant = r → runCommand (.defineTruckBay k ch bay) s.plant = r := fun _ => id
  refine ⟨fun hbad => exec_refused rfl hs (by simp) (run _ ?_), fun hk hok => ?_⟩
  · unfold xDefineTruckBay
    split_ifs <;> first | rfl | exact absurd ⟨by omega, by omega⟩ hbad
  · have hx : xDefineTruckBay k ch bay s.plant = if (s.plant.yard.truck k).state ≠ .free then refuse .inUse s.plant
        else accept [] { s.plant with yard := s.plant.yard.updTruck k (fun t =>
          { t with defined := decide (ch = 1), bay := if ch = 1 then bay else 0 }) } := by
      unfold xDefineTruckBay
      rw [if_neg (Nat.not_le.mpr hk), if_neg (by simp [isFlag, hch]), if_neg fun hbad => Nat.not_le.mpr (hok hbad.1) hbad.2]
      rfl
    exact ⟨fun hnot => exec_refused rfl hs (by simp) (run _ (hx.trans (if_pos hnot))), fun hfree =>
      ⟨_, exec_accepted rfl hs (by simp) (run _ (hx.trans (if_neg (by simp [hfree])))), s.plant.yard.updTruck_frame _ hk⟩⟩

end

end Sys2Proof.Machine
end

