-- ==== Sys2Proof/Proofs/Extending.lean ====
section
/-! PROOF. The follow-up work of a change and the arbiter only add: tickets at the back of the move queue, destinations to tickets
that have none, a ticket to a piece that has none, a bound ticket to a crane that has none (R115, R126, R143 to R147, R180). -/

namespace Sys2Proof.Machine

/-! ## What is kept of a ticket and of a yard -/

/-- A ticket keeps its fixed fields, a destination it has, and whether it is active; a finished one is as it was. Where `q` says
so it keeps its level. -/
structure Ticket.Extends (q : Bool) (t t' : Ticket) : Prop where
  fixed  : t'.fixed = t.fixed
  dest   : t.dest.isSome = true → t'.dest = t.dest
  done   : t.state.isActive = false → t' = t
  active : t'.state.isActive = t.state.isActive
  level  : q = true → t'.level = t.level

section
variable {q : Bool}

theorem Ticket.Extends.refl (t : Ticket) : t.Extends q t := ⟨rfl, fun _ => rfl, fun _ => rfl, rfl, fun _ => rfl⟩

theorem Ticket.Extends.trans {t t' t'' : Ticket} (h : t.Extends q t') (k : t'.Extends q t'') : t.Extends q t'' where
  fixed := k.fixed.trans h.fixed
  dest hd := (k.dest (by rwa [h.dest hd])).trans (h.dest hd)
  done ha := by rw [k.done (by rwa [h.active]), h.done ha]
  active := k.active.trans h.active
  level hq := (k.level hq).trans (h.level hq)

/-- An active ticket changed in what is not fixed, its destination kept where it has one. -/
theorem Ticket.Extends.of_active {t t' : Ticket} (ha : t.state.isActive = true) (ha' : t'.state.isActive = true)
    (hf : t'.fixed = t.fixed) (hd : t.dest.isSome = true → t'.dest = t.dest) (hl : q = true → t'.level = t.level) :
    t.Extends q t' :=
  ⟨hf, hd, fun h => (by rw [ha] at h; cases h), ha'.trans ha.symm, hl⟩

/-- From the yard `y` to `y'` the move queue has grown at its back by the slots of the tickets made, each with a destination and
active; every ticket extends the one it was, with its level where `q` says so; a piece named by a ticket and a bound
ticket stand as they were. -/
structure Yard.Extends (q : Bool) (y y' : Yard) : Prop where
  queue   : ∃ more, y'.moveQueue = y.moveQueue ++ more ∧ more.Nodup
    ∧ ∀ j, j ∈ more ↔ y.ticketAt j = none ∧ (y'.ticketAt j).isSome = true
  tickets : ∀ j t, y.ticketAt j = some t → ∃ t', y'.ticketAt j = some t' ∧ t.Extends q t'
  made    : ∀ j t', y.ticketAt j = none → y'.ticketAt j = some t' → t'.dest.isSome = true ∧ t'.state.isActive = true
  pieces  : ∀ j p, y.pieceAt j = some p → p.ticket.isSome = true → y'.pieceAt j = some p
  bound   : ∀ k h, (y.arb k).bound = some h → (y'.arb k).bound = some h

namespace Yard.Extends
variable {y y' y'' : Yard}

/-- A change that writes no ticket, queue, piece or bound ticket. -/
theorem of_same (hq : y'.moveQueue = y.moveQueue) (ht : ∀ j, y'.ticketAt j = y.ticketAt j)
    (hp : y'.pieces = y.pieces) (hb : ∀ k, (y'.arb k).bound = (y.arb k).bound) : Yard.Extends q y y' where
  queue := ⟨[], by rw [hq, List.append_nil], List.nodup_nil, fun j => by
    rw [ht]
    refine ⟨fun h => (by cases h), fun ⟨h, hs⟩ => ?_⟩
    rw [h] at hs
    cases hs⟩
  tickets j t h := ⟨t, (ht j).trans h, .refl t⟩
  made j t' hn hs := by
    rw [ht, hn] at hs
    cases hs
  pieces j p h _ := (congrArg (fun v => (getOr v j ⟨0, none⟩).piece) hp).trans h
  bound k h hk := (hb k).trans hk

theorem refl (y : Yard) : Yard.Extends q y y := of_same rfl (fun _ => rfl) rfl fun _ => rfl

theorem isSome (h : Yard.Extends q y y') {j : Nat} (hs : (y.ticketAt j).isSome = true) : (y'.ticketAt j).isSome = true := by
  obtain ⟨t, ht⟩ := Option.isSome_iff_exists.1 hs
  obtain ⟨t', ht', -⟩ := h.tickets j t ht
  rw [ht']
  rfl

theorem trans (h : Yard.Extends q y y') (k : Yard.Extends q y' y'') : Yard.Extends q y y'' where
  queue := by
    obtain ⟨m, hm, hmn, hmj⟩ := h.queue
    obtain ⟨n, hn, hnn, hnj⟩ := k.queue
    refine ⟨m ++ n, by rw [hn, hm, List.append_assoc], List.nodup_append'.2 ⟨hmn, hnn, fun j hjm hjn => ?_⟩, fun j => ?_⟩
    · have := (hmj j).1 hjm
      rw [((hnj j).1 hjn).1] at this
      cases this.2
    · rw [List.mem_append, hmj, hnj]
      constructor
      · rintro (⟨h0, h1⟩ | ⟨h0, h1⟩)
        · exact ⟨h0, k.isSome h1⟩
        · refine ⟨Option.eq_none_iff_forall_not_mem.2 fun t ht => ?_, h1⟩
          obtain ⟨t', ht', -⟩ := h.tickets j t ht
          rw [ht'] at h0
          cases h0
      · rintro ⟨h0, h1⟩
        cases hj : y'.ticketAt j with
        | none => exact .inr ⟨rfl, h1⟩
        | some t => exact .inl ⟨h0, rfl⟩
  tickets j t ht := by
    obtain ⟨t', ht', hx⟩ := h.tickets j t ht
    obtain ⟨t'', ht'', hx'⟩ := k.tickets j t' ht'
    exact ⟨t'', ht'', hx.trans hx'⟩
  made j t'' hn hs := by
    cases hj : y'.ticketAt j with
    | none => exact k.made j t'' hj hs
    | some t' =>
      obtain ⟨hd, ha⟩ := h.made j t' hn hj
      obtain ⟨u, hu, hx⟩ := k.tickets j t' hj
      obtain rfl := Option.some.inj (hs.symm.trans hu)
      exact ⟨by rwa [hx.dest hd], hx.active.trans ha⟩
  pieces j p hp ht := k.pieces j p (h.pieces j p hp ht) ht
  bound n g hg := k.bound n g (h.bound n g hg)

theorem forEach {α : Type} (f : Yard → α → Yard) (h : ∀ y a, Yard.Extends q y (f y a)) (xs : List α) (y : Yard) :
    Yard.Extends q y (Machine.forEach xs f y) := by
  unfold Machine.forEach
  induction xs generalizing y with
  | nil => exact refl y
  | cons x xs ih => exact (h y x).trans (ih (f y x))

/-- A change that keeps the levels is one that may write them. -/
theorem weaken (h : Yard.Extends q y y') : Yard.Extends false y y' where
  queue := h.queue
  tickets j t ht := by
    obtain ⟨t', ht', hx⟩ := h.tickets j t ht
    exact ⟨t', ht', hx.fixed, hx.dest, hx.done, hx.active, fun hq => (by cases hq)⟩
  made := h.made
  pieces := h.pieces
  bound := h.bound

/-- R115: the queue lists each slot in use once, as before. -/
theorem listed (h : Yard.Extends q y y') (hn : y.moveQueue.Nodup)
    (hu : ∀ slot, slot ∈ y.moveQueue ↔ (y.ticketAt slot).isSome = true) :
    y'.moveQueue.Nodup ∧ ∀ slot, slot ∈ y'.moveQueue ↔ (y'.ticketAt slot).isSome = true := by
  obtain ⟨m, hm, hmn, hmj⟩ := h.queue
  rw [hm]
  refine ⟨List.nodup_append'.2 ⟨hn, hmn, fun j hj hjm => ?_⟩, fun j => ?_⟩
  · rw [hu, ((hmj j).1 hjm).1] at hj
    cases hj
  · rw [List.mem_append, hu, hmj]
    refine ⟨fun hj => hj.elim h.isSome (·.2), fun hs => ?_⟩
    cases hj : y.ticketAt j with
    | none => exact .inr ⟨rfl, hs⟩
    | some t => exact .inl rfl

/-- What follows a change keeps, as the statement of the follow-up work words it. -/
theorem keeps (h : Yard.Extends q y y') : y.keeps y' := by
  obtain ⟨m, hm, -⟩ := h.queue
  refine ⟨⟨m, hm⟩, fun j t ht => ?_, h.pieces, h.bound⟩
  obtain ⟨t', ht', hx⟩ := h.tickets j t ht
  exact ⟨t', ht', hx.fixed, hx.dest, hx.done⟩

/-! ## The updates -/

theorem updStack (y : Yard) (s : Nat) (f : StackRecord → StackRecord) : Yard.Extends q y (y.updStack s f) :=
  of_same rfl (fun _ => rfl) rfl fun _ => rfl

theorem updTruck (y : Yard) (n : Nat) (f : TruckRecord → TruckRecord) : Yard.Extends q y (y.updTruck n f) :=
  of_same rfl (fun _ => rfl) rfl fun _ => rfl

theorem updLane (y : Yard) (l : Nat) (f : LaneRecord → LaneRecord) : Yard.Extends q y (y.updLane l f) :=
  of_same rfl (fun _ => rfl) rfl fun _ => rfl

theorem updCrane (y : Yard) (k : Nat) (f : CraneRecord → CraneRecord) : Yard.Extends q y (y.updCrane k f) :=
  of_same rfl (fun _ => rfl) rfl fun _ => rfl

theorem sendStage (e : Site) (y : Yard) (k : Nat) (kind : OrderKind) (arg : Nat) :
    Yard.Extends q y (sendStage e y k kind arg) := of_same rfl (fun _ => rfl) rfl fun _ => rfl

theorem setClaim (y : Yard) (k : Nat) (c : Option Interval) : Yard.Extends q y (y.setClaim k c) :=
  of_same rfl (fun _ => rfl) rfl fun j =>
    proj_getOr_upd ArbiterRecord.bound y.arbiter k (fun a => { a with claim := c }) ⟨none, none⟩ rfl j

/-- R138: a crane without a bound ticket takes one. -/
theorem bind (y : Yard) (k : Nat) (h : Handle) (hb : (y.arb k).bound = none) :
    Yard.Extends q y (y.updArb k (fun a => { a with bound := some h })) where
  queue := (refl (q := q) y).queue
  tickets := (refl (q := q) y).tickets
  made := (refl (q := q) y).made
  pieces := (refl (q := q) y).pieces
  bound j g hg := by
    have hne : k ≠ j := fun hkj => by
      subst hkj
      rw [hb] at hg
      cases hg
    rwa [Yard.arb_updArb_ne _ _ _ _ hne]

theorem updTicket (y : Yard) (i : Nat) (f : Ticket → Ticket) (hf : ∀ t, y.ticketAt i = some t → t.Extends q (f t)) :
    Yard.Extends q y (y.updTicket i f) where
  queue := ⟨[], (List.append_nil _).symm, List.nodup_nil, fun j => by
    rw [ticketAt_updTicket]
    refine ⟨fun h => (by cases h), fun ⟨h, hs⟩ => ?_⟩
    split at hs <;> simp [h] at hs⟩
  tickets j t ht := by
    rw [ticketAt_updTicket, ht]
    split
    · rename_i hij
      subst hij
      exact ⟨f t, rfl, hf t ht⟩
    · exact ⟨t, rfl, .refl t⟩
  made j t' hn hs := by
    rw [ticketAt_updTicket, hn] at hs
    split at hs <;> cases hs
  pieces := (refl (q := q) y).pieces
  bound := (refl (q := q) y).bound

/-- R114, R115: an active ticket with a destination placed in the lowest free slot. -/
theorem placeTicket (y : Yard) (n : Nat) (t : Ticket) (hfree : y.freeTicketSlot = some n) (hd : t.dest.isSome = true)
    (ha : t.state.isActive = true) : Yard.Extends q y (y.placeTicket n t) := by
  obtain ⟨hlt, hnone⟩ := Yard.freeTicketSlot_free hfree
  have hat := fun j => ticketAt_placeTicket y n j t hlt
  refine ⟨⟨[n], rfl, List.nodup_singleton n, fun j => ?_⟩, fun j u hu => ?_, fun j u hn hu => ?_, (refl (q := q) y).pieces,
    (refl (q := q) y).bound⟩
  · rw [hat, List.mem_singleton]
    by_cases hj : n = j
    · subst hj
      simp [hnone]
    · rw [if_neg hj]
      refine ⟨fun h => absurd h.symm hj, fun ⟨h, hs⟩ => ?_⟩
      rw [h] at hs
      cases hs
  · have hj : n ≠ j := fun h => by
      rw [← h, hnone] at hu
      cases hu
    exact ⟨u, by rw [hat, if_neg hj, hu], .refl u⟩
  · rw [hat] at hu
    split at hu
    · obtain rfl := Option.some.inj hu
      exact ⟨hd, ha⟩
    · rw [hn] at hu
      cases hu

/-- R11: a piece without a ticket takes one. -/
theorem setPieceTicket (y : Yard) (p : Handle) (h : Option Handle)
    (hp : ∀ r, y.pieceAt p.slot = some r → r.ticket = none) : Yard.Extends q y (setPieceTicket y p h) where
  queue := (refl (q := q) y).queue
  tickets := (refl (q := q) y).tickets
  made := (refl (q := q) y).made
  pieces j r hr ht := by
    have hne : p.slot ≠ j := fun hj => by
      rw [← hj] at hr
      rw [hp r hr] at ht
      cases ht
    exact (Yard.pieceAt_updPiece_ne _ _ _ _ hne).trans hr
  bound := (refl (q := q) y).bound

end Yard.Extends

/-! ## Claims, promotions, wait reasons, levels -/

theorem extends_promoteUpTo (n s : Nat) (y : Yard) : Yard.Extends q y (promoteUpTo n s y) := by
  induction n generalizing y with
  | zero => exact .refl y
  | succ n ih =>
    unfold promoteUpTo
    split
    · split
      · exact ((Yard.Extends.updStack y s _).trans (.updStack _ s _)).trans (ih _)
      · exact .refl y
    · exact .refl y

theorem extends_promoteAll (y : Yard) : Yard.Extends q y (promoteAll y) := by
  refine .forEach _ (fun y s => ?_) _ _
  split
  · exact extends_promoteUpTo 4 s y
  · exact .refl y

theorem extends_appendLift (y : Yard) (s : Nat) (h : Handle) : Yard.Extends q y (appendLift y s h) :=
  (Yard.Extends.updStack y s _).trans (extends_promoteUpTo 4 s _)

theorem extends_claimDest (y : Yard) (h : Handle) (d : Option Dest) : Yard.Extends q y (claimDest y h d) := by
  unfold claimDest
  split
  · exact .updStack y _ _
  · exact .updLane y _ _
  all_goals exact .refl y

/-- A PENDING or READY ticket is active. -/
theorem TicketState.active_of_waiting {st : TicketState} (h : st = .pending ∨ st = .ready) : st.isActive = true := by
  rcases h with rfl | rfl <;> rfl

theorem extends_refreshTicket (e : Site) (y : Yard) (slot : Nat) : Yard.Extends q y (refreshTicket e y slot) := by
  unfold refreshTicket
  split
  · rename_i t ht
    split
    · rename_i hw
      refine .updTicket y slot _ fun u hu => ?_
      obtain rfl := Option.some.inj (ht.symm.trans hu)
      refine .of_active (TicketState.active_of_waiting hw) ?_ rfl (fun _ => rfl) fun _ => rfl
      dsimp only
      split <;> rfl
    · exact .refl y
  · exact .refl y

theorem extends_refreshAll (e : Site) (y : Yard) : Yard.Extends q y (refreshAll e y) := .forEach _ (extends_refreshTicket e) _ _

theorem extends_refreshLevel (e : Site) (y : Yard) (slot : Nat) : Yard.Extends false y (refreshLevel e y slot) := by
  unfold refreshLevel
  split
  · rename_i t ht
    split
    · rename_i ha
      refine .updTicket y slot _ fun u hu => ?_
      obtain rfl := Option.some.inj (ht.symm.trans hu)
      exact .of_active ha ha rfl (fun _ => rfl) fun h => (by cases h)
    · exact .refl y
  · exact .refl y

theorem extends_refreshLevels (e : Site) (y : Yard) : Yard.Extends false y (refreshLevels e y) :=
  .forEach _ (extends_refreshLevel e) _ _

/-! ## Tickets made (R119, R125, R180) -/

theorem refreshLevel_ne (e : Site) (y : Yard) {n j : Nat} (h : n ≠ j) : (refreshLevel e y n).ticketAt j = y.ticketAt j := by
  unfold refreshLevel
  split
  · split
    · exact Yard.ticketAt_updTicket_ne _ _ _ _ h
    · rfl
  · rfl

/-- R123: the level of a ticket that has been made is written; every ticket that was there before keeps its level. -/
theorem Yard.Extends.level_made {y y' : Yard} (h : Yard.Extends q y y') (e : Site) {n : Nat} (hn : y.ticketAt n = none) :
    Yard.Extends q y (refreshLevel e y' n) := by
  have hk := extends_refreshLevel e y' n
  have hsame : ∀ j t, y.ticketAt j = some t → (refreshLevel e y' n).ticketAt j = y'.ticketAt j := fun j t ht =>
    refreshLevel_ne e y' fun hj => by
      rw [← hj, hn] at ht
      cases ht
  have hx := h.weaken.trans hk
  refine ⟨hx.queue, fun j t ht => ?_, hx.made, hx.pieces, hx.bound⟩
  rw [hsame j t ht]
  exact h.tickets j t ht

/-- R119: a ticket made for a piece that has none. -/
theorem extends_makeTicket (e : Site) (y : Yard) (n : Nat) (p : Handle) (t : Ticket) (hfree : y.freeTicketSlot = some n)
    (hd : t.dest.isSome = true) (ha : t.state.isActive = true) (hp : ∀ r, y.pieceAt p.slot = some r → r.ticket = none) :
    Yard.Extends q y (makeTicket e y n p t) := by
  unfold makeTicket
  dsimp only
  generalize (y.placeTicket n t).ticketHandle n = h
  have hclaimed : (claimDest (y.placeTicket n t) h t.dest).pieces = y.pieces := by
    unfold claimDest
    split <;> rfl
  have hset : Yard.Extends q y (setPieceTicket (claimDest (y.placeTicket n t) h t.dest) p (some h)) := by
    refine ((Yard.Extends.placeTicket y n t hfree hd ha).trans (extends_claimDest _ h t.dest)).trans (.setPieceTicket _ p _ ?_)
    intro r hr
    exact hp r ((congrArg (fun v => (getOr v p.slot ⟨0, none⟩).piece) hclaimed.symm).trans hr)
  refine Yard.Extends.trans (Yard.Extends.level_made ?_ e (Yard.freeTicketSlot_free hfree).2) (extends_refreshTicket e _ n)
  split
  · split
    · exact hset.trans (extends_appendLift _ _ _)
    · exact hset.trans (.updStack _ _ _)
  · exact hset

theorem extends_digWalk (e : Site) (slot s : Nat) (cs : List Handle) (y : Yard) :
    Yard.Extends q y (digWalk e slot s cs y) := by
  induction cs generalizing y with
  | nil => exact .refl y
  | cons c cs ih =>
    unfold digWalk
    split
    · rename_i p t hp _
      split
      · exact ih y
      · rename_i hticket
        split
        · exact .refl y
        · rename_i free hfree
          split
          · exact .refl y
          · split
            · exact .refl y
            · refine (extends_makeTicket e y free c _ hfree rfl rfl fun r hr => ?_).trans (ih _)
              obtain rfl := Option.some.inj (hp.symm.trans hr)
              simpa using hticket
    · exact .refl y

theorem extends_digRound (e : Site) (y : Yard) (slot : Nat) : Yard.Extends q y (digRound e y slot) := by
  unfold digRound
  split
  · split
    · exact extends_digWalk e _ _ _ y
    · exact .refl y
  · exact .refl y

theorem extends_makePick (e : Site) (y : Yard) (k slot : Nat) (p : Handle) (src : Location)
    (hfree : y.freeTicketSlot = some slot) (hp : ∀ r, y.pieceAt p.slot = some r → r.ticket = none) :
    Yard.Extends q y (makePick e y k slot p src) :=
  (extends_makeTicket e y slot p _ hfree rfl rfl hp).trans (.updTruck _ k _)

theorem extends_createPick (e : Site) (y : Yard) (k : Nat) : Yard.Extends q y (createPick e y k) := by
  unfold createPick
  dsimp only
  split
  · split
    · rename_i p _
      split
      · rename_i r slot hr hfree
        split
        · exact .refl y
        · rename_i hticket
          have pick : ∀ src, Yard.Extends q y (makePick e y k slot p src) := fun src =>
            extends_makePick e y k slot p src hfree fun r' hr' => by
              obtain rfl := Option.some.inj ((Yard.piece?_eq_some.1 hr).2.symm.trans hr')
              simpa using hticket
          split
          · split
            · exact .refl y
            · exact ((pick _).trans (extends_digRound e _ _)).trans (extends_refreshTicket e _ _)
          · exact pick _
          · exact pick _
          · exact .refl y
          · exact .refl y
      · exact .refl y
    · exact .refl y
  · exact .refl y

/-! ## Redirect searches (R111, R153, R185) -/

theorem extends_giveDest (y : Yard) (slot : Nat) (d : Dest)
    (h : ∀ t, y.ticketAt slot = some t → t.state.isActive = true ∧ t.dest = none) : Yard.Extends q y (giveDest y slot d) := by
  unfold giveDest
  refine Yard.Extends.trans (.updTicket y slot _ fun t ht => ?_) (extends_claimDest _ _ _)
  obtain ⟨ha, hd⟩ := h t ht
  exact .of_active ha ha rfl (fun hs => by rw [hd] at hs; cases hs) fun _ => rfl

theorem extends_redirectOne (e : Site) (y : Yard) (slot : Nat) : Yard.Extends q y (redirectOne e y slot) := by
  unfold redirectOne
  split
  · rename_i t ht
    split
    · rename_i hd _ _
      have give : t.state.isActive = true → ∀ d, Yard.Extends q y (giveDest y slot d) := fun ha d =>
        extends_giveDest y slot d fun u hu => by
          obtain rfl := Option.some.inj (ht.symm.trans hu)
          exact ⟨ha, hd⟩
      split
      · rename_i hst
        split
        · split
          · unfold giveLaden
            exact ((give (by rw [hst]; rfl) _).trans (.setClaim _ _ _)).trans (.sendStage e _ _ _ _)
          · exact .refl y
        · exact .refl y
      · split
        · rename_i hst
          split
          · exact give (TicketState.active_of_waiting hst) _
          · exact .refl y
        · exact .refl y
    · exact .refl y
  · exact .refl y

/-! ## The follow-up work (R122, R123, R126, R180) -/

theorem extends_waitingPass (e : Site) (y : Yard) : Yard.Extends q y (waitingPass e y) :=
  ((Yard.Extends.forEach _ (extends_redirectOne e) _ y).trans (.forEach _ (extends_createPick e) _ _)).trans
    (.forEach _ (extends_digRound e) _ _)

theorem extends_waitingWork (e : Site) (n : Nat) (y : Yard) : Yard.Extends q y (waitingWork e n y) := by
  induction n generalizing y with
  | zero => exact .refl y
  | succ n ih =>
    unfold waitingWork
    dsimp only
    split
    · exact extends_waitingPass e y
    · exact (extends_waitingPass e y).trans (ih _)

theorem extends_followUp (e : Site) (y : Yard) : Yard.Extends false y (followUp e y) := by
  unfold followUp
  exact ((((extends_promoteAll y).trans (extends_refreshLevels e _)).trans (extends_waitingWork e _ _)).trans
    (extends_refreshLevels e _)).trans (extends_refreshAll e _)

/-! ## The arbiter (R140 to R147) -/

theorem extends_grant (e : Site) (y : Yard) (slot k : Nat) (t : Ticket) (ha : y.activeAt slot = true) :
    Yard.Extends q y (grant e y slot k t) := by
  unfold grant
  dsimp only
  refine (((Yard.Extends.setClaim y k _).trans (.updTicket _ slot _ fun u hu => ?_)).trans (.updCrane _ k _)).trans
    (.sendStage e _ k _ _)
  obtain ⟨v, hv, hact⟩ := (activeAt_iff y slot).1 ha
  have huv : y.ticketAt slot = some u := hu
  obtain rfl := Option.some.inj (hv.symm.trans huv)
  refine .of_active hact ?_ rfl (fun _ => rfl) fun _ => rfl
  dsimp only
  split <;> rfl

theorem extends_returnTicket (e : Site) (y : Yard) (slot : Nat) (ha : y.activeAt slot = true) :
    Yard.Extends q y (returnTicket e y slot) := by
  unfold returnTicket
  refine Yard.Extends.trans (.updTicket y slot _ fun u hu => ?_) (extends_refreshTicket e _ slot)
  obtain ⟨v, hv, hact⟩ := (activeAt_iff y slot).1 ha
  obtain rfl := Option.some.inj (hv.symm.trans hu)
  exact .of_active hact rfl rfl (fun _ => rfl) fun _ => rfl

theorem Yard.Extends.activeAt {y y' : Yard} (h : Yard.Extends q y y') {i : Nat} (ha : y.activeAt i = true) :
    y'.activeAt i = true := by
  obtain ⟨t, ht, hact⟩ := (activeAt_iff y i).1 ha
  obtain ⟨t', ht', hx⟩ := h.tickets i t ht
  exact (activeAt_iff y' i).2 ⟨t', ht', hx.active.trans hact⟩

theorem extends_preempt (e : Site) (y : Yard) (slot k : Nat) (t : Ticket) (ha : y.activeAt slot = true) :
    Yard.Extends q y (preempt e y slot k t) := by
  unfold preempt
  split
  · rename_i u hu
    have hr := extends_returnTicket (q := q) e y u (preemptable_active hu)
    exact hr.trans (extends_grant e _ slot k t (hr.activeAt ha))
  · exact .refl y

/-- R147: a YIELD made for a neighbour without a bound ticket. -/
theorem extends_makeYield (e : Site) (served : Handle) (level k : Nat) (i : Interval) (y : Yard) (j : Nat)
    (hb : (y.arb j).bound = none) : Yard.Extends q y (makeYield e served level k i y j) := by
  unfold makeYield
  split
  · rename_i free target hfree _
    exact ((Yard.Extends.placeTicket y free _ hfree rfl rfl).trans (.bind _ j _ hb)).trans (extends_refreshTicket e _ free)
  · exact .refl y

/-- R147: a YIELD binds its own crane alone. -/
theorem makeYield_bound (e : Site) (served : Handle) (level k : Nat) (i : Interval) (y : Yard) {j n : Nat} (hj : j ≠ n) :
    ((makeYield e served level k i y j).arb n).bound = (y.arb n).bound := by
  unfold makeYield
  split
  · rename_i free target _ _
    dsimp only
    unfold Yard.arb
    rw [(refreshTicket_cranes e _ free).2]
    exact congrArg ArbiterRecord.bound (getOr_upd_ne _ _ _ _ _ hj)
  · rfl

/-- R146: the lower neighbour stands before the higher one. -/
theorem blockers_sorted (y : Yard) (k : Nat) (i : Interval) : (blockers y k i).Pairwise (· < ·) := by
  have hone : ∀ xs : List Nat, xs.length ≤ 1 → xs.Pairwise (· < ·) := fun xs h => by
    match xs, h with
    | [], _ => exact List.Pairwise.nil
    | [x], _ => exact List.pairwise_singleton _ x
  unfold blockers
  refine List.pairwise_append.2 ⟨hone _ ?_, hone _ ?_, fun a ha b hb => ?_⟩
  · split
    · exact Nat.zero_le 1
    · exact Nat.zero_le 1
    · split
      · exact Nat.zero_le 1
      · exact Nat.le_refl 1
  · split
    · exact Nat.zero_le 1
    · split
      · exact Nat.zero_le 1
      · split
        · exact Nat.zero_le 1
        · exact Nat.le_refl 1
  · have hlow : a < k := by
      split at ha
      · cases ha
      · cases ha
      · split at ha
        · cases ha
        · rw [List.mem_singleton.1 ha]
          exact Nat.lt_succ_self _
    have hhigh : b = k + 1 := by
      split at hb
      · cases hb
      · split at hb
        · cases hb
        · split at hb
          · cases hb
          · exact List.mem_singleton.1 hb
    omega

theorem blockers_nodup (y : Yard) (k : Nat) (i : Interval) : (blockers y k i).Nodup :=
  (blockers_sorted y k i).imp Nat.ne_of_lt

theorem extends_makeYieldEach (e : Site) (served : Handle) (level k : Nat) (i : Interval) (js : List Nat) (y : Yard)
    (hn : js.Nodup) (hb : ∀ j ∈ js, (y.arb j).bound = none) :
    Yard.Extends q y (forEach js (makeYield e served level k i) y) := by
  unfold forEach
  induction js generalizing y with
  | nil => exact .refl y
  | cons j js ih =>
    obtain ⟨hj, hjs⟩ := List.nodup_cons.1 hn
    refine (extends_makeYield e served level k i y j (hb j List.mem_cons_self)).trans (ih _ hjs fun n hmem => ?_)
    rw [makeYield_bound e served level k i y fun h : j = n => hj (h ▸ hmem)]
    exact hb n (List.mem_cons_of_mem _ hmem)

/-- R146: a crane that yields has no bound ticket. -/
theorem mayYield_bound {y : Yard} {k j : Nat} {i : Interval} (h : mayYield y k j i = true) : (y.arb j).bound = none := by
  unfold mayYield at h
  simp only [Bool.and_eq_true, decide_eq_true_eq] at h
  exact h.1.2

theorem extends_makeYields (e : Site) (y : Yard) (slot k : Nat) (t : Ticket) (h : yieldCandidate e y t k = true) :
    Yard.Extends q y (makeYields e y slot k t) := by
  unfold makeYields
  split
  · rename_i i hi
    unfold yieldCandidate at h
    simp only [hi, Bool.and_eq_true, List.all_eq_true] at h
    obtain ⟨-, -, hall⟩ := h
    exact extends_makeYieldEach e _ _ k i _ y (blockers_nodup y k i) fun j hj => mayYield_bound (hall j hj)
  · exact .refl y

/-- R146: the crane of the yield step is a yield candidate. -/
theorem yieldCrane_candidate {e : Site} {y : Yard} {t : Ticket} {k : Nat} (h : yieldCrane e y t = some k) :
    yieldCandidate e y t k = true := (List.mem_filter.1 (leastBy_mem h)).2

theorem extends_examine (e : Site) (y : Yard) (slot : Nat) (ha : y.activeAt slot = true) :
    Yard.Extends q y (examine e y slot).1 := by
  unfold examine
  split
  · split
    · exact extends_grant e y slot _ _ ha
    · split
      · split
        · exact extends_preempt e y slot _ _ ha
        · split
          · rename_i k hk
            exact extends_makeYields e y slot k _ (yieldCrane_candidate hk)
          · exact .refl y
      · exact .refl y
  · exact .refl y

theorem extends_walk (e : Site) (n last : Nat) (y : Yard) : Yard.Extends q y (walk e n last y).1 := by
  induction n generalizing last y with
  | zero => exact .refl y
  | succ n ih =>
    unfold walk
    split
    · exact .refl y
    · rename_i slot hslot
      obtain ⟨t, ht, hr⟩ := nextReady_ready hslot
      exact (extends_examine e y slot ((activeAt_iff _ _).2 ⟨t, ht, by rw [hr]; rfl⟩)).trans (ih _ _)

theorem extends_walks (e : Site) (n : Nat) (y : Yard) : Yard.Extends q y (walks e n y) := by
  induction n generalizing y with
  | zero => exact .refl y
  | succ n ih =>
    unfold walks
    dsimp only
    split
    · exact (extends_walk e _ _ y).trans (ih _)
    · exact extends_walk e _ _ y

theorem extends_evaluate (e : Site) (y : Yard) : Yard.Extends q y (evaluate e y) := by
  unfold evaluate
  split
  · exact .refl y
  · exact extends_walks e _ y

theorem extends_settleClaim (e : Site) (y : Yard) : Yard.Extends false y (settleClaim e y) :=
  (extends_followUp e y).trans (extends_evaluate e _)

theorem extends_settle (e : Site) (y0 y1 : Yard) : Yard.Extends false y1 (settle e y0 y1) := by
  unfold settle
  dsimp only
  split
  · exact extends_settleClaim e y1
  · exact extends_followUp e y1

end

end Sys2Proof.Machine
end

