-- ==== Sys2Proof/Proofs/WaitReasons.lean ====
section
/-! PROOF. The wait reasons of a PENDING or READY ticket (R121, R181), and that the follow-up work leaves each ticket with the
reasons that apply (R122). -/

namespace Sys2Proof.Machine

/-! ## Each reason under its condition (R121) -/

section
variable {e : Site} {y : Yard} {slot : Nat} {t : Ticket}

/-- R121: YIELD and PARK are tested for STOP alone. -/
theorem evalWaits_bay (hk : t.kind = .yield ∨ t.kind = .park) :
    evalWaits e y slot t = ⟨false, false, false, false, false, e.stop, false⟩ := if_pos hk

/-- R121: the reasons of a ticket for a piece. -/
theorem evalWaits_piece (h1 : t.kind ≠ .yield) (h2 : t.kind ≠ .park) : evalWaits e y slot t =
    { after := t.after && (ahead y slot).any y.activeAt
      source := sourceWaits e y slot t
      buried := (buriedIn y slot).isSome
      dest := destWaits y slot t
      order := orderWaits y slot t
      stop := e.stop
      redirect := t.dest.isNone } := if_neg fun h => h.elim h1 h2

theorem evalWaits_stop : (evalWaits e y slot t).stop = e.stop := by
  unfold evalWaits
  split <;> rfl

theorem any_activeAt_iff {front : List Nat} : front.any y.activeAt = true
    ↔ ∃ i ∈ front, ∃ u, y.ticketAt i = some u ∧ u.state.isActive = true := by
  simp only [List.any_eq_true, activeAt_iff]

theorem any_activePick_iff {slots : List Nat} {k : Nat} {pickOf : Nat → Nat → Prop}
    (hp : ∀ k i, pickOf k i ↔ ∃ u, y.ticketAt i = some u ∧ u.state.isActive = true ∧ u.kind = .pick ∧ u.truck = some k) :
    slots.any (activePick y k) = true ↔ ∃ i ∈ slots, pickOf k i := by
  simp only [List.any_eq_true, activePick_iff, hp]

theorem holdsLift_iff {s : Nat} {h : Handle} : holdsLift y s h = true ↔ ⟨.lift, h⟩ ∈ (y.stack s).claims := by
  simp [holdsLift]

/-- R121, BURIED: a waiting ticket of a stack without a LIFT claim on it. -/
theorem buriedIn_stack {s tier : Nat} (ht : y.ticketAt slot = some t) (hst : t.state = .pending ∨ t.state = .ready)
    (hs : t.source = some (.stack s tier)) :
    buriedIn y slot = if ⟨.lift, y.ticketHandle slot⟩ ∈ (y.stack s).claims then none else some s := by
  unfold buriedIn
  simp only [ht, hs, hst, true_and, Bool.not_eq_true', ← Bool.not_eq_true, holdsLift_iff, ite_not]

theorem buriedIn_other (ht : y.ticketAt slot = some t) (hs : ∀ s tier, t.source ≠ some (.stack s tier)) :
    buriedIn y slot = none := by
  unfold buriedIn
  simp only [ht]

/-- A ticket that is not waiting is not buried. -/
theorem buriedIn_notWaiting (ht : y.ticketAt slot = some t) (hst : ¬(t.state = .pending ∨ t.state = .ready)) :
    buriedIn y slot = none := by
  cases hb : buriedIn y slot with
  | none => rfl
  | some s =>
    obtain ⟨u, hu, hw, -⟩ := buriedIn_some hb
    obtain rfl := Option.some.inj (ht.symm.trans hu)
    exact absurd hw hst

/-- R121, SOURCE, by the kind of the source. -/
theorem sourceWaits_bed {b n : Nat} (hs : t.source = some (.bed b n)) : sourceWaits e y slot t = true
    ↔ (getOr e.beds b .reset).state ≠ .released ∧ (getOr e.beds b .reset).state ≠ .stripping := by
  simp [sourceWaits, hs]

theorem sourceWaits_lane {l : Nat} (hs : t.source = some (.lane l)) :
    sourceWaits e y slot t = true ↔ (y.lane l).pieces.head? ≠ t.piece := by
  simp [sourceWaits, hs]

theorem sourceWaits_truck {k tier : Nat} (hs : t.source = some (.truck k tier)) : sourceWaits e y slot t = true
    ↔ (y.truck k).pieces.getLast? ≠ t.piece ∨ y.moveQueue.any (activePick y k) = true := by
  simp [sourceWaits, hs]

theorem sourceWaits_stack {s tier : Nat} (hs : t.source = some (.stack s tier)) : sourceWaits e y slot t = true
    ↔ ⟨.lift, y.ticketHandle slot⟩ ∈ (y.stack s).claims ∧ (y.stack s).claims.head? ≠ some ⟨.lift, y.ticketHandle slot⟩ := by
  simp [sourceWaits, hs, holdsLift_iff]

theorem sourceWaits_none (hs : t.source = none ∨ ∃ k, t.source = some (.hook k)) : sourceWaits e y slot t = false := by
  rcases hs with hs | ⟨k, hs⟩ <;> simp [sourceWaits, hs]

/-- R121, DEST. -/
theorem destWaits_stack {s : Nat} (hd : t.dest = some (.stack s)) :
    destWaits y slot t = true ↔ (y.stack s).claims.head? ≠ some ⟨.place, y.ticketHandle slot⟩ := by
  simp [destWaits, hd]

theorem destWaits_other (hd : ∀ s, t.dest ≠ some (.stack s)) : destWaits y slot t = false := by
  unfold destWaits
  split
  · rename_i s h
    exact absurd h (hd s)
  · rfl

/-- R121, R181, ORDER. -/
theorem orderWaits_iff : orderWaits y slot t = true
    ↔ t.kind = .pick ∧ ∃ k, t.truck = some k ∧ (ahead y slot).any (activePick y k) = true := by
  unfold orderWaits
  split
  · rename_i k hk htr
    simp [hk, htr]
  · rename_i hnot
    refine ⟨fun h => (by cases h), fun ⟨hk, k, htr, _⟩ => absurd htr (hnot k hk)⟩

end

/-! ## What the wait reasons and levels do not read: tickets restated -/

/-- A ticket restated: its level, its wait reasons, and whether it is PENDING or READY, at most. -/
structure Ticket.Restates (t t' : Ticket) : Prop where
  same  : t' = { t with level := t'.level, waits := t'.waits, state := t'.state }
  state : t'.state = t.state ∨ (t.state = .pending ∨ t.state = .ready) ∧ (t'.state = .pending ∨ t'.state = .ready)

theorem Ticket.Restates.refl (t : Ticket) : t.Restates t := ⟨rfl, .inl rfl⟩

theorem Ticket.Restates.trans {t t' t'' : Ticket} (h : t.Restates t') (k : t'.Restates t'') : t.Restates t'' where
  same := by
    have hk := k.same
    rw [h.same] at hk
    exact hk
  state := by
    rcases k.state with hk | ⟨hk, hk'⟩ <;> rcases h.state with hh | ⟨hh, hh'⟩
    · exact .inl (hk.trans hh)
    · exact .inr ⟨hh, by rwa [hk]⟩
    · exact .inr ⟨by rwa [← hh], hk'⟩
    · exact .inr ⟨hh, hk'⟩

theorem Ticket.Restates.waiting {t t' : Ticket} (h : t.Restates t') :
    (t'.state = .pending ∨ t'.state = .ready) ↔ (t.state = .pending ∨ t.state = .ready) := by
  rcases h.state with hs | ⟨hs, hs'⟩
  · rw [hs]
  · exact ⟨fun _ => hs, fun _ => hs'⟩

theorem Ticket.Restates.active {t t' : Ticket} (h : t.Restates t') : t'.state.isActive = t.state.isActive := by
  rcases h.state with hs | ⟨hs, hs'⟩
  · rw [hs]
  · rw [TicketState.active_of_waiting hs, TicketState.active_of_waiting hs']

/-- From the yard `y` to `y'` tickets are restated, and nothing else changes. -/
structure Yard.Restates (y y' : Yard) : Prop where
  rest    : { y' with tickets := y.tickets } = y
  gens    : ∀ j, (y'.ticketSlot j).gen = (y.ticketSlot j).gen
  free    : ∀ j, y.ticketAt j = none → y'.ticketAt j = none
  tickets : ∀ j t, y.ticketAt j = some t → ∃ t', y'.ticketAt j = some t' ∧ t.Restates t'

namespace Yard.Restates
variable {y y' y'' : Yard} {e : Site}

theorem refl (y : Yard) : Yard.Restates y y := ⟨rfl, fun _ => rfl, fun _ => id, fun _ t ht => ⟨t, ht, .refl t⟩⟩

theorem trans (h : Yard.Restates y y') (k : Yard.Restates y' y'') : Yard.Restates y y'' where
  rest := by
    have hk := k.rest
    rw [← h.rest]
    rw [← hk]
  gens j := (k.gens j).trans (h.gens j)
  free j hj := k.free j (h.free j hj)
  tickets j t ht := by
    obtain ⟨t', ht', hx⟩ := h.tickets j t ht
    obtain ⟨t'', ht'', hx'⟩ := k.tickets j t' ht'
    exact ⟨t'', ht'', hx.trans hx'⟩

theorem forEach {α : Type} (f : Yard → α → Yard) (h : ∀ y a, Yard.Restates y (f y a)) (xs : List α) (y : Yard) :
    Yard.Restates y (Machine.forEach xs f y) := by
  unfold Machine.forEach
  induction xs generalizing y with
  | nil => exact refl y
  | cons x xs ih => exact (h y x).trans (ih (f y x))

/-- A change of one ticket that restates it. -/
theorem updTicket (y : Yard) (i : Nat) (f : Ticket → Ticket) (hf : ∀ t, y.ticketAt i = some t → t.Restates (f t)) :
    Yard.Restates y (y.updTicket i f) where
  rest := rfl
  gens j := gen_updTicket y i j f
  free j hj := by
    rw [ticketAt_updTicket, hj]
    split <;> rfl
  tickets j t ht := by
    rw [ticketAt_updTicket, ht]
    split
    · rename_i hij
      subst hij
      exact ⟨f t, rfl, hf t ht⟩
    · exact ⟨t, rfl, .refl t⟩

theorem eq (h : Yard.Restates y y') : y' = { y with tickets := y'.tickets } := by
  rw [← h.rest]

theorem ticketHandle (h : Yard.Restates y y') (j : Nat) : y'.ticketHandle j = y.ticketHandle j :=
  congrArg (Handle.mk j) (h.gens j)

theorem moveQueue (h : Yard.Restates y y') : y'.moveQueue = y.moveQueue := by rw [h.eq]

theorem pieces (h : Yard.Restates y y') : y'.pieces = y.pieces := by rw [h.eq]

theorem stack (h : Yard.Restates y y') (s : Nat) : y'.stack s = y.stack s := by rw [h.eq]; rfl

theorem lane (h : Yard.Restates y y') (l : Nat) : y'.lane l = y.lane l := by rw [h.eq]; rfl

theorem truck (h : Yard.Restates y y') (n : Nat) : y'.truck n = y.truck n := by rw [h.eq]; rfl

theorem isSome (h : Yard.Restates y y') (j : Nat) : (y'.ticketAt j).isSome = (y.ticketAt j).isSome := by
  cases hj : y.ticketAt j with
  | none => rw [h.free j hj]
  | some t =>
    obtain ⟨t', ht', -⟩ := h.tickets j t hj
    rw [ht']
    rfl

theorem activeAt (h : Yard.Restates y y') (j : Nat) : y'.activeAt j = y.activeAt j := by
  unfold Yard.activeAt
  cases hj : y.ticketAt j with
  | none => rw [h.free j hj]
  | some t =>
    obtain ⟨t', ht', hx⟩ := h.tickets j t hj
    rw [ht']
    exact hx.active

theorem activePick (h : Yard.Restates y y') (k j : Nat) : activePick y' k j = activePick y k j := by
  unfold Machine.activePick
  cases hj : y.ticketAt j with
  | none => rw [h.free j hj]
  | some t =>
    obtain ⟨t', ht', hx⟩ := h.tickets j t hj
    rw [ht']
    dsimp only
    rw [hx.active, hx.same]

theorem ahead (h : Yard.Restates y y') (slot : Nat) : ahead y' slot = ahead y slot := by
  unfold Machine.ahead
  rw [h.moveQueue]

theorem holdsLift (h : Yard.Restates y y') (s : Nat) (g : Handle) : holdsLift y' s g = holdsLift y s g := by
  unfold Machine.holdsLift
  rw [h.stack]

theorem buriedIn (h : Yard.Restates y y') (slot : Nat) : buriedIn y' slot = buriedIn y slot := by
  unfold Machine.buriedIn
  cases hj : y.ticketAt slot with
  | none => rw [h.free slot hj]
  | some t =>
    obtain ⟨t', ht', hx⟩ := h.tickets slot t hj
    rw [ht']
    have hsource : t'.source = t.source := by rw [hx.same]
    simp only [hsource, hx.waiting, h.ticketHandle, h.holdsLift]

/-- R121: the wait reasons of a ticket read nothing that is restated. -/
theorem evalWaits (h : Yard.Restates y y') (slot : Nat) {t t' : Ticket} (ht : t.Restates t') :
    evalWaits e y' slot t' = evalWaits e y slot t := by
  have hpick : ∀ k, Machine.activePick y' k = Machine.activePick y k := fun k => funext (h.activePick k)
  have hsource : sourceWaits e y' slot t' = sourceWaits e y slot t := by
    unfold sourceWaits
    rw [ht.same]
    simp only [h.lane, h.truck, h.stack, h.moveQueue, hpick, h.holdsLift, h.ticketHandle]
  have hdest : destWaits y' slot t' = destWaits y slot t := by
    unfold destWaits
    rw [ht.same]
    simp only [h.stack, h.ticketHandle]
  have horder : orderWaits y' slot t' = orderWaits y slot t := by
    unfold orderWaits
    rw [ht.same]
    simp only [h.ahead, hpick]
  unfold Machine.evalWaits
  rw [hsource, hdest, horder, h.ahead, h.buriedIn, funext h.activeAt, ht.same]

end Yard.Restates

/-! ## The tickets evaluated (R122) -/

/-- A waiting ticket evaluated is restated. -/
theorem Ticket.restates_evaluated {t : Ticket} (w : Waits) (hw : t.state = .pending ∨ t.state = .ready) :
    t.Restates { t with waits := w, state := if w = .none then .ready else .pending } :=
  ⟨rfl, .inr ⟨hw, by dsimp only; split <;> simp⟩⟩

theorem restates_refreshTicket (e : Site) (y : Yard) (slot : Nat) : Yard.Restates y (refreshTicket e y slot) := by
  unfold refreshTicket
  split
  · rename_i t ht
    split
    · rename_i hw
      refine .updTicket y slot _ fun u hu => ?_
      obtain rfl := Option.some.inj (ht.symm.trans hu)
      exact Ticket.restates_evaluated _ hw
    · exact .refl y
  · exact .refl y

theorem restates_refreshAll (e : Site) (y : Yard) : Yard.Restates y (refreshAll e y) :=
  .forEach _ (restates_refreshTicket e) _ _

theorem restates_refreshLevel (e : Site) (y : Yard) (n : Nat) : Yard.Restates y (refreshLevel e y n) := by
  unfold refreshLevel
  split
  · split
    · exact .updTicket y n _ fun u _ => ⟨rfl, .inl rfl⟩
    · exact .refl y
  · exact .refl y

theorem restates_refreshLevels (e : Site) (y : Yard) : Yard.Restates y (refreshLevels e y) :=
  .forEach _ (restates_refreshLevel e) _ _

/-- R122: a waiting ticket has the wait reasons that apply, and is READY exactly where there are none. -/
def Yard.evaluatedAt (e : Site) (y : Yard) (slot : Nat) : Prop :=
  ∀ t, y.ticketAt slot = some t → t.state = .pending ∨ t.state = .ready →
    t.waits = evalWaits e y slot t ∧ (t.state = .ready ↔ t.waits = .none)

theorem evaluatedAt_refreshTicket_same (e : Site) (y : Yard) (slot : Nat) : (refreshTicket e y slot).evaluatedAt e slot := by
  intro t' ht' hw'
  have hr := restates_refreshTicket e y slot
  cases ht : y.ticketAt slot with
  | none =>
    rw [hr.free slot ht] at ht'
    cases ht'
  | some t =>
    obtain ⟨u, hu, hx⟩ := hr.tickets slot t ht
    obtain rfl := Option.some.inj (ht'.symm.trans hu)
    have heval := refreshTicket_waiting e y slot t ht (hx.waiting.1 hw')
    have hwaits : evalWaits e (refreshTicket e y slot) slot t' = evalWaits e y slot t := hr.evalWaits slot hx
    rw [hwaits]
    obtain rfl := Option.some.inj (ht'.symm.trans heval)
    refine ⟨rfl, ?_⟩
    dsimp only
    split <;> simp_all

/-- The evaluation of a ticket leaves the others evaluated. -/
theorem evaluatedAt_refreshTicket (e : Site) (y : Yard) (slot n : Nat) (h : y.evaluatedAt e slot) :
    (refreshTicket e y n).evaluatedAt e slot := by
  by_cases hn : n = slot
  · subst hn
    exact evaluatedAt_refreshTicket_same e y n
  · intro t ht hw
    rw [refreshTicket_ne _ _ _ _ hn] at ht
    rw [(restates_refreshTicket e y n).evalWaits slot (.refl t)]
    exact h t ht hw

theorem evaluatedAt_refreshEach (e : Site) (slots : List Nat) (y : Yard) (slot : Nat)
    (h : slot ∈ slots ∨ y.evaluatedAt e slot) : (forEach slots (refreshTicket e) y).evaluatedAt e slot := by
  unfold forEach
  induction slots generalizing y with
  | nil => exact h.resolve_left List.not_mem_nil
  | cons n slots ih =>
    refine ih (refreshTicket e y n) ?_
    rcases h with h | h
    · rcases List.mem_cons.1 h with rfl | h
      · exact .inr (evaluatedAt_refreshTicket_same e y slot)
      · exact .inl h
    · exact .inr (evaluatedAt_refreshTicket e y slot n h)

/-- R122: after the follow-up work every ticket of the move queue is evaluated. -/
theorem evaluatedAt_followUp (e : Site) (y : Yard) (slot : Nat) (h : slot ∈ (followUp e y).moveQueue) :
    (followUp e y).evaluatedAt e slot := by
  unfold followUp at h ⊢
  rw [(restates_refreshAll e _).moveQueue] at h
  exact evaluatedAt_refreshEach e _ _ slot (.inl h)

end Sys2Proof.Machine
end

