-- ==== Sys2Proof/Proofs/EffectiveLevels.lean ====
section
/-! PROOF. The effective levels after the work that follows a change (R123): every active ticket has the level of its kind, and
one that takes its level from nothing more keeps the level it had. -/

namespace Sys2Proof.Machine

/-! ## What a ticket takes its level from -/

/-- R123: the ticket is of the truck bay in whose order its piece is listed. -/
def Yard.picksFor (y : Yard) (t : Ticket) (k : Nat) : Prop :=
  t.truck = some k ∧ ∃ p r, t.piece = some p ∧ y.piece? p = some r ∧ r.order = some k

/-- R123: the ticket in the slot serves the active ticket `u`, which stands ahead of it. -/
def Yard.servesAt (y : Yard) (slot : Nat) (t u : Ticket) : Prop :=
  u.state.isActive = true ∧ ∃ h, t.serves = some h ∧ y.ticket? h = some u ∧ h.slot ∈ ahead y slot

/-- R123: the ticket takes its level from something, and does not keep the one it has. -/
def Yard.takesLevel (y : Yard) (slot : Nat) (t : Ticket) : Prop :=
  (t.kind = .pick → ∃ k, y.picksFor t k) ∧ (t.kind = .dig ∨ t.kind = .yield → ∃ u, y.servesAt slot t u)

section
variable {e : Site} {y y' : Yard} {slot : Nat} {t t' u : Ticket}

theorem ticketLevel_listed {k : Nat} (hk : t.kind = .pick) (h : y.picksFor t k) :
    ticketLevel e y slot t = (y.truck k).level := by
  obtain ⟨htr, p, r, hp, hr, ho⟩ := h
  simp [ticketLevel, hk, htr, hp, hr, ho]

theorem ticketLevel_unlisted (hk : t.kind = .pick) (h : ∀ k, ¬y.picksFor t k) : ticketLevel e y slot t = t.level := by
  unfold ticketLevel
  rw [hk]
  dsimp only
  split
  · rename_i k p htr hp
    split
    · rename_i r hr
      exact if_neg fun ho => h k ⟨htr, p, r, hp, hr, ho⟩
    · rfl
  · rfl

/-- R123: the ticket that a DIG or YIELD serves stands ahead of it and is the one that its handle names. -/
theorem servedTicket_eq_some : servedTicket y slot t = some u
    ↔ ∃ h, t.serves = some h ∧ y.ticket? h = some u ∧ h.slot ∈ ahead y slot := by
  unfold servedTicket
  cases t.serves with
  | none => simp
  | some h =>
    simp only [Option.some.injEq, exists_eq_left', List.contains_iff_mem]
    split
    · rename_i hmem
      exact ⟨fun hu => ⟨hu, hmem⟩, fun hu => hu.1⟩
    · rename_i hmem
      exact ⟨fun hu => (by cases hu), fun hu => absurd hu.2 hmem⟩

theorem ticketLevel_serving (hk : t.kind = .dig ∨ t.kind = .yield) (h : y.servesAt slot t u) :
    ticketLevel e y slot t = u.level := by
  have hserved := servedTicket_eq_some.2 h.2
  unfold ticketLevel
  rcases hk with hk | hk <;> simp only [hk, hserved, h.1, if_true]

theorem ticketLevel_unserving (hk : t.kind = .dig ∨ t.kind = .yield) (h : ∀ u, ¬y.servesAt slot t u) :
    ticketLevel e y slot t = t.level := by
  unfold ticketLevel
  cases hserved : servedTicket y slot t with
  | none => rcases hk with hk | hk <;> simp only [hk]
  | some u =>
    have hidle : ¬u.state.isActive = true := fun ha => h u ⟨ha, servedTicket_eq_some.1 hserved⟩
    rcases hk with hk | hk <;> simp only [hk, hidle, Bool.false_eq_true, if_false]

/-- R123: a ticket that takes its level from nothing keeps it. -/
theorem ticketLevel_kept (h : ¬y.takesLevel slot t) : ticketLevel e y slot t = t.level := by
  unfold Yard.takesLevel at h
  rw [not_and_or, Classical.not_imp, Classical.not_imp] at h
  rcases h with ⟨hk, h⟩ | ⟨hk, h⟩
  · exact ticketLevel_unlisted hk (not_exists.1 h)
  · exact ticketLevel_unserving hk (not_exists.1 h)

/-! ## A ticket that extends another takes its level as before -/

/-- R115: the queue lists each slot in use once. -/
def Yard.listed (y : Yard) : Prop := y.moveQueue.Nodup ∧ ∀ slot, slot ∈ y.moveQueue ↔ (y.ticketAt slot).isSome = true

theorem piece_of_fixed (hf : y'.fixed = y.fixed) (i : Nat) : (y'.pieceSlot i).fixed = (y.pieceSlot i).fixed := by
  have h := congrArg (fun z : Yard => getOr z.pieces i (PieceSlot.fixed ⟨0, none⟩)) hf
  exact (getOr_map PieceSlot.fixed y'.pieces i _).symm.trans (h.trans (getOr_map PieceSlot.fixed y.pieces i _))

theorem orders_of_fixed (hf : y'.fixed = y.fixed) (p : Handle) :
    (y'.piece? p).map Piece.order = (y.piece? p).map Piece.order := by
  have h := piece_of_fixed hf p.slot
  have hgen : (y'.pieceSlot p.slot).gen = (y.pieceSlot p.slot).gen := (congrArg PieceSlot.gen h :)
  have hpiece := congrArg (fun ps : PieceSlot => ps.piece.map Piece.order) h
  simp only [PieceSlot.fixed, Option.map_map, Function.comp_def] at hpiece
  unfold Yard.piece?
  rw [hgen]
  split
  · exact hpiece
  · rfl

theorem lane_of_fixed (hf : y'.fixed = y.fixed) (l : Nat) : (y'.lane l).demand = (y.lane l).demand := by
  have hlane : ∀ z : Yard, getOr z.fixed.lanes l (LaneRecord.fixed .reset) = (z.lane l).fixed := fun z => getOr_map _ _ _ _
  exact (congrArg LaneRecord.demand ((hlane y').symm.trans ((congrArg (fun z : Yard => getOr z.lanes l _) hf).trans (hlane y))) :)

theorem truck_of_fixed (hf : y'.fixed = y.fixed) (k : Nat) : (y'.truck k).level = (y.truck k).level := by
  have htruck : ∀ z : Yard, getOr z.fixed.trucks k (TruckRecord.fixed .reset) = (z.truck k).fixed := fun z =>
    getOr_map _ _ _ _
  exact (congrArg TruckRecord.level
    ((htruck y').symm.trans ((congrArg (fun z : Yard => getOr z.trucks k _) hf).trans (htruck y))) :)

theorem gen_of_fixed (hf : y'.fixed = y.fixed) (i : Nat) : (y'.ticketSlot i).gen = (y.ticketSlot i).gen := by
  have hslot : ∀ z : Yard, getOr z.fixed.tickets i ⟨0, none⟩ = ⟨(z.ticketSlot i).gen, none⟩ := fun z =>
    getOr_map (fun ts : TicketSlot => (⟨ts.gen, none⟩ : TicketSlot)) z.tickets i ⟨0, none⟩
  exact (congrArg TicketSlot.gen
    ((hslot y').symm.trans ((congrArg (fun z : Yard => getOr z.tickets i _) hf).trans (hslot y))) :)

/-- What stands ahead of a slot stays so when the queue grows at its back. -/
theorem ahead_extends {q : Bool} (h : Yard.Extends q y y') (hslot : slot ∈ y.moveQueue) : ahead y' slot = ahead y slot := by
  obtain ⟨m, hm, -⟩ := h.queue
  obtain ⟨front, back, hq, hf⟩ := List.eq_append_cons_of_mem hslot
  rw [ahead_of_split y slot front back hq hf,
    ahead_of_split y' slot front (back ++ m) (by rw [hm, hq, List.append_assoc, List.cons_append]) hf]

theorem picksFor_extends {q : Bool} {k : Nat} (hf : y'.fixed = y.fixed) (hx : t.Extends q t') :
    y'.picksFor t' k ↔ y.picksFor t k := by
  have htruck : t'.truck = t.truck := (congrArg Ticket.truck hx.fixed :)
  have hpiece : t'.piece = t.piece := (congrArg Ticket.piece hx.fixed :)
  have horder : ∀ p, (y'.piece? p).map Piece.order = (y.piece? p).map Piece.order := orders_of_fixed hf
  have hiff : ∀ p, (∃ r, y'.piece? p = some r ∧ r.order = some k) ↔ ∃ r, y.piece? p = some r ∧ r.order = some k := fun p => by
    simpa only [Option.map_eq_some_iff] using Iff.of_eq (congrArg (fun o => o = some (some k)) (horder p))
  unfold Yard.picksFor
  rw [htruck, hpiece]
  refine and_congr_right fun _ => exists_congr fun p => ?_
  simp only [exists_and_left, hiff]

section
variable {q : Bool} (hl : y.listed) (h : Yard.Extends q y y') (hf : y'.fixed = y.fixed)
  (ht : y.ticketAt slot = some t) (ht' : y'.ticketAt slot = some t')
include hl h hf ht ht'

/-- The ticket served before is served after. -/
theorem servesAt_extends (hs : y.servesAt slot t u) : ∃ u', y'.servesAt slot t' u' ∧ u.Extends q u' := by
  obtain ⟨ha, g, hg, hu, hmem⟩ := hs
  obtain ⟨v, hv, hx⟩ := h.tickets slot t ht
  obtain rfl := Option.some.inj (ht'.symm.trans hv)
  obtain ⟨hgen, hat⟩ := Yard.ticket?_eq_some.1 hu
  obtain ⟨u', hu', hxu⟩ := h.tickets g.slot u hat
  have hserves : t'.serves = t.serves := (congrArg Ticket.serves hx.fixed :)
  refine ⟨u', ⟨hxu.active.trans ha, g, hserves.trans hg, Yard.ticket?_eq_some.2 ⟨(gen_of_fixed hf _).trans hgen, hu'⟩, ?_⟩, hxu⟩
  rwa [ahead_extends h ((hl.2 slot).2 (by rw [ht]; rfl))]

/-- The ticket served after was served before. -/
theorem servesAt_extended {u' : Ticket} (hs : y'.servesAt slot t' u') : ∃ u, y.servesAt slot t u ∧ u.Extends q u' := by
  obtain ⟨ha, g, hg, hu', hmem⟩ := hs
  obtain ⟨v, hv, hx⟩ := h.tickets slot t ht
  obtain rfl := Option.some.inj (ht'.symm.trans hv)
  have hserves : t'.serves = t.serves := (congrArg Ticket.serves hx.fixed :)
  rw [ahead_extends h ((hl.2 slot).2 (by rw [ht]; rfl))] at hmem
  obtain ⟨u, hat⟩ := Option.isSome_iff_exists.1 ((hl.2 g.slot).1 (List.takeWhile_subset _ hmem))
  obtain ⟨hgen, hat'⟩ := Yard.ticket?_eq_some.1 hu'
  obtain ⟨w, hw, hxu⟩ := h.tickets g.slot u hat
  obtain rfl := Option.some.inj (hat'.symm.trans hw)
  exact ⟨u, ⟨hxu.active.symm.trans ha, g, hserves.symm.trans hg,
    Yard.ticket?_eq_some.2 ⟨(gen_of_fixed hf _).symm.trans hgen, hat⟩, hmem⟩, hxu⟩

/-- A ticket takes its level from something after as before. -/
theorem takesLevel_extends : y'.takesLevel slot t' ↔ y.takesLevel slot t := by
  obtain ⟨v, hv, hx⟩ := h.tickets slot t ht
  obtain rfl := Option.some.inj (ht'.symm.trans hv)
  have hkind : t'.kind = t.kind := (congrArg Ticket.kind hx.fixed :)
  unfold Yard.takesLevel
  rw [hkind]
  refine and_congr (imp_congr_right fun _ => exists_congr fun k => picksFor_extends hf hx) (imp_congr_right fun _ => ?_)
  refine ⟨fun ⟨u', hu'⟩ => ?_, fun ⟨u, hu⟩ => ?_⟩
  · obtain ⟨u, hu, -⟩ := servesAt_extended hl h hf ht ht' hu'
    exact ⟨u, hu⟩
  · obtain ⟨u', hu', -⟩ := servesAt_extends hl h hf ht ht' hu
    exact ⟨u', hu'⟩

end

/-- Where every ticket keeps its level, the level that a ticket is to have stays the same. -/
theorem ticketLevel_extends (hl : y.listed) (h : Yard.Extends true y y') (hf : y'.fixed = y.fixed)
    (ht : y.ticketAt slot = some t) (ht' : y'.ticketAt slot = some t') :
    ticketLevel e y' slot t' = ticketLevel e y slot t := by
  obtain ⟨v, hv, hx⟩ := h.tickets slot t ht
  obtain rfl := Option.some.inj (ht'.symm.trans hv)
  have hkind : t'.kind = t.kind := (congrArg Ticket.kind hx.fixed :)
  have hsource : t'.source = t.source := (congrArg Ticket.source hx.fixed :)
  have hbase : t'.baseLevel = t.baseLevel := (congrArg Ticket.baseLevel hx.fixed :)
  have hlevel := hx.level rfl
  have htakes := takesLevel_extends hl h hf ht ht'
  by_cases hkept : y.takesLevel slot t
  · cases hk : t.kind with
    | strip | stow | shift | park =>
      simp only [ticketLevel, hkind, hk, hsource, hbase, lane_of_fixed hf]
    | pick =>
      obtain ⟨k, hp⟩ := hkept.1 hk
      rw [ticketLevel_listed hk hp, ticketLevel_listed (hkind.trans hk) ((picksFor_extends hf hx).2 hp)]
      exact truck_of_fixed hf k
    | dig | yield =>
      obtain ⟨u, hu⟩ := hkept.2 (by simp [hk])
      obtain ⟨u', hu', hxu⟩ := servesAt_extends hl h hf ht ht' hu
      rw [ticketLevel_serving (by simp [hk]) hu, ticketLevel_serving (by simp [hkind, hk]) hu']
      exact hxu.level rfl
  · rw [ticketLevel_kept hkept, ticketLevel_kept (mt htakes.1 hkept), hlevel]

/-! ## A pass over the move queue (R123) -/

/-- R123: an active ticket in the slot has the level that it is to have. -/
def Yard.leveledAt (e : Site) (y : Yard) (slot : Nat) : Prop :=
  ∀ t, y.ticketAt slot = some t → t.state.isActive = true → t.level = ticketLevel e y slot t

theorem refreshLevel_same (ht : y.ticketAt slot = some t) (ha : t.state.isActive = true) :
    (refreshLevel e y slot).ticketAt slot = some { t with level := ticketLevel e y slot t } := by
  unfold refreshLevel
  simp only [ht, ha, if_true]
  rw [Yard.ticketAt_updTicket_same _ _ _ (Yard.ticketAt_lt _ _ _ ht), ht]
  rfl

/-- Where a ticket takes its level from something, its own level is not read. -/
theorem ticketLevel_taken (h : y.takesLevel slot t) (hkind : t'.kind = t.kind) (hsource : t'.source = t.source)
    (hbase : t'.baseLevel = t.baseLevel) (htruck : t'.truck = t.truck) (hpiece : t'.piece = t.piece)
    (hserves : t'.serves = t.serves) : ticketLevel e y slot t' = ticketLevel e y slot t := by
  cases hk : t.kind with
  | strip | stow | shift | park => simp only [ticketLevel, hkind, hk, hsource, hbase]
  | pick =>
    obtain ⟨k, hp⟩ := h.1 hk
    have hp' : y.picksFor t' k := by
      unfold Yard.picksFor at hp ⊢
      rwa [htruck, hpiece]
    rw [ticketLevel_listed hk hp, ticketLevel_listed (hkind.trans hk) hp']
  | dig | yield =>
    obtain ⟨u, hu⟩ := h.2 (by simp [hk])
    have hu' : y.servesAt slot t' u := by
      unfold Yard.servesAt at hu ⊢
      rwa [hserves]
    rw [ticketLevel_serving (by simp [hk]) hu, ticketLevel_serving (by simp [hkind, hk]) hu']

/-- The level that a ticket is to have reads its own level only where it keeps it. -/
theorem ticketLevel_relevel : ticketLevel e y slot { t with level := ticketLevel e y slot t } = ticketLevel e y slot t := by
  by_cases hkept : y.takesLevel slot t
  · exact ticketLevel_taken hkept rfl rfl rfl rfl rfl rfl
  · exact ticketLevel_kept (t := { t with level := _ }) hkept

/-- The level that a ticket is to have reads no ticket but those ahead of it. -/
theorem ticketLevel_refreshLevel {n : Nat} (hn : n ∉ ahead y slot) :
    ticketLevel e (refreshLevel e y n) slot t = ticketLevel e y slot t := by
  have hr := restates_refreshLevel e y n
  have hserved : servedTicket (refreshLevel e y n) slot t = servedTicket y slot t := by
    refine Option.ext fun u => ?_
    rw [servedTicket_eq_some, servedTicket_eq_some, hr.ahead]
    refine exists_congr fun g => and_congr_right fun _ => and_congr_left fun hmem => ?_
    rw [Yard.ticket?_eq_some, Yard.ticket?_eq_some, hr.gens, refreshLevel_ne e y fun h : n = g.slot => hn (h ▸ hmem)]
  have hpiece : ∀ p, (refreshLevel e y n).piece? p = y.piece? p := fun p => by rw [hr.eq]; rfl
  unfold ticketLevel
  simp only [hserved, hr.lane, hr.truck, hpiece]

/-- R123: one level of the queue written, with those of all slots ahead in place. -/
theorem leveledAt_refreshLevel {pre rest : List Nat} {n : Nat} (hq : y.moveQueue = pre ++ n :: rest) (hn : y.moveQueue.Nodup)
    (hpre : ∀ j ∈ pre, y.leveledAt e j) : ∀ j ∈ pre ++ [n], (refreshLevel e y n).leveledAt e j := by
  rw [hq] at hn
  have hnpre : n ∉ pre := fun h => List.disjoint_of_nodup_append hn h List.mem_cons_self
  intro j hj t ht ha
  rcases List.mem_append.1 hj with hj | hj
  · have hne : n ≠ j := fun h => hnpre (h ▸ hj)
    rw [refreshLevel_ne e y hne] at ht
    obtain ⟨front, back, hp, hfront⟩ := List.eq_append_cons_of_mem hj
    have hahead : ahead y j = front := ahead_of_split y j front (back ++ n :: rest) (by rw [hq, hp]; simp) hfront
    rw [ticketLevel_refreshLevel (by rw [hahead]; exact fun h => hnpre (by rw [hp]; exact List.mem_append_left _ h))]
    exact hpre j hj t ht ha
  · obtain rfl := List.mem_singleton.1 hj
    cases hu : y.ticketAt j with
    | none =>
      rw [(restates_refreshLevel e y j).free j hu] at ht
      cases ht
    | some u =>
      obtain ⟨v, hv, hx⟩ := (restates_refreshLevel e y j).tickets j u hu
      obtain rfl := Option.some.inj (ht.symm.trans hv)
      have hsame := refreshLevel_same (e := e) hu (hx.active.symm.trans ha)
      obtain rfl := Option.some.inj (ht.symm.trans hsame)
      rw [ticketLevel_refreshLevel (by rwa [ahead_of_split y j pre rest hq hnpre])]
      exact ticketLevel_relevel.symm

theorem leveledAt_refreshEach (rest pre : List Nat) (y : Yard) (hq : y.moveQueue = pre ++ rest) (hn : y.moveQueue.Nodup)
    (hpre : ∀ j ∈ pre, y.leveledAt e j) : ∀ j ∈ pre ++ rest, (forEach rest (refreshLevel e) y).leveledAt e j := by
  unfold forEach
  induction rest generalizing y pre with
  | nil => simpa using hpre
  | cons n rest ih =>
    have hqueue := (restates_refreshLevel e y n).moveQueue
    have h := ih (pre ++ [n]) (refreshLevel e y n) (by rw [hqueue, hq]; simp) (by rw [hqueue]; exact hn)
      (leveledAt_refreshLevel hq hn hpre)
    simpa using h

/-- R123: every active ticket has the level that it is to have. -/
def Yard.leveled (e : Site) (y : Yard) : Prop := ∀ slot, y.leveledAt e slot

theorem leveled_refreshLevels (hl : y.listed) : (refreshLevels e y).leveled e := by
  intro slot t ht ha
  have hr := restates_refreshLevels e y
  have hmem : slot ∈ y.moveQueue := (hl.2 slot).2 (by rw [← hr.isSome, ht]; rfl)
  exact leveledAt_refreshEach (e := e) y.moveQueue [] y rfl hl.1 (fun j hj => by cases hj) slot hmem t ht ha

/-- The evaluation of the wait reasons leaves the levels in place. -/
theorem leveled_extends (hl : y.listed) (h : Yard.Extends true y y') (hf : y'.fixed = y.fixed) (hy : y.leveled e)
    (hmade : ∀ j t, y.ticketAt j = none → y'.ticketAt j = some t → t.level = ticketLevel e y' j t) : y'.leveled e := by
  intro j t' ht' ha
  cases hj : y.ticketAt j with
  | none => exact hmade j t' hj ht'
  | some t =>
    obtain ⟨v, hv, hx⟩ := h.tickets j t hj
    obtain rfl := Option.some.inj (ht'.symm.trans hv)
    rw [ticketLevel_extends hl h hf hj ht', hx.level rfl]
    exact hy j t hj (hx.active.symm.trans ha)

theorem Yard.Extends.no_new {q : Bool} (h : Yard.Extends q y y') (hq : y'.moveQueue = y.moveQueue) {j : Nat}
    (hj : y.ticketAt j = none) : y'.ticketAt j = none := by
  obtain ⟨m, hm, -, hmem⟩ := h.queue
  rw [hq, List.self_eq_append_right] at hm
  subst hm
  by_contra hne
  have := (hmem j).2 ⟨hj, Option.isSome_iff_ne_none.2 hne⟩
  cases this

/-! ## Levels kept -/

/-- From the yard `y` to `y'` a ticket that takes its level from nothing more keeps the level it had (R123). -/
structure Yard.KeepsLevels (y y' : Yard) : Prop where
  extends' : Yard.Extends false y y'
  fixed    : y'.fixed = y.fixed
  level    : y.listed → ∀ slot t t', y.ticketAt slot = some t → y'.ticketAt slot = some t' → ¬y.takesLevel slot t →
    t'.level = t.level

theorem Yard.KeepsLevels.refl (y : Yard) : Yard.KeepsLevels y y := ⟨.refl y, rfl, fun _ slot t t' ht ht' _ => by
  obtain rfl := Option.some.inj (ht.symm.trans ht')
  rfl⟩

theorem Yard.KeepsLevels.trans {y'' : Yard} (h : Yard.KeepsLevels y y') (k : Yard.KeepsLevels y' y'') :
    Yard.KeepsLevels y y'' where
  extends' := h.extends'.trans k.extends'
  fixed := k.fixed.trans h.fixed
  level hl slot t t'' ht ht'' hkept := by
    obtain ⟨t', ht', -⟩ := h.extends'.tickets slot t ht
    refine (k.level (h.extends'.listed hl.1 hl.2) slot t' t'' ht' ht'' ?_).trans (h.level hl slot t t' ht ht' hkept)
    exact mt (takesLevel_extends hl h.extends' h.fixed ht ht').1 hkept

theorem Yard.KeepsLevels.of_extends (h : Yard.Extends true y y') (hf : y'.fixed = y.fixed) : Yard.KeepsLevels y y' where
  extends' := h.weaken
  fixed := hf
  level _ slot t t' ht ht' _ := by
    obtain ⟨u, hu, hx⟩ := h.tickets slot t ht
    obtain rfl := Option.some.inj (ht'.symm.trans hu)
    exact hx.level rfl

theorem keepsLevels_refreshLevel (e : Site) (y : Yard) (n : Nat) : Yard.KeepsLevels y (refreshLevel e y n) where
  extends' := extends_refreshLevel e y n
  fixed := fixed_refreshLevel e y n
  level _ slot t t' ht ht' hkept := by
    by_cases hn : n = slot
    · subst hn
      obtain ⟨u, hu, hx⟩ := (extends_refreshLevel e y n).tickets n t ht
      obtain rfl := Option.some.inj (ht'.symm.trans hu)
      by_cases ha : t.state.isActive = true
      · obtain rfl := Option.some.inj (ht'.symm.trans (refreshLevel_same (e := e) ht ha))
        exact ticketLevel_kept hkept
      · rw [hx.done (Bool.eq_false_iff.2 ha)]
    · rw [refreshLevel_ne e y hn] at ht'
      obtain rfl := Option.some.inj (ht.symm.trans ht')
      rfl

theorem keepsLevels_refreshLevels (e : Site) (y : Yard) : Yard.KeepsLevels y (refreshLevels e y) := by
  unfold refreshLevels forEach
  generalize y.moveQueue = slots
  induction slots generalizing y with
  | nil => exact .refl y
  | cons n slots ih => exact (keepsLevels_refreshLevel e y n).trans (ih _)

theorem keepsLevels_followUp (e : Site) (y : Yard) : Yard.KeepsLevels y (followUp e y) := by
  unfold followUp
  refine ((((Yard.KeepsLevels.of_extends (extends_promoteAll y) (fixed_promoteAll y)).trans
    (keepsLevels_refreshLevels e _)).trans (.of_extends (extends_waitingWork e _ _) (fixed_waitingWork e _ _))).trans
      (keepsLevels_refreshLevels e _)).trans (.of_extends (extends_refreshAll e _) (fixed_refreshAll e _))

/-- R123: after the follow-up work every active ticket has the level that it is to have. -/
theorem leveled_followUp (hl : y.listed) : (followUp e y).leveled e := by
  unfold followUp
  set w := waitingWork e 48 (refreshLevels e (promoteAll y)) with hw
  have hwork : Yard.Extends false y w :=
    ((extends_promoteAll y).trans (extends_refreshLevels e _)).trans (extends_waitingWork e _ _)
  have hlw : w.listed := hwork.listed hl.1 hl.2
  have hll : (refreshLevels e w).listed := (extends_refreshLevels e w).listed hlw.1 hlw.2
  have hall : Yard.Extends true (refreshLevels e w) (refreshAll e (refreshLevels e w)) := extends_refreshAll e _
  refine leveled_extends hll hall (fixed_refreshAll e _) (leveled_refreshLevels hlw) fun j t hj ht => ?_
  rw [hall.no_new (restates_refreshAll e _).moveQueue hj] at ht
  cases ht

end

end Sys2Proof.Machine
end

