-- ==== Sys2Proof/Proofs/EvaluatedLevels.lean ====
section
/-! PROOF. The YIELD tickets that an evaluation makes (R147), and that an evaluation leaves every effective level as R123 has
it. -/

namespace Sys2Proof.Machine

section
variable {e : Site} {y y' : Yard} {slot k : Nat} {t : Ticket}

/-! ## A YIELD made (R147) -/

/-- R122: one waiting ticket evaluated, as a change of its record. -/
theorem refreshTicket_eq (ht : y.ticketAt slot = some t) (hw : t.state = .pending ∨ t.state = .ready) :
    refreshTicket e y slot = y.updTicket slot (fun u => { u with
      waits := evalWaits e y slot t
      state := if evalWaits e y slot t = .none then .ready else .pending }) := by
  unfold refreshTicket
  simp only [ht, hw, if_true]

/-- R147: the YIELD made for a ticket, evaluated. -/
def Ticket.yieldFor (e : Site) (served : Handle) (level target : Nat) : Ticket :=
  ⟨.yield, none, none, some (.bay target), level, level, false, false, none, some served, none,
    if e.stop then .pending else .ready, false, false, ⟨false, false, false, false, false, e.stop, false⟩, .none, false⟩

/-- The records after a YIELD has been made in the slot `free` for crane `j`. -/
structure Yard.YieldMade (e : Site) (served : Handle) (level target free j : Nat) (y y' : Yard) : Prop where
  made   : y'.ticketSlot free = ⟨(y.ticketSlot free).gen, some (Ticket.yieldFor e served level target)⟩
  others : ∀ n, n ≠ free → y'.ticketSlot n = y.ticketSlot n
  queue  : y'.moveQueue = y.moveQueue ++ [free]
  arb    : y'.arbiter = upd y.arbiter j (fun a => { a with bound := some (y.ticketHandle free) })
  rest   : { y' with tickets := y.tickets, moveQueue := y.moveQueue, arbiter := y.arbiter } = y

theorem makeYield_made {served : Handle} {level j target free : Nat} {i : Interval} (hfree : y.freeTicketSlot = some free)
    (htarget : yieldTarget k j i = some target) :
    Yard.YieldMade e served level target free j y (makeYield e served level k i y j) := by
  obtain ⟨hlt, -⟩ := Yard.freeTicketSlot_free hfree
  obtain ⟨fresh, hfresh⟩ : ∃ u : Ticket,
      u = { Ticket.fresh .yield none none (some (.bay target)) level with serves := some served } := ⟨_, rfl⟩
  have hgen : (y.placeTicket free fresh).ticketHandle free = y.ticketHandle free :=
    congrArg (Handle.mk free) (proj_getOr_upd TicketSlot.gen y.tickets free (fun ts => { ts with ticket := some fresh })
      ⟨0, none⟩ rfl free)
  obtain ⟨z, hz⟩ : ∃ z, z = (y.placeTicket free fresh).updArb j (fun a => { a with bound := some (y.ticketHandle free) }) :=
    ⟨_, rfl⟩
  have hat : z.ticketAt free = some fresh := by
    rw [hz]
    exact (ticketAt_placeTicket y free free fresh hlt).trans (if_pos rfl)
  have hmake : makeYield e served level k i y j
      = z.updTicket free (fun u => { u with
          waits := ⟨false, false, false, false, false, e.stop, false⟩
          state := if e.stop then .pending else .ready }) := by
    have hwaits : evalWaits e z free fresh = ⟨false, false, false, false, false, e.stop, false⟩ :=
      evalWaits_bay (.inl (by rw [hfresh]; rfl))
    have hstate : (if evalWaits e z free fresh = .none then TicketState.ready else .pending)
        = if e.stop then .pending else .ready := by
      rw [hwaits]
      cases e.stop <;> rfl
    have hrefresh := refreshTicket_eq (e := e) hat (.inl (by rw [hfresh]; rfl))
    rw [hstate, hwaits] at hrefresh
    unfold makeYield
    simp only [hfree, htarget]
    rw [← hfresh, hgen, ← hz]
    exact hrefresh
  have hother : ∀ n, n ≠ free → z.ticketSlot n = y.ticketSlot n := fun n hn => by
    rw [hz]
    exact getOr_upd_ne _ _ _ _ _ hn.symm
  have hslot : z.ticketSlot free = ⟨(y.ticketSlot free).gen, some fresh⟩ := by
    rw [hz]
    exact getOr_upd_same _ _ _ _ hlt
  rw [hmake]
  refine ⟨?_, fun n hn => (updTicket_slot_ne z free n _ hn).trans (hother n hn), by rw [hz]; rfl, by rw [hz]; rfl,
    by rw [hz]; rfl⟩
  rw [updTicket_slot z free _ hlt, hslot, hat, hfresh]
  rfl

theorem makeYield_full {served : Handle} {level j : Nat} {i : Interval} (hfree : y.freeTicketSlot = none) :
    makeYield e served level k i y j = y := by
  unfold makeYield
  rw [hfree]

/-! ## The levels while the arbiter goes on (R123, R141) -/

/-- R115: the ticket next in a walk is of the queue. -/
theorem nextReady_mem {last : Nat} (h : nextReady y last = some slot) : slot ∈ y.moveQueue :=
  (List.mem_filter.1 (leastBy_mem h)).1

/-- What every examination of a READY ticket keeps, a walk keeps. -/
theorem walk_keeps {P : Yard → Prop} (h : ∀ y slot t, P y → slot ∈ y.moveQueue → y.ticketAt slot = some t →
    t.state = .ready → P (examine e y slot).1) (n last : Nat) (y : Yard) (hy : P y) : P (walk e n last y).1 := by
  induction n generalizing last y with
  | zero => exact hy
  | succ n ih =>
    unfold walk
    split
    · exact hy
    · rename_i slot hslot
      obtain ⟨t, ht, hr⟩ := nextReady_ready hslot
      exact ih _ _ (h y slot t hy (nextReady_mem hslot) ht hr)

/-- What every walk keeps, an evaluation keeps. -/
theorem evaluate_keeps {P : Yard → Prop} (h : ∀ y slot t, P y → slot ∈ y.moveQueue → y.ticketAt slot = some t →
    t.state = .ready → P (examine e y slot).1) (hy : P y) : P (evaluate e y) := by
  have hwalks : ∀ n y, P y → P (walks e n y) := by
    intro n
    induction n with
    | zero => exact fun _ hy => hy
    | succ n ih =>
      intro y hy
      unfold walks
      dsimp only
      split
      · exact ih _ (walk_keeps h _ _ _ hy)
      · exact walk_keeps h _ _ _ hy
  unfold evaluate
  split
  · exact hy
  · exact hwalks _ _ hy

/-- R115, R123: the queue lists the slots in use, and every active ticket has the level that it is to have. -/
def Yard.settled (e : Site) (y : Yard) : Prop := y.listed ∧ y.leveled e

theorem settled_of_queue (h : y.settled e) (hx : Yard.Extends true y y') (hf : y'.fixed = y.fixed)
    (hq : y'.moveQueue = y.moveQueue) : y'.settled e :=
  ⟨hx.listed h.1.1 h.1.2, leveled_extends h.1 hx hf h.2 fun j t hj ht => by
    rw [hx.no_new hq hj] at ht
    cases ht⟩

theorem grant_moveQueue (y : Yard) : (grant e y slot k t).moveQueue = y.moveQueue := rfl

theorem refreshTicket_moveQueue (e : Site) (y : Yard) (n : Nat) : (refreshTicket e y n).moveQueue = y.moveQueue :=
  (restates_refreshTicket e y n).moveQueue

theorem returnTicket_moveQueue (y : Yard) (n : Nat) : (returnTicket e y n).moveQueue = y.moveQueue := by
  unfold returnTicket
  rw [refreshTicket_moveQueue, Yard.updTicket_moveQueue]

theorem preempt_moveQueue : (preempt e y slot k t).moveQueue = y.moveQueue := by
  unfold preempt
  split
  · rw [grant_moveQueue, returnTicket_moveQueue]
  · rfl

/-- R123, R147: a YIELD takes the level of the ticket that it serves, which stands ahead of it. -/
theorem settled_makeYield {j : Nat} {i : Interval} (h : y.settled e) (hslot : slot ∈ y.moveQueue)
    (ht : y.ticketAt slot = some t) (ha : t.state.isActive = true) (hb : (y.arb j).bound = none) :
    (makeYield e (y.ticketHandle slot) t.level k i y j).settled e := by
  have hx : Yard.Extends true y (makeYield e (y.ticketHandle slot) t.level k i y j) := extends_makeYield e _ _ k i y j hb
  have hf := fixed_makeYield e (y.ticketHandle slot) t.level k i y j
  cases hfree : y.freeTicketSlot with
  | none => rwa [makeYield_full hfree]
  | some free =>
    cases htarget : yieldTarget k j i with
    | none => rwa [makeYield, hfree, htarget]
    | some target =>
      have hm := makeYield_made (e := e) (served := y.ticketHandle slot) (level := t.level) hfree htarget
      refine ⟨hx.listed h.1.1 h.1.2, leveled_extends h.1 hx hf h.2 fun n u hn hu => ?_⟩
      obtain ⟨-, hnone⟩ := Yard.freeTicketSlot_free hfree
      have hnotin : free ∉ y.moveQueue := fun hmem => by
        have := (h.1.2 free).1 hmem
        rw [hnone] at this
        cases this
      have hne : slot ≠ free := fun heq => hnotin (heq ▸ hslot)
      obtain rfl : n = free := by
        by_contra hnf
        have : y.ticketAt n = some u := (congrArg TicketSlot.ticket (hm.others n hnf)).symm.trans hu
        rw [hn] at this
        cases this
      obtain rfl : Ticket.yieldFor e (y.ticketHandle slot) t.level target = u :=
        Option.some.inj ((congrArg TicketSlot.ticket hm.made).symm.trans hu)
      refine (ticketLevel_serving (.inr rfl) ⟨ha, y.ticketHandle slot, rfl, Yard.ticket?_eq_some.2 ⟨?_, ?_⟩, ?_⟩).symm
      · exact congrArg TicketSlot.gen (hm.others slot hne)
      · exact (congrArg TicketSlot.ticket (hm.others slot hne)).trans ht
      · rwa [ahead_of_split _ n y.moveQueue [] hm.queue hnotin]

theorem settled_makeYieldEach {i : Interval} (served : Handle) (js : List Nat) (y : Yard) (h : y.settled e)
    (hslot : slot ∈ y.moveQueue) (hserved : y.ticketHandle slot = served) (ht : y.ticketAt slot = some t)
    (ha : t.state.isActive = true) (hn : js.Nodup) (hb : ∀ j ∈ js, (y.arb j).bound = none) :
    (forEach js (makeYield e served t.level k i) y).settled e := by
  unfold forEach
  induction js generalizing y with
  | nil => exact h
  | cons j js ih =>
    obtain ⟨hj, hjs⟩ := List.nodup_cons.1 hn
    subst hserved
    have hx : Yard.Extends true y (makeYield e (y.ticketHandle slot) t.level k i y j) :=
      extends_makeYield e _ _ k i y j (hb j List.mem_cons_self)
    have hgen := gen_of_fixed (fixed_makeYield e (y.ticketHandle slot) t.level k i y j) slot
    refine ih _ (settled_makeYield h hslot ht ha (hb j List.mem_cons_self)) ?_ (congrArg (Handle.mk slot) hgen)
      (makeYield_ticketAt ht) hjs fun n hmem => ?_
    · obtain ⟨m, hm, -⟩ := hx.queue
      rw [hm]
      exact List.mem_append_left _ hslot
    · rw [makeYield_bound e _ _ k i y fun h : j = n => hj (h ▸ hmem)]
      exact hb n (List.mem_cons_of_mem _ hmem)

theorem settled_examine (h : y.settled e) (hslot : slot ∈ y.moveQueue) (ht : y.ticketAt slot = some t)
    (hr : t.state = .ready) : (examine e y slot).1.settled e := by
  have ha : t.state.isActive = true := by rw [hr]; rfl
  have hact : y.activeAt slot = true := (activeAt_iff _ _).2 ⟨t, ht, ha⟩
  unfold examine
  rw [ht]
  dsimp only
  split
  · exact settled_of_queue h (extends_grant e y slot _ _ hact) (fixed_grant e y slot _ _) (grant_moveQueue y)
  · split
    · split
      · exact settled_of_queue h (extends_preempt e y slot _ _ hact) (fixed_preempt e y slot _ _) preempt_moveQueue
      · split
        · rename_i n hn
          have hc := yieldCrane_candidate hn
          unfold yieldCandidate at hc
          unfold makeYields
          split
          · rename_i i hi
            simp only [hi, Bool.and_eq_true, List.all_eq_true] at hc
            exact settled_makeYieldEach _ _ y h hslot rfl ht ha (blockers_nodup y n i)
              fun j hj => mayYield_bound (hc.2.2 j hj)
          · exact h
        · exact h
    · exact h

theorem settled_evaluate (h : y.settled e) : (evaluate e y).settled e :=
  evaluate_keeps (P := fun y => y.settled e) (fun _ _ _ h hslot ht hr => settled_examine h hslot ht hr) h

theorem keepsLevels_evaluate (e : Site) (y : Yard) : Yard.KeepsLevels y (evaluate e y) :=
  .of_extends (extends_evaluate e y) (fixed_evaluate e y)

theorem settled_followUp (hl : y.listed) : (followUp e y).settled e :=
  ⟨(extends_followUp e y).listed hl.1 hl.2, leveled_followUp hl⟩

/-- R141: what follows a change, by whether it was an occasion. -/
theorem settle_eq (e : Site) (y0 y : Yard) :
    settle e y0 y = if occasion y0 (followUp e y) then settleClaim e y else followUp e y := rfl

/-- R123: what every change that follows leaves, with the arbiter or without. -/
theorem settled_after {y0 z : Yard} (hl : y.listed) (hz : z = followUp e y ∨ z = settle e y0 y ∨ z = settleClaim e y) :
    z.settled e ∧ Yard.KeepsLevels y z := by
  have hfollow := And.intro (settled_followUp (e := e) hl) (keepsLevels_followUp e y)
  have heval : (settleClaim e y).settled e ∧ Yard.KeepsLevels y (settleClaim e y) :=
    ⟨settled_evaluate hfollow.1, hfollow.2.trans (keepsLevels_evaluate e _)⟩
  have hcases : z = followUp e y ∨ z = settleClaim e y := by
    rcases hz with hz | hz | hz
    · exact .inl hz
    · rw [settle_eq] at hz
      split at hz
      · exact .inr hz
      · exact .inl hz
    · exact .inr hz
  rcases hcases with h | h
  · exact h.symm ▸ hfollow
  · exact h.symm ▸ heval

/-- R123: a ticket that takes its level from nothing keeps the level it had before the change. -/
theorem Yard.KeepsLevels.kept (hl : y.listed) (h : Yard.KeepsLevels y y') (ht : y'.ticketAt slot = some t)
    (hkept : ¬y'.takesLevel slot t) : ∀ u, y.ticketAt slot = some u → t.level = u.level := fun u hu =>
  h.level hl slot u t hu ht (mt (takesLevel_extends hl h.extends' h.fixed hu ht).2 hkept)

end

end Sys2Proof.Machine
end

