-- ==== Sys2Proof/Proofs/Promotions.lean ====
section
/-! PROOF. Promotion (R126): buried tickets take their LIFT claims one after another, the first of the queue first, until the
list is full or no piece of a buried ticket is the projection top. -/

namespace Sys2Proof.Machine

section
variable {e : Site} {y y' : Yard} {i slot : Nat}

/-- R126: the ticket in the slot is buried in the stack, and its piece is the projection top. -/
def Yard.promotesAt (y : Yard) (i slot : Nat) : Prop := ∃ t p tier, y.ticketAt slot = some t
  ∧ (t.state = .pending ∨ t.state = .ready) ∧ t.source = some (.stack i tier) ∧ t.piece = some p
  ∧ ⟨.lift, y.ticketHandle slot⟩ ∉ (y.stack i).claims ∧ (projection y i).getLast? = some p

theorem buriedIn_iff : buriedIn y slot = some i ↔ ∃ t tier, y.ticketAt slot = some t
    ∧ (t.state = .pending ∨ t.state = .ready) ∧ t.source = some (.stack i tier)
    ∧ ⟨.lift, y.ticketHandle slot⟩ ∉ (y.stack i).claims := by
  constructor
  · intro h
    obtain ⟨t, ht, hw, tier, hs⟩ := buriedIn_some h
    rw [buriedIn_stack ht hw hs] at h
    split at h
    · cases h
    · rename_i hlift
      exact ⟨t, tier, ht, hw, hs, hlift⟩
  · rintro ⟨t, tier, ht, hw, hs, hlift⟩
    rw [buriedIn_stack ht hw hs, if_neg hlift]

theorem promotesAt_iff {top : Handle} (htop : (projection y i).getLast? = some top) : y.promotesAt i slot
    ↔ (decide (buriedIn y slot = some i) && decide ((y.ticketAt slot).bind (fun t => t.piece) = some top)) = true := by
  rw [Bool.and_eq_true, decide_eq_true_eq, decide_eq_true_eq, buriedIn_iff, Option.bind_eq_some_iff]
  constructor
  · rintro ⟨t, p, tier, ht, hw, hs, hp, hlift, hproj⟩
    obtain rfl := Option.some.inj (htop.symm.trans hproj)
    exact ⟨⟨t, tier, ht, hw, hs, hlift⟩, t, ht, hp⟩
  · rintro ⟨⟨t, tier, ht, hw, hs, hlift⟩, u, hu, hp⟩
    obtain rfl := Option.some.inj (ht.symm.trans hu)
    exact ⟨t, top, tier, ht, hw, hs, hp, hlift, htop⟩

/-- The first of a list in the order of the list. -/
theorem find?_eq_some_of_first {p : Nat → Bool} {l : List Nat} {a : Nat} (ha : a ∈ l) (hp : p a = true)
    (hfirst : ∀ b ∈ l, p b = true → l.idxOf a ≤ l.idxOf b) : l.find? p = some a := by
  induction l with
  | nil => cases ha
  | cons x xs ih =>
    by_cases hx : x = a
    · subst hx
      rw [List.find?_cons_of_pos hp]
    · have hpx : ¬p x = true := fun h => by
        have := hfirst x List.mem_cons_self h
        rw [List.idxOf_cons_self, List.idxOf_cons_ne _ hx] at this
        omega
      rw [List.find?_cons_of_neg hpx]
      refine ih ((List.mem_cons.1 ha).resolve_left (Ne.symm hx)) fun b hb hpb => ?_
      have hxb : x ≠ b := fun h => hpx (h ▸ hpb)
      have := hfirst b (List.mem_cons_of_mem _ hb) hpb
      rw [List.idxOf_cons_ne _ hx, List.idxOf_cons_ne _ hxb] at this
      omega

/-- R126: none may follow. -/
theorem promotable_eq_none : promotable y i = none ↔ ∀ slot ∈ y.moveQueue, ¬y.promotesAt i slot := by
  unfold promotable
  split
  · rename_i hnone
    refine ⟨fun _ slot _ ⟨t, p, tier, _, _, _, _, _, hp⟩ => ?_, fun _ => rfl⟩
    rw [hnone] at hp
    cases hp
  · rename_i top htop
    rw [List.find?_eq_none]
    simp only [promotesAt_iff htop]

/-- R126: the first in the queue of those that may follow. -/
theorem promotable_eq_first (hslot : slot ∈ y.moveQueue) (h : y.promotesAt i slot)
    (hfirst : ∀ other ∈ y.moveQueue, y.promotesAt i other → y.moveQueue.idxOf slot ≤ y.moveQueue.idxOf other) :
    promotable y i = some slot := by
  obtain ⟨-, top, -, -, -, -, -, -, htop⟩ := id h
  unfold promotable
  rw [htop]
  exact find?_eq_some_of_first hslot ((promotesAt_iff htop).1 h) fun b hb hpb => hfirst b hb ((promotesAt_iff htop).2 hpb)

/-! ## The walk of promotions -/

/-- R94, R126: one buried ticket takes its LIFT claim. -/
def promoted (y : Yard) (i slot : Nat) : Yard := lowerBuried (appendClaim y i ⟨.lift, y.ticketHandle slot⟩) i

/-- R126: the list of the stack is full, or no ticket may follow. -/
def Yard.promotedOut (y : Yard) (i : Nat) : Prop := 4 ≤ (y.stack i).claims.length ∨ promotable y i = none

theorem promoted_stack (hi : i < 40) : (promoted y i slot).stack i = { y.stack i with
    claims := (y.stack i).claims ++ [⟨.lift, y.ticketHandle slot⟩]
    buried := (y.stack i).buried - 1
    digLock := decide (1 < (y.stack i).buried) } := by
  unfold promoted lowerBuried appendClaim
  rw [Yard.stack_updStack_same _ _ _ hi, Yard.stack_updStack_same _ _ _ hi]
  unfold setBuried
  simp only [gt_iff_lt, Nat.sub_pos_iff_lt]

theorem promoted_stack_ne {j : Nat} (hj : j ≠ i) : (promoted y i slot).stack j = y.stack j := by
  unfold promoted lowerBuried appendClaim
  rw [Yard.stack_updStack_ne _ _ _ _ hj.symm, Yard.stack_updStack_ne _ _ _ _ hj.symm]

theorem promoteUpTo_done (n : Nat) (h : y.promotedOut i) : promoteUpTo n i y = y := by
  cases n with
  | zero => rfl
  | succ n =>
    unfold promoteUpTo
    rcases h with h | h
    · exact if_neg (by omega)
    · rw [h]
      exact ite_self _

theorem promoteUpTo_step (n : Nat) (hroom : (y.stack i).claims.length < 4) (h : promotable y i = some slot) :
    promoteUpTo (n + 1) i y = promoteUpTo n i (promoted y i slot) := by
  rw [promoteUpTo, if_pos hroom, h]
  rfl

/-- R126: the promotions of a stack are at most as many as its list has places. -/
theorem promoteUpTo_fuel (hi : i < 40) : ∀ (n m : Nat) (y : Yard), 4 ≤ (y.stack i).claims.length + n →
    4 ≤ (y.stack i).claims.length + m → promoteUpTo n i y = promoteUpTo m i y
  | 0, m, y, hn, _ => (promoteUpTo_done (y := y) m (.inl (by omega))).symm
  | n + 1, 0, y, _, hm => promoteUpTo_done (n + 1) (.inl (by omega))
  | n + 1, m + 1, y, hn, hm => by
    by_cases hroom : (y.stack i).claims.length < 4
    · cases hp : promotable y i with
      | none => rw [promoteUpTo_done _ (.inr hp), promoteUpTo_done _ (.inr hp)]
      | some slot =>
        rw [promoteUpTo_step n hroom hp, promoteUpTo_step m hroom hp]
        have hlen : ((promoted y i slot).stack i).claims.length = (y.stack i).claims.length + 1 := by
          rw [promoted_stack hi, List.length_append, List.length_singleton]
        exact promoteUpTo_fuel hi n m _ (by omega) (by omega)
    · rw [promoteUpTo_done _ (.inl (by omega)), promoteUpTo_done _ (.inl (by omega))]

/-- R126: after the promotions the list is full, or no ticket may follow. -/
theorem promotedOut_promoteUpTo (hi : i < 40) : ∀ (n : Nat) (y : Yard), 4 ≤ (y.stack i).claims.length + n →
    (promoteUpTo n i y).promotedOut i
  | 0, y, hn => .inl (show 4 ≤ (y.stack i).claims.length by omega)
  | n + 1, y, hn => by
    by_cases hroom : (y.stack i).claims.length < 4
    · cases hp : promotable y i with
      | none =>
        rw [promoteUpTo_done _ (.inr hp)]
        exact .inr hp
      | some slot =>
        rw [promoteUpTo_step n hroom hp]
        refine promotedOut_promoteUpTo hi n _ ?_
        rw [promoted_stack hi, List.length_append, List.length_singleton]
        omega
    · rw [promoteUpTo_done _ (.inl (by omega))]
      exact .inl (by omega)

theorem promote_done (h : y.promotedOut i) : promote i y = y := promoteUpTo_done 4 h

/-- R126: the first of those that may follow is promoted, then the next. -/
theorem promote_step (hi : i < 40) (hroom : (y.stack i).claims.length < 4) (h : promotable y i = some slot) :
    promote i y = promote i (promoted y i slot) := by
  unfold promote
  rw [promoteUpTo_step 3 hroom h]
  refine promoteUpTo_fuel hi 3 4 _ ?_ (by omega)
  rw [promoted_stack hi, List.length_append, List.length_singleton]
  omega

theorem promotedOut_promote (hi : i < 40) (y : Yard) : (promote i y).promotedOut i :=
  promotedOut_promoteUpTo hi 4 y (by omega)

/-! ## The stacks are promoted one by one -/

/-- R88: the projection of a stack reads its record and the pieces of the tickets that hold claims. -/
theorem projection_congr (hp : ∀ h, y'.ticketPiece h = y.ticketPiece h) (hs : y'.stack i = y.stack i) :
    projection y' i = projection y i := by
  have happly : applyClaim y' = applyClaim y := by
    funext proj c
    unfold applyClaim
    rw [hp]
  unfold projection
  rw [happly, hs]

theorem promotesAt_congr (ht : y'.tickets = y.tickets) (hs : y'.stack i = y.stack i) :
    y'.promotesAt i slot ↔ y.promotesAt i slot := by
  have hslot : ∀ j, y'.ticketSlot j = y.ticketSlot j := fun j => congrArg (fun v => getOr v j (⟨0, none⟩ : TicketSlot)) ht
  have hproj : projection y' i = projection y i := projection_congr (fun h => by
    unfold Yard.ticketPiece Yard.ticket?
    rw [hslot]) hs
  unfold Yard.promotesAt Yard.ticketAt Yard.ticketHandle
  rw [hslot, hs, hproj]

theorem promotedOut_congr (ht : y'.tickets = y.tickets) (hq : y'.moveQueue = y.moveQueue) (hs : y'.stack i = y.stack i)
    (h : y.promotedOut i) : y'.promotedOut i := by
  unfold Yard.promotedOut at h ⊢
  rw [promotable_eq_none] at h ⊢
  rw [hs, hq]
  simpa only [promotesAt_congr ht hs] using h

/-- R126: the promotions of a stack write that stack alone. -/
theorem promoteUpTo_frame (n s : Nat) (y : Yard) : { promoteUpTo n s y with stackRecs := y.stackRecs } = y
    ∧ ∀ j, j ≠ s → (promoteUpTo n s y).stack j = y.stack j := by
  induction n generalizing y with
  | zero => exact ⟨rfl, fun _ _ => rfl⟩
  | succ n ih =>
    unfold promoteUpTo
    split
    · split
      · rename_i slot _
        obtain ⟨hrest, hother⟩ := ih (promoted y s slot)
        refine ⟨?_, fun j hj => (hother j hj).trans (promoted_stack_ne hj)⟩
        exact congrArg (fun z : Yard => { z with stackRecs := y.stackRecs }) hrest
      · exact ⟨rfl, fun _ _ => rfl⟩
    · exact ⟨rfl, fun _ _ => rfl⟩

theorem promote_frame (s : Nat) (y : Yard) : { promote s y with stackRecs := y.stackRecs } = y
    ∧ ∀ j, j ≠ s → (promote s y).stack j = y.stack j := promoteUpTo_frame 4 s y

/-- The promotions of another stack leave this one as it is. -/
theorem promotedOut_promote_ne {s : Nat} (hs : s ≠ i) (h : y.promotedOut i) : (promote s y).promotedOut i := by
  obtain ⟨hrest, hother⟩ := promote_frame s y
  exact promotedOut_congr (congrArg Yard.tickets hrest :) (congrArg Yard.moveQueue hrest :) (hother i hs.symm) h

theorem promotedOut_promoteEach (hi : i < 40) (xs : List Nat) (y : Yard)
    (h : i ∈ xs ∨ (0 < (y.stack i).buried → y.promotedOut i)) :
    0 < ((forEach xs (fun y s => if (y.stack s).buried > 0 then promote s y else y) y).stack i).buried →
      (forEach xs (fun y s => if (y.stack s).buried > 0 then promote s y else y) y).promotedOut i := by
  unfold forEach
  induction xs generalizing y with
  | nil => exact h.resolve_left List.not_mem_nil
  | cons s xs ih =>
    refine ih _ ?_
    dsimp only
    by_cases hs : s = i
    · subst hs
      right
      intro hb
      split at hb
      · rename_i hpos
        rw [if_pos hpos]
        exact promotedOut_promote hi y
      · rename_i hpos
        exact absurd hb hpos
    · refine h.imp (fun h => (List.mem_cons.1 h).resolve_left (Ne.symm hs)) fun h hb => ?_
      split at hb
      · rename_i hpos
        rw [if_pos hpos]
        refine promotedOut_promote_ne hs (h ?_)
        rwa [(promote_frame s y).2 i (Ne.symm hs)] at hb
      · rename_i hpos
        rw [if_neg hpos]
        exact h hb

/-- R126: after the promotions of every stack none is left to be made. -/
theorem promote_promoteAll (hi : i < 40) (h : 0 < ((promoteAll y).stack i).buried) : promote i (promoteAll y) = promoteAll y :=
  promote_done (promotedOut_promoteEach hi _ y (.inl (List.mem_range.2 hi)) h)

/-! ## The occasions at which the promotions of a stack are tested -/

/-- R126: what `promote` does, in the words of the requirement: `may` names the slots whose tickets may follow. -/
theorem promote_first {may : Nat → Prop} (hi : i < 40) (hmay : ∀ slot, may slot ↔ slot ∈ y.moveQueue ∧ y.promotesAt i slot) :
    ((4 ≤ (y.stack i).claims.length ∨ ∀ slot, ¬may slot) → promote i y = y)
    ∧ ∀ slot, (y.stack i).claims.length < 4 → may slot →
      (∀ other, may other → y.moveQueue.idxOf slot ≤ y.moveQueue.idxOf other) → promote i y = promote i (promoted y i slot) := by
  refine ⟨fun h => promote_done (h.imp_right fun hnone => ?_), fun slot hroom hslot hfirst => ?_⟩
  · exact promotable_eq_none.2 fun slot hslot hp => hnone slot ((hmay slot).2 ⟨hslot, hp⟩)
  · obtain ⟨hmem, hp⟩ := (hmay slot).1 hslot
    exact promote_step hi hroom
      (promotable_eq_first hmem hp fun other hother hpo => hfirst other ((hmay other).2 ⟨hother, hpo⟩))

theorem promoted_frame (hi : i < 40) : (promoted y i slot).stack i = { y.stack i with
      claims := (y.stack i).claims ++ [⟨.lift, y.ticketHandle slot⟩]
      buried := (y.stack i).buried - 1
      digLock := decide (1 < (y.stack i).buried) }
    ∧ (∀ j, j ≠ i → (promoted y i slot).stack j = y.stack j) ∧ { promoted y i slot with stackRecs := y.stackRecs } = y :=
  ⟨promoted_stack hi, fun _ => promoted_stack_ne, rfl⟩

/-- R91 to R93: a claim that is not in the list is not removed; one that is leaves the list, which is repaired. -/
theorem removeClaim_frame (e : Site) (c : Claim) (hi : i < 40) : (c ∉ (y.stack i).claims → removeClaim e y i c = y)
    ∧ (c ∈ (y.stack i).claims → ∃ y1, removeClaim e y i c = promote i (repair e y1 i)
      ∧ y1.stack i = { y.stack i with claims := (y.stack i).claims.erase c }
      ∧ (∀ j, j ≠ i → y1.stack j = y.stack j) ∧ { y1 with stackRecs := y.stackRecs } = y) := by
  unfold removeClaim
  refine ⟨fun h => if_neg (by simpa using h), fun h => ?_⟩
  rw [if_pos (by simpa using h)]
  exact ⟨_, rfl, y.updStack_frame _ hi⟩

end

end Sys2Proof.Machine
end

