-- ==== Sys2Proof/Proofs/RedirectSearches.lean ====
section
/-! PROOF. The search of one ticket that waits for a destination (R111, R153, R185): when it finds none, and what is written when
it finds one. -/

namespace Sys2Proof.Machine

section
variable {e : Site} {y y' : Yard} {slot k i : Nat} {t : Ticket} {p : Handle} {src : Location}

/-! ## What is found (R100, R108, R109) -/

theorem chooseLane_lt {l : Nat} (h : chooseLane y = some l) : l < 2 := by
  unfold chooseLane at h
  split at h
  · split at h <;> cases h <;> decide
  · cases h
    decide
  · cases h
    decide
  · cases h

/-- R108: one stack of the search for the nearest. -/
def nearer (y : Yard) (bay : Nat) (ok : Nat → Bool) (best : Option Nat) (s : Nat) : Option Nat :=
  if ok s then
    match best with
    | some b => if distance (y.stack s).bay bay < distance (y.stack b).bay bay then some s else some b
    | none => some s
  else best

theorem nearer_eq_some {bay b s : Nat} {ok : Nat → Bool} {best : Option Nat} (h : nearer y bay ok best s = some b) :
    b = s ∨ best = some b := by
  unfold nearer at h
  split at h
  · split at h
    · split at h
      · exact .inl (Option.some.inj h).symm
      · exact .inr h
    · exact .inl (Option.some.inj h).symm
  · exact .inr h

/-- R108: a stack found is one of the 40. -/
theorem nearestStack_lt {bay b : Nat} {ok : Nat → Bool} (h : nearestStack y bay ok = some b) : b < 40 := by
  have hfold : ∀ (l : List Nat) (best : Option Nat), l.foldl (nearer y bay ok) best = some b → b ∈ l ∨ best = some b := by
    intro l
    induction l with
    | nil => exact fun best h => .inr h
    | cons x l ih =>
      intro best h
      rcases ih _ h with h | h
      · exact .inl (List.mem_cons_of_mem _ h)
      · exact (nearer_eq_some h).imp_left fun (hb : b = x) => hb ▸ List.mem_cons_self
  rcases hfold _ _ h with h | h
  · exact List.mem_range.1 h
  · cases h

theorem ladenStack_lt (h : ladenStack e y k p = some i) : i < 40 := by
  unfold ladenStack at h
  split at h
  · cases h
  · split at h
    · cases h
    · exact nearestStack_lt h

/-- R111: the unladen search gives a stack, or a lane to a STRIP. -/
theorem unladenDest_lt {d : Dest} (h : unladenDest e y t src p = some d) :
    (∃ i, i < 40 ∧ d = .stack i) ∨ ∃ l, l < 2 ∧ d = .lane l := by
  unfold unladenDest at h
  split at h
  · rename_i l hl
    refine .inr ⟨l, ?_, (Option.some.inj h).symm⟩
    split at hl
    · exact chooseLane_lt hl
    · cases hl
  · obtain ⟨i, hi, rfl⟩ := Option.map_eq_some_iff.1 h
    exact .inl ⟨i, nearestStack_lt hi, rfl⟩

/-! ## The search by the state of the ticket -/

/-- R111: a ticket is searched for while it has no destination and is LIFTED, PENDING or READY. -/
theorem redirectOne_settled (ht : y.ticketAt slot = some t)
    (h : t.dest ≠ none ∨ t.state ≠ .lifted ∧ t.state ≠ .pending ∧ t.state ≠ .ready) : redirectOne e y slot = y := by
  unfold redirectOne
  rw [ht]
  dsimp only
  split
  · rename_i hd _ _
    obtain ⟨hl, hp, hr⟩ := h.resolve_left fun h => h hd
    rw [if_neg hl, if_neg fun h => h.elim hp hr]
  · rfl

/-- R111: a ticket without a piece or without a source is not searched for. -/
theorem redirectOne_bare (ht : y.ticketAt slot = some t) (h : t.piece = none ∨ t.source = none) : redirectOne e y slot = y := by
  unfold redirectOne
  rw [ht]
  dsimp only
  split
  · rename_i hp hs
    rw [hp, hs] at h
    rcases h with h | h <;> cases h
  · rfl

theorem redirectOne_free (ht : y.ticketAt slot = none) : redirectOne e y slot = y := by
  unfold redirectOne
  rw [ht]

theorem redirectOne_unladen (ht : y.ticketAt slot = some t) (hd : t.dest = none) (hp : t.piece = some p)
    (hs : t.source = some src) (hw : t.state = .pending ∨ t.state = .ready) :
    redirectOne e y slot = ((unladenDest e y t src p).map (giveDest y slot)).getD y := by
  have hl : t.state ≠ .lifted := fun h => by
    rw [h] at hw
    rcases hw with h | h <;> cases h
  unfold redirectOne
  simp only [ht, hd, hp, hs, hl, hw, if_true, if_false]
  cases unladenDest e y t src p <;> rfl

/-- R111, R153: a LIFTED ticket is redirected to the stack that the laden search of its crane finds. -/
theorem redirectOne_laden (ht : y.ticketAt slot = some t) (hst : t.state = .lifted) :
    redirectOne e y slot = ((ladenTarget e y t).map (fun f => giveLaden e y slot f.1 f.2)).getD y := by
  cases hk : ladenTarget e y t with
  | none => exact redirectOne_stays ht hst hk
  | some f => exact redirectOne_found ht hst hk

theorem ladenTarget_eq (hd : t.dest = none) (hp : t.piece = some p) (hs : t.source = some src) (hc : t.crane = some k) :
    ladenTarget e y t = (ladenStack e y k p).map (fun s => (k, s)) := by
  unfold ladenTarget
  rw [hd, hp, hs, hc]

/-! ## What is written (R90, R93, R100, R153, R157, R185) -/

/-- R185: a ticket that is given a destination. -/
def Ticket.given (t : Ticket) (d : Dest) : Ticket :=
  { t with dest := some d, redirected := true, waits := { t.waits with redirect := false } }

theorem giveDest_stack_frame (ht : y.ticketAt slot = some t) (hi : i < 40) :
    (giveDest y slot (.stack i)).ticketSlot slot = ⟨(y.ticketSlot slot).gen, some (t.given (.stack i))⟩
    ∧ (giveDest y slot (.stack i)).stack i
      = { y.stack i with claims := (y.stack i).claims ++ [⟨.place, y.ticketHandle slot⟩] }
    ∧ (∀ j, j ≠ slot → (giveDest y slot (.stack i)).ticketSlot j = y.ticketSlot j)
    ∧ (∀ j, j ≠ i → (giveDest y slot (.stack i)).stack j = y.stack j)
    ∧ { giveDest y slot (.stack i) with tickets := y.tickets, stackRecs := y.stackRecs } = y := by
  refine ⟨?_, Yard.stack_updStack_same _ _ _ hi, fun j hj => updTicket_slot_ne y slot j _ hj,
    fun j hj => Yard.stack_updStack_ne _ _ _ _ hj.symm, rfl⟩
  refine (updTicket_slot y slot _ (Yard.ticketAt_lt _ _ _ ht)).trans ?_
  rw [ht]
  rfl

theorem giveDest_lane_frame {l : Nat} (ht : y.ticketAt slot = some t) (hl : l < 2) :
    (giveDest y slot (.lane l)).ticketSlot slot = ⟨(y.ticketSlot slot).gen, some (t.given (.lane l))⟩
    ∧ (giveDest y slot (.lane l)).lane l = { y.lane l with reservations := (y.lane l).reservations + 1 }
    ∧ (∀ j, j ≠ slot → (giveDest y slot (.lane l)).ticketSlot j = y.ticketSlot j)
    ∧ (∀ j, j ≠ l → (giveDest y slot (.lane l)).lane j = y.lane j)
    ∧ { giveDest y slot (.lane l) with tickets := y.tickets, lanes := y.lanes } = y := by
  refine ⟨?_, Yard.lane_updLane_same _ _ _ hl, fun j hj => updTicket_slot_ne y slot j _ hj,
    fun j hj => Yard.lane_updLane_ne _ _ _ _ hj.symm, rfl⟩
  refine (updTicket_slot y slot _ (Yard.ticketAt_lt _ _ _ ht)).trans ?_
  rw [ht]
  rfl

/-- R157: TRAVEL sent: the records of its crane and of the link, and nothing else. -/
theorem sendTravel_frame (e : Site) (y : Yard) (bay : Nat) (hk : k < 3) :
    (sendStage e y k .travel bay).crane k = { y.crane k with
      stage := some ⟨.travel, (y.crane k).nextSeq, bay⟩
      nextSeq := ((y.crane k).nextSeq + 1) % 256
      timer := if (y.crane k).halted then (y.crane k).timer else some ⟨e.settings.stageTimeout, false⟩ }
    ∧ (sendStage e y k .travel bay).link k
      = (y.link k).put (linkFrame 0x41 (y.crane k).nextSeq [BitVec.ofNat 8 bay])
    ∧ (∀ j, j ≠ k → (sendStage e y k .travel bay).crane j = y.crane j ∧ (sendStage e y k .travel bay).link j = y.link j)
    ∧ { sendStage e y k .travel bay with cranes := y.cranes, links := y.links } = y := by
  refine ⟨?_, sendFrame_link y k 0x41 (byte1 bay) hk, fun j hj => ⟨sendStage_crane_ne _ _ _ _ _ _ hj.symm, ?_⟩, rfl⟩
  · rw [sendStage_crane _ _ _ _ _ hk]
    unfold CraneRecord.restart
    dsimp only
    cases (y.crane k).halted <;> rfl
  · exact Yard.link_updLink_ne _ _ _ _ hj.symm

/-- R153, R185: what a laden redirect writes. -/
theorem giveLaden_frame {c : Interval} {bay : Nat} (hk : k < 3) (hi : i < 40) (ht : y.ticketAt slot = some t)
    (hc : y.claim k = some c) (hbay : bay = (y.stack i).bay) : ∃ y1, giveLaden e y slot k i = y1
    ∧ y1.ticketSlot slot = ⟨(y.ticketSlot slot).gen, some (t.given (.stack i))⟩
    ∧ y1.stack i = { y.stack i with claims := (y.stack i).claims ++ [⟨.place, y.ticketHandle slot⟩] }
    ∧ y1.arb k = { y.arb k with claim := some ⟨min c.lo bay, max c.hi bay⟩ }
    ∧ y1.crane k = { y.crane k with
        stage := some ⟨.travel, (y.crane k).nextSeq, bay⟩
        nextSeq := ((y.crane k).nextSeq + 1) % 256
        timer := if (y.crane k).halted then (y.crane k).timer else some ⟨e.settings.stageTimeout, false⟩ }
    ∧ y1.link k = (y.link k).put (linkFrame 0x41 (y.crane k).nextSeq [BitVec.ofNat 8 bay])
    ∧ (∀ j, j ≠ slot → y1.ticketSlot j = y.ticketSlot j) ∧ (∀ j, j ≠ i → y1.stack j = y.stack j)
    ∧ (∀ j, j ≠ k → y1.crane j = y.crane j ∧ y1.arb j = y.arb j ∧ y1.link j = y.link j)
    ∧ { y1 with
        tickets := y.tickets
        stackRecs := y.stackRecs
        arbiter := y.arbiter
        cranes := y.cranes
        links := y.links } = y := by
  obtain ⟨hslot, hstack, hslots, hstacks, hrest⟩ := giveDest_stack_frame ht hi
  obtain ⟨z, hz⟩ : ∃ z, z = (giveDest y slot (.stack i)).setClaim k (some ⟨min c.lo bay, max c.hi bay⟩) := ⟨_, rfl⟩
  have hlaw := sendTravel_frame e z bay hk
  obtain ⟨hcrane, hlink, hcranes, hsend⟩ := hlaw
  have hgive : giveLaden e y slot k i = sendStage e z k .travel bay := by
    unfold giveLaden
    dsimp only
    rw [claim_giveDest, hc, ← hbay, hz]
    rfl
  have hzcrane : ∀ j, z.crane j = y.crane j := fun j => by
    rw [hz]
    exact crane_giveDest slot _ j
  have hzlink : ∀ j, z.link j = y.link j := fun j => by
    rw [hz]
    rfl
  have harb : ∀ j, (sendStage e z k .travel bay).arb j = z.arb j := fun _ => rfl
  rw [hzcrane] at hcrane
  rw [hzcrane, hzlink] at hlink
  refine ⟨_, hgive, ?_, ?_, ?_, hcrane, hlink, fun j hj => ?_, fun j hj => ?_, fun j hj => ⟨?_, ?_, ?_⟩, ?_⟩
  · rw [← hslot, hz]
    rfl
  · rw [← hstack, hz]
    rfl
  · rw [harb, hz]
    exact Yard.arb_updArb_same _ _ _ hk
  · rw [← hslots j hj, hz]
    rfl
  · rw [← hstacks j hj, hz]
    rfl
  · rw [(hcranes j hj).1, hzcrane]
  · rw [harb, hz]
    exact Yard.arb_updArb_ne _ _ _ _ hj.symm
  · rw [(hcranes j hj).2, hzlink]
  · rw [hz]
    rfl

/-! ## The search reads nothing that is restated -/

theorem Yard.Restates.ticketPiece (h : Yard.Restates y y') (g : Handle) : y'.ticketPiece g = y.ticketPiece g := by
  unfold Yard.ticketPiece Yard.ticket?
  rw [h.gens]
  split
  · cases hj : y.ticketAt g.slot with
    | none =>
      have hj' : (y'.ticketSlot g.slot).ticket = none := h.free _ hj
      have hj : (y.ticketSlot g.slot).ticket = none := hj
      rw [hj', hj]
    | some t =>
      obtain ⟨t', ht', hx⟩ := h.tickets _ t hj
      have hj' : (y'.ticketSlot g.slot).ticket = some t' := ht'
      have hj : (y.ticketSlot g.slot).ticket = some t := hj
      rw [hj', hj, hx.same]
      rfl
  · rfl

theorem Yard.Restates.projection (h : Yard.Restates y y') (s : Nat) : projection y' s = projection y s :=
  projection_congr h.ticketPiece (h.stack s)

theorem Yard.Restates.classOf (h : Yard.Restates y y') (g : Handle) : classOf e y' g = classOf e y g := by
  rw [h.eq]
  rfl

theorem Yard.Restates.placement (h : Yard.Restates y y') (s : Nat) (p : Handle) : placement e y' s p = placement e y s p := by
  have hclass : Machine.classOf e y' = Machine.classOf e y := funext fun g => h.classOf g
  unfold Machine.placement placementClass fitClass weightOf
  rw [h.stack, h.projection, hclass]

theorem Yard.Restates.nearestStack (h : Yard.Restates y y') (bay : Nat) (ok : Nat → Bool) :
    nearestStack y' bay ok = nearestStack y bay ok := by
  rw [h.eq]
  rfl

theorem Yard.Restates.sourceBay (h : Yard.Restates y y') : sourceBay e y' src = sourceBay e y src := by
  rw [h.eq]
  rfl

theorem Yard.Restates.chooseLane (h : Yard.Restates y y') : chooseLane y' = chooseLane y := by
  rw [h.eq]
  rfl

theorem Yard.Restates.ladenStack (h : Yard.Restates y y') : ladenStack e y' k p = ladenStack e y k p := by
  have hclaim : ∀ j, y'.claim j = y.claim j := fun j => by rw [h.eq]; rfl
  have hcrane : y'.crane k = y.crane k := by rw [h.eq]; rfl
  have hreaches : reaches y' k = reaches y k := by rw [h.eq]; rfl
  have hempty : someClaimEmpty y' = someClaimEmpty y := by rw [h.eq]; rfl
  unfold Machine.ladenStack
  simp only [hclaim, hcrane, hreaches, hempty, h.nearestStack, h.stack, h.placement]

theorem Yard.Restates.unladenDest {t' : Ticket} (h : Yard.Restates y y') (ht : t.Restates t') :
    unladenDest e y' t' src p = unladenDest e y t src p := by
  have hkind : t'.kind = t.kind := by rw [ht.same]
  unfold Machine.unladenDest
  simp only [hkind, h.chooseLane, h.sourceBay, h.nearestStack, h.stack, h.placement]

theorem Yard.Restates.ladenTarget {t' : Ticket} (h : Yard.Restates y y') (ht : t.Restates t') :
    ladenTarget e y' t' = ladenTarget e y t := by
  unfold Machine.ladenTarget
  rw [ht.same]
  simp only [h.ladenStack]

/-! ## A search that finds nothing -/

theorem giveDest_ne (ht : y.ticketAt slot = some t) (hd : t.dest = none) (d : Dest) : giveDest y slot d ≠ y := fun h => by
  have hat := ticketAt_giveDest (y := y) slot d ht
  rw [h, ht] at hat
  have hdest : t.dest = some d := congrArg Ticket.dest (Option.some.inj hat)
  rw [hd] at hdest
  cases hdest

theorem giveLaden_ne (ht : y.ticketAt slot = some t) (hd : t.dest = none) (s : Nat) : giveLaden e y slot k s ≠ y := fun h => by
  have hat := ticketAt_giveDest (y := y) slot (.stack s) ht
  have hsame : (giveLaden e y slot k s).ticketAt slot = (giveDest y slot (.stack s)).ticketAt slot := rfl
  rw [← hsame, h, ht] at hat
  have hdest : t.dest = some (.stack s) := congrArg Ticket.dest (Option.some.inj hat)
  rw [hd] at hdest
  cases hdest

theorem ladenTarget_dest {f : Nat × Nat} (h : ladenTarget e y t = some f) : t.dest = none := by
  unfold ladenTarget at h
  split at h
  · assumption
  · cases h

/-- R111: a search that finds nothing finds nothing either where tickets are restated. -/
theorem redirectOne_restated (h : Yard.Restates y y') (hy : redirectOne e y slot = y) : redirectOne e y' slot = y' := by
  cases ht : y.ticketAt slot with
  | none => exact redirectOne_free (h.free slot ht)
  | some t =>
    obtain ⟨t', ht', hx⟩ := h.tickets slot t ht
    have hdest : t'.dest = t.dest := by rw [hx.same]
    have hpiece : t'.piece = t.piece := by rw [hx.same]
    have hsource : t'.source = t.source := by rw [hx.same]
    by_cases hl : t.state = .lifted
    · have hl' : t'.state = .lifted := by
        rcases hx.state with hs | ⟨hs, -⟩
        · exact hs.trans hl
        · rw [hl] at hs
          rcases hs with hs | hs <;> cases hs
      rw [redirectOne_laden ht' hl', h.ladenTarget hx]
      rw [redirectOne_laden ht hl] at hy
      cases hf : ladenTarget e y t with
      | none => rfl
      | some f =>
        rw [hf] at hy
        exact absurd hy (giveLaden_ne ht (ladenTarget_dest hf) f.2)
    · by_cases hw : t.state = .pending ∨ t.state = .ready
      · by_cases hd : t.dest = none
        · cases hp : t.piece with
          | none => exact redirectOne_bare ht' (.inl (hpiece.trans hp))
          | some p =>
            cases hs : t.source with
            | none => exact redirectOne_bare ht' (.inr (hsource.trans hs))
            | some src =>
              rw [redirectOne_unladen ht' (hdest.trans hd) (hpiece.trans hp) (hsource.trans hs) (hx.waiting.2 hw),
                h.unladenDest hx]
              rw [redirectOne_unladen ht hd hp hs hw] at hy
              cases hf : unladenDest e y t src p with
              | none => rfl
              | some d =>
                rw [hf] at hy
                exact absurd hy (giveDest_ne ht hd d)
        · exact redirectOne_settled ht' (.inl (by rwa [hdest]))
      · refine redirectOne_settled ht' (.inr ?_)
        have hsame : t'.state = t.state := hx.state.resolve_right fun hs => hw hs.1
        rw [hsame]
        exact ⟨hl, not_or.1 hw⟩

end

end Sys2Proof.Machine
end

