-- ==== Sys2Proof/Proofs/DigRounds.lean ====
section
/-! PROOF. A ticket made for a piece (R114, R119), a dig round and its walk over the covering pieces (R125), and a pick creation
(R180): when each makes nothing, and what is written when it makes a ticket. -/

namespace Sys2Proof.Machine

section
variable {e : Site} {y y' : Yard} {slot i n : Nat} {t : Ticket} {c p : Handle}

/-! ## The free slot (R114) -/

theorem Yard.freeTicketSlot_eq (y : Yard) :
    y.freeTicketSlot = (y.tickets.map (fun ts => ts.ticket.isNone)).toList.findIdx? id := by
  unfold Yard.freeTicketSlot
  rw [Vector.toList_map, List.findIdx?_map]
  rfl

theorem Yard.Restates.freeTicketSlot (h : Yard.Restates y y') : y'.freeTicketSlot = y.freeTicketSlot := by
  have hsame : y'.tickets.map (fun ts => ts.ticket.isNone) = y.tickets.map (fun ts => ts.ticket.isNone) := by
    ext j hj
    have hs := h.isSome j
    unfold Yard.ticketAt Yard.ticketSlot at hs
    rw [getOr_lt _ _ _ hj, getOr_lt _ _ _ hj] at hs
    rw [Vector.getElem_map, Vector.getElem_map, ← Option.not_isSome, ← Option.not_isSome, hs]
  rw [Yard.freeTicketSlot_eq, Yard.freeTicketSlot_eq, hsame]

/-! ## A ticket made for a piece (R90, R94, R119) -/

/-- R11, R90, R100, R114: the ticket placed, its destination claimed, its piece's ticket field written. -/
def Yard.ticketed (y : Yard) (n : Nat) (p : Handle) (t : Ticket) : Yard :=
  setPieceTicket (claimDest (y.placeTicket n t) (y.ticketHandle n) t.dest) p (some (y.ticketHandle n))

/-- R90, R94: its LIFT claim, or its place among the buried tickets. -/
def Yard.sourced (y : Yard) (n : Nat) (p : Handle) (t : Ticket) : Yard :=
  match t.source with
  | some (.stack s _) =>
    if (projection y s).getLast? = some p then appendLift (y.ticketed n p t) s (y.ticketHandle n)
    else raiseBuried (y.ticketed n p t) s
  | _ => y.ticketed n p t

theorem placeTicket_ticketHandle (y : Yard) (n : Nat) (t : Ticket) : (y.placeTicket n t).ticketHandle n = y.ticketHandle n :=
  congrArg (Handle.mk n) (proj_getOr_upd TicketSlot.gen y.tickets n (fun ts => { ts with ticket := some t }) ⟨0, none⟩ rfl n)

theorem makeTicket_eq (e : Site) (y : Yard) (n : Nat) (p : Handle) (t : Ticket) :
    makeTicket e y n p t = refreshTicket e (refreshLevel e (y.sourced n p t) n) n := by
  unfold makeTicket
  dsimp only
  rw [placeTicket_ticketHandle]
  rfl

/-- R121, R123: the ticket made is evaluated. -/
theorem restates_sourced (e : Site) (y : Yard) (n : Nat) (p : Handle) (t : Ticket) :
    Yard.Restates (y.sourced n p t) (makeTicket e y n p t) := by
  rw [makeTicket_eq]
  exact (restates_refreshLevel e _ n).trans (restates_refreshTicket e _ n)

theorem claimDest_frame (y : Yard) (h : Handle) (d : Option Dest) :
    { claimDest y h d with stackRecs := y.stackRecs, lanes := y.lanes } = y := by
  unfold claimDest
  split <;> rfl

theorem appendLift_frame (y : Yard) (s : Nat) (h : Handle) : { appendLift y s h with stackRecs := y.stackRecs } = y := by
  have hrest := (promote_frame s (appendClaim y s ⟨.lift, h⟩)).1
  exact congrArg (fun z : Yard => { z with stackRecs := y.stackRecs }) hrest

/-- The ticket made, the piece, the queue; stacks and lanes aside, nothing else. -/
theorem sourced_frame (y : Yard) (n : Nat) (p : Handle) (t : Ticket) :
    { y.sourced n p t with stackRecs := y.stackRecs, lanes := y.lanes }
      = setPieceTicket (y.placeTicket n t) p (some (y.ticketHandle n)) := by
  have hdest : { y.ticketed n p t with stackRecs := y.stackRecs, lanes := y.lanes }
      = setPieceTicket (y.placeTicket n t) p (some (y.ticketHandle n)) :=
    congrArg (fun z => setPieceTicket z p (some (y.ticketHandle n))) (claimDest_frame (y.placeTicket n t) _ t.dest)
  refine Eq.trans ?_ hdest
  unfold Yard.sourced
  split
  · split
    · exact congrArg (fun z : Yard => { z with stackRecs := y.stackRecs, lanes := y.lanes })
        (appendLift_frame (y.ticketed n p t) _ _)
    · rfl
  · rfl

theorem sourced_tickets (y : Yard) (n : Nat) (p : Handle) (t : Ticket) :
    (y.sourced n p t).tickets = (y.placeTicket n t).tickets := (congrArg Yard.tickets (sourced_frame y n p t) :)

/-- R115: the ticket made stands at the back of the queue. -/
theorem makeTicket_moveQueue (e : Site) (y : Yard) (n : Nat) (p : Handle) (t : Ticket) :
    (makeTicket e y n p t).moveQueue = y.moveQueue ++ [n] :=
  (restates_sourced e y n p t).moveQueue.trans (congrArg Yard.moveQueue (sourced_frame y n p t) :)

theorem makeTicket_ne (e : Site) (y : Yard) (p : Handle) (t : Ticket) {j : Nat} (hn : n < 24) (hj : j ≠ n) :
    (makeTicket e y n p t).ticketAt j = y.ticketAt j := by
  rw [makeTicket_eq, refreshTicket_ne _ _ _ _ hj.symm, refreshLevel_ne _ _ hj.symm]
  have hat : (y.sourced n p t).ticketAt j = (y.placeTicket n t).ticketAt j :=
    congrArg (fun v => (getOr v j (⟨0, none⟩ : TicketSlot)).ticket) (sourced_tickets y n p t)
  rw [hat, ticketAt_placeTicket _ _ _ _ hn, if_neg hj.symm]

/-- R121 to R123: the ticket made has its level and its wait reasons, and is READY when it has none. -/
theorem makeTicket_ticketAt (e : Site) (y : Yard) (p : Handle) (t : Ticket) (hn : n < 24) (ht : t.state = .pending) :
    ∃ level w, (makeTicket e y n p t).ticketAt n
      = some { t with level := level, waits := w, state := if w = .none then .ready else .pending } := by
  have hat : (y.sourced n p t).ticketAt n = some t := by
    have hsame : (y.sourced n p t).ticketAt n = (y.placeTicket n t).ticketAt n :=
      congrArg (fun v => (getOr v n (⟨0, none⟩ : TicketSlot)).ticket) (sourced_tickets y n p t)
    rw [hsame, ticketAt_placeTicket _ _ _ _ hn, if_pos rfl]
  have hlevel := refreshLevel_same (e := e) hat (by rw [ht]; rfl)
  rw [makeTicket_eq]
  refine ⟨_, _, refreshTicket_waiting e _ n { t with level := ticketLevel e (y.sourced n p t) n t } hlevel (.inl ht)⟩

/-- R11: the piece of the ticket made names it. -/
theorem makeTicket_pieceAt {r : Piece} (hp : y.pieceAt p.slot = some r) :
    (makeTicket e y n p t).pieceAt p.slot = some { r with ticket := some (y.ticketHandle n) } := by
  have hpieces : (makeTicket e y n p t).pieces = (setPieceTicket (y.placeTicket n t) p (some (y.ticketHandle n))).pieces :=
    (restates_sourced e y n p t).pieces.trans (congrArg Yard.pieces (sourced_frame y n p t) :)
  have hsame : (makeTicket e y n p t).pieceAt p.slot
      = (setPieceTicket (y.placeTicket n t) p (some (y.ticketHandle n))).pieceAt p.slot :=
    congrArg (fun v => (getOr v p.slot (⟨0, none⟩ : PieceSlot)).piece) hpieces
  have hplaced : (y.placeTicket n t).pieceAt p.slot = some r := hp
  rw [hsame, setPieceTicket, Yard.pieceAt_updPiece_same _ _ _ (Yard.pieceAt_lt _ _ _ hp), hplaced]
  rfl

theorem makeTicket_rest (e : Site) (y : Yard) (n : Nat) (p : Handle) (t : Ticket) : (makeTicket e y n p t).cranes = y.cranes
    ∧ (makeTicket e y n p t).arbiter = y.arbiter ∧ (makeTicket e y n p t).links = y.links := by
  have hr := (restates_sourced e y n p t).rest
  have hf := sourced_frame y n p t
  exact ⟨(congrArg Yard.cranes hr :).trans (congrArg Yard.cranes hf :),
    (congrArg Yard.arbiter hr :).trans (congrArg Yard.arbiter hf :), (congrArg Yard.links hr :).trans (congrArg Yard.links hf :)⟩

/-! ## Claims are appended (R90, R126) -/

/-- R126: a promotion takes no claim away. -/
theorem mem_claims_promoteUpTo {a : Claim} (m s : Nat) (y : Yard) (h : a ∈ (y.stack i).claims) :
    a ∈ ((promoteUpTo m s y).stack i).claims := by
  induction m generalizing y with
  | zero => exact h
  | succ m ih =>
    unfold promoteUpTo
    split
    · split
      · rename_i slot _
        refine ih (promoted y s slot) ?_
        by_cases hs : s = i
        · subst hs
          by_cases hlt : s < 40
          · rw [promoted_stack hlt]
            exact List.mem_append_left _ h
          · have hge : y.stack s = .reset := getOr_ge _ _ _ (Nat.not_lt.mp hlt)
            rw [hge] at h
            cases h
        · rwa [promoted_stack_ne (Ne.symm hs)]
      · exact h
    · exact h

theorem mem_claims_appendClaim {a b : Claim} {s : Nat} (hs : s < 40)
    (h : s = i ∧ a = b ∨ a ∈ (y.stack i).claims) : a ∈ ((appendClaim y s b).stack i).claims := by
  unfold appendClaim
  by_cases hsi : s = i
  · subst hsi
    rw [Yard.stack_updStack_same _ _ _ hs]
    rcases h with ⟨-, rfl⟩ | h
    · exact List.mem_append_right _ (List.mem_singleton.2 rfl)
    · exact List.mem_append_left _ h
  · rw [Yard.stack_updStack_ne _ _ _ _ hsi]
    exact h.resolve_left fun h => hsi h.1

/-- R90: the ticket made for the projection top of a stack has its LIFT claim there and its PLACE claim where it goes. -/
theorem makeTicket_claims {d tier : Nat} (hi : i < 40) (hd : d < 40) (hsource : t.source = some (.stack i tier))
    (hdest : t.dest = some (.stack d)) (htop : (projection y i).getLast? = some p) :
    ⟨.lift, y.ticketHandle n⟩ ∈ ((makeTicket e y n p t).stack i).claims
      ∧ ⟨.place, y.ticketHandle n⟩ ∈ ((makeTicket e y n p t).stack d).claims := by
  have hplaced : ⟨.place, y.ticketHandle n⟩ ∈ ((y.ticketed n p t).stack d).claims := by
    unfold Yard.ticketed
    rw [hdest]
    exact mem_claims_appendClaim (y := y.placeTicket n t) hd (.inl ⟨rfl, rfl⟩)
  have hsourced : y.sourced n p t = appendLift (y.ticketed n p t) i (y.ticketHandle n) := by
    unfold Yard.sourced
    simp only [hsource, htop, if_true]
  rw [(restates_sourced e y n p t).stack, (restates_sourced e y n p t).stack, hsourced]
  exact ⟨mem_claims_promoteUpTo 4 i _ (mem_claims_appendClaim hi (.inl ⟨rfl, rfl⟩)),
    mem_claims_promoteUpTo 4 i _ (mem_claims_appendClaim hi (.inr hplaced))⟩

/-! ## The walk of a dig round (R125) -/

/-- R125: the slot and the destination of a DIG for a covering piece without a ticket. -/
def digFind (e : Site) (y : Yard) (i : Nat) (c : Handle) (p : Piece) : Option (Nat × Nat) :=
  match y.freeTicketSlot with
  | none => none
  | some free =>
    if (y.stack i).claims.length ≥ 4 ∨ (projection y i).getLast? ≠ some c then none
    else (stackFor e y p.location c).map (fun d => (free, d))

theorem digFind_eq_none {p : Piece} : digFind e y i c p = none ↔ y.freeTicketSlot = none ∨ 4 ≤ (y.stack i).claims.length
    ∨ (projection y i).getLast? ≠ some c ∨ stackFor e y p.location c = none := by
  unfold digFind
  cases y.freeTicketSlot with
  | none => simp
  | some free =>
    dsimp only
    split
    · rename_i h
      exact ⟨fun _ => .inr (h.imp_right .inl), fun _ => rfl⟩
    · rename_i h
      rw [not_or] at h
      rw [Option.map_eq_none_iff]
      refine ⟨fun hs => .inr (.inr (.inr hs)), fun hs => ?_⟩
      rcases hs with hs | hs | hs | hs
      · cases hs
      · exact absurd hs h.1
      · exact absurd hs h.2
      · exact hs

theorem digFind_eq_some {p : Piece} {free d : Nat} : digFind e y i c p = some (free, d)
    ↔ y.freeTicketSlot = some free ∧ (y.stack i).claims.length < 4 ∧ (projection y i).getLast? = some c
      ∧ stackFor e y p.location c = some d := by
  unfold digFind
  cases y.freeTicketSlot with
  | none => simp
  | some free' =>
    dsimp only
    split
    · rename_i h
      refine ⟨fun h => (by cases h), fun ⟨_, hroom, htop, _⟩ => absurd h ?_⟩
      rw [not_or, not_not]
      exact ⟨by omega, htop⟩
    · rename_i h
      rw [not_or, not_not] at h
      rw [Option.map_eq_some_iff]
      constructor
      · rintro ⟨d', hd', heq⟩
        cases heq
        exact ⟨rfl, by omega, h.2, hd'⟩
      · rintro ⟨hfree, -, -, hd⟩
        obtain rfl := Option.some.inj hfree
        exact ⟨d, hd, rfl⟩

section
variable {p : Piece} {cs : List Handle} (hp : y.pieceAt c.slot = some p) (ht : y.ticketAt slot = some t)
include hp ht

theorem digWalk_ticketed (h : p.ticket ≠ none) : digWalk e slot i (c :: cs) y = digWalk e slot i cs y := by
  rw [digWalk]
  simp only [hp, ht]
  exact if_pos (Option.isSome_iff_ne_none.2 h)

theorem digWalk_stuck (hticket : p.ticket = none) (h : digFind e y i c p = none) : digWalk e slot i (c :: cs) y = y := by
  rw [digWalk]
  simp only [hp, ht, hticket, Option.isSome_none, Bool.false_eq_true, if_false]
  unfold digFind at h
  split
  · rfl
  · rename_i free hfree
    rw [hfree] at h
    dsimp only at h
    split
    · rfl
    · rename_i hok
      rw [if_neg hok] at h
      rw [Option.map_eq_none_iff.1 h]

theorem digWalk_digs {free d : Nat} (hticket : p.ticket = none) (h : digFind e y i c p = some (free, d)) :
    digWalk e slot i (c :: cs) y = digWalk e slot i cs (makeDig e y free slot c p.location d t) := by
  obtain ⟨hfree, hroom, htop, hd⟩ := digFind_eq_some.1 h
  rw [digWalk]
  simp only [hp, ht, hticket, Option.isSome_none, Bool.false_eq_true, if_false, hfree, hd]
  refine if_neg ?_
  rw [not_or, not_not]
  exact ⟨by omega, htop⟩

end

theorem digWalk_absent {cs : List Handle} (h : y.pieceAt c.slot = none ∨ y.ticketAt slot = none) :
    digWalk e slot i (c :: cs) y = y := by
  rw [digWalk]
  split
  · rename_i hp ht
    rw [hp, ht] at h
    rcases h with h | h <;> cases h
  · rfl

/-- A projection with a top is that of one of the 40 stacks. -/
theorem projection_lt (h : (projection y i).getLast? = some c) : i < 40 := by
  by_contra hi
  have hge : y.stack i = .reset := getOr_ge _ _ _ (Nat.not_lt.mp hi)
  unfold projection at h
  rw [hge] at h
  cases h

/-- R110: a stack found for a piece is one of the 40. -/
theorem stackFor_lt {src : Location} {d : Nat} (h : stackFor e y src c = some d) : d < 40 := nearestStack_lt h

/-- R125, case 6: the records after a DIG has been made for a covering piece. -/
theorem makeDig_frame {p : Piece} {free d tier : Nat} {hh : Handle} (hp : y.pieceAt c.slot = some p)
    (hfind : digFind e y i c p = some (free, d)) (hloc : p.location = .stack i tier)
    (hhandle : hh = ⟨free, (y.ticketSlot free).gen⟩) :
    ∃ u, (makeDig e y free slot c p.location d t).ticketAt free = some u
      ∧ u.kind = .dig ∧ u.piece = some c ∧ u.source = some p.location ∧ u.dest = some (.stack d)
      ∧ u.baseLevel = t.level ∧ u.after = false ∧ u.dig = false ∧ u.serves = some (y.ticketHandle slot)
      ∧ (t.kind = .pick → u.truck = t.truck) ∧ (t.kind ≠ .pick → u.truck = none) ∧ u.crane = none
      ∧ (u.state = .ready ∧ u.waits = .none ∨ u.state = .pending ∧ u.waits ≠ .none)
      ∧ (makeDig e y free slot c p.location d t).pieceAt c.slot = some { p with ticket := some hh }
      ∧ (makeDig e y free slot c p.location d t).moveQueue = y.moveQueue ++ [free]
      ∧ ⟨.lift, hh⟩ ∈ ((makeDig e y free slot c p.location d t).stack i).claims
      ∧ ⟨.place, hh⟩ ∈ ((makeDig e y free slot c p.location d t).stack d).claims
      ∧ (∀ j, j ≠ free → (makeDig e y free slot c p.location d t).ticketAt j = y.ticketAt j)
      ∧ (makeDig e y free slot c p.location d t).fixed = y.fixed
      ∧ (makeDig e y free slot c p.location d t).cranes = y.cranes
      ∧ (makeDig e y free slot c p.location d t).arbiter = y.arbiter
      ∧ (makeDig e y free slot c p.location d t).links = y.links := by
  obtain ⟨hfree, -, htop, hd⟩ := digFind_eq_some.1 hfind
  obtain ⟨hlt, -⟩ := Yard.freeTicketSlot_free hfree
  unfold makeDig
  obtain ⟨fresh, hfresh⟩ : ∃ u : Ticket, u = { Ticket.fresh .dig (some c) (some p.location) (some (.stack d)) t.level with
      truck := if t.kind = .pick then t.truck else none
      serves := some (y.ticketHandle slot) } := ⟨_, rfl⟩
  rw [← hfresh]
  obtain ⟨level, w, hat⟩ := makeTicket_ticketAt e y c fresh hlt (by rw [hfresh]; rfl)
  obtain ⟨hcranes, harb, hlinks⟩ := makeTicket_rest e y free c fresh
  obtain ⟨hlift, hplace⟩ := makeTicket_claims (e := e) (n := free) (t := fresh) (projection_lt htop) (stackFor_lt hd)
    (by rw [hfresh, ← hloc]; rfl) (by rw [hfresh]; rfl) htop
  subst hhandle
  refine ⟨_, hat, ?_⟩
  have hfields : fresh.kind = .dig ∧ fresh.piece = some c ∧ fresh.source = some p.location ∧ fresh.dest = some (.stack d)
      ∧ fresh.baseLevel = t.level ∧ fresh.after = false ∧ fresh.dig = false ∧ fresh.serves = some (y.ticketHandle slot)
      ∧ (t.kind = .pick → fresh.truck = t.truck) ∧ (t.kind ≠ .pick → fresh.truck = none) ∧ fresh.crane = none := by
    rw [hfresh]
    exact ⟨rfl, rfl, rfl, rfl, rfl, rfl, rfl, rfl, fun h => if_pos h, fun h => if_neg h, rfl⟩
  obtain ⟨h1, h2, h3, h4, h5, h6, h7, h8, h9, h10, h11⟩ := hfields
  refine ⟨h1, h2, h3, h4, h5, h6, h7, h8, h9, h10, h11, ?_, makeTicket_pieceAt hp, makeTicket_moveQueue e y free c fresh, hlift,
    hplace, fun j hj => makeTicket_ne e y c fresh hlt hj, fixed_makeTicket e y free c fresh, hcranes, harb, hlinks⟩
  dsimp only
  split
  · rename_i hw
    exact .inl ⟨rfl, hw⟩
  · rename_i hw
    exact .inr ⟨rfl, hw⟩

/-! ## The round (R125) -/

/-- R125: a dig round is for a waiting ticket with its dig flag that is buried in a stack. -/
theorem digRound_none (ht : y.ticketAt slot = some t) (h : t.dig = false ∨ buriedIn y slot = none) : digRound e y slot = y := by
  unfold digRound
  rw [ht]
  cases hb : buriedIn y slot with
  | none => rfl
  | some s =>
    rw [hb] at h
    dsimp only
    rw [h.resolve_right nofun]
    rfl

theorem digRound_free (ht : y.ticketAt slot = none) : digRound e y slot = y := by
  unfold digRound
  rw [ht]

theorem digRound_buried (ht : y.ticketAt slot = some t) (hdig : t.dig = true) (hb : buriedIn y slot = some i) :
    digRound e y slot
      = digWalk e slot i ((y.stack i).pieces.reverse.takeWhile (fun h => decide (some h ≠ t.piece))) y := by
  unfold digRound
  simp only [ht, hb, hdig, if_true]

/-- R125: the covering pieces, from the top downward. -/
theorem covering_eq {x : Handle} {pieces below above : List Handle} (hpieces : pieces = below ++ x :: above)
    (hx : x ∉ above) (hp : t.piece = some x) :
    pieces.reverse.takeWhile (fun h => decide (some h ≠ t.piece)) = above.reverse := by
  rw [hpieces, hp, List.reverse_append, List.reverse_cons, List.append_assoc]
  rw [List.takeWhile_append_of_pos, List.singleton_append, List.takeWhile_cons_of_neg, List.append_nil]
  · simp
  · intro a ha
    have hne : a ≠ x := fun h => hx (List.mem_reverse.1 (h ▸ ha))
    simpa using hne

/-! ## What a dig round reads -/

theorem Yard.Restates.stackFor {src : Location} (h : Yard.Restates y y') : stackFor e y' src c = stackFor e y src c := by
  unfold Machine.stackFor
  simp only [h.sourceBay, h.nearestStack, h.placement]

theorem Yard.Restates.pieceAt (h : Yard.Restates y y') (j : Nat) : y'.pieceAt j = y.pieceAt j := by
  rw [h.eq]
  rfl

theorem Yard.Restates.digFind {p : Piece} (h : Yard.Restates y y') : digFind e y' i c p = digFind e y i c p := by
  unfold Machine.digFind
  simp only [h.freeTicketSlot, h.stack, h.projection, h.stackFor]

/-- R125: a walk that makes a DIG lengthens the queue. -/
theorem digWalk_idle_or (e : Site) (slot i : Nat) (cs : List Handle) (y : Yard) :
    digWalk e slot i cs y = y ∨ y.moveQueue.length < (digWalk e slot i cs y).moveQueue.length := by
  induction cs generalizing y with
  | nil => exact .inl rfl
  | cons c cs ih =>
    cases hp : y.pieceAt c.slot with
    | none => exact .inl (digWalk_absent (.inl hp))
    | some p =>
      cases ht : y.ticketAt slot with
      | none => exact .inl (digWalk_absent (.inr ht))
      | some t =>
        by_cases hticket : p.ticket = none
        · cases hf : Machine.digFind e y i c p with
          | none => exact .inl (digWalk_stuck hp ht hticket hf)
          | some f =>
            obtain ⟨free, d⟩ := f
            rw [digWalk_digs hp ht hticket hf]
            right
            have hmade : (makeDig e y free slot c p.location d t).moveQueue = y.moveQueue ++ [free] :=
              makeTicket_moveQueue e y free c _
            have hlen : y.moveQueue.length < (makeDig e y free slot c p.location d t).moveQueue.length := by
              rw [hmade, List.length_append, List.length_singleton]
              omega
            rcases ih (makeDig e y free slot c p.location d t) with h | h
            · rwa [h]
            · exact hlen.trans h
        · rw [digWalk_ticketed hp ht hticket]
          exact ih y

theorem digWalk_restated (h : Yard.Restates y y') : ∀ cs, digWalk e slot i cs y = y → digWalk e slot i cs y' = y'
  | [], _ => rfl
  | c :: cs, hy => by
    have hpiece := h.pieceAt c.slot
    cases hp : y.pieceAt c.slot with
    | none => exact digWalk_absent (.inl (hpiece.trans hp))
    | some p =>
      cases ht : y.ticketAt slot with
      | none => exact digWalk_absent (.inr (h.free slot ht))
      | some t =>
        obtain ⟨t', ht', -⟩ := h.tickets slot t ht
        by_cases hticket : p.ticket = none
        · cases hf : Machine.digFind e y i c p with
          | none => exact digWalk_stuck (hpiece.trans hp) ht' hticket (h.digFind.trans hf)
          | some f =>
            obtain ⟨free, d⟩ := f
            rw [digWalk_digs hp ht hticket hf] at hy
            have hmade : (makeDig e y free slot c p.location d t).moveQueue = y.moveQueue ++ [free] :=
              makeTicket_moveQueue e y free c _
            have hlen : y.moveQueue.length < (makeDig e y free slot c p.location d t).moveQueue.length := by
              rw [hmade, List.length_append, List.length_singleton]
              omega
            rcases digWalk_idle_or e slot i cs (makeDig e y free slot c p.location d t) with hid | hid
            · rw [← hid, hy] at hlen
              exact absurd hlen (Nat.lt_irrefl _)
            · rw [hy] at hid
              exact absurd (hlen.trans hid) (Nat.lt_irrefl _)
        · rw [digWalk_ticketed (hpiece.trans hp) ht' hticket]
          rw [digWalk_ticketed hp ht hticket] at hy
          exact digWalk_restated h cs hy

theorem digRound_idle_or (e : Site) (y : Yard) (slot : Nat) :
    digRound e y slot = y ∨ y.moveQueue.length < (digRound e y slot).moveQueue.length := by
  unfold digRound
  split
  · split
    · exact digWalk_idle_or e slot _ _ y
    · exact .inl rfl
  · exact .inl rfl

/-- R125: a round that makes nothing makes nothing either where tickets are restated. -/
theorem digRound_restated (h : Yard.Restates y y') (hy : digRound e y slot = y) : digRound e y' slot = y' := by
  cases ht : y.ticketAt slot with
  | none => exact digRound_free (h.free slot ht)
  | some t =>
    obtain ⟨t', ht', hx⟩ := h.tickets slot t ht
    have hdig : t'.dig = t.dig := by rw [hx.same]
    have hpiece : t'.piece = t.piece := by rw [hx.same]
    cases hb : buriedIn y slot with
    | none => exact digRound_none ht' (.inr ((h.buriedIn slot).trans hb))
    | some s =>
      cases hd : t.dig with
      | false => exact digRound_none ht' (.inl (hdig.trans hd))
      | true =>
        rw [digRound_buried ht' (hdig.trans hd) ((h.buriedIn slot).trans hb), hpiece, h.stack]
        rw [digRound_buried ht hd hb] at hy
        exact digWalk_restated h _ hy

/-! ## Pick creation (R180) -/

/-- R180: the piece, its place and the slot of the PICK to be made for a truck bay. -/
def pickFind (y : Yard) (k : Nat) : Option (Handle × Location × Nat) :=
  if (y.truck k).state = .opened ∧ (y.truck k).currentPick = none then
    match (y.truck k).orderList[(y.truck k).nextIndex]? with
    | some p =>
      match y.piece? p, y.freeTicketSlot with
      | some r, some slot =>
        if r.ticket.isSome then none
        else
          match r.location with
          | .stack s tier =>
            if (projection y s).getLast? = some p ∧ (y.stack s).claims.length ≥ 4 then none
            else some (p, .stack s tier, slot)
          | .lane l => some (p, .lane l, slot)
          | .hook j => some (p, .hook j, slot)
          | .bed _ _ | .truck _ _ => none
      | _, _ => none
    | none => none
  else none

/-- R126, R180: the PICK made, with its first dig round where its piece stands in a stack. -/
def pickMade (e : Site) (y : Yard) (k : Nat) (p : Handle) (src : Location) (slot : Nat) : Yard :=
  match src with
  | .stack _ _ => refreshTicket e (digRound e (makePick e y k slot p src) slot) slot
  | _ => makePick e y k slot p src

theorem createPick_eq (e : Site) (y : Yard) (k : Nat) :
    createPick e y k = ((pickFind y k).map (fun f => pickMade e y k f.1 f.2.1 f.2.2)).getD y := by
  unfold createPick pickFind
  dsimp only
  by_cases hopen : (y.truck k).state = .opened ∧ (y.truck k).currentPick = none
  · rw [if_pos hopen, if_pos hopen]
    cases (y.truck k).orderList[(y.truck k).nextIndex]? with
    | none => rfl
    | some p =>
      cases hr : y.piece? p with
      | none => simp only [hr]; rfl
      | some r =>
        cases hf : y.freeTicketSlot with
        | none => simp only [hr]; rfl
        | some slot =>
          by_cases hticket : r.ticket.isSome = true
          · simp only [hr, hticket, if_true]
            rfl
          · simp only [hr, hticket]
            cases r.location with
            | stack s tier =>
              by_cases hroom : (projection y s).getLast? = some p ∧ (y.stack s).claims.length ≥ 4
              · simp only [hroom]
                rfl
              · simp only [hroom]
                rfl
            | lane | hook | bed | truck => rfl
  · rw [if_neg hopen, if_neg hopen]
    rfl

theorem makePick_moveQueue (e : Site) (y : Yard) (k n : Nat) (p : Handle) (src : Location) :
    (makePick e y k n p src).moveQueue = y.moveQueue ++ [n] := makeTicket_moveQueue e y n p _

/-- R180: a PICK made lengthens the queue. -/
theorem pickMade_longer (e : Site) (y : Yard) (k : Nat) (p : Handle) (src : Location) (slot : Nat) :
    y.moveQueue.length < (pickMade e y k p src slot).moveQueue.length := by
  have hpick : y.moveQueue.length < (makePick e y k slot p src).moveQueue.length := by
    rw [makePick_moveQueue, List.length_append, List.length_singleton]
    omega
  unfold pickMade
  split
  · rw [refreshTicket_moveQueue]
    rcases digRound_idle_or e (makePick e y k slot p _) slot with hd | hd
    · rwa [hd]
    · exact hpick.trans hd
  · exact hpick

theorem Yard.Restates.pickFind {k : Nat} (h : Yard.Restates y y') : pickFind y' k = pickFind y k := by
  have hpiece : ∀ g, y'.piece? g = y.piece? g := fun g => by rw [h.eq]; rfl
  unfold Machine.pickFind
  simp only [h.truck, hpiece, h.freeTicketSlot, h.projection, h.stack]

theorem createPick_idle_or (e : Site) (y : Yard) (k : Nat) :
    createPick e y k = y ∨ y.moveQueue.length < (createPick e y k).moveQueue.length := by
  rw [createPick_eq]
  cases Machine.pickFind y k with
  | none => exact .inl rfl
  | some f => exact .inr (pickMade_longer e y k f.1 f.2.1 f.2.2)

/-- R180: a pick creation that makes nothing makes nothing either where tickets are restated. -/
theorem createPick_restated {k : Nat} (h : Yard.Restates y y') (hy : createPick e y k = y) : createPick e y' k = y' := by
  rw [createPick_eq] at hy ⊢
  rw [h.pickFind]
  cases hf : Machine.pickFind y k with
  | none => rfl
  | some f =>
    have hlen := pickMade_longer e y k f.1 f.2.1 f.2.2
    rw [hf] at hy
    have hy : pickMade e y k f.1 f.2.1 f.2.2 = y := hy
    rw [hy] at hlen
    exact absurd hlen (Nat.lt_irrefl _)

end

end Sys2Proof.Machine
end

