-- ==== Sys2Proof/Proofs/WaitingWork.lean ====
section
/-! PROOF. The waiting work of an occasion (R111, R125, R180): every piece of it that is done makes a ticket or gives a
destination, so that it ends, and after the follow-up work nothing of it is left to be done. -/

namespace Sys2Proof.Machine

section
variable {e : Site} {y y' y'' : Yard} {slot : Nat} {t u : Ticket}

/-! ## Work that makes something -/

theorem missingAt_iff : (y.activeAt slot && decide ((y.ticketAt slot).bind (fun t => t.dest) = none)) = true
    ↔ ∃ t, y.ticketAt slot = some t ∧ t.state.isActive = true ∧ t.dest = none := by
  rw [Bool.and_eq_true, decide_eq_true_eq, activeAt_iff]
  constructor
  · rintro ⟨⟨t, ht, ha⟩, hd⟩
    rw [ht] at hd
    exact ⟨t, ht, ha, hd⟩
  · rintro ⟨t, ht, ha, hd⟩
    rw [ht]
    exact ⟨⟨t, rfl, ha⟩, hd⟩

theorem countP_lt_of_imp {p q : Nat → Bool} {l : List Nat} {a : Nat} (h : ∀ b, q b = true → p b = true) (ha : a ∈ l)
    (hp : p a = true) (hq : q a = false) : l.countP q < l.countP p := by
  obtain ⟨front, back, rfl⟩ := List.append_of_mem ha
  have hfront : front.countP q ≤ front.countP p := List.countP_mono_left fun b _ => h b
  have hback : back.countP q ≤ back.countP p := List.countP_mono_left fun b _ => h b
  rw [List.countP_append, List.countP_append, List.countP_cons_of_pos hp, List.countP_cons_of_neg (by simp [hq])]
  omega

/-- R180: the work made a ticket, or gave a destination. -/
structure Yard.Makes (y y' : Yard) : Prop extends Yard.Extends false y y' where
  more : y.moveQueue.length < y'.moveQueue.length
    ∨ y'.moveQueue.length = y.moveQueue.length ∧ missingDests y' < missingDests y

theorem Yard.Makes.trans (h : Yard.Makes y y') (k : Yard.Makes y' y'') : Yard.Makes y y'' where
  toExtends := h.toExtends.trans k.toExtends
  more := by
    have := h.more
    have := k.more
    omega

/-- R185: a ticket of the queue that waits for a destination is given one. -/
theorem makes_of_dest (hx : Yard.Extends false y y') (hq : y'.moveQueue = y.moveQueue) (hslot : slot ∈ y.moveQueue)
    (ht : y.ticketAt slot = some t) (ha : t.state.isActive = true) (hd : t.dest = none) (hu : y'.ticketAt slot = some u)
    (hud : u.dest ≠ none) : Yard.Makes y y' where
  toExtends := hx
  more := by
    refine .inr ⟨congrArg List.length hq, ?_⟩
    unfold missingDests
    rw [hq]
    refine countP_lt_of_imp (fun b hb => ?_) hslot (missingAt_iff.2 ⟨t, ht, ha, hd⟩) ?_
    · obtain ⟨v, hv, hact, hdest⟩ := missingAt_iff.1 hb
      cases hb' : y.ticketAt b with
      | none =>
        have := (hx.made b v hb' hv).1
        rw [hdest] at this
        cases this
      | some w =>
        obtain ⟨v', hv', hw⟩ := hx.tickets b w hb'
        obtain rfl := Option.some.inj (hv.symm.trans hv')
        refine hb' ▸ missingAt_iff.2 ⟨w, hb', hw.active.symm.trans hact, ?_⟩
        by_contra hne
        have := hw.dest (Option.isSome_iff_ne_none.2 hne)
        rw [hdest] at this
        exact hne this.symm
    · refine Bool.eq_false_iff.2 fun h => ?_
      obtain ⟨v, hv, -, hdest⟩ := missingAt_iff.1 h
      obtain rfl := Option.some.inj (hu.symm.trans hv)
      exact hud hdest

/-- R111: a search of a ticket of the queue finds nothing, or gives a destination. -/
theorem redirectOne_idle_or (hslot : slot ∈ y.moveQueue) : redirectOne e y slot = y ∨ Yard.Makes y (redirectOne e y slot) := by
  have hx : Yard.Extends false y (redirectOne e y slot) := extends_redirectOne e y slot
  have hgive : ∀ d, (giveDest y slot d).moveQueue = y.moveQueue := fun d => by
    unfold giveDest claimDest
    split <;> rfl
  cases ht : y.ticketAt slot with
  | none => exact .inl (redirectOne_free ht)
  | some t =>
    by_cases hl : t.state = .lifted
    · rw [redirectOne_laden ht hl] at hx ⊢
      cases hf : ladenTarget e y t with
      | none => exact .inl rfl
      | some f =>
        rw [hf] at hx
        refine .inr (makes_of_dest hx (hgive (.stack f.2)) hslot ht (by rw [hl]; rfl) (ladenTarget_dest hf)
          (ticketAt_giveDest slot (.stack f.2) ht) nofun)
    · by_cases hw : t.state = .pending ∨ t.state = .ready
      · by_cases hd : t.dest = none
        · cases hp : t.piece with
          | none => exact .inl (redirectOne_bare ht (.inl hp))
          | some p =>
            cases hs : t.source with
            | none => exact .inl (redirectOne_bare ht (.inr hs))
            | some src =>
              rw [redirectOne_unladen ht hd hp hs hw] at hx ⊢
              cases hf : unladenDest e y t src p with
              | none => exact .inl rfl
              | some d =>
                rw [hf] at hx
                exact .inr (makes_of_dest hx (hgive d) hslot ht (TicketState.active_of_waiting hw) hd
                  (ticketAt_giveDest slot d ht) nofun)
        · exact .inl (redirectOne_settled ht (.inl hd))
      · exact .inl (redirectOne_settled ht (.inr ⟨hl, not_or.1 hw⟩))

/-! ## A pass of the waiting work -/

/-- Work on each of a list makes nothing at all, or something. -/
theorem forEach_idle_or {f : Yard → Nat → Yard} {ok : Yard → Nat → Prop}
    (hf : ∀ y a, ok y a → f y a = y ∨ Yard.Makes y (f y a)) (hok : ∀ y y' a, Yard.Makes y y' → ok y a → ok y' a)
    (xs : List Nat) (y : Yard) (h : ∀ a ∈ xs, ok y a) :
    (forEach xs f y = y ∧ ∀ a ∈ xs, f y a = y) ∨ Yard.Makes y (forEach xs f y) := by
  unfold forEach
  induction xs generalizing y with
  | nil => exact .inl ⟨rfl, fun a ha => by cases ha⟩
  | cons x xs ih =>
    rw [List.foldl_cons]
    rcases hf y x (h x List.mem_cons_self) with hx | hx
    · rw [hx]
      refine (ih y fun a ha => h a (List.mem_cons_of_mem _ ha)).imp_left fun ⟨hall, heach⟩ => ⟨hall, fun a ha => ?_⟩
      rcases List.mem_cons.1 ha with rfl | ha
      · exact hx
      · exact heach a ha
    · right
      rcases ih (f y x) fun a ha => hok _ _ a hx (h a (List.mem_cons_of_mem _ ha)) with ⟨hall, -⟩ | hall
      · rwa [hall]
      · exact hx.trans hall

/-- R111, R125, R180: no work is left to be done. -/
def Yard.worked (e : Site) (y : Yard) : Prop :=
  (∀ k, k < 4 → createPick e y k = y) ∧ ∀ slot ∈ y.moveQueue, digRound e y slot = y ∧ redirectOne e y slot = y

theorem redirectAll_idle_or (e : Site) (y : Yard) :
    (redirectAll e y = y ∧ ∀ slot ∈ y.moveQueue, redirectOne e y slot = y) ∨ Yard.Makes y (redirectAll e y) := by
  refine forEach_idle_or (ok := fun y slot => slot ∈ y.moveQueue) (fun _ _ => redirectOne_idle_or) (fun y y' a hm ha => ?_)
    y.moveQueue y fun _ ha => ha
  obtain ⟨m, hq, -⟩ := hm.queue
  rw [hq]
  exact List.mem_append_left _ ha

theorem createPicks_idle_or (e : Site) (y : Yard) : (forEach [0, 1, 2, 3] (createPick e) y = y
    ∧ ∀ k ∈ [0, 1, 2, 3], createPick e y k = y) ∨ Yard.Makes y (forEach [0, 1, 2, 3] (createPick e) y) :=
  forEach_idle_or (ok := fun _ _ => True)
    (fun y k _ => (createPick_idle_or e y k).imp_right fun h => ⟨extends_createPick e y k, .inl h⟩)
    (fun _ _ _ _ => id) _ y fun _ _ => trivial

theorem digRounds_idle_or (e : Site) (y : Yard) : (forEach y.moveQueue (digRound e) y = y
    ∧ ∀ slot ∈ y.moveQueue, digRound e y slot = y) ∨ Yard.Makes y (forEach y.moveQueue (digRound e) y) :=
  forEach_idle_or (ok := fun _ _ => True)
    (fun y k _ => (digRound_idle_or e y k).imp_right fun h => ⟨extends_digRound e y k, .inl h⟩)
    (fun _ _ _ _ => id) _ y fun _ _ => trivial

/-- R180: a pass makes something, or no work was left. -/
theorem waitingPass_idle_or (e : Site) (y : Yard) :
    (waitingPass e y = y ∧ y.worked e) ∨ Yard.Makes y (waitingPass e y) := by
  unfold waitingPass
  dsimp only
  have then_makes : ∀ {a b : Yard}, (a = y ∨ Yard.Makes y a) → Yard.Makes a b → Yard.Makes y b := by
    rintro a b (rfl | h) k
    · exact k
    · exact h.trans k
  have then_idle : ∀ {a b : Yard}, Yard.Makes y a → b = a ∨ Yard.Makes a b → Yard.Makes y b := by
    rintro a b h (rfl | k)
    · exact h
    · exact h.trans k
  rcases redirectAll_idle_or e y with ⟨h1, hredirect⟩ | h1
  · rw [h1]
    rcases createPicks_idle_or e y with ⟨h2, hpick⟩ | h2
    · rw [h2]
      refine (digRounds_idle_or e y).imp_left fun ⟨h3, hdig⟩ => ⟨h3, fun k hk => hpick k ?_, fun slot hslot =>
        ⟨hdig slot hslot, hredirect slot hslot⟩⟩
      have : k = 0 ∨ k = 1 ∨ k = 2 ∨ k = 3 := by omega
      simpa using this
    · exact .inr (then_idle h2 ((digRounds_idle_or e _).imp_left And.left))
  · exact .inr (then_idle (then_idle h1 ((createPicks_idle_or e _).imp_left And.left))
      ((digRounds_idle_or e _).imp_left And.left))

/-! ## The passes end (R126, R180) -/

/-- The slot is free, or holds an active ticket without a destination: there is work that may be done there once. -/
def Yard.openAt (y : Yard) (slot : Nat) : Bool :=
  match y.ticketAt slot with
  | none => true
  | some t => t.state.isActive && t.dest.isNone

def openCount (y : Yard) : Nat := (List.range 24).countP y.openAt

theorem openAt_free (h : y.ticketAt slot = none) : y.openAt slot = true := by
  unfold Yard.openAt
  rw [h]

theorem openAt_used (h : y.ticketAt slot = some t) : y.openAt slot = (t.state.isActive && t.dest.isNone) := by
  unfold Yard.openAt
  rw [h]

theorem openAt_extended {q : Bool} (h : Yard.Extends q y y') (hopen : y'.openAt slot = true) : y.openAt slot = true := by
  cases ht : y.ticketAt slot with
  | none => exact openAt_free ht
  | some t =>
    obtain ⟨t', ht', hx⟩ := h.tickets slot t ht
    rw [openAt_used ht', Bool.and_eq_true, Option.isNone_iff_eq_none] at hopen
    rw [openAt_used ht, Bool.and_eq_true, Option.isNone_iff_eq_none]
    refine ⟨hx.active.symm.trans hopen.1, ?_⟩
    by_contra hne
    exact hne ((hx.dest (Option.isSome_iff_ne_none.2 hne)).symm.trans hopen.2)

/-- Work that makes something closes a slot. -/
theorem openCount_makes (h : Yard.Makes y y') : openCount y' < openCount y := by
  have hclosed : ∃ j, j < 24 ∧ y.openAt j = true ∧ y'.openAt j = false := by
    obtain ⟨m, hm, -, hmem⟩ := h.queue
    rcases h.more with hlen | ⟨hlen, hmissing⟩
    · cases m with
      | nil =>
        rw [hm, List.append_nil] at hlen
        exact absurd hlen (Nat.lt_irrefl _)
      | cons j m =>
        obtain ⟨hj, hj'⟩ := (hmem j).1 List.mem_cons_self
        obtain ⟨t', ht'⟩ := Option.isSome_iff_exists.1 hj'
        refine ⟨j, Yard.ticketAt_lt _ _ _ ht', openAt_free hj, ?_⟩
        rw [openAt_used ht', ← Option.not_isSome, (h.made j t' hj ht').1, Bool.not_true, Bool.and_false]
    · have hqueue : y'.moveQueue = y.moveQueue := by
        rw [hm, List.length_append] at hlen
        rw [hm, List.length_eq_zero_iff.1 (by omega : m.length = 0), List.append_nil]
      unfold missingDests at hmissing
      rw [hqueue] at hmissing
      obtain ⟨j, -, hj, hj'⟩ : ∃ j ∈ y.moveQueue,
          (y.activeAt j && decide ((y.ticketAt j).bind (fun t => t.dest) = none)) = true
          ∧ ¬(y'.activeAt j && decide ((y'.ticketAt j).bind (fun t => t.dest) = none)) = true := by
        by_contra hall
        refine absurd hmissing (Nat.not_lt.2 (List.countP_mono_left fun j hj hp => ?_))
        by_contra hq
        exact hall ⟨j, hj, hp, hq⟩
      obtain ⟨t, ht, ha, hd⟩ := missingAt_iff.1 hj
      refine ⟨j, Yard.ticketAt_lt _ _ _ ht, by rw [openAt_used ht, ha, hd]; rfl, Bool.eq_false_iff.2 fun hopen => hj' ?_⟩
      obtain ⟨t', ht', -⟩ := h.tickets j t ht
      rw [openAt_used ht', Bool.and_eq_true, Option.isNone_iff_eq_none] at hopen
      exact missingAt_iff.2 ⟨t', ht', hopen⟩
  obtain ⟨j, hj, hopen, hclosed⟩ := hclosed
  exact countP_lt_of_imp (fun _ => openAt_extended h.toExtends) (List.mem_range.2 hj) hopen hclosed

theorem waitingWork_succ (e : Site) (n : Nat) (y : Yard) : waitingWork e (n + 1) y
    = if (waitingPass e y).moveQueue.length = y.moveQueue.length ∧ missingDests (waitingPass e y) = missingDests y
      then waitingPass e y else waitingWork e n (waitingPass e y) := rfl

/-- R180: the waiting work is passes one after another. -/
theorem waitingWork_iterate (e : Site) (n : Nat) (y : Yard) :
    ∃ m, waitingWork e (n + 1) y = (waitingPass e)^[m + 1] y := by
  induction n generalizing y with
  | zero =>
    refine ⟨0, ?_⟩
    rw [waitingWork_succ]
    exact ite_self _
  | succ n ih =>
    rw [waitingWork_succ]
    split
    · exact ⟨0, rfl⟩
    · obtain ⟨m, hm⟩ := ih (waitingPass e y)
      exact ⟨m + 1, hm⟩

/-- R126, R180: passes that are at least as many as the slots still open leave no work. -/
theorem worked_waitingWork (n : Nat) (y : Yard) (h : openCount y < n) : (waitingWork e n y).worked e := by
  induction n generalizing y with
  | zero => exact absurd h (Nat.not_lt_zero _)
  | succ n ih =>
    rw [waitingWork_succ]
    rcases waitingPass_idle_or e y with ⟨hpass, hworked⟩ | hmakes
    · rw [hpass, if_pos ⟨rfl, rfl⟩]
      exact hworked
    · have hmore := hmakes.more
      rw [if_neg (by omega)]
      have := openCount_makes hmakes
      exact ih _ (by omega)

theorem worked_restated (h : Yard.Restates y y') (hy : y.worked e) : y'.worked e := by
  obtain ⟨hpick, hrest⟩ := hy
  refine ⟨fun k hk => createPick_restated h (hpick k hk), fun slot hslot => ?_⟩
  rw [h.moveQueue] at hslot
  obtain ⟨hdig, hredirect⟩ := hrest slot hslot
  exact ⟨digRound_restated h hdig, redirectOne_restated h hredirect⟩

/-- R180: after the follow-up work nothing is left to be made. -/
theorem worked_followUp (e : Site) (y : Yard) : (followUp e y).worked e := by
  unfold followUp
  refine worked_restated ((restates_refreshLevels e _).trans (restates_refreshAll e _)) (worked_waitingWork 48 _ ?_)
  exact Nat.lt_of_le_of_lt List.countP_le_length (by rw [List.length_range]; decide)

theorem followUp_iterate (e : Site) (y : Yard) : ∃ n, followUp e y
    = refreshAll e (refreshLevels e ((waitingPass e)^[n + 1] (refreshLevels e (promoteAll y)))) := by
  obtain ⟨n, hn⟩ := waitingWork_iterate e 47 (refreshLevels e (promoteAll y))
  refine ⟨n, ?_⟩
  unfold followUp
  rw [hn]

end

end Sys2Proof.Machine
end

