-- ==== Sys2Proof/Proofs/ArbiterRules.lean ====
section
/-! PROOF. What the arbiter reads (R124, R139, R141 to R143): reach, the bays of a ticket and its span, the selection order and a
step of the walk, the occasions of an evaluation, and the cranes of its steps. -/

namespace Sys2Proof.Machine

section
variable {e : Site} {y y' : Yard} {slot k last : Nat} {t u : Ticket} {i c : Interval}

/-! ## Claims in order (R138, R167) -/

theorem claimsOrdered_evaluate (h : y.claimsOrdered) : (evaluate e y).claimsOrdered := by
  unfold evaluate
  split
  · exact h
  · rename_i hheld
    have hfull : y.full := heldBack_false hheld
    have hgrants : Yard.Grants e y (walks e 32 y) := grants_walks 32 y
    exact (hgrants.apart hfull h.apart).ordered (hgrants.full hfull 1 (by decide))

/-- R167: the claim of a crane that came home is written where it reaches, and is empty where homing failed. -/
theorem claimsOrdered_homedEffect {bay : Nat} (h : y.claimsOrdered) (hk : k < 3) (h1 : k = 1 ∨ y.claim 1 ≠ none) :
    (homedEffect y k bay).claimsOrdered := by
  unfold homedEffect
  dsimp only
  split
  · exact ((Yard.narrows_setClaim (.inr h) hk (c' := none) fun i hi => by cases hi).ordered h).of_eq fun _ => rfl
  · rename_i hok
    rw [not_or, Bool.not_eq_true, Bool.not_eq_false'] at hok
    have hset := h.apart.setClaim hk (Nat.le_refl bay) hok.2
    refine (hset.ordered ?_).of_eq fun _ => rfl
    rw [Yard.claim_setClaim _ _ _ hk]
    split
    · exact Option.some_ne_none _
    · rename_i hne
      exact h1.resolve_left hne

/-! ## Reach, bays and span (R139) -/

theorem reaches_iff (hk : k < 3) : reaches y k i = true
    ↔ (∀ j c, j + 1 = k → y.claim j = some c → c.hi < i.lo) ∧ ∀ c, y.claim (k + 1) = some c → i.hi < c.lo := by
  constructor
  · intro h
    obtain ⟨hlow, hhigh⟩ := reaches_apart h
    exact ⟨fun j c hj => hlow j c hj.symm, hhigh⟩
  · rintro ⟨hlow, hhigh⟩
    unfold reaches
    rw [Bool.and_eq_true]
    constructor
    · cases k with
      | zero => rfl
      | succ j =>
        cases hc : y.claim j with
        | none => simp [hc]
        | some c => simpa [hc] using hlow j c rfl hc
    · split
      · rfl
      · cases hc : y.claim (k + 1) with
        | none => rfl
        | some c => simpa using hhigh c hc

/-- R139: the bays of a destination, by what it names. -/
theorem destBays_eq {dests : List Nat} (hnone : t.dest = none → dests = [])
    (hstack : ∀ n, t.dest = some (.stack n) → dests = [(y.stack n).bay])
    (hlane : ∀ n, t.dest = some (.lane n) → dests = [(y.lane n).bay])
    (htruck : ∀ n, t.dest = some (.truck n) → dests = [(y.truck n).bay])
    (hbay : ∀ bay, t.dest = some (.bay bay) → dests = [bay]) : destBays y t = dests := by
  unfold destBays
  cases hd : t.dest with
  | none => exact (hnone hd).symm
  | some d =>
    cases d with
    | stack n => exact (hstack n hd).symm
    | lane n => exact (hlane n hd).symm
    | truck n => exact (htruck n hd).symm
    | bay b => exact (hbay b hd).symm

theorem neededBays_none (h : t.source = none ∨ ∃ j, t.source = some (.hook j)) : neededBays e y t = destBays y t := by
  unfold neededBays
  rcases h with h | ⟨j, h⟩ <;> rw [h]

theorem neededBays_yard {src : Location} (h : t.source = some src) (hhook : ∀ j, src ≠ .hook j) :
    neededBays e y t = sourceBay e y src :: destBays y t := by
  unfold neededBays
  rw [h]
  cases src with
  | hook j => exact absurd rfl (hhook j)
  | bed | lane | stack | truck => rfl

/-- R139: the smallest interval that contains a claim and the bays of a list. -/
theorem Interval.foldl_join_spec (c : Interval) (bs : List Nat) :
    (bs.foldl Interval.join c).lo ≤ c.lo ∧ c.hi ≤ (bs.foldl Interval.join c).hi
      ∧ (∀ b ∈ bs, (bs.foldl Interval.join c).lo ≤ b ∧ b ≤ (bs.foldl Interval.join c).hi)
      ∧ ((bs.foldl Interval.join c).lo = c.lo ∨ (bs.foldl Interval.join c).lo ∈ bs)
      ∧ ((bs.foldl Interval.join c).hi = c.hi ∨ (bs.foldl Interval.join c).hi ∈ bs) := by
  induction bs generalizing c with
  | nil => exact ⟨Nat.le_refl _, Nat.le_refl _, fun b hb => (by cases hb), .inl rfl, .inl rfl⟩
  | cons a bs ih =>
    obtain ⟨hlo, hhi, hall, hlos, hhis⟩ := ih (c.join a)
    have hjlo : (c.join a).lo = min c.lo a := rfl
    have hjhi : (c.join a).hi = max c.hi a := rfl
    rw [hjlo] at hlo hlos
    rw [hjhi] at hhi hhis
    rw [List.foldl_cons]
    refine ⟨by omega, by omega, fun b hb => ?_, ?_, ?_⟩
    · rcases List.mem_cons.1 hb with rfl | hb
      · omega
      · exact hall b hb
    · rcases hlos with h | h
      · rcases min_choice c.lo a with hm | hm
        · exact .inl (h.trans hm)
        · exact .inr (List.mem_cons.2 (.inl (h.trans hm)))
      · exact .inr (List.mem_cons_of_mem _ h)
    · rcases hhis with h | h
      · rcases max_choice c.hi a with hm | hm
        · exact .inl (h.trans hm)
        · exact .inr (List.mem_cons.2 (.inl (h.trans hm)))
      · exact .inr (List.mem_cons_of_mem _ h)

theorem span_claim (hc : y.claim k = some c) : span e y k t = some ((neededBays e y t).foldl Interval.join c) := by
  unfold span
  rw [hc]

theorem reachesTicket_iff : reachesTicket e y k t = true ↔ ∃ i, span e y k t = some i ∧ reaches y k i = true := by
  unfold reachesTicket
  cases span e y k t with
  | none => simp
  | some i => simp

/-! ## The selection order (R124, R142) -/

theorem TicketKind.priority_range (kind : TicketKind) : 1 ≤ kind.priority ∧ kind.priority ≤ 7 := by
  cases kind <;> decide

/-- R142: level first, then the kind, then the place in the queue. -/
theorem selectionKey_lt_iff {next : Nat} (ht : t.level < 4) (hu : u.level < 4) (hq : y.moveQueue.length ≤ 24) :
    selectionKey y slot t < selectionKey y next u ↔ u.level < t.level ∨ t.level = u.level
      ∧ (t.kind.priority < u.kind.priority ∨ t.kind.priority = u.kind.priority
        ∧ y.moveQueue.idxOf slot < y.moveQueue.idxOf next) := by
  have hslot : y.moveQueue.idxOf slot ≤ y.moveQueue.length := List.idxOf_le_length
  have hnext : y.moveQueue.idxOf next ≤ y.moveQueue.length := List.idxOf_le_length
  have := t.kind.priority_range
  have := u.kind.priority_range
  unfold selectionKey
  omega

/-! ## The least of a list (R142, R143) -/

theorem leastBy_eq_none {score : Nat → Nat} {xs : List Nat} : leastBy score xs = none ↔ xs = [] := by
  cases xs with
  | nil => exact ⟨fun _ => rfl, fun _ => rfl⟩
  | cons x xs =>
    refine ⟨fun h => ?_, fun h => by cases h⟩
    unfold leastBy at h
    split at h
    · split at h <;> cases h
    · cases h

/-- The first of those with the least score. -/
theorem leastBy_first {score : Nat → Nat} : ∀ {xs : List Nat} {b : Nat}, xs.Pairwise (· < ·) → leastBy score xs = some b →
    ∀ a ∈ xs, score b < score a ∨ score b = score a ∧ b ≤ a
  | [], _, _, h => by cases h
  | x :: xs, b, hs, h => by
    obtain ⟨hx, hs⟩ := List.pairwise_cons.1 hs
    unfold leastBy at h
    intro a ha
    split at h
    · rename_i b' hb'
      have hleast := leastBy_first hs hb'
      have hmem := hx b' (leastBy_mem hb')
      split at h
      · obtain rfl := Option.some.inj h
        rcases List.mem_cons.1 ha with rfl | ha
        · exact .inl ‹_›
        · exact hleast a ha
      · obtain rfl := Option.some.inj h
        rcases List.mem_cons.1 ha with rfl | ha
        · exact .inr ⟨rfl, Nat.le_refl _⟩
        · have := hleast a ha
          have := hx a ha
          omega
    · rename_i hnone
      obtain rfl := Option.some.inj h
      obtain rfl := leastBy_eq_none.1 hnone
      obtain rfl := List.mem_singleton.1 ha
      exact .inr ⟨rfl, Nat.le_refl _⟩

/-- The least score of a list, whatever its order. -/
theorem leastBy_least {score : Nat → Nat} : ∀ {xs : List Nat} {b : Nat}, leastBy score xs = some b →
    ∀ a ∈ xs, score b ≤ score a
  | [], _, h => by cases h
  | x :: xs, b, h => by
    unfold leastBy at h
    intro a ha
    split at h
    · rename_i b' hb'
      have hleast := leastBy_least hb'
      split at h
      · obtain rfl := Option.some.inj h
        rcases List.mem_cons.1 ha with rfl | ha
        · omega
        · exact hleast a ha
      · obtain rfl := Option.some.inj h
        rcases List.mem_cons.1 ha with rfl | ha
        · exact Nat.le_refl _
        · have := hleast a ha
          omega
    · rename_i hnone
      obtain rfl := Option.some.inj h
      obtain rfl := leastBy_eq_none.1 hnone
      obtain rfl := List.mem_singleton.1 ha
      exact Nat.le_refl _

/-- The crane of a step: the nearest of those that the step admits, the lowest number among equals. -/
theorem leastCrane {score : Nat → Nat} {p : Nat → Bool} {may : Nat → Prop} (hmay : ∀ k, may k ↔ k < 3 ∧ p k = true) :
    (leastBy score ([0, 1, 2].filter p) = none ↔ ∀ k, ¬may k)
    ∧ ∀ k, leastBy score ([0, 1, 2].filter p) = some k
      ↔ may k ∧ ∀ j, may j → score k < score j ∨ score k = score j ∧ k ≤ j := by
  have hmem : ∀ k, k ∈ [0, 1, 2].filter p ↔ may k := fun k => by
    rw [List.mem_filter, hmay]
    refine and_congr_left fun _ => ?_
    simp only [List.mem_cons, List.not_mem_nil, or_false]
    omega
  have hsorted : ([0, 1, 2].filter p).Pairwise (· < ·) := List.Pairwise.filter _ (by decide)
  refine ⟨?_, fun k => ⟨fun h => ?_, fun ⟨hk, hleast⟩ => ?_⟩⟩
  · rw [leastBy_eq_none, List.eq_nil_iff_forall_not_mem]
    exact forall_congr' fun k => not_congr (hmem k)
  · exact ⟨(hmem k).1 (leastBy_mem h), fun j hj => leastBy_first hsorted h j ((hmem j).2 hj)⟩
  · cases h : leastBy score ([0, 1, 2].filter p) with
    | none =>
      have hkm := (hmem k).2 hk
      rw [leastBy_eq_none.1 h] at hkm
      cases hkm
    | some n =>
      have hn := leastBy_first hsorted h k ((hmem k).2 hk)
      have hk := hleast n ((hmem n).1 (leastBy_mem h))
      have : n = k := by omega
      rw [this]

/-! ## A step of the walk (R141) -/

theorem readyKey_eq_some {key : Nat} : readyKey y last slot = some key
    ↔ ∃ t, y.ticketAt slot = some t ∧ t.state = .ready ∧ last < selectionKey y slot t ∧ key = selectionKey y slot t := by
  unfold readyKey
  cases ht : y.ticketAt slot with
  | none => simp
  | some t =>
    simp only [Option.some.injEq, exists_eq_left']
    split
    · rename_i h
      exact ⟨fun hk => ⟨h.1, h.2, (Option.some.inj hk).symm⟩, fun hk => congrArg some hk.2.2.symm⟩
    · rename_i h
      exact ⟨fun hk => (by cases hk), fun hk => absurd ⟨hk.1, hk.2.1⟩ h⟩

/-- R141: no READY ticket stands later in the order. -/
theorem nextReady_none (h : nextReady y last = none) :
    ∀ slot ∈ y.moveQueue, ∀ t, y.ticketAt slot = some t → t.state = .ready → selectionKey y slot t ≤ last := by
  intro slot hslot t ht hr
  by_contra hlt
  have hkey := readyKey_eq_some.2 ⟨t, ht, hr, Nat.lt_of_not_le hlt, rfl⟩
  have hnil := leastBy_eq_none.1 h
  have hmem : slot ∈ y.moveQueue.filter (fun s => (readyKey y last s).isSome) :=
    List.mem_filter.2 ⟨hslot, by rw [hkey]; rfl⟩
  rw [hnil] at hmem
  cases hmem

/-- R141: the next READY ticket in the order. -/
theorem nextReady_some (h : nextReady y last = some slot) : ∃ t, y.ticketAt slot = some t ∧ t.state = .ready
    ∧ last < selectionKey y slot t ∧ readyKey y last slot = some (selectionKey y slot t)
    ∧ ∀ other ∈ y.moveQueue, ∀ u, y.ticketAt other = some u → u.state = .ready → last < selectionKey y other u →
      selectionKey y slot t ≤ selectionKey y other u := by
  obtain ⟨key, hkey⟩ := Option.isSome_iff_exists.1 (List.mem_filter.1 (leastBy_mem h)).2
  obtain ⟨t, ht, hr, hlt, rfl⟩ := readyKey_eq_some.1 hkey
  refine ⟨t, ht, hr, hlt, hkey, fun other hother u hu hur hult => ?_⟩
  have hokey := readyKey_eq_some.2 ⟨u, hu, hur, hult, rfl⟩
  have hleast := leastBy_least h other (List.mem_filter.2 ⟨hother, by rw [hokey]; rfl⟩)
  rwa [hkey, hokey] at hleast

theorem walk_none (e : Site) (n : Nat) (h : nextReady y last = none) : walk e (n + 1) last y = (y, false) := by
  unfold walk
  rw [h]

theorem walk_some (e : Site) (n : Nat) {key : Nat} (h : nextReady y last = some slot) (hkey : readyKey y last slot = some key) :
    walk e (n + 1) last y
      = ((walk e n key (examine e y slot).1).1, (examine e y slot).2 || (walk e n key (examine e y slot).1).2) := by
  rw [walk]
  simp only [h, hkey]
  rfl

/-! ## The occasions of an evaluation (R141) -/

theorem ticketOccasion_iff {y0 y1 : Yard} {old : Option Ticket}
    (hold : old = if (y0.ticketSlot slot).gen = (y1.ticketSlot slot).gen then y0.ticketAt slot else none) :
    ticketOccasion y0 y1 slot = true ↔ ∃ t, y1.ticketAt slot = some t
      ∧ (t.state = .ready ∧ (∀ u, old = some u → u.state ≠ .ready)
        ∨ t.state.isActive = true ∧ ∃ u, old = some u ∧ u.state.isActive = true ∧ u.level ≠ t.level) := by
  unfold ticketOccasion
  rw [← hold]
  cases y1.ticketAt slot with
  | none => simp
  | some t =>
    simp only [Option.some.injEq, exists_eq_left', Bool.or_eq_true, Bool.and_eq_true, decide_eq_true_eq]
    cases old with
    | none => simp
    | some u => simp [and_assoc]

theorem craneOccasion_iff {y0 y1 : Yard} : craneOccasion y0 y1 k = true
    ↔ y0.claim k ≠ y1.claim k ∨ (y0.crane k).state ≠ .idle ∧ (y1.crane k).state = .idle := by
  unfold craneOccasion
  simp only [Bool.or_eq_true, Bool.and_eq_true, decide_eq_true_eq]

/-- R141: an occasion lies in a crane or in a ticket. -/
theorem occasion_iff {y0 y1 : Yard} {old : Nat → Option Ticket}
    (hold : ∀ slot, old slot = if (y0.ticketSlot slot).gen = (y1.ticketSlot slot).gen then y0.ticketAt slot else none) :
    occasion y0 y1 = true
      ↔ (∃ k, k < 3 ∧ (y0.claim k ≠ y1.claim k ∨ (y0.crane k).state ≠ .idle ∧ (y1.crane k).state = .idle))
        ∨ ∃ slot t, y1.ticketAt slot = some t ∧ (t.state = .ready ∧ (∀ u, old slot = some u → u.state ≠ .ready)
          ∨ t.state.isActive = true ∧ ∃ u, old slot = some u ∧ u.state.isActive = true ∧ u.level ≠ t.level) := by
  unfold occasion
  rw [Bool.or_eq_true, List.any_eq_true, List.any_eq_true, or_comm]
  refine or_congr ⟨fun ⟨k, hk, h⟩ => ⟨k, ?_, craneOccasion_iff.1 h⟩, fun ⟨k, hk, h⟩ => ⟨k, ?_, craneOccasion_iff.2 h⟩⟩
    ⟨fun ⟨slot, _, h⟩ => ⟨slot, (ticketOccasion_iff (hold slot)).1 h⟩, fun ⟨slot, t, ht, h⟩ => ?_⟩
  · simp only [List.mem_cons, List.not_mem_nil, or_false] at hk
    omega
  · have : k = 0 ∨ k = 1 ∨ k = 2 := by omega
    simpa using this
  · exact ⟨slot, List.mem_range.2 (Yard.ticketAt_lt _ _ _ ht), (ticketOccasion_iff (hold slot)).2 ⟨t, ht, h⟩⟩

/-! ## The idle-crane step (R142, R143) -/

/-- R142: a YIELD or PARK is for the crane bound to it. -/
theorem mayServe_bound (h : t.kind = .yield ∨ t.kind = .park) : mayServe y slot k t = true
    ↔ (y.crane k).state = .idle ∧ (y.crane k).hook = none ∧ (y.arb k).bound = some (y.ticketHandle slot) := by
  unfold mayServe
  rcases h with h | h <;> rw [h] <;> simp

/-- R142: a ticket whose piece is on a hook is for the crane of that hook. -/
theorem mayServe_hook {j : Nat} (hy : t.kind ≠ .yield) (hp : t.kind ≠ .park) (hs : t.source = some (.hook j)) :
    mayServe y slot k t = true ↔ (y.crane k).state = .idle ∧ j = k ∧ (y.crane k).hook = t.piece := by
  unfold mayServe
  cases hk : t.kind with
  | yield => exact absurd hk hy
  | park => exact absurd hk hp
  | strip | stow | shift | pick | dig => simp [hs]

theorem mayServe_yard (hy : t.kind ≠ .yield) (hp : t.kind ≠ .park) (hs : ∀ j, t.source ≠ some (.hook j)) :
    mayServe y slot k t = true ↔ (y.crane k).state = .idle ∧ (y.crane k).hook = none := by
  unfold mayServe
  cases hk : t.kind with
  | yield => exact absurd hk hy
  | park => exact absurd hk hp
  | strip | stow | shift | pick | dig =>
    dsimp only
    split
    · rename_i j hj
      exact absurd hj (hs j)
    · simp

/-- R143: the distance of a crane is that of its claim from the first bay that the ticket needs. -/
theorem craneDistance_eq {b : Nat} {rest : List Nat} (hc : y.claim k = some c) (hb : neededBays e y t = b :: rest) :
    craneDistance e y t k = (c.lo - b) + (b - c.hi) := by
  unfold craneDistance measureBay grantBay
  rw [hc, hb]
  rfl

end

end Sys2Proof.Machine
end

