-- ==== Sys2Proof/Proofs/ArbiterSteps.lean ====
section
/-! PROOF. What the arbiter's steps write (R127, R143 to R147): a grant, a preemption, the YIELD tickets for the neighbours that
block, and the order in which the steps are tried. -/

namespace Sys2Proof.Machine

section
variable {e : Site} {y y' : Yard} {slot k j : Nat} {t : Ticket} {i c : Interval}

/-! ## A grant (R127, R143, R157) -/

/-- R139: the bays of a ticket read the stacks, the lanes, the truck bays and the beds. -/
theorem neededBays_congr {t' : Ticket} (hstack : y'.stackRecs = y.stackRecs) (hlane : y'.lanes = y.lanes)
    (htruck : y'.trucks = y.trucks) (hs : t'.source = t.source) (hd : t'.dest = t.dest) :
    neededBays e y' t' = neededBays e y t := by
  have hdest : destBays y' t' = destBays y t := by
    unfold destBays destBay Yard.stack Yard.lane Yard.truck
    rw [hd, hstack, hlane, htruck]
  cases hsrc : t.source with
  | none => rw [neededBays_none (.inl hsrc), neededBays_none (.inl (hs.trans hsrc)), hdest]
  | some src =>
    cases src with
    | hook j => rw [neededBays_none (.inr ⟨j, hsrc⟩), neededBays_none (.inr ⟨j, hs.trans hsrc⟩), hdest]
    | bed | lane | stack | truck =>
      rw [neededBays_yard hsrc nofun, neededBays_yard (hs.trans hsrc) nofun, hdest]
      unfold sourceBay Yard.stack Yard.lane Yard.truck
      simp only [hstack, hlane, htruck]

theorem destBay_mem {d : Dest} (hd : t.dest = some d) : destBay y d ∈ neededBays e y t := mem_neededBays.2 (.inr ⟨d, hd, rfl⟩)

/-- R127, R143, R157: the records after a grant. -/
theorem grant_frame {b : Nat} {rest : List Nat} (hk : k < 3) (ht : y.ticketAt slot = some t)
    (hb : neededBays e y t = b :: rest) : (grant e y slot k t).arb k = { y.arb k with claim := span e y k t }
    ∧ (∀ j, j ≠ k → (grant e y slot k t).arb j = y.arb j)
    ∧ (grant e y slot k t).ticketSlot slot = ⟨(y.ticketSlot slot).gen,
        some { t with state := if t.fromHook then .lifted else .granted, crane := some k }⟩
    ∧ (∀ i, i ≠ slot → (grant e y slot k t).ticketSlot i = y.ticketSlot i)
    ∧ (grant e y slot k t).crane k = { y.crane k with
        state := .busy, current := some (y.ticketHandle slot), stage := some ⟨.travel, (y.crane k).nextSeq, b⟩
        nextSeq := ((y.crane k).nextSeq + 1) % 256
        timer := if (y.crane k).halted then (y.crane k).timer else some ⟨e.settings.stageTimeout, false⟩ }
    ∧ (∀ j, j ≠ k → (grant e y slot k t).crane j = y.crane j)
    ∧ (grant e y slot k t).link k = (y.link k).put (linkFrame 0x41 (y.crane k).nextSeq [BitVec.ofNat 8 b])
    ∧ (∀ j, j ≠ k → (grant e y slot k t).link j = y.link j)
    ∧ { grant e y slot k t with arbiter := y.arbiter, tickets := y.tickets, cranes := y.cranes, links := y.links } = y := by
  obtain ⟨z, hz⟩ : ∃ z, z = ((y.setClaim k (span e y k t)).updTicket slot (fun u => { u with
      state := if t.fromHook then .lifted else .granted, crane := some k })).updCrane k
      (fun c => { c with state := .busy, current := some (y.ticketHandle slot) }) := ⟨_, rfl⟩
  have hgrant : grant e y slot k t = sendStage e z k .travel b := by
    rw [hz]
    simp only [grant, grantBay, hb, List.headD_cons]
  have hzcrane : z.crane k = { y.crane k with state := .busy, current := some (y.ticketHandle slot) } := by
    rw [hz]
    exact Yard.crane_updCrane_same _ _ _ hk
  have hzcranes : ∀ j, j ≠ k → z.crane j = y.crane j := fun j hj => by
    rw [hz]
    exact Yard.crane_updCrane_ne _ _ _ _ hj.symm
  have hzlink : ∀ j, z.link j = y.link j := fun j => by
    rw [hz]
    rfl
  have harb : ∀ j, (sendStage e z k .travel b).arb j = (y.setClaim k (span e y k t)).arb j := fun j => by
    rw [hz]
    rfl
  have hslot : ∀ j, (sendStage e z k .travel b).ticketSlot j = (y.updTicket slot (fun u => { u with
      state := if t.fromHook then .lifted else .granted, crane := some k })).ticketSlot j := fun j => by
    rw [hz]
    rfl
  obtain ⟨hcrane, hlink, hothers, hrest⟩ := sendTravel_frame e z b hk
  rw [hgrant]
  refine ⟨?_, fun j hj => ?_, ?_, fun j hj => ?_, ?_, fun j hj => ?_, ?_, fun j hj => ?_, ?_⟩
  · rw [harb]
    exact Yard.arb_updArb_same _ _ _ hk
  · rw [harb]
    exact Yard.arb_updArb_ne _ _ _ _ hj.symm
  · rw [hslot, updTicket_slot _ _ _ (Yard.ticketAt_lt _ _ _ ht), ht]
    rfl
  · rw [hslot, updTicket_slot_ne _ _ _ _ hj]
  · rw [hcrane, hzcrane]
  · rw [(hothers j hj).1, hzcranes j hj]
  · rw [hlink, hzcrane, hzlink]
  · rw [(hothers j hj).2, hzlink]
  · have hkept : { z with arbiter := y.arbiter, tickets := y.tickets, cranes := y.cranes, links := y.links } = y := by
      rw [hz]
      rfl
    exact (congrArg (fun w : Yard => { w with
      arbiter := y.arbiter, tickets := y.tickets, cranes := y.cranes, links := y.links }) hrest).trans hkept

/-- R143: the claim of a grant holds every bay that the ticket needs. -/
theorem grant_claimCovers {b : Nat} {rest : List Nat} (hk : k < 3) (ht : y.ticketAt slot = some t) (hc : y.claim k = some c)
    (hb : neededBays e y t = b :: rest) : (grant e y slot k t).claimCovers e k := by
  obtain ⟨harb, -, hslot, -, hcrane, -⟩ := grant_frame (e := e) hk ht hb
  have hgen : (grant e y slot k t).ticketHandle slot = y.ticketHandle slot :=
    (congrArg (fun s : TicketSlot => Handle.mk slot s.gen) hslot :)
  have hstack : (grant e y slot k t).stackRecs = y.stackRecs := by simp [grant]
  have hlane : (grant e y slot k t).lanes = y.lanes := by simp [grant]
  have htruck : (grant e y slot k t).trucks = y.trucks := by simp [grant]
  have hneeded : ∀ t' : Ticket, t'.source = t.source → t'.dest = t.dest →
      neededBays e (grant e y slot k t) t' = neededBays e y t := fun _ => neededBays_congr hstack hlane htruck
  have hclaim : (grant e y slot k t).claim k = some ((neededBays e y t).foldl Interval.join c) :=
    (congrArg ArbiterRecord.claim harb).trans (span_claim hc)
  refine Yard.claimCovers_pair (by rw [hcrane, hgen]) (congrArg TicketSlot.ticket hslot) hclaim (fun o ho _ => ?_)
    ⟨fun _ a ha => ?_, fun h => ?_, fun _ d hd => ?_⟩
  · rw [hcrane] at ho
    obtain rfl := Option.some.inj ho
    exact Interval.foldl_holds c (by rw [hb]; exact List.mem_cons_self)
  · rw [hneeded { t with state := if t.fromHook then .lifted else .granted, crane := some k } rfl rfl] at ha
    exact Interval.foldl_holds c ha
  · dsimp only at h
    split at h <;> cases h
  · have hmem : destBay (grant e y slot k t) d ∈ neededBays e (grant e y slot k t) t := destBay_mem hd
    rw [hneeded t rfl rfl] at hmem
    exact Interval.foldl_holds c hmem

/-! ## A preemption (R144, R145) -/

/-- R144: crane `k` serves the GRANTED ticket `v` of the slot, of lower level than `t`. -/
def Yard.preemptsAt (y : Yard) (t : Ticket) (k slot : Nat) (v : Ticket) : Prop := (y.crane k).state = .busy
  ∧ ∃ h, (y.crane k).current = some h ∧ y.ticket? h = some v ∧ h.slot = slot ∧ v.state = .granted ∧ v.level < t.level

theorem preemptable_iff {u : Nat} : preemptable y k t = some u ↔ ∃ v, y.preemptsAt t k u v := by
  unfold preemptable Yard.preemptsAt
  split
  · rename_i hbusy
    cases hcur : (y.crane k).current with
    | none => simp
    | some g =>
      cases hv : y.ticket? g with
      | none => simp [hv]
      | some v =>
        simp only [hv]
        rw [Option.ite_none_right_eq_some]
        constructor
        · rintro ⟨hok, hu⟩
          exact ⟨v, hbusy, g, rfl, hv, Option.some.inj hu, hok⟩
        · rintro ⟨v', -, g', hg', hv', hu, hok⟩
          obtain rfl := Option.some.inj hg'
          obtain rfl := Option.some.inj (hv.symm.trans hv')
          exact ⟨hok, congrArg some hu⟩
  · rename_i hbusy
    exact ⟨fun h => (by cases h), fun ⟨_, hb, _⟩ => absurd hb hbusy⟩

theorem preemptScore_eq {u : Nat} {v : Ticket} (h : y.preemptsAt t k u v) :
    preemptScore y t k = v.level * 64 + (63 - y.moveQueue.idxOf u) := by
  obtain ⟨-, g, -, hv, rfl, -⟩ := id h
  unfold preemptScore
  rw [preemptable_iff.2 ⟨v, h⟩]
  dsimp only
  rw [(Yard.ticket?_eq_some.1 hv).2]
  rfl

/-- R144: the crane of the preemption step serves a ticket of the lowest level, the furthest back among those. -/
theorem preemptCrane_spec {served : Nat → Nat → Ticket → Prop} (hq : y.moveQueue.length ≤ 24)
    (hserved : ∀ k u v, served k u v ↔ k < 3 ∧ reachesTicket e y k t = true ∧ y.preemptsAt t k u v) :
    (preemptCrane e y t = none ↔ ∀ k u v, ¬served k u v)
    ∧ ∀ k, preemptCrane e y t = some k ↔ ∃ u v, served k u v ∧ ∀ j w x, served j w x →
      v.level < x.level ∨ v.level = x.level ∧ (y.moveQueue.idxOf w < y.moveQueue.idxOf u
        ∨ y.moveQueue.idxOf w = y.moveQueue.idxOf u ∧ k ≤ j) := by
  have hmay : ∀ k, (∃ u v, served k u v) ↔ k < 3 ∧ ((preemptable y k t).isSome && reachesTicket e y k t) = true := fun k => by
    rw [Bool.and_eq_true, Option.isSome_iff_exists]
    simp only [preemptable_iff, hserved]
    exact ⟨fun ⟨u, v, hk, hr, hp⟩ => ⟨hk, ⟨u, v, hp⟩, hr⟩, fun ⟨hk, ⟨u, v, hp⟩, hr⟩ => ⟨u, v, hk, hr, hp⟩⟩
  have hidx : ∀ u, y.moveQueue.idxOf u ≤ 24 := fun u => List.idxOf_le_length.trans hq
  obtain ⟨hnone, hsome⟩ := leastCrane (score := preemptScore y t) hmay
  refine ⟨hnone.trans (by simp only [not_exists]), fun k => (hsome k).trans ⟨fun ⟨⟨u, v, hk⟩, hleast⟩ =>
    ⟨u, v, hk, fun j w x hj => ?_⟩, fun ⟨u, v, hk, hleast⟩ => ⟨⟨u, v, hk⟩, fun j ⟨w, x, hj⟩ => ?_⟩⟩⟩
  · have hscore := hleast j ⟨w, x, hj⟩
    rw [preemptScore_eq ((hserved k u v).1 hk).2.2, preemptScore_eq ((hserved j w x).1 hj).2.2] at hscore
    have := hidx u
    have := hidx w
    omega
  · have hlevels := hleast j w x hj
    rw [preemptScore_eq ((hserved k u v).1 hk).2.2, preemptScore_eq ((hserved j w x).1 hj).2.2]
    have := hidx u
    have := hidx w
    omega

/-- R122, R127, R145: the preempted ticket goes back, evaluated, without a crane; the crane is granted the new one. -/
theorem preempt_frame {u : Nat} {v : Ticket} (h : y.preemptsAt t k u v) :
    ∃ y1 v1, preempt e y slot k t = grant e y1 slot k t
      ∧ y1.ticketSlot u = ⟨(y.ticketSlot u).gen, some v1⟩ ∧ (∀ i, i ≠ u → y1.ticketSlot i = y.ticketSlot i)
      ∧ { y1 with tickets := y.tickets } = y
      ∧ { v1 with state := v.state, waits := v.waits, crane := v.crane } = v ∧ v1.crane = none
      ∧ v1.waits = evalWaits e y1 u v1 ∧ v1.state = if v1.waits = .none then .ready else .pending := by
  obtain ⟨-, g, -, hv, rfl, -⟩ := id h
  have hat := (Yard.ticket?_eq_some.1 hv).2
  have hlt := Yard.ticketAt_lt _ _ _ hat
  obtain ⟨z, hz⟩ : ∃ z, z = y.updTicket g.slot (fun u => { u with state := .ready, crane := none }) := ⟨_, rfl⟩
  obtain ⟨v0, hv0⟩ : ∃ v0 : Ticket, v0 = { v with state := .ready, crane := none } := ⟨_, rfl⟩
  have hzat : z.ticketAt g.slot = some v0 := by
    rw [hz, Yard.ticketAt_updTicket_same _ _ _ hlt, hat, hv0]
    rfl
  have hwait : v0.state = .pending ∨ v0.state = .ready := .inr (by rw [hv0])
  have hreturn : returnTicket e y g.slot = refreshTicket e z g.slot := by
    rw [hz]
    rfl
  have hwaits : ∀ w : Ticket, v0.Restates w → evalWaits e (refreshTicket e z g.slot) g.slot w = evalWaits e z g.slot v0 :=
    fun w hw => (restates_refreshTicket e z g.slot).evalWaits g.slot hw
  rw [refreshTicket_eq hzat hwait] at hreturn hwaits
  refine ⟨returnTicket e y g.slot, { v0 with
    waits := evalWaits e z g.slot v0, state := if evalWaits e z g.slot v0 = .none then .ready else .pending }, ?_, ?_,
    fun n hn => ?_, ?_, ?_, ?_, ?_, rfl⟩
  · unfold preempt
    rw [preemptable_iff.2 ⟨v, h⟩]
  · rw [hreturn, updTicket_slot _ _ _ hlt, hzat, hz, gen_updTicket]
    rfl
  · rw [hreturn, updTicket_slot_ne _ _ _ _ hn, hz, updTicket_slot_ne _ _ _ _ hn]
  · rw [hreturn, hz]
    rfl
  · rw [hv0]
  · rw [hv0]
  · rw [hreturn, hwaits _ (Ticket.restates_evaluated _ hwait)]

/-! ## The neighbours that block (R146) -/

theorem mem_blockers : j ∈ blockers y k i ↔ (j + 1 = k ∧ ∃ c, y.claim j = some c ∧ i.lo ≤ c.hi)
    ∨ (k < 2 ∧ j = k + 1 ∧ ∃ c, y.claim j = some c ∧ c.lo ≤ i.hi) := by
  unfold blockers
  rw [List.mem_append]
  refine or_congr ?_ ?_
  · cases k with
    | zero => simp
    | succ n =>
      rw [Nat.add_sub_cancel]
      cases hc : y.claim n with
      | none =>
        refine ⟨fun h => (by cases h), fun ⟨hj, c, hjc, _⟩ => ?_⟩
        obtain rfl : j = n := by omega
        rw [hc] at hjc
        cases hjc
      | some c =>
        dsimp only
        constructor
        · intro h
          split at h
          · cases h
          · obtain rfl := List.mem_singleton.1 h
            exact ⟨rfl, c, hc, by omega⟩
        · rintro ⟨hj, c', hc', hle⟩
          obtain rfl : j = n := by omega
          obtain rfl := Option.some.inj (hc.symm.trans hc')
          rw [if_neg (by omega)]
          exact List.mem_singleton.2 rfl
  · by_cases hk : k ≥ 2
    · rw [if_pos hk]
      exact ⟨fun h => (by cases h), fun h => by omega⟩
    · rw [if_neg hk]
      cases hc : y.claim (k + 1) with
      | none =>
        refine ⟨fun h => (by cases h), fun ⟨_, hj, c, hjc, _⟩ => ?_⟩
        rw [hj, hc] at hjc
        cases hjc
      | some c =>
        dsimp only
        constructor
        · intro h
          split at h
          · cases h
          · obtain rfl := List.mem_singleton.1 h
            exact ⟨by omega, rfl, c, hc, by omega⟩
        · rintro ⟨-, rfl, c', hc', hle⟩
          obtain rfl := Option.some.inj (hc.symm.trans hc')
          rw [if_neg (by omega)]
          exact List.mem_singleton.2 rfl

theorem mem_blockers_iff (hk : k < 3) : j ∈ blockers y k i ↔ (j + 1 = k ∧ ∃ c, y.claim j = some c ∧ i.lo ≤ c.hi)
    ∨ (j = k + 1 ∧ ∃ c, y.claim j = some c ∧ c.lo ≤ i.hi) := by
  rw [mem_blockers]
  refine or_congr_right ⟨And.right, fun ⟨hj, c, hc, hle⟩ => ⟨?_, hj, c, hc, hle⟩⟩
  by_contra hk2
  rw [Yard.claim_ge y (by omega)] at hc
  cases hc

/-! ## The target of a neighbour (R146) -/

theorem yieldTarget_below {target : Nat} (hj : j + 1 = k) : yieldTarget k j i = some target ↔ target + 1 = i.lo := by
  unfold yieldTarget
  rw [if_pos (by omega)]
  split
  · exact ⟨fun h => (by cases h), fun h => by omega⟩
  · rw [Option.some_inj]
    omega

theorem yieldTarget_above {target : Nat} (hj : j = k + 1) :
    yieldTarget k j i = some target ↔ target = i.hi + 1 ∧ target < 64 := by
  unfold yieldTarget
  rw [if_neg (by omega)]
  split
  · rw [Option.some_inj]
    omega
  · exact ⟨fun h => (by cases h), fun h => by omega⟩

theorem mayYield_iff : mayYield y k j i = true ↔ (y.crane j).state = .idle ∧ (y.crane j).hook = none ∧ (y.arb j).bound = none
    ∧ ∃ target, yieldTarget k j i = some target ∧ targetClear y k j target = true := by
  unfold mayYield
  simp only [Bool.and_eq_true, decide_eq_true_eq, and_assoc]
  cases yieldTarget k j i <;> simp

theorem targetClear_below {target : Nat} (hj : j + 1 = k) :
    targetClear y k j target = true ↔ ∀ o c, o + 1 = j → y.claim o = some c → c.hi < target := by
  unfold targetClear
  rw [if_pos (by omega)]
  cases j with
  | zero => exact ⟨fun _ o c ho => by omega, fun _ => rfl⟩
  | succ n =>
    rw [Nat.add_sub_cancel]
    cases hc : y.claim n with
    | none =>
      refine ⟨fun _ o c ho hoc => ?_, fun _ => rfl⟩
      obtain rfl : o = n := by omega
      rw [hc] at hoc
      cases hoc
    | some c =>
      refine Iff.trans (decide_eq_true_eq (p := c.hi < target)).to_iff ?_
      refine ⟨fun h o c' ho hoc => ?_, fun h => h n c rfl hc⟩
      obtain rfl : o = n := by omega
      obtain rfl := Option.some.inj (hc.symm.trans hoc)
      exact h

theorem targetClear_above {target : Nat} (hj : j = k + 1) :
    targetClear y k j target = true ↔ ∀ c, y.claim (j + 1) = some c → target < c.lo := by
  unfold targetClear
  rw [if_neg (by omega)]
  by_cases h2 : j ≥ 2
  · rw [if_pos h2]
    refine ⟨fun _ c hc => ?_, fun _ => rfl⟩
    rw [Yard.claim_ge y (by omega)] at hc
    cases hc
  · rw [if_neg h2]
    cases hc : y.claim (j + 1) with
    | none => simp
    | some c => simp

/-- R146: the neighbour below goes to the bay below the span, clear of the crane below it. -/
theorem mayYield_below (hj : j + 1 = k) : mayYield y k j i = true
    ↔ (y.crane j).state = .idle ∧ (y.crane j).hook = none ∧ (y.arb j).bound = none
      ∧ 0 < i.lo ∧ ∀ o c, o + 1 = j → y.claim o = some c → c.hi + 1 < i.lo := by
  rw [mayYield_iff]
  refine and_congr_right fun _ => and_congr_right fun _ => and_congr_right fun _ => ?_
  simp only [yieldTarget_below hj, targetClear_below hj]
  constructor
  · rintro ⟨target, htarget, hclear⟩
    refine ⟨by omega, fun o c ho hc => ?_⟩
    have := hclear o c ho hc
    omega
  · rintro ⟨hlo, hclear⟩
    refine ⟨i.lo - 1, by omega, fun o c ho hc => ?_⟩
    have := hclear o c ho hc
    omega

/-- R146: the neighbour above goes to the bay above the span, clear of the crane above it. -/
theorem mayYield_above (hj : j = k + 1) : mayYield y k j i = true
    ↔ (y.crane j).state = .idle ∧ (y.crane j).hook = none ∧ (y.arb j).bound = none
      ∧ i.hi < 63 ∧ ∀ c, y.claim (j + 1) = some c → i.hi + 1 < c.lo := by
  rw [mayYield_iff]
  refine and_congr_right fun _ => and_congr_right fun _ => and_congr_right fun _ => ?_
  simp only [yieldTarget_above hj, targetClear_above hj]
  constructor
  · rintro ⟨target, ⟨rfl, hlt⟩, hclear⟩
    exact ⟨by omega, hclear⟩
  · rintro ⟨hhi, hclear⟩
    exact ⟨i.hi + 1, ⟨rfl, by omega⟩, hclear⟩

theorem yieldCandidate_iff : yieldCandidate e y t k = true ↔ (y.crane k).state = .idle ∧ (y.crane k).hook = none
    ∧ ∃ i, span e y k t = some i ∧ blockers y k i ≠ [] ∧ ∀ j ∈ blockers y k i, mayYield y k j i = true := by
  unfold yieldCandidate
  rw [Bool.and_eq_true, Bool.and_eq_true, decide_eq_true_eq, decide_eq_true_eq, and_assoc]
  refine and_congr_right fun _ => and_congr_right fun _ => ?_
  cases span e y k t with
  | none => simp
  | some i => simp

theorem makeYields_eq (hi : span e y k t = some i) : makeYields e y slot k t
    = (blockers y k i).foldl (makeYield e (y.ticketHandle slot) t.level k i) y := by
  unfold makeYields
  rw [hi]
  rfl

/-! ## The slot of a YIELD (R114) -/

theorem freeTicketSlot_none (h : ∀ slot, slot < 24 → y.ticketAt slot ≠ none) : y.freeTicketSlot = none := by
  cases hf : y.freeTicketSlot with
  | none => rfl
  | some free =>
    obtain ⟨hlt, hnone⟩ := Yard.freeTicketSlot_free hf
    exact absurd hnone (h free hlt)

/-- R114: the lowest-numbered free slot. -/
theorem freeTicketSlot_lowest (hlt : slot < 24) (hnone : y.ticketAt slot = none)
    (hlow : ∀ n, n < slot → y.ticketAt n ≠ none) : y.freeTicketSlot = some slot := by
  have hread : ∀ n (hn : n < 24), y.ticketAt n = (y.tickets[n]).ticket := fun n hn => by
    unfold Yard.ticketAt Yard.ticketSlot
    rw [getOr_lt _ _ _ hn]
  refine List.findIdx?_eq_some_iff_getElem.2 ⟨by simpa using hlt, ?_, fun n hn => ?_⟩
  · have := hread slot hlt
    simp [← this, hnone]
  · have := hread n (by omega)
    simp [← this, hlow n hn]

/-! ## The order of the steps (R143 to R147) -/

theorem fromYard_iff : t.fromYard = true ↔ t.piece ≠ none ∧ ∀ j, t.source ≠ some (.hook j) := by
  unfold Ticket.fromYard
  rw [Bool.and_eq_true, Option.isSome_iff_ne_none, Bool.not_eq_true', ← Bool.not_eq_true, Ticket.fromHook_iff, not_exists]

section
variable (ht : y.ticketAt slot = some t)
include ht

theorem examine_idle (h : idleCrane e y slot t = some k) : examine e y slot = (grant e y slot k t, true) := by
  unfold examine
  simp only [ht, h]

theorem examine_bound (h : idleCrane e y slot t = none) (hyard : ¬t.fromYard = true) : examine e y slot = (y, false) := by
  unfold examine
  simp only [ht, h, hyard]
  rfl

theorem examine_preempt (h : idleCrane e y slot t = none) (hyard : t.fromYard = true) (hp : preemptCrane e y t = some k) :
    examine e y slot = (preempt e y slot k t, true) := by
  unfold examine
  simp only [ht, h, hyard, if_true, hp]

theorem examine_yield (h : idleCrane e y slot t = none) (hyard : t.fromYard = true) (hp : preemptCrane e y t = none)
    (hk : yieldCrane e y t = some k) : examine e y slot
      = (makeYields e y slot k t, decide ((makeYields e y slot k t).moveQueue ≠ y.moveQueue)) := by
  unfold examine
  simp only [ht, h, hyard, if_true, hp, hk]

theorem examine_nothing (h : idleCrane e y slot t = none) (hyard : t.fromYard = true) (hp : preemptCrane e y t = none)
    (hk : yieldCrane e y t = none) : examine e y slot = (y, false) := by
  unfold examine
  simp only [ht, h, hyard, if_true, hp, hk]

end

end

end Sys2Proof.Machine
end

