-- ==== Sys2Proof/Proofs/Evaluations.lean ====
section
/-! PROOF. An evaluation (R140, R141) is walk after walk until one makes nothing, and then no READY ticket is left for which a
step makes something: every grant, preemption and yield raises a score that the three cranes bound. -/

namespace Sys2Proof.Machine

section
variable {e : Site} {y y' : Yard} {slot k j last : Nat} {t : Ticket} {i : Interval}

/-! ## The score of the work under way -/

/-- A crane that is not IDLE counts, and more with the level of its ticket. -/
def craneScore (y : Yard) (k : Nat) : Nat :=
  if (y.crane k).state = .idle then 0
  else
    match currentTicket y k with
    | some (_, t) => 2 + t.level
    | none => 1

/-- A crane with a bound ticket counts. -/
def boundScore (y : Yard) (k : Nat) : Nat := if (y.arb k).bound.isSome then 1 else 0

def workScore (y : Yard) : Nat :=
  craneScore y 0 + craneScore y 1 + craneScore y 2 + (boundScore y 0 + boundScore y 1 + boundScore y 2)

/-- The score rises with that of one crane. -/
theorem workScore_lt (hc : ∀ k, k < 3 → craneScore y k ≤ craneScore y' k) (hb : ∀ k, k < 3 → boundScore y k ≤ boundScore y' k)
    (hk : k < 3) (h : craneScore y k < craneScore y' k ∨ boundScore y k < boundScore y' k) : workScore y < workScore y' := by
  have := hc 0 (by decide)
  have := hc 1 (by decide)
  have := hc 2 (by decide)
  have := hb 0 (by decide)
  have := hb 1 (by decide)
  have := hb 2 (by decide)
  unfold workScore
  have hcases : k = 0 ∨ k = 1 ∨ k = 2 := by omega
  rcases hcases with rfl | rfl | rfl <;> omega

theorem craneScore_current (hstate : (y.crane k).state ≠ .idle) (hcur : currentTicket y k = some (slot, t)) :
    craneScore y k = 2 + t.level := by
  unfold craneScore
  rw [if_neg hstate, hcur]

theorem boundScore_le (h : Yard.Extends true y y') (k : Nat) : boundScore y k ≤ boundScore y' k := by
  unfold boundScore
  split
  · rename_i hb
    obtain ⟨g, hg⟩ := Option.isSome_iff_exists.1 hb
    rw [h.bound k g hg]
    exact Nat.le_refl 1
  · exact Nat.zero_le _

/-- A crane that keeps its state and its current ticket keeps its score. -/
theorem craneScore_le (h : Yard.Extends true y y') (hf : y'.fixed = y.fixed) (hstate : (y'.crane k).state = (y.crane k).state)
    (hcur : (y'.crane k).current = (y.crane k).current) : craneScore y k ≤ craneScore y' k := by
  by_cases hidle : (y.crane k).state = .idle
  · unfold craneScore
    rw [if_pos hidle]
    exact Nat.zero_le _
  · cases hc : currentTicket y k with
    | none =>
      unfold craneScore
      rw [if_neg hidle, hc, hstate, if_neg hidle]
      rcases currentTicket y' k with _ | ⟨slot, u⟩
      · exact Nat.le_refl 1
      · exact Nat.le_add_right_of_le (by decide : 1 ≤ 2)
    | some f =>
      obtain ⟨slot, t⟩ := f
      obtain ⟨g, hg, ht, rfl⟩ := currentTicket_eq_some.1 hc
      obtain ⟨hgen, hat⟩ := Yard.ticket?_eq_some.1 ht
      obtain ⟨t', ht', hx⟩ := h.tickets g.slot t hat
      have hc' : currentTicket y' k = some (g.slot, t') :=
        currentTicket_eq_some.2 ⟨g, hcur.trans hg, Yard.ticket?_eq_some.2 ⟨(gen_of_fixed hf _).trans hgen, ht'⟩, rfl⟩
      rw [craneScore_current hidle hc, craneScore_current (by rwa [hstate]) hc', hx.level rfl]

/-! ## Every step raises the score -/

theorem grant_crane_ne (hj : j ≠ k) : (grant e y slot k t).crane j = y.crane j := by
  unfold grant
  dsimp only
  rw [sendStage_crane_ne _ _ _ _ _ _ hj.symm, Yard.crane_updCrane_ne _ _ _ _ hj.symm]
  rfl

theorem craneScore_grant (hk : k < 3) (ht : y.ticketAt slot = some t) : craneScore (grant e y slot k t) k = 2 + t.level := by
  obtain ⟨hbusy, hcur, -⟩ := grant_crane (e := e) (y := y) (slot := slot) (t := t) hk
  have hgen := gen_of_fixed (fixed_grant e y slot k t) slot
  have hat : (grant e y slot k t).ticket? (y.ticketHandle slot) = _ := Yard.ticket?_eq_some.2 ⟨hgen, grant_ticketAt ht⟩
  have hscore := craneScore_current (by rw [hbusy]; decide) (currentTicket_eq_some.2 ⟨_, hcur, hat, rfl⟩)
  exact hscore

/-- R143: a grant to an IDLE crane. -/
theorem workScore_grant (hk : k < 3) (ht : y.ticketAt slot = some t) (ha : t.state.isActive = true)
    (hidle : (y.crane k).state = .idle) : workScore y < workScore (grant e y slot k t) := by
  have hact : y.activeAt slot = true := (activeAt_iff _ _).2 ⟨t, ht, ha⟩
  have hx : Yard.Extends true y (grant e y slot k t) := extends_grant e y slot k t hact
  have hzero : craneScore y k = 0 := if_pos hidle
  have hk' := craneScore_grant (e := e) hk ht
  refine workScore_lt (fun j _ => ?_) (fun j _ => boundScore_le hx j) hk (.inl (by omega))
  by_cases hj : j = k
  · subst hj
    omega
  · exact craneScore_le hx (fixed_grant e y slot k t) (by rw [grant_crane_ne hj]) (by rw [grant_crane_ne hj])

/-- R144, R145: a preemption puts a ticket of a higher level on the crane. -/
theorem workScore_preempt {u : Nat} {v : Ticket} (hk : k < 3) (ht : y.ticketAt slot = some t) (hr : t.state = .ready)
    (h : y.preemptsAt t k u v) : workScore y < workScore (preempt e y slot k t) := by
  have hact : y.activeAt slot = true := (activeAt_iff _ _).2 ⟨t, ht, by rw [hr]; rfl⟩
  have hx : Yard.Extends true y (preempt e y slot k t) := extends_preempt e y slot k t hact
  obtain ⟨hbusy, g, hg, hv, rfl, hgranted, hlevel⟩ := id h
  have hpreempt : preempt e y slot k t = grant e (returnTicket e y g.slot) slot k t := by
    unfold preempt
    rw [preemptable_iff.2 ⟨v, h⟩]
  have hne : g.slot ≠ slot := fun heq => by
    have hat := (Yard.ticket?_eq_some.1 hv).2
    rw [heq, ht] at hat
    obtain rfl := Option.some.inj hat
    rw [hr] at hgranted
    cases hgranted
  have hbefore : craneScore y k = 2 + v.level :=
    craneScore_current (by rw [hbusy]; decide) (currentTicket_eq_some.2 ⟨g, hg, hv, rfl⟩)
  have hafter : craneScore (preempt e y slot k t) k = 2 + t.level := by
    rw [hpreempt]
    exact craneScore_grant hk (by rw [returnTicket_ne hne, ht])
  refine workScore_lt (fun j _ => ?_) (fun j _ => boundScore_le hx j) hk (.inl (by omega))
  by_cases hj : j = k
  · subst hj
    omega
  · have hcrane : (preempt e y slot k t).crane j = y.crane j := by
      rw [hpreempt, grant_crane_ne hj, returnTicket_crane]
    exact craneScore_le hx (fixed_preempt e y slot k t) (by rw [hcrane]) (by rw [hcrane])

theorem Yard.YieldMade.crane {served : Handle} {level target free : Nat} (h : Yard.YieldMade e served level target free j y y')
    (k : Nat) : y'.crane k = y.crane k := (congrArg (fun z : Yard => getOr z.cranes k (.reset 0)) h.rest :)

/-- R147: a YIELD made gives a crane a bound ticket. -/
theorem workScore_makeYield {served : Handle} {level : Nat} (hj : j < 3) (hb : (y.arb j).bound = none) :
    makeYield e served level k i y j = y ∨ workScore y < workScore (makeYield e served level k i y j)
      ∧ y.moveQueue.length < (makeYield e served level k i y j).moveQueue.length := by
  have hx : Yard.Extends true y (makeYield e served level k i y j) := extends_makeYield e served level k i y j hb
  cases hfree : y.freeTicketSlot with
  | none => exact .inl (makeYield_full hfree)
  | some free =>
    cases htarget : yieldTarget k j i with
    | none =>
      refine .inl ?_
      rw [makeYield, hfree, htarget]
    | some target =>
      have hm := makeYield_made (e := e) (served := served) (level := level) hfree htarget
      refine .inr ⟨workScore_lt (fun n _ => craneScore_le hx (fixed_makeYield e served level k i y j)
        (by rw [hm.crane]) (by rw [hm.crane])) (fun n _ => boundScore_le hx n) hj (.inr ?_), ?_⟩
      · have hbound : ((makeYield e served level k i y j).arb j).bound = some (y.ticketHandle free) := by
          unfold Yard.arb
          rw [hm.arb, getOr_upd_same _ _ _ _ hj]
        unfold boundScore
        rw [hb, hbound]
        exact Nat.zero_lt_one
      · rw [hm.queue, List.length_append, List.length_singleton]
        exact Nat.lt_succ_self _

theorem workScore_makeYieldEach {served : Handle} {level : Nat} (js : List Nat) (y : Yard) (hn : js.Nodup)
    (hb : ∀ j ∈ js, j < 3 ∧ (y.arb j).bound = none) :
    js.foldl (makeYield e served level k i) y = y ∨ workScore y < workScore (js.foldl (makeYield e served level k i) y)
      ∧ y.moveQueue.length < (js.foldl (makeYield e served level k i) y).moveQueue.length := by
  induction js generalizing y with
  | nil => exact .inl rfl
  | cons j js ih =>
    obtain ⟨hj, hjs⟩ := List.nodup_cons.1 hn
    obtain ⟨hlt, hbound⟩ := hb j List.mem_cons_self
    rw [List.foldl_cons]
    have hrest := ih (makeYield e served level k i y j) hjs fun n hmem => by
      rw [makeYield_bound e served level k i y fun h : j = n => hj (h ▸ hmem)]
      exact hb n (List.mem_cons_of_mem _ hmem)
    rcases workScore_makeYield (e := e) (served := served) (level := level) (k := k) (i := i) hlt hbound with
      hid | ⟨hscore, hlen⟩
    · rwa [hid] at hrest ⊢
    · refine .inr ?_
      rcases hrest with hrest | ⟨hscore', hlen'⟩
      · rw [hrest]
        exact ⟨hscore, hlen⟩
      · exact ⟨hscore.trans hscore', hlen.trans hlen'⟩

/-- R143 to R147: the steps for a READY ticket make nothing, or raise the score. -/
theorem examine_works (ht : y.ticketAt slot = some t) (hr : t.state = .ready) :
    examine e y slot = (y, false) ∨ (examine e y slot).2 = true ∧ workScore y < workScore (examine e y slot).1 := by
  have ha : t.state.isActive = true := by rw [hr]; rfl
  have three : ∀ n, n ∈ [0, 1, 2] → n < 3 := by decide
  cases hidle : idleCrane e y slot t with
  | some k =>
    obtain ⟨hmem, hok⟩ := List.mem_filter.1 (leastBy_mem hidle)
    rw [Bool.and_eq_true] at hok
    rw [examine_idle ht hidle]
    exact .inr ⟨rfl, workScore_grant (three k hmem) ht ha (mayServe_idle hok.1)⟩
  | none =>
    by_cases hyard : t.fromYard = true
    · cases hp : preemptCrane e y t with
      | some k =>
        obtain ⟨hmem, hok⟩ := List.mem_filter.1 (leastBy_mem hp)
        rw [Bool.and_eq_true] at hok
        obtain ⟨u, hu⟩ := Option.isSome_iff_exists.1 hok.1
        obtain ⟨v, hv⟩ := preemptable_iff.1 hu
        rw [examine_preempt ht hidle hyard hp]
        exact .inr ⟨rfl, workScore_preempt (three k hmem) ht hr hv⟩
      | none =>
        cases hk : yieldCrane e y t with
        | none => exact .inl (examine_nothing ht hidle hyard hp hk)
        | some k =>
          have hk3 : k < 3 := three k (List.mem_filter.1 (leastBy_mem hk)).1
          obtain ⟨-, -, i, hi, -, hall⟩ := yieldCandidate_iff.1 (yieldCrane_candidate hk)
          rw [examine_yield ht hidle hyard hp hk, makeYields_eq hi]
          have heach := workScore_makeYieldEach (e := e) (served := y.ticketHandle slot) (level := t.level) (k := k) (i := i)
            (blockers y k i) y (blockers_nodup y k i) fun j hj => by
              refine ⟨?_, mayYield_bound (hall j hj)⟩
              have := mem_blockers.1 hj
              omega
          rcases heach with hid | ⟨hscore, hlen⟩
          · rw [hid]
            exact .inl (by simp)
          · refine .inr ⟨decide_eq_true fun hq => ?_, hscore⟩
            rw [hq] at hlen
            exact Nat.lt_irrefl _ hlen
    · exact .inl (examine_bound ht hidle hyard)

/-- R141: a walk makes nothing, or raises the score. -/
theorem walk_works (n last : Nat) (y : Yard) :
    walk e n last y = (y, false) ∨ (walk e n last y).2 = true ∧ workScore y < workScore (walk e n last y).1 := by
  induction n generalizing last y with
  | zero => exact .inl rfl
  | succ n ih =>
    cases hnext : nextReady y last with
    | none => exact .inl (walk_none e n hnext)
    | some slot =>
      obtain ⟨t, ht, hr, -, hkey, -⟩ := nextReady_some hnext
      rw [walk_some e n hnext hkey]
      rcases examine_works (e := e) ht hr with hex | ⟨hflag, hscore⟩
      · rw [hex, Bool.false_or]
        exact ih _ _
      · refine .inr ⟨by rw [hflag, Bool.true_or], ?_⟩
        rcases ih (selectionKey y slot t) (examine e y slot).1 with hid | ⟨-, hscore'⟩
        · rwa [hid]
        · exact hscore.trans hscore'

/-! ## Levels stay in their range (R123) -/

/-- R123: the four levels. -/
def Yard.levelsInRange (y : Yard) : Prop := ∀ slot t, y.ticketAt slot = some t → t.level < 4

theorem levelsInRange_extends (h : y.levelsInRange) (hx : Yard.Extends true y y')
    (hmade : ∀ j t, y.ticketAt j = none → y'.ticketAt j = some t → t.level < 4) : y'.levelsInRange := by
  intro j t' ht'
  cases hj : y.ticketAt j with
  | none => exact hmade j t' hj ht'
  | some t =>
    obtain ⟨u, hu, hx⟩ := hx.tickets j t hj
    obtain rfl := Option.some.inj (ht'.symm.trans hu)
    rw [hx.level rfl]
    exact h j t hj

theorem levelsInRange_of_queue (h : y.levelsInRange) (hx : Yard.Extends true y y') (hq : y'.moveQueue = y.moveQueue) :
    y'.levelsInRange := levelsInRange_extends h hx fun j t hj ht => by
  rw [hx.no_new hq hj] at ht
  cases ht

theorem levelsInRange_makeYield {served : Handle} {level : Nat} (h : y.levelsInRange) (hlevel : level < 4) :
    (makeYield e served level k i y j).levelsInRange := by
  cases hfree : y.freeTicketSlot with
  | none => rwa [makeYield_full hfree]
  | some free =>
    cases htarget : yieldTarget k j i with
    | none => rwa [makeYield, hfree, htarget]
    | some target =>
      have hm := makeYield_made (e := e) (served := served) (level := level) hfree htarget
      intro n u hu
      by_cases hn : n = free
      · subst hn
        obtain rfl : Ticket.yieldFor e served level target = u :=
          Option.some.inj ((congrArg TicketSlot.ticket hm.made).symm.trans hu)
        exact hlevel
      · exact h n u ((congrArg TicketSlot.ticket (hm.others n hn)).symm.trans hu)

theorem levelsInRange_makeYields (h : y.levelsInRange) (hlevel : t.level < 4) : (makeYields e y slot k t).levelsInRange := by
  have heach : ∀ (served : Handle) (i : Interval) (js : List Nat) (y : Yard), y.levelsInRange →
      (forEach js (makeYield e served t.level k i) y).levelsInRange := by
    intro served i js
    unfold forEach
    induction js with
    | nil => exact fun _ h => h
    | cons j js ih => exact fun y h => ih _ (levelsInRange_makeYield h hlevel)
  unfold makeYields
  split
  · exact heach _ _ _ y h
  · exact h

theorem levelsInRange_examine (h : y.levelsInRange) (ht : y.ticketAt slot = some t) (hr : t.state = .ready) :
    (examine e y slot).1.levelsInRange := by
  have hact : y.activeAt slot = true := (activeAt_iff _ _).2 ⟨t, ht, by rw [hr]; rfl⟩
  unfold examine
  rw [ht]
  dsimp only
  split
  · exact levelsInRange_of_queue h (extends_grant e y slot _ _ hact) (grant_moveQueue y)
  · split
    · split
      · exact levelsInRange_of_queue h (extends_preempt e y slot _ _ hact) preempt_moveQueue
      · split
        · exact levelsInRange_makeYields h (h slot t ht)
        · exact h
    · exact h

theorem levelsInRange_walk (h : y.levelsInRange) (n last : Nat) : (walk e n last y).1.levelsInRange :=
  walk_keeps (P := Yard.levelsInRange) (fun _ _ _ h _ ht hr => levelsInRange_examine h ht hr) n last y h

/-- Three cranes at the highest level, each with a bound ticket. -/
theorem workScore_bounded (h : y.levelsInRange) : workScore y ≤ 18 := by
  have hcrane : ∀ k, craneScore y k ≤ 5 := fun k => by
    unfold craneScore
    split
    · exact Nat.zero_le _
    · split
      · rename_i slot t hcur
        have := h slot t (currentTicket_at hcur)
        omega
      · decide
  have hbound : ∀ k, boundScore y k ≤ 1 := fun k => by
    unfold boundScore
    split <;> decide
  have := hcrane 0
  have := hcrane 1
  have := hcrane 2
  have := hbound 0
  have := hbound 1
  have := hbound 2
  unfold workScore
  omega

/-! ## A walk that makes nothing has met every READY ticket (R141) -/

/-- The queue grows by no more than the 24 slots. -/
theorem Yard.Extends.queue_length {q : Bool} (h : Yard.Extends q y y') : y'.moveQueue.length ≤ y.moveQueue.length + 24 := by
  obtain ⟨m, hm, hn, hmem⟩ := h.queue
  have hsub : m ⊆ List.range 24 := fun j hj => by
    obtain ⟨t', ht'⟩ := Option.isSome_iff_exists.1 ((hmem j).1 hj).2
    exact List.mem_range.2 (Yard.ticketAt_lt _ _ _ ht')
  have hlen := (hn.subperm hsub).length_le
  rw [List.length_range] at hlen
  rw [hm, List.length_append]
  omega

/-- R142: the place of a ticket in the selection order is its own. -/
theorem selectionKey_inj {next : Nat} {u : Ticket} (hq : y.moveQueue.length ≤ 48) (hslot : slot ∈ y.moveQueue)
    (h : selectionKey y slot t = selectionKey y next u) : slot = next := by
  have hi : y.moveQueue.idxOf slot ≤ y.moveQueue.length := List.idxOf_le_length
  have hj : y.moveQueue.idxOf next ≤ y.moveQueue.length := List.idxOf_le_length
  have := t.kind.priority_range
  have := u.kind.priority_range
  unfold selectionKey at h
  exact (List.idxOf_inj hslot).1 (by omega)

/-- The tickets that the walk is still to meet. -/
def unmet (y : Yard) (last : Nat) : Nat :=
  (List.range 24).countP (fun slot => y.moveQueue.contains slot && (readyKey y last slot).isSome)

theorem unmet_iff : (y.moveQueue.contains slot && (readyKey y last slot).isSome) = true
    ↔ slot ∈ y.moveQueue ∧ ∃ t, y.ticketAt slot = some t ∧ t.state = .ready ∧ last < selectionKey y slot t := by
  rw [Bool.and_eq_true, List.contains_iff_mem, Option.isSome_iff_exists]
  refine and_congr_right fun _ => ⟨fun ⟨key, h⟩ => ?_, fun ⟨t, ht, hr, hlt⟩ => ⟨_, readyKey_eq_some.2 ⟨t, ht, hr, hlt, rfl⟩⟩⟩
  obtain ⟨t, ht, hr, hlt, -⟩ := readyKey_eq_some.1 h
  exact ⟨t, ht, hr, hlt⟩

theorem unmet_next (h : nextReady y last = some slot) (ht : y.ticketAt slot = some t) :
    unmet y (selectionKey y slot t) < unmet y last := by
  obtain ⟨u, hu, hr, hlt, -⟩ := nextReady_some h
  obtain rfl := Option.some.inj (ht.symm.trans hu)
  refine countP_lt_of_imp (fun n hn => ?_) (List.mem_range.2 (Yard.ticketAt_lt _ _ _ ht))
    (unmet_iff.2 ⟨nextReady_mem h, t, ht, hr, hlt⟩) (Bool.eq_false_iff.2 fun hn => ?_)
  · obtain ⟨hmem, v, hv, hvr, hvlt⟩ := unmet_iff.1 hn
    exact unmet_iff.2 ⟨hmem, v, hv, hvr, hlt.trans hvlt⟩
  · obtain ⟨-, v, hv, -, hvlt⟩ := unmet_iff.1 hn
    obtain rfl := Option.some.inj (ht.symm.trans hv)
    exact Nat.lt_irrefl _ hvlt

/-- R141: where a walk makes nothing, no step makes anything for a READY ticket that it meets. -/
theorem walk_idle (hq : y.moveQueue.length ≤ 48) (n last : Nat) (hn : unmet y last < n)
    (h : walk e n last y = (y, false)) : ∀ slot ∈ y.moveQueue, ∀ t, y.ticketAt slot = some t → t.state = .ready →
      last < selectionKey y slot t → examine e y slot = (y, false) := by
  induction n generalizing last with
  | zero => exact absurd hn (Nat.not_lt_zero _)
  | succ n ih =>
    intro slot hslot t ht hr hlt
    cases hnext : nextReady y last with
    | none => exact absurd (nextReady_none hnext slot hslot t ht hr) (Nat.not_le.2 hlt)
    | some next =>
      obtain ⟨u, hu, hur, hult, hkey, hleast⟩ := nextReady_some hnext
      rw [walk_some e n hnext hkey, Prod.mk.injEq, Bool.or_eq_false_iff] at h
      obtain ⟨-, hflag, hrest⟩ := h
      have hex : examine e y next = (y, false) := by
        refine (examine_works hu hur).resolve_right fun hw => ?_
        rw [hflag] at hw
        cases hw.1
      rw [hex] at hrest
      by_cases hsame : slot = next
      · rwa [hsame]
      · have hle := hleast slot hslot t ht hr hlt
        have hne : selectionKey y next u ≠ selectionKey y slot t := fun heq =>
          hsame (selectionKey_inj hq (nextReady_mem hnext) heq).symm
        have hunmet := unmet_next hnext hu
        refine ih (selectionKey y next u) (by omega) ?_ slot hslot t ht hr (Nat.lt_of_le_of_ne hle hne)
        refine (walk_works n _ y).resolve_right fun hw => ?_
        rw [hrest] at hw
        cases hw.1

theorem selectionKey_pos (y : Yard) (slot : Nat) (t : Ticket) : 0 < selectionKey y slot t := by
  have := t.kind.priority_range
  unfold selectionKey
  omega

/-! ## Walks until one makes nothing (R141) -/

theorem walks_succ (e : Site) (n : Nat) (y : Yard) :
    walks e (n + 1) y = if (walk e 25 0 y).2 then walks e n (walk e 25 0 y).1 else (walk e 25 0 y).1 := rfl

/-- R141: the walks end with the first that makes nothing. -/
theorem walks_spec (m : Nat) (y : Yard) (after : Nat → Yard) (hl : y.levelsInRange) (hm : 18 < workScore y + m)
    (h0 : after 0 = y) (hstep : ∀ n, after (n + 1) = (walk e 25 0 (after n)).1) :
    ∃ n, walks e m y = after (n + 1) ∧ ∀ j, j ≤ n → ((walk e 25 0 (after j)).2 = true ↔ j < n) := by
  induction m generalizing y after with
  | zero =>
    have := workScore_bounded hl
    omega
  | succ m ih =>
    rw [walks_succ]
    have hfirst : after 1 = (walk e 25 0 y).1 := by rw [hstep, h0]
    rcases walk_works (e := e) 25 0 y with hid | ⟨hflag, hscore⟩
    · refine ⟨0, by rw [hfirst, hid]; rfl, fun j hj => ?_⟩
      obtain rfl : j = 0 := by omega
      rw [h0, hid]
      simp
    · rw [if_pos hflag]
      obtain ⟨n, hn, hflags⟩ := ih (walk e 25 0 y).1 (fun n => after (n + 1)) (levelsInRange_walk hl 25 0) (by omega) hfirst
        fun n => hstep (n + 1)
      refine ⟨n + 1, hn, fun j hj => ?_⟩
      cases j with
      | zero =>
        rw [h0]
        exact ⟨fun _ => Nat.succ_pos n, fun _ => hflag⟩
      | succ j => exact (hflags j (by omega)).trans (Nat.succ_lt_succ_iff).symm

/-- R140, R141: an evaluation is walks until one makes nothing, and leaves no READY ticket for which a step makes something. -/
theorem evaluate_spec (after : Nat → Yard) (hstop : e.stop = false) (hfull : ∀ k, k < 3 → y.claim k ≠ none)
    (hq : y.moveQueue.length ≤ 24) (hl : y.levelsInRange) (h0 : after 0 = y)
    (hstep : ∀ n, after (n + 1) = (walk e 25 0 (after n)).1) :
    (∃ n, evaluate e y = after (n + 1) ∧ ∀ j, j ≤ n → ((walk e 25 0 (after j)).2 = true ↔ j < n))
    ∧ ∀ slot ∈ (evaluate e y).moveQueue, ∀ t, (evaluate e y).ticketAt slot = some t → t.state = .ready →
      examine e (evaluate e y) slot = (evaluate e y, false) := by
  have hheld : ¬heldBack e y = true := by
    unfold heldBack someClaimEmpty
    simp [hstop, hfull 0, hfull 1, hfull 2]
  have heval : evaluate e y = walks e 32 y := by
    unfold evaluate
    exact if_neg hheld
  obtain ⟨n, hn, hflags⟩ := walks_spec (e := e) 32 y after hl (by omega) h0 hstep
  rw [← heval] at hn
  refine ⟨⟨n, hn, hflags⟩, ?_⟩
  have hreach : ∀ n, (after n).levelsInRange ∧ Yard.Extends true y (after n) := by
    intro n
    induction n with
    | zero => exact ⟨h0.symm ▸ hl, h0.symm ▸ Yard.Extends.refl y⟩
    | succ n ih =>
      rw [hstep]
      exact ⟨levelsInRange_walk ih.1 25 0, ih.2.trans (extends_walk e 25 0 _)⟩
  obtain ⟨-, hxn⟩ := hreach n
  have hlast : walk e 25 0 (after n) = (after n, false) := by
    refine (walk_works 25 0 (after n)).resolve_right fun hw => ?_
    exact Nat.lt_irrefl n ((hflags n (Nat.le_refl n)).1 hw.1)
  have hsame : evaluate e y = after n := by rw [hn, hstep, hlast]
  rw [hsame]
  have hlen := hxn.queue_length
  have hunmet : unmet (after n) 0 < 25 :=
    Nat.lt_of_le_of_lt List.countP_le_length (by rw [List.length_range]; decide)
  exact fun slot hslot t ht hr => walk_idle (by omega) 25 0 hunmet hlast slot hslot t ht hr (selectionKey_pos _ _ _)

end

end Sys2Proof.Machine
end

