-- ==== Sys2Proof/Proofs/ClaimsAfterReports.lean ====
section
/-! PROOF. The claim of a crane after an arrival and after a good lift (R151, R152, R184) holds the bays that its ticket still
needs, whatever the other tickets of the yard are. -/

namespace Sys2Proof.Machine

section
variable {e : Site} {y y' : Yard} {slot k : Nat} {t u : Ticket} {c : Interval} {o : StageOrder} {p : Handle} {src : Location}

/-! ## One crane and its ticket -/

/-- R157: a TRAVEL under way of the crane is within the claim. -/
def Yard.travelHeld (y : Yard) (k : Nat) (c : Interval) : Prop :=
  ∀ o, (y.crane k).stage = some o → o.kind = .travel → c.holds o.arg = true

/-- The crane serves the ticket in the slot, and its claim holds what the ticket still needs. -/
structure Yard.worksOn (e : Site) (y : Yard) (k slot : Nat) (t : Ticket) : Prop where
  current : (y.crane k).current = some (y.ticketHandle slot)
  ticket  : y.ticketAt slot = some t
  held    : ∃ c, y.claim k = some c ∧ y.travelHeld k c ∧ t.heldBy e y c

theorem Yard.worksOn.covers (h : y.worksOn e k slot t) : y.claimCovers e k := by
  obtain ⟨c, hc, htravel, hheld⟩ := h.held
  exact Yard.claimCovers_pair h.current h.ticket hc htravel hheld

theorem worksOn_of_covers (ht : currentTicket y k = some (slot, t)) (h : y.claimCovers e k) : y.worksOn e k slot t := by
  obtain ⟨g, hg, hgt, rfl⟩ := currentTicket_eq_some.1 ht
  obtain ⟨hgen, hat⟩ := Yard.ticket?_eq_some.1 hgt
  refine ⟨hg.trans (congrArg some ?_), hat, ((Yard.claimCovers_iff k).1 h).2 g.slot t ht⟩
  exact congrArg (Handle.mk g.slot) hgen.symm

/-- The next stage of the ticket, which is no TRAVEL. -/
theorem worksOn_nextStage {f : Ticket → Ticket} {kind : OrderKind} {arg : Nat} (hk : k < 3) (h : y.worksOn e k slot t)
    (hf : ∀ u, ((f u).baseLevel, (f u).level) = (u.baseLevel, u.level)) (hkind : kind ≠ .travel) (hheld : (f t).heldBy e y c) :
    (y.nextStage e k slot f (some c) kind arg).worksOn e k slot (f t) := by
  have hsp : Yard.Spares e k slot y (y.nextStage e k slot f (some c) kind arg) := spares_nextStage hf
  obtain ⟨-, hcur, hstage⟩ := sendStage_job (e := e) (y := (y.updTicket slot f).setClaim k (some c)) kind arg hk
  refine ⟨?_, nextStage_ticketAt h.ticket, c, ?_, fun o ho htravel => ?_, fun hst b hb => ?_, fun hst src hs => ?_,
    fun hst d hd => ?_⟩
  · rw [hsp.ticketHandle, ← h.current]
    exact hcur
  · rw [nextStage_claim, Yard.claim_setClaim_same _ _ _ hk]
  · unfold Yard.nextStage at ho
    rw [hstage] at ho
    obtain rfl := Option.some.inj ho
    exact absurd htravel hkind
  · rw [hsp.neededBays_eq rfl rfl] at hb
    exact hheld.granted hst b hb
  · have hbay : sourceBay e (y.nextStage e k slot f (some c) kind arg) src = sourceBay e y src := by
      cases src with
      | hook j =>
        refine (proj_getOr_upd CraneRecord.lastBay _ k _ _ ?_ j).trans
          (proj_getOr_upd CraneRecord.lastBay y.cranes k (fun r => { r with nextSeq := (r.nextSeq + 1) % 256 }) _ rfl j)
        unfold CraneRecord.restart
        split <;> rfl
      | bed | lane | stack | truck => rfl
    rw [hbay]
    exact hheld.lifting hst src hs
  · rw [hsp.destBay]
    exact hheld.laden hst d hd

/-- R159: the bay of a report written. -/
theorem worksOn_lastBay (hk : k < 3) (bay : Nat) (h : y.worksOn e k slot t) (hst : t.state = .granted ∨ t.state = .lifted) :
    (y.updCrane k (fun c => { c with lastBay := bay })).worksOn e k slot t := by
  have hsp : Yard.Spares e k slot y (y.updCrane k (fun c => { c with lastBay := bay })) := spares_lastBay y k bay k slot
  have hcrane : (y.updCrane k (fun c => { c with lastBay := bay })).crane k = { y.crane k with lastBay := bay } :=
    Yard.crane_updCrane_same _ _ _ hk
  obtain ⟨c, hc, htravel, hheld⟩ := h.held
  refine ⟨by rw [hcrane]; exact h.current, h.ticket, c, hc, fun o ho => ?_, fun hg b hb => ?_, fun hl => ?_, fun hl d hd => ?_⟩
  · rw [hcrane] at ho
    exact htravel o ho
  · rw [hsp.neededBays_eq rfl rfl] at hb
    exact hheld.granted hg b hb
  · rw [hl] at hst
    rcases hst with hst | hst <;> cases hst
  · rw [hsp.destBay]
    exact hheld.laden hl d hd

/-- R131: a laden ticket without a destination needs no bay more. -/
theorem heldBy_waits (hst : t.state = .lifted) (hd : t.dest = none) : t.heldBy e y c := by
  refine ⟨fun h => ?_, fun h => ?_, fun _ d h => ?_⟩
  · rw [hst] at h
    cases h
  · rw [hst] at h
    cases h
  · rw [hd] at h
    cases h

/-- R152, R159: the stage order answered and none sent. -/
theorem worksOn_clearStage (hk : k < 3) (h : y.worksOn e k slot t) : (clearStage e y k).worksOn e k slot t := by
  obtain ⟨-, hcur, hstage⟩ := clearStage_crane (e := e) (y := y) hk
  obtain ⟨c, hc, -, hheld⟩ := h.held
  have hsp : Yard.Spares e k slot y (clearStage e y k) := spares_clearStage y
  refine ⟨hcur.trans h.current, h.ticket, c, hc, fun o ho => ?_, fun hg b hb => ?_, fun hl src hs => ?_, fun hl d hd => ?_⟩
  · rw [hstage] at ho
    cases ho
  · rw [hsp.neededBays_eq rfl rfl] at hb
    exact hheld.granted hg b hb
  · have hbay : sourceBay e (clearStage e y k) src = sourceBay e y src := by
      cases src with
      | hook j =>
        refine proj_getOr_upd CraneRecord.lastBay y.cranes k _ _ ?_ j
        unfold CraneRecord.restart
        split_ifs <;> rfl
      | bed | lane | stack | truck => rfl
    rw [hbay]
    exact hheld.lifting hl src hs
  · exact hheld.laden hl d hd

/-- R152, R184: the claim shrunk to one bay while a laden ticket waits for a destination. -/
theorem worksOn_setClaim (hk : k < 3) (h : y.worksOn e k slot t) (hst : t.state = .lifted) (hd : t.dest = none) (b : Nat) :
    (clearStage e (y.setClaim k (some (.single b))) k).worksOn e k slot t := by
  obtain ⟨-, hcur, hstage⟩ := clearStage_crane (e := e) (y := y.setClaim k (some (.single b))) hk
  refine ⟨hcur.trans h.current, h.ticket, _, Yard.claim_setClaim_same _ _ _ hk, fun o ho => ?_, heldBy_waits hst hd⟩
  rw [hstage] at ho
  cases ho

/-! ## ARRIVED (R150 to R152) -/

/-- R152: at the destination the claim is its bay. -/
theorem covers_arriveLaden (hk : k < 3) (bay : Nat) (h : y.worksOn e k slot t) (hst : t.state = .lifted) :
    (arriveLaden e y k slot bay t).claimCovers e k := by
  unfold arriveLaden
  split
  · rename_i d hd
    refine (worksOn_nextStage (c := .single (destBay y d)) (f := fun u => { u with state := .setting }) (arg := 0) hk h
      (fun _ => rfl) (kind := .lower) OrderKind.noConfusion
      ⟨fun h => (by cases h), fun h => (by cases h), fun _ d' hd' => ?_⟩).covers
    obtain rfl := Option.some.inj (hd.symm.trans hd')
    exact Interval.single_holds _
  · rename_i hd
    exact (worksOn_setClaim hk h hst hd bay).covers

/-- R151: at the source the claim is the travel interval. -/
theorem covers_arriveSource (hk : k < 3) (h : y.worksOn e k slot t) (hs : t.source = some src) (hhook : ∀ j, src ≠ .hook j) :
    (arriveSource e y k slot t).claimCovers e k := by
  have hneeded : neededBays e y t = sourceBay e y src :: destBays y t := neededBays_yard hs hhook
  obtain ⟨c, hc⟩ : ∃ c, travelInterval e y t = some c := by
    unfold travelInterval
    rw [hneeded]
    exact ⟨_, rfl⟩
  obtain ⟨-, -, hall⟩ := hull_eq_some hc
  unfold arriveSource
  rw [hc]
  refine (worksOn_nextStage (c := c) (f := fun u => { u with state := .lifting }) hk h (fun _ => rfl) (kind := .lift)
    OrderKind.noConfusion ⟨fun h => (by cases h), fun _ src' hs' => ?_, fun _ d hd => hall _ (destBay_mem hd)⟩).covers
  obtain rfl := Option.some.inj (hs.symm.trans hs')
  exact hall _ (by rw [hneeded]; exact List.mem_cons_self)

/-- R150: a YIELD or PARK that has arrived leaves the crane without a ticket, with the bay as its claim. -/
theorem covers_arriveBound (hk : k < 3) (bay : Nat) : (arriveBound e y k slot bay).claimCovers e k := by
  refine Yard.claimCovers_idle (freeCrane_current hk) fun _ h => ?_
  have hunbind : Yard.Spares e 3 24 ((finishTicket e y slot .done .done).setClaim k (some (.single bay)))
      (unbind ((finishTicket e y slot .done .done).setClaim k (some (.single bay))) (y.ticketHandle slot)) := spares_unbind _ _
  have hclaim := hunbind.claim_eq k
  rw [Yard.claim_setClaim_same _ _ _ hk] at hclaim
  exact Option.some_ne_none _ (hclaim.symm.trans h)

/-- R151, R152: the claim after a fitting ARRIVED. -/
theorem covers_arrivedEffect (hk : k < 3) (h : y.worksOn e k slot t) (hfits : arrivedFits y k o t = true)
    (hgranted : t.state = .granted →
      t.kind = .yield ∨ t.kind = .park ∨ ∃ src, t.source = some src ∧ ∀ j, src ≠ .hook j) :
    (arrivedEffect e y k slot o.arg t).claimCovers e k := by
  obtain ⟨-, hst⟩ := arrivedFits_iff hfits
  have hbay := worksOn_lastBay hk o.arg h hst
  unfold arrivedEffect
  dsimp only
  split
  · rename_i hl
    exact covers_arriveLaden hk o.arg hbay hl
  · rename_i hl
    split
    · exact covers_arriveBound hk o.arg
    · rename_i hbound
      rw [not_or] at hbound
      rcases hgranted (hst.resolve_right hl) with hy | hp | ⟨src, hs, hhook⟩
      · exact absurd hy hbound.1
      · exact absurd hp hbound.2
      · exact covers_arriveSource hk hbay hs hhook

/-! ## The searches after a lift with the hold-pending mark (R111, R184) -/

theorem destBay_of_fixed (hf : y'.fixed = y.fixed) (d : Dest) : destBay y' d = destBay y d := by
  have hstack : ∀ (z : Yard) s, getOr z.fixed.stackRecs s (StackRecord.fixed .reset) = (z.stack s).fixed :=
    fun z s => getOr_map _ _ _ _
  have hlane : ∀ (z : Yard) l, getOr z.fixed.lanes l (LaneRecord.fixed .reset) = (z.lane l).fixed := fun z l => getOr_map _ _ _ _
  have htruck : ∀ (z : Yard) n, getOr z.fixed.trucks n (TruckRecord.fixed .reset) = (z.truck n).fixed :=
    fun z n => getOr_map _ _ _ _
  cases d with
  | stack s =>
    have h := (hstack y' s).symm.trans ((congrArg (fun z : Yard => getOr z.stackRecs s _) hf).trans (hstack y s))
    exact (congrArg StackRecord.bay h :)
  | lane l =>
    have h := (hlane y' l).symm.trans ((congrArg (fun z : Yard => getOr z.lanes l _) hf).trans (hlane y l))
    exact (congrArg LaneRecord.bay h :)
  | truck n =>
    have h := (htruck y' n).symm.trans ((congrArg (fun z : Yard => getOr z.trucks n _) hf).trans (htruck y n))
    exact (congrArg TruckRecord.bay h :)
  | bay b => rfl

theorem giveDest_ticketAt_ne {n j : Nat} (d : Dest) (hj : j ≠ n) : (giveDest y n d).ticketAt j = y.ticketAt j := by
  unfold giveDest claimDest
  split <;> exact Yard.ticketAt_updTicket_ne _ _ _ _ hj.symm

/-- A laden ticket that its crane works on. -/
structure Yard.carries (e : Site) (y : Yard) (k slot : Nat) (t : Ticket) : Prop extends Yard.worksOn e y k slot t where
  lifted : t.state = .lifted
  crane  : t.crane = some k

theorem heldBy_lifted (hst : t.state = .lifted) (h : ∀ d, t.dest = some d → c.holds (destBay y d) = true) : t.heldBy e y c := by
  refine ⟨fun h => ?_, fun h => ?_, fun _ => h⟩
  all_goals
    rw [hst] at h
    cases h

/-- R185: a destination given to another ticket. -/
theorem carries_giveDest {n : Nat} (h : y.carries e k slot t) (hn : n ≠ slot) (d : Dest) :
    (giveDest y n d).carries e k slot t := by
  obtain ⟨c, hc, htravel, hheld⟩ := h.held
  have hf := fixed_giveDest y n d
  refine ⟨⟨?_, (giveDest_ticketAt_ne d hn.symm).trans h.ticket, c, (claim_giveDest n d k).trans hc, fun o ho => ?_,
    heldBy_lifted h.lifted fun d' hd' => ?_⟩, h.lifted, h.crane⟩
  · rw [crane_giveDest]
    exact h.current.trans (congrArg (fun g => some (Handle.mk slot g)) (gen_of_fixed hf slot).symm)
  · rw [crane_giveDest] at ho
    exact htravel o ho
  · rw [destBay_of_fixed hf]
    exact hheld.laden (.inr (.inl h.lifted)) d' hd'

/-- R153, R185: a laden ticket redirected, on this crane or on another one. -/
theorem carries_giveLaden {n m s : Nat} (hm : m < 3) (hs : s < 40) (h : y.carries e k slot t) (hu : y.ticketAt n = some u)
    (huc : u.crane = some m) (hc : y.claim m = some c) : ∃ t', (giveLaden e y n m s).carries e k slot t' := by
  obtain ⟨z, hz, hgiven, -, harb, hcrane, -, hslots, -, hothers, -⟩ := giveLaden_frame (e := e) hm hs hu hc rfl
  have hf := fixed_giveLaden e y n m s
  rw [hz] at hf ⊢
  have hhandle : z.ticketHandle slot = y.ticketHandle slot := congrArg (Handle.mk slot) (gen_of_fixed hf slot)
  obtain ⟨a, ha, htravel, hheld⟩ := h.held
  have hdest : ∀ d, t.dest = some d → a.holds (destBay y d) = true := hheld.laden (.inr (.inl h.lifted))
  have hold : n ≠ slot → z.ticketAt slot = some t := fun hn =>
    (congrArg TicketSlot.ticket (hslots slot hn.symm)).trans h.ticket
  by_cases hmk : m = k
  · subst hmk
    obtain rfl := Option.some.inj (ha.symm.trans hc)
    have hclaim : z.claim m = some (a.join (y.stack s).bay) := congrArg ArbiterRecord.claim harb
    have htravel' : z.travelHeld m (a.join (y.stack s).bay) := fun o ho _ => by
      rw [hcrane] at ho
      obtain rfl := Option.some.inj ho
      exact Interval.holds_join _ _
    have hcur : (z.crane m).current = some (z.ticketHandle slot) := by
      rw [hcrane, hhandle]
      exact h.current
    by_cases hn : n = slot
    · subst hn
      obtain rfl := Option.some.inj (hu.symm.trans h.ticket)
      refine ⟨u.given (.stack s), ⟨⟨hcur, congrArg TicketSlot.ticket hgiven, _, hclaim, htravel',
        heldBy_lifted h.lifted fun d hd => ?_⟩, h.lifted, h.crane⟩⟩
      obtain rfl : Dest.stack s = d := Option.some.inj hd
      rw [destBay_of_fixed hf]
      exact Interval.holds_join _ _
    · refine ⟨t, ⟨⟨hcur, hold hn, _, hclaim, htravel', heldBy_lifted h.lifted fun d hd => ?_⟩, h.lifted, h.crane⟩⟩
      rw [destBay_of_fixed hf]
      exact Interval.holds_join_of _ (hdest d hd)
  · have hn : n ≠ slot := fun hn => by
      subst hn
      obtain rfl := Option.some.inj (hu.symm.trans h.ticket)
      exact hmk (Option.some.inj (huc.symm.trans h.crane))
    obtain ⟨hsame, harbk, -⟩ := hothers k (Ne.symm hmk)
    refine ⟨t, ⟨⟨?_, hold hn, a, (congrArg ArbiterRecord.claim harbk).trans ha, fun o ho => ?_,
      heldBy_lifted h.lifted fun d hd => ?_⟩, h.lifted, h.crane⟩⟩
    · rw [hsame, hhandle]
      exact h.current
    · rw [hsame] at ho
      exact htravel o ho
    · rw [destBay_of_fixed hf]
      exact hdest d hd

/-- R111: a laden search found a stack for the crane of its ticket, which has a claim. -/
theorem ladenTarget_some {f : Nat × Nat} (h : ladenTarget e y t = some f) :
    f.1 < 3 ∧ f.2 < 40 ∧ t.crane = some f.1 ∧ ∃ c, y.claim f.1 = some c := by
  unfold ladenTarget at h
  split at h
  · rename_i p src m _ _ _ hcrane
    obtain ⟨s, hs, rfl⟩ := Option.map_eq_some_iff.1 h
    obtain ⟨c, hc, -⟩ := ladenStack_some hs
    refine ⟨?_, ladenStack_lt hs, hcrane, c, hc⟩
    by_contra hm
    rw [Yard.claim_ge y (by omega)] at hc
    cases hc
  · cases h

/-- R111: the search of any ticket leaves the crane at work on its own. -/
theorem carries_redirectOne (n : Nat) (h : y.carries e k slot t) : ∃ t', (redirectOne e y n).carries e k slot t' := by
  cases hu : y.ticketAt n with
  | none => exact ⟨t, by rwa [redirectOne_free hu]⟩
  | some u =>
    by_cases hl : u.state = .lifted
    · rw [redirectOne_laden hu hl]
      cases hf : ladenTarget e y u with
      | none => exact ⟨t, h⟩
      | some f =>
        obtain ⟨hm, hs, huc, c, hc⟩ := ladenTarget_some hf
        exact carries_giveLaden hm hs h hu huc hc
    · have hn : n ≠ slot := fun hn => by
        subst hn
        obtain rfl := Option.some.inj (hu.symm.trans h.ticket)
        exact hl h.lifted
      have hgive : ∀ d, ∃ t', (giveDest y n d).carries e k slot t' := fun d => ⟨t, carries_giveDest h hn d⟩
      unfold redirectOne
      simp only [hu, hl, if_false]
      split
      · split
        · split
          · exact hgive _
          · exact ⟨t, h⟩
        · exact ⟨t, h⟩
      · exact ⟨t, h⟩

theorem carries_redirectEach (slots : List Nat) (h : y.carries e k slot t) :
    ∃ t', (forEach slots (redirectOne e) y).carries e k slot t' := by
  unfold forEach
  induction slots generalizing y t with
  | nil => exact ⟨t, h⟩
  | cons n slots ih =>
    obtain ⟨t', h'⟩ := carries_redirectOne n h
    exact ih h'

/-! ## LIFTED (R129, R153, R184) -/

theorem worksOn_hooked (h : y.worksOn e k slot t) (ho : (y.crane k).stage = some o) (hkind : o.kind = .lift)
    (hd : ∀ c, t.heldBy e y c → ∀ d, u.dest = some d → c.holds (destBay y d) = true) (hu : u.state = .lifted)
    (hat : y'.ticketAt slot = some u) (hsp : Yard.Spares e k slot y y')
    (hcrane : y'.crane k = { y.crane k with hook := some p }) (hclaim : y'.claim k = y.claim k) : y'.worksOn e k slot u := by
  obtain ⟨c, hc, -, hheld⟩ := h.held
  refine ⟨by rw [hcrane, hsp.ticketHandle]; exact h.current, hat, c, hclaim.trans hc, fun o' ho' htravel => ?_,
    heldBy_lifted hu fun d hdest => ?_⟩
  · rw [hcrane] at ho'
    obtain rfl := Option.some.inj (ho.symm.trans ho')
    rw [hkind] at htravel
    cases htravel
  · rw [hsp.destBay]
    exact hd c hheld d hdest

/-- R153: a good lift to the destination, or to wait for one. -/
theorem covers_sendDest (hk : k < 3) (h : y.worksOn e k slot t) (ho : (y.crane k).stage = some o) (hkind : o.kind = .lift)
    (hst : t.state = .lifting) (hw : t.weightFailed = false) (hh : t.holdPending = false) :
    (sendLaden e (y.hooked e k slot p src) k slot t src).claimCovers e k := by
  have hsp : Yard.Spares e k slot y (y.hooked e k slot p src) := spares_hooked
  have hhook : (y.hooked e k slot p src).worksOn e k slot { t with state := .lifted } :=
    worksOn_hooked h ho hkind (fun c hheld d hd => hheld.laden (.inl ⟨hst, hw, hh⟩) d hd) rfl (hooked_ticket h.ticket) hsp
      (hooked_crane hk) (hooked_rest k).1
  unfold sendLaden
  rw [hh, if_neg Bool.false_ne_true]
  split
  · rename_i d hd
    obtain ⟨hcrane, -, -, -⟩ := sendTravel_frame e (y.hooked e k slot p src) (destBay (y.hooked e k slot p src) d) hk
    obtain ⟨c, hc, -, hheld⟩ := hhook.held
    have hbay := hheld.laden (.inr (.inl rfl)) d hd
    refine Yard.worksOn.covers (t := { t with state := .lifted }) ⟨?_, hhook.ticket, c, hc, fun o' ho' _ => ?_,
      heldBy_lifted rfl fun d' hd' => ?_⟩
    · rw [hcrane]
      exact hhook.current
    · rw [hcrane] at ho'
      obtain rfl := Option.some.inj ho'
      exact hbay
    · obtain rfl := Option.some.inj (hd.symm.trans hd')
      exact hbay
  · exact (worksOn_clearStage hk hhook).covers

/-- R184, R185: a good lift of a PICK that is held: where the laden search sends it, or the source bay. -/
theorem covers_sendHeld (hk : k < 3) (h : y.worksOn e k slot t) (hc : t.crane = some k) (ho : (y.crane k).stage = some o)
    (hkind : o.kind = .lift) (hh : t.holdPending = true) :
    (sendLaden e (y.hooked e k slot p src) k slot t src).claimCovers e k := by
  have hlose : Yard.Spares e k slot (y.hooked e k slot p src) (y.unaimed e k slot p src) :=
    .updTicket _ slot _ (fun _ _ h u hu => h.tickets slot u hu) (.inl rfl)
  have hunaimed : (y.unaimed e k slot p src).carries e k slot t.unaimed :=
    ⟨worksOn_hooked h ho hkind (fun _ _ d hd => by cases hd) rfl (unaimed_ticket h.ticket) (spares_hooked.trans hlose)
      (hooked_crane hk) (unaimed_claim k), rfl, hc⟩
  obtain ⟨u, hcarries⟩ := carries_redirectEach (y.unaimed e k slot p src).moveQueue hunaimed
  have hz : redirectAll e (loseDest (y.hooked e k slot p src) slot)
      = forEach (y.unaimed e k slot p src).moveQueue (redirectOne e) (y.unaimed e k slot p src) := rfl
  unfold sendLaden
  rw [if_pos hh, hz]
  dsimp only
  rw [hcarries.ticket]
  split
  · exact hcarries.covers
  · rename_i hd
    exact (worksOn_setClaim hk hcarries.toworksOn hcarries.lifted hd _).covers

/-- R153, R184: the claim after a good lift. -/
theorem covers_liftPassed (hk : k < 3) (h : y.worksOn e k slot t) (hc : t.crane = some k) (ho : (y.crane k).stage = some o)
    (hfits : liftedFits y k o t = true) : (liftPassed e y k slot t p src).claimCovers e k := by
  obtain ⟨hkind, hst, hw⟩ := liftedFits_iff hfits
  cases hh : t.holdPending with
  | false => exact covers_sendDest hk h ho hkind hst hw hh
  | true => exact covers_sendHeld hk h hc ho hkind hh

end

end Sys2Proof.Machine
end

