-- ==== Sys2Proof/Proofs/FollowUpWork.lean ====
section
/-! PROOF. The work that follows a change of the yard (R111, R121 to R127, R139 to R147, R151 to R153, R180, R181, R184, R185). -/

namespace Sys2Proof.Machine

section
variable {e : Site} {y z : Yard} {slot i : Nat} {t : Ticket}

/-! ## The clauses that join several rules -/

/-- R121, R181: the conditions of the reasons of a ticket for a piece. -/
theorem evalWaits_conditions {front back : List Nat} {pickOf : Nat → Nat → Prop} (ht : y.ticketAt slot = some t)
    (hst : t.state = .pending ∨ t.state = .ready) (hq : y.moveQueue = front ++ slot :: back) (hfront : slot ∉ front)
    (hpick : ∀ k i, pickOf k i ↔ ∃ u, y.ticketAt i = some u ∧ u.state.isActive = true ∧ u.kind = .pick ∧ u.truck = some k)
    (hyield : t.kind ≠ .yield) (hpark : t.kind ≠ .park) :
    ((evalWaits e y slot t).after = true
      ↔ t.after = true ∧ ∃ i ∈ front, ∃ u, y.ticketAt i = some u ∧ u.state.isActive = true)
    ∧ (∀ b n, t.source = some (.bed b n) → ((evalWaits e y slot t).source = true ↔
        (getOr e.beds b .reset).state ≠ .released ∧ (getOr e.beds b .reset).state ≠ .stripping))
    ∧ (∀ l, t.source = some (.lane l) → ((evalWaits e y slot t).source = true ↔ (y.lane l).pieces.head? ≠ t.piece))
    ∧ (∀ k tier, t.source = some (.truck k tier) → ((evalWaits e y slot t).source = true
        ↔ (y.truck k).pieces.getLast? ≠ t.piece ∨ ∃ i ∈ y.moveQueue, pickOf k i))
    ∧ (∀ i tier, t.source = some (.stack i tier) →
        ((evalWaits e y slot t).buried = true ↔ ⟨.lift, y.ticketHandle slot⟩ ∉ (y.stack i).claims)
        ∧ ((evalWaits e y slot t).source = true ↔ ⟨.lift, y.ticketHandle slot⟩ ∈ (y.stack i).claims
          ∧ (y.stack i).claims.head? ≠ some ⟨.lift, y.ticketHandle slot⟩))
    ∧ ((∀ i tier, t.source ≠ some (.stack i tier)) → (evalWaits e y slot t).buried = false)
    ∧ (t.source = none ∨ (∃ k, t.source = some (.hook k)) → (evalWaits e y slot t).source = false)
    ∧ (∀ i, t.dest = some (.stack i) → ((evalWaits e y slot t).dest = true
        ↔ (y.stack i).claims.head? ≠ some ⟨.place, y.ticketHandle slot⟩))
    ∧ ((∀ i, t.dest ≠ some (.stack i)) → (evalWaits e y slot t).dest = false)
    ∧ ((evalWaits e y slot t).order = true ↔ t.kind = .pick ∧ ∃ k, t.truck = some k ∧ ∃ i ∈ front, pickOf k i)
    ∧ ((evalWaits e y slot t).redirect = true ↔ t.dest = none) := by
  have hahead : ahead y slot = front := ahead_of_split y slot front back hq hfront
  rw [evalWaits_piece hyield hpark]
  dsimp only
  refine ⟨?_, fun b n => sourceWaits_bed, fun l => sourceWaits_lane, fun k tier hs => ?_,
    fun i tier hs => ⟨?_, sourceWaits_stack hs⟩, fun hs => ?_, sourceWaits_none, fun i => destWaits_stack, destWaits_other, ?_, Option.isNone_iff_eq_none⟩
  · rw [Bool.and_eq_true, hahead, any_activeAt_iff]
  · rw [sourceWaits_truck hs, any_activePick_iff hpick]
  · rw [buriedIn_stack ht hst hs]
    split
    · rename_i hlift
      exact ⟨fun h => (by cases h), fun h => absurd hlift h⟩
    · rename_i hlift
      exact ⟨fun _ => hlift, fun _ => rfl⟩
  · rw [buriedIn_other ht hs]
    rfl
  · rw [orderWaits_iff, hahead]
    simp only [any_activePick_iff hpick]

/-- R123: the effective level of an active ticket by its kind. -/
theorem level_by_kind {kept : Prop} (hlevel : t.level = ticketLevel e z slot t)
    (hkept : ¬z.takesLevel slot t → kept) :
    (∀ b n, t.kind = .strip → t.source = some (.bed b n) → t.level = max t.baseLevel (getOr e.beds b .reset).turnover)
    ∧ (∀ l, t.kind = .stow → t.source = some (.lane l) → t.level = max t.baseLevel (z.lane l).demand)
    ∧ (∀ listed : Nat → Prop, t.kind = .pick → (∀ k, listed k ↔ z.picksFor t k) →
      (∀ k, listed k → t.level = (z.truck k).level) ∧ ((∀ k, ¬listed k) → kept))
    ∧ (∀ served : Ticket → Prop, t.kind = .dig ∨ t.kind = .yield → (∀ u, served u ↔ z.servesAt slot t u) →
      (∀ u, served u → t.level = u.level) ∧ ((∀ u, ¬served u) → kept))
    ∧ (t.kind = .shift ∨ t.kind = .park → t.level = t.baseLevel) := by
  refine ⟨fun b n hk hs => ?_, fun l hk hs => ?_, fun listed hk hlisted => ⟨fun k hl => ?_, fun hnone => hkept fun h => ?_⟩,
    fun served hk hserved => ⟨fun u hu => ?_, fun hnone => hkept fun h => ?_⟩, fun hk => ?_⟩
  · rw [hlevel, ticketLevel, hk, hs]
  · rw [hlevel, ticketLevel, hk, hs]
  · exact hlevel.trans (ticketLevel_listed hk ((hlisted k).1 hl))
  · obtain ⟨k, hp⟩ := h.1 hk
    exact hnone k ((hlisted k).2 hp)
  · exact hlevel.trans (ticketLevel_serving hk ((hserved u).1 hu))
  · obtain ⟨u, hu⟩ := h.2 hk
    exact hnone u ((hserved u).2 hu)
  · rw [hlevel, ticketLevel]
    rcases hk with hk | hk <;> rw [hk]

/-- R111, R153, R185: what the search of a ticket without a destination does. -/
theorem redirectOne_cases {p : Handle} {src : Location} {given : Dest → Ticket} (ht : y.ticketAt slot = some t)
    (hd : t.dest = none) (hp : t.piece = some p) (hs : t.source = some src) (hgiven : ∀ d, given d = t.given d) :
    (t.state = .pending ∨ t.state = .ready →
      (unladenDest e y t src p = none → redirectOne e y slot = y)
      ∧ (∀ i, unladenDest e y t src p = some (.stack i) → ∃ y1, redirectOne e y slot = y1
        ∧ y1.ticketSlot slot = ⟨(y.ticketSlot slot).gen, some (given (.stack i))⟩
        ∧ y1.stack i = { y.stack i with claims := (y.stack i).claims ++ [⟨.place, y.ticketHandle slot⟩] }
        ∧ (∀ j, j ≠ slot → y1.ticketSlot j = y.ticketSlot j) ∧ (∀ j, j ≠ i → y1.stack j = y.stack j)
        ∧ { y1 with tickets := y.tickets, stackRecs := y.stackRecs } = y)
      ∧ ∀ l, unladenDest e y t src p = some (.lane l) → ∃ y1, redirectOne e y slot = y1
        ∧ y1.ticketSlot slot = ⟨(y.ticketSlot slot).gen, some (given (.lane l))⟩
        ∧ y1.lane l = { y.lane l with reservations := (y.lane l).reservations + 1 }
        ∧ (∀ j, j ≠ slot → y1.ticketSlot j = y.ticketSlot j) ∧ (∀ j, j ≠ l → y1.lane j = y.lane j)
        ∧ { y1 with tickets := y.tickets, lanes := y.lanes } = y)
    ∧ (∀ k c, k < 3 → t.state = .lifted → t.crane = some k → y.claim k = some c →
      (ladenStack e y k p = none → redirectOne e y slot = y)
      ∧ ∀ i bay, ladenStack e y k p = some i → bay = (y.stack i).bay → ∃ y1, redirectOne e y slot = y1
        ∧ y1.ticketSlot slot = ⟨(y.ticketSlot slot).gen, some (given (.stack i))⟩
        ∧ y1.stack i = { y.stack i with claims := (y.stack i).claims ++ [⟨.place, y.ticketHandle slot⟩] }
        ∧ y1.arb k = { y.arb k with claim := some ⟨min c.lo bay, max c.hi bay⟩ }
        ∧ y1.crane k = { y.crane k with
            stage := some ⟨.travel, (y.crane k).nextSeq, bay⟩
            nextSeq := ((y.crane k).nextSeq + 1) % 256
            timer := if (y.crane k).halted then (y.crane k).timer else some ⟨e.settings.stageTimeout, false⟩ }
        ∧ y1.link k = (y.link k).put (linkFrame 0x41 (y.crane k).nextSeq [BitVec.ofNat 8 bay])
        ∧ (∀ j, j ≠ slot → y1.ticketSlot j = y.ticketSlot j) ∧ (∀ j, j ≠ i → y1.stack j = y.stack j)
        ∧ (∀ j, j ≠ k → y1.crane j = y.crane j ∧ y1.arb j = y.arb j ∧ y1.link j = y.link j)
        ∧ { y1 with
            tickets := y.tickets
            stackRecs := y.stackRecs
            arbiter := y.arbiter
            cranes := y.cranes
            links := y.links } = y) := by
  refine ⟨fun hw => ?_, fun k c hk hst hc hclaim => ?_⟩
  · have hsearch := redirectOne_unladen (e := e) ht hd hp hs hw
    refine ⟨fun hf => by rw [hsearch, hf]; rfl, fun i hf => ⟨giveDest y slot (.stack i), by rw [hsearch, hf]; rfl, ?_⟩,
      fun l hf => ⟨giveDest y slot (.lane l), by rw [hsearch, hf]; rfl, ?_⟩⟩
    · obtain ⟨i', hi, heq⟩ | ⟨l, -, heq⟩ := unladenDest_lt hf
      · cases heq
        rw [hgiven]
        exact giveDest_stack_frame ht hi
      · cases heq
    · obtain ⟨i, -, heq⟩ | ⟨l', hl, heq⟩ := unladenDest_lt hf
      · cases heq
      · cases heq
        rw [hgiven]
        exact giveDest_lane_frame ht hl
  · have htarget := ladenTarget_eq (e := e) (y := y) hd hp hs hc
    refine ⟨fun hf => redirectOne_stays ht hst (by rw [htarget, hf]; rfl), fun i bay hf hbay => ?_⟩
    rw [redirectOne_found ht hst (k := k) (s := i) (by rw [htarget, hf]; rfl), hgiven]
    exact giveLaden_frame hk (ladenStack_lt hf) ht hclaim hbay

/-- R125: the tickets for which there is no dig round. -/
theorem digRound_none_of (ht : y.ticketAt slot = some t) (h : t.dig = false ∨ t.state ≠ .pending ∧ t.state ≠ .ready
    ∨ (∀ i tier, t.source ≠ some (.stack i tier))
    ∨ (∃ i tier, t.source = some (.stack i tier) ∧ ⟨.lift, y.ticketHandle slot⟩ ∈ (y.stack i).claims)) :
    digRound e y slot = y := by
  rcases h with h | h | h | ⟨i, tier, hs, hlift⟩
  · exact digRound_none ht (.inl h)
  · exact digRound_none ht (.inr (buriedIn_notWaiting ht (not_or.2 h)))
  · exact digRound_none ht (.inr (buriedIn_other ht h))
  · by_cases hw : t.state = .pending ∨ t.state = .ready
    · exact digRound_none ht (.inr (by rw [buriedIn_stack ht hw hs, if_pos hlift]))
    · exact digRound_none ht (.inr (buriedIn_notWaiting ht hw))

/-- R143 to R147: the steps for a READY ticket, in their order. -/
theorem examine_order (ht : y.ticketAt slot = some t) :
    (∀ k, idleCrane e y slot t = some k → examine e y slot = (grant e y slot k t, true))
    ∧ (idleCrane e y slot t = none →
      (t.piece = none ∨ (∃ j, t.source = some (.hook j)) → examine e y slot = (y, false))
      ∧ (t.piece ≠ none → (∀ j, t.source ≠ some (.hook j)) →
        (∀ k, preemptCrane e y t = some k → examine e y slot = (preempt e y slot k t, true))
        ∧ (preemptCrane e y t = none →
          (∀ k, yieldCrane e y t = some k → examine e y slot
            = (makeYields e y slot k t, decide ((makeYields e y slot k t).moveQueue ≠ y.moveQueue)))
          ∧ (yieldCrane e y t = none → examine e y slot = (y, false))))) := by
  refine ⟨fun k => examine_idle ht, fun hidle => ⟨fun hbound => examine_bound ht hidle fun hyard => ?_, fun hpiece hhook => ?_⟩⟩
  · obtain ⟨hpiece, hhook⟩ := fromYard_iff.1 hyard
    rcases hbound with h | ⟨j, h⟩
    · exact hpiece h
    · exact hhook j h
  · have hyard := fromYard_iff.2 ⟨hpiece, hhook⟩
    exact ⟨fun k => examine_preempt ht hidle hyard,
      fun hp => ⟨fun k => examine_yield ht hidle hyard hp, examine_nothing ht hidle hyard hp⟩⟩

end

/-- Settles O54: each clause is one of the rules proved above: the frame of the follow-up work and of the arbiter
(`Yard.Extends`), the tickets evaluated and levelled, the promotions, the waiting work that ends, the arbiter's choices and
steps, the walks that end, and the claims after a report. -/
theorem followUpWorkKeepsTheRecords : Obligations.FollowUpWorkKeepsTheRecords := by
  refine ⟨fun e y0 y1 => ⟨⟨fixed_settle e y0 y1, fixed_settleClaim e y1⟩,
    ⟨(extends_settle e y0 y1).keeps, (extends_settleClaim e y1).keeps⟩, fun slot t hslot ht hw =>
      evaluatedAt_followUp e y1 slot hslot t ht hw, fun h => evaluate_heldBack e y1 ?_⟩,
    fun e y slot t h front back w pickOf ht hst hh hq hfront hw hpick => ?_,
    fun e y0 y z hn hu hz slot t kept ht ha hkept => ?_,
    fun y i may hi hmay => ?_, fun _ => rfl,
    fun e y z => ⟨fun hz => ?_, followUp_iterate e y, fun hz => ?_⟩,
    fun e y slot t p src ht => ⟨redirectOne_settled ht, fun hd hp hs given hgiven => redirectOne_cases ht hd hp hs hgiven⟩,
    fun e y slot t ht => ⟨digRound_none_of ht, fun i tier x below above hdig hst hs hlift hp hpieces hx => ?_⟩,
    fun e y slot i c cs p t hp ht => ⟨rfl, digWalk_ticketed hp ht, fun hticket => ⟨fun h =>
      digWalk_stuck hp ht hticket (digFind_eq_none.2 h), fun free d tier hh hfree hroom htop hd hloc hhandle => ?_⟩⟩,
    fun e y0 y ho => ⟨claimsOrdered_evaluate ho, (keeps_settle e y0 y).ordered ho, (keeps_settleClaim e y).ordered ho,
      fun k bay => claimsOrdered_homedEffect ho⟩,
    fun y k i => reaches_iff,
    fun e y t k dests hnone hstack hlane htruck hbay => ?_,
    by decide,
    fun y slot next t u => selectionKey_lt_iff,
    fun e y last n => ⟨fun h => ⟨walk_none e n h, nextReady_none h⟩, fun slot h => ?_⟩,
    fun e y after => evaluate_spec after,
    fun e y0 y z old occ hz hold hocc => ?_,
    fun y slot k t => ⟨mayServe_bound, fun hy hp => ⟨fun j => mayServe_hook hy hp, mayServe_yard hy hp⟩⟩,
    fun e y slot t may far hmay hfar => ?_,
    fun e y y1 slot k b t c rest hk ht hc hb hy1 => ?_,
    fun e y t served hq hserved => ?_,
    fun y k i hk => ⟨blockers_sorted y k i, fun j => mem_blockers_iff hk, fun j target _ =>
      ⟨fun hj => ⟨yieldTarget_below hj, mayYield_below hj⟩, fun hj => ⟨yieldTarget_above hj, mayYield_above hj⟩⟩⟩,
    fun e y t may far hfar hmay => ?_,
    fun e y slot k t i => makeYields_eq,
    fun e y y1 served level k j target i hj htarget hy1 => ⟨fun h => ?_, fun slot hlt hnone hlow => ?_⟩,
    fun e y slot t => examine_order,
    fun e y k slot t o hk ht hc hcovers ho => ?_⟩
  · unfold heldBack someClaimEmpty
    rcases h with h | ⟨k, hk, hc⟩
    · rw [h, Bool.true_or]
    · have hcases : k = 0 ∨ k = 1 ∨ k = 2 := by omega
      rcases hcases with rfl | rfl | rfl <;> simp [hc]
  · subst hh hw
    exact ⟨evalWaits_stop, evalWaits_bay, evalWaits_conditions ht hst hq hfront hpick⟩
  · obtain ⟨⟨-, hlevels⟩, hkeeps⟩ := settled_after ⟨hn, hu⟩ hz
    exact level_by_kind (hlevels slot t ht ha) fun h => hkept.2 (hkeeps.kept ⟨hn, hu⟩ ht h)
  · obtain ⟨hdone, hfirst⟩ := promote_first hi hmay
    exact ⟨hdone, fun slot hroom hslot hleast => ⟨_, hfirst slot hroom hslot hleast, promoted_frame hi⟩,
      fun h => ⟨_, rfl, y.updStack_frame _ hi⟩, fun e c => removeClaim_frame e c hi, promote_promoteAll hi⟩
  · rw [hz]
    rfl
  · rw [hz]
    exact worked_followUp e y
  · rw [digRound_buried ht hdig (by rw [buriedIn_stack ht hst hs, if_neg hlift]), covering_eq hpieces hx hp]
  · have hfind := digFind_eq_some.2 ⟨hfree, hroom, htop, hd⟩
    obtain ⟨u, hframe⟩ := makeDig_frame (slot := slot) (t := t) hp hfind hloc hhandle
    exact ⟨_, u, digWalk_digs hp ht hticket hfind, hframe⟩
  · have hdests : destBays y t = dests := destBays_eq hnone hstack hlane htruck hbay
    subst hdests
    refine ⟨fun h => neededBays_none (.inl h), fun j h => neededBays_none (.inr ⟨j, h⟩), fun b n h => neededBays_yard h nofun,
      fun l h => neededBays_yard h nofun, fun n tier h => neededBays_yard h nofun, fun n tier h => neededBays_yard h nofun,
      fun c hc => ⟨_, span_claim hc, Interval.foldl_join_spec c _⟩, reachesTicket_iff⟩
  · obtain ⟨t, ht, hr, hlt, hkey, hleast⟩ := nextReady_some h
    exact ⟨nextReady_mem h, t, ht, hr, hlt, hleast, _, rfl, walk_some e n h hkey⟩
  · have hiff : occasion y0 z = true ↔ occ := (occasion_iff hold).trans hocc.symm
    refine ⟨fun ho => ?_, fun ho => ?_, by rw [hz]; rfl⟩
    · rw [settle_eq, ← hz, if_pos (hiff.2 ho), hz]
      rfl
    · rw [settle_eq, ← hz, if_neg (mt hiff.1 ho)]
  · subst hfar
    exact ⟨fun k c b rest => craneDistance_eq, leastCrane fun k => (hmay k).trans (by rw [Bool.and_eq_true])⟩
  · obtain ⟨harb, harbs, hslot, hslots, hcrane, hcranes, hlink, hlinks, hrest⟩ := grant_frame (e := e) hk ht hb
    rw [hy1]
    exact ⟨harb, harbs, hslot, hslots, hcrane, hcranes, hlink, hlinks, hrest, grant_claimCovers hk ht hc hb⟩
  · obtain ⟨hnone, hsome⟩ := preemptCrane_spec hq hserved
    exact ⟨hnone, hsome, fun k u v slot h => preempt_frame ((hserved k u v).1 h).2.2⟩
  · subst hfar
    exact leastCrane fun k => (hmay k).trans (and_congr_right fun _ => yieldCandidate_iff.symm)
  · rw [hy1, makeYield_full (freeTicketSlot_none h)]
  · have hm := makeYield_made (e := e) (served := served) (level := level) (freeTicketSlot_lowest hlt hnone hlow) htarget
    rw [← hy1] at hm
    have harb : ∀ n, y1.arb n
        = getOr (upd y.arbiter j (fun a => { a with bound := some (y.ticketHandle slot) })) n ⟨none, none⟩ :=
      fun n => congrArg (fun v => getOr v n (⟨none, none⟩ : ArbiterRecord)) hm.arb
    exact ⟨hm.made, hm.others, hm.queue, (harb j).trans (getOr_upd_same _ _ _ _ hj),
      fun n hne => (harb n).trans (getOr_upd_ne _ _ _ _ _ hne.symm), hm.rest⟩
  · have hworks := worksOn_of_covers ht hcovers
    exact ⟨covers_arrivedEffect hk hworks, fun p src hfits _ _ _ => covers_liftPassed hk hworks hc ho hfits⟩

end Sys2Proof.Machine
end
